-- ==== Sys2Proof/Word.lean ====
section
/-! DEFINITION. The word types of the Nalbex N9 (spec/00_scope.md R6, spec/06_execution_model.md R158). -/
namespace Sys2Proof

/-- An 8-bit byte. -/
abbrev Byte := BitVec 8
/-- A code halfword (R219). -/
abbrev Half := BitVec 16
/-- A 64-bit scalar register or control-register value. -/
abbrev Word := BitVec 64
/-- A 128-byte vector register (R158). -/
abbrev VWord := BitVec 1024
/-- A 256-byte moment register, 32 moment elements (R158). -/
abbrev MWord := BitVec 2048
/-- A 128-bit mask register or capability value (R25, R158). -/
abbrev KWord := BitVec 128

/-- The bits [hi:lo] of a number, as a number (R6). -/
def bitsOf (x hi lo : Nat) : Nat := (x >>> lo) % 2 ^ (hi + 1 - lo)

/-- Bit `i` of a number. -/
def bitOf (x i : Nat) : Bool := x.testBit i

/-- A Bool as the bit 0 or 1. -/
def bit01 (b : Bool) : Nat := if b then 1 else 0

end Sys2Proof
end

