-- ==== Sys2Proof/Syntax.lean ====
section
/-! DEFINITION. The instructions and events of spec/opcode_table.json as syntax: one constructor of `Instr` for each
row. Operand fields are bounded by their types where spec/09 R230 and R232 bound them; what else makes an
instruction well formed stands in WellFormed.lean. -/
namespace Sys2Proof

/-- Register numbers by class (R230). -/
abbrev SReg := Fin 32
abbrev VReg := Fin 32
abbrev MReg := Fin 16
abbrev CReg := Fin 8
abbrev QReg := Fin 8
abbrev KReg := Fin 4
/-- A context slot of a core (R161). -/
abbrev SlotId := Fin 4

/-- Integer and element widths (R232: IT bits [1:0], EW). -/
inductive Width where
  | b8 | b16 | b32 | b64
deriving DecidableEq, Repr

/-- An integer type code IT (R232): a width, and signed or unsigned. -/
structure IT where
  w : Width
  uns : Bool
deriving DecidableEq, Repr

/-- A float format code FC (R232). -/
inductive FC where
  | f64 | f32 | f16 | bf16
deriving DecidableEq, Repr

/-- A scope code SC (R109, R232). -/
inductive Scope where
  | core | cluster | die | package | system
deriving DecidableEq, Repr

/-- A rounding field RMF (R147): the five modes, and `dyn` for the mode in fcsr.RM. -/
inductive RM where
  | rne | rtz | rup | rdn | sto | dyn
deriving DecidableEq, Repr

/-- A full number format code FMT (R233). -/
inductive Fmt where
  | i8 | i16 | i32 | i64 | n8 | n16 | n32 | n64
  | f64 | f32 | f16 | bf16 | e4m3 | e5m2 | mxfp4 | t8 | t6
deriving DecidableEq, Repr

/-- The ORDER of an atomic (R120, R229). -/
inductive MemOrder where
  | rlx | acq | rel | ar
deriving DecidableEq, Repr

/-- A scalar register or, with QA or QD, a stream register (R229, R245). -/
inductive SQ where
  | s (r : SReg)
  | q (n : QReg)
deriving DecidableEq, Repr

/-- A vector register or a stream register (R279). -/
inductive VQ where
  | v (r : VReg)
  | q (n : QReg)
deriving DecidableEq, Repr

/-- A group of four scalar registers (R317): `g` names s[4g + 4] to s[4g + 7]. -/
abbrev Grp := Fin 7
/-- The even pair of `msend` (R368): `p` names s[2p + 2] and s[2p + 3]. -/
abbrev Pair := Fin 15

/-- The type of a vector compare (R285): its family, with the format or the integer type. -/
inductive CmpTy where
  | flt (f : FC)
  | int (t : IT)
deriving DecidableEq, Repr

/-- The governing mask register of a masked form (R278); none is unmasked. -/
abbrev Mask := Option KReg

/-- A branch target relative to the branch's own line (R225): a signed 27-bit line offset and a head index. -/
structure Target where
  lofs : BitVec 27
  head : BitVec 5
deriving DecidableEq, Repr

/-- The reasons of ILLEGAL (R236, R237). -/
inductive IllegalReason where
  | major | minor | tlen | rsvd | regclass | operand
deriving DecidableEq, Repr

/-- A 16-byte mailbox message with its header fields (R366, R367). -/
structure Msg where
  kind : Nat
  src : Nat
  sctx : Nat
  vfn : Nat
  host : Bool
  tag : BitVec 32
  w0 : Word
  w1 : Word
  captag : Bool
  /-- entry pc of an active message, whose payload words are its two argument words (R174) -/
  entry : Word
deriving DecidableEq, Repr

/-- A register of the device-register blocks (R7, R43, R45, R70, R74, R136, R170, R173, R174, R388, R401, R403, R420 to R422),
named, since the spec gives the blocks no address map. -/
inductive DevReg where
  | vkey (vfn : Nat) | share (vfn : Nat) | rangeBase (vfn i : Nat) | rangeLimit (vfn i : Nat)
  | llen1 | llen2 | gband | lcut
  | record (die idx word : Nat) | level (die idx half : Nat) | template (die vfn word : Nat)
  | keySlot (k : Nat) | mapWindow (ioB : Bool) (i word : Nat)
  | featacc (half : Nat) | sssel | storm | adjctl | numVfs
  | kmiss (cl : Nat) | frmode | featoff (half : Nat) | featstat | ssptr | ssdata (i : Nat) | wdog
  | coreReg (core slot number : Nat)
deriving DecidableEq, Repr

/-- To whom a WAK returns a visibility time (R81, R107): a write of a context slot by its number (R117), a stream, a copy or
matrix command, a tile's mark, a line of a core's notation stream or message log (R393), a write of a host or peer by its number (R126), or nobody. -/
inductive WakDst where
  | slot (core : Nat) (i : SlotId) (seq : Nat)
  | stream (core wp : Nat) (n : QReg)
  | copy (core id : Nat)
  | matrix (cl id : Nat)
  | tile (tid : Nat)
  | ring (core : Nat) (log : Bool)
  | host (seq : Nat)
  | none
deriving DecidableEq, Repr

/-- The nine integer or float operations of an atomic (R267). -/
inductive AmoOp where
  | add | fadd | min | max | and | or | xor | swap | cas
deriving DecidableEq, Repr

/-- The 64 bytes of a line with the tags of its four granules, as a message carries them (R413). -/
structure LineData where
  bytes : BitVec 512
  tags : BitVec 4
deriving DecidableEq, Repr

/-- A line with the data of a fill and the mask of its bytes (R107). -/
structure LineFill where
  line : Nat
  mask : BitVec 64
  data : LineData
deriving DecidableEq, Repr

/-- The data of a store sent to the home, and the function that makes it (R107). -/
structure StoreData where
  bytes : BitVec 512
  vfn : Nat
deriving DecidableEq, Repr

/-- The tile and the owner die that an unmark carries (R107). -/
structure TileUnmark where
  tid : Nat
  odie : Nat
deriving DecidableEq, Repr

/-- A read of a memory-port die: the local address, and whether it is booked (R413). -/
structure PortRead where
  addr : Nat
  booked : Bool
deriving DecidableEq, Repr

/-- The answer of a memory-port die: the local address and STATUS (R413). -/
structure PortAnswer where
  addr : Nat
  status : Nat
deriving DecidableEq, Repr

/-- A line that a host or peer accesses, and the CXL port that carries the access (R104, R419): 0 A0, 1 A1, 2 B0, 3 B1. -/
structure CxlAccess where
  line : Nat
  port : Nat
deriving DecidableEq, Repr

/-- A slot as it arrives on a port of a die (R413). -/
structure PortSlot where
  port : Nat
  slot : BitVec 128
deriving DecidableEq, Repr

/-- The port at which a message arrives, and those at which it has arrived on its way, the latest first: the way back (R415, R416). -/
structure PortPath where
  port : Nat
  back : List Nat
deriving DecidableEq, Repr

/-- An answer to IDENT on its way (R415 to R417): the port at which IDENT arrived, the die that has the answer now, HOPS and ROUTE, and the
ports at which it has arrived, the latest first. -/
structure IdPath where
  port : Nat
  here : Nat
  hops : Nat
  route : List Nat
  back : List Nat
deriving DecidableEq, Repr

/-- The identifier that TOPO gives, with HOPS and ROUTE (R415). -/
structure TopoPath where
  ident : Nat
  hops : Nat
  route : List Nat
deriving DecidableEq, Repr

/-- A line with the bytes of it that a push carries (R99). -/
structure LinePush where
  line : Nat
  mask : BitVec 64
  data : LineData
deriving DecidableEq, Repr

/-- A line given up to a recall, with the mask of its dirty bytes (R86). -/
structure LineRecalled where
  line : Nat
  dirty : BitVec 64
deriving DecidableEq, Repr

/-- A line that an I/O die's port reads from the host by RdShared, or by RdOwn (R105). -/
structure HostRead where
  line : Nat
  own : Bool
deriving DecidableEq, Repr

/-- The die that asks for an atomic, and the atomic's scope (R67). -/
structure AmoSource where
  die : Nat
  sc : Scope
deriving DecidableEq, Repr

/-- The instructions (in the order of the opcode table, register operands D, A, B, C as `d a b c`, last-read marks
`la lb lc` (R231), mask `k` (R278)), then the events of the package's engines, links and outside world. -/
inductive Instr where
  -- Integer reg-reg (R247)
  | add (t : IT) (d a : SQ) (b : SReg) (la lb : Bool)
  | sub (t : IT) (d a : SQ) (b : SReg) (la lb : Bool)
  | and (t : IT) (d a : SQ) (b : SReg) (la lb : Bool)
  | or (t : IT) (d a : SQ) (b : SReg) (la lb : Bool)
  | xor (t : IT) (d a : SQ) (b : SReg) (la lb : Bool)
  | andn (t : IT) (d a : SQ) (b : SReg) (la lb : Bool)
  | orn (t : IT) (d a : SQ) (b : SReg) (la lb : Bool)
  | min (t : IT) (d a : SQ) (b : SReg) (la lb : Bool)
  | max (t : IT) (d a : SQ) (b : SReg) (la lb : Bool)
  | slt (t : IT) (d a : SQ) (b : SReg) (la lb : Bool)
  | seq (t : IT) (d a : SQ) (b : SReg) (la lb : Bool)
  | sne (t : IT) (d a : SQ) (b : SReg) (la lb : Bool)
  -- Integer immediate (R247)
  | addi (t : IT) (d a : SReg) (imm : BitVec 16)
  | andi (t : IT) (d a : SReg) (imm : BitVec 16)
  | ori (t : IT) (d a : SReg) (imm : BitVec 16)
  | xori (t : IT) (d a : SReg) (imm : BitVec 16)
  | slti (t : IT) (d a : SReg) (imm : BitVec 16)
  | shli (t : IT) (d a : SReg) (n : BitVec 6)
  | shri (t : IT) (d a : SReg) (n : BitVec 6)
  | srai (t : IT) (d a : SReg) (n : BitVec 6)
  -- Load immediate (R248)
  | li (d : SReg) (imm : BitVec 32)
  | lih (d : SReg) (imm : BitVec 32)
  | liImm64 (d : SReg) (imm : BitVec 64)
  -- Multiply and divide (R249)
  | mul (t : IT) (d a : SQ) (b : SReg) (la lb : Bool)
  | mulh (t : IT) (d a : SQ) (b : SReg) (la lb : Bool)
  | div (t : IT) (d a : SQ) (b : SReg) (la lb : Bool)
  | rem (t : IT) (d a : SQ) (b : SReg) (la lb : Bool)
  -- Shifts and bit fields (R250, R251)
  | shl (t : IT) (d a : SQ) (b : SReg) (la lb : Bool)
  | shr (t : IT) (d a : SQ) (b : SReg) (la lb : Bool)
  | sra (t : IT) (d a : SQ) (b : SReg) (la lb : Bool)
  | rot (t : IT) (d a : SQ) (b : SReg) (la lb : Bool)
  | clz (t : IT) (d a : SQ) (la : Bool)
  | ctz (t : IT) (d a : SQ) (la : Bool)
  | pop (t : IT) (d a : SQ) (la : Bool)
  | sext (t : IT) (d a : SQ) (la : Bool)
  | zext (t : IT) (d a : SQ) (la : Bool)
  | bext (t : IT) (d a : SReg) (pos len1 : BitVec 6)
  | bins (t : IT) (d a : SReg) (pos len1 : BitVec 6)
  -- Select (R252)
  | sel (t : IT) (d a : SQ) (b c : SReg) (la lb lc : Bool)
  -- Capability (R253 to R255)
  | cbase (d : SReg) (a : CReg) (la : Bool)
  | clen (d : SReg) (a : CReg) (la : Bool)
  | cgen (d : SReg) (a : CReg) (la : Bool)
  | crights (d : SReg) (a : CReg) (la : Bool)
  | cnarrow (d a : CReg) (b c : SReg) (la lb lc : Bool)
  | ccheck (d : SReg) (a : CReg) (b c : SReg) (la lb lc : Bool)
  -- Branches and loop (R256)
  | beq (t : IT) (a b : SReg) (tgt : Target)
  | bne (t : IT) (a b : SReg) (tgt : Target)
  | blt (t : IT) (a b : SReg) (tgt : Target)
  | bge (t : IT) (a b : SReg) (tgt : Target)
  | bz (t : IT) (a : SReg) (tgt : Target)
  | bnz (t : IT) (a : SReg) (tgt : Target)
  | loop (t : IT) (d : SReg) (tgt : Target)
  -- Jumps, calls, return (R257)
  | br (tgt : Target)
  | jmp (a : SReg) (la : Bool)
  | call (tgt : Target)
  | callr (a : SReg) (la : Bool)
  -- Scalar FP (R258)
  | fadd (f : FC) (rm : RM) (d a : SQ) (b : SReg) (la lb : Bool)
  | fsub (f : FC) (rm : RM) (d a : SQ) (b : SReg) (la lb : Bool)
  | fmul (f : FC) (rm : RM) (d a : SQ) (b : SReg) (la lb : Bool)
  | fdiv (f : FC) (rm : RM) (d a : SQ) (b : SReg) (la lb : Bool)
  | fsqrt (f : FC) (rm : RM) (d a : SQ) (la : Bool)
  | fmin (f : FC) (d a : SQ) (b : SReg) (la lb : Bool)
  | fmax (f : FC) (d a : SQ) (b : SReg) (la lb : Bool)
  | fcmp (f : FC) (d a : SQ) (b : SReg) (c : Fin 8) (la lb : Bool)
  | fclass (f : FC) (d a : SQ) (la : Bool)
  -- Scalar FP fused, convert (R259)
  | fma (f : FC) (rm : RM) (d a : SQ) (b c : SReg) (la lb lc : Bool)
  | fms (f : FC) (rm : RM) (d a : SQ) (b c : SReg) (la lb lc : Bool)
  | fcvt (rm : RM) (d a : SQ) (b c : Fmt) (la : Bool)
  -- Loads (R261)
  | ld (t : IT) (d a : SReg) (imm : BitVec 16)
  | ldThroughCap (t : IT) (d : SReg) (a : CReg) (imm : BitVec 16)
  | ldCap (d : CReg) (a : SReg) (imm : BitVec 16)
  -- Stores (R261)
  | st (t : IT) (d a : SReg) (imm : BitVec 16)
  | stThroughCap (t : IT) (d : SReg) (a : CReg) (imm : BitVec 16)
  | stCap (d : CReg) (a : SReg) (imm : BitVec 16)
  -- Local loads and stores (R261)
  | ldl (t : IT) (d a : SReg) (imm : BitVec 16)
  | stl (t : IT) (d a : SReg) (imm : BitVec 16)
  -- Acquire and release (R266)
  | ldAcq (sc : Scope) (t : IT) (d a : SReg) (la : Bool)
  | stRel (sc : Scope) (t : IT) (d a : SReg) (la : Bool)
  -- Atomics (R267)
  | amoAdd (sc : Scope) (o : MemOrder) (t : IT) (d a b : SReg) (la lb : Bool)
  | amoFadd (sc : Scope) (o : MemOrder) (t : IT) (d a b : SReg) (la lb : Bool)
  | amoMin (sc : Scope) (o : MemOrder) (t : IT) (d a b : SReg) (la lb : Bool)
  | amoMax (sc : Scope) (o : MemOrder) (t : IT) (d a b : SReg) (la lb : Bool)
  | amoAnd (sc : Scope) (o : MemOrder) (t : IT) (d a b : SReg) (la lb : Bool)
  | amoOr (sc : Scope) (o : MemOrder) (t : IT) (d a b : SReg) (la lb : Bool)
  | amoXor (sc : Scope) (o : MemOrder) (t : IT) (d a b : SReg) (la lb : Bool)
  | amoSwap (sc : Scope) (o : MemOrder) (t : IT) (d a b : SReg) (la lb : Bool)
  | amoCas (sc : Scope) (o : MemOrder) (t : IT) (d a b c : SReg) (la lb lc : Bool)
  -- Fences (R270)
  | fence (sc : Scope)
  | xfence (sc : Scope) (src dst : BitVec 6)
  -- Cache operations (R272)
  | prefL1 (a : SReg) (imm : BitVec 16)
  | prefL2 (a : SReg) (imm : BitVec 16)
  | flushl (a : SReg) (imm : BitVec 16)
  | drop (a : SReg) (imm : BitVec 16)
  -- Vector FP (R282)
  | vadd (f : FC) (rm : RM) (d a : VQ) (b : VReg) (la lb : Bool) (k : Mask)
  | vsub (f : FC) (rm : RM) (d a : VQ) (b : VReg) (la lb : Bool) (k : Mask)
  | vmul (f : FC) (rm : RM) (d a : VQ) (b : VReg) (la lb : Bool) (k : Mask)
  | vdiv (f : FC) (rm : RM) (d a : VQ) (b : VReg) (la lb : Bool) (k : Mask)
  | vmin (f : FC) (d a : VQ) (b : VReg) (la lb : Bool) (k : Mask)
  | vmax (f : FC) (d a : VQ) (b : VReg) (la lb : Bool) (k : Mask)
  | vabs (f : FC) (d a : VQ) (la : Bool) (k : Mask)
  | vneg (f : FC) (d a : VQ) (la : Bool) (k : Mask)
  | vsqrt (f : FC) (rm : RM) (d a : VQ) (la : Bool) (k : Mask)
  -- Vector fused and dot (R283)
  | vfma (f : FC) (rm : RM) (d a : VQ) (b c : VReg) (la lb lc : Bool) (k : Mask)
  | vfms (f : FC) (rm : RM) (d a : VQ) (b c : VReg) (la lb lc : Bool) (k : Mask)
  | vfnma (f : FC) (rm : RM) (d a : VQ) (b c : VReg) (la lb lc : Bool) (k : Mask)
  | vdot (f : FC) (rm : RM) (d a : VQ) (b c : VReg) (la lb lc : Bool) (k : Mask)
  -- Vector integer and logic (R284)
  | viadd (t : IT) (d a : VQ) (b : VReg) (la lb : Bool) (k : Mask)
  | visub (t : IT) (d a : VQ) (b : VReg) (la lb : Bool) (k : Mask)
  | vimul (t : IT) (d a : VQ) (b : VReg) (la lb : Bool) (k : Mask)
  | vand (t : IT) (d a : VQ) (b : VReg) (la lb : Bool) (k : Mask)
  | vor (t : IT) (d a : VQ) (b : VReg) (la lb : Bool) (k : Mask)
  | vxor (t : IT) (d a : VQ) (b : VReg) (la lb : Bool) (k : Mask)
  | vshl (t : IT) (d a : VQ) (b : VReg) (la lb : Bool) (k : Mask)
  | vshr (t : IT) (d a : VQ) (b : VReg) (la lb : Bool) (k : Mask)
  | vsra (t : IT) (d a : VQ) (b : VReg) (la lb : Bool) (k : Mask)
  -- Vector compare, select, mask (R285, R286)
  | vcmp (ty : CmpTy) (d : KReg) (a : VQ) (b : VReg) (p : Fin 8) (la lb : Bool) (k : Mask)
  | vsel (e : Width) (d a : VQ) (b : VReg) (c : KReg) (la lb lc : Bool) (k : Mask)
  | kand (d a b : KReg) (la lb : Bool)
  | kor (d a b : KReg) (la lb : Bool)
  | knot (d a : KReg) (la : Bool)
  | kpop (e : Width) (d : SReg) (a : KReg) (la : Bool)
  -- Vector transcendental (R287)
  | vexp (rm : RM) (d a : VQ) (la : Bool) (k : Mask)
  | vlog (rm : RM) (d a : VQ) (la : Bool) (k : Mask)
  | vrcp (rm : RM) (d a : VQ) (la : Bool) (k : Mask)
  | vrsqrt (rm : RM) (d a : VQ) (la : Bool) (k : Mask)
  | vtanh (rm : RM) (d a : VQ) (la : Bool) (k : Mask)
  | vsigm (rm : RM) (d a : VQ) (la : Bool) (k : Mask)
  | verf (rm : RM) (d a : VQ) (la : Bool) (k : Mask)
  | vphi (rm : RM) (d a : VQ) (la : Bool) (k : Mask)
  | vpdf (rm : RM) (d a : VQ) (la : Bool) (k : Mask)
  -- Vector convert (R288, R289)
  | vcvt (part : Fin 8) (rm : RM) (d a : VQ) (b c : Fmt) (la : Bool) (k : Mask)
  | vscalePack (rm : RM) (d a : VQ) (b : SReg) (c : Fmt) (la lb : Bool)
  | vscaleUnpack (d a : VQ) (b : SReg) (c : Fmt) (la lb : Bool)
  -- Vector reduce and permute (R290, R291)
  | vredsum (d : SReg) (a : VQ) (c : Fmt) (la : Bool) (k : Mask)
  | vredmax (d : SReg) (a : VQ) (c : Fmt) (la : Bool) (k : Mask)
  | vredmin (d : SReg) (a : VQ) (c : Fmt) (la : Bool) (k : Mask)
  | vperm (e : Width) (d a : VQ) (b : VReg) (la lb : Bool) (k : Mask)
  | vbcast (e : Width) (d : VQ) (a : SReg) (la : Bool) (k : Mask)
  | vslide (e : Width) (d a : VQ) (b : SReg) (la lb : Bool) (k : Mask)
  | vext (e : Width) (d : SReg) (a : VQ) (b : SReg) (la lb : Bool)
  | vins (e : Width) (d : VQ) (a b : SReg) (la lb : Bool)
  -- Vector global memory (R292)
  | vld (e : Width) (d : VReg) (a : SReg) (la : Bool) (k : Mask)
  | vst (e : Width) (d : VReg) (a : SReg) (la : Bool) (k : Mask)
  | vlds (e : Width) (d : VReg) (a b : SReg) (la lb : Bool) (k : Mask)
  | vsts (e : Width) (d : VReg) (a b : SReg) (la lb : Bool) (k : Mask)
  | vgather (e : Width) (d : VReg) (a : SReg) (b : VReg) (c : Fin 4) (la lb : Bool) (k : Mask)
  | vscatter (e : Width) (d : VReg) (a : SReg) (b : VReg) (c : Fin 4) (la lb : Bool) (k : Mask)
  -- Vector local memory (R292)
  | vldl (e : Width) (d : VReg) (a : SReg) (la : Bool) (k : Mask)
  | vstl (e : Width) (d : VReg) (a : SReg) (la : Bool) (k : Mask)
  | vgatherl (e : Width) (d : VReg) (a : SReg) (b : VReg) (c : Fin 4) (la lb : Bool) (k : Mask)
  | vscatterl (e : Width) (d : VReg) (a : SReg) (b : VReg) (c : Fin 4) (la lb : Bool) (k : Mask)
  -- Vector control and generators (R295, R298)
  | vsetvl (e : Width) (d a : SReg) (la : Bool)
  | vmovs (e : Width) (d a : VQ) (la : Bool) (k : Mask)
  | vzero (d : VReg)
  | vrandUnif (e : Width) (d : VReg) (k : Mask)
  | vrandGauss (d : VReg) (k : Mask)
  -- Moment arithmetic (R303)
  | madd (d a b : MReg) (la lb : Bool) (k : Mask)
  | msub (d a b : MReg) (la lb : Bool) (k : Mask)
  | mmul (d a b : MReg) (la lb : Bool) (k : Mask)
  | mfma (d a b c : MReg) (la lb lc : Bool) (k : Mask)
  | mscale (d a : MReg) (b : SReg) (la lb : Bool) (k : Mask)
  | mshift (d a : MReg) (b : SReg) (la lb : Bool) (k : Mask)
  -- Moment nonlinear (R307)
  | mrelu (d a : MReg) (la : Bool) (k : Mask)
  | mexp (d a : MReg) (la : Bool) (k : Mask)
  | msigm (d a : MReg) (la : Bool) (k : Mask)
  | mtanh (d a : MReg) (la : Bool) (k : Mask)
  | mmax (d a b : MReg) (la lb : Bool) (k : Mask)
  -- Moment load, store, pack (R312)
  | mld (d : MReg) (a : SReg) (la : Bool) (k : Mask)
  | mst (d : MReg) (a : SReg) (la : Bool) (k : Mask)
  | mldl (d : MReg) (a : SReg) (la : Bool) (k : Mask)
  | mstl (d : MReg) (a : SReg) (la : Bool) (k : Mask)
  | mpack (rm : RM) (d : VReg) (a : MReg) (la : Bool) (k : Mask)
  | munpack (d : MReg) (a : VReg) (la : Bool) (k : Mask)
  -- Moment collapse and control (R313)
  | mredsum (d a : MReg) (la : Bool) (k : Mask)
  | mcollapse (d : VReg) (a : MReg) (b : SReg) (c : Fin 5) (la lb : Bool) (k : Mask)
  | mcheck (d : SReg) (a : MReg) (la : Bool) (k : Mask)
  | mmode (d a : SReg) (la : Bool) (k : Mask)
  -- Streams (R318, R324, R325)
  | sbind (d : Fin 8) (a : Grp) (la : Bool)
  | sunbind (d : Fin 8)
  | sstat (d : SReg) (a : Fin 8)
  -- Copies (R326)
  | cpy (a : Grp) (la : Bool)
  | cpyNb (d : SReg) (a : Grp) (la : Bool)
  | cpq (d a : SReg) (la : Bool)
  -- Sitting and palette (R338)
  | sit (d a : SReg) (la : Bool)
  | mxpal (a : SReg) (la : Bool)
  -- Matrix compute (R342, R344)
  | mxlda (d : Fin 4) (a b c : SReg) (la lb lc : Bool)
  | mxldb (d : Fin 8) (a b c : SReg) (la lb lc : Bool)
  | mxmma (z : Bool) (d : SReg) (a : Fin 4) (b : Fin 8)
  | mxmmaM (z : Bool) (d : SReg) (a : Fin 4) (b : Fin 8)
  -- Accumulators (R345)
  | mxst (rm : RM) (d a b : SReg) (la lb : Bool)
  | mxrel (d : SReg)
  | mxzero (d : SReg)
  -- Tiles (R349)
  | tdecl (d : CReg) (a b c : SReg) (la lb : Bool)
  | tpass (d : SReg) (a : CReg) (b : SReg) (la lb : Bool)
  | tacq (d : SReg) (a : CReg) (la : Bool)
  | tundecl (d : SReg) (a : CReg) (la : Bool)
  | tstat (d : SReg) (a : CReg) (b : SReg) (la lb : Bool)
  -- Windows and puts (R350 to R355)
  | wreg (d a b : SReg) (la lb : Bool)
  | wunreg (d a : SReg) (la : Bool)
  | put (a b c : SReg) (la lb lc : Bool)
  | putImm (a b c : SReg) (la lb lc : Bool)
  | wexp (d a b : SReg) (la lb : Bool)
  | wcnt (d a : SReg) (la : Bool)
  | wcntSrc (d : SReg)
  | wwait (a : SReg) (la : Bool)
  -- Barriers (R359)
  | arrive (d a : SReg) (la : Bool)
  | bwait (a b : SReg) (la lb : Bool)
  | barw (d a : SReg) (la : Bool)
  | bjoin (d a : SReg) (la : Bool)
  | bjoinLeave (d a : SReg) (la : Bool)
  | btimeout (a b : SReg) (la lb : Bool)
  | bforce (d a b : SReg) (la lb : Bool)
  | bforceRemove (d a b : SReg) (la lb : Bool)
  -- Mailbox (R368)
  | msend (d : SReg) (a : Pair) (b : SReg) (la lb : Bool)
  | mrecv (d : Grp) (a : SReg) (la : Bool)
  | mrecvC (d : CReg) (a : SReg)
  | mwait (d a : SReg) (la : Bool)
  | amsg (d : SReg) (a : Grp) (la : Bool)
  -- Wait (R371)
  | wait (loads stores copies matrix : BitVec 4)
  -- Booking (R372)
  | book (d a : SReg) (la : Bool)
  | unbook (d : SReg)
  | unbookRec (d a : SReg) (la : Bool)
  | bkrel (d a : SReg) (la : Bool)
  | bkext (d a b : SReg) (la lb : Bool)
  | bkq (d a : SReg) (la : Bool)
  -- Launch records and levels (R374)
  | lrpatch (w : Fin 8) (d a b : SReg) (la lb : Bool)
  | lrarm (d a : SReg) (la : Bool)
  | lrstat (d a b : SReg) (la lb : Bool)
  | lvlcnt (d a b : SReg) (la lb : Bool)
  | lvlcancel (d a : SReg) (la : Bool)
  | lvlcancelRec (d a : SReg) (la : Bool)
  -- Task control (R377)
  | retireFail (a : SReg) (la : Bool)
  | salloc (d a : SReg) (la : Bool)
  | sfree (d a : SReg) (la : Bool)
  -- Control registers (R381)
  | csrr (d : SReg) (n : BitVec 12)
  | csrw (d a : SReg) (n : BitVec 12)
  | csrs (d a : SReg) (n : BitVec 12)
  | csrc (d a : SReg) (n : BitVec 12)
  -- Trap and system (R382)
  | trap (d : Fin 32) (imm : BitVec 16)
  | wsw (a : SReg) (la : Bool)
  | tlbinv (a b c : SReg) (la lb lc : Bool)
  | tlbinvVf (c : SReg) (lc : Bool)
  -- Debug (R386)
  | notate (imm : BitVec 16)
  -- The forms without operands
  | ret
  | unsit
  | retire
  | yield
  | follow
  | unfollow
  | sret
  | tlbinvAll
  | replayall
  | brk
  -- Events
  /-- R7: a write of a device register that has no row of its own -/
  | registerWrite (r : DevReg) (v : Word)
  /-- R40: a write of fbdlv in a cluster -/
  | fbdlvWrite (cl entry : Nat)
  /-- R43: kmiss.CLR written 1 -/
  | kmissClr (cl : Nat)
  /-- R389: dctl.STOP written 1 -/
  | dctlStop (core : Nat)
  /-- R390: dctl.RESUME written 1 -/
  | dctlResume (core : Nat)
  /-- R402: adjctl.REARM written 1 -/
  | adjctlRearm
  /-- R401: adjctl.NOW written 1 -/
  | adjctlNow
  /-- R401: a write of wdog -/
  | wdogWrite (v : Word)
  /-- R422: featstat.GO written 1 -/
  | featstatGo
  /-- R136: a write of frmode -/
  | frmodeWrite (v : Word)
  /-- R390: the requested stop halts the core -/
  | stopTakesEffect (core : Nat)
  /-- R161: the core switches to a context slot -/
  | contextSwitch (core : Nat) (slot : SlotId)
  /-- R176: rule 3, after 4,096 cycles -/
  | yieldAfterWait (core : Nat)
  /-- R208: a pending trap at a boundary -/
  | impreciseTrapDelivery (core : Nat)
  /-- R199: LEFT has reached 0 -/
  | budgetExpiry (core : Nat)
  /-- R32: a walker takes a miss from the miss queue -/
  | walkStart (cl : Nat)
  /-- R31: a walk ends -/
  | walkCompletion (cl : Nat) (vfn vpn : Nat)
  /-- R79: leased fill at the home -/
  | rdl (line die : Nat)
  /-- R79: unleased fill at the home -/
  | rdu (line die : Nat)
  /-- R81: a store performed at the home -/
  | wrq (line die core : Nat) (slot : SlotId) (mask : BitVec 64) (data : StoreData)
  /-- R67: an atomic at the home -/
  | amo (addr : Nat) (op : AmoOp) (t : IT) (b c : Word) (src : AmoSource) (core : Nat) (slot : SlotId) (d : SReg)
  /-- R86: ownership request -/
  | own (line die : Nat)
  /-- R95: tile mark -/
  | tmk (line tid odie : Nat)
  /-- R101: tile unmark -/
  | tun (line : Nat) (x : TileUnmark)
  /-- R411: memory-port read of a line -/
  | mrd (die : Nat) (x : PortRead)
  /-- R411: memory-port write of a line -/
  | mwr (die addr : Nat) (data : LineData)
  /-- R80: fill answer installed with its expiry -/
  | gnt (line die expiry : Nat)
  /-- R117: a write acknowledgement -/
  | wak (dst : WakDst) (line vt : Nat) (refused : Bool)
  /-- R86: ownership received -/
  | oak (line die : Nat)
  /-- R81: cut acknowledgement at the home -/
  | cua (line die : Nat)
  /-- R86: recall acknowledgement at the home -/
  | rca (x : LineRecalled)
  /-- R411: memory-port response -/
  | mrs (die : Nat) (x : PortAnswer)
  /-- R107: fill data arrives with its tags -/
  | fil (x : LineFill) (die : Nat)
  /-- R86: write-back data at the home -/
  | wbd (line : Nat) (mask : BitVec 64) (data : LineData)
  /-- R99: tile push into the consumer die -/
  | psh (x : LinePush) (die : Nat)
  /-- R411: memory-port data -/
  | mdt (die addr : Nat) (data : LineData)
  /-- R82: lease cut at a die -/
  | cut (line die : Nat)
  /-- R82: a die sends CUA -/
  | cuaDue (line die : Nat)
  /-- R81: a cut completes -/
  | cutCompletion (line : Nat)
  /-- R86: an L entry becomes I -/
  | leaseHorizonPass (line : Nat)
  /-- R86: recall at the owner die -/
  | rcl (line : Nat)
  /-- R87: a recall unanswered for 262,144 cycles -/
  | recallHeld (line : Nat)
  /-- R94: sweep (0), filter increment (1) or decrement (2) at a die -/
  | swp (die base len op : Nat)
  /-- R73: the beacon at a die -/
  | bcn (die time : Nat)
  /-- R425: no beacon for 4,096 cycles -/
  | beaconLoss (die : Nat)
  /-- R88: the core clock stops -/
  | clockStop (die : Nat)
  /-- R89: the core clock resumes -/
  | clockResume (die : Nat)
  /-- R83: the head of a release queue completes and is performed -/
  | releaseComplete (core : Nat) (slot : SlotId)
  /-- R137: the router forwards a held release -/
  | fabricReleaseForward (core : Nat) (slot : SlotId)
  /-- R95: a tile declaration completes -/
  | declarationComplete (tid : Nat)
  /-- R99: the capability message of a pass -/
  | passMessageSend (tid : Nat)
  /-- R101: a tile entry becomes FREE -/
  | undeclarationComplete (tid : Nat)
  /-- R104: a host or peer read at the home -/
  | cxlMemRead (x : CxlAccess) (cacheable : Bool)
  /-- R104: a host or peer write at the home -/
  | cxlMemWrite (x : CxlAccess) (mask : BitVec 64) (data : BitVec 512)
  /-- R104: back-invalidation response at the home -/
  | birsp (line : Nat)
  /-- R105: a host snoop at the I/O die -/
  | hostSnoop (line : Nat)
  /-- R72: refill of the token buckets of a port -/
  | tokenRefill (core : Nat)
  /-- R320: a load stream fetches one element -/
  | streamFetch (core : Nat) (n : QReg)
  /-- R321: a store stream writes one element -/
  | streamStoreWrite (core : Nat) (n : QReg)
  /-- R331: a FIFO command starts -/
  | copyStart (core : Nat)
  /-- R331: a line of a copy moves -/
  | copyLineMove (core id : Nat)
  /-- R331: a copy completes and reports -/
  | copyCompletion (core id : Nat)
  /-- R130: a put of a source core reaches its target port -/
  | putArrival (core id : Nat)
  /-- R130: a put acknowledgement at its source -/
  | putAck (core : Nat) (slot : SlotId)
  /-- R339: the array grants a sitting -/
  | sittingGrant (cl : Nat)
  /-- R340: 4,096 idle cycles while another request waits -/
  | sittingExpiry (cl : Nat)
  /-- R346: a matrix command starts -/
  | matrixCommandStart (cl id : Nat)
  /-- R346: a matrix command completes -/
  | matrixCommandComplete (cl id : Nat)
  /-- R360: an arrival reaches node and root -/
  | barrierArrival (core : Nat) (slot : SlotId) (b : Nat)
  /-- R358: the root completes a phase -/
  | phaseCompletion (die b : Nat)
  /-- R361: the completion signal reaches a core -/
  | completionSignalArrival (core b : Nat)
  /-- R363: the root raises TIMEOUT -/
  | timeout (die b : Nat)
  /-- R366: a message reaches a core -/
  | messageArrival (target : Nat) (m : Msg)
  /-- R366: a message moves from overflow to mailbox -/
  | overflowMove (cl : Nat)
  /-- R366: a refused message is retried -/
  | busyRetry (core : Nat) (slot : SlotId)
  /-- R174: an active message starts a task -/
  | activeMessageStart (core : Nat)
  /-- R198: a pending free unit starts -/
  | freeUnitStart (core : Nat)
  /-- R185: the request at the head of the admission queue -/
  | admissionSearch (cl : Nat)
  /-- R180: the die calendar answers for HBM claims -/
  | dieCalendarRequest (die cl rec : Nat)
  /-- R196: the four steps at a tempo boundary -/
  | tempoBoundary (cl : Nat)
  /-- R189: a booked task at its booked end -/
  | overrun (core : Nat)
  /-- R203: a resign token reaches a graph counter and its records -/
  | resignToken (die graph : Nat)
  /-- R406: a logged message is placed in the mailbox -/
  | replayMessageInject (core : Nat)
  /-- R407: a replay mismatch -/
  | divergence (core kind want got : Nat)
  /-- R393: the notation line buffer is written -/
  | notationLineWrite (core : Nat)
  /-- R401: the watchdog expires -/
  | watchdogExpiry
  /-- R400: the retry threshold is reached -/
  | retryStorm (die : Nat)
  /-- R400: an adjournment message; why is the bit number of adjctl.WHY -/
  | adj (why : Nat)
  /-- R402: a re-arm message -/
  | rearm
  /-- R423: cold reset -/
  | coldReset
  /-- R423: warm reset -/
  | warmReset
  /-- R414: a link-up credit announcement -/
  | crd (die port : Nat) (credits : List Nat)
  /-- R416: a discovery probe at a die -/
  | ident (hops : Nat) (route : List Nat) (die : Nat) (x : PortPath)
  /-- R417: an identity answer at the Vonko controller -/
  | idack (die ty feat : Nat) (x : IdPath)
  /-- R416: a port unanswered after 1 ms -/
  | identTimeout (die port : Nat)
  /-- R416: the topology row of a die -/
  | topo (die : Nat) (x : TopoPath) (nbr hop : List Nat)
  /-- R136: a die applies a change of fabric release mode -/
  | frm (die : Nat) (en : Bool)
  /-- R415: an acknowledgement of TOPO or FRM -/
  | ack (die opa : Nat) (refused : Bool)
  /-- R426: the controller reads power and temperature -/
  | powerSample (milliwatts degrees : Nat)
  /-- R426: the package powers down at 115 degrees -/
  | thermalShutdown
  /-- R119: time reaches a pending largest vt -/
  | visibilityTimeReached (core : Nat) (slot : SlotId)
  /-- R394: 4,194,303 cycles without a record -/
  | notationTimeRecord (core : Nat)
  /-- R65: an atomic or reduction at a vault controller -/
  | vaultAccess (addr : Nat) (op : AmoOp) (t : IT) (b c : Word) (core : Nat) (slot : SlotId) (d : SReg)
  /-- R105: the host answers RdShared or RdOwn -/
  | cxlCacheResponse (x : HostRead)
  /-- R106: the completion of a PCIe AtomicOp -/
  | atomicopCompletion (core : Nat) (slot : SlotId) (d : SReg) (t : IT) (old : Word)
  /-- R414: slot 0 returns credits -/
  | creditReturn (die port : Nat) (credits : List Nat)
  /-- R413: a protocol error on a link -/
  | protocolError (die : Nat) (x : PortSlot)
  /-- R49: a stored word suffers an error; `addr` is a byte of it, of the core's scratchpad or of memory -/
  | eccError (lcl : Bool) (core addr : Nat) (corrected : Bool)
  /-- R236: a head that is no instruction -/
  | illegal (r : IllegalReason) (head : Half) (tail : Word) (tail4 : Half)
  /-- R424: an SPDM request -/
  | spdmRequest (code : Nat)
deriving DecidableEq, Repr

/-- The events alone, as the machine keeps them while they are due (State.pending): one constructor for each event of
`Instr`, with the same fields. -/
inductive Event where
  | registerWrite (r : DevReg) (v : Word)
  | fbdlvWrite (cl entry : Nat)
  | kmissClr (cl : Nat)
  | dctlStop (core : Nat)
  | dctlResume (core : Nat)
  | adjctlRearm
  | adjctlNow
  | wdogWrite (v : Word)
  | featstatGo
  | frmodeWrite (v : Word)
  | stopTakesEffect (core : Nat)
  | contextSwitch (core : Nat) (slot : SlotId)
  | yieldAfterWait (core : Nat)
  | impreciseTrapDelivery (core : Nat)
  | budgetExpiry (core : Nat)
  | walkStart (cl : Nat)
  | walkCompletion (cl : Nat) (vfn vpn : Nat)
  | rdl (line die : Nat)
  | rdu (line die : Nat)
  | wrq (line die core : Nat) (slot : SlotId) (mask : BitVec 64) (data : StoreData)
  | amo (addr : Nat) (op : AmoOp) (t : IT) (b c : Word) (src : AmoSource) (core : Nat) (slot : SlotId) (d : SReg)
  | own (line die : Nat)
  | tmk (line tid odie : Nat)
  | tun (line : Nat) (x : TileUnmark)
  | mrd (die : Nat) (x : PortRead)
  | mwr (die addr : Nat) (data : LineData)
  | gnt (line die expiry : Nat)
  | wak (dst : WakDst) (line vt : Nat) (refused : Bool)
  | oak (line die : Nat)
  | cua (line die : Nat)
  | rca (x : LineRecalled)
  | mrs (die : Nat) (x : PortAnswer)
  | fil (x : LineFill) (die : Nat)
  | wbd (line : Nat) (mask : BitVec 64) (data : LineData)
  | psh (x : LinePush) (die : Nat)
  | mdt (die addr : Nat) (data : LineData)
  | cut (line die : Nat)
  | cuaDue (line die : Nat)
  | cutCompletion (line : Nat)
  | leaseHorizonPass (line : Nat)
  | rcl (line : Nat)
  | recallHeld (line : Nat)
  | swp (die base len op : Nat)
  | bcn (die time : Nat)
  | beaconLoss (die : Nat)
  | clockStop (die : Nat)
  | clockResume (die : Nat)
  | releaseComplete (core : Nat) (slot : SlotId)
  | fabricReleaseForward (core : Nat) (slot : SlotId)
  | declarationComplete (tid : Nat)
  | passMessageSend (tid : Nat)
  | undeclarationComplete (tid : Nat)
  | cxlMemRead (x : CxlAccess) (cacheable : Bool)
  | cxlMemWrite (x : CxlAccess) (mask : BitVec 64) (data : BitVec 512)
  | birsp (line : Nat)
  | hostSnoop (line : Nat)
  | tokenRefill (core : Nat)
  | streamFetch (core : Nat) (n : QReg)
  | streamStoreWrite (core : Nat) (n : QReg)
  | copyStart (core : Nat)
  | copyLineMove (core id : Nat)
  | copyCompletion (core id : Nat)
  | putArrival (core id : Nat)
  | putAck (core : Nat) (slot : SlotId)
  | sittingGrant (cl : Nat)
  | sittingExpiry (cl : Nat)
  | matrixCommandStart (cl id : Nat)
  | matrixCommandComplete (cl id : Nat)
  | barrierArrival (core : Nat) (slot : SlotId) (b : Nat)
  | phaseCompletion (die b : Nat)
  | completionSignalArrival (core b : Nat)
  | timeout (die b : Nat)
  | messageArrival (target : Nat) (m : Msg)
  | overflowMove (cl : Nat)
  | busyRetry (core : Nat) (slot : SlotId)
  | activeMessageStart (core : Nat)
  | freeUnitStart (core : Nat)
  | admissionSearch (cl : Nat)
  | dieCalendarRequest (die cl rec : Nat)
  | tempoBoundary (cl : Nat)
  | overrun (core : Nat)
  | resignToken (die graph : Nat)
  | replayMessageInject (core : Nat)
  | divergence (core kind want got : Nat)
  | notationLineWrite (core : Nat)
  | watchdogExpiry
  | retryStorm (die : Nat)
  | adj (why : Nat)
  | rearm
  | coldReset
  | warmReset
  | crd (die port : Nat) (credits : List Nat)
  | ident (hops : Nat) (route : List Nat) (die : Nat) (x : PortPath)
  | idack (die ty feat : Nat) (x : IdPath)
  | identTimeout (die port : Nat)
  | topo (die : Nat) (x : TopoPath) (nbr hop : List Nat)
  | frm (die : Nat) (en : Bool)
  | ack (die opa : Nat) (refused : Bool)
  | powerSample (milliwatts degrees : Nat)
  | thermalShutdown
  | visibilityTimeReached (core : Nat) (slot : SlotId)
  | notationTimeRecord (core : Nat)
  | vaultAccess (addr : Nat) (op : AmoOp) (t : IT) (b c : Word) (core : Nat) (slot : SlotId) (d : SReg)
  | cxlCacheResponse (x : HostRead)
  | atomicopCompletion (core : Nat) (slot : SlotId) (d : SReg) (t : IT) (old : Word)
  | creditReturn (die port : Nat) (credits : List Nat)
  | protocolError (die : Nat) (x : PortSlot)
  | eccError (lcl : Bool) (core addr : Nat) (corrected : Bool)
  | illegal (r : IllegalReason) (head : Half) (tail : Word) (tail4 : Half)
  | spdmRequest (code : Nat)
deriving DecidableEq, Repr

end Sys2Proof
end

