-- ==== Sys2Proof/Config.lean ====
section
/-! DEFINITION. What the spec leaves open as values without a body: no proof can use what they are. -/
namespace Sys2Proof.Config

/-- A value the spec does not state (a free value), one for each count of `State.free` (log entry 19). -/
opaque freeValue : Nat → BitVec 1024

/-- What byte `i` of a line reads as under key `new` when it was written under key `old` (R44): the decryption of a line
of the given data at the given place (log entry 13). -/
opaque decrypt : (old new line : Nat) → (data : BitVec 512) → (i : Nat) → Byte

/-- The correctly rounded value of a transcendental function (R152) where the model's fixed-point bound does not settle
it: the function's minor and the operand's code (log entry 14). -/
opaque unsettled : (fn : Nat) → (x : Nat) → BitVec 32

/-- The register that an aligned 8-byte access of the device-register region 0xF at a physical address reaches; none where no
register lies. The spec gives the blocks no address map (R13, R47; log entry 17). -/
opaque deviceReg : (pa : Nat) → Option DevReg

end Sys2Proof.Config
end

