-- ==== Sys2Proof/WellFormed.lean ====
section
/-! DEFINITION. What makes an instruction well formed beyond the types of its fields: the limits of spec/09 R236 steps 4
and 6 that depend on several fields, on a format, or on the table of control registers. -/
namespace Sys2Proof

/-- The width of an element width code in bits (R232). -/
def Width.bits : Width → Nat
  | .b8 => 8 | .b16 => 16 | .b32 => 32 | .b64 => 64

/-- The width w of an integer type (R244). -/
def IT.bits (t : IT) : Nat := t.w.bits

/-- The width of a float format in bits (R139). -/
def FC.bits : FC → Nat
  | .f64 => 64 | .f32 => 32 | .f16 => 16 | .bf16 => 16

/-- The width of one element of a number format in bits (R136, R139, R141). -/
def Fmt.bits : Fmt → Nat
  | .i8 => 8 | .i16 => 16 | .i32 => 32 | .i64 => 64
  | .n8 => 8 | .n16 => 16 | .n32 => 32 | .n64 => 64
  | .f64 => 64 | .f32 => 32 | .f16 => 16 | .bf16 => 16
  | .e4m3 => 8 | .e5m2 => 8 | .mxfp4 => 4 | .t8 => 8 | .t6 => 6

/-- The formats that convert element by element (FMT 0x00 to 0x0D, R259, R288). -/
def Fmt.isPlain : Fmt → Bool
  | .mxfp4 => false | .t8 => false | .t6 => false | _ => true

/-- The formats that a reduction takes (FMT 0x00 to 0x0B, R290). -/
def Fmt.isLane : Fmt → Bool
  | .e4m3 => false | .e5m2 => false | f => f.isPlain

/-- The block formats of `vscale` (FMT 0x0E to 0x10, R289). -/
def Fmt.isBlock (f : Fmt) : Bool := !f.isPlain

/-- The trap causes that R206 tables. -/
def causeTabled (c : Nat) : Bool :=
  (1 ≤ c && c ≤ 0x1B) && c != 0x04 && c != 0x1A

/-- The control-register numbers that R381 and R387 table. -/
def csrTabled (n : Nat) : Bool :=
  n ≤ 0x007 || (0x010 ≤ n && n ≤ 0x017) || (0x020 ≤ n && n ≤ 0x024) || (0x030 ≤ n && n ≤ 0x038)
  || (0x040 ≤ n && n ≤ 0x044) || (0x050 ≤ n && n ≤ 0x052) || n == 0x060 || n == 0x061
  || (0x800 ≤ n && n ≤ 0x850) || n == 0x852 || n == 0x853 || n == 0x861 || n == 0x862 || n == 0x863

/-- The part of a `vcvt` lies below r = max(ws, wd) / min(ws, wd) (R288). -/
def vcvtPartOk (part : Nat) (src dst : Fmt) : Bool :=
  decide (part * min src.bits dst.bits < max src.bits dst.bits)

/-- The limits whose breach is reason RSVD (R236 step 4): a shift count of the width or more (R247), and an operand
field that the form's own code leaves unused (R315, R375). -/
def Instr.rsvdOk : Instr → Bool
  | .shli t _ _ n => decide (n.toNat < t.bits)
  | .shri t _ _ n => decide (n.toNat < t.bits)
  | .srai t _ _ n => decide (n.toNat < t.bits)
  | .mcollapse _ _ b m _ lb _ => m == 3 || (b == 0 && !lb)
  | .lrpatch w _ _ b _ lb => w != 0 || (b == 0 && !lb)
  | _ => true

/-- The limits whose breach is reason OPERAND (R236 step 6). -/
def Instr.operandOk : Instr → Bool
  | .sext t _ _ _ => !t.uns
  | .zext t _ _ _ => t.uns
  | .bext t _ _ _ _ => t.w == .b64
  | .bins t _ _ _ _ => t.w == .b64
  | .fcvt _ _ _ b c _ => b.isPlain && c.isPlain
  | .amoAdd _ _ t _ _ _ _ _ => t.w == .b32 || t.w == .b64
  | .amoMin _ _ t _ _ _ _ _ => t.w == .b32 || t.w == .b64
  | .amoMax _ _ t _ _ _ _ _ => t.w == .b32 || t.w == .b64
  | .amoAnd _ _ t _ _ _ _ _ => t.w == .b32 || t.w == .b64
  | .amoOr _ _ t _ _ _ _ _ => t.w == .b32 || t.w == .b64
  | .amoXor _ _ t _ _ _ _ _ => t.w == .b32 || t.w == .b64
  | .amoSwap _ _ t _ _ _ _ _ => t.w == .b32 || t.w == .b64
  | .amoCas _ _ t _ _ _ _ _ _ _ => t.w == .b32 || t.w == .b64
  | .amoFadd _ _ t _ _ _ _ _ => !t.uns && t.w != .b8
  | .xfence _ s d => s != 0 && d != 0
  | .vdot f _ _ _ _ _ _ _ _ _ => f == .f16 || f == .bf16
  | .vcmp ty _ _ _ p _ _ _ => match ty with
    | .flt _ => true
    | .int _ => decide (p.val < 6)
  | .vcvt part _ _ _ b c _ _ => b.isPlain && c.isPlain && vcvtPartOk part.val b c
  | .vscalePack _ _ _ _ c _ _ => c.isBlock
  | .vscaleUnpack _ _ _ c _ _ => c.isBlock
  | .vredsum _ _ c _ _ => c.isLane
  | .vredmax _ _ c _ _ => c.isLane
  | .vredmin _ _ c _ _ => c.isLane
  | .lrpatch w _ _ _ _ _ => w != 4
  | .csrr _ n => csrTabled n.toNat
  | .csrw _ _ n => csrTabled n.toNat
  | .csrs _ _ n => csrTabled n.toNat
  | .csrc _ _ n => csrTabled n.toNat
  | .trap c _ => causeTabled c.val
  | _ => true

/-- An instruction is well formed when the decoder can give it (R236). -/
def Instr.wf (i : Instr) : Bool := i.rsvdOk && i.operandOk

end Sys2Proof
end

