-- ==== Sys2Proof/Decode.lean ====
section
/-! DEFINITION. The decoder and the encoder (spec/09 R221, R222, R225, R228 to R236): `decode` reads one head with its
own tail halfwords and answers an instruction or the reason of ILLEGAL; `encode` writes the halfwords of a well-formed
instruction. The tables of forms follow R235 and the operand tables of spec/10 to spec/13. -/
namespace Sys2Proof

/-- The tail length in halfwords of a TL code (R221). -/
def tailLen (tl : Nat) : Nat :=
  match tl with
  | 0 => 0 | 1 => 1 | 2 => 2 | _ => 4

/-- A head and its tail halfwords 1 to 4 (zero past its TL) as numbers. -/
structure Raw where
  maj : Nat
  tl : Nat
  d : Nat
  x : Nat
  t1 : Nat
  t2 : Nat
  t3 : Nat
  t4 : Nat
deriving DecidableEq, Repr

/-- The fields of a head (R221) with its tail. -/
def rawOf (head : Half) (tail : List Half) : Raw :=
  let h := head.toNat
  let t := fun i => (tail.getD i 0).toNat
  { maj := h / 1024, tl := h / 256 % 4, d := h / 8 % 32, x := h % 8,
    t1 := t 0, t2 := t 1, t3 := t 2, t4 := t 3 }

/-- The head of a raw form (R221). -/
def Raw.head (r : Raw) : Half := BitVec.ofNat 16 (r.maj * 1024 + r.tl * 256 + r.d * 8 + r.x)

/-- The halfwords of a raw form: its head and as many tail halfwords as its TL gives (R222). -/
def Raw.halves (r : Raw) : List Half :=
  r.head :: ([r.t1, r.t2, r.t3, r.t4].take (tailLen r.tl)).map (BitVec.ofNat 16)

/-! Fields of the first tail halfword (R228) and of the operand halfword (R229). -/

def Raw.min (r : Raw) : Nat := r.t1 / 1024
def Raw.a (r : Raw) : Nat := r.t1 / 32 % 32
def Raw.b (r : Raw) : Nat := r.t1 % 32
def Raw.c (r : Raw) : Nat := r.t2 % 32
def Raw.la (r : Raw) : Bool := r.t2 / 32 % 2 == 1
def Raw.lb (r : Raw) : Bool := r.t2 / 64 % 2 == 1
def Raw.lc (r : Raw) : Bool := r.t2 / 128 % 2 == 1
def Raw.rmf (r : Raw) : Nat := r.t2 / 256 % 8
def Raw.g (r : Raw) : Nat := r.t2 / 2048
def Raw.qa (r : Raw) : Bool := r.g % 2 == 1
def Raw.qd (r : Raw) : Bool := r.g / 2 % 2 == 1

/-- The first tail halfword (R228). -/
def tail1 (min a b : Nat) : Nat := min * 1024 + a * 32 + b

/-- The operand halfword (R229). -/
def operandHalf (c : Nat) (la lb lc : Bool) (rmf g : Nat) : Nat :=
  c + (if la then 32 else 0) + (if lb then 64 else 0) + (if lc then 128 else 0) + rmf * 256 + g * 2048

/-! ## Codes (R109, R147, R120, R232, R233) -/

def Width.code : Width → Nat
  | .b8 => 0 | .b16 => 1 | .b32 => 2 | .b64 => 3
def Width.ofCode (n : Nat) : Width :=
  match n with
  | 0 => .b8 | 1 => .b16 | 2 => .b32 | _ => .b64
def IT.code (t : IT) : Nat := t.w.code + (if t.uns then 4 else 0)
def IT.ofCode (n : Nat) : IT := { w := Width.ofCode (n % 4), uns := n / 4 % 2 == 1 }
def FC.code : FC → Nat
  | .f64 => 0 | .f32 => 1 | .f16 => 2 | .bf16 => 3
def FC.ofCode (n : Nat) : FC :=
  match n with
  | 0 => .f64 | 1 => .f32 | 2 => .f16 | _ => .bf16
def Scope.code : Scope → Nat
  | .core => 0 | .cluster => 1 | .die => 2 | .package => 3 | .system => 4
def Scope.ofCode (n : Nat) : Scope :=
  match n with
  | 0 => .core | 1 => .cluster | 2 => .die | 3 => .package | _ => .system
def RM.code : RM → Nat
  | .rne => 0 | .rtz => 1 | .rup => 2 | .rdn => 3 | .sto => 4 | .dyn => 7
def RM.ofCode (n : Nat) : RM :=
  match n with
  | 0 => .rne | 1 => .rtz | 2 => .rup | 3 => .rdn | 4 => .sto | _ => .dyn
def MemOrder.code : MemOrder → Nat
  | .rlx => 0 | .acq => 1 | .rel => 2 | .ar => 3
def MemOrder.ofCode (n : Nat) : MemOrder :=
  match n with
  | 0 => .rlx | 1 => .acq | 2 => .rel | _ => .ar
def Fmt.code : Fmt → Nat
  | .i8 => 0 | .i16 => 1 | .i32 => 2 | .i64 => 3 | .n8 => 4 | .n16 => 5 | .n32 => 6 | .n64 => 7
  | .f64 => 8 | .f32 => 9 | .f16 => 10 | .bf16 => 11 | .e4m3 => 12 | .e5m2 => 13
  | .mxfp4 => 14 | .t8 => 15 | .t6 => 16
def Fmt.ofCode (n : Nat) : Fmt :=
  match n with
  | 0 => .i8 | 1 => .i16 | 2 => .i32 | 3 => .i64 | 4 => .n8 | 5 => .n16 | 6 => .n32 | 7 => .n64
  | 8 => .f64 | 9 => .f32 | 10 => .f16 | 11 => .bf16 | 12 => .e4m3 | 13 => .e5m2
  | 14 => .mxfp4 | 15 => .t8 | _ => .t6

def SQ.code : SQ → Nat
  | .s r => r.val | .q n => n.val
def SQ.isQ : SQ → Bool
  | .s _ => false | .q _ => true
def VQ.code : VQ → Nat
  | .v r => r.val | .q n => n.val
def VQ.isQ : VQ → Bool
  | .v _ => false | .q _ => true

/-! ## Reading operands of a raw form that has passed its checks -/

def fin32 (n : Nat) : Fin 32 := ⟨n % 32, Nat.mod_lt _ (by decide)⟩
def fin16 (n : Nat) : Fin 16 := ⟨n % 16, Nat.mod_lt _ (by decide)⟩
def fin8 (n : Nat) : Fin 8 := ⟨n % 8, Nat.mod_lt _ (by decide)⟩
def fin4 (n : Nat) : Fin 4 := ⟨n % 4, Nat.mod_lt _ (by decide)⟩
def fin5 (n : Nat) : Fin 5 := ⟨n % 5, Nat.mod_lt _ (by decide)⟩
/-- The group whose base register is `n`, a multiple of 4 from 4 to 28 (R317). -/
def grpOf (n : Nat) : Grp := ⟨(n / 4 - 1) % 7, Nat.mod_lt _ (by decide)⟩
/-- The pair whose base register is `n`, even, 2 to 30 (R368). -/
def pairOf (n : Nat) : Pair := ⟨(n / 2 - 1) % 15, Nat.mod_lt _ (by decide)⟩
def Grp.base (g : Grp) : Nat := 4 * g.val + 4
def Pair.base (p : Pair) : Nat := 2 * p.val + 2

def Raw.dSQ (r : Raw) : SQ := if r.qd then .q (fin8 r.d) else .s (fin32 r.d)
def Raw.aSQ (r : Raw) : SQ := if r.qa then .q (fin8 r.a) else .s (fin32 r.a)
def Raw.dVQ (r : Raw) : VQ := if r.qd then .q (fin8 r.d) else .v (fin32 r.d)
def Raw.aVQ (r : Raw) : VQ := if r.qa then .q (fin8 r.a) else .v (fin32 r.a)
def Raw.mask (r : Raw) : Mask := if r.g / 16 == 1 then some (fin4 (r.g / 4)) else none
def Raw.cmpTy (r : Raw) : CmpTy := if r.c / 8 == 0 then .flt (FC.ofCode r.x) else .int (IT.ofCode r.x)
def Raw.imm16 (r : Raw) : BitVec 16 := BitVec.ofNat 16 r.t2
def Raw.imm6 (r : Raw) : BitVec 6 := BitVec.ofNat 6 r.t2
def Raw.imm6h (r : Raw) : BitVec 6 := BitVec.ofNat 6 (r.t2 / 64)
def Raw.imm12 (r : Raw) : BitVec 12 := BitVec.ofNat 12 r.t2
def Raw.nib (r : Raw) (i : Nat) : BitVec 4 := BitVec.ofNat 4 (r.t1 / 16 ^ i)

/-- A branch target, short with TL 2 and long with TL 3 (R225). -/
def Raw.target (r : Raw) : Target :=
  { head := BitVec.ofNat 5 r.t2,
    lofs := if r.tl == 2 then (BitVec.ofNat 11 (r.t2 / 32)).signExtend 27
            else BitVec.ofNat 27 (r.t2 / 32 + r.t3 * 2048) }

def maskG (k : Mask) : Nat :=
  match k with
  | none => 0 | some n => 16 + 4 * n.val
def CmpTy.x : CmpTy → Nat
  | .flt f => f.code | .int t => t.code
def CmpTy.c : CmpTy → Nat
  | .flt _ => 0 | .int _ => 8
def b2 (b : Bool) : Nat := if b then 1 else 0

/-! ## Forms -/

/-- The tail shapes of R228. -/
inductive Shape where
  | head | reg | oper | imm | jump | lit (tl : Nat) | count
deriving DecidableEq, Repr

/-- What X holds (R232, R234): zero or one given value, or a code with its limit. -/
inductive XK where
  | zero          -- unused: RSVD
  | eq (n : Nat)  -- must be n: OPERAND
  | lt (n : Nat)  -- a code below n: OPERAND
  | sel (n : Nat) -- chosen by its value n; RSVD elsewhere (R272)
  | bit0          -- bits [2:1] unused: RSVD
  | fmtWidth      -- the width of the format in C (R290)
  | cmp           -- FC or IT by C[4:3] (R285)
deriving DecidableEq, Repr

/-- What a register field holds (R230, R317). -/
inductive FK where
  | zero | s | v | m | c | k | sq | vq | grp | pair
  | code (n : Nat)  -- a code below n: OPERAND
  | sdst            -- an s register written by the form, which carries no mark
deriving DecidableEq, Repr

/-- What the group field G holds (R229). -/
inductive GK where
  | zero | qs | masked | noMask | it | orderIt
deriving DecidableEq, Repr

/-- What IMM16 holds. -/
inductive IK where
  | none | i16 | shift | field | low12
deriving DecidableEq, Repr

/-- One form of the minor tables (R235). -/
structure Form where
  min : Nat
  sh : Shape
  x : XK
  d : FK
  a : FK
  b : FK
  c : FK
  rm : Bool
  g : GK
  imm : IK
  build : Raw → Instr

/-- A field that names a source register may carry a mark (R231). -/
def FK.marks : FK → Bool
  | .s => true | .v => true | .m => true | .c => true | .k => true
  | .sq => true | .vq => true | .grp => true | .pair => true
  | .zero => false | .code _ => false | .sdst => false

/-- R230: the bits of a register field that must be zero; `q` is set when QA or QD makes it class q. -/
def FK.classOk (f : FK) (q : Bool) (n : Nat) : Bool :=
  if q then decide (n < 8) else
  match f with
  | .m => decide (n < 16)
  | .c => decide (n < 8)
  | .k => decide (n < 4)
  | _ => true

/-- The limits of a code, a group or a pair (R317, R368). -/
def FK.operandOk (f : FK) (n : Nat) : Bool :=
  match f with
  | .code lim => decide (n < lim)
  | .grp => n % 4 == 0 && decide (4 ≤ n)
  | .pair => n % 2 == 0 && decide (2 ≤ n)
  | _ => true

def FK.zeroOk (f : FK) (n : Nat) : Bool :=
  match f with
  | .zero => n == 0
  | _ => true

/-- Whether the form has an operand halfword in this encoding. -/
def Form.hasOperand (f : Form) (r : Raw) : Bool := f.sh == .oper || (f.sh == .reg && r.tl == 2)
/-- Whether the form has a first tail halfword of MIN, A, B. -/
def Form.hasMin (f : Form) : Bool := f.sh == .reg || f.sh == .oper || f.sh == .imm || f.sh == .jump

/-- R236 step 3: the TL codes of R228. -/
def Form.tlOk (f : Form) (r : Raw) : Bool :=
  match f.sh with
  | .head => r.tl == 0
  | .reg => r.tl == 1 || r.tl == 2
  | .oper => r.tl == 2
  | .imm => r.tl == 2
  | .jump => r.tl == 2 || r.tl == 3
  | .lit n => r.tl == n
  | .count => r.tl == 1

/-- The marks and unused bits of the operand halfword (R228, R229, R231). -/
def Form.operandHalfOk (f : Form) (r : Raw) : Bool :=
  !f.hasOperand r ||
  (f.c.zeroOk r.c && (f.a.marks || !r.la) && (f.b.marks || !r.lb) && (f.c.marks || !r.lc)
   && ((f.rm && f.sh == .oper) || r.rmf == 0)
   && (match f.g with
       | .zero => r.g == 0
       | .qs => decide (r.g < 4)
       | .masked => decide (16 ≤ r.g) || decide (r.g < 4)
       | .noMask => decide (16 ≤ r.g) || decide (r.g < 4)
       | .it => r.g % 4 == 0
       | .orderIt => true))

/-- R236 step 4. -/
def Form.rsvdOk (f : Form) (r : Raw) : Bool :=
  (match f.x with
   | .zero => r.x == 0 || f.sh == .head
   | .sel n => r.x == n
   | .bit0 => decide (r.x < 2)
   | _ => true)
  && f.d.zeroOk r.d
  && (!f.hasMin || (f.a.zeroOk r.a && f.b.zeroOk r.b))
  && f.operandHalfOk r
  && (match f.imm with
      | .none => true
      | .i16 => true
      | .shift => decide (r.t2 < 64)
      | .field => decide (r.t2 < 4096)
      | .low12 => decide (r.t2 < 4096))
  && (f.sh != .jump || r.tl != 3 || r.t4 == 0)

/-- Whether QA or QD of the operand halfword makes A or D class q (R229). -/
def Form.hasQ (f : Form) (r : Raw) : Bool :=
  f.hasOperand r && (f.g == .qs || f.g == .masked || f.g == .noMask)

/-- R236 step 5. -/
def Form.classOk (f : Form) (r : Raw) : Bool :=
  f.d.classOk (f.hasQ r && r.qd) r.d
  && (!f.hasMin || (f.a.classOk (f.hasQ r && r.qa) r.a && f.b.classOk false r.b))
  && (!f.hasOperand r || f.c.classOk false r.c)

def FK.streamOk (f : FK) : Bool := f == .sq || f == .vq

/-- R236 step 6, but for the limits of `Instr.operandOk`. -/
def Form.operandOk (f : Form) (r : Raw) : Bool :=
  (match f.x with
   | .eq n => r.x == n
   | .lt n => decide (r.x < n)
   | .fmtWidth => decide (r.c ≤ 0x10) && Width.code (Width.ofCode r.x) == r.x && (Width.ofCode r.x).bits == (Fmt.ofCode r.c).bits
   | .cmp => decide (r.c < 16) && (decide (8 ≤ r.c) || decide (r.x < 4))
   | _ => true)
  && f.d.operandOk r.d
  && (!f.hasMin || (f.a.operandOk r.a && f.b.operandOk r.b))
  && (!f.hasOperand r ||
      (f.c.operandOk r.c && (!f.rm || (r.rmf != 5 && r.rmf != 6))
       && (!f.hasQ r || ((!r.qa || f.a.streamOk) && (!r.qd || f.d.streamOk)))
       && (f.g != .noMask || decide (r.g < 16))))


/-! ## The minor tables (R235), one list of forms for each major -/

def forms01 : List Form := [
  ⟨0, .reg, .lt 8, .sq, .sq, .s, .zero, false, .qs, .none, fun r => .add (IT.ofCode r.x) r.dSQ r.aSQ (fin32 r.b) r.la r.lb⟩,
  ⟨1, .reg, .lt 8, .sq, .sq, .s, .zero, false, .qs, .none, fun r => .sub (IT.ofCode r.x) r.dSQ r.aSQ (fin32 r.b) r.la r.lb⟩,
  ⟨2, .reg, .lt 8, .sq, .sq, .s, .zero, false, .qs, .none, fun r => .and (IT.ofCode r.x) r.dSQ r.aSQ (fin32 r.b) r.la r.lb⟩,
  ⟨3, .reg, .lt 8, .sq, .sq, .s, .zero, false, .qs, .none, fun r => .or (IT.ofCode r.x) r.dSQ r.aSQ (fin32 r.b) r.la r.lb⟩,
  ⟨4, .reg, .lt 8, .sq, .sq, .s, .zero, false, .qs, .none, fun r => .xor (IT.ofCode r.x) r.dSQ r.aSQ (fin32 r.b) r.la r.lb⟩,
  ⟨5, .reg, .lt 8, .sq, .sq, .s, .zero, false, .qs, .none, fun r => .andn (IT.ofCode r.x) r.dSQ r.aSQ (fin32 r.b) r.la r.lb⟩,
  ⟨6, .reg, .lt 8, .sq, .sq, .s, .zero, false, .qs, .none, fun r => .orn (IT.ofCode r.x) r.dSQ r.aSQ (fin32 r.b) r.la r.lb⟩,
  ⟨7, .reg, .lt 8, .sq, .sq, .s, .zero, false, .qs, .none, fun r => .min (IT.ofCode r.x) r.dSQ r.aSQ (fin32 r.b) r.la r.lb⟩,
  ⟨8, .reg, .lt 8, .sq, .sq, .s, .zero, false, .qs, .none, fun r => .max (IT.ofCode r.x) r.dSQ r.aSQ (fin32 r.b) r.la r.lb⟩,
  ⟨9, .reg, .lt 8, .sq, .sq, .s, .zero, false, .qs, .none, fun r => .slt (IT.ofCode r.x) r.dSQ r.aSQ (fin32 r.b) r.la r.lb⟩,
  ⟨10, .reg, .lt 8, .sq, .sq, .s, .zero, false, .qs, .none, fun r => .seq (IT.ofCode r.x) r.dSQ r.aSQ (fin32 r.b) r.la r.lb⟩,
  ⟨11, .reg, .lt 8, .sq, .sq, .s, .zero, false, .qs, .none, fun r => .sne (IT.ofCode r.x) r.dSQ r.aSQ (fin32 r.b) r.la r.lb⟩]

def forms02 : List Form := [
  ⟨0, .imm, .lt 8, .s, .s, .zero, .zero, false, .zero, .i16, fun r => .addi (IT.ofCode r.x) (fin32 r.d) (fin32 r.a) r.imm16⟩,
  ⟨1, .imm, .lt 8, .s, .s, .zero, .zero, false, .zero, .i16, fun r => .andi (IT.ofCode r.x) (fin32 r.d) (fin32 r.a) r.imm16⟩,
  ⟨2, .imm, .lt 8, .s, .s, .zero, .zero, false, .zero, .i16, fun r => .ori (IT.ofCode r.x) (fin32 r.d) (fin32 r.a) r.imm16⟩,
  ⟨3, .imm, .lt 8, .s, .s, .zero, .zero, false, .zero, .i16, fun r => .xori (IT.ofCode r.x) (fin32 r.d) (fin32 r.a) r.imm16⟩,
  ⟨4, .imm, .lt 8, .s, .s, .zero, .zero, false, .zero, .i16, fun r => .slti (IT.ofCode r.x) (fin32 r.d) (fin32 r.a) r.imm16⟩,
  ⟨5, .imm, .lt 8, .s, .s, .zero, .zero, false, .zero, .shift, fun r => .shli (IT.ofCode r.x) (fin32 r.d) (fin32 r.a) r.imm6⟩,
  ⟨6, .imm, .lt 8, .s, .s, .zero, .zero, false, .zero, .shift, fun r => .shri (IT.ofCode r.x) (fin32 r.d) (fin32 r.a) r.imm6⟩,
  ⟨7, .imm, .lt 8, .s, .s, .zero, .zero, false, .zero, .shift, fun r => .srai (IT.ofCode r.x) (fin32 r.d) (fin32 r.a) r.imm6⟩]

def forms03 : List Form := [
  ⟨0, (.lit 2), .eq 0, .s, .zero, .zero, .zero, false, .zero, .none, fun r => .li (fin32 r.d) (BitVec.ofNat 32 (r.t1 + r.t2 * 65536))⟩,
  ⟨1, (.lit 2), .eq 1, .s, .zero, .zero, .zero, false, .zero, .none, fun r => .lih (fin32 r.d) (BitVec.ofNat 32 (r.t1 + r.t2 * 65536))⟩,
  ⟨2, (.lit 3), .eq 2, .s, .zero, .zero, .zero, false, .zero, .none, fun r => .liImm64 (fin32 r.d) (BitVec.ofNat 64 (r.t1 + r.t2 * 65536 + r.t3 * 4294967296 + r.t4 * 281474976710656))⟩]

def forms04 : List Form := [
  ⟨0, .reg, .lt 8, .sq, .sq, .s, .zero, false, .qs, .none, fun r => .mul (IT.ofCode r.x) r.dSQ r.aSQ (fin32 r.b) r.la r.lb⟩,
  ⟨1, .reg, .lt 8, .sq, .sq, .s, .zero, false, .qs, .none, fun r => .mulh (IT.ofCode r.x) r.dSQ r.aSQ (fin32 r.b) r.la r.lb⟩,
  ⟨2, .reg, .lt 8, .sq, .sq, .s, .zero, false, .qs, .none, fun r => .div (IT.ofCode r.x) r.dSQ r.aSQ (fin32 r.b) r.la r.lb⟩,
  ⟨3, .reg, .lt 8, .sq, .sq, .s, .zero, false, .qs, .none, fun r => .rem (IT.ofCode r.x) r.dSQ r.aSQ (fin32 r.b) r.la r.lb⟩]

def forms05 : List Form := [
  ⟨0, .reg, .lt 8, .sq, .sq, .s, .zero, false, .qs, .none, fun r => .shl (IT.ofCode r.x) r.dSQ r.aSQ (fin32 r.b) r.la r.lb⟩,
  ⟨1, .reg, .lt 8, .sq, .sq, .s, .zero, false, .qs, .none, fun r => .shr (IT.ofCode r.x) r.dSQ r.aSQ (fin32 r.b) r.la r.lb⟩,
  ⟨2, .reg, .lt 8, .sq, .sq, .s, .zero, false, .qs, .none, fun r => .sra (IT.ofCode r.x) r.dSQ r.aSQ (fin32 r.b) r.la r.lb⟩,
  ⟨3, .reg, .lt 8, .sq, .sq, .s, .zero, false, .qs, .none, fun r => .rot (IT.ofCode r.x) r.dSQ r.aSQ (fin32 r.b) r.la r.lb⟩,
  ⟨4, .reg, .lt 8, .sq, .sq, .zero, .zero, false, .qs, .none, fun r => .clz (IT.ofCode r.x) r.dSQ r.aSQ r.la⟩,
  ⟨5, .reg, .lt 8, .sq, .sq, .zero, .zero, false, .qs, .none, fun r => .ctz (IT.ofCode r.x) r.dSQ r.aSQ r.la⟩,
  ⟨6, .reg, .lt 8, .sq, .sq, .zero, .zero, false, .qs, .none, fun r => .pop (IT.ofCode r.x) r.dSQ r.aSQ r.la⟩,
  ⟨9, .reg, .lt 8, .sq, .sq, .zero, .zero, false, .qs, .none, fun r => .sext (IT.ofCode r.x) r.dSQ r.aSQ r.la⟩,
  ⟨10, .reg, .lt 8, .sq, .sq, .zero, .zero, false, .qs, .none, fun r => .zext (IT.ofCode r.x) r.dSQ r.aSQ r.la⟩,
  ⟨7, .imm, .lt 8, .s, .s, .zero, .zero, false, .zero, .low12, fun r => .bext (IT.ofCode r.x) (fin32 r.d) (fin32 r.a) r.imm6 r.imm6h⟩,
  ⟨8, .imm, .lt 8, .s, .s, .zero, .zero, false, .zero, .low12, fun r => .bins (IT.ofCode r.x) (fin32 r.d) (fin32 r.a) r.imm6 r.imm6h⟩]

def forms06 : List Form := [
  ⟨0, .oper, .lt 8, .sq, .sq, .s, .s, false, .qs, .none, fun r => .sel (IT.ofCode r.x) r.dSQ r.aSQ (fin32 r.b) (fin32 r.c) r.la r.lb r.lc⟩]

def forms07 : List Form := [
  ⟨0, .oper, .zero, .s, .c, .zero, .zero, false, .zero, .none, fun r => .cbase (fin32 r.d) (fin8 r.a) r.la⟩,
  ⟨1, .oper, .zero, .s, .c, .zero, .zero, false, .zero, .none, fun r => .clen (fin32 r.d) (fin8 r.a) r.la⟩,
  ⟨2, .oper, .zero, .s, .c, .zero, .zero, false, .zero, .none, fun r => .cgen (fin32 r.d) (fin8 r.a) r.la⟩,
  ⟨3, .oper, .zero, .s, .c, .zero, .zero, false, .zero, .none, fun r => .crights (fin32 r.d) (fin8 r.a) r.la⟩,
  ⟨4, .oper, .zero, .c, .c, .s, .s, false, .zero, .none, fun r => .cnarrow (fin8 r.d) (fin8 r.a) (fin32 r.b) (fin32 r.c) r.la r.lb r.lc⟩,
  ⟨5, .oper, .zero, .s, .c, .s, .s, false, .zero, .none, fun r => .ccheck (fin32 r.d) (fin8 r.a) (fin32 r.b) (fin32 r.c) r.la r.lb r.lc⟩]

def forms08 : List Form := [
  ⟨0, .jump, .lt 8, .zero, .s, .s, .zero, false, .zero, .none, fun r => .beq (IT.ofCode r.x) (fin32 r.a) (fin32 r.b) r.target⟩,
  ⟨1, .jump, .lt 8, .zero, .s, .s, .zero, false, .zero, .none, fun r => .bne (IT.ofCode r.x) (fin32 r.a) (fin32 r.b) r.target⟩,
  ⟨2, .jump, .lt 8, .zero, .s, .s, .zero, false, .zero, .none, fun r => .blt (IT.ofCode r.x) (fin32 r.a) (fin32 r.b) r.target⟩,
  ⟨3, .jump, .lt 8, .zero, .s, .s, .zero, false, .zero, .none, fun r => .bge (IT.ofCode r.x) (fin32 r.a) (fin32 r.b) r.target⟩,
  ⟨4, .jump, .lt 8, .zero, .s, .zero, .zero, false, .zero, .none, fun r => .bz (IT.ofCode r.x) (fin32 r.a) r.target⟩,
  ⟨5, .jump, .lt 8, .zero, .s, .zero, .zero, false, .zero, .none, fun r => .bnz (IT.ofCode r.x) (fin32 r.a) r.target⟩,
  ⟨6, .jump, .lt 8, .s, .zero, .zero, .zero, false, .zero, .none, fun r => .loop (IT.ofCode r.x) (fin32 r.d) r.target⟩]

def forms09 : List Form := [
  ⟨0, .jump, .zero, .zero, .zero, .zero, .zero, false, .zero, .none, fun r => .br r.target⟩,
  ⟨1, .reg, .zero, .zero, .s, .zero, .zero, false, .zero, .none, fun r => .jmp (fin32 r.a) r.la⟩,
  ⟨2, .jump, .zero, .zero, .zero, .zero, .zero, false, .zero, .none, fun r => .call r.target⟩,
  ⟨3, .reg, .zero, .zero, .s, .zero, .zero, false, .zero, .none, fun r => .callr (fin32 r.a) r.la⟩,
  ⟨4, .head, .zero, .zero, .zero, .zero, .zero, false, .zero, .none, fun _ => .ret⟩]

def forms0B : List Form := [
  ⟨0, .oper, .lt 4, .sq, .sq, .s, .zero, true, .qs, .none, fun r => .fadd (FC.ofCode r.x) (RM.ofCode r.rmf) r.dSQ r.aSQ (fin32 r.b) r.la r.lb⟩,
  ⟨1, .oper, .lt 4, .sq, .sq, .s, .zero, true, .qs, .none, fun r => .fsub (FC.ofCode r.x) (RM.ofCode r.rmf) r.dSQ r.aSQ (fin32 r.b) r.la r.lb⟩,
  ⟨2, .oper, .lt 4, .sq, .sq, .s, .zero, true, .qs, .none, fun r => .fmul (FC.ofCode r.x) (RM.ofCode r.rmf) r.dSQ r.aSQ (fin32 r.b) r.la r.lb⟩,
  ⟨3, .oper, .lt 4, .sq, .sq, .s, .zero, true, .qs, .none, fun r => .fdiv (FC.ofCode r.x) (RM.ofCode r.rmf) r.dSQ r.aSQ (fin32 r.b) r.la r.lb⟩,
  ⟨4, .oper, .lt 4, .sq, .sq, .zero, .zero, true, .qs, .none, fun r => .fsqrt (FC.ofCode r.x) (RM.ofCode r.rmf) r.dSQ r.aSQ r.la⟩,
  ⟨5, .oper, .lt 4, .sq, .sq, .s, .zero, false, .qs, .none, fun r => .fmin (FC.ofCode r.x) r.dSQ r.aSQ (fin32 r.b) r.la r.lb⟩,
  ⟨6, .oper, .lt 4, .sq, .sq, .s, .zero, false, .qs, .none, fun r => .fmax (FC.ofCode r.x) r.dSQ r.aSQ (fin32 r.b) r.la r.lb⟩,
  ⟨7, .oper, .lt 4, .sq, .sq, .s, .code 8, false, .qs, .none, fun r => .fcmp (FC.ofCode r.x) r.dSQ r.aSQ (fin32 r.b) (fin8 r.c) r.la r.lb⟩,
  ⟨8, .oper, .lt 4, .sq, .sq, .zero, .zero, false, .qs, .none, fun r => .fclass (FC.ofCode r.x) r.dSQ r.aSQ r.la⟩]

def forms0C : List Form := [
  ⟨0, .oper, .lt 4, .sq, .sq, .s, .s, true, .qs, .none, fun r => .fma (FC.ofCode r.x) (RM.ofCode r.rmf) r.dSQ r.aSQ (fin32 r.b) (fin32 r.c) r.la r.lb r.lc⟩,
  ⟨1, .oper, .lt 4, .sq, .sq, .s, .s, true, .qs, .none, fun r => .fms (FC.ofCode r.x) (RM.ofCode r.rmf) r.dSQ r.aSQ (fin32 r.b) (fin32 r.c) r.la r.lb r.lc⟩,
  ⟨2, .oper, .zero, .sq, .sq, .code 17, .code 17, true, .qs, .none, fun r => .fcvt (RM.ofCode r.rmf) r.dSQ r.aSQ (Fmt.ofCode r.b) (Fmt.ofCode r.c) r.la⟩]

def forms10 : List Form := [
  ⟨0, .imm, .lt 8, .s, .s, .zero, .zero, false, .zero, .i16, fun r => .ld (IT.ofCode r.x) (fin32 r.d) (fin32 r.a) r.imm16⟩,
  ⟨1, .imm, .lt 8, .s, .c, .zero, .zero, false, .zero, .i16, fun r => .ldThroughCap (IT.ofCode r.x) (fin32 r.d) (fin8 r.a) r.imm16⟩,
  ⟨2, .imm, .eq 3, .c, .s, .zero, .zero, false, .zero, .i16, fun r => .ldCap (fin8 r.d) (fin32 r.a) r.imm16⟩]

def forms11 : List Form := [
  ⟨0, .imm, .lt 8, .s, .s, .zero, .zero, false, .zero, .i16, fun r => .st (IT.ofCode r.x) (fin32 r.d) (fin32 r.a) r.imm16⟩,
  ⟨1, .imm, .lt 8, .s, .c, .zero, .zero, false, .zero, .i16, fun r => .stThroughCap (IT.ofCode r.x) (fin32 r.d) (fin8 r.a) r.imm16⟩,
  ⟨2, .imm, .eq 3, .c, .s, .zero, .zero, false, .zero, .i16, fun r => .stCap (fin8 r.d) (fin32 r.a) r.imm16⟩]

def forms12 : List Form := [
  ⟨0, .imm, .lt 8, .s, .s, .zero, .zero, false, .zero, .i16, fun r => .ldl (IT.ofCode r.x) (fin32 r.d) (fin32 r.a) r.imm16⟩,
  ⟨1, .imm, .lt 8, .s, .s, .zero, .zero, false, .zero, .i16, fun r => .stl (IT.ofCode r.x) (fin32 r.d) (fin32 r.a) r.imm16⟩]

def forms13 : List Form := [
  ⟨0, .oper, .lt 5, .s, .s, .zero, .zero, false, .it, .none, fun r => .ldAcq (Scope.ofCode r.x) (IT.ofCode (r.g / 4)) (fin32 r.d) (fin32 r.a) r.la⟩,
  ⟨1, .oper, .lt 5, .s, .s, .zero, .zero, false, .it, .none, fun r => .stRel (Scope.ofCode r.x) (IT.ofCode (r.g / 4)) (fin32 r.d) (fin32 r.a) r.la⟩]

def forms14 : List Form := [
  ⟨0, .oper, .lt 5, .s, .s, .s, .zero, false, .orderIt, .none, fun r => .amoAdd (Scope.ofCode r.x) (MemOrder.ofCode (r.g % 4)) (IT.ofCode (r.g / 4)) (fin32 r.d) (fin32 r.a) (fin32 r.b) r.la r.lb⟩,
  ⟨1, .oper, .lt 5, .s, .s, .s, .zero, false, .orderIt, .none, fun r => .amoFadd (Scope.ofCode r.x) (MemOrder.ofCode (r.g % 4)) (IT.ofCode (r.g / 4)) (fin32 r.d) (fin32 r.a) (fin32 r.b) r.la r.lb⟩,
  ⟨2, .oper, .lt 5, .s, .s, .s, .zero, false, .orderIt, .none, fun r => .amoMin (Scope.ofCode r.x) (MemOrder.ofCode (r.g % 4)) (IT.ofCode (r.g / 4)) (fin32 r.d) (fin32 r.a) (fin32 r.b) r.la r.lb⟩,
  ⟨3, .oper, .lt 5, .s, .s, .s, .zero, false, .orderIt, .none, fun r => .amoMax (Scope.ofCode r.x) (MemOrder.ofCode (r.g % 4)) (IT.ofCode (r.g / 4)) (fin32 r.d) (fin32 r.a) (fin32 r.b) r.la r.lb⟩,
  ⟨4, .oper, .lt 5, .s, .s, .s, .zero, false, .orderIt, .none, fun r => .amoAnd (Scope.ofCode r.x) (MemOrder.ofCode (r.g % 4)) (IT.ofCode (r.g / 4)) (fin32 r.d) (fin32 r.a) (fin32 r.b) r.la r.lb⟩,
  ⟨5, .oper, .lt 5, .s, .s, .s, .zero, false, .orderIt, .none, fun r => .amoOr (Scope.ofCode r.x) (MemOrder.ofCode (r.g % 4)) (IT.ofCode (r.g / 4)) (fin32 r.d) (fin32 r.a) (fin32 r.b) r.la r.lb⟩,
  ⟨6, .oper, .lt 5, .s, .s, .s, .zero, false, .orderIt, .none, fun r => .amoXor (Scope.ofCode r.x) (MemOrder.ofCode (r.g % 4)) (IT.ofCode (r.g / 4)) (fin32 r.d) (fin32 r.a) (fin32 r.b) r.la r.lb⟩,
  ⟨7, .oper, .lt 5, .s, .s, .s, .zero, false, .orderIt, .none, fun r => .amoSwap (Scope.ofCode r.x) (MemOrder.ofCode (r.g % 4)) (IT.ofCode (r.g / 4)) (fin32 r.d) (fin32 r.a) (fin32 r.b) r.la r.lb⟩,
  ⟨8, .oper, .lt 5, .s, .s, .s, .s, false, .orderIt, .none, fun r => .amoCas (Scope.ofCode r.x) (MemOrder.ofCode (r.g % 4)) (IT.ofCode (r.g / 4)) (fin32 r.d) (fin32 r.a) (fin32 r.b) (fin32 r.c) r.la r.lb r.lc⟩]

def forms15 : List Form := [
  ⟨0, .reg, .lt 5, .zero, .zero, .zero, .zero, false, .zero, .none, fun r => .fence (Scope.ofCode r.x)⟩,
  ⟨1, .imm, .lt 5, .zero, .zero, .zero, .zero, false, .zero, .low12, fun r => .xfence (Scope.ofCode r.x) r.imm6 r.imm6h⟩]

def forms16 : List Form := [
  ⟨0, .imm, .sel 0, .zero, .s, .zero, .zero, false, .zero, .i16, fun r => .prefL1 (fin32 r.a) r.imm16⟩,
  ⟨0, .imm, .sel 1, .zero, .s, .zero, .zero, false, .zero, .i16, fun r => .prefL2 (fin32 r.a) r.imm16⟩,
  ⟨1, .imm, .zero, .zero, .s, .zero, .zero, false, .zero, .i16, fun r => .flushl (fin32 r.a) r.imm16⟩,
  ⟨2, .imm, .zero, .zero, .s, .zero, .zero, false, .zero, .i16, fun r => .drop (fin32 r.a) r.imm16⟩]

def forms18 : List Form := [
  ⟨0, .oper, .lt 4, .vq, .vq, .v, .zero, true, .masked, .none, fun r => .vadd (FC.ofCode r.x) (RM.ofCode r.rmf) r.dVQ r.aVQ (fin32 r.b) r.la r.lb r.mask⟩,
  ⟨1, .oper, .lt 4, .vq, .vq, .v, .zero, true, .masked, .none, fun r => .vsub (FC.ofCode r.x) (RM.ofCode r.rmf) r.dVQ r.aVQ (fin32 r.b) r.la r.lb r.mask⟩,
  ⟨2, .oper, .lt 4, .vq, .vq, .v, .zero, true, .masked, .none, fun r => .vmul (FC.ofCode r.x) (RM.ofCode r.rmf) r.dVQ r.aVQ (fin32 r.b) r.la r.lb r.mask⟩,
  ⟨3, .oper, .lt 4, .vq, .vq, .v, .zero, true, .masked, .none, fun r => .vdiv (FC.ofCode r.x) (RM.ofCode r.rmf) r.dVQ r.aVQ (fin32 r.b) r.la r.lb r.mask⟩,
  ⟨4, .oper, .lt 4, .vq, .vq, .v, .zero, false, .masked, .none, fun r => .vmin (FC.ofCode r.x) r.dVQ r.aVQ (fin32 r.b) r.la r.lb r.mask⟩,
  ⟨5, .oper, .lt 4, .vq, .vq, .v, .zero, false, .masked, .none, fun r => .vmax (FC.ofCode r.x) r.dVQ r.aVQ (fin32 r.b) r.la r.lb r.mask⟩,
  ⟨6, .oper, .lt 4, .vq, .vq, .zero, .zero, false, .masked, .none, fun r => .vabs (FC.ofCode r.x) r.dVQ r.aVQ r.la r.mask⟩,
  ⟨7, .oper, .lt 4, .vq, .vq, .zero, .zero, false, .masked, .none, fun r => .vneg (FC.ofCode r.x) r.dVQ r.aVQ r.la r.mask⟩,
  ⟨8, .oper, .lt 4, .vq, .vq, .zero, .zero, true, .masked, .none, fun r => .vsqrt (FC.ofCode r.x) (RM.ofCode r.rmf) r.dVQ r.aVQ r.la r.mask⟩]

def forms19 : List Form := [
  ⟨0, .oper, .lt 4, .vq, .vq, .v, .v, true, .masked, .none, fun r => .vfma (FC.ofCode r.x) (RM.ofCode r.rmf) r.dVQ r.aVQ (fin32 r.b) (fin32 r.c) r.la r.lb r.lc r.mask⟩,
  ⟨1, .oper, .lt 4, .vq, .vq, .v, .v, true, .masked, .none, fun r => .vfms (FC.ofCode r.x) (RM.ofCode r.rmf) r.dVQ r.aVQ (fin32 r.b) (fin32 r.c) r.la r.lb r.lc r.mask⟩,
  ⟨2, .oper, .lt 4, .vq, .vq, .v, .v, true, .masked, .none, fun r => .vfnma (FC.ofCode r.x) (RM.ofCode r.rmf) r.dVQ r.aVQ (fin32 r.b) (fin32 r.c) r.la r.lb r.lc r.mask⟩,
  ⟨3, .oper, .lt 4, .vq, .vq, .v, .v, true, .masked, .none, fun r => .vdot (FC.ofCode r.x) (RM.ofCode r.rmf) r.dVQ r.aVQ (fin32 r.b) (fin32 r.c) r.la r.lb r.lc r.mask⟩]

def forms1A : List Form := [
  ⟨0, .oper, .lt 8, .vq, .vq, .v, .zero, false, .masked, .none, fun r => .viadd (IT.ofCode r.x) r.dVQ r.aVQ (fin32 r.b) r.la r.lb r.mask⟩,
  ⟨1, .oper, .lt 8, .vq, .vq, .v, .zero, false, .masked, .none, fun r => .visub (IT.ofCode r.x) r.dVQ r.aVQ (fin32 r.b) r.la r.lb r.mask⟩,
  ⟨2, .oper, .lt 8, .vq, .vq, .v, .zero, false, .masked, .none, fun r => .vimul (IT.ofCode r.x) r.dVQ r.aVQ (fin32 r.b) r.la r.lb r.mask⟩,
  ⟨3, .oper, .lt 8, .vq, .vq, .v, .zero, false, .masked, .none, fun r => .vand (IT.ofCode r.x) r.dVQ r.aVQ (fin32 r.b) r.la r.lb r.mask⟩,
  ⟨4, .oper, .lt 8, .vq, .vq, .v, .zero, false, .masked, .none, fun r => .vor (IT.ofCode r.x) r.dVQ r.aVQ (fin32 r.b) r.la r.lb r.mask⟩,
  ⟨5, .oper, .lt 8, .vq, .vq, .v, .zero, false, .masked, .none, fun r => .vxor (IT.ofCode r.x) r.dVQ r.aVQ (fin32 r.b) r.la r.lb r.mask⟩,
  ⟨6, .oper, .lt 8, .vq, .vq, .v, .zero, false, .masked, .none, fun r => .vshl (IT.ofCode r.x) r.dVQ r.aVQ (fin32 r.b) r.la r.lb r.mask⟩,
  ⟨7, .oper, .lt 8, .vq, .vq, .v, .zero, false, .masked, .none, fun r => .vshr (IT.ofCode r.x) r.dVQ r.aVQ (fin32 r.b) r.la r.lb r.mask⟩,
  ⟨8, .oper, .lt 8, .vq, .vq, .v, .zero, false, .masked, .none, fun r => .vsra (IT.ofCode r.x) r.dVQ r.aVQ (fin32 r.b) r.la r.lb r.mask⟩]

def forms1B : List Form := [
  ⟨0, .oper, .cmp, .k, .vq, .v, .code 32, false, .masked, .none, fun r => .vcmp r.cmpTy (fin4 r.d) r.aVQ (fin32 r.b) (fin8 r.c) r.la r.lb r.mask⟩,
  ⟨1, .oper, .lt 4, .vq, .vq, .v, .k, false, .masked, .none, fun r => .vsel (Width.ofCode r.x) r.dVQ r.aVQ (fin32 r.b) (fin4 r.c) r.la r.lb r.lc r.mask⟩,
  ⟨2, .oper, .zero, .k, .k, .k, .zero, false, .noMask, .none, fun r => .kand (fin4 r.d) (fin4 r.a) (fin4 r.b) r.la r.lb⟩,
  ⟨3, .oper, .zero, .k, .k, .k, .zero, false, .noMask, .none, fun r => .kor (fin4 r.d) (fin4 r.a) (fin4 r.b) r.la r.lb⟩,
  ⟨4, .oper, .zero, .k, .k, .zero, .zero, false, .noMask, .none, fun r => .knot (fin4 r.d) (fin4 r.a) r.la⟩,
  ⟨5, .oper, .lt 4, .s, .k, .zero, .zero, false, .noMask, .none, fun r => .kpop (Width.ofCode r.x) (fin32 r.d) (fin4 r.a) r.la⟩]

def forms1C : List Form := [
  ⟨0, .oper, .eq 1, .vq, .vq, .zero, .zero, true, .masked, .none, fun r => .vexp (RM.ofCode r.rmf) r.dVQ r.aVQ r.la r.mask⟩,
  ⟨1, .oper, .eq 1, .vq, .vq, .zero, .zero, true, .masked, .none, fun r => .vlog (RM.ofCode r.rmf) r.dVQ r.aVQ r.la r.mask⟩,
  ⟨2, .oper, .eq 1, .vq, .vq, .zero, .zero, true, .masked, .none, fun r => .vrcp (RM.ofCode r.rmf) r.dVQ r.aVQ r.la r.mask⟩,
  ⟨3, .oper, .eq 1, .vq, .vq, .zero, .zero, true, .masked, .none, fun r => .vrsqrt (RM.ofCode r.rmf) r.dVQ r.aVQ r.la r.mask⟩,
  ⟨4, .oper, .eq 1, .vq, .vq, .zero, .zero, true, .masked, .none, fun r => .vtanh (RM.ofCode r.rmf) r.dVQ r.aVQ r.la r.mask⟩,
  ⟨5, .oper, .eq 1, .vq, .vq, .zero, .zero, true, .masked, .none, fun r => .vsigm (RM.ofCode r.rmf) r.dVQ r.aVQ r.la r.mask⟩,
  ⟨6, .oper, .eq 1, .vq, .vq, .zero, .zero, true, .masked, .none, fun r => .verf (RM.ofCode r.rmf) r.dVQ r.aVQ r.la r.mask⟩,
  ⟨7, .oper, .eq 1, .vq, .vq, .zero, .zero, true, .masked, .none, fun r => .vphi (RM.ofCode r.rmf) r.dVQ r.aVQ r.la r.mask⟩,
  ⟨8, .oper, .eq 1, .vq, .vq, .zero, .zero, true, .masked, .none, fun r => .vpdf (RM.ofCode r.rmf) r.dVQ r.aVQ r.la r.mask⟩]

def forms1D : List Form := [
  ⟨0, .oper, .lt 8, .vq, .vq, .code 17, .code 17, true, .masked, .none, fun r => .vcvt (fin8 r.x) (RM.ofCode r.rmf) r.dVQ r.aVQ (Fmt.ofCode r.b) (Fmt.ofCode r.c) r.la r.mask⟩,
  ⟨1, .oper, .eq 0, .vq, .vq, .s, .code 17, true, .noMask, .none, fun r => .vscalePack (RM.ofCode r.rmf) r.dVQ r.aVQ (fin32 r.b) (Fmt.ofCode r.c) r.la r.lb⟩,
  ⟨1, .oper, .eq 1, .vq, .vq, .s, .code 17, false, .noMask, .none, fun r => .vscaleUnpack r.dVQ r.aVQ (fin32 r.b) (Fmt.ofCode r.c) r.la r.lb⟩]

def forms1E : List Form := [
  ⟨0, .oper, .fmtWidth, .s, .vq, .zero, .code 17, false, .masked, .none, fun r => .vredsum (fin32 r.d) r.aVQ (Fmt.ofCode r.c) r.la r.mask⟩,
  ⟨1, .oper, .fmtWidth, .s, .vq, .zero, .code 17, false, .masked, .none, fun r => .vredmax (fin32 r.d) r.aVQ (Fmt.ofCode r.c) r.la r.mask⟩,
  ⟨2, .oper, .fmtWidth, .s, .vq, .zero, .code 17, false, .masked, .none, fun r => .vredmin (fin32 r.d) r.aVQ (Fmt.ofCode r.c) r.la r.mask⟩,
  ⟨3, .oper, .lt 4, .vq, .vq, .v, .zero, false, .masked, .none, fun r => .vperm (Width.ofCode r.x) r.dVQ r.aVQ (fin32 r.b) r.la r.lb r.mask⟩,
  ⟨4, .oper, .lt 4, .vq, .s, .zero, .zero, false, .masked, .none, fun r => .vbcast (Width.ofCode r.x) r.dVQ (fin32 r.a) r.la r.mask⟩,
  ⟨5, .oper, .lt 4, .vq, .vq, .s, .zero, false, .masked, .none, fun r => .vslide (Width.ofCode r.x) r.dVQ r.aVQ (fin32 r.b) r.la r.lb r.mask⟩,
  ⟨6, .oper, .lt 4, .s, .vq, .s, .zero, false, .noMask, .none, fun r => .vext (Width.ofCode r.x) (fin32 r.d) r.aVQ (fin32 r.b) r.la r.lb⟩,
  ⟨7, .oper, .lt 4, .vq, .s, .s, .zero, false, .noMask, .none, fun r => .vins (Width.ofCode r.x) r.dVQ (fin32 r.a) (fin32 r.b) r.la r.lb⟩]

def forms1F : List Form := [
  ⟨0, .oper, .lt 4, .v, .s, .zero, .zero, false, .masked, .none, fun r => .vld (Width.ofCode r.x) (fin32 r.d) (fin32 r.a) r.la r.mask⟩,
  ⟨1, .oper, .lt 4, .v, .s, .zero, .zero, false, .masked, .none, fun r => .vst (Width.ofCode r.x) (fin32 r.d) (fin32 r.a) r.la r.mask⟩,
  ⟨2, .oper, .lt 4, .v, .s, .s, .zero, false, .masked, .none, fun r => .vlds (Width.ofCode r.x) (fin32 r.d) (fin32 r.a) (fin32 r.b) r.la r.lb r.mask⟩,
  ⟨3, .oper, .lt 4, .v, .s, .s, .zero, false, .masked, .none, fun r => .vsts (Width.ofCode r.x) (fin32 r.d) (fin32 r.a) (fin32 r.b) r.la r.lb r.mask⟩,
  ⟨4, .oper, .lt 4, .v, .s, .v, .code 4, false, .masked, .none, fun r => .vgather (Width.ofCode r.x) (fin32 r.d) (fin32 r.a) (fin32 r.b) (fin4 r.c) r.la r.lb r.mask⟩,
  ⟨5, .oper, .lt 4, .v, .s, .v, .code 4, false, .masked, .none, fun r => .vscatter (Width.ofCode r.x) (fin32 r.d) (fin32 r.a) (fin32 r.b) (fin4 r.c) r.la r.lb r.mask⟩]

def forms20 : List Form := [
  ⟨0, .oper, .lt 4, .v, .s, .zero, .zero, false, .masked, .none, fun r => .vldl (Width.ofCode r.x) (fin32 r.d) (fin32 r.a) r.la r.mask⟩,
  ⟨1, .oper, .lt 4, .v, .s, .zero, .zero, false, .masked, .none, fun r => .vstl (Width.ofCode r.x) (fin32 r.d) (fin32 r.a) r.la r.mask⟩,
  ⟨2, .oper, .lt 4, .v, .s, .v, .code 4, false, .masked, .none, fun r => .vgatherl (Width.ofCode r.x) (fin32 r.d) (fin32 r.a) (fin32 r.b) (fin4 r.c) r.la r.lb r.mask⟩,
  ⟨3, .oper, .lt 4, .v, .s, .v, .code 4, false, .masked, .none, fun r => .vscatterl (Width.ofCode r.x) (fin32 r.d) (fin32 r.a) (fin32 r.b) (fin4 r.c) r.la r.lb r.mask⟩]

def forms21 : List Form := [
  ⟨0, .oper, .lt 4, .s, .s, .zero, .zero, false, .noMask, .none, fun r => .vsetvl (Width.ofCode r.x) (fin32 r.d) (fin32 r.a) r.la⟩,
  ⟨1, .oper, .lt 4, .vq, .vq, .zero, .zero, false, .masked, .none, fun r => .vmovs (Width.ofCode r.x) r.dVQ r.aVQ r.la r.mask⟩,
  ⟨2, .oper, .zero, .v, .zero, .zero, .zero, false, .noMask, .none, fun r => .vzero (fin32 r.d)⟩,
  ⟨3, .oper, .lt 4, .v, .zero, .zero, .code 1, false, .masked, .none, fun r => .vrandUnif (Width.ofCode r.x) (fin32 r.d) r.mask⟩,
  ⟨3, .oper, .eq 2, .v, .zero, .zero, .code 2, false, .masked, .none, fun r => .vrandGauss (fin32 r.d) r.mask⟩]

def forms24 : List Form := [
  ⟨0, .oper, .zero, .m, .m, .m, .zero, false, .masked, .none, fun r => .madd (fin16 r.d) (fin16 r.a) (fin16 r.b) r.la r.lb r.mask⟩,
  ⟨1, .oper, .zero, .m, .m, .m, .zero, false, .masked, .none, fun r => .msub (fin16 r.d) (fin16 r.a) (fin16 r.b) r.la r.lb r.mask⟩,
  ⟨2, .oper, .zero, .m, .m, .m, .zero, false, .masked, .none, fun r => .mmul (fin16 r.d) (fin16 r.a) (fin16 r.b) r.la r.lb r.mask⟩,
  ⟨3, .oper, .zero, .m, .m, .m, .m, false, .masked, .none, fun r => .mfma (fin16 r.d) (fin16 r.a) (fin16 r.b) (fin16 r.c) r.la r.lb r.lc r.mask⟩,
  ⟨4, .oper, .zero, .m, .m, .s, .zero, false, .masked, .none, fun r => .mscale (fin16 r.d) (fin16 r.a) (fin32 r.b) r.la r.lb r.mask⟩,
  ⟨5, .oper, .zero, .m, .m, .s, .zero, false, .masked, .none, fun r => .mshift (fin16 r.d) (fin16 r.a) (fin32 r.b) r.la r.lb r.mask⟩]

def forms25 : List Form := [
  ⟨0, .oper, .zero, .m, .m, .zero, .zero, false, .masked, .none, fun r => .mrelu (fin16 r.d) (fin16 r.a) r.la r.mask⟩,
  ⟨1, .oper, .zero, .m, .m, .zero, .zero, false, .masked, .none, fun r => .mexp (fin16 r.d) (fin16 r.a) r.la r.mask⟩,
  ⟨2, .oper, .zero, .m, .m, .zero, .zero, false, .masked, .none, fun r => .msigm (fin16 r.d) (fin16 r.a) r.la r.mask⟩,
  ⟨3, .oper, .zero, .m, .m, .zero, .zero, false, .masked, .none, fun r => .mtanh (fin16 r.d) (fin16 r.a) r.la r.mask⟩,
  ⟨4, .oper, .zero, .m, .m, .m, .zero, false, .masked, .none, fun r => .mmax (fin16 r.d) (fin16 r.a) (fin16 r.b) r.la r.lb r.mask⟩]

/-- R312 excepts `mpack` and `munpack` from X = 0 and no file gives their X a meaning: any X is taken, and it has no effect (log entry 124). -/
def forms26 : List Form := [
  ⟨0, .oper, .zero, .m, .s, .zero, .zero, false, .masked, .none, fun r => .mld (fin16 r.d) (fin32 r.a) r.la r.mask⟩,
  ⟨1, .oper, .zero, .m, .s, .zero, .zero, false, .masked, .none, fun r => .mst (fin16 r.d) (fin32 r.a) r.la r.mask⟩,
  ⟨2, .oper, .zero, .m, .s, .zero, .zero, false, .masked, .none, fun r => .mldl (fin16 r.d) (fin32 r.a) r.la r.mask⟩,
  ⟨3, .oper, .zero, .m, .s, .zero, .zero, false, .masked, .none, fun r => .mstl (fin16 r.d) (fin32 r.a) r.la r.mask⟩,
  ⟨4, .oper, .lt 8, .v, .m, .zero, .zero, true, .masked, .none, fun r => .mpack (RM.ofCode r.rmf) (fin32 r.d) (fin16 r.a) r.la r.mask⟩,
  ⟨5, .oper, .lt 8, .m, .v, .zero, .zero, false, .masked, .none, fun r => .munpack (fin16 r.d) (fin32 r.a) r.la r.mask⟩]

def forms27 : List Form := [
  ⟨0, .oper, .zero, .m, .m, .zero, .zero, false, .masked, .none, fun r => .mredsum (fin16 r.d) (fin16 r.a) r.la r.mask⟩,
  ⟨1, .oper, .zero, .v, .m, .s, .code 5, false, .masked, .none, fun r => .mcollapse (fin32 r.d) (fin16 r.a) (fin32 r.b) (fin5 r.c) r.la r.lb r.mask⟩,
  ⟨2, .oper, .zero, .s, .m, .zero, .zero, false, .masked, .none, fun r => .mcheck (fin32 r.d) (fin16 r.a) r.la r.mask⟩,
  ⟨3, .oper, .zero, .s, .s, .zero, .zero, false, .masked, .none, fun r => .mmode (fin32 r.d) (fin32 r.a) r.la r.mask⟩]

def forms2C : List Form := [
  ⟨0, .oper, .zero, .code 8, .grp, .zero, .zero, false, .zero, .none, fun r => .sbind (fin8 r.d) (grpOf r.a) r.la⟩,
  ⟨1, .oper, .zero, .code 8, .zero, .zero, .zero, false, .zero, .none, fun r => .sunbind (fin8 r.d)⟩,
  ⟨2, .oper, .zero, .s, .code 8, .zero, .zero, false, .zero, .none, fun r => .sstat (fin32 r.d) (fin8 r.a)⟩]

def forms2D : List Form := [
  ⟨0, .oper, .zero, .zero, .grp, .zero, .zero, false, .zero, .none, fun r => .cpy (grpOf r.a) r.la⟩,
  ⟨1, .oper, .zero, .s, .grp, .zero, .zero, false, .zero, .none, fun r => .cpyNb (fin32 r.d) (grpOf r.a) r.la⟩,
  ⟨2, .oper, .zero, .s, .s, .zero, .zero, false, .zero, .none, fun r => .cpq (fin32 r.d) (fin32 r.a) r.la⟩]

def forms2E : List Form := [
  ⟨0, .oper, .zero, .s, .s, .zero, .zero, false, .zero, .none, fun r => .sit (fin32 r.d) (fin32 r.a) r.la⟩,
  ⟨1, .oper, .zero, .zero, .zero, .zero, .zero, false, .zero, .none, fun _ => .unsit⟩,
  ⟨2, .oper, .zero, .zero, .s, .zero, .zero, false, .zero, .none, fun r => .mxpal (fin32 r.a) r.la⟩]

def forms2F : List Form := [
  ⟨0, .oper, .zero, .code 4, .s, .s, .s, false, .zero, .none, fun r => .mxlda (fin4 r.d) (fin32 r.a) (fin32 r.b) (fin32 r.c) r.la r.lb r.lc⟩,
  ⟨1, .oper, .zero, .code 8, .s, .s, .s, false, .zero, .none, fun r => .mxldb (fin8 r.d) (fin32 r.a) (fin32 r.b) (fin32 r.c) r.la r.lb r.lc⟩,
  ⟨2, .oper, .bit0, .s, .code 4, .code 8, .zero, false, .zero, .none, fun r => .mxmma (r.x == 1) (fin32 r.d) (fin4 r.a) (fin8 r.b)⟩,
  ⟨3, .oper, .bit0, .s, .code 4, .code 8, .zero, false, .zero, .none, fun r => .mxmmaM (r.x == 1) (fin32 r.d) (fin4 r.a) (fin8 r.b)⟩]

def forms30 : List Form := [
  ⟨0, .oper, .zero, .s, .s, .s, .zero, true, .zero, .none, fun r => .mxst (RM.ofCode r.rmf) (fin32 r.d) (fin32 r.a) (fin32 r.b) r.la r.lb⟩,
  ⟨1, .oper, .zero, .s, .zero, .zero, .zero, false, .zero, .none, fun r => .mxrel (fin32 r.d)⟩,
  ⟨2, .oper, .zero, .s, .zero, .zero, .zero, false, .zero, .none, fun r => .mxzero (fin32 r.d)⟩]

def forms31 : List Form := [
  ⟨0, .oper, .zero, .c, .s, .s, .sdst, false, .zero, .none, fun r => .tdecl (fin8 r.d) (fin32 r.a) (fin32 r.b) (fin32 r.c) r.la r.lb⟩,
  ⟨1, .oper, .zero, .s, .c, .s, .zero, false, .zero, .none, fun r => .tpass (fin32 r.d) (fin8 r.a) (fin32 r.b) r.la r.lb⟩,
  ⟨2, .oper, .zero, .s, .c, .zero, .zero, false, .zero, .none, fun r => .tacq (fin32 r.d) (fin8 r.a) r.la⟩,
  ⟨3, .oper, .zero, .s, .c, .zero, .zero, false, .zero, .none, fun r => .tundecl (fin32 r.d) (fin8 r.a) r.la⟩,
  ⟨4, .oper, .zero, .s, .c, .s, .zero, false, .zero, .none, fun r => .tstat (fin32 r.d) (fin8 r.a) (fin32 r.b) r.la r.lb⟩]

def forms32 : List Form := [
  ⟨0, .oper, .zero, .s, .s, .s, .zero, false, .zero, .none, fun r => .wreg (fin32 r.d) (fin32 r.a) (fin32 r.b) r.la r.lb⟩,
  ⟨1, .oper, .zero, .s, .s, .zero, .zero, false, .zero, .none, fun r => .wunreg (fin32 r.d) (fin32 r.a) r.la⟩,
  ⟨2, .oper, .eq 0, .zero, .s, .s, .s, false, .zero, .none, fun r => .put (fin32 r.a) (fin32 r.b) (fin32 r.c) r.la r.lb r.lc⟩,
  ⟨2, .oper, .eq 1, .zero, .s, .s, .s, false, .zero, .none, fun r => .putImm (fin32 r.a) (fin32 r.b) (fin32 r.c) r.la r.lb r.lc⟩,
  ⟨3, .oper, .zero, .s, .s, .s, .zero, false, .zero, .none, fun r => .wexp (fin32 r.d) (fin32 r.a) (fin32 r.b) r.la r.lb⟩,
  ⟨4, .oper, .eq 0, .s, .s, .zero, .zero, false, .zero, .none, fun r => .wcnt (fin32 r.d) (fin32 r.a) r.la⟩,
  ⟨4, .oper, .eq 1, .s, .zero, .zero, .zero, false, .zero, .none, fun r => .wcntSrc (fin32 r.d)⟩,
  ⟨5, .oper, .zero, .zero, .s, .zero, .zero, false, .zero, .none, fun r => .wwait (fin32 r.a) r.la⟩]

def forms34 : List Form := [
  ⟨0, .oper, .eq 0, .s, .s, .zero, .zero, false, .zero, .none, fun r => .arrive (fin32 r.d) (fin32 r.a) r.la⟩,
  ⟨1, .oper, .eq 0, .zero, .s, .s, .zero, false, .zero, .none, fun r => .bwait (fin32 r.a) (fin32 r.b) r.la r.lb⟩,
  ⟨2, .oper, .eq 0, .s, .s, .zero, .zero, false, .zero, .none, fun r => .barw (fin32 r.d) (fin32 r.a) r.la⟩,
  ⟨3, .oper, .eq 0, .s, .s, .zero, .zero, false, .zero, .none, fun r => .bjoin (fin32 r.d) (fin32 r.a) r.la⟩,
  ⟨3, .oper, .eq 1, .s, .s, .zero, .zero, false, .zero, .none, fun r => .bjoinLeave (fin32 r.d) (fin32 r.a) r.la⟩,
  ⟨4, .oper, .eq 0, .zero, .s, .s, .zero, false, .zero, .none, fun r => .btimeout (fin32 r.a) (fin32 r.b) r.la r.lb⟩,
  ⟨5, .oper, .eq 0, .s, .s, .s, .zero, false, .zero, .none, fun r => .bforce (fin32 r.d) (fin32 r.a) (fin32 r.b) r.la r.lb⟩,
  ⟨5, .oper, .eq 1, .s, .s, .s, .zero, false, .zero, .none, fun r => .bforceRemove (fin32 r.d) (fin32 r.a) (fin32 r.b) r.la r.lb⟩]

def forms35 : List Form := [
  ⟨0, .oper, .zero, .s, .pair, .s, .zero, false, .zero, .none, fun r => .msend (fin32 r.d) (pairOf r.a) (fin32 r.b) r.la r.lb⟩,
  ⟨1, .oper, .zero, .grp, .s, .zero, .zero, false, .zero, .none, fun r => .mrecv (grpOf r.d) (fin32 r.a) r.la⟩,
  ⟨2, .oper, .zero, .c, .sdst, .zero, .zero, false, .zero, .none, fun r => .mrecvC (fin8 r.d) (fin32 r.a)⟩,
  ⟨3, .oper, .zero, .s, .s, .zero, .zero, false, .zero, .none, fun r => .mwait (fin32 r.d) (fin32 r.a) r.la⟩,
  ⟨4, .oper, .zero, .s, .grp, .zero, .zero, false, .zero, .none, fun r => .amsg (fin32 r.d) (grpOf r.a) r.la⟩]

def forms36 : List Form := [
  ⟨0, .count, .zero, .zero, .zero, .zero, .zero, false, .zero, .i16, fun r => .wait (r.nib 0) (r.nib 1) (r.nib 2) (r.nib 3)⟩]

def forms37 : List Form := [
  ⟨0, .oper, .eq 0, .s, .s, .zero, .zero, false, .zero, .none, fun r => .book (fin32 r.d) (fin32 r.a) r.la⟩,
  ⟨1, .oper, .eq 0, .s, .zero, .zero, .zero, false, .zero, .none, fun r => .unbook (fin32 r.d)⟩,
  ⟨1, .oper, .eq 1, .s, .s, .zero, .zero, false, .zero, .none, fun r => .unbookRec (fin32 r.d) (fin32 r.a) r.la⟩,
  ⟨2, .oper, .eq 0, .s, .s, .zero, .zero, false, .zero, .none, fun r => .bkrel (fin32 r.d) (fin32 r.a) r.la⟩,
  ⟨3, .oper, .eq 0, .s, .s, .s, .zero, false, .zero, .none, fun r => .bkext (fin32 r.d) (fin32 r.a) (fin32 r.b) r.la r.lb⟩,
  ⟨4, .oper, .eq 0, .s, .s, .zero, .zero, false, .zero, .none, fun r => .bkq (fin32 r.d) (fin32 r.a) r.la⟩]

def forms38 : List Form := [
  ⟨0, .oper, .lt 8, .s, .s, .s, .zero, false, .zero, .none, fun r => .lrpatch (fin8 r.x) (fin32 r.d) (fin32 r.a) (fin32 r.b) r.la r.lb⟩,
  ⟨1, .oper, .eq 0, .s, .s, .zero, .zero, false, .zero, .none, fun r => .lrarm (fin32 r.d) (fin32 r.a) r.la⟩,
  ⟨2, .oper, .eq 0, .s, .s, .s, .zero, false, .zero, .none, fun r => .lrstat (fin32 r.d) (fin32 r.a) (fin32 r.b) r.la r.lb⟩,
  ⟨3, .oper, .eq 0, .s, .s, .s, .zero, false, .zero, .none, fun r => .lvlcnt (fin32 r.d) (fin32 r.a) (fin32 r.b) r.la r.lb⟩,
  ⟨4, .oper, .eq 0, .s, .s, .zero, .zero, false, .zero, .none, fun r => .lvlcancel (fin32 r.d) (fin32 r.a) r.la⟩,
  ⟨4, .oper, .eq 1, .s, .s, .zero, .zero, false, .zero, .none, fun r => .lvlcancelRec (fin32 r.d) (fin32 r.a) r.la⟩]

def forms39 : List Form := [
  ⟨0, .head, .zero, .zero, .zero, .zero, .zero, false, .zero, .none, fun _ => .retire⟩,
  ⟨6, .reg, .zero, .zero, .s, .zero, .zero, false, .zero, .none, fun r => .retireFail (fin32 r.a) r.la⟩,
  ⟨1, .head, .zero, .zero, .zero, .zero, .zero, false, .zero, .none, fun _ => .yield⟩,
  ⟨2, .reg, .zero, .zero, .zero, .zero, .zero, false, .zero, .none, fun _ => .follow⟩,
  ⟨3, .head, .zero, .zero, .zero, .zero, .zero, false, .zero, .none, fun _ => .unfollow⟩,
  ⟨4, .oper, .zero, .s, .s, .zero, .zero, false, .zero, .none, fun r => .salloc (fin32 r.d) (fin32 r.a) r.la⟩,
  ⟨5, .oper, .zero, .s, .s, .zero, .zero, false, .zero, .none, fun r => .sfree (fin32 r.d) (fin32 r.a) r.la⟩]

def forms3C : List Form := [
  ⟨0, .imm, .zero, .s, .zero, .zero, .zero, false, .zero, .low12, fun r => .csrr (fin32 r.d) r.imm12⟩,
  ⟨1, .imm, .zero, .s, .s, .zero, .zero, false, .zero, .low12, fun r => .csrw (fin32 r.d) (fin32 r.a) r.imm12⟩,
  ⟨2, .imm, .zero, .s, .s, .zero, .zero, false, .zero, .low12, fun r => .csrs (fin32 r.d) (fin32 r.a) r.imm12⟩,
  ⟨3, .imm, .zero, .s, .s, .zero, .zero, false, .zero, .low12, fun r => .csrc (fin32 r.d) (fin32 r.a) r.imm12⟩]

def forms3D : List Form := [
  ⟨0, .imm, .zero, .code 32, .zero, .zero, .zero, false, .zero, .i16, fun r => .trap (fin32 r.d) r.imm16⟩,
  ⟨1, .head, .zero, .zero, .zero, .zero, .zero, false, .zero, .none, fun _ => .sret⟩,
  ⟨2, .reg, .zero, .zero, .s, .zero, .zero, false, .zero, .none, fun r => .wsw (fin32 r.a) r.la⟩,
  ⟨3, .oper, .eq 0, .zero, .s, .s, .s, false, .zero, .none, fun r => .tlbinv (fin32 r.a) (fin32 r.b) (fin32 r.c) r.la r.lb r.lc⟩,
  ⟨3, .oper, .eq 1, .zero, .zero, .zero, .s, false, .zero, .none, fun r => .tlbinvVf (fin32 r.c) r.lc⟩,
  ⟨3, .oper, .eq 2, .zero, .zero, .zero, .zero, false, .zero, .none, fun _ => .tlbinvAll⟩,
  ⟨4, .head, .zero, .zero, .zero, .zero, .zero, false, .zero, .none, fun _ => .replayall⟩]

def forms3E : List Form := [
  ⟨0, .head, .zero, .zero, .zero, .zero, .zero, false, .zero, .none, fun _ => .brk⟩,
  ⟨1, .imm, .zero, .zero, .zero, .zero, .zero, false, .zero, .i16, fun r => .notate r.imm16⟩]

/-- The forms of a major (R234); none for a reserved one. -/
def formsOf (maj : Nat) : Option (List Form) :=
  match maj with
  | 0x01 => some forms01
  | 0x02 => some forms02
  | 0x03 => some forms03
  | 0x04 => some forms04
  | 0x05 => some forms05
  | 0x06 => some forms06
  | 0x07 => some forms07
  | 0x08 => some forms08
  | 0x09 => some forms09
  | 0x0B => some forms0B
  | 0x0C => some forms0C
  | 0x10 => some forms10
  | 0x11 => some forms11
  | 0x12 => some forms12
  | 0x13 => some forms13
  | 0x14 => some forms14
  | 0x15 => some forms15
  | 0x16 => some forms16
  | 0x18 => some forms18
  | 0x19 => some forms19
  | 0x1A => some forms1A
  | 0x1B => some forms1B
  | 0x1C => some forms1C
  | 0x1D => some forms1D
  | 0x1E => some forms1E
  | 0x1F => some forms1F
  | 0x20 => some forms20
  | 0x21 => some forms21
  | 0x24 => some forms24
  | 0x25 => some forms25
  | 0x26 => some forms26
  | 0x27 => some forms27
  | 0x2C => some forms2C
  | 0x2D => some forms2D
  | 0x2E => some forms2E
  | 0x2F => some forms2F
  | 0x30 => some forms30
  | 0x31 => some forms31
  | 0x32 => some forms32
  | 0x34 => some forms34
  | 0x35 => some forms35
  | 0x36 => some forms36
  | 0x37 => some forms37
  | 0x38 => some forms38
  | 0x39 => some forms39
  | 0x3C => some forms3C
  | 0x3D => some forms3D
  | 0x3E => some forms3E
  | _ => none

/-- Whether the encoding chooses this variant among the forms of one minor (R235, R240): `pref`, `vscale`, `put`,
`wcnt`, `bjoin`, `bforce`, `unbook`, `lvlcancel` and `tlbinv` by X, `vrand` by C. -/
def Form.chosen (f : Form) (r : Raw) : Bool :=
  (match f.x with
   | .sel n => r.x == n
   | .eq n => r.x == n
   | _ => true)
  && (match f.c with
      | .code n => r.maj != 0x21 || r.c + 1 == n
      | _ => true)

/-- R236 step 2: the form that the minor names, X for TL 0 and for major 0x03; none is reason MINOR. -/
def findForm (fs : List Form) (r : Raw) : Option Form :=
  if r.maj == 0x03 then if r.tl == 0 then none else fs.find? (fun f => f.min == r.x)
  else if r.tl == 0 then fs.find? (fun f => f.sh == .head && f.min == r.x)
  else if r.maj == 0x36 then fs.head?
  else
    let cs := fs.filter (fun f => f.min == r.min)
    match cs.find? (fun f => f.chosen r) with
    | some f => some f
    | none => cs.head?

/-- The checks of R236 in their order, then the instruction. -/
def decodeRaw (r : Raw) : Except IllegalReason Instr :=
  match formsOf r.maj with
  | none => .error .major
  | some fs =>
    match findForm fs r with
    | none => .error .minor
    | some f =>
      if !f.tlOk r then .error .tlen
      else
        let i := f.build r
        if !(f.rsvdOk r && i.rsvdOk) then .error .rsvd
        else if !f.classOk r then .error .regclass
        else if !(f.operandOk r && i.operandOk) then .error .operand
        else .ok i

/-- The instruction of a head and its own tail halfwords, or the reason of ILLEGAL (R236). -/
def decode (head : Half) (tail : List Half) : Except IllegalReason Instr := decodeRaw (rawOf head tail)

/-! ## The scalar registers that a head reads (R228 to R231, R317, R368) -/

/-- The scalar registers that a source field names: a group's four, a pair's two; none where the field names a stream. -/
def FK.reads (f : FK) (q : Bool) (n : Nat) : List SReg :=
  match f with
  | .s => [fin32 n]
  | .sq => if q then [] else [fin32 n]
  | .grp => [fin32 n, fin32 (n + 1), fin32 (n + 2), fin32 (n + 3)]
  | .pair => [fin32 n, fin32 (n + 1)]
  | _ => []

/-- The forms whose D is a source: `lih`, `bins`, `loop`, the stores, `st.rel`, the matrix multiplies, stores and slot operations. -/
def readsD (maj min : Nat) : Bool :=
  (maj == 0x03 && min == 1) || (maj == 0x05 && min == 8) || (maj == 0x08 && min == 6) || (maj == 0x11 && decide (min < 2)) ||
  (maj == 0x12 && min == 1) || (maj == 0x13 && min == 1) || (maj == 0x2F && decide (2 ≤ min)) || maj == 0x30

/-- The scalar registers that a form reads; `ret` reads s31 (R225). -/
def Form.reads (f : Form) (r : Raw) : List SReg :=
  (if f.hasMin then f.a.reads (f.hasQ r && r.qa) r.a ++ f.b.reads false r.b else [])
  ++ (if f.hasOperand r then f.c.reads false r.c else [])
  ++ (if readsD r.maj f.min then f.d.reads false r.d else [])
  ++ (if r.maj == 0x09 && f.min == 4 then [31] else [])

/-- The scalar registers that a head with its tail reads. -/
def sourcesOf (head : Half) (tail : List Half) : List SReg :=
  let r := rawOf head tail
  match (formsOf r.maj).bind (fun fs => findForm fs r) with
  | some f => f.reads r
  | none => []

/-! ## The encoder -/

def encTL (tl maj d x t1 t2 t3 t4 : Nat) : Raw := { maj, tl, d, x, t1, t2, t3, t4 }
/-- A HEAD form (R228). -/
def encHead (maj min : Nat) : Raw := encTL 0 maj 0 min 0 0 0 0
/-- An OPER or IMM form: two tail halfwords. -/
def enc2 (maj d x t1 t2 : Nat) : Raw := encTL 2 maj d x t1 t2 0 0
/-- A REG form: TL 1, or TL 2 when its operand halfword carries a mark or a stream (R242). -/
def encReg (maj d x t1 t2 : Nat) : Raw := if t2 = 0 then encTL 1 maj d x t1 0 0 0 else enc2 maj d x t1 t2
/-- A JUMP form: short when the line offset fits 11 bits (R225, R242). -/
def encJump (maj d x t1 : Nat) (g : Target) : Raw :=
  if ((g.lofs.setWidth 11).signExtend 27) = g.lofs then
    enc2 maj d x t1 (g.head.toNat + 32 * (g.lofs.toNat % 2048))
  else
    encTL 3 maj d x t1 (g.head.toNat + 32 * (g.lofs.toNat % 2048)) (g.lofs.toNat / 2048) 0
/-- The EW code of a width in bits. -/
def widthCodeOf (bits : Nat) : Nat :=
  match bits with
  | 8 => 0 | 16 => 1 | 32 => 2 | _ => 3

/-- The encoding of an instruction (R228 to R235); none for an event, which has no words. -/
def encodeRaw (i : Instr) : Option Raw :=
  match i with
  | .add t d a b la lb => some (encReg 0x1 d.code t.code (tail1 0 a.code b.val) (operandHalf 0 la lb false 0 (b2 a.isQ + 2 * b2 d.isQ)))
  | .sub t d a b la lb => some (encReg 0x1 d.code t.code (tail1 1 a.code b.val) (operandHalf 0 la lb false 0 (b2 a.isQ + 2 * b2 d.isQ)))
  | .and t d a b la lb => some (encReg 0x1 d.code t.code (tail1 2 a.code b.val) (operandHalf 0 la lb false 0 (b2 a.isQ + 2 * b2 d.isQ)))
  | .or t d a b la lb => some (encReg 0x1 d.code t.code (tail1 3 a.code b.val) (operandHalf 0 la lb false 0 (b2 a.isQ + 2 * b2 d.isQ)))
  | .xor t d a b la lb => some (encReg 0x1 d.code t.code (tail1 4 a.code b.val) (operandHalf 0 la lb false 0 (b2 a.isQ + 2 * b2 d.isQ)))
  | .andn t d a b la lb => some (encReg 0x1 d.code t.code (tail1 5 a.code b.val) (operandHalf 0 la lb false 0 (b2 a.isQ + 2 * b2 d.isQ)))
  | .orn t d a b la lb => some (encReg 0x1 d.code t.code (tail1 6 a.code b.val) (operandHalf 0 la lb false 0 (b2 a.isQ + 2 * b2 d.isQ)))
  | .min t d a b la lb => some (encReg 0x1 d.code t.code (tail1 7 a.code b.val) (operandHalf 0 la lb false 0 (b2 a.isQ + 2 * b2 d.isQ)))
  | .max t d a b la lb => some (encReg 0x1 d.code t.code (tail1 8 a.code b.val) (operandHalf 0 la lb false 0 (b2 a.isQ + 2 * b2 d.isQ)))
  | .slt t d a b la lb => some (encReg 0x1 d.code t.code (tail1 9 a.code b.val) (operandHalf 0 la lb false 0 (b2 a.isQ + 2 * b2 d.isQ)))
  | .seq t d a b la lb => some (encReg 0x1 d.code t.code (tail1 10 a.code b.val) (operandHalf 0 la lb false 0 (b2 a.isQ + 2 * b2 d.isQ)))
  | .sne t d a b la lb => some (encReg 0x1 d.code t.code (tail1 11 a.code b.val) (operandHalf 0 la lb false 0 (b2 a.isQ + 2 * b2 d.isQ)))
  | .addi t d a imm => some (enc2 0x2 d.val t.code (tail1 0 a.val 0) imm.toNat)
  | .andi t d a imm => some (enc2 0x2 d.val t.code (tail1 1 a.val 0) imm.toNat)
  | .ori t d a imm => some (enc2 0x2 d.val t.code (tail1 2 a.val 0) imm.toNat)
  | .xori t d a imm => some (enc2 0x2 d.val t.code (tail1 3 a.val 0) imm.toNat)
  | .slti t d a imm => some (enc2 0x2 d.val t.code (tail1 4 a.val 0) imm.toNat)
  | .shli t d a n => some (enc2 0x2 d.val t.code (tail1 5 a.val 0) n.toNat)
  | .shri t d a n => some (enc2 0x2 d.val t.code (tail1 6 a.val 0) n.toNat)
  | .srai t d a n => some (enc2 0x2 d.val t.code (tail1 7 a.val 0) n.toNat)
  | .li d imm => some (encTL 2 0x3 d.val 0 (imm.toNat % 65536) (imm.toNat / 65536) 0 0)
  | .lih d imm => some (encTL 2 0x3 d.val 1 (imm.toNat % 65536) (imm.toNat / 65536) 0 0)
  | .liImm64 d imm => some (encTL 3 0x3 d.val 2 (imm.toNat % 65536) (imm.toNat / 65536 % 65536) (imm.toNat / 4294967296 % 65536) (imm.toNat / 281474976710656))
  | .mul t d a b la lb => some (encReg 0x4 d.code t.code (tail1 0 a.code b.val) (operandHalf 0 la lb false 0 (b2 a.isQ + 2 * b2 d.isQ)))
  | .mulh t d a b la lb => some (encReg 0x4 d.code t.code (tail1 1 a.code b.val) (operandHalf 0 la lb false 0 (b2 a.isQ + 2 * b2 d.isQ)))
  | .div t d a b la lb => some (encReg 0x4 d.code t.code (tail1 2 a.code b.val) (operandHalf 0 la lb false 0 (b2 a.isQ + 2 * b2 d.isQ)))
  | .rem t d a b la lb => some (encReg 0x4 d.code t.code (tail1 3 a.code b.val) (operandHalf 0 la lb false 0 (b2 a.isQ + 2 * b2 d.isQ)))
  | .shl t d a b la lb => some (encReg 0x5 d.code t.code (tail1 0 a.code b.val) (operandHalf 0 la lb false 0 (b2 a.isQ + 2 * b2 d.isQ)))
  | .shr t d a b la lb => some (encReg 0x5 d.code t.code (tail1 1 a.code b.val) (operandHalf 0 la lb false 0 (b2 a.isQ + 2 * b2 d.isQ)))
  | .sra t d a b la lb => some (encReg 0x5 d.code t.code (tail1 2 a.code b.val) (operandHalf 0 la lb false 0 (b2 a.isQ + 2 * b2 d.isQ)))
  | .rot t d a b la lb => some (encReg 0x5 d.code t.code (tail1 3 a.code b.val) (operandHalf 0 la lb false 0 (b2 a.isQ + 2 * b2 d.isQ)))
  | .clz t d a la => some (encReg 0x5 d.code t.code (tail1 4 a.code 0) (operandHalf 0 la false false 0 (b2 a.isQ + 2 * b2 d.isQ)))
  | .ctz t d a la => some (encReg 0x5 d.code t.code (tail1 5 a.code 0) (operandHalf 0 la false false 0 (b2 a.isQ + 2 * b2 d.isQ)))
  | .pop t d a la => some (encReg 0x5 d.code t.code (tail1 6 a.code 0) (operandHalf 0 la false false 0 (b2 a.isQ + 2 * b2 d.isQ)))
  | .sext t d a la => some (encReg 0x5 d.code t.code (tail1 9 a.code 0) (operandHalf 0 la false false 0 (b2 a.isQ + 2 * b2 d.isQ)))
  | .zext t d a la => some (encReg 0x5 d.code t.code (tail1 10 a.code 0) (operandHalf 0 la false false 0 (b2 a.isQ + 2 * b2 d.isQ)))
  | .bext t d a pos len1 => some (enc2 0x5 d.val t.code (tail1 7 a.val 0) (pos.toNat + 64 * len1.toNat))
  | .bins t d a pos len1 => some (enc2 0x5 d.val t.code (tail1 8 a.val 0) (pos.toNat + 64 * len1.toNat))
  | .sel t d a b c la lb lc => some (enc2 0x6 d.code t.code (tail1 0 a.code b.val) (operandHalf c.val la lb lc 0 (b2 a.isQ + 2 * b2 d.isQ)))
  | .cbase d a la => some (enc2 0x7 d.val 0 (tail1 0 a.val 0) (operandHalf 0 la false false 0 0))
  | .clen d a la => some (enc2 0x7 d.val 0 (tail1 1 a.val 0) (operandHalf 0 la false false 0 0))
  | .cgen d a la => some (enc2 0x7 d.val 0 (tail1 2 a.val 0) (operandHalf 0 la false false 0 0))
  | .crights d a la => some (enc2 0x7 d.val 0 (tail1 3 a.val 0) (operandHalf 0 la false false 0 0))
  | .cnarrow d a b c la lb lc => some (enc2 0x7 d.val 0 (tail1 4 a.val b.val) (operandHalf c.val la lb lc 0 0))
  | .ccheck d a b c la lb lc => some (enc2 0x7 d.val 0 (tail1 5 a.val b.val) (operandHalf c.val la lb lc 0 0))
  | .beq t a b tgt => some (encJump 0x8 0 t.code (tail1 0 a.val b.val) tgt)
  | .bne t a b tgt => some (encJump 0x8 0 t.code (tail1 1 a.val b.val) tgt)
  | .blt t a b tgt => some (encJump 0x8 0 t.code (tail1 2 a.val b.val) tgt)
  | .bge t a b tgt => some (encJump 0x8 0 t.code (tail1 3 a.val b.val) tgt)
  | .bz t a tgt => some (encJump 0x8 0 t.code (tail1 4 a.val 0) tgt)
  | .bnz t a tgt => some (encJump 0x8 0 t.code (tail1 5 a.val 0) tgt)
  | .loop t d tgt => some (encJump 0x8 d.val t.code (tail1 6 0 0) tgt)
  | .br tgt => some (encJump 0x9 0 0 (tail1 0 0 0) tgt)
  | .jmp a la => some (encReg 0x9 0 0 (tail1 1 a.val 0) (operandHalf 0 la false false 0 0))
  | .call tgt => some (encJump 0x9 0 0 (tail1 2 0 0) tgt)
  | .callr a la => some (encReg 0x9 0 0 (tail1 3 a.val 0) (operandHalf 0 la false false 0 0))
  | .fadd f rm d a b la lb => some (enc2 0xb d.code f.code (tail1 0 a.code b.val) (operandHalf 0 la lb false rm.code (b2 a.isQ + 2 * b2 d.isQ)))
  | .fsub f rm d a b la lb => some (enc2 0xb d.code f.code (tail1 1 a.code b.val) (operandHalf 0 la lb false rm.code (b2 a.isQ + 2 * b2 d.isQ)))
  | .fmul f rm d a b la lb => some (enc2 0xb d.code f.code (tail1 2 a.code b.val) (operandHalf 0 la lb false rm.code (b2 a.isQ + 2 * b2 d.isQ)))
  | .fdiv f rm d a b la lb => some (enc2 0xb d.code f.code (tail1 3 a.code b.val) (operandHalf 0 la lb false rm.code (b2 a.isQ + 2 * b2 d.isQ)))
  | .fsqrt f rm d a la => some (enc2 0xb d.code f.code (tail1 4 a.code 0) (operandHalf 0 la false false rm.code (b2 a.isQ + 2 * b2 d.isQ)))
  | .fmin f d a b la lb => some (enc2 0xb d.code f.code (tail1 5 a.code b.val) (operandHalf 0 la lb false 0 (b2 a.isQ + 2 * b2 d.isQ)))
  | .fmax f d a b la lb => some (enc2 0xb d.code f.code (tail1 6 a.code b.val) (operandHalf 0 la lb false 0 (b2 a.isQ + 2 * b2 d.isQ)))
  | .fcmp f d a b c la lb => some (enc2 0xb d.code f.code (tail1 7 a.code b.val) (operandHalf c.val la lb false 0 (b2 a.isQ + 2 * b2 d.isQ)))
  | .fclass f d a la => some (enc2 0xb d.code f.code (tail1 8 a.code 0) (operandHalf 0 la false false 0 (b2 a.isQ + 2 * b2 d.isQ)))
  | .fma f rm d a b c la lb lc => some (enc2 0xc d.code f.code (tail1 0 a.code b.val) (operandHalf c.val la lb lc rm.code (b2 a.isQ + 2 * b2 d.isQ)))
  | .fms f rm d a b c la lb lc => some (enc2 0xc d.code f.code (tail1 1 a.code b.val) (operandHalf c.val la lb lc rm.code (b2 a.isQ + 2 * b2 d.isQ)))
  | .fcvt rm d a b c la => some (enc2 0xc d.code 0 (tail1 2 a.code b.code) (operandHalf c.code la false false rm.code (b2 a.isQ + 2 * b2 d.isQ)))
  | .ld t d a imm => some (enc2 0x10 d.val t.code (tail1 0 a.val 0) imm.toNat)
  | .ldThroughCap t d a imm => some (enc2 0x10 d.val t.code (tail1 1 a.val 0) imm.toNat)
  | .ldCap d a imm => some (enc2 0x10 d.val 3 (tail1 2 a.val 0) imm.toNat)
  | .st t d a imm => some (enc2 0x11 d.val t.code (tail1 0 a.val 0) imm.toNat)
  | .stThroughCap t d a imm => some (enc2 0x11 d.val t.code (tail1 1 a.val 0) imm.toNat)
  | .stCap d a imm => some (enc2 0x11 d.val 3 (tail1 2 a.val 0) imm.toNat)
  | .ldl t d a imm => some (enc2 0x12 d.val t.code (tail1 0 a.val 0) imm.toNat)
  | .stl t d a imm => some (enc2 0x12 d.val t.code (tail1 1 a.val 0) imm.toNat)
  | .ldAcq sc t d a la => some (enc2 0x13 d.val sc.code (tail1 0 a.val 0) (operandHalf 0 la false false 0 (4 * t.code)))
  | .stRel sc t d a la => some (enc2 0x13 d.val sc.code (tail1 1 a.val 0) (operandHalf 0 la false false 0 (4 * t.code)))
  | .amoAdd sc o t d a b la lb => some (enc2 0x14 d.val sc.code (tail1 0 a.val b.val) (operandHalf 0 la lb false 0 (o.code + 4 * t.code)))
  | .amoFadd sc o t d a b la lb => some (enc2 0x14 d.val sc.code (tail1 1 a.val b.val) (operandHalf 0 la lb false 0 (o.code + 4 * t.code)))
  | .amoMin sc o t d a b la lb => some (enc2 0x14 d.val sc.code (tail1 2 a.val b.val) (operandHalf 0 la lb false 0 (o.code + 4 * t.code)))
  | .amoMax sc o t d a b la lb => some (enc2 0x14 d.val sc.code (tail1 3 a.val b.val) (operandHalf 0 la lb false 0 (o.code + 4 * t.code)))
  | .amoAnd sc o t d a b la lb => some (enc2 0x14 d.val sc.code (tail1 4 a.val b.val) (operandHalf 0 la lb false 0 (o.code + 4 * t.code)))
  | .amoOr sc o t d a b la lb => some (enc2 0x14 d.val sc.code (tail1 5 a.val b.val) (operandHalf 0 la lb false 0 (o.code + 4 * t.code)))
  | .amoXor sc o t d a b la lb => some (enc2 0x14 d.val sc.code (tail1 6 a.val b.val) (operandHalf 0 la lb false 0 (o.code + 4 * t.code)))
  | .amoSwap sc o t d a b la lb => some (enc2 0x14 d.val sc.code (tail1 7 a.val b.val) (operandHalf 0 la lb false 0 (o.code + 4 * t.code)))
  | .amoCas sc o t d a b c la lb lc => some (enc2 0x14 d.val sc.code (tail1 8 a.val b.val) (operandHalf c.val la lb lc 0 (o.code + 4 * t.code)))
  | .fence sc => some (encReg 0x15 0 sc.code (tail1 0 0 0) (operandHalf 0 false false false 0 0))
  | .xfence sc src dst => some (enc2 0x15 0 sc.code (tail1 1 0 0) (src.toNat + 64 * dst.toNat))
  | .prefL1 a imm => some (enc2 0x16 0 0 (tail1 0 a.val 0) imm.toNat)
  | .prefL2 a imm => some (enc2 0x16 0 1 (tail1 0 a.val 0) imm.toNat)
  | .flushl a imm => some (enc2 0x16 0 0 (tail1 1 a.val 0) imm.toNat)
  | .drop a imm => some (enc2 0x16 0 0 (tail1 2 a.val 0) imm.toNat)
  | .vadd f rm d a b la lb k => some (enc2 0x18 d.code f.code (tail1 0 a.code b.val) (operandHalf 0 la lb false rm.code (b2 a.isQ + 2 * b2 d.isQ + maskG k)))
  | .vsub f rm d a b la lb k => some (enc2 0x18 d.code f.code (tail1 1 a.code b.val) (operandHalf 0 la lb false rm.code (b2 a.isQ + 2 * b2 d.isQ + maskG k)))
  | .vmul f rm d a b la lb k => some (enc2 0x18 d.code f.code (tail1 2 a.code b.val) (operandHalf 0 la lb false rm.code (b2 a.isQ + 2 * b2 d.isQ + maskG k)))
  | .vdiv f rm d a b la lb k => some (enc2 0x18 d.code f.code (tail1 3 a.code b.val) (operandHalf 0 la lb false rm.code (b2 a.isQ + 2 * b2 d.isQ + maskG k)))
  | .vmin f d a b la lb k => some (enc2 0x18 d.code f.code (tail1 4 a.code b.val) (operandHalf 0 la lb false 0 (b2 a.isQ + 2 * b2 d.isQ + maskG k)))
  | .vmax f d a b la lb k => some (enc2 0x18 d.code f.code (tail1 5 a.code b.val) (operandHalf 0 la lb false 0 (b2 a.isQ + 2 * b2 d.isQ + maskG k)))
  | .vabs f d a la k => some (enc2 0x18 d.code f.code (tail1 6 a.code 0) (operandHalf 0 la false false 0 (b2 a.isQ + 2 * b2 d.isQ + maskG k)))
  | .vneg f d a la k => some (enc2 0x18 d.code f.code (tail1 7 a.code 0) (operandHalf 0 la false false 0 (b2 a.isQ + 2 * b2 d.isQ + maskG k)))
  | .vsqrt f rm d a la k => some (enc2 0x18 d.code f.code (tail1 8 a.code 0) (operandHalf 0 la false false rm.code (b2 a.isQ + 2 * b2 d.isQ + maskG k)))
  | .vfma f rm d a b c la lb lc k => some (enc2 0x19 d.code f.code (tail1 0 a.code b.val) (operandHalf c.val la lb lc rm.code (b2 a.isQ + 2 * b2 d.isQ + maskG k)))
  | .vfms f rm d a b c la lb lc k => some (enc2 0x19 d.code f.code (tail1 1 a.code b.val) (operandHalf c.val la lb lc rm.code (b2 a.isQ + 2 * b2 d.isQ + maskG k)))
  | .vfnma f rm d a b c la lb lc k => some (enc2 0x19 d.code f.code (tail1 2 a.code b.val) (operandHalf c.val la lb lc rm.code (b2 a.isQ + 2 * b2 d.isQ + maskG k)))
  | .vdot f rm d a b c la lb lc k => some (enc2 0x19 d.code f.code (tail1 3 a.code b.val) (operandHalf c.val la lb lc rm.code (b2 a.isQ + 2 * b2 d.isQ + maskG k)))
  | .viadd t d a b la lb k => some (enc2 0x1a d.code t.code (tail1 0 a.code b.val) (operandHalf 0 la lb false 0 (b2 a.isQ + 2 * b2 d.isQ + maskG k)))
  | .visub t d a b la lb k => some (enc2 0x1a d.code t.code (tail1 1 a.code b.val) (operandHalf 0 la lb false 0 (b2 a.isQ + 2 * b2 d.isQ + maskG k)))
  | .vimul t d a b la lb k => some (enc2 0x1a d.code t.code (tail1 2 a.code b.val) (operandHalf 0 la lb false 0 (b2 a.isQ + 2 * b2 d.isQ + maskG k)))
  | .vand t d a b la lb k => some (enc2 0x1a d.code t.code (tail1 3 a.code b.val) (operandHalf 0 la lb false 0 (b2 a.isQ + 2 * b2 d.isQ + maskG k)))
  | .vor t d a b la lb k => some (enc2 0x1a d.code t.code (tail1 4 a.code b.val) (operandHalf 0 la lb false 0 (b2 a.isQ + 2 * b2 d.isQ + maskG k)))
  | .vxor t d a b la lb k => some (enc2 0x1a d.code t.code (tail1 5 a.code b.val) (operandHalf 0 la lb false 0 (b2 a.isQ + 2 * b2 d.isQ + maskG k)))
  | .vshl t d a b la lb k => some (enc2 0x1a d.code t.code (tail1 6 a.code b.val) (operandHalf 0 la lb false 0 (b2 a.isQ + 2 * b2 d.isQ + maskG k)))
  | .vshr t d a b la lb k => some (enc2 0x1a d.code t.code (tail1 7 a.code b.val) (operandHalf 0 la lb false 0 (b2 a.isQ + 2 * b2 d.isQ + maskG k)))
  | .vsra t d a b la lb k => some (enc2 0x1a d.code t.code (tail1 8 a.code b.val) (operandHalf 0 la lb false 0 (b2 a.isQ + 2 * b2 d.isQ + maskG k)))
  | .vcmp ty d a b p la lb k => some (enc2 0x1b d.val ty.x (tail1 0 a.code b.val) (operandHalf (ty.c + p.val) la lb false 0 (b2 a.isQ + maskG k)))
  | .vsel e d a b c la lb lc k => some (enc2 0x1b d.code e.code (tail1 1 a.code b.val) (operandHalf c.val la lb lc 0 (b2 a.isQ + 2 * b2 d.isQ + maskG k)))
  | .kand d a b la lb => some (enc2 0x1b d.val 0 (tail1 2 a.val b.val) (operandHalf 0 la lb false 0 0))
  | .kor d a b la lb => some (enc2 0x1b d.val 0 (tail1 3 a.val b.val) (operandHalf 0 la lb false 0 0))
  | .knot d a la => some (enc2 0x1b d.val 0 (tail1 4 a.val 0) (operandHalf 0 la false false 0 0))
  | .kpop e d a la => some (enc2 0x1b d.val e.code (tail1 5 a.val 0) (operandHalf 0 la false false 0 0))
  | .vexp rm d a la k => some (enc2 0x1c d.code 1 (tail1 0 a.code 0) (operandHalf 0 la false false rm.code (b2 a.isQ + 2 * b2 d.isQ + maskG k)))
  | .vlog rm d a la k => some (enc2 0x1c d.code 1 (tail1 1 a.code 0) (operandHalf 0 la false false rm.code (b2 a.isQ + 2 * b2 d.isQ + maskG k)))
  | .vrcp rm d a la k => some (enc2 0x1c d.code 1 (tail1 2 a.code 0) (operandHalf 0 la false false rm.code (b2 a.isQ + 2 * b2 d.isQ + maskG k)))
  | .vrsqrt rm d a la k => some (enc2 0x1c d.code 1 (tail1 3 a.code 0) (operandHalf 0 la false false rm.code (b2 a.isQ + 2 * b2 d.isQ + maskG k)))
  | .vtanh rm d a la k => some (enc2 0x1c d.code 1 (tail1 4 a.code 0) (operandHalf 0 la false false rm.code (b2 a.isQ + 2 * b2 d.isQ + maskG k)))
  | .vsigm rm d a la k => some (enc2 0x1c d.code 1 (tail1 5 a.code 0) (operandHalf 0 la false false rm.code (b2 a.isQ + 2 * b2 d.isQ + maskG k)))
  | .verf rm d a la k => some (enc2 0x1c d.code 1 (tail1 6 a.code 0) (operandHalf 0 la false false rm.code (b2 a.isQ + 2 * b2 d.isQ + maskG k)))
  | .vphi rm d a la k => some (enc2 0x1c d.code 1 (tail1 7 a.code 0) (operandHalf 0 la false false rm.code (b2 a.isQ + 2 * b2 d.isQ + maskG k)))
  | .vpdf rm d a la k => some (enc2 0x1c d.code 1 (tail1 8 a.code 0) (operandHalf 0 la false false rm.code (b2 a.isQ + 2 * b2 d.isQ + maskG k)))
  | .vcvt part rm d a b c la k => some (enc2 0x1d d.code part.val (tail1 0 a.code b.code) (operandHalf c.code la false false rm.code (b2 a.isQ + 2 * b2 d.isQ + maskG k)))
  | .vscalePack rm d a b c la lb => some (enc2 0x1d d.code 0 (tail1 1 a.code b.val) (operandHalf c.code la lb false rm.code (b2 a.isQ + 2 * b2 d.isQ)))
  | .vscaleUnpack d a b c la lb => some (enc2 0x1d d.code 1 (tail1 1 a.code b.val) (operandHalf c.code la lb false 0 (b2 a.isQ + 2 * b2 d.isQ)))
  | .vredsum d a c la k => some (enc2 0x1e d.val (widthCodeOf c.bits) (tail1 0 a.code 0) (operandHalf c.code la false false 0 (b2 a.isQ + maskG k)))
  | .vredmax d a c la k => some (enc2 0x1e d.val (widthCodeOf c.bits) (tail1 1 a.code 0) (operandHalf c.code la false false 0 (b2 a.isQ + maskG k)))
  | .vredmin d a c la k => some (enc2 0x1e d.val (widthCodeOf c.bits) (tail1 2 a.code 0) (operandHalf c.code la false false 0 (b2 a.isQ + maskG k)))
  | .vperm e d a b la lb k => some (enc2 0x1e d.code e.code (tail1 3 a.code b.val) (operandHalf 0 la lb false 0 (b2 a.isQ + 2 * b2 d.isQ + maskG k)))
  | .vbcast e d a la k => some (enc2 0x1e d.code e.code (tail1 4 a.val 0) (operandHalf 0 la false false 0 (2 * b2 d.isQ + maskG k)))
  | .vslide e d a b la lb k => some (enc2 0x1e d.code e.code (tail1 5 a.code b.val) (operandHalf 0 la lb false 0 (b2 a.isQ + 2 * b2 d.isQ + maskG k)))
  | .vext e d a b la lb => some (enc2 0x1e d.val e.code (tail1 6 a.code b.val) (operandHalf 0 la lb false 0 (b2 a.isQ)))
  | .vins e d a b la lb => some (enc2 0x1e d.code e.code (tail1 7 a.val b.val) (operandHalf 0 la lb false 0 (2 * b2 d.isQ)))
  | .vld e d a la k => some (enc2 0x1f d.val e.code (tail1 0 a.val 0) (operandHalf 0 la false false 0 (maskG k)))
  | .vst e d a la k => some (enc2 0x1f d.val e.code (tail1 1 a.val 0) (operandHalf 0 la false false 0 (maskG k)))
  | .vlds e d a b la lb k => some (enc2 0x1f d.val e.code (tail1 2 a.val b.val) (operandHalf 0 la lb false 0 (maskG k)))
  | .vsts e d a b la lb k => some (enc2 0x1f d.val e.code (tail1 3 a.val b.val) (operandHalf 0 la lb false 0 (maskG k)))
  | .vgather e d a b c la lb k => some (enc2 0x1f d.val e.code (tail1 4 a.val b.val) (operandHalf c.val la lb false 0 (maskG k)))
  | .vscatter e d a b c la lb k => some (enc2 0x1f d.val e.code (tail1 5 a.val b.val) (operandHalf c.val la lb false 0 (maskG k)))
  | .vldl e d a la k => some (enc2 0x20 d.val e.code (tail1 0 a.val 0) (operandHalf 0 la false false 0 (maskG k)))
  | .vstl e d a la k => some (enc2 0x20 d.val e.code (tail1 1 a.val 0) (operandHalf 0 la false false 0 (maskG k)))
  | .vgatherl e d a b c la lb k => some (enc2 0x20 d.val e.code (tail1 2 a.val b.val) (operandHalf c.val la lb false 0 (maskG k)))
  | .vscatterl e d a b c la lb k => some (enc2 0x20 d.val e.code (tail1 3 a.val b.val) (operandHalf c.val la lb false 0 (maskG k)))
  | .vsetvl e d a la => some (enc2 0x21 d.val e.code (tail1 0 a.val 0) (operandHalf 0 la false false 0 0))
  | .vmovs e d a la k => some (enc2 0x21 d.code e.code (tail1 1 a.code 0) (operandHalf 0 la false false 0 (b2 a.isQ + 2 * b2 d.isQ + maskG k)))
  | .vzero d => some (enc2 0x21 d.val 0 (tail1 2 0 0) (operandHalf 0 false false false 0 0))
  | .vrandUnif e d k => some (enc2 0x21 d.val e.code (tail1 3 0 0) (operandHalf 0 false false false 0 (maskG k)))
  | .vrandGauss d k => some (enc2 0x21 d.val 2 (tail1 3 0 0) (operandHalf 1 false false false 0 (maskG k)))
  | .madd d a b la lb k => some (enc2 0x24 d.val 0 (tail1 0 a.val b.val) (operandHalf 0 la lb false 0 (maskG k)))
  | .msub d a b la lb k => some (enc2 0x24 d.val 0 (tail1 1 a.val b.val) (operandHalf 0 la lb false 0 (maskG k)))
  | .mmul d a b la lb k => some (enc2 0x24 d.val 0 (tail1 2 a.val b.val) (operandHalf 0 la lb false 0 (maskG k)))
  | .mfma d a b c la lb lc k => some (enc2 0x24 d.val 0 (tail1 3 a.val b.val) (operandHalf c.val la lb lc 0 (maskG k)))
  | .mscale d a b la lb k => some (enc2 0x24 d.val 0 (tail1 4 a.val b.val) (operandHalf 0 la lb false 0 (maskG k)))
  | .mshift d a b la lb k => some (enc2 0x24 d.val 0 (tail1 5 a.val b.val) (operandHalf 0 la lb false 0 (maskG k)))
  | .mrelu d a la k => some (enc2 0x25 d.val 0 (tail1 0 a.val 0) (operandHalf 0 la false false 0 (maskG k)))
  | .mexp d a la k => some (enc2 0x25 d.val 0 (tail1 1 a.val 0) (operandHalf 0 la false false 0 (maskG k)))
  | .msigm d a la k => some (enc2 0x25 d.val 0 (tail1 2 a.val 0) (operandHalf 0 la false false 0 (maskG k)))
  | .mtanh d a la k => some (enc2 0x25 d.val 0 (tail1 3 a.val 0) (operandHalf 0 la false false 0 (maskG k)))
  | .mmax d a b la lb k => some (enc2 0x25 d.val 0 (tail1 4 a.val b.val) (operandHalf 0 la lb false 0 (maskG k)))
  | .mld d a la k => some (enc2 0x26 d.val 0 (tail1 0 a.val 0) (operandHalf 0 la false false 0 (maskG k)))
  | .mst d a la k => some (enc2 0x26 d.val 0 (tail1 1 a.val 0) (operandHalf 0 la false false 0 (maskG k)))
  | .mldl d a la k => some (enc2 0x26 d.val 0 (tail1 2 a.val 0) (operandHalf 0 la false false 0 (maskG k)))
  | .mstl d a la k => some (enc2 0x26 d.val 0 (tail1 3 a.val 0) (operandHalf 0 la false false 0 (maskG k)))
  | .mpack rm d a la k => some (enc2 0x26 d.val 0 (tail1 4 a.val 0) (operandHalf 0 la false false rm.code (maskG k)))
  | .munpack d a la k => some (enc2 0x26 d.val 0 (tail1 5 a.val 0) (operandHalf 0 la false false 0 (maskG k)))
  | .mredsum d a la k => some (enc2 0x27 d.val 0 (tail1 0 a.val 0) (operandHalf 0 la false false 0 (maskG k)))
  | .mcollapse d a b c la lb k => some (enc2 0x27 d.val 0 (tail1 1 a.val b.val) (operandHalf c.val la lb false 0 (maskG k)))
  | .mcheck d a la k => some (enc2 0x27 d.val 0 (tail1 2 a.val 0) (operandHalf 0 la false false 0 (maskG k)))
  | .mmode d a la k => some (enc2 0x27 d.val 0 (tail1 3 a.val 0) (operandHalf 0 la false false 0 (maskG k)))
  | .sbind d a la => some (enc2 0x2c d.val 0 (tail1 0 a.base 0) (operandHalf 0 la false false 0 0))
  | .sunbind d => some (enc2 0x2c d.val 0 (tail1 1 0 0) (operandHalf 0 false false false 0 0))
  | .sstat d a => some (enc2 0x2c d.val 0 (tail1 2 a.val 0) (operandHalf 0 false false false 0 0))
  | .cpy a la => some (enc2 0x2d 0 0 (tail1 0 a.base 0) (operandHalf 0 la false false 0 0))
  | .cpyNb d a la => some (enc2 0x2d d.val 0 (tail1 1 a.base 0) (operandHalf 0 la false false 0 0))
  | .cpq d a la => some (enc2 0x2d d.val 0 (tail1 2 a.val 0) (operandHalf 0 la false false 0 0))
  | .sit d a la => some (enc2 0x2e d.val 0 (tail1 0 a.val 0) (operandHalf 0 la false false 0 0))
  | .mxpal a la => some (enc2 0x2e 0 0 (tail1 2 a.val 0) (operandHalf 0 la false false 0 0))
  | .mxlda d a b c la lb lc => some (enc2 0x2f d.val 0 (tail1 0 a.val b.val) (operandHalf c.val la lb lc 0 0))
  | .mxldb d a b c la lb lc => some (enc2 0x2f d.val 0 (tail1 1 a.val b.val) (operandHalf c.val la lb lc 0 0))
  | .mxmma z d a b => some (enc2 0x2f d.val (b2 z) (tail1 2 a.val b.val) (operandHalf 0 false false false 0 0))
  | .mxmmaM z d a b => some (enc2 0x2f d.val (b2 z) (tail1 3 a.val b.val) (operandHalf 0 false false false 0 0))
  | .mxst rm d a b la lb => some (enc2 0x30 d.val 0 (tail1 0 a.val b.val) (operandHalf 0 la lb false rm.code 0))
  | .mxrel d => some (enc2 0x30 d.val 0 (tail1 1 0 0) (operandHalf 0 false false false 0 0))
  | .mxzero d => some (enc2 0x30 d.val 0 (tail1 2 0 0) (operandHalf 0 false false false 0 0))
  | .tdecl d a b c la lb => some (enc2 0x31 d.val 0 (tail1 0 a.val b.val) (operandHalf c.val la lb false 0 0))
  | .tpass d a b la lb => some (enc2 0x31 d.val 0 (tail1 1 a.val b.val) (operandHalf 0 la lb false 0 0))
  | .tacq d a la => some (enc2 0x31 d.val 0 (tail1 2 a.val 0) (operandHalf 0 la false false 0 0))
  | .tundecl d a la => some (enc2 0x31 d.val 0 (tail1 3 a.val 0) (operandHalf 0 la false false 0 0))
  | .tstat d a b la lb => some (enc2 0x31 d.val 0 (tail1 4 a.val b.val) (operandHalf 0 la lb false 0 0))
  | .wreg d a b la lb => some (enc2 0x32 d.val 0 (tail1 0 a.val b.val) (operandHalf 0 la lb false 0 0))
  | .wunreg d a la => some (enc2 0x32 d.val 0 (tail1 1 a.val 0) (operandHalf 0 la false false 0 0))
  | .put a b c la lb lc => some (enc2 0x32 0 0 (tail1 2 a.val b.val) (operandHalf c.val la lb lc 0 0))
  | .putImm a b c la lb lc => some (enc2 0x32 0 1 (tail1 2 a.val b.val) (operandHalf c.val la lb lc 0 0))
  | .wexp d a b la lb => some (enc2 0x32 d.val 0 (tail1 3 a.val b.val) (operandHalf 0 la lb false 0 0))
  | .wcnt d a la => some (enc2 0x32 d.val 0 (tail1 4 a.val 0) (operandHalf 0 la false false 0 0))
  | .wcntSrc d => some (enc2 0x32 d.val 1 (tail1 4 0 0) (operandHalf 0 false false false 0 0))
  | .wwait a la => some (enc2 0x32 0 0 (tail1 5 a.val 0) (operandHalf 0 la false false 0 0))
  | .arrive d a la => some (enc2 0x34 d.val 0 (tail1 0 a.val 0) (operandHalf 0 la false false 0 0))
  | .bwait a b la lb => some (enc2 0x34 0 0 (tail1 1 a.val b.val) (operandHalf 0 la lb false 0 0))
  | .barw d a la => some (enc2 0x34 d.val 0 (tail1 2 a.val 0) (operandHalf 0 la false false 0 0))
  | .bjoin d a la => some (enc2 0x34 d.val 0 (tail1 3 a.val 0) (operandHalf 0 la false false 0 0))
  | .bjoinLeave d a la => some (enc2 0x34 d.val 1 (tail1 3 a.val 0) (operandHalf 0 la false false 0 0))
  | .btimeout a b la lb => some (enc2 0x34 0 0 (tail1 4 a.val b.val) (operandHalf 0 la lb false 0 0))
  | .bforce d a b la lb => some (enc2 0x34 d.val 0 (tail1 5 a.val b.val) (operandHalf 0 la lb false 0 0))
  | .bforceRemove d a b la lb => some (enc2 0x34 d.val 1 (tail1 5 a.val b.val) (operandHalf 0 la lb false 0 0))
  | .msend d a b la lb => some (enc2 0x35 d.val 0 (tail1 0 a.base b.val) (operandHalf 0 la lb false 0 0))
  | .mrecv d a la => some (enc2 0x35 d.base 0 (tail1 1 a.val 0) (operandHalf 0 la false false 0 0))
  | .mrecvC d a => some (enc2 0x35 d.val 0 (tail1 2 a.val 0) (operandHalf 0 false false false 0 0))
  | .mwait d a la => some (enc2 0x35 d.val 0 (tail1 3 a.val 0) (operandHalf 0 la false false 0 0))
  | .amsg d a la => some (enc2 0x35 d.val 0 (tail1 4 a.base 0) (operandHalf 0 la false false 0 0))
  | .wait loads stores copies matrix => some (encTL 1 0x36 0 0 (loads.toNat + 16 * stores.toNat + 256 * copies.toNat + 4096 * matrix.toNat) 0 0 0)
  | .book d a la => some (enc2 0x37 d.val 0 (tail1 0 a.val 0) (operandHalf 0 la false false 0 0))
  | .unbook d => some (enc2 0x37 d.val 0 (tail1 1 0 0) (operandHalf 0 false false false 0 0))
  | .unbookRec d a la => some (enc2 0x37 d.val 1 (tail1 1 a.val 0) (operandHalf 0 la false false 0 0))
  | .bkrel d a la => some (enc2 0x37 d.val 0 (tail1 2 a.val 0) (operandHalf 0 la false false 0 0))
  | .bkext d a b la lb => some (enc2 0x37 d.val 0 (tail1 3 a.val b.val) (operandHalf 0 la lb false 0 0))
  | .bkq d a la => some (enc2 0x37 d.val 0 (tail1 4 a.val 0) (operandHalf 0 la false false 0 0))
  | .lrpatch w d a b la lb => some (enc2 0x38 d.val w.val (tail1 0 a.val b.val) (operandHalf 0 la lb false 0 0))
  | .lrarm d a la => some (enc2 0x38 d.val 0 (tail1 1 a.val 0) (operandHalf 0 la false false 0 0))
  | .lrstat d a b la lb => some (enc2 0x38 d.val 0 (tail1 2 a.val b.val) (operandHalf 0 la lb false 0 0))
  | .lvlcnt d a b la lb => some (enc2 0x38 d.val 0 (tail1 3 a.val b.val) (operandHalf 0 la lb false 0 0))
  | .lvlcancel d a la => some (enc2 0x38 d.val 0 (tail1 4 a.val 0) (operandHalf 0 la false false 0 0))
  | .lvlcancelRec d a la => some (enc2 0x38 d.val 1 (tail1 4 a.val 0) (operandHalf 0 la false false 0 0))
  | .retireFail a la => some (encReg 0x39 0 0 (tail1 6 a.val 0) (operandHalf 0 la false false 0 0))
  | .salloc d a la => some (enc2 0x39 d.val 0 (tail1 4 a.val 0) (operandHalf 0 la false false 0 0))
  | .sfree d a la => some (enc2 0x39 d.val 0 (tail1 5 a.val 0) (operandHalf 0 la false false 0 0))
  | .csrr d n => some (enc2 0x3c d.val 0 (tail1 0 0 0) n.toNat)
  | .csrw d a n => some (enc2 0x3c d.val 0 (tail1 1 a.val 0) n.toNat)
  | .csrs d a n => some (enc2 0x3c d.val 0 (tail1 2 a.val 0) n.toNat)
  | .csrc d a n => some (enc2 0x3c d.val 0 (tail1 3 a.val 0) n.toNat)
  | .trap d imm => some (enc2 0x3d d.val 0 (tail1 0 0 0) imm.toNat)
  | .wsw a la => some (encReg 0x3d 0 0 (tail1 2 a.val 0) (operandHalf 0 la false false 0 0))
  | .tlbinv a b c la lb lc => some (enc2 0x3d 0 0 (tail1 3 a.val b.val) (operandHalf c.val la lb lc 0 0))
  | .tlbinvVf c lc => some (enc2 0x3d 0 1 (tail1 3 0 0) (operandHalf c.val false false lc 0 0))
  | .notate imm => some (enc2 0x3e 0 0 (tail1 1 0 0) imm.toNat)
  | .ret => some (encHead 0x9 4)
  | .unsit => some (enc2 0x2e 0 0 (tail1 1 0 0) (operandHalf 0 false false false 0 0))
  | .retire => some (encHead 0x39 0)
  | .yield => some (encHead 0x39 1)
  | .follow => some (encReg 0x39 0 0 (tail1 2 0 0) (operandHalf 0 false false false 0 0))
  | .unfollow => some (encHead 0x39 3)
  | .sret => some (encHead 0x3d 1)
  | .tlbinvAll => some (enc2 0x3d 0 2 (tail1 3 0 0) (operandHalf 0 false false false 0 0))
  | .replayall => some (encHead 0x3d 4)
  | .brk => some (encHead 0x3e 0)
  | .registerWrite _ _ => none
  | .fbdlvWrite _ _ => none
  | .kmissClr _ => none
  | .dctlStop _ => none
  | .dctlResume _ => none
  | .adjctlRearm => none
  | .adjctlNow => none
  | .wdogWrite _ => none
  | .featstatGo => none
  | .frmodeWrite _ => none
  | .stopTakesEffect _ => none
  | .contextSwitch _ _ => none
  | .yieldAfterWait _ => none
  | .impreciseTrapDelivery _ => none
  | .budgetExpiry _ => none
  | .walkStart _ => none
  | .walkCompletion _ _ _ => none
  | .rdl _ _ => none
  | .rdu _ _ => none
  | .wrq _ _ _ _ _ _ => none
  | .amo _ _ _ _ _ _ _ _ _ => none
  | .own _ _ => none
  | .tmk _ _ _ => none
  | .tun _ _ => none
  | .mrd _ _ => none
  | .mwr _ _ _ => none
  | .gnt _ _ _ => none
  | .wak _ _ _ _ => none
  | .oak _ _ => none
  | .cua _ _ => none
  | .rca _ => none
  | .mrs _ _ => none
  | .fil _ _ => none
  | .wbd _ _ _ => none
  | .psh _ _ => none
  | .mdt _ _ _ => none
  | .cut _ _ => none
  | .cuaDue _ _ => none
  | .cutCompletion _ => none
  | .leaseHorizonPass _ => none
  | .rcl _ => none
  | .recallHeld _ => none
  | .swp _ _ _ _ => none
  | .bcn _ _ => none
  | .beaconLoss _ => none
  | .clockStop _ => none
  | .clockResume _ => none
  | .releaseComplete _ _ => none
  | .fabricReleaseForward _ _ => none
  | .declarationComplete _ => none
  | .passMessageSend _ => none
  | .undeclarationComplete _ => none
  | .cxlMemRead _ _ => none
  | .cxlMemWrite _ _ _ => none
  | .birsp _ => none
  | .hostSnoop _ => none
  | .tokenRefill _ => none
  | .streamFetch _ _ => none
  | .streamStoreWrite _ _ => none
  | .copyStart _ => none
  | .copyLineMove _ _ => none
  | .copyCompletion _ _ => none
  | .putArrival _ _ => none
  | .putAck _ _ => none
  | .sittingGrant _ => none
  | .sittingExpiry _ => none
  | .matrixCommandStart _ _ => none
  | .matrixCommandComplete _ _ => none
  | .barrierArrival _ _ _ => none
  | .phaseCompletion _ _ => none
  | .completionSignalArrival _ _ => none
  | .timeout _ _ => none
  | .messageArrival _ _ => none
  | .overflowMove _ => none
  | .busyRetry _ _ => none
  | .activeMessageStart _ => none
  | .freeUnitStart _ => none
  | .admissionSearch _ => none
  | .dieCalendarRequest _ _ _ => none
  | .tempoBoundary _ => none
  | .overrun _ => none
  | .resignToken _ _ => none
  | .replayMessageInject _ => none
  | .divergence _ _ _ _ => none
  | .notationLineWrite _ => none
  | .watchdogExpiry => none
  | .retryStorm _ => none
  | .adj _ => none
  | .rearm => none
  | .coldReset => none
  | .warmReset => none
  | .crd _ _ _ => none
  | .ident _ _ _ _ => none
  | .idack _ _ _ _ => none
  | .identTimeout _ _ => none
  | .topo _ _ _ _ => none
  | .frm _ _ => none
  | .ack _ _ _ => none
  | .powerSample _ _ => none
  | .thermalShutdown => none
  | .visibilityTimeReached _ _ => none
  | .notationTimeRecord _ => none
  | .vaultAccess _ _ _ _ _ _ _ _ => none
  | .cxlCacheResponse _ => none
  | .atomicopCompletion _ _ _ _ _ => none
  | .creditReturn _ _ _ => none
  | .protocolError _ _ => none
  | .eccError _ _ _ _ => none
  | .illegal _ _ _ _ => none
  | .spdmRequest _ => none

/-- The halfwords of an instruction, head first, then its tail in address order (R222); empty for an event. -/
def encode (i : Instr) : List Half :=
  match encodeRaw i with
  | some r => r.halves
  | none => []

/-! ## The words of the opcode table -/

/-- Halfword `i` of a word of `nbits` bits as the opcode table numbers it: the head holds the highest 16 bits, the tail
halfwords follow downward, and the halfwords past `nbits` are zero (log entry 8). -/
def tableHalf (nbits w i : Nat) : Half :=
  if 16 * (i + 1) ≤ nbits then BitVec.ofNat 16 (w >>> (nbits - 16 * (i + 1))) else 0

/-- The instruction that the decoder reads from a word of the opcode table. -/
def decodeTableWord (nbits w : Nat) : Option Instr :=
  match decode (tableHalf nbits w 0) [tableHalf nbits w 1, tableHalf nbits w 2, tableHalf nbits w 3, tableHalf nbits w 4] with
  | .ok i => some i
  | .error _ => none

end Sys2Proof
end

