-- ==== Sys2Proof/Machine/Wire.lean ====
section
/-! DEFINITION. The wire form of Ubxus messages (spec/15 R412 to R415): slots, their fields, and what a receiver refuses. The events of the
fabric carry the same fields as Lean values (log entry 109). -/
namespace Sys2Proof.Machine

/-- The classes of messages (R413), numbered from 1. -/
inductive WireClass where
  | req | rsp | dat | snp | ctl | tim | bar
deriving DecidableEq, Repr

def WireClass.code (c : WireClass) : Nat :=
  match c with
  | .req => 1 | .rsp => 2 | .dat => 3 | .snp => 4 | .ctl => 5 | .tim => 6 | .bar => 7
def WireClass.ofCode (n : Nat) : Option WireClass :=
  match n with
  | 1 => some .req | 2 => some .rsp | 3 => some .dat | 4 => some .snp | 5 => some .ctl | 6 => some .tim | 7 => some .bar
  | _ => none

/-- The highest OP of a class; the ops are numbered from 1 without a gap (R413). -/
def WireClass.ops (c : WireClass) : Nat :=
  match c with
  | .req => 9 | .rsp => 6 | .dat => 4 | .snp => 3 | .ctl => 6 | .tim => 1 | .bar => 2

/-- The credits that a receiver grants for a class, in slots (R414). -/
def WireClass.credits (c : WireClass) : Nat :=
  match c with
  | .req => 96 | .rsp => 64 | .dat => 192 | .snp => 32 | .ctl => 8 | .tim => 2 | .bar => 8

/-- The first slot of a message (R413): LINE and ARG as they stand in bits [75:30] and [127:76]. -/
structure WireHead where
  cls : WireClass
  op : Nat
  src : Nat
  dst : Nat
  txn : Nat
  line : Nat
  arg : Nat
deriving DecidableEq, Repr

def WireHead.slot (h : WireHead) : BitVec 128 :=
  BitVec.ofNat 128 (h.cls.code + h.op % 32 * 2 ^ 3 + h.src % 32 * 2 ^ 8 + h.dst % 32 * 2 ^ 13 + h.txn % 4096 * 2 ^ 18
    + h.line % 2 ^ 46 * 2 ^ 30 + h.arg % 2 ^ 52 * 2 ^ 76)

/-! ## Links (R409, R412 to R414) -/

/-- The die and port at the far end of a port (R409). -/
def wired (die port : Nat) : Option (Nat × Nat) :=
  if die < 8 then
    let row := die / 4
    let col := die % 4
    match port with
    | 0 => if col = 0 then some (16, row) else some (die - 1, 1)
    | 1 => if col = 3 then some (17, row) else some (die + 1, 0)
    | 2 => if row = 1 then some (die - 4, 3) else none
    | 3 => if row = 0 then some (die + 4, 2) else none
    | 4 => some (8 + die, 0)
    | _ => none
  else if die < 16 then (if port = 0 then some (die - 8, 4) else none)
  else if die = 16 then (if port < 2 then some (port * 4, 0) else none)
  else if die = 17 then (if port < 2 then some (port * 4 + 3, 1) else none)
  else none

/-- The ports of a die (R409). -/
def diePorts (die : Nat) : List Nat := if die < 8 then [0, 1, 2, 3, 4] else if die < 16 then [0] else [0, 1]

/-- Every port with a die at its far end. -/
def linkPorts : List (Nat × Nat) :=
  (List.range 18).flatMap (fun d => (diePorts d).filterMap (fun p => (wired d p).map (fun _ => (d, p))))

/-- The slots that each class is granted at link-up, class 1 first (R414). -/
def classCredits : List Nat := [96, 64, 192, 32, 8, 2, 8]

/-! ## Slots read -/

/-- A slot read as the first of a message: none for an empty slot and for one that is a protocol error. -/
def WireHead.ofSlot (x : BitVec 128) : Option WireHead :=
  let f := fun (lo n : Nat) => x.toNat / 2 ^ lo % 2 ^ n
  match WireClass.ofCode (f 0 3) with
  | none => none
  | some c =>
    if f 3 5 = 0 ∨ c.ops < f 3 5 then none
    else some { cls := c, op := f 3 5, src := f 8 5, dst := f 13 5, txn := f 18 12, line := f 30 46, arg := f 76 52 }

/-- An unassigned OP, or a slot of class 0 that is not zero, is a protocol error (R413): PROTOCOL_ERROR is its event. -/
def slotRefused (x : BitVec 128) : Bool := x != 0 && (WireHead.ofSlot x).isNone

/-- The operand slot of AMO: b, and the value of `amo.cas` above it. -/
def operandSlot (b c : BitVec 64) : BitVec 128 := c ++ b
/-- The slots that follow the first one of a data message: four of data, and one of the byte mask where not every byte is carried. -/
def dataSlots (bytes : BitVec 512) (mask : BitVec 64) : List (BitVec 128) :=
  (List.range 4).map (fun i => bytes.extractLsb' (128 * i) 128) ++ (if mask = BitVec.allOnes 64 then [] else [mask.setWidth 128])

/-- How many slots a message takes, its data and operands with it (R413, R415); `part` says that a mask slot follows. -/
def WireHead.slots (h : WireHead) (part : Bool) : Nat :=
  match h.cls, h.op with
  | .req, 4 => 2
  | .dat, _ => if part then 6 else 5
  | .ctl, 3 => 2
  | _, _ => 1

/-! ## ARG (R413) -/

/-- ARG of a request: VFN, TID (TMK, TUN), owner die (TMK), BOOKED (MRD). -/
def argRequest (vfn tid owner : Nat) (booked : Bool) : Nat :=
  vfn % 64 + tid % 65536 * 2 ^ 6 + owner % 8 * 2 ^ 22 + (if booked then 2 ^ 25 else 0)
/-- ARG of AMO: the operation's minor of R267, IT, SC, VFN. -/
def argAmo (op it sc vfn : Nat) : Nat := op % 64 + it % 8 * 2 ^ 6 + sc % 8 * 2 ^ 9 + vfn % 64 * 2 ^ 12
/-- ARG of an answer: TIME, its low 48 bits, and STATUS. -/
def argAnswer (time status : Nat) : Nat := time % 2 ^ 48 + status % 16 * 2 ^ 48
/-- ARG of a data message: TAGS, PART. -/
def argData (tags : Nat) (part : Bool) : Nat := tags % 16 + (if part then 16 else 0)
/-- ARG of SWP: the length, 0 for a sweep, 1 and 2 for a filter's increment and decrement. -/
def argSweep (len op : Nat) : Nat := len % 2 ^ 23 + op % 4 * 2 ^ 23
/-- ARG of ADJ: WHY. -/
def argAdjourn (why : Nat) : Nat := why % 32 * 2

/-- The time that a TIME field names to a receiver at `now` (R413): the value congruent to it modulo 2^48 that lies nearest. -/
def timeNear (now time : Nat) : Nat :=
  let m := 2 ^ 48
  let t := now / m * m + time % m
  if now + m / 2 < t ∧ m ≤ t then t - m else if t + m / 2 < now then t + m else t

/-! ## TIM, CTL and slot 0 (R412, R413, R415) -/

/-- The bits [127:30] of a TIM or CTL slot, in place of LINE and ARG. -/
def wireWide (cls : WireClass) (op src dst txn wide : Nat) : BitVec 128 :=
  WireHead.slot { cls := cls, op := op, src := src, dst := dst, txn := txn, line := wide % 2 ^ 46, arg := wide / 2 ^ 46 }

/-- BCN carries `ptime` in [93:30]. -/
def beaconSlot (src dst ptime : Nat) : BitVec 128 := wireWide .tim 1 src dst 0 (ptime % 2 ^ 64)
/-- HOPS and ROUTE of IDENT, IDACK and TOPO; the next hop's port lowest. -/
def routeWide (route : List Nat) : Nat := route.length % 16 + (route.foldr (fun p r => p % 16 + 16 * r) 0) % 2 ^ 32 * 2 ^ 4
/-- IDACK: TYPE, FEAT and the arrival port in [114:76] (R417). -/
def idackWide (route : List Nat) (ty feat port : Nat) : Nat :=
  routeWide route + (ty % 8 + feat % 2 ^ 32 * 2 ^ 3 + port % 16 * 2 ^ 35) * 2 ^ 46
/-- TOPO's second slot: ID, the neighbours on ports 0 to 4, the next hop for identifiers 0 to 17. -/
def topoSlot (ident : Nat) (nbr hop : List Nat) : BitVec 128 :=
  BitVec.ofNat 128 (ident % 32 + (nbr.take 5).foldr (fun p r => p % 32 + 32 * r) 0 * 2 ^ 5
    + (hop.take 18).foldr (fun p r => p % 8 + 8 * r) 0 * 2 ^ 30)
/-- CRD: the slots granted in each class, class 1 lowest. -/
def creditWide (credits : List Nat) : Nat := (credits.take 7).foldr (fun p r => p % 256 + 256 * r) 0
/-- CRD is link-local: its sender and its receiver are not numbered yet, and go by 31, as every die does before numbering. -/
def crdSlot (credits : List Nat) : BitVec 128 := wireWide .ctl 4 31 31 0 (creditWide credits)
/-- IDENT, sent by the controller to a die not yet numbered. -/
def identSlot (route : List Nat) : BitVec 128 := wireWide .ctl 1 16 31 0 (routeWide route)
/-- FRM: EN. ACK: the OP acknowledged and REFUSED. -/
def frmWide (en : Bool) : Nat := if en then 1 else 0
def ackWide (op : Nat) (refused : Bool) : Nat := op % 32 + (if refused then 32 else 0)
/-- Slot 0 of a flit (R412): the slots freed in class c in bits [8c + 7:8c]. -/
def creditSlot (freed : List Nat) : BitVec 128 := BitVec.ofNat 128 (creditWide freed * 256)

end Sys2Proof.Machine
end

