-- ==== Sys2Proof/Machine/State.lean ====
section
/-! DEFINITION. The state of the package as plain data: workspaces and context slots (spec/06, 08), core-local
structures, clusters, dies, the package registers, memory, and the machine right after reset. -/
namespace Sys2Proof.Machine

/-! ## Values -/

/-- A capability register or granule with its tag (R25, R26). -/
structure Cap where
  val : KWord
  tag : Bool
deriving DecidableEq, Repr

/-- A physical address with the attributes of the leaf that led to it (R13, R14, R17, R20). -/
structure Place where
  pa : Nat
  key : Nat
  kind : Nat
  hm : Bool
  hdie : Nat
  cach : Bool
  dev : Bool
  vfn : Nat
deriving DecidableEq, Repr

/-- A TLB entry (R17, R30). `vbase` and `pbase` are 64 KiB page and frame numbers, `size` the SZ code. -/
structure TlbEntry where
  vfn : Nat
  vbase : Nat
  size : Nat
  pbase : Nat
  rd : Bool
  wr : Bool
  ex : Bool
  user : Bool
  key : Nat
  kind : Nat
  hm : Bool
  hdie : Nat
  cach : Bool
  dev : Bool
deriving DecidableEq, Repr

/-- Who asks for a translation (R34): a context slot, a stream of a slot's workspace, a copy command, a matrix command. -/
inductive Requester where
  | ctx (core : Nat) (slot : SlotId)
  | stream (core wp : Nat) (n : QReg)
  | copy (core id : Nat)
  | matrix (cl id : Nat)
deriving DecidableEq, Repr

/-- One element of a stream queue (R156): its value in the low bytes, its address, and the cause and reason of a faulted
element (R322), 0 when sound. -/
structure Elem where
  val : VWord
  addr : Word
  cause : Nat
  reason : Nat
deriving DecidableEq, Repr

/-- A stream (R318 to R325): the descriptor, POS (`pos`), the count of elements fetched or written (`done`), the data
queue, the parked mark, whether the LS writes before the `sbind` are still to become visible (R320), its writes not yet
acknowledged and the largest visibility time of those that are (R112), whether the margin touch of its next element has been recorded
(R61). -/
structure Stream where
  bound : Bool
  w0 : Word
  w1 : Word
  w2 : Word
  w3 : Word
  pos : Nat
  done : Nat
  queue : List Elem
  parked : Bool
  after : Bool
  pend : Nat
  vt : Nat
  touched : Bool
deriving DecidableEq, Repr

/-- The registers of a workspace (R158, R159) with its live masks (R164) and its streams. The pending marks
of token registers (R331) follow from the copies in progress. -/
structure Ws where
  s : Vector Word 32
  v : Vector VWord 32
  m : Vector MWord 16
  c : Vector Cap 8
  k : Vector KWord 4
  liveS : BitVec 32
  liveV : BitVec 32
  liveM : BitVec 16
  liveC : BitVec 8
  liveK : BitVec 4
  pc : Word
  tsw : Word
  atp : Word
  fcsr : BitVec 14
  vl : BitVec 8
  mcr : BitVec 16
  cvm : Word
  prog : Word
  q : Vector Stream 8
deriving DecidableEq, Repr

/-- A resident workspace: its offset, registers and image-store mask of 108 bits (R161, R163): bit i for s i, 32 + i for
v i, 64 + i for m i, 80 + i for c i, 88 + i for k i, 92 + i for control word i, 100 + i for stream i. -/
structure Resident where
  wp : Nat
  ws : Ws
  mask : BitVec 108
deriving DecidableEq, Repr

/-! ## Context slots -/

/-- The states of a context slot (R167). -/
inductive SlotState where
  | free | ready | run | wait | park | stop
deriving DecidableEq, Repr

/-- The line a context is executing, as it was when entered (R226, R227), and whether its cluster leader fetched it (R175). -/
structure LineBuf where
  valid : Bool
  led : Bool
  addr : Nat
  hw : List Half
deriving DecidableEq, Repr

/-- The fault record of a slot (R210). -/
structure FaultRec where
  fcause : Word
  faddr : Word
  fdetail : Word
  fpc : Word
  fins : Word
  fins1 : Word
  fwp : Word
deriving DecidableEq, Repr

/-- A tracker (R117): writes not yet acknowledged, and the largest visibility time of those that are. -/
structure Tracker where
  count : Nat
  v : Nat
deriving DecidableEq, Repr

/-- What a release queue entry performs once its release completes (R118, R120, R360, R369); an atomic names the workspace
of its destination and whether it also acquires. -/
inductive RelOp where
  | store (p : Place) (sc : Scope) (bytes : Nat) (data : Word)
  | amo (p : Place) (sc : Scope) (op : AmoOp) (t : IT) (b c : Word) (d : SReg) (wp : Nat) (acq : Bool)
  | arrive (b : Nat)
  | message (target : Nat) (m : Msg)
deriving DecidableEq, Repr

/-- A release queue entry: it covers the writes of its slot numbered below `seq` and those of slot i below the i-th of `bases`,
which the carry tracker held when it issued (R118); how many of them are still to be acknowledged, the time it waits for; how
many writes of its slot the router's counter still counts before it (R137); whether its message is on its way to its target,
and whether a busy target has refused it (R369). -/
structure RelEntry where
  op : RelOp
  seq : Nat
  bases : List Nat
  count : Nat
  v : Nat
  fleft : Nat
  sent : Bool
  refused : Bool
deriving DecidableEq, Repr

/-- A pending imprecise fault (R208): its record's detail, address, pc and merge count. -/
structure Imprecise where
  cause : Nat
  reason : Nat
  addr : Word
  detail : Word
  pc : Word
  count : Nat
deriving DecidableEq, Repr

/-- Where the task of a slot comes from (R169, R174). -/
inductive TaskSrc where
  | none
  | unit (die recNo j : Nat)
  | message (vfn : Nat)
deriving DecidableEq, Repr

/-- The task of a slot: its source, a number of its own, whether it is booked, its booked window in tempi (end exclusive;
R182), its budget word (R199), whether its booked end has raised OVERRUN (R189), and how many traps nest in that handler (R215). -/
structure Task where
  src : TaskSrc
  id : Nat
  booked : Bool
  bookStart : Nat
  bookEnd : Nat
  budget : Nat
  overrun : Bool
  nest : Nat
deriving DecidableEq, Repr

/-- How a context observes that an engine command with writes is complete (R112): the count of its class at 0, a read of a token register of
a workspace, the `sunbind` of a stream of a workspace, a read of CMP. -/
inductive EngineReport where
  | count
  | token (wp : Nat) (r : SReg)
  | stream (wp : Nat) (n : QReg)
  | put
deriving DecidableEq, Repr

/-- The writes of an engine command that is complete and whose completion its context has not observed (R112): its path (0 ST, 1 CP, 2 MX,
3 WN), the report that observes it, their largest visibility time. -/
structure EngineDone where
  path : Fin 4
  report : EngineReport
  vt : Nat
deriving DecidableEq, Repr

/-- A context slot (R161, R167). -/
structure Slot where
  st : SlotState
  /-- the state left by STOP (R390) -/
  prev : SlotState
  wp : Nat
  line : LineBuf
  fault : FaultRec
  tvec : Word
  tctl : Word
  tbud : Word
  icnt : BitVec 48
  trk : Tracker
  /-- number of the next write, and of the first write after the last merge into the carry tracker (R117) -/
  wseq : Nat
  wbase : Nat
  relq : List RelEntry
  /-- outstanding loads, stores, copies and matrix commands (R371) -/
  outLoads : Nat
  outStores : Nat
  outCopies : Nat
  outMatrix : Nat
  iss : BitVec 32
  cmp : BitVec 32
  /-- the router's fence counter (R137) -/
  fcount : Nat
  /-- largest visibility time of the engine writes whose completion it has observed, by path: ST, CP, MX, WN (R126); those of complete
  commands that it has not observed (R112) -/
  engV : Vector Nat 4
  done : List EngineDone
  deriving DecidableEq, Repr

/-- A tile instruction in progress (R95, R99, R101): 0 declaration, 1 pass, 2 undeclaration; its tile, its workspace and pc,
and once done its status (R93). -/
structure TileOp where
  kind : Nat
  tid : Nat
  wp : Nat
  pc : Word
  done : Bool
  status : Nat
deriving DecidableEq, Repr

/-- A waiting `bwait` or `barw`: its barrier, whether it is a `barw`, the STATUS that it reports (R359), whether the completion
signal has reached the core (R361). -/
structure BarWait where
  bar : Nat
  barw : Bool
  status : Nat
  signalled : Bool
deriving DecidableEq, Repr

/-- A request in the admission queue (R184) for a record, by `lrarm` (`arm`) or `book` of a context, and the cycle in which it
reached the queue. -/
structure AdmReq where
  die : Nat
  recNo : Nat
  deadline : Nat
  core : Nat
  slot : SlotId
  arm : Bool
  time : Nat
deriving DecidableEq, Repr

/-- The rest of a context slot. -/
structure SlotX where
  /-- pending MARGIN record, 0 for none (R59); above it in [45:37] the merged touches (R210) -/
  margin : Word
  /-- pending WINDOW fault (R24) -/
  window : Option Imprecise
  copyFault : Option Imprecise
  mxFault : Option Imprecise
  ecc : Option Imprecise
  /-- palette of the matrix array (R338) -/
  palette : BitVec 11
  task : Task
  /-- the page this context is parked on (R34) -/
  parked : Option (Nat × Nat)
  /-- the address whose translation is asked for or parked, and whether a walk of it is awaited (R31, R34) -/
  parkVa : Word
  asking : Bool
  /-- result of a failed walk, of `fbdlv` or of parking disabled, raised when the context next runs: address and reason
  (R19, R34, R40) -/
  walkFault : Option (Word × Nat)
  /-- TIMEOUT signalled to the waiting barrier instruction: its detail word and root cycle (R363) -/
  timeout : Option (Word × Nat)
  /-- answer of the admission search to `book` or `lrarm` (R184): the request and its code, 0 or a reason of R183 -/
  answer : Option (AdmReq × Nat)
  /-- time since which the slot is READY (R176) -/
  readySince : Nat
  /-- the cause of the current wait, a code of R395 -/
  waitCause : Nat
  /-- the barrier its waiting `bwait` or `barw` waits for (R361) -/
  waitBar : Option BarWait
  tileOps : List TileOp
  /-- `yield` has placed it in READY: it is chosen last (R379) -/
  yielded : Bool
  /-- an `xfence` that waits for host writes: how many had been accepted when it issued (R126) -/
  hostMark : Option Nat
  /-- the margin touch of the waiting access has been recorded (R59, R61) -/
  touched : Bool
  /-- the model's own field: something has happened since the waiting context was last looked at (log entry 10) -/
  look : Bool
deriving DecidableEq, Repr

/-! ## Core -/

/-- A copy command (R326 to R331): the four words as captured, its issuer, and its progress in bytes. -/
structure CopyCmd where
  id : Nat
  slot : SlotId
  /-- the workspace that issued it, whose token register it writes -/
  wp : Nat
  task : Nat
  /-- the unit whose launch's claims it moves under (R192) -/
  src : TaskSrc
  w0 : Word
  w1 : Word
  w2 : Word
  w3 : Word
  vfn : Nat
  atp : Word
  user : Bool
  booked : Bool
  pc : Word
  started : Bool
  parked : Bool
  pos : Nat
  /-- largest visibility time of its writes, and its writes not yet acknowledged (R112) -/
  vt : Nat
  pend : Nat
  fault : Option Nat
  /-- the address that its fault names (R210) -/
  faddr : Word
  flags : BitVec 5
  /-- multicast targets that failed their check (R333) -/
  bad : BitVec 8
  /-- an endpoint lies in HBM, and when its last line was requested (R194) -/
  hbm : Bool
  last : Nat
  /-- the lines it moved in the cycle `last` -/
  beats : Nat
deriving DecidableEq, Repr

/-- A put in flight (R353): handle, offset, the bytes not yet delivered. -/
structure PutCmd where
  id : Nat
  slot : SlotId
  task : Nat
  handle : Word
  off : Nat
  len : Nat
  /-- local source offset; none for `put.imm` -/
  src : Option Nat
  imm : Word
  vfn : Nat
  user : Bool
  pc : Word
deriving DecidableEq, Repr

/-- A window table entry (R350, R130). -/
structure WinEntry where
  reg : Bool
  vault : Bool
  base : Nat
  place : Option Place
  len : Nat
  vfn : Nat
  ctx : SlotId
  serial : BitVec 16
  pend : Nat
  early : Nat
  epoch : Nat
  sat : Bool
deriving DecidableEq, Repr

/-- A live allocation of the scratchpad (R57): the workspace, stack or declared allocation of a task, one made by
`salloc`, the space reserved for an admitted unit (R186), or such a space given up from a tempo on (R190). -/
inductive AllocKind where
  | workspace | stack | declared | made | reserved (die recNo j : Nat) | givenUp (tempo : Nat)
deriving DecidableEq, Repr

structure Alloc where
  base : Nat
  len : Nat
  slot : SlotId
  kind : AllocKind
deriving DecidableEq, Repr

/-- A line of a ring on its way to memory (R393): its address and words, the index after it, whether it has been sent, and its `vt`. -/
structure RingLine where
  addr : Nat
  words : List (BitVec 32)
  next : Nat
  sent : Bool
  vt : Option Nat
deriving DecidableEq, Repr

/-- A recorder ring (R135, R393, R405): its control, base and pointer registers, the words of its line buffer, the times of its first
buffered word and of its last record, the index at which the next line goes, and the lines that WPTR has not passed. -/
structure Ring where
  ctl : Word
  base : Word
  ptr : Word
  buf : List (BitVec 32)
  first : Nat
  last : Nat
  idx : Nat
  out : List RingLine
deriving DecidableEq, Repr

/-- The debug module of a core (R389 to R408). -/
structure Debug where
  dctl : Word
  dstat : Word
  dbp : Vector Word 4
  dwa : Vector Word 2
  dwc : Vector Word 2
  note : Ring
  mlog : Ring
  race : Ring
  /-- state, cause and slot of the last notation record (R395) -/
  noteState : Nat
  noteCause : Nat
  pmc : Vector Word 8
  pms : Vector Word 8
  dvrep : Word
  dvpos : Word
  /-- replay: recorded traps (slot, cause, icnt) and log entries (four words each) not yet passed (R406, R407) -/
  rplTraps : List (Nat × Nat × Nat)
  rplMsgs : List (List Word)
deriving DecidableEq, Repr

/-- A store stream that drains after its workspace has left residency (R162): the workspace, the stream's number and
state, and the issuing context's slot, address space and mode. -/
structure Drain where
  wp : Nat
  n : QReg
  slot : SlotId
  atp : Word
  user : Bool
  /-- its state is written to the image when it has drained -/
  save : Bool
  st : Stream
deriving DecidableEq, Repr

/-- A line of an L1 (R50, R51, R53): the expiry of its lease, or owned. -/
structure L1Line where
  line : Nat
  exp : Nat
  owned : Bool
deriving DecidableEq, Repr

/-- A core (R156, R161). -/
structure Core where
  res : Resident
  alt : Option Resident
  cur : SlotId
  slots : Vector Slot 4
  slotx : Vector SlotX 4
  /-- scratchpad bytes that are not 0x00, and its tagged granules (R54, R26) -/
  pad : List Host.Cell
  padTags : List Nat
  /-- last writer and epoch of window granules (R133): granule, writer, epoch -/
  gran : List (Nat × Nat × Nat)
  tlb : List TlbEntry
  win : Vector WinEntry 32
  mbox : List Msg
  carry : Tracker
  copies : List CopyCmd
  puts : List PutCmd
  orphan : Nat
  allocs : List Alloc
  srng : BitVec 32
  grng : Word
  latecnt : Word
  bsel : Word
  dbg : Debug
  /-- token buckets of the network port and the functions active in this period (R71, R72) -/
  tokens : List (Nat × Nat)
  /-- tokens that requests waiting at the port will take from the next refill (R71) -/
  debt : List (Nat × Nat)
  active : List Nat
  /-- lines of the L1 data cache and of the L1 instruction cache, most recently used first (R48, R50, R51, R53) -/
  l1d : List L1Line
  l1i : List L1Line
  /-- store streams of workspaces that have left residency, with elements still to write (R162) -/
  drains : List Drain
  /-- scratchpad words (offset / 8) with an uncorrected error (R49) -/
  padBad : List Nat
  /-- pc of the `sbind` of each bound stream, by workspace × 8 + stream (R210) -/
  bindPcs : List (Nat × Word)
  /-- heads with the pc after each, the latest first (R175): of a cluster's leader its last 32, of a follower those that it has executed
  before its leader -/
  trail : List (Word × Word)
  /-- of a follower: what its leader has done at the heads that it has still to execute, in order (R175) -/
  lead : List (Word × Word)
  /-- what hardware has set or counted of a W1C or RS field in a cycle, which a clear in that cycle keeps (R7): the field's key, the
  cycle, the bits or the count -/
  fresh : List (Nat × Nat × Nat)
deriving DecidableEq, Repr

/-! ## Cluster -/

/-- A walk in flight, or a miss waiting in the queue (R31). -/
structure Walk where
  vfn : Nat
  vpn : Nat
  atp : Word
  reqs : List (Requester × BitVec 3)
deriving DecidableEq, Repr

/-- A requester that met V = 0, placed in the fault buffer at the end of the cycle (R35, R36). -/
structure ParkReq where
  r : Requester
  ak : BitVec 3
  vfn : Nat
  vpn : Nat
  level : Nat
deriving DecidableEq, Repr

/-- A fault buffer entry (R37) with its requesters. -/
structure FbEntry where
  valid : Bool
  vpn : Nat
  vfn : Nat
  ak : BitVec 3
  level : Nat
  reqs : List ParkReq
  count : Nat
deriving DecidableEq, Repr

/-- A stage or weight slot of the array (R337, R342): the elements as codes, row or column major. -/
structure OpSlot where
  loaded : Bool
  count : Nat
  kd : Nat
  pal : BitVec 11
  data : List (List Nat)
  scales : List (List Nat)
  /-- the command that loaded it -/
  byId : Nat
deriving DecidableEq, Repr

/-- An accumulator slot (R337, R344): its holder, its elements that are not +0 by index 256 m + n, whether `mxrel` has
released it while commands still use it. -/
structure AccSlot where
  holder : Option (Nat × SlotId)
  cells : List (Nat × BitVec 32)
  releasing : Bool
deriving DecidableEq, Repr

/-- The matrix commands (R342 to R348). -/
inductive MxOp where
  | lda (n : Nat) (addr desc scale : Word)
  | ldb (n : Nat) (addr desc scale : Word)
  | mma (i j : Nat) (h : Word) (zero : Bool)
  | st (h addr desc : Word) (rm : RM) (satf : Bool) (draws : List (BitVec 32))
  | zero (h : Word)
deriving DecidableEq, Repr

/-- A matrix command in the array's queue (R346). -/
structure MxCmd where
  id : Nat
  core : Nat
  slot : SlotId
  /-- the workspace that issued it, whose flags it sets -/
  wp : Nat
  task : Nat
  op : MxOp
  pal : BitVec 11
  vfn : Nat
  atp : Word
  user : Bool
  pc : Word
  started : Bool
  parked : Bool
  pos : Nat
  vt : Nat
  pend : Nat
  /-- flags raised so far, which its issuer takes when it completes (R151) -/
  flags : BitVec 5
  nv : Bool
  /-- it has ended, with its fault and the bytes delivered, and waits for its writes' `vt` (R112) -/
  ended : Option (Option Nat × Nat)
  /-- the address that its fault names (R210) -/
  faddr : Word
deriving DecidableEq, Repr

/-- A request for a sitting (R339), and the sitting held. -/
structure Sitting where
  core : Nat
  slot : SlotId
  n : Nat
  last : Nat
deriving DecidableEq, Repr

structure MxArray where
  stage : List (Nat × OpSlot)
  weight : List (Nat × OpSlot)
  acc : List (Nat × AccSlot)
  sit : Option Sitting
  reqs : List Sitting
  queue : List MxCmd
  lastVfn : Nat
  lastPal : BitVec 11
  /-- the first command of each sitting of another VFN: slots that earlier commands loaded are clear for it (R337) -/
  wipes : List Nat
deriving DecidableEq, Repr

/-- One claim of an admitted launch with its tempi (R181): `fin` is one past its last tempo, `busy` the same as admission
sees it, which freed tempi leave at the next boundary (R190); whether it has been freed before its end. -/
structure BookedClaim where
  idx : Nat
  cls : Nat
  inst : Nat
  qty : Nat
  start : Nat
  fin : Nat
  busy : Nat
  freed : Bool
deriving DecidableEq, Repr

/-- An admitted launch of the calendar (R185): its record as die × 512 + number, its start tempo and claims, how many of its
units have retired, been demoted or been cancelled (R190), whether it is armed, has started a unit, has completed. -/
structure Launch where
  recNo : Nat
  ended : Nat
  start : Nat
  claims : List BookedClaim
  armed : Bool
  started : Bool
  done : Bool
deriving DecidableEq, Repr

structure Calendar where
  launches : List Launch
  queue : List AdmReq
  lastRsn : Nat
  lastRec : Nat
deriving DecidableEq, Repr

/-- The masks of a barrier at a cluster node (R357). -/
structure NodeMask where
  member : BitVec 32
  arrived : BitVec 32
  skip : BitVec 32
  /-- members that leave when the phase completes (R362) -/
  leaving : BitVec 32
  /-- members whose arrival in the phase in progress is one that `bforce` gave (R364) -/
  forced : BitVec 32
deriving DecidableEq, Repr

structure Cluster where
  /-- cluster TLB, most recently used first within a set (R30) -/
  tlb : List TlbEntry
  walks : List Walk
  missq : List Walk
  /-- results of walks for engines that have not come for them: requester, page, reason (0 for V = 0), level -/
  walked : List (Requester × Nat × Nat × Nat)
  /-- the requesters that have met V = 0 in this cycle (R36) -/
  parkq : List ParkReq
  fb : Vector FbEntry 8
  dropped : List ParkReq
  fbDrop : Bool
  fbDrops : Nat
  fbctl : Word
  fbsel : Word
  kmiss : Word
  cal : Calendar
  arr : MxArray
  /-- lines that the copy engine has moved: in which cycle, how many in it (R331) -/
  copied : Nat × Nat
  overflow : List (Nat × Msg)
  node : Vector NodeMask 16
  cpc : Vector Word 8
  cps : Vector Word 8
deriving DecidableEq, Repr

/-! ## Die -/

/-- A write that waits for its acknowledgement (R81): to whom its WAK goes, its `vt` as far as it is known, and whether it
waits for a recall, a cut, a BIRsp or a hold on a host line; or another request that the home holds in its place (R87). -/
structure LineWait where
  dst : WakDst
  vt : Nat
  recalls : Bool
  cut : Bool
  snoop : Bool
  force : Bool
  /-- the die it comes from -/
  die : Nat
  /-- the request that is held, where it is no write -/
  req : Option Event
deriving DecidableEq, Repr

/-- A line directory entry (R77) with the dies whose CUA is due and the writes that wait for their `vt` (R81), and the number
of its last use (R78). -/
structure DirEntry where
  st : Nat
  odie : Nat
  host : Bool
  cutting : Bool
  held : Bool
  hint : BitVec 8
  tid : Nat
  hz : Nat
  lhz : Nat
  cuas : List Nat
  waits : List LineWait
  /-- dies that have asked for ownership, in the order of arrival (R86) -/
  ownReq : List Nat
  /-- a recall sent and not answered, and when it was sent (R87) -/
  recalled : Option Nat
  /-- BISnpInv sent and not answered (R104) -/
  snoop : Bool
  /-- a snoop of the host waits for the cut or the recall (R105) -/
  hostAsks : Bool
  /-- the entry leaves the directory store when its recall is answered (R78) -/
  leaves : Bool
  used : Nat
deriving DecidableEq, Repr

/-- A line of an L2 slice (R51, R63, R80, R85): its key and the function that brought it, the expiry of its lease on a die other
than the home, L1HZ, the cluster that owns it and the E of that grant. -/
structure L2Line where
  line : Nat
  key : Nat
  vfn : Nat
  exp : Nat
  l1hz : Nat
  owner : Option Nat
  ownE : Nat
  /-- the core of the die whose L1 owns the line (R51) -/
  core : Option Nat
deriving DecidableEq, Repr

/-- What a declaration in progress will make of its entry (R95). -/
structure TileDecl where
  vbase : Nat
  len : Nat
  owner : Nat
  place : Place
  vfn : Nat
deriving DecidableEq, Repr

/-- A tile entry (R92). -/
structure TileEntry where
  vbase : Nat
  len : Nat
  gen : BitVec 16
  owner : Nat
  next : Nat
  state : Nat
  place : Option Place
  vfn : Nat
  /-- marks and declaration in flight: largest `vt` so far, marks not yet returned, worst status (R95, R101) -/
  vt : Nat
  busy : Bool
  decl : Option TileDecl
  left : Nat
  fail : Nat
  /-- the slot whose instruction is in progress, and the rights that a pass hands on -/
  slot : SlotId
  rights : Nat
deriving DecidableEq, Repr

/-- The root of a barrier (R357), with the time of its next TIMEOUT (R363). -/
structure Barrier where
  expect : Nat
  count : Nat
  par : Bool
  tmo : Nat
  tstart : Nat
  next : Nat
deriving DecidableEq, Repr

/-- A launch record (R170) with the state of its launch: the units started, how many have completed, whether the
unstarted ones have been settled as cancelled, first failure code, cancel and frozen marks, and the calendar's answer
(R172, R173, R203, R376). -/
structure Rec where
  w : Vector Word 32
  started : List Nat
  settled : Nat
  restSettled : Bool
  failCode : Option Nat
  cancel : Bool
  frozen : Bool
  booked : Bool
  startTempo : Nat
  admitted : Bool
  reason : Nat
deriving DecidableEq, Repr

/-- An active-message template (R174): words 8 to 12 of R170. -/
structure Template where
  on : Bool
  w8 : Word
  w9 : Word
  w10 : Word
  w11 : Word
  w12 : Word
deriving DecidableEq, Repr

/-- The clock of a die (R73, R75, R88). -/
structure DieClock where
  /-- its ptime minus the package's -/
  ofs : Int
  /-- the value at which a leading die holds its count (R73) -/
  held : Option Nat
  /-- the offset from the last beacon that is still to be slewed away -/
  slew : Int
  running : Bool
  lstat : Word
  good : Nat
  lastBeacon : Nat
deriving DecidableEq, Repr

structure Die where
  clk : DieClock
  dir : List (Nat × DirEntry)
  hf : List (Nat × Nat)
  /-- the L2 slices by slice × 768 + set (R62), most recently used first -/
  l2 : List (Nat × List L2Line)
  l1floor : List (Nat × Nat)
  tiles : List (Nat × TileEntry)
  filter : List (Nat × Nat)
  bar : Vector Barrier 16
  recs : List (Nat × Rec)
  levels : List (Nat × BitVec 128)
  templates : List (Nat × Template)
  fpc : Vector Word 16
  fps : Vector Word 16
  ident : Nat
  nbr : List Nat
  hop : List Nat
  /-- credits held per port and class; ports whose link is held down (R413, R414) -/
  credits : List (Nat × List Nat)
  down : List Nat
  /-- link retries counted in the last storm (R400) -/
  retries : Nat
  /-- uses of directory entries, which number them (R78), and RECALL_HELD events counted (R87) -/
  uses : Nat
  held : Nat
  /-- the L1 horizon of a line that a CUT or an RCL has taken from the die, which its answer waits for (R82, R86) -/
  due : List (Nat × Nat)
deriving DecidableEq, Repr

/-! ## Package -/

/-- Registers of a function (R43, R45, R70). -/
structure FnRegs where
  vkey : Word
  share : Nat
  ranges : List (Nat × Nat)
deriving DecidableEq, Repr

/-- A map window of an I/O die (R421). -/
structure MapWin where
  en : Bool
  region : Nat
  base : Nat
  limit : Nat
  port : Nat
deriving DecidableEq, Repr

/-- A scoresheet entry (R403). -/
structure Score where
  time : Nat
  w1 : Word
  d0 : Word
  d1 : Word
deriving DecidableEq, Repr

/-- A counter that has wrapped in this cycle, or that an access has written in it (R399): the scope of its bank (0 core, 1 cluster,
2 die), the core, cluster or die, the core whose stream takes the OVFL record, the counter's number, its select as the cycle began,
whether it has wrapped, and whether its value has been written. -/
structure CtrMark where
  scope : Nat
  place : Nat
  core : Nat
  idx : Nat
  sel : Word
  wrapped : Bool
  wrote : Bool
deriving DecidableEq, Repr

structure Pkg where
  ptime : Nat
  llen1 : Nat
  llen2 : Nat
  gband : Nat
  lcut : Nat
  /-- values written and taking effect at the next beacon (R74) -/
  lenNext : List (Nat × Nat)
  frmEn : Bool
  /-- fabric release mode holds, until its exit has ended; the change in progress enters it (R136, R137) -/
  frmMode : Bool
  frmEntry : Bool
  frmBusy : List Nat
  frmNext : List Bool
  hsplit : Nat
  keys : List Nat
  adjctl : Word
  /-- the cycle in which the recorders adjourned, the triggers of this cycle (bits of WHY), the counters that R399 settles in it -/
  adjAt : Nat
  adjNow : Nat
  marks : List CtrMark
  storm : Word
  wdog : Word
  wdogStart : Option Nat
  score : List Score
  ssptr : Word
  sssel : Word
deriving DecidableEq, Repr

/-- A write of a host or peer (R104): its number, its line, and its `vt` once it is known. -/
structure HostWrite where
  seq : Nat
  line : Nat
  vt : Option Nat
deriving DecidableEq, Repr

/-- The function, feature, map, boot and power registers of the package. -/
structure PkgX where
  fns : List (Nat × FnRegs)
  maps : List (Nat × MapWin)
  numVfs : Nat
  vfEnable : Bool
  offer : BitVec 128
  accept : BitVec 128
  featDone : Bool
  enabled : BitVec 128
  /-- dies present in the topology table, the boot stage of R423, die identifiers and types found by discovery -/
  present : List Nat
  boot : Nat
  found : List (Nat × Nat)
  refused : List Nat
  /-- the number of each die that has answered, and the ports from I/O die A to it (R416) -/
  numbers : List (Nat × Nat)
  routes : List (Nat × List Nat)
  /-- the stages whose images have been measured, those whose images in the flash do not verify, and whether the physical function answers
  with a recovery status (R423) -/
  measured : List Nat
  forged : List Nat
  recovery : Bool
  power : Nat
  degrees : Nat
  throttle : Nat
  spdm : Nat
  /-- the root ports that advertise AtomicOps (R106) -/
  atomicPorts : List Nat
  /-- the role of each CXL port, 0 HOST or 1 PEER, and the primary HOST port (R419) -/
  roles : List (Nat × Nat)
  primary : Nat
  /-- host and peer lines that an I/O die holds, and those that it holds owned (R105) -/
  hostLines : List Nat
  hostOwned : List Nat
  /-- how many host and peer writes the I/O dies have accepted, which numbers them, and those whose completion has not gone back over CXL
  or whose `vt` lies ahead of some die (R104, R126) -/
  hostSeq : Nat
  hostWrites : List HostWrite
  /-- CXL non-fatal uncorrectable errors signalled: the port and the line (R104) -/
  cxlErrors : List (Nat × Nat)
deriving DecidableEq, Repr

/-- What memory holds of a line where a cached copy differs from it (R44, R274, R275): its bytes, the key they are encrypted
under, its tagged granules, and whether the cached copy is dirty. -/
structure HbmLine where
  bytes : List Byte
  key : Nat
  tags : List Nat
  dirty : Bool
deriving DecidableEq, Repr

/-- A dirty copy of a line that is cached under another key than the latest one (R44). -/
structure StaleCopy where
  line : Nat
  key : Nat
  bytes : List Byte
  tags : List Nat
deriving DecidableEq, Repr

/-- The whole machine: the core whose turn it is (`cn`, `core`), the other cores that have left their reset state, by
rising number, memory, clusters, dies and the package (log entry 6). -/
structure State where
  cn : Nat
  core : Core
  others : List (Nat × Core)
  /-- bytes that are not 0x00, by rising key: die × 2^37 + local byte for HBM, the physical address elsewhere
  (R13, R14, log entry 2) -/
  mem : List Host.Cell
  tags : List Nat
  /-- key number under which a line was last written, what memory holds of lines whose cached copy differs, and dirty copies
  under other keys (R44, R274, R275) -/
  lineKey : List (Nat × Nat)
  hbm : List (Nat × HbmLine)
  stale : List StaleCopy
  vgran : List (Nat × Nat × Nat)
  /-- words of memory (key / 8) with an uncorrected error (R49) -/
  bad : List Nat
  clusters : List (Nat × Cluster)
  dies : List (Nat × Die)
  pkg : Pkg
  pkgx : PkgX
  /-- events with the time each is due (log entry 5) -/
  pending : List (Nat × Event)
  /-- the model's own field: free values drawn so far (log entry 19) -/
  free : Nat
  /-- the model's own field: number of the next task or command -/
  nextId : Nat
deriving DecidableEq, Repr

/-! ## Why a step can stop -/

/-- The faults. -/
inductive Fault where
  /-- raised by an aligned 8-byte access of a device page at a physical address where `Config.deviceReg` has no register: the spec gives
  the blocks no address map (R13, R47; log entry 17). Safe: the machine stops where the hardware goes on. -/
  | deviceRegister (pa : Nat)
deriving DecidableEq, Repr

/-- The refusals. -/
inductive Refusal where
  /-- an instruction whose meaning is not modelled, by its mnemonic. Safe: the machine stops. -/
  | notModelled (mnemonic : String)
deriving DecidableEq, Repr

/-! ## Reset -/

def Cap.zero : Cap := { val := 0, tag := false }
def Stream.unbound : Stream :=
  { bound := false, w0 := 0, w1 := 0, w2 := 0, w3 := 0, pos := 0, done := 0, queue := [], parked := false, after := false,
    pend := 0, vt := 0, touched := false }
/-- Registers at reset: zero and dead (log entry 1); vl 32 (R159). -/
def Ws.reset : Ws :=
  { s := Vector.replicate 32 0, v := Vector.replicate 32 0, m := Vector.replicate 16 0, c := Vector.replicate 8 Cap.zero,
    k := Vector.replicate 4 0, liveS := 0, liveV := 0, liveM := 0, liveC := 0, liveK := 0, pc := 0, tsw := 0, atp := 0,
    fcsr := 0, vl := 32, mcr := 0, cvm := 0, prog := 0, q := Vector.replicate 8 Stream.unbound }
def Task.none : Task := { src := .none, id := 0, booked := false, bookStart := 0, bookEnd := 0, budget := 0, overrun := false, nest := 0 }
def FaultRec.zero : FaultRec := { fcause := 0, faddr := 0, fdetail := 0, fpc := 0, fins := 0, fins1 := 0, fwp := 0 }
def LineBuf.empty : LineBuf := { valid := false, led := false, addr := 0, hw := [] }
def Slot.reset : Slot :=
  { st := .free, prev := .free, wp := 0, line := LineBuf.empty, fault := FaultRec.zero, tvec := 0, tctl := 0, tbud := 0,
    icnt := 0, trk := { count := 0, v := 0 }, wseq := 0, wbase := 0, relq := [], outLoads := 0, outStores := 0,
    outCopies := 0, outMatrix := 0, iss := 0, cmp := 0, fcount := 0, engV := Vector.replicate 4 0, done := [] }
def SlotX.reset : SlotX :=
  { margin := 0, window := none, copyFault := none, mxFault := none, ecc := none, palette := 0, task := Task.none,
    parked := none, parkVa := 0, asking := false, walkFault := none, timeout := none, answer := none, readySince := 0,
    waitCause := 0, waitBar := none, tileOps := [], yielded := false, hostMark := none, touched := false, look := false }
def WinEntry.reset : WinEntry :=
  { reg := false, vault := false, base := 0, place := none, len := 0, vfn := 0, ctx := 0, serial := 0, pend := 0,
    early := 0, epoch := 0, sat := false }
def Ring.reset : Ring := { ctl := 0, base := 0, ptr := 0, buf := [], first := 0, last := 0, idx := 0, out := [] }
def Debug.reset : Debug :=
  { dctl := 0, dstat := 0, dbp := Vector.replicate 4 0, dwa := Vector.replicate 2 0, dwc := Vector.replicate 2 0,
    note := Ring.reset, mlog := Ring.reset, race := Ring.reset, noteState := 3, noteCause := 0x30,
    pmc := Vector.replicate 8 0, pms := Vector.replicate 8 0, dvrep := 0, dvpos := 0, rplTraps := [], rplMsgs := [] }
/-- The offset held in place of a workspace's by a resident place that holds none; no workspace lies there (R22). -/
def vacantWp : Nat := 262143
/-- A core at reset: no workspace is resident; srng and grng 1 (R148, R296), everything else 0 or empty. -/
def Core.reset : Core :=
  { res := { wp := vacantWp, ws := Ws.reset, mask := 0 }, alt := none, cur := 0, slots := Vector.replicate 4 Slot.reset,
    slotx := Vector.replicate 4 SlotX.reset, pad := [], padTags := [], gran := [], tlb := [],
    win := Vector.replicate 32 WinEntry.reset, mbox := [], carry := { count := 0, v := 0 }, copies := [], puts := [],
    orphan := 0, allocs := [], srng := 1, grng := 1, latecnt := 0, bsel := 0, dbg := Debug.reset, tokens := [], debt := [],
    active := [], l1d := [], l1i := [], drains := [], padBad := [], bindPcs := [], trail := [], lead := [], fresh := [] }
def FbEntry.reset : FbEntry :=
  { valid := false, vpn := 0, vfn := 0, ak := 0, level := 0, reqs := [], count := 0 }
def Calendar.reset : Calendar := { launches := [], queue := [], lastRsn := 0, lastRec := 0 }
def MxArray.reset : MxArray :=
  { stage := [], weight := [], acc := [], sit := none, reqs := [], queue := [], lastVfn := 0, lastPal := 0, wipes := [] }
def NodeMask.reset : NodeMask := { member := 0, arrived := 0, skip := 0, leaving := 0, forced := 0 }
/-- A cluster at reset: fbctl.PARK is 1 (R38). -/
def Cluster.reset : Cluster :=
  { tlb := [], walks := [], missq := [], walked := [], parkq := [], fb := Vector.replicate 8 FbEntry.reset, dropped := [], fbDrop := false,
    fbDrops := 0, fbctl := 1, fbsel := 0, kmiss := 0, cal := Calendar.reset, arr := MxArray.reset, copied := (0, 0), overflow := [],
    node := Vector.replicate 16 NodeMask.reset, cpc := Vector.replicate 8 0, cps := Vector.replicate 8 0 }
def Barrier.reset : Barrier := { expect := 0, count := 0, par := false, tmo := 0, tstart := 0, next := 0 }
def DirEntry.absent (hf : Nat) : DirEntry :=
  { st := 0, odie := 0, host := false, cutting := false, held := false, hint := 0, tid := 0, hz := hf, lhz := hf,
    cuas := [], waits := [], ownReq := [], recalled := none, snoop := false, hostAsks := false, leaves := false, used := 0 }
def TileEntry.reset : TileEntry :=
  { vbase := 0, len := 0, gen := 0, owner := 0, next := 0, state := 0, place := none, vfn := 0, vt := 0,
    busy := false, decl := none, left := 0, fail := 0, slot := 0, rights := 0 }
def Rec.reset : Rec :=
  { w := Vector.replicate 32 0, started := [], settled := 0, restSettled := false, failCode := none, cancel := false, frozen := false,
    booked := false, startTempo := 0, admitted := false, reason := 0 }
def DieClock.reset : DieClock :=
  { ofs := 0, held := none, slew := 0, running := true, lstat := 0, good := 0, lastBeacon := 0 }
/-- A die at reset: identifier 31, not yet numbered (R409). -/
def Die.reset : Die :=
  { clk := DieClock.reset, dir := [], hf := [], l2 := [], l1floor := [], tiles := [], filter := [],
    bar := Vector.replicate 16 Barrier.reset, recs := [], levels := [], templates := [], fpc := Vector.replicate 16 0,
    fps := Vector.replicate 16 0, ident := 31, nbr := [], hop := [], credits := [], down := [], retries := 0,
    uses := 0, held := 0, due := [] }
/-- llen1 256, llen2 8,192, gband 64, lcut 1,024 (R74); adjctl.TEN 0xF, storm 256 (R401); hsplit 64 (log entry 16). -/
def Pkg.reset : Pkg :=
  { ptime := 0, llen1 := 256, llen2 := 8192, gband := 64, lcut := 1024, lenNext := [], frmEn := false, frmMode := false,
    frmEntry := false, frmBusy := [], frmNext := [], hsplit := 64, keys := [], adjctl := 0x3C0, adjAt := 0, adjNow := 0, marks := [],
    storm := 256, wdog := 0, wdogStart := none, score := [],
    ssptr := 0, sssel := 0 }
/-- The four CXL ports are HOST ports, A0 the primary one (log entry 15); the images verify (log entry 113). The features offered are all
twelve (log entry 15); none is negotiated (R422); the controller is at stage 2 of boot,
discovery (R423), no die is known to be present (log entry 7). -/
def PkgX.reset : PkgX :=
  { fns := [], maps := [], numVfs := 0, vfEnable := false, offer := 0xFFF, accept := 0, featDone := false, enabled := 0,
    present := [], boot := 2, found := [], refused := [], numbers := [], routes := [], measured := [1],
    forged := [], recovery := false, power := 0, degrees := 0, throttle := 0, spdm := 0, atomicPorts := [],
    roles := [(0, 0), (1, 0), (2, 0), (3, 0)], primary := 0, hostLines := [], hostOwned := [], hostSeq := 0, hostWrites := [],
    cxlErrors := [] }

/-- The machine right after reset: every link exchanges its credits (R414), the controller's first probes are on the two ports of I/O die A
(R416, log entry 7). -/
def State.reset : State :=
  { cn := 0, core := Core.reset, others := [], mem := [], tags := [], lineKey := [], hbm := [], stale := [], vgran := [], bad := [],
    clusters := [], dies := [], pkg := Pkg.reset, pkgx := PkgX.reset,
    pending := linkPorts.map (fun l => (0, .crd l.1 l.2 classCredits)) ++ [(0, .ident 0 [] 0 ⟨0, [0]⟩), (0, .ident 0 [] 4 ⟨0, [0]⟩)],
    free := 0, nextId := 1 }

end Sys2Proof.Machine
end

