-- ==== Sys2Proof/Machine/Mem.lean ====
section
/-! DEFINITION. Byte memory in canonical form, finite maps as lists, and the accessors of State. -/
namespace Sys2Proof.Machine

/-! ## Byte memory -/

/-- The byte at a key; a key that is not listed reads 0x00 (log entry 2). -/
def readByte (m : List Host.Cell) (a : Nat) : Byte :=
  match m with
  | [] => 0
  | (k, b) :: t => if k = a then b else readByte t a

/-- Writing one byte keeps the keys rising and lists no 0x00. -/
def writeByte (m : List Host.Cell) (a : Nat) (v : Byte) : List Host.Cell :=
  match m with
  | [] => if v = 0 then [] else [(a, v)]
  | (k, b) :: t =>
    if a < k then (if v = 0 then (k, b) :: t else (a, v) :: (k, b) :: t)
    else if a = k then (if v = 0 then t else (a, v) :: t)
    else (k, b) :: writeByte t a v

/-- Every key is above `lo` (when given), keys rise, no byte is 0x00. -/
def memWfFrom (lo : Option Nat) (m : List Host.Cell) : Bool :=
  match m with
  | [] => true
  | (k, b) :: t =>
    (match lo with
     | none => true
     | some l => decide (l < k)) && b != 0 && memWfFrom (some k) t

/-- The canonical form of memory: keys strictly rising, no entry equal to what an unlisted key reads as. -/
def Memory.wf (m : List Host.Cell) : Bool := memWfFrom none m

/-- The bytes at the given keys, in order. -/
def readLocs (m : List Host.Cell) (ls : List Nat) : List Byte := ls.map (readByte m)

/-- Writing a byte at each key, in order. -/
def writeLocs (m : List Host.Cell) (ls : List Nat) (bs : List Byte) : List Host.Cell :=
  match ls, bs with
  | l :: ls, b :: bs => writeLocs (writeByte m l b) ls bs
  | _, _ => m

/-- Bytes as a little-endian number (R6). -/
def ofBytes (bs : List Byte) : Nat :=
  match bs with
  | [] => 0
  | b :: t => b.toNat + 256 * ofBytes t

/-- The `n` low bytes of a number, lowest first (R6). -/
def toBytes (n x : Nat) : List Byte :=
  match n with
  | 0 => []
  | n + 1 => BitVec.ofNat 8 x :: toBytes n (x / 256)

/-- The key in `State.mem` of byte `i` after a place (R13, R14): interleaved HBM by 4 KiB chunks over eight dies, pinned
HBM on its die, every other region by its physical address. -/
def Place.loc (p : Place) (i : Nat) : Nat :=
  let a := p.pa + i
  if p.kind = 0 ∧ a / 2 ^ 48 = 0 then
    if p.hm then p.hdie * 2 ^ 37 + a
    else a / 4096 % 8 * 2 ^ 37 + a / 32768 * 4096 + a % 4096
  else a

/-- Where an access lies: each place with its count of bytes, in address order. -/
abbrev Span := List (Place × Nat)

/-- The keys of an access's bytes, in order. -/
def Span.locs (sp : Span) : List Nat := sp.flatMap (fun e => (List.range e.2).map e.1.loc)

/-- The byte of each key with its place, in order. -/
def Span.bytes (sp : Span) : List (Place × Nat) := sp.flatMap (fun e => (List.range e.2).map (fun i => (e.1, e.1.loc i)))

/-! ## Finite maps and sets as rising lists -/

def mapGet {α : Type} (m : List (Nat × α)) (k : Nat) : Option α :=
  match m with
  | [] => none
  | (a, v) :: t => if a = k then some v else mapGet t k

def mapSet {α : Type} (m : List (Nat × α)) (k : Nat) (v : α) : List (Nat × α) :=
  match m with
  | [] => [(k, v)]
  | (a, w) :: t => if k < a then (k, v) :: (a, w) :: t else if k = a then (k, v) :: t else (a, w) :: mapSet t k v

def mapDel {α : Type} (m : List (Nat × α)) (k : Nat) : List (Nat × α) := m.filter (fun p => p.1 != k)

def setHas (m : List Nat) (k : Nat) : Bool := m.any (· == k)
def setAdd (m : List Nat) (k : Nat) : List Nat :=
  match m with
  | [] => [k]
  | a :: t => if k < a then k :: a :: t else if k = a then a :: t else a :: setAdd t k
def setDel (m : List Nat) (k : Nat) : List Nat := m.filter (· != k)

def natWord (n : Nat) : Word := BitVec.ofNat 64 n

/-- The numbers from `a`, `n` of them. -/
def upto (a n : Nat) : List Nat := (List.range n).map (a + ·)

/-! ## Places in the package (R4, R36, R358) -/

def dieOf (core : Nat) : Nat := core / 256
def rankOf (core : Nat) : Nat := core / 16 % 16
def fileOf (core : Nat) : Nat := core % 16
/-- The in-die cluster of a core: rows of ranks div 4, columns of files div 2. -/
def clusterIn (core : Nat) : Nat := rankOf core / 4 * 8 + fileOf core / 2
/-- The number of a core's cluster in the package. -/
def clusterOf (core : Nat) : Nat := dieOf core * 32 + clusterIn core
/-- The local core number within its cluster (R36). -/
def localOf (core : Nat) : Nat := rankOf core % 4 * 2 + fileOf core % 2
/-- The core with a local number in a cluster of the package. -/
def coreAt (cl loc : Nat) : Nat :=
  cl / 32 * 256 + (cl % 32 / 8 * 4 + loc / 2) * 16 + (cl % 8 * 2 + loc % 2)
/-- The task-slot number within the cluster (R36). -/
def taskSlot (core : Nat) (i : SlotId) : Nat := localOf core * 4 + i.val

/-! ## Accessors of State -/

def State.coreOf (s : State) (n : Nat) : Core :=
  if n = s.cn then s.core else (mapGet s.others n).getD Core.reset
def State.onCore (s : State) (n : Nat) (f : Core → Core) : State :=
  if n = s.cn then { s with core := f s.core } else { s with others := mapSet s.others n (f (s.coreOf n)) }

def State.cluster (s : State) (n : Nat) : Cluster := (mapGet s.clusters n).getD Cluster.reset
def State.onCluster (s : State) (n : Nat) (f : Cluster → Cluster) : State :=
  { s with clusters := mapSet s.clusters n (f (s.cluster n)) }
def State.die (s : State) (n : Nat) : Die := (mapGet s.dies n).getD Die.reset
def State.onDie (s : State) (n : Nat) (f : Die → Die) : State := { s with dies := mapSet s.dies n (f (s.die n)) }

/-- The number of the current core's cluster and die. -/
def State.cl (s : State) : Nat := clusterOf s.cn
def State.dn (s : State) : Nat := dieOf s.cn

def Core.slot (c : Core) (i : SlotId) : Slot := c.slots[i]
def Core.sx (c : Core) (i : SlotId) : SlotX := c.slotx[i]
def Core.onSlot (c : Core) (i : SlotId) (f : Slot → Slot) : Core := { c with slots := c.slots.set i (f c.slots[i]) }
def Core.onSx (c : Core) (i : SlotId) (f : SlotX → SlotX) : Core := { c with slotx := c.slotx.set i (f c.slotx[i]) }
def Core.onWs (c : Core) (f : Ws → Ws) : Core := { c with res := { c.res with ws := f c.res.ws } }

/-- The running workspace and the current slot of the current core. -/
def State.ws (s : State) : Ws := s.core.res.ws
def State.slot (s : State) : Slot := s.core.slot s.core.cur
def State.sx (s : State) : SlotX := s.core.sx s.core.cur
def State.setCore (s : State) (c : Core) : State := { s with core := c }
def State.onWs (s : State) (f : Ws → Ws) : State := { s with core := s.core.onWs f }
def State.onSlot (s : State) (f : Slot → Slot) : State := { s with core := s.core.onSlot s.core.cur f }
def State.onSx (s : State) (f : SlotX → SlotX) : State := { s with core := s.core.onSx s.core.cur f }
def State.onDbg (s : State) (f : Debug → Debug) : State := { s with core := { s.core with dbg := f s.core.dbg } }

/-! ## Time (R73, R83, R88) -/

/-- A die's copy of package time (R73): held while it leads by more than 4,096 cycles. -/
def State.ptimeOf (s : State) (d : Nat) : Nat :=
  let c := (s.die d).clk
  match c.held with
  | some h => max h s.pkg.ptime
  | none => (Int.ofNat s.pkg.ptime + c.ofs).toNat

def State.now (s : State) : Nat := s.ptimeOf s.dn

/-- The die is in lock (R88). -/
def State.locked (s : State) (d : Nat) : Bool := (s.die d).clk.lstat.getLsbD 0

/-- Time as releases measure it (R83): the die's ptime in lock, else the latest beacon's. -/
def State.releaseTime (s : State) (d : Nat) : Nat :=
  if s.locked d then s.ptimeOf d else (s.die d).clk.lastBeacon

/-- An event due at a time joins the pending ones. -/
def State.post (s : State) (t : Nat) (e : Event) : State := { s with pending := s.pending ++ [(t, e)] }

/-- An event joins the pending ones unless it is already there. -/
def State.postOnce (s : State) (e : Event) : State :=
  if s.pending.any (fun p => p.2 == e) then s else s.post s.pkg.ptime e

/-- An engine's next piece of work is due after a core's turn, so that engines and cores proceed together (log entry 5). -/
def engineGap : Nat := 2
/-- An event that is not yet pending, due at a time. -/
def State.once (s : State) (t : Nat) (e : Event) : State := if s.pending.any (fun p => p.2 == e) then s else s.post t e
def State.again (s : State) (e : Event) : State := s.once (s.pkg.ptime + engineGap) e

/-- A free value of the spec, and the state that has drawn it (log entry 19). -/
def State.drawFree (s : State) : BitVec 1024 × State := (Config.freeValue s.free, { s with free := s.free + 1 })

end Sys2Proof.Machine
end

