-- ==== Sys2Proof/Machine/Directory.lean ====
section
/-! DEFINITION. Lines where they are held (spec/02 R48, R50 to R52, R62, R63, R66; spec/03 R76 to R78, R80, R85, R86): homes and
slices, the L1 caches, the L2 slices, the line directory and its store, recalls. A line is named by its key in memory divided
by 64. -/
namespace Sys2Proof.Machine

/-! ## Homes and slices (R14, R62, R66, R76) -/

/-- The enabled map window that holds a host or peer address (R421): the port it leads to, with 1,000 added on I/O die B. -/
def State.mapWin (s : State) (pa : Nat) : Option (Nat × MapWin) :=
  s.pkgx.maps.find? (fun m => m.2.en && m.2.region == pa / 2 ^ 48 && decide (m.2.base ≤ pa % 2 ^ 48) && decide (pa % 2 ^ 48 ≤ m.2.limit))

/-- The I/O die of a host or peer address, 16 or 17 (R76, R421). -/
def State.ioDie (s : State) (pa : Nat) : Nat :=
  match s.mapWin pa with
  | some m => if m.1 < 1000 then 16 else 17
  | none => 16

/-- A host or peer place that no enabled window holds, or of a fabric not enabled (R421, R422). -/
def State.unmapped (s : State) (p : Place) : Bool :=
  !p.dev && decide (2 ≤ p.kind) && ((p.kind == 3 && !s.pkgx.enabled.getLsbD 9) || (s.mapWin p.pa).isNone)

/-- The die whose directory holds a line. -/
def State.lineHome (s : State) (line : Nat) : Nat :=
  if line * 64 < 2 ^ 48 then line * 64 / 2 ^ 37 % 8 else s.ioDie (line * 64)

/-- PA[51:6] of an HBM line from its key (R14). -/
def State.lineX (s : State) (line : Nat) : Nat :=
  let b := line * 64
  if b < 2 ^ 48 then
    let d := b / 2 ^ 37
    let l := b % 2 ^ 37
    if l < s.pkg.hsplit * 2 ^ 30 then ((l / 4096 * 8 + d) * 4096 + l % 4096) / 64 else l / 64
  else line

/-- g, the slice, its cluster within the die and its number there, and the set of a line (R62); the cluster slice (R67). -/
def sliceG (x : Nat) : Nat := (x % 65536) ^^^ (x / 65536 % 65536) ^^^ (x / 4294967296 % 16384)
def sliceOf (x : Nat) : Nat := sliceG x * 192 / 65536
def sliceCluster (x : Nat) : Nat := sliceOf x / 6
def sliceLocal (x : Nat) : Nat := sliceOf x % 6
def sliceSet (x : Nat) : Nat := x % 768
def clusterSlice (x : Nat) : Nat := sliceG x % 6
def State.slice (s : State) (line : Nat) : Nat := sliceOf (s.lineX line)

/-- The pseudo-channel and the stack of a local byte of a memory-port die (R66). -/
def hbmChannel (b : Nat) : Nat :=
  let q := b / 256
  (q ^^^ (q / 128) ^^^ (q / 16384)) % 128
def hbmStack (b : Nat) : Nat := hbmChannel b / 64

/-! ## The L1 caches (R48, R50, R51) -/

/-- The set of a line in an L1 (log entry 90). -/
def l1Set (line : Nat) : Nat := line % 128

/-- The line that a full set gives up: an expired copy first, else the least recently used (R50). -/
def l1Victim (now : Nat) (set : List L1Line) : Option L1Line :=
  match set.reverse.find? (fun y => !y.owned && decide (y.exp ≤ now)) with
  | some v => some v
  | none => set.getLast?

/-- A line placed in an L1 of `ways` ways, the most recently used; at most 256 lines are owned (R50, R51). -/
def l1Put (ways now : Nat) (l : List L1Line) (x : L1Line) : List L1Line :=
  let rest := l.filter (fun y => y.line != x.line)
  let set := rest.filter (fun y => l1Set y.line == l1Set x.line)
  let rest := if set.length < ways then rest else
    match l1Victim now set with
    | some v => rest.filter (fun y => y.line != v.line)
    | none => rest
  let rest := if x.owned ∧ 256 ≤ (rest.filter (·.owned)).length then
      match (rest.filter (·.owned)).getLast? with
      | some v => rest.filter (fun y => y.line != v.line)
      | none => rest
    else rest
  x :: rest

/-- The use of a line that an L1 holds. -/
def l1Use (l : List L1Line) (line : Nat) : List L1Line :=
  match l.find? (fun y => y.line == line) with
  | some x => x :: l.filter (fun y => y.line != line)
  | none => l

/-- The L1 data cache of the core owns a line (R51). -/
def Core.ownsLine (c : Core) (line : Nat) : Bool := c.l1d.any (fun y => y.line == line && y.owned)
/-- The L1 holds an unexpired copy of a line, or owns it (R50). -/
def l1Hit (l : List L1Line) (now line : Nat) : Bool := l.any (fun y => y.line == line && (y.owned || decide (now < y.exp)))

/-! ## The L2 slices (R62, R63, R80, R85) -/

def State.l2Index (s : State) (line : Nat) : Nat := s.slice line * 768 + sliceSet (s.lineX line)
def State.l2Set (s : State) (d line : Nat) : List L2Line := (mapGet (s.die d).l2 (s.l2Index line)).getD []
/-- A copy of the line under any key, and the copy under one key (R44). -/
def State.l2Any (s : State) (d line : Nat) : Option L2Line := (s.l2Set d line).find? (fun y => y.line == line)
def State.l2Get (s : State) (d line key : Nat) : Option L2Line := (s.l2Set d line).find? (fun y => y.line == line && y.key == key)
def State.putL2 (s : State) (d line : Nat) (l : List L2Line) : State :=
  s.onDie d (fun x => { x with l2 := mapSet x.l2 (s.l2Index line) l })
/-- Every copy of a line in its slice changed. -/
def State.onL2 (s : State) (d line : Nat) (f : L2Line → L2Line) : State :=
  if (s.l2Any d line).isSome then s.putL2 d line ((s.l2Set d line).map (fun y => if y.line = line then f y else y)) else s

/-- A core gives up a line that its L1 owns: the slice's tag names it no longer (R51, R52). -/
def State.giveUpL1 (s : State) (core line : Nat) : State :=
  (s.onCore core (fun k => { k with l1d := k.l1d.filter (fun y => y.line != line) })).onL2 (dieOf core) line (fun y => { y with core := none })
/-- Cores other than `but` give up a line that their L1 owns (R52). -/
def State.recallL1 (s : State) (but line : Nat) : State :=
  (s.cn :: s.others.map (·.1)).foldl (fun s c => if c ≠ but ∧ (s.coreOf c).ownsLine line then s.giveUpL1 c line else s) s

/-- The latest L1 expiry of a line on a die: from its tags, or from the slice's floor when it is not tagged (R80, R82). -/
def State.l1Horizon (s : State) (d line : Nat) : Nat :=
  if (s.l2Any d line).isSome then
    ((s.l2Set d line).filter (fun y => y.line == line)).foldl (fun m y => max m y.l1hz) 0
  else (mapGet (s.die d).l1floor (s.slice line)).getD 0

/-- The cluster of a die that owns a line, with E (R85). -/
def State.clusterOwner (s : State) (d line : Nat) : Option (Nat × Nat) :=
  match (s.l2Set d line).find? (fun y => y.line == line && y.owner.isSome) with
  | some y => y.owner.map (fun c => (c, y.ownE))
  | none => none

/-- The cluster owner of a line on a die gives it up (R85). -/
def State.recallCluster (s : State) (d line : Nat) : State :=
  if (s.clusterOwner d line).isSome then s.onL2 d line (fun y => { y with owner := none }) else s

/-- A die invalidates its slice copies of a line (R82): the latest L1 expiry goes to the slice's floor (R80). -/
def State.dropCopy (s : State) (d line : Nat) : State :=
  if (s.l2Any d line).isSome then
    let hz := s.l1Horizon d line
    let s := s.putL2 d line ((s.l2Set d line).filter (fun y => y.line != line))
    s.onDie d (fun x => { x with l1floor := mapSet x.l1floor (s.slice line) (max ((mapGet x.l1floor (s.slice line)).getD 0) hz) })
  else s

/-! ## What memory holds (R44, R274, R275) -/

/-- The 64 bytes of a line as held in the latest copy. -/
def State.lineBytes (s : State) (line : Nat) : List Byte := readLocs s.mem (upto (line * 64) 64)
/-- The tagged granules of a line. -/
def State.lineTags (s : State) (line : Nat) : List Nat := (upto (line * 4) 4).filter (setHas s.tags)
def State.setTags (s : State) (line : Nat) (ts : List Nat) : State :=
  { s with tags := (upto (line * 4) 4).foldl (fun t g => if ts.contains g then setAdd t g else setDel t g) s.tags }

/-- What memory holds of a line, whose latest copy is under key `k`. -/
def State.hbmOf (s : State) (line k : Nat) : HbmLine :=
  (mapGet s.hbm line).getD { bytes := s.lineBytes line, key := k, tags := s.lineTags line, dirty := false }

/-- A dirty copy of a line under a key reaches memory (R44, R274). -/
def State.writeBack (s : State) (line key : Nat) : State :=
  match s.stale.find? (fun c => c.line == line && c.key == key) with
  | some c =>
    let old := s.hbmOf line ((mapGet s.lineKey line).getD 0)
    { s with
      stale := s.stale.filter (fun c => !(c.line == line && c.key == key)),
      hbm := mapSet s.hbm line { old with bytes := c.bytes, key := key, tags := c.tags } }
  | none => if (s.hbmOf line key).dirty ∧ (mapGet s.lineKey line).getD key = key then { s with hbm := mapDel s.hbm line } else s

/-- The latest copy of a line is taken from memory again: its dirty bytes, if it has any, are lost (R275). -/
def State.refetch (s : State) (line : Nat) : State :=
  match mapGet s.hbm line with
  | some x =>
    let s := s.setTags line x.tags
    { s with mem := writeLocs s.mem (upto (line * 64) 64) x.bytes, lineKey := mapSet s.lineKey line x.key, hbm := mapDel s.hbm line }
  | none => s

/-- A copy leaves the last cache above memory: a dirty one is written back, a clean one is gone (R44, R63). -/
def State.evictCopy (s : State) (line key : Nat) : State :=
  let s := s.writeBack line key
  if (mapGet s.lineKey line).getD key = key then s.refetch line else s

/-! ## The line directory (R77, R78) -/

def State.floor (s : State) (line : Nat) : Nat := (mapGet (s.die (s.lineHome line)).hf (s.slice line)).getD 0
def State.entry (s : State) (line : Nat) : DirEntry :=
  (mapGet (s.die (s.lineHome line)).dir line).getD (DirEntry.absent (s.floor line))

/-- The entry of a line that its home slice holds lives in the slice's tags (R78). -/
def State.inTags (s : State) (line : Nat) : Bool := (s.l2Any (s.lineHome line) line).isSome

/-- The least recently used entry. -/
def oldest (l : List (Nat × DirEntry)) : Option (Nat × DirEntry) :=
  l.foldl (fun m x => match m with
    | some y => if x.2.used < y.2.used then some x else m
    | none => some x) none

/-- An entry with which nothing is in progress. -/
def DirEntry.quiet (e : DirEntry) : Bool := !e.cutting && e.waits.isEmpty && e.ownReq.isEmpty && e.recalled.isNone && !e.snoop

/-- The victim of a full directory store (R78): from the first class that has one, an I, an L, an M entry, the least recently
used of it. -/
def dirVictim (l : List (Nat × DirEntry)) : Option (Nat × DirEntry) :=
  let cls := fun (st : Nat) => oldest (l.filter (fun e => e.2.st == st && e.2.quiet))
  match cls 0 with
  | some e => some e
  | none =>
    match cls 1 with
    | some e => some e
    | none => cls 2

/-- An entry written as it is. -/
def State.putEntry (s : State) (line : Nat) (e : DirEntry) : State :=
  s.onDie (s.lineHome line) (fun d => { d with dir := mapSet d.dir line e })

/-- An I or L entry leaves the directory store: the slice's horizon floor rises (R78). -/
def State.dropEntry (s : State) (line : Nat) : State :=
  let e := s.entry line
  let hf := max (s.floor line) (if e.st = 1 then max e.hz e.lhz else e.lhz)
  s.onDie (s.lineHome line) (fun d => { d with dir := mapDel d.dir line, hf := mapSet d.hf (s.slice line) hf })

/-- A recall of the owner of an M entry is sent (R86, R87). -/
def State.recall (s : State) (line : Nat) : State :=
  let e := s.entry line
  if e.recalled.isSome then s
  else
    let s := s.putEntry line { e with recalled := some (s.ptimeOf (s.lineHome line)) }
    (s.post s.pkg.ptime (.rcl line)).post (s.pkg.ptime + 262144) (.recallHeld line)

/-- The directory store of a line's slice takes its entry: past 16,384 entries one leaves (R78). -/
def State.storeCheck (s : State) (line : Nat) : State :=
  let h := s.lineHome line
  let dir := (s.die h).dir
  if dir.length ≤ 16384 ∨ s.inTags line then s
  else
    let mine := dir.filter (fun x => s.slice x.1 == s.slice line && x.1 != line && !s.inTags x.1)
    if mine.length < 16384 then s
    else match dirVictim mine with
      | some (v, x) => if x.st = 2 then (s.putEntry v { x with leaves := true }).recall v else s.dropEntry v
      | none => s

/-- A use of a line's entry, which numbers it (R78). -/
def State.useEntry (s : State) (line : Nat) (e : DirEntry) : DirEntry × State :=
  let h := s.lineHome line
  let n := (s.die h).uses + 1
  ({ e with used := n }, s.onDie h (fun d => { d with uses := n }))

/-- An entry written; that of a line which had none is numbered. -/
def State.setEntry (s : State) (line : Nat) (e : DirEntry) : State :=
  let (e, s) := if e.used = 0 then s.useEntry line e else (e, s)
  (s.putEntry line e).storeCheck line
def State.onEntry (s : State) (line : Nat) (f : DirEntry → DirEntry) : State := s.setEntry line (f (s.entry line))

/-- What every visit to an entry applies first (R79); the use is numbered (R78). -/
def State.visit (s : State) (line : Nat) : State :=
  let h := s.lineHome line
  match mapGet (s.die h).dir line with
  | none => s
  | some e =>
    let (e, s) := s.useEntry line e
    if e.st = 1 ∧ !e.cutting ∧ e.hz + s.pkg.gband ≤ s.ptimeOf h then s.putEntry line { e with st := 0, hint := 0, hz := 0 }
    else s.putEntry line e

def hintDies (h : BitVec 8) : List Nat := (List.range 8).filter (fun d => h.getLsbD d)

/-- The line is in M at a die other than `d` (R86). -/
def State.ownedElsewhere (s : State) (line d : Nat) : Bool := (s.entry line).st == 2 && (s.entry line).odie != d

/-- A line leaves a slice (R63, R78, R80, R85, R86, R98): its L1 and cluster owners give it up; what it held reaches memory
from the home, or goes to the home from an owner die; the entry of a home line moves to the directory store. HELD of a tile line is
cleared where R86 says so (log entry 129). -/
def State.evictL2 (s : State) (d : Nat) (y : L2Line) : State :=
  let line := y.line
  let h := s.lineHome line
  let s := (s.cn :: s.others.map (·.1)).foldl (fun s c => if dieOf c = d ∧ (s.coreOf c).ownsLine line then s.giveUpL1 c line else s) s
  let e := s.entry line
  if d = h then
    let s := if e.st = 3 ∧ e.held ∧ e.odie = d then s.putEntry line { e with held := false } else s
    let s := if e.st = 2 ∨ (e.st = 3 ∧ e.held ∧ e.odie ≠ d) then s else s.evictCopy line y.key
    if (mapGet (s.die h).dir line).isSome then s.storeCheck line else s
  else
    let s := s.onDie d (fun x => { x with l1floor := mapSet x.l1floor (s.slice line) (max ((mapGet x.l1floor (s.slice line)).getD 0) y.l1hz) })
    if e.odie ≠ d then s
    else if e.st = 2 ∧ e.recalled.isNone then s.putEntry line { e with st := 0, odie := 0 }
    else if e.st = 3 ∧ e.held then s.putEntry line { e with held := false }
    else s

/-- A line placed in its slice of a die, the most recently used of its set of 16 (R63). -/
def State.fillL2 (s : State) (d : Nat) (x : L2Line) : State :=
  let rest := (s.l2Set d x.line).filter (fun y => !(y.line == x.line && y.key == x.key))
  let s := s.putL2 d x.line (x :: rest.take 15)
  (rest.drop 15).foldl (fun s y => s.evictL2 d y) s

/-! ## A write of the package itself (R52) -/

/-- A write that comes from no core takes a line from the L1s, the clusters and the die that own it (R52, R85, R86). -/
def State.seize (s : State) (line : Nat) : State :=
  let s := (s.recallL1 2048 line).recallCluster (s.lineHome line) line
  if (s.entry line).st = 2 then s.recall line else s

end Sys2Proof.Machine
end

