-- ==== Sys2Proof/Machine/Units.lean ====
section
/-! DEFINITION. How a task ends and is counted (spec/06 R168 to R173, spec/07 R190, R203, spec/13 R362, R376, R378): the
scoresheet, leaving barriers, freeing claims, completing units. -/
namespace Sys2Proof.Machine

/-- A field of a word, bits [hi:lo] (R6). -/
def fld (w : Word) (hi lo : Nat) : Nat := bitsOf w.toNat hi lo

/-- A word with the field [hi:lo] replaced. -/
def setFld (w : Word) (hi lo : Nat) (x : Nat) : Word :=
  let m := (2 ^ (hi + 1 - lo) - 1) * 2 ^ lo
  (w &&& ~~~(BitVec.ofNat 64 m)) ||| (BitVec.ofNat 64 ((x % 2 ^ (hi + 1 - lo)) * 2 ^ lo))

/-! ## The scoresheet (R403) -/

/-- An event recorded in the scoresheet with its code, core, function and detail words. -/
def State.score (s : State) (code core vfn : Nat) (d0 d1 : Word) : State :=
  let e : Score :=
    { time := s.pkg.ptime, w1 := BitVec.ofNat 64 (code % 256 + dieOf core % 8 * 256 + core % 2048 * 2048 + vfn % 64 * 4194304),
      d0 := d0, d1 := d1 }
  let idx := fld s.pkg.ssptr 11 0
  let wraps := fld s.pkg.ssptr 43 12
  let wraps' := if idx = 4095 then min (wraps + 1) 4294967295 else wraps
  { s with pkg := { s.pkg with
      score := (e :: s.pkg.score).take 4096,
      ssptr := BitVec.ofNat 64 ((idx + 1) % 4096 + wraps' * 4096) } }

/-! ## Barriers (R357, R362) -/

def nodeBit (core : Nat) (i : SlotId) : BitVec 32 := BitVec.twoPow 32 (taskSlot core i)
def Cluster.onNode (c : Cluster) (b : Fin 16) (f : NodeMask → NodeMask) : Cluster := { c with node := c.node.set b (f c.node[b]) }
def Die.onBar (d : Die) (b : Fin 16) (f : Barrier → Barrier) : Die := { d with bar := d.bar.set b (f d.bar[b]) }

/-- The slot is a member of barrier `b` of its die. -/
def State.isMember (s : State) (core : Nat) (i : SlotId) (b : Fin 16) : Bool :=
  ((s.cluster (clusterOf core)).node[b]).member &&& nodeBit core i != 0
def State.hasArrived (s : State) (core : Nat) (i : SlotId) (b : Fin 16) : Bool :=
  ((s.cluster (clusterOf core)).node[b]).arrived &&& nodeBit core i != 0

/-- An arrival of the slot to barrier `b` waits in its release queue (R360). -/
def Slot.arrivalQueued (sl : Slot) (b : Nat) : Bool :=
  sl.relq.any (fun e => match e.op with
    | .arrive x => x == b
    | _ => false)

/-- The slot has arrived in the phase in progress: at its node, by `bforce`, or with an arrival on its way (R360, R362). -/
def State.arrivalMade (s : State) (core : Nat) (i : SlotId) (b : Fin 16) : Bool :=
  s.hasArrived core i b || ((s.cluster (clusterOf core)).node[b]).forced &&& nodeBit core i != 0
    || ((s.coreOf core).slot i).arrivalQueued b.val || s.pending.any (fun p => p.2 == .barrierArrival core i b.val)

/-- A phase completes in the cycle after COUNT reaches EXPECT (R358). -/
def State.checkPhase (s : State) (d : Nat) (b : Fin 16) : State :=
  let r := (s.die d).bar[b]
  if r.expect ≠ 0 ∧ r.count = r.expect then s.post s.pkg.ptime (.phaseCompletion d b.val) else s

/-- R362: a member leaves at once; one that has arrived stays counted and leaves when the phase completes. -/
def State.leaveBarrier (s : State) (core : Nat) (i : SlotId) (b : Fin 16) : State :=
  if !s.isMember core i b then s
  else if s.arrivalMade core i b then
    s.onCluster (clusterOf core) (fun c => c.onNode b (fun m => { m with leaving := m.leaving ||| nodeBit core i }))
  else
    let s := s.onCluster (clusterOf core) (fun c => c.onNode b (fun m =>
      { m with member := m.member &&& ~~~(nodeBit core i), skip := m.skip &&& ~~~(nodeBit core i) }))
    let s := s.onDie (dieOf core) (fun d => d.onBar b (fun r => { r with expect := r.expect - 1 }))
    s.checkPhase (dieOf core) b

/-- Every barrier the slot has joined is left (R378). -/
def State.leaveBarriers (s : State) (core : Nat) (i : SlotId) : State :=
  (List.finRange 16).foldl (fun s b => s.leaveBarrier core i b) s

/-! ## Claims (R190) -/

def State.tempo (s : State) (d : Nat) : Nat := s.ptimeOf d / 64

/-- A record's number in the package. -/
def recKey (d rn : Nat) : Nat := d * 512 + rn

/-- The launch of a record as admitted and not completed. -/
def Launch.of (l : Launch) (key : Nat) : Bool := l.recNo == key && !l.done
def Calendar.onLaunch (c : Calendar) (key : Nat) (f : Launch → Launch) : Calendar :=
  { c with launches := c.launches.map (fun l => if l.of key then f l else l) }

/-- Claims that satisfy `p` are freed from tempo `t` on. -/
def Launch.free (l : Launch) (t : Nat) (p : BookedClaim → Bool) : Launch :=
  { l with claims := l.claims.map (fun k => if p k then { k with fin := max k.start (min k.fin t), freed := true } else k) }

/-- The cluster of the package that a booked record's placement set lies in (R170, R182). -/
def Rec.cluster (r : Rec) : Nat :=
  let w4 := r.w[4]
  let die := ((List.range 8).find? (fun i => w4.getLsbD i)).getD 0
  die * 32 + (fld w4 19 16 / 4 * 8 + fld w4 11 8 / 2)

/-! ## Records and levels (R170 to R173) -/

/-- The dies of the placement set, increasing (R170). -/
def Rec.dies (r : Rec) : List Nat := (List.range 8).filter (fun i => r.w[4].getLsbD i)
def Rec.files (r : Rec) : Nat := fld r.w[4] 15 12 + 1
def Rec.ranks (r : Rec) : Nat := fld r.w[4] 23 20 + 1
/-- The number N of cores of the placement set (R172). -/
def Rec.places (r : Rec) : Nat := r.dies.length * r.ranks * r.files
/-- The core of unit j: position j mod N, ordered by die, rank, file (R172). -/
def Rec.coreOfUnit (r : Rec) (j : Nat) : Nat :=
  let p := j % r.places
  let die := r.dies.getD (p / (r.ranks * r.files)) 0
  die * 256 + (fld r.w[4] 19 16 + p / r.files % r.ranks) * 16 + (fld r.w[4] 11 8 + p % r.files)

def Rec.units (r : Rec) : Nat := fld r.w[3] 15 0 * fld r.w[3] 31 16 * fld r.w[3] 47 32
def Rec.state (r : Rec) : Nat := fld r.w[13] 2 0
def Rec.setState (r : Rec) (n : Nat) : Rec := { r with w := r.w.set 13 (setFld r.w[13] 2 0 n) }
def State.record (s : State) (d n : Nat) : Rec := (mapGet (s.die d).recs n).getD Rec.reset
def State.onRec (s : State) (d n : Nat) (f : Rec → Rec) : State :=
  s.onDie d (fun x => { x with recs := mapSet x.recs n (f (s.record d n)) })

/-- Claims of a record's launch that satisfy `p` are freed from the tempo after this one (R190). -/
def State.freeClaims (s : State) (d rn : Nat) (p : BookedClaim → Bool) : State :=
  let cl := (s.record d rn).cluster
  let t := s.tempo (cl / 32) + 1
  s.onCluster cl (fun c => { c with cal := c.cal.onLaunch (recKey d rn) (fun l => l.free t p) })

/-- `n` units of a booked record end (R190): their CORE claims `p` are freed, with the last unit every claim. -/
def State.endUnits (s : State) (d rn n : Nat) (p : BookedClaim → Bool) : State :=
  let r := s.record d rn
  let t := s.tempo (r.cluster / 32) + 1
  s.onCluster r.cluster (fun c => { c with cal := c.cal.onLaunch (recKey d rn) (fun l =>
    { l.free t (fun k => p k || decide (r.units ≤ l.ended + n)) with ended := l.ended + n }) })

/-- The launch of a record leaves the calendar (R185, R190): its tempi are seen as free from the next boundary on. -/
def State.dropLaunch (s : State) (d rn : Nat) : State :=
  let cl := (s.record d rn).cluster
  let t := s.tempo (cl / 32) + 1
  s.onCluster cl (fun c => { c with cal := c.cal.onLaunch (recKey d rn) (fun l => { l.free t (fun _ => true) with done := true }) })

def State.level (s : State) (d n : Nat) : BitVec 128 := (mapGet (s.die d).levels n).getD 0
def State.setLevel (s : State) (d n : Nat) (v : BitVec 128) : State :=
  s.onDie d (fun x => { x with levels := mapSet x.levels n v })

def lvField (v : BitVec 128) (hi lo : Nat) : Nat := bitsOf v.toNat hi lo
def lvSet (v : BitVec 128) (hi lo : Nat) (x : Nat) : BitVec 128 :=
  let m := (2 ^ (hi + 1 - lo) - 1) * 2 ^ lo
  (v &&& ~~~(BitVec.ofNat 128 m)) ||| (BitVec.ofNat 128 (x % 2 ^ (hi + 1 - lo) * 2 ^ lo))

/-- `n` completions added to a level counter (R173): DONE wraps, MISSED and CANC saturate. Counter 0 stands for none. -/
def State.addLevel (s : State) (d c n missed canc : Nat) : State :=
  if c = 0 then s
  else
    let v := s.level d c
    let v := lvSet v 63 32 (lvField v 63 32 + n)
    let v := lvSet v 87 64 (min (lvField v 87 64 + missed) 16777215)
    let v := lvSet v 111 88 (min (lvField v 111 88 + canc) 16777215)
    s.setLevel d c v

/-- `n` completions of a record's units, counted in its launch and every parent (R173, R376); the last one writes STATUS
and returns the record to POOL (R171). -/
def State.complete (s : State) (d rn n missed canc : Nat) : State :=
  let r := s.record d rn
  let w14 := setFld (setFld r.w[14] 31 0 (fld r.w[14] 31 0 + n)) 63 32 (fld r.w[14] 63 32 + missed)
  let w15 := setFld r.w[15] 31 0 (fld r.w[15] 31 0 + canc)
  let r : Rec := { r with w := (r.w.set 14 w14).set 15 w15, settled := r.settled + n }
  let last := decide (r.units ≤ r.settled)
  let status :=
    match r.failCode with
    | some c => 0x80 + c % 128
    | none => if fld w15 31 0 ≠ 0 then 2 else if fld w14 63 32 ≠ 0 then 1 else 0
  let r : Rec := if last then { r with w := r.w.set 13 (setFld (setFld r.w[13] 2 0 1) 23 16 status), admitted := false } else r
  let w7 := r.w[7]
  let s := s.onRec d rn (fun _ => r)
  let s := s.addLevel d (fld w7 9 0) n missed canc
  let s := s.addLevel d (fld w7 19 10) n missed canc
  let s := s.addLevel d (fld w7 29 20) n missed canc
  if last ∧ r.booked then s.dropLaunch d rn else s

/-- The reserved space of a booked record's unstarted units is given up, from the given tempo on (R190). -/
def State.freeReserved (s : State) (d rn : Nat) (cores : List Nat) (t : Nat) : State :=
  cores.foldl (fun s c => s.onCore c (fun k => { k with allocs := k.allocs.map (fun a => match a.kind with
    | .reserved d' r' _ => if d' = d ∧ r' = rn then { a with kind := .givenUp t } else a
    | _ => a) })) s

/-- The spaces of a core that are given up by tempo `t` are free (R190), and the core looks for work. -/
def State.spaceFreed (s : State) (core t : Nat) : State :=
  let gone := fun (a : Alloc) => match a.kind with
    | .givenUp u => decide (u ≤ t)
    | _ => false
  if (s.coreOf core).allocs.any gone then
    (s.onCore core (fun k => { k with allocs := k.allocs.filter (fun a => !gone a) })).post s.pkg.ptime (.freeUnitStart core)
  else s

/-- Every unit of the record that has not started completes as CANCELLED (R173, R203), once. -/
def State.cancelRest (s : State) (d rn : Nat) : State :=
  let r := s.record d rn
  if r.restSettled ∨ r.state ≠ 4 then s
  else
    let n := r.units - r.started.length
    let s := s.onRec d rn (fun r => { r with restSettled := true })
    let s := if r.booked then
        let cores := ((List.range (min r.units 8)).filter (fun j => !setHas r.started j)).map r.coreOfUnit
        let s := s.freeReserved d rn cores (s.tempo (r.cluster / 32) + 1)
        s.endUnits d rn n (fun k => k.cls == 1 && cores.any (fun x => localOf x == k.inst))
      else s
    if n = 0 then s else s.complete d rn n 0 n


/-- The booking of a record that is not armed is withdrawn: its claims and its reserved space are freed from a tempo on (R190). -/
def State.unbookFrom (s : State) (d rn t : Nat) : State :=
  let r := s.record d rn
  let cores := (List.range (min r.units 8)).map r.coreOfUnit
  ((s.dropLaunch d rn).freeReserved d rn cores t).onRec d rn (fun r => { r with admitted := false })

/-- A booking is withdrawn before any unit of it starts (R203, R373): from the tempo after this one. -/
def State.withdraw (s : State) (d rn : Nat) : State := s.unbookFrom d rn (s.tempo ((s.record d rn).cluster / 32) + 1)

/-- A record is frozen (R203): the unstarted units of its launch complete as CANCELLED; one that is not armed loses its booking
and completes all its units as CANCELLED when it is armed. -/
def State.freezeRec (s : State) (d rn : Nat) : State :=
  let s := s.onRec d rn (fun r => { r with frozen := true })
  let r := s.record d rn
  if r.state = 4 then s.cancelRest d rn else if r.admitted then s.withdraw d rn else s

/-! ## Updates that a clear keeps (R7) -/

/-- What hardware has done to a W1C or RS field in the present cycle: keys are the number of a control register, with 4096 × the offset of
its workspace where it has one, and 0 for the orphan counter (R336). -/
def Core.freshAt (c : Core) (key now : Nat) : Nat :=
  match mapGet c.fresh key with
  | some (t, n) => if t = now then n else 0
  | none => 0
def Core.freshen (c : Core) (key now : Nat) (f : Nat → Nat) : Core :=
  { c with fresh := mapSet c.fresh key (now, f (c.freshAt key now)) }

/-- A command whose task has retired has completed (R335): counted, up to the counter's last value. -/
def State.countOrphan (s : State) (core : Nat) : State :=
  s.onCore core (fun c => { c with orphan := min (c.orphan + 1) 4294967295 }.freshen 0 s.pkg.ptime (· + 1))

/-! ## The end of a task -/

/-- An allocation of a task, not a space reserved for an admitted unit (R57, R186). -/
def Alloc.live (a : Alloc) : Bool :=
  match a.kind with
  | .reserved _ _ _ => false
  | .givenUp _ => false
  | _ => true

/-- Allocations of the slot's task are freed (R168). -/
def Core.freeAllocs (c : Core) (i : SlotId) : Core :=
  { c with allocs := c.allocs.filter (fun a => !(a.slot == i && a.live)) }

/-- Streams are unbound (R323). -/
def Ws.unbindAll (w : Ws) : Ws := { w with q := Vector.replicate 8 Stream.unbound }

/-- The workspaces that lie in a slot's allocations are given up (R378): nothing is written back for them, and their registers stay in the
register file until another workspace takes their place (log entry 42). -/
def Core.vacate (c : Core) (i : SlotId) : Core :=
  let inside := fun (wp : Nat) => c.allocs.any (fun a => a.slot == i && a.live && decide (a.base ≤ wp) && decide (wp < a.base + a.len))
  let leave := fun (r : Resident) => if inside r.wp then { wp := vacantWp, ws := r.ws.unbindAll, mask := 0 } else r
  { c with res := leave c.res, alt := c.alt.map leave }

/-- R352: the windows that the slot registered are freed, their serials raised. -/
def Core.unregister (c : Core) (i : SlotId) : Core :=
  { c with win := c.win.map (fun w => if w.reg ∧ w.ctx = i then { w with reg := false, serial := w.serial + 1 } else w) }

/-- Whether a matrix command uses an accumulator slot. -/
def MxOp.usesAcc (o : MxOp) (a : Nat) : Bool :=
  let uses (h : Word) : Bool := fld h 3 0 == a || (h.getLsbD 9 && fld h 7 4 == a)
  match o with
  | .mma _ _ h _ => uses h
  | .st h _ _ _ _ _ => uses h
  | .zero h => uses h
  | _ => false

/-- R348: accumulator slots return to the free list once every earlier command using them has completed. -/
def MxArray.release (a : MxArray) (p : Nat → AccSlot → Bool) : MxArray :=
  { a with acc := a.acc.filterMap (fun e =>
      if p e.1 e.2 then
        if a.queue.any (fun q => q.op.usesAcc e.1) then some (e.1, { e.2 with releasing := true }) else none
      else some e) }

/-- The sitting of a context slot ends, and its request goes (R340). -/
def MxArray.endSit (a : MxArray) (core : Nat) (i : SlotId) : MxArray :=
  { a with
    sit := match a.sit with
      | some x => if x.core = core ∧ x.slot = i then none else a.sit
      | none => none,
    reqs := a.reqs.filter (fun x => !(x.core == core && x.slot == i)) }

/-- The unit of the ending task completes: MISSED past its deadline (R200), failed with a status code (R376), its CORE
claim freed if it is booked (R190); a failure freezes its launch and sends the resign token (R203). -/
def State.completeTask (s : State) (core : Nat) (t : Task) (fail : Option Nat) : State :=
  match t.src with
  | .unit d rn _ =>
    let r := s.record d rn
    let dl := r.w[6].toNat
    let missed := if dl ≠ 0 ∧ dl < s.ptimeOf (dieOf core) then 1 else 0
    let s := match fail with
      | some c => s.onRec d rn (fun r => { r with failCode := some (r.failCode.getD c) })
      | none => s
    let s := if t.booked then s.endUnits d rn 1 (fun b => b.cls == 1 && b.inst == localOf core) else s
    let s := s.complete d rn 1 missed 0
    match fail with
    | some _ =>
      let s := s.freezeRec d rn
      let g := fld r.w[7] 9 0
      if g ≠ 0 then s.post s.pkg.ptime (.resignToken d g) else s
    | none => s
  | _ => s

/-- A record that the ending task has TAKEN, or was about to arm, returns to POOL (R171), its booking with it. -/
def State.returnTaken (s : State) (core : Nat) (i : SlotId) : State :=
  let d := dieOf core
  (s.die d).recs.foldl (fun s e =>
    if (e.2.state = 2 ∨ e.2.state = 3) ∧ fld e.2.w[13] 15 3 = core * 4 + i.val then
      (if e.2.admitted then s.withdraw d e.1 else s).onRec d e.1 (fun r => r.setState 1)
    else s) s

/-- The one step with which `retire` ends a task (R378), also taken when a unit fails by a double trap (R213): the
context becomes FREE and the core looks for work. A WINDOW fault still pending is recorded; a COPY or MX fault still pending goes with the
task (log entry 128). -/
def State.endTask (s : State) (fail : Option Nat) : State :=
  let i := s.core.cur
  let t := s.sx.task
  let s := s.leaveBarriers s.cn i
  let s := s.setCore (s.core.unregister i)
  let s := s.onCluster s.cl (fun c => { c with arr :=
    (c.arr.release (fun _ a => a.holder == some (s.cn, i))).endSit s.cn i })
  let s := s.onWs (fun w => { w.unbindAll with tsw := setFld (setFld w.tsw 3 3 0) 1 1 0 })
  let s := match s.sx.window with
    | some f => s.score 0x07 s.cn (fld s.ws.atp 5 0) f.addr (BitVec.ofNat 64 f.reason)
    | none => s
  let s := s.completeTask s.cn t fail
  let s := s.returnTaken s.cn i
  let s := s.setCore ((s.core.vacate i).freeAllocs i)
  let s := s.onSlot (fun x => { x with st := .free, line := LineBuf.empty })
  let s := s.onSx (fun x => { SlotX.reset with palette := x.palette })
  ((s.post s.pkg.ptime (.sittingGrant s.cl)).post s.pkg.ptime (.freeUnitStart s.cn)).post s.pkg.ptime (.activeMessageStart s.cn)

end Sys2Proof.Machine
end

