-- ==== Sys2Proof/Machine/Notes.lean ====
section
/-! DEFINITION. The recorders (spec/14 R393 to R405, spec/04 R133 to R135): notation stream, message log, race ring,
counters, and adjournment. -/
namespace Sys2Proof.Machine

/-- ADJ (R401). -/
def State.adj (s : State) : Bool := s.pkg.adjctl.getLsbD 0
/-- The recorders have adjourned: the events of the cycle in which the adjournment reaches them are still recorded (R400). -/
def State.adjourned (s : State) : Bool := s.adj && decide (s.pkg.adjAt < s.pkg.ptime)

/-- A physical address held in a recorder's base register, taken as interleaved HBM or a vault address (log entry 20). -/
def basePlace (pa : Nat) : Place :=
  { pa := pa, key := 0, kind := if pa / 2 ^ 48 = 1 then 1 else 0, hm := false, hdie := 0, cach := false, dev := false, vfn := 0 }

/-- The base register names a frame of HBM or of a vault (R13, R14, R135, R393). -/
def State.baseOk (s : State) (pa : Nat) : Bool :=
  let off := pa % 2 ^ 48
  match pa / 2 ^ 48 with
  | 0 => decide (off < 8 * s.pkg.hsplit * 2 ^ 30)
  | 1 => decide (off / 2 ^ 33 = 0) && decide (off % 2 ^ 24 < 12 * 2 ^ 20)
  | _ => false

/-- Bytes written to memory by hardware at a physical address: owners give the lines up (R52), the tags of the granules go
(R26). -/
def State.writePhys (s : State) (p : Place) (bs : List Byte) : State :=
  let ls := (List.range bs.length).map p.loc
  let s := if p.kind = 0 then (ls.foldl (fun t l => setAdd t (l / 64)) []).foldl (fun s l => s.seize l) s else s
  { s with
    mem := writeLocs s.mem ls bs,
    tags := ls.foldl (fun t l => setDel t (l / 16)) s.tags,
    lineKey := ls.foldl (fun t l => mapSet t (l / 64) 0) s.lineKey }

/-- The line buffer of a ring goes on its way to memory, its unused words zero (R393); `per` units of the pointer to a line. -/
def Ring.flush (r : Ring) (per : Nat) : Ring :=
  if r.buf.isEmpty then r
  else
    let next := (r.idx / per + 1) % fld r.ctl 31 8 * per
    let ws := (r.buf ++ List.replicate 16 0).take 16
    let l : RingLine := { addr := fld r.base 51 6 * 64 + r.idx / per * 64, words := ws, next := next, sent := false, vt := none }
    { r with buf := [], idx := next, out := r.out ++ [l] }

/-- A ring in which `n` more units fit from the index `w`: it is full when the index after the next unit's equals RDPTR (R135,
R393). -/
def Ring.room (r : Ring) (per w n : Nat) : Bool :=
  (List.range n).all (fun i => (w + i + 1) % (per * fld r.ctl 31 8) != fld r.ptr 63 32)

def addLost (ctl : Word) (n : Nat) : Word := setFld ctl 63 32 (min (fld ctl 63 32 + n) 4294967295)

/-- A ring that records finds no room for `n` 32-bit words (R393, R405). -/
def State.ringFull (s : State) (r : Ring) (unit n : Nat) : Bool :=
  r.ctl.getLsbD 0 && fld r.ctl 31 8 != 0 && s.baseOk (fld r.base 51 6 * 64) && !s.adjourned
    && !(r.room (16 / unit) (r.idx + r.buf.length / unit) (n / unit))

/-- A record of 32-bit words enters a ring (R393, R405), whose time of its last record moves with it: not written when the ring is disabled,
without a frame, adjourned or full, LOST then counting its words (log entry 122). `unit` is the count of words of one unit of the pointer. -/
def State.record1 (s : State) (r : Ring) (unit : Nat) (ws : List (BitVec 32)) : Ring :=
  if r.ctl.getLsbD 0 = false ∨ fld r.ctl 31 8 = 0 then r
  else if s.baseOk (fld r.base 51 6 * 64) = false then { r with ctl := setFld r.ctl 2 2 1 }
  else if s.adjourned then { r with ctl := addLost r.ctl ws.length }
  else if s.ringFull r unit ws.length then { r with ctl := addLost (setFld r.ctl 1 1 1) ws.length }
  else
    let per := 16 / unit
    { r with last := s.pkg.ptime } |> ws.foldl (fun (r : Ring) w =>
      let r := { r with buf := r.buf ++ [w], first := if r.buf.isEmpty then s.pkg.ptime else r.first }
      if 16 ≤ r.buf.length then r.flush per else r)

/-- A full ring sets OVF of its control register in this cycle, which a clear of it keeps (R7). -/
def State.ringOvf (s : State) (core csr : Nat) (full : Bool) : State :=
  if full then s.onCore core (fun c => c.freshen csr s.pkg.ptime (· ||| 2)) else s

/-- A core's notation stream and message log changed: a line that is to be written is sent (NOTATION_LINE_WRITE). -/
def State.setRings (s : State) (core : Nat) (note mlog : Ring) : State :=
  let s := s.onCore core (fun c => { c with dbg := { c.dbg with note := note, mlog := mlog } })
  if (note.out ++ mlog.out).any (fun l => !l.sent) then s.post s.pkg.ptime (.notationLineWrite core) else s

/-- One notation record (R394): cause, and payload words; state changes pass their STATE. -/
def State.note (s : State) (core cause : Nat) (st : Option Nat) (payload : List (BitVec 32)) : State :=
  let c := s.coreOf core
  let d := c.dbg
  if d.note.ctl.getLsbD 0 = false ∨ d.dctl.getLsbD 5 then s
  else
    let stv := st.getD d.noteState
    let delta := min (s.pkg.ptime - d.note.last) 4194303
    let w := BitVec.ofNat 32 (stv + delta * 4 + cause * 16777216)
    (s.setRings core (s.record1 d.note 1 (w :: payload)) d.mlog).ringOvf core 0x80A (s.ringFull d.note 1 (payload.length + 1))

/-- A change of state, slot or wait cause (R395); nothing is recorded when nothing changes. -/
def State.noteChange (s : State) (core st cause : Nat) : State :=
  let d := (s.coreOf core).dbg
  if d.noteState = st ∧ d.noteCause = cause then s
  else
    let s := s.onCore core (fun c => { c with dbg := { c.dbg with noteState := st, noteCause := cause } })
    s.note core cause (some st) []

/-- The STATE that a wait cause implies (R395). -/
def causeState (cause : Nat) : Nat :=
  if cause < 0x10 then 0 else if cause < 0x20 then 1 else if cause < 0x30 then 2 else 3

/-- A TRAP record (R394). -/
def State.noteTrap (s : State) (core : Nat) (i : SlotId) (cause : Nat) : State :=
  let ic := ((s.coreOf core).slot i).icnt.toNat
  s.note core 0x85 none [BitVec.ofNat 32 (cause + i.val * 256 + ic % 65536 * 65536), BitVec.ofNat 32 (ic / 65536)]

/-- A transparent marker (R394): 1 corrected ECC, 2 pre-emption, 3 parked translation reissued. -/
def State.noteTransp (s : State) (core : Nat) (i : SlotId) (kind : Nat) : State :=
  s.note core 0x84 none [BitVec.ofNat 32 (kind + i.val * 256)]

/-- A BRANCH record (R394), when enabled. -/
def State.noteBranch (s : State) (target : Word) (reg : Bool) : State :=
  if s.core.dbg.note.ctl.getLsbD 3 then
    s.note s.cn 0x83 none [BitVec.ofNat 32 (fld target 4 0 + bit01 reg * 32 + fld target 31 6 * 64)]
  else s

/-- An entry of the message log (R405). -/
def State.logMessage (s : State) (core : Nat) (header w0 w1 w3 : Word) : State :=
  let d := (s.coreOf core).dbg
  if d.dctl.getLsbD 5 then s
  else
    let ws := [header, w0, w1, w3].flatMap (fun w => [w.extractLsb' 0 32, w.extractLsb' 32 32])
    (s.setRings core d.note (s.record1 d.mlog 8 ws)).ringOvf core 0x80D (s.ringFull d.mlog 8 ws.length)

/-- A racy window write logged in the owner's race ring (R133 to R135), written at once. -/
def State.logRace (s : State) (core src prev idx : Nat) (vault : Bool) (off len : Nat) : State :=
  let d := (s.coreOf core).dbg
  if !(s.pkgx.enabled.getLsbD 4) then s
  else
    let lo := src + prev * 2048 + idx * 4194304 + bit01 vault * 134217728 + off % 16777216 * 268435456 + (len - 1) * 4503599627370496
    let ws := [BitVec.ofNat 32 lo, BitVec.ofNat 32 (lo / 4294967296), BitVec.ofNat 32 (s.ptimeOf (dieOf core)),
      BitVec.ofNat 32 (s.ptimeOf (dieOf core) / 4294967296)]
    let r := d.race
    if r.ctl.getLsbD 0 = false ∨ fld r.ctl 31 8 = 0 then s
    else if s.baseOk (fld r.base 51 6 * 64) = false then
      s.onCore core (fun c => { c with dbg := { c.dbg with race := { r with ctl := setFld r.ctl 2 2 1 } } })
    else if s.adjourned then
      s.onCore core (fun c => { c with dbg := { c.dbg with race := { r with ctl := addLost r.ctl 1 } } })
    else if !(r.room 4 (fld r.ptr 31 0) 1) then
      (s.onCore core (fun c => { c with dbg := { c.dbg with race := { r with ctl := addLost (setFld r.ctl 1 1 1) 1 } } })).ringOvf core 0x050 true
    else
      let wptr := fld r.ptr 31 0
      let s := s.writePhys (basePlace (fld r.base 51 6 * 64 + wptr * 16)) (ws.flatMap (fun w => toBytes 4 w.toNat))
      let r := { r with ptr := setFld r.ptr 31 0 ((wptr + 1) % (4 * fld r.ctl 31 8)) }
      s.onCore core (fun c => { c with dbg := { c.dbg with race := r } })

/-! ## Counters (R396 to R399) -/

/-- A select register counts an event of this code and owner (R396). -/
def selCounts (sel : Word) (code vfn : Nat) : Bool :=
  sel.getLsbD 18 && fld sel 9 0 == code && code != 0 && (!(sel.getLsbD 16) || fld sel 15 10 == vfn)

/-- Whether the counter wraps at its next event. -/
def ctrFull (v : Word) : Bool := fld v 47 0 == 281474976710655
def ctrNext (v : Word) : Word := BitVec.ofNat 64 ((fld v 47 0 + 1) % 281474976710656)

/-- The mark of this cycle of counter `i` of a bank (R399). -/
def State.ctrMark (s : State) (scope place i : Nat) : Option CtrMark :=
  s.pkg.marks.find? (fun m => m.scope == scope && m.place == place && m.idx == i)
def State.setMark (s : State) (m : CtrMark) : State :=
  let rest := s.pkg.marks.filter (fun x => !(x.scope == m.scope && x.place == m.place && x.idx == m.idx))
  { s with pkg := { s.pkg with marks := rest ++ [m] } }

/-- The select by which an event of this cycle is counted: one written in it takes effect with the next (R399). -/
def State.ctrSel (s : State) (scope place i : Nat) (sel : Word) : Word :=
  match s.ctrMark scope place i with
  | some m => m.sel
  | none => sel

/-- One event counted in a bank of counters (R396, R399): new values, new selects, the counters that wrapped. A value written in
this cycle stands. -/
def State.countBank {n : Nat} (s : State) (scope place : Nat) (vals sels : Vector Word n) (code vfn : Nat) :
    Vector Word n × Vector Word n × List (Fin n) :=
  (List.finRange n).foldl (fun (a : Vector Word n × Vector Word n × List (Fin n)) (i : Fin n) =>
    if selCounts (s.ctrSel scope place i.val sels[i]) code vfn && !(s.ctrMark scope place i.val).any (·.wrote) then
      (a.1.set i (ctrNext vals[i]), if ctrFull vals[i] then a.2.1.set i (setFld sels[i] 17 17 1) else a.2.1,
        if ctrFull vals[i] then a.2.2 ++ [i] else a.2.2)
    else a) (vals, sels, [])

/-- The counters that have wrapped are marked; their OVFL records, the last of a cycle (R395), follow when it ends. -/
def State.wrapped {n : Nat} (s : State) (scope place core : Nat) (sels : Vector Word n) (l : List (Fin n)) : State :=
  l.foldl (fun (s : State) (i : Fin n) =>
    let sel := s.ctrSel scope place i.val sels[i]
    s.setMark { scope := scope, place := place, core := core, idx := i.val, sel := sel, wrapped := true, wrote := false }) s

/-- The bank may count an event of this code. -/
def State.bankCounts {n : Nat} (s : State) (scope place : Nat) (sels : Vector Word n) (code vfn : Nat) : Bool :=
  (List.finRange n).any (fun i => selCounts (s.ctrSel scope place i.val sels[i]) code vfn)

/-- An event counted by the counters of a core, not while adjourned (R397, R400). -/
def State.countCore (s : State) (core code vfn : Nat) : State :=
  let d := (s.coreOf core).dbg
  if s.adjourned ∨ !s.bankCounts 0 core d.pms code vfn then s
  else
    let (v, l, w) := s.countBank 0 core d.pmc d.pms code vfn
    (s.wrapped 0 core core d.pms w).onCore core (fun c => { c with dbg := { c.dbg with pmc := v, pms := l } })

/-- An event counted by the counters of a cluster, not while adjourned; an overflow is recorded by the core it belongs to. -/
def State.countCluster (s : State) (cl core code vfn : Nat) : State :=
  let k := s.cluster cl
  if s.adjourned ∨ !s.bankCounts 1 cl k.cps code vfn then s
  else
    let (v, l, w) := s.countBank 1 cl k.cpc k.cps code vfn
    (s.wrapped 1 cl core k.cps w).onCluster cl (fun k => { k with cpc := v, cps := l })

/-- An event counted by the fabric counters of a die, which are never adjourned. -/
def State.countDie (s : State) (die code vfn : Nat) : State :=
  let d := s.die die
  if s.bankCounts 2 die d.fps code vfn then
    let (v, l, w) := s.countBank 2 die d.fpc d.fps code vfn
    (s.wrapped 2 die 0 d.fps w).onDie die (fun d => { d with fpc := v, fps := l })
  else s

/-- A fabric counter advances by `n` events at once (R396, R399). -/
def State.advanceFabric (s : State) (die : Nat) (i : Fin 16) (n : Nat) : State :=
  if (s.ctrMark 2 die i.val).any (·.wrote) then s
  else
    let d := s.die die
    let v := fld d.fpc[i] 47 0 + n
    let full : Bool := decide (2 ^ 48 ≤ v)
    (s.wrapped 2 die 0 d.fps (if full then [i] else [])).onDie die (fun d => { d with
      fpc := d.fpc.set i (natWord (v % 2 ^ 48)), fps := if full then d.fps.set i (setFld d.fps[i] 17 17 1) else d.fps })

/-- Link retries of a die counted with tag 0 (R397). -/
def State.countRetries (s : State) (die n : Nat) : State :=
  (List.finRange 16).foldl (fun s i =>
    if selCounts (s.ctrSel 2 die i.val (s.die die).fps[i]) 0x021 0 then s.advanceFabric die i n else s) s

/-- The flits, link retries and router merges of a cycle on a die (R68, R397, R412): how many there are depends on the fabric's timing,
which the spec does not give; each counter that selects them advances by a free value (log entry 87). -/
def State.countFabric (s : State) (die : Nat) : State :=
  (List.finRange 16).foldl (fun s i =>
    let sel := s.ctrSel 2 die i.val (s.die die).fps[i]
    if sel.getLsbD 18 && decide (0x020 ≤ fld sel 9 0 ∧ fld sel 9 0 ≤ 0x022) && !(fld sel 9 0 == 0x021 && sel.getLsbD 16 && fld sel 15 10 != 0) then
      let (x, s) := s.drawFree
      s.advanceFabric die i (x.toNat % 65536)
    else s) s

/-- A cycle ends: the OVFL records of the core and cluster counters that wrapped in it are written, and no counter is marked any
more (R394, R399). -/
def State.settleCounters (s : State) : State :=
  if s.pkg.marks.isEmpty then s
  else
    let s := s.pkg.marks.foldl (fun (s : State) (m : CtrMark) =>
      if m.wrapped ∧ m.scope < 2 then s.note m.core 0x86 none [BitVec.ofNat 32 (m.idx + 8 * m.scope)] else s) s
    { s with pkg := { s.pkg with marks := [] } }

/-- An event other than a cycle counted in the scope of its code (R397). -/
def State.count (s : State) (core code vfn : Nat) : State :=
  if code ≤ 8 then s.countCore core code vfn
  else if code ≤ 0x16 then s.countCluster (clusterOf core) core code vfn
  else s.countDie (dieOf core) code vfn

/-! ## Adjournment (R400 to R402) -/

/-- The line buffers of a core's notation stream and message log are written (R393, R400). -/
def State.flushBuffers (s : State) (core : Nat) : State :=
  let d := (s.coreOf core).dbg
  s.setRings core (d.note.flush 16) (d.mlog.flush 2)

/-- Every core that has left its reset state. -/
def State.cores (s : State) : List Nat := s.cn :: s.others.map (·.1)

/-- The recorders adjourn for the cause with bit `why` of adjctl.WHY (R400, R401): 1 to 4 when enabled by TEN, 5 always. -/
def State.adjourn (s : State) (why : Nat) : State :=
  if why = 5 ∨ s.pkg.adjctl.getLsbD (5 + why) then
    let first := !s.adj
    let a := s.pkg.adjctl ||| 1 ||| (1 <<< why : Word)
    let s := { s with pkg := { s.pkg with
      adjctl := a, adjAt := if first then s.pkg.ptime else s.pkg.adjAt, adjNow := s.pkg.adjNow ||| 2 ^ why } }
    if first then s.score 0x08 0 0 (BitVec.ofNat 64 (fld a 5 1)) 0 else s
  else s

/-- The cycle in which the recorders have adjourned ends: streams and logs write their line buffers (R400). -/
def State.settleAdjourn (s : State) : State :=
  let s := if s.adj ∧ s.pkg.adjAt = s.pkg.ptime then s.cores.foldl (fun s c => s.flushBuffers c) s else s
  { s with pkg := { s.pkg with adjNow := 0 } }

/-- The record that opens an enabled stream after arming and re-arming (R394). -/
def State.noteSync (s : State) (core : Nat) : State :=
  let t := s.ptimeOf (dieOf core)
  s.note core 0x80 none [BitVec.ofNat 32 t, BitVec.ofNat 32 (t / 4294967296)]

/-- Re-arming (R402): ADJ, WHY and SEEN are cleared and every enabled stream writes a SYNC record. A trigger of the same cycle is
applied after it. -/
def State.rearm (s : State) : State :=
  if s.adj ∧ s.pkg.adjctl.getLsbD 10 then
    let now := s.pkg.adjNow
    let s := { s with pkg := { s.pkg with adjctl := setFld (setFld s.pkg.adjctl 5 0 0) 10 10 0 } }
    let s := s.score 0x09 0 0 0 0
    let s := s.cores.foldl (fun s c => s.noteSync c) s
    ((upto 1 5).filter (fun i => now.testBit i)).foldl (fun s i => s.adjourn i) s
  else s

end Sys2Proof.Machine
end

