-- ==== Sys2Proof/Machine/Ops.lean ====
section
/-! DEFINITION. The named operations: registers with their live masks, scratchpad bytes, workspace images and residency
(spec/06), TAKING A TRAP and returning (spec/08 R206 to R216), waiting, and retiring an instruction. -/
namespace Sys2Proof.Machine

/-! ## Registers (R158, R164) -/

def Ws.getS (w : Ws) (r : SReg) : Word := if r = 0 ∨ w.liveS[r] = false then 0 else w.s[r]
/-- A write makes the register live; a write to s0 is discarded (R158, R164). -/
def Ws.setS (w : Ws) (r : SReg) (x : Word) : Ws :=
  if r = 0 then w else { w with s := w.s.set r x, liveS := w.liveS ||| BitVec.twoPow 32 r.val }
def Ws.killS (w : Ws) (r : SReg) : Ws := { w with liveS := w.liveS &&& ~~~(BitVec.twoPow 32 r.val) }

def Ws.getV (w : Ws) (r : VReg) : VWord := if w.liveV[r] then w.v[r] else 0
def Ws.setV (w : Ws) (r : VReg) (x : VWord) : Ws := { w with v := w.v.set r x, liveV := w.liveV ||| BitVec.twoPow 32 r.val }
def Ws.killV (w : Ws) (r : VReg) : Ws := { w with liveV := w.liveV &&& ~~~(BitVec.twoPow 32 r.val) }

def Ws.getM (w : Ws) (r : MReg) : MWord := if w.liveM[r] then w.m[r] else 0
def Ws.setM (w : Ws) (r : MReg) (x : MWord) : Ws := { w with m := w.m.set r x, liveM := w.liveM ||| BitVec.twoPow 16 r.val }
def Ws.killM (w : Ws) (r : MReg) : Ws := { w with liveM := w.liveM &&& ~~~(BitVec.twoPow 16 r.val) }

/-- A dead `c` register reads as an untagged zero capability (R245). -/
def Ws.getC (w : Ws) (r : CReg) : Cap := if w.liveC[r] then w.c[r] else Cap.zero
def Ws.setC (w : Ws) (r : CReg) (x : Cap) : Ws := { w with c := w.c.set r x, liveC := w.liveC ||| BitVec.twoPow 8 r.val }
def Ws.killC (w : Ws) (r : CReg) : Ws := { w with liveC := w.liveC &&& ~~~(BitVec.twoPow 8 r.val) }

def Ws.getK (w : Ws) (r : KReg) : KWord := if w.liveK[r] then w.k[r] else 0
def Ws.setK (w : Ws) (r : KReg) (x : KWord) : Ws := { w with k := w.k.set r x, liveK := w.liveK ||| BitVec.twoPow 4 r.val }
def Ws.killK (w : Ws) (r : KReg) : Ws := { w with liveK := w.liveK &&& ~~~(BitVec.twoPow 4 r.val) }

/-! ## The status word (R160) and the address space (R12) -/

def Ws.sup (w : Ws) : Bool := w.tsw.getLsbD 0
def Ws.booked (w : Ws) : Bool := w.tsw.getLsbD 1
def Ws.ap (w : Ws) : Bool := w.tsw.getLsbD 2
def Ws.ie (w : Ws) : Bool := w.tsw.getLsbD 4
def Ws.vfn (w : Ws) : Nat := fld w.atp 5 0
def State.sup (s : State) : Bool := s.ws.sup
def State.booked (s : State) : Bool := s.ws.booked
def State.vfn (s : State) : Nat := s.ws.vfn
/-- A supervisor context with VFN 0. -/
def State.root (s : State) : Bool := s.sup && s.vfn == 0

def Ws.setTsw (w : Ws) (hi lo x : Nat) : Ws := { w with tsw := setFld w.tsw hi lo x }

/-! ## Scratchpad bytes (R21, R26, R163) -/

/-- The bit of the image-store mask for a byte of a workspace image (R158, R163). -/
def imageBit (o : Nat) : Nat :=
  if o < 256 then o / 8
  else if o < 4352 then 32 + (o - 256) / 128
  else if o < 8448 then 64 + (o - 4352) / 256
  else if o < 8576 then 80 + (o - 8448) / 16
  else if o < 8640 then 88 + (o - 8576) / 16
  else if o < 8704 then 92 + (o - 8640) / 8
  else 100 + (o - 8704) / 64

/-- The bits that a store of `n` bytes at `ofs` sets for a workspace at `wp`. -/
def maskBits (wp ofs n : Nat) : BitVec 108 :=
  (upto ofs n).foldl (fun m o => if wp ≤ o ∧ o < wp + 9216 then m ||| BitVec.twoPow 108 (imageBit (o - wp)) else m) 0

def Core.padRead (c : Core) (ofs n : Nat) : List Byte := readLocs c.pad (upto ofs n)
def Core.padNat (c : Core) (ofs n : Nat) : Nat := ofBytes (c.padRead ofs n)

/-- Bytes written to the scratchpad: the tags of the granules go (R26). -/
def Core.padWrite (c : Core) (ofs : Nat) (bs : List Byte) : Core :=
  { c with
    pad := writeLocs c.pad (upto ofs bs.length) bs,
    padTags := (upto ofs bs.length).foldl (fun t o => setDel t (o / 16)) c.padTags,
    padBad := c.padBad.filter (fun w => !(decide (ofs ≤ 8 * w) && decide (8 * w + 8 ≤ ofs + bs.length))) }
/-- A word with an uncorrected error lies in a range of the scratchpad (R49): its first byte there. -/
def Core.padFault (c : Core) (ofs n : Nat) : Option Nat := (upto ofs n).find? (fun o => setHas c.padBad (o / 8))

def Core.padSetTag (c : Core) (ofs : Nat) (t : Bool) : Core :=
  { c with padTags := if t then setAdd c.padTags (ofs / 16) else setDel c.padTags (ofs / 16) }

/-- A local store into a resident workspace's image sets its image-store mask bits (R163). -/
def Core.markImages (c : Core) (ofs n : Nat) : Core :=
  { c with
    res := { c.res with mask := c.res.mask ||| maskBits c.res.wp ofs n },
    alt := c.alt.map (fun a => { a with mask := a.mask ||| maskBits a.wp ofs n }) }

/-! ## Workspace images (R158, R159, R161 to R163, R325) -/

/-- The mode word (R159), for which a VL field above 128 counts as 128 and an RM code of 5 to 7 is kept and rounds as RNE (log
entry 92). -/
def Ws.mode (w : Ws) : Nat := w.fcsr.toNat + w.vl.toNat * 65536 + w.mcr.toNat * 4294967296
def Ws.setMode (w : Ws) (x : Nat) : Ws :=
  { w with fcsr := BitVec.ofNat 14 x, vl := BitVec.ofNat 8 (min (x / 65536 % 256) 128), mcr := BitVec.ofNat 16 (x / 4294967296 % 16) }
def Ws.word5 (w : Ws) : Nat := w.liveS.toNat + w.liveV.toNat * 4294967296
def Ws.word6 (w : Ws) : Nat := w.liveM.toNat + w.liveC.toNat * 65536 + w.liveK.toNat * 16777216

/-- Descriptor fields (R318). -/
def Stream.dir (q : Stream) : Bool := q.w0.getLsbD 0
def Stream.isLocal (q : Stream) : Bool := q.w0.getLsbD 1
def Stream.eb (q : Stream) : Nat := 2 ^ fld q.w0 4 2
def Stream.total (q : Stream) : Nat := fld q.w2 15 0 * fld q.w2 31 16 * fld q.w2 47 32

/-- The checks of R319 on a descriptor. -/
def streamOk (w0 w1 w2 _w3 : Word) : Bool :=
  fld w0 15 5 == 0 && fld w0 63 32 == 0 && (!(w0.getLsbD 1) || fld w1 63 18 == 0)
  && fld w2 63 48 == 0 && fld w2 15 0 != 0 && fld w2 31 16 != 0 && fld w2 47 32 != 0

/-- Bits [5:0] of the status word (R324). A store stream that drains and is bound no longer shows DRAIN with DIR and LOCAL 0, which the spec
leaves open (log entry 117). -/
def Stream.status (q : Stream) : Nat :=
  bit01 q.bound + bit01 (q.bound && q.dir) * 2 + bit01 (q.bound && q.isLocal) * 4
  + bit01 (match q.queue with
      | e :: _ => e.cause != 0
      | [] => false) * 8
  + bit01 q.parked * 16 + bit01 (q.dir && !q.queue.isEmpty) * 32

def signed (w x : Nat) : Int := if x < 2 ^ (w - 1) then Int.ofNat x else Int.ofNat x - Int.ofNat (2 ^ w)

/-- The address of element j (R318). -/
def Stream.addr (q : Stream) (j : Nat) : Word :=
  let n0 := fld q.w2 15 0
  let n1 := fld q.w2 31 16
  let i0 := j % n0
  let i1 := j / n0 % n1
  let i2 := j / (n0 * n1)
  BitVec.ofInt 64 (Int.ofNat q.w1.toNat + Int.ofNat i0 * signed 16 (fld q.w0 31 16)
    + Int.ofNat i1 * signed 32 (fld q.w3 31 0) + Int.ofNat i2 * signed 32 (fld q.w3 63 32))

/-- A stream's 64-byte state in the image; an unbound stream's status word is zero (log entry 21). -/
def Stream.image (q : Stream) : List Byte :=
  toBytes 8 q.w0.toNat ++ toBytes 8 q.w1.toNat ++ toBytes 8 q.w2.toNat ++ toBytes 8 q.w3.toNat
    ++ toBytes 8 q.pos ++ toBytes 8 q.status ++ toBytes 16 0

/-- The state of a stream read from its image: a bound load stream restarts at POS, one of which nothing has been taken with
the wait of its first fetch (R320); one whose checks fail is unbound (R162, R319, R325). -/
def Core.loadStream (c : Core) (wp : Nat) (booked : Bool) (n : Nat) : Stream :=
  let a := wp + 8704 + 64 * n
  let w := fun i => BitVec.ofNat 64 (c.padNat (a + 8 * i) 8)
  let pos := (w 4).toNat
  if (w 5).getLsbD 0 ∧ streamOk (w 0) (w 1) (w 2) (w 3) ∧ (booked = false ∨ (w 0).getLsbD 1) then
    { bound := true, w0 := w 0, w1 := w 1, w2 := w 2, w3 := w 3, pos := pos, done := pos, queue := [], parked := false,
      after := pos == 0, pend := 0, vt := 0, touched := false }
  else Stream.unbound

/-- What a status word takes from an image: S, AP, IE and CAUSE. B, FW, PK and CTX are the hardware's, the rest is reserved
(R8, R160). -/
def tswImage : Word := 0xFF15
/-- The fields of `atp`; its reserved bits read zero (R8, R12). -/
def atpImage : Word := 0x80FFFFFFFFFF003F

/-- One register or control word of a workspace read from its image, by its mask bit; `booked` says whether a booked task
takes it. -/
def Core.loadPart (c : Core) (wp : Nat) (booked : Bool) (w : Ws) (i : Nat) : Ws :=
  if i < 32 then w.setS (fin32 i) (BitVec.ofNat 64 (c.padNat (wp + 8 * i) 8))
  else if i < 64 then w.setV (fin32 (i - 32)) (BitVec.ofNat 1024 (c.padNat (wp + 256 + 128 * (i - 32)) 128))
  else if i < 80 then w.setM (fin16 (i - 64)) (BitVec.ofNat 2048 (c.padNat (wp + 4352 + 256 * (i - 64)) 256))
  else if i < 88 then
    let a := wp + 8448 + 16 * (i - 80)
    w.setC (fin8 (i - 80)) { val := BitVec.ofNat 128 (c.padNat a 16), tag := setHas c.padTags (a / 16) }
  else if i < 92 then w.setK (fin4 (i - 88)) (BitVec.ofNat 128 (c.padNat (wp + 8576 + 16 * (i - 88)) 16))
  else if i < 100 then
    let x := c.padNat (wp + 8640 + 8 * (i - 92)) 8
    match i - 92 with
    | 0 => { w with pc := BitVec.ofNat 64 x }
    | 1 => { w with tsw := BitVec.ofNat 64 x &&& tswImage }
    | 2 => { w with atp := BitVec.ofNat 64 x &&& atpImage }
    | 3 => w.setMode x
    | 4 => { w with cvm := BitVec.ofNat 64 x }
    | 5 => { w with liveS := BitVec.ofNat 32 (x / 2 * 2), liveV := BitVec.ofNat 32 (x / 4294967296) }
    | 6 => { w with liveM := BitVec.ofNat 16 x, liveC := BitVec.ofNat 8 (x / 65536), liveK := BitVec.ofNat 4 (x / 16777216) }
    | _ => { w with prog := BitVec.ofNat 64 (x % 512) }
  else { w with q := w.q.set (fin8 (i - 100)) (c.loadStream wp booked (i - 100)) }

/-- The mask bits of the live registers of a workspace. -/
def Ws.liveParts (w : Ws) : List Nat :=
  (List.range 108).filter (fun i =>
    if i < 32 then w.liveS.getLsbD i else if i < 64 then w.liveV.getLsbD (i - 32)
    else if i < 80 then w.liveM.getLsbD (i - 64) else if i < 88 then w.liveC.getLsbD (i - 80)
    else if i < 92 then w.liveK.getLsbD (i - 88) else false)

/-- A workspace read whole from its image, as its live masks name it (R161, R164). -/
def Core.loadWs (c : Core) (wp : Nat) (booked : Bool) : Ws :=
  let w := (upto 92 16).foldl (fun w i => c.loadPart wp booked w i) Ws.reset
  w.liveParts.foldl (fun w i => c.loadPart wp booked w i) w

/-- The bytes of a register or control word as its image holds them. -/
def Ws.partBytes (w : Ws) (i : Nat) : List Byte :=
  if i < 32 then toBytes 8 (w.getS (fin32 i)).toNat
  else if i < 64 then toBytes 128 (w.getV (fin32 (i - 32))).toNat
  else if i < 80 then toBytes 256 (w.getM (fin16 (i - 64))).toNat
  else if i < 88 then toBytes 16 (w.getC (fin8 (i - 80))).val.toNat
  else if i < 92 then toBytes 16 (w.getK (fin4 (i - 88))).toNat
  else if i < 100 then toBytes 8 (match i - 92 with
    | 0 => w.pc.toNat | 1 => w.tsw.toNat | 2 => w.atp.toNat | 3 => w.mode
    | 4 => w.cvm.toNat | 5 => w.word5 | 6 => w.word6 | _ => w.prog.toNat)
  else (w.q[fin8 (i - 100)]).image

/-- The offset of a part in a workspace. -/
def partOffset (i : Nat) : Nat :=
  if i < 32 then 8 * i else if i < 64 then 256 + 128 * (i - 32) else if i < 80 then 4352 + 256 * (i - 64)
  else if i < 88 then 8448 + 16 * (i - 80) else if i < 92 then 8576 + 16 * (i - 88)
  else if i < 100 then 8640 + 8 * (i - 92) else 8704 + 64 * (i - 100)

/-- One part written to its image; a `c` register carries its tag. -/
def Core.savePart (c : Core) (wp : Nat) (w : Ws) (i : Nat) : Core :=
  let c := c.padWrite (wp + partOffset i) (w.partBytes i)
  if 80 ≤ i ∧ i < 88 then c.padSetTag (wp + partOffset i) (w.getC (fin8 (i - 80))).tag else c

/-- The streams whose states a write-back writes: the bound ones (R161), and one that is bound no longer while its image still
says so (log entry 21). -/
def Core.streamParts (c : Core) (r : Resident) : List Nat :=
  ((List.finRange 8).filter (fun n => r.ws.q[n].bound || (c.padNat (r.wp + 8744 + 64 * n.val) 1) % 2 == 1)).map (100 + ·.val)

/-- R161, R163: live registers, the control block and the bound streams are written back, but for what a local store has
written to the image; the live bits of those registers are set in the image. -/
def Core.saveWs (c : Core) (r : Resident) : Core :=
  if r.wp = vacantWp then c
  else
  let parts := (r.ws.liveParts ++ upto 92 8 ++ c.streamParts r).filter (fun i => !(r.mask.getLsbD i))
  let c := parts.foldl (fun c i => c.savePart r.wp r.ws i) c
  let m5 := r.mask.toNat % 2 ^ 64 / 2 * 2
  let m6 := r.mask.toNat / 2 ^ 64 % 2 ^ 28
  let or1 := fun (c : Core) (o x : Nat) =>
    if x = 0 then c else c.padWrite o (toBytes 8 (c.padNat o 8 ||| x))
  or1 (or1 c (r.wp + 8680) m5) (r.wp + 8688) m6

/-- A store stream that still holds elements to write, or has writes not yet acknowledged. -/
def Stream.draining (q : Stream) : Bool := q.dir && (!q.queue.isEmpty || q.pend != 0)

/-- The store streams of a workspace that leaves residency drain before their states are written (R162). -/
def Resident.drains (r : Resident) : List Drain :=
  (List.finRange 8).filterMap (fun n =>
    let q := r.ws.q[n]
    if q.draining then
      some { wp := r.wp, n := n, slot := fin4 (fld r.ws.tsw 17 16), atp := r.ws.atp, user := !r.ws.sup,
             save := !(r.mask.getLsbD (100 + n.val)), st := q }
    else none)

/-- A workspace leaves residency (R161, R162): the state of a store stream that drains is not written yet. -/
def Core.evict (c : Core) (r : Resident) : Core :=
  let later := (List.finRange 8).filter (fun n => r.ws.q[n].draining)
  let quiet : Resident := { r with
    ws := { r.ws with q := r.ws.q.map (fun q => if q.draining then Stream.unbound else q) },
    mask := later.foldl (fun m n => m ||| BitVec.twoPow 108 (100 + n.val)) r.mask }
  { (c.saveWs quiet) with drains := c.drains ++ r.drains }

/-- The bytes of a part of a workspace. -/
def partLength (i : Nat) : Nat :=
  if i < 32 then 8 else if i < 64 then 128 else if i < 80 then 256 else if i < 92 then 16 else if i < 100 then 8 else 64

/-- The current context consumes the parts of an image that are read (R49, R208): ECC is pending when one holds a word with an
uncorrected error. -/
def Core.consumeParts (c : Core) (wp : Nat) (pc : Word) (parts : List Nat) : Core :=
  match parts.findSome? (fun i => c.padFault (wp + partOffset i) (partLength i)) with
  | none => c
  | some o => c.onSx c.cur (fun x => { x with ecc := match x.ecc with
    | some f => some { f with count := f.count + 1 }
    | none => some { cause := 0x1B, reason := 0, addr := BitVec.ofNat 64 o, detail := 0, pc := pc, count := 0 } })

/-- A workspace becomes resident: read from its image, with the streams that still drain. -/
def Core.enter (c : Core) (wp : Nat) (booked : Bool) : Core :=
  let c := if c.padBad.isEmpty then c else
    let w := c.loadWs wp booked
    c.consumeParts wp w.pc (upto 92 16 ++ w.liveParts)
  let w := (c.drains.filter (fun d => d.wp == wp)).foldl (fun (w : Ws) d => { w with q := w.q.set d.n d.st }) (c.loadWs wp booked)
  { c with alt := some c.res, res := { wp := wp, ws := w, mask := 0 }, drains := c.drains.filter (fun d => d.wp != wp) }

/-- A resident workspace is the one at `wp` that the current slot runs: where two slots run one workspace each has a copy of its own
(R383). -/
def Core.holds (c : Core) (r : Resident) (wp : Nat) : Bool :=
  let k := fin4 (fld r.ws.tsw 17 16)
  r.wp == wp && (k == c.cur || (c.slot k).st == .free || (c.slot k).wp != wp)

/-- The workspace at `wp` is made the running one (R161), for a booked task or a free one: the other resident one is kept, the
least recently run one is evicted. -/
def Core.bringIn (c : Core) (wp : Nat) (booked : Bool) : Core :=
  if c.holds c.res wp then c
  else
    match c.alt with
    | some a => if c.holds a wp then { c with res := a, alt := some c.res } else (c.evict a).enter wp booked
    | none => c.enter wp booked

/-- The load streams of the running workspace fetch again (R162). -/
def State.refetchStreams (s : State) (n : Nat) : State :=
  (List.finRange 8).foldl (fun s i =>
    let q := (s.coreOf n).res.ws.q[i]
    if q.bound && !q.dir && q.queue.isEmpty then s.postOnce (.streamFetch n i) else s) s

/-- Parts of the running workspace read again from its image: the given ones, and those a local store has written
(R163, R214, R216). -/
def Core.reload (c : Core) (always : List Nat) : Core :=
  let m := c.res.mask
  let b := (c.sx c.cur).task.booked
  let parts := (upto 92 16).filter (fun i => m.getLsbD i || always.any (· == i)) ++ (upto 0 92).filter (fun i => m.getLsbD i)
  let w := parts.foldl (fun w i => c.loadPart c.res.wp b w i) c.res.ws
  let c := if c.padBad.isEmpty then c else c.consumeParts c.res.wp w.pc parts
  { c with res := { c.res with ws := w, mask := 0 } }

/-- The running workspace's image is refreshed while it stays resident: what a local store has written to it takes effect
at the next reload (R163). -/
def Core.writeBack (c : Core) : Core := c.saveWs c.res

/-- A workspace pointer that R22 allows. -/
def wpOk (x : Nat) : Bool := x % 64 == 0 && decide (x ≤ 187392)

/-- `wsw` and `sret` (R214, R216): write back, switch to `wp`, reload; every control word of a workspace that was not
resident, and words 0, 1, 3 and 7 of one that was (log entry 9); `tsw.B` follows the slot's task (log entry 27), and the
context follows no leader (R175). -/
def Core.switchTo (c : Core) (wp : Nat) : Core :=
  let i := c.cur
  let c := c.writeBack
  let c := (c.bringIn wp (c.sx i).task.booked).reload [92, 93, 95, 99]
  { c with
    res := { c.res with ws := ((c.res.ws.setTsw 17 16 i.val).setTsw 1 1 (bit01 (c.sx i).task.booked)).setTsw 3 3 0 },
    slots := c.slots.set i { c.slots[i] with wp := wp, line := LineBuf.empty } }

/-! ## Outcomes of an instruction before it retires -/

/-- An instruction that does not retire: a next state (a trap taken, a context that waits) or a fault. -/
inductive Stop where
  | st (s : State)
  | fault (f : Fault)

/-- A computation that may end the instruction. -/
abbrev M (α : Type) := Except Stop α

/-- The outcome of a meaning. -/
def finish (x : M State) : Host.Outcome State Fault Refusal :=
  match x with
  | .ok s => .next s
  | .error (.st s) => .next s
  | .error (.fault f) => .fault f

/-! ## The program counter (R224) -/

/-- The number of heads of the line being executed. -/
def LineBuf.heads (l : LineBuf) : Nat := (l.hw.getD 0 0).toNat / 2048
/-- The tail lengths of heads 1 to n of a line. -/
def LineBuf.tails (l : LineBuf) (n : Nat) : Nat :=
  ((List.range n).map (fun i => tailLen ((l.hw.getD (i + 1) 0).toNat / 256 % 4))).sum
/-- Head `h` of a line and its tail halfwords (R222). -/
def LineBuf.head (l : LineBuf) (h : Nat) : Half := l.hw.getD h 0
def LineBuf.tail (l : LineBuf) (h : Nat) : List Half :=
  let p := l.tails h
  (upto (32 - p) (tailLen ((l.head h).toNat / 256 % 4))).map (fun j => l.hw.getD j 0)

/-- The pc of the next instruction: the next head of the line, or head 1 at line address + 64 (R224, R257); past the last line
that address is not canonical, and its fetch traps (R11). -/
def State.nextPc (s : State) : Word :=
  let pc := s.ws.pc
  let h := fld pc 4 0
  if h < s.slot.line.heads then pc + 1
  else BitVec.ofNat 64 (pc.toNat / 64 * 64 + 64 + 1)

/-! ## Stopping a core (R390) -/

/-- The core stops: both resident workspaces are written back, every slot enters STOP and keeps the state it left; an
instruction that waits is abandoned. -/
def State.stopCore (s : State) (n hcause : Nat) : State :=
  let s := s.onCore n (fun c =>
    let c := (match c.alt with
      | some a => c.saveWs a
      | none => c).writeBack
    let ds := setFld (setFld (setFld (setFld c.dbg.dstat 0 0 1) 1 1 0) 3 2 c.cur.val) 7 4 hcause
    { c with
      slots := c.slots.map (fun x => if x.st = .stop then x else { x with
        prev := x.st,
        st := .stop }),
      slotx := c.slotx.map (fun x => { x with waitBar := none, timeout := none }),
      dbg := { c.dbg with dstat := ds } })
  (s.noteChange n 3 0x31).flushBuffers n

/-- A divergence of a replay (R407, R408). -/
def State.diverge (s : State) (n : Nat) (i : SlotId) (kind want got : Nat) : State :=
  let ic := ((s.coreOf n).slot i).icnt.toNat
  let s := s.onCore n (fun c => { c with dbg := { c.dbg with
    dvrep := BitVec.ofNat 64 (kind + i.val * 16 + want * 256 + got * 65536),
    dvpos := BitVec.ofNat 64 ic } })
  s.stopCore n 3

/-! ## Taking a trap (R206, R210, R213) -/

/-- A trap: cause, reason, address, detail, whether the saved pc is the next instruction, and the fields that only some
causes use. -/
structure Trap where
  cause : Nat
  reason : Nat
  addr : Word
  detail : Word
  next : Bool
  imp : Bool
  count : Nat
  fpc : Option Word
  fins : Word
  fins1 : Word
deriving DecidableEq, Repr

/-- A precise trap with the saved pc at the instruction. -/
def Trap.mk0 (cause reason : Nat) (addr detail : Word) : Trap :=
  { cause, reason, addr, detail, next := false, imp := false, count := 0, fpc := none, fins := 0, fins1 := 0 }

/-- FW of a core's running workspace is cleared (R175). -/
def State.unfollow (s : State) (n : Nat) : State :=
  s.onCore n (fun c => { c.onWs (fun w => w.setTsw 3 3 0) with trail := [], lead := [] })
/-- A trap in the leader core, or a switch on it, ends following in its cluster (R175). -/
def State.unfollowers (s : State) (n : Nat) : State :=
  if localOf n = 0 then
    (s.cores.filter (fun c => clusterOf c == clusterOf n && c != n)).foldl (fun s c => s.unfollow c) (s.onCore n (fun c => { c with trail := [] }))
  else s

/-- A trap that cannot be taken (R213): the unit fails with the cause as its code, recorded in the scoresheet. -/
def State.doubleTrap (s : State) (cause : Nat) (fpc : Word) : State :=
  let s := (s.score 0x05 s.cn s.vfn (BitVec.ofNat 64 cause) fpc).unfollowers s.cn
  s.endTask (some cause)

/-- The trapped workspace's words 0, 1, 3 and 7 written to its image (R213). -/
def Core.saveTrapped (c : Core) : Core :=
  [92, 93, 95, 99].foldl (fun c i => c.savePart c.res.wp c.res.ws i) c

/-- Trap entry (R213): the fault record, the trapped context's words, the switch to the handler workspace. -/
def State.enterTrap (s : State) (t : Trap) : State :=
  let i := s.core.cur
  let sl := s.slot
  let pc := s.ws.pc
  let fpc := t.fpc.getD pc
  let hwp := fld sl.tctl 17 0
  if sl.tctl.getLsbD 33 = false ∨ sl.tctl.getLsbD 32 ∨ hwp = sl.wp then s.doubleTrap t.cause fpc
  else
    let savedPc := if t.next then s.nextPc else pc
    let fr : FaultRec :=
      { fcause := BitVec.ofNat 64 (t.cause + t.reason * 256 + bit01 t.imp * 65536 + bit01 s.booked * 131072
          + min t.count 255 * 262144),
        faddr := t.addr, fdetail := t.detail, fpc := fpc, fins := t.fins, fins1 := t.fins1, fwp := BitVec.ofNat 64 sl.wp }
    let saved := ((s.ws.setTsw 3 3 0).setTsw 15 8 t.cause)
    let c := (s.core.onWs (fun w => { w with pc := savedPc, tsw := saved.tsw })).saveTrapped
    let c := (c.bringIn hwp s.booked).reload [94, 95, 96, 97, 98]
    let tsw := setFld (setFld (setFld (setFld saved.tsw 0 0 1) 4 4 0) 2 2 0) 15 8 t.cause
    let c := c.onWs (fun w => { w with pc := BitVec.ofNat 64 (fld sl.tvec 54 6 * 64 + 1), tsw := tsw, prog := 0 })
    let c := c.onSlot i (fun x => { x with
      fault := fr,
      tctl := setFld x.tctl 32 32 1,
      wp := hwp,
      line := LineBuf.empty,
      st := .run })
    let c := c.onSx i (fun x => { x with
      waitCause := 0, waitBar := none, timeout := none, touched := false, asking := false, walkFault := none, hostMark := none,
      task := { x.task with nest := x.task.nest + 1 } })
    let s := ({ s with core := c } : State).refetchStreams s.cn
    let s := (s.unfollowers s.cn).noteTrap s.cn i t.cause
    s.noteChange s.cn 0 0x02

/-- A trap is raised (R213). BREAK and STEP stop a core whose dctl.HALT is set, its pc where it is (R390); in replay mode the trap is compared
with the next recorded one (R407); LATE is counted (R195). -/
def State.trap (s : State) (t : Trap) : State :=
  let d := s.core.dbg
  let i := s.core.cur
  let s := s.onDbg (fun d => { d with dctl := setFld d.dctl 4 4 0 })
  if (t.cause = 0x17 ∨ t.cause = 0x18) ∧ d.dctl.getLsbD 3 then
    s.stopCore s.cn (if t.cause = 0x17 then 1 else 2)
  else
    let s := if t.cause = 0x0F then
        let s := { s with core := { s.core with latecnt := setFld s.core.latecnt 31 0 (fld s.core.latecnt 31 0 + 1) } }
        s.count s.cn 0x006 s.vfn
      else s
    if d.dctl.getLsbD 5 then
      match d.rplTraps.find? (fun x => x.1 == i.val) with
      | some (_, want, ic) =>
        if want = t.cause ∧ ic = s.slot.icnt.toNat then
          (s.onDbg (fun d => { d with rplTraps := d.rplTraps.erase (i.val, want, ic) })).enterTrap t
        else if want = t.cause ∨ s.slot.icnt.toNat < ic then s.diverge s.cn i 2 0 t.cause
        else s.diverge s.cn i 1 want t.cause
      | none => s.diverge s.cn i 2 0 t.cause
    else s.enterTrap t

/-- The instruction traps. -/
def trapNow {α : Type} (s : State) (cause reason : Nat) (addr detail : Word) : M α :=
  .error (.st (s.trap (Trap.mk0 cause reason addr detail)))

/-- A head and its tail as `fins` and `fins1` hold them (R210). -/
def headWords (head : Half) (tail : List Half) : Word × Word :=
  (BitVec.ofNat 64 (head.toNat + (tail.getD 0 0).toNat * 65536 + (tail.getD 1 0).toNat * 4294967296
      + (tail.getD 2 0).toNat * 281474976710656),
   (tail.getD 3 0).setWidth 64)

/-- ILLEGAL raised by an instruction's operands, with reason OPERAND (log entry 22) and the instruction's head and tail (R210,
R237). -/
def illegalNow {α : Type} (s : State) : M α :=
  let l := s.slot.line
  let h := fld s.ws.pc 4 0
  let w := headWords (l.head h) (l.tail h)
  .error (.st (s.trap { Trap.mk0 0x01 0x35 0 0 with fins := w.1, fins1 := w.2 }))

/-- PRIV (R206). -/
def privNow {α : Type} (s : State) : M α := trapNow s 0x03 0 0 0

/-- The condition holds, or the instruction raises PRIV. -/
def needPriv (s : State) (ok : Bool) : M Unit := if ok then .ok () else privNow s

/-- PROT, PAGE, CAP_BOUNDS and CAP_STALE carry a reason of R29. -/
def causeOfReason (reason : Nat) : Nat :=
  if reason = 0x02 ∨ reason = 0x03 then 0x05
  else if reason = 0x10 ∨ reason = 0x11 ∨ reason = 0x12 then 0x07
  else if reason = 0x13 then 0x08
  else 0x06

/-! ## Waiting (R167, R191, R217) -/

/-- The context waits: it gives up the core and is reissued whole (R217). -/
def State.waitHere (s : State) (cause : Nat) : State :=
  let s := s.onSlot (fun x => { x with st := .wait })
  let s := s.onSx (fun x => { x with waitCause := cause })
  s.noteChange s.cn (causeState cause) cause

/-- The instruction stalls: its context keeps the core and issues it again at its next turn (R167, R191; log entry 10). -/
def stallNow {α : Type} (s : State) (cause : Nat) : M α := .error (.st (s.noteChange s.cn (causeState cause) cause))

/-- Whether a trap that depends on time is taken: always, but in replay mode only where a TRAP record holds it (R406). -/
def State.timingTrap (s : State) (cause : Nat) : Bool :=
  let d := s.core.dbg
  !(d.dctl.getLsbD 5) ||
    (match d.rplTraps.find? (fun x => x.1 == s.core.cur.val) with
     | some (_, want, ic) => want == cause && ic == s.slot.icnt.toNat
     | none => false)

/-- The timing trap that replay raises at this instruction from the record of the running slot (R406): LATE, BUDGET, TIMEOUT or HOLD. -/
def State.recorded (s : State) : Option Nat :=
  let d := s.core.dbg
  if d.dctl.getLsbD 5 = false then none
  else
    match d.rplTraps.find? (fun x => x.1 == s.core.cur.val) with
    | some (_, want, ic) =>
      if ic = s.slot.icnt.toNat ∧ (want = 0x0E ∨ want = 0x0F ∨ want = 0x10 ∨ want = 0x12) then some want else none
    | none => none

/-- A timing trap raised from its record alone (R406): the record holds no reason and no offset, which are free values (log entry 127). -/
def State.recordedTrap (s : State) (cause : Nat) : State :=
  let (x, s) := s.drawFree
  let addr : Word := if cause = 0x10 then natWord (x.toNat % 196608) else 0
  let detail : Word := if cause = 0x0F then x.setWidth 64 &&& 0xFFFF else if cause = 0x12 then x.setWidth 64 &&& 0xFFFFFFF else 0
  s.trap (Trap.mk0 cause 0 addr detail)

/-- An instruction that retires in replay where a timing trap is recorded takes that trap instead (R406). -/
def State.fromRecord (s : State) (r : Host.Outcome State Fault Refusal) : Host.Outcome State Fault Refusal :=
  match s.recorded with
  | none => r
  | some c =>
    match r with
    | .next t => if c ≠ 0x0E ∧ (t.core.slot s.core.cur).icnt ≠ s.slot.icnt then .next (s.recordedTrap c) else r
    | r => r

/-- An instruction that would stall: LATE with a reason in a booked task, a wait in a free one (R191). -/
def waitNow {α : Type} (s : State) (cause late arg : Nat) : M α :=
  if s.booked ∧ s.timingTrap 0x0F then trapNow s 0x0F 0 0 (BitVec.ofNat 64 (late + arg * 256))
  else .error (.st (s.waitHere cause))

/-- BOOKED_ACCESS with its sub-reason (R192). -/
def bookedNow {α : Type} (s : State) (sub : Nat) : M α := trapNow s 0x11 0 0 (BitVec.ofNat 64 sub)

/-! ## Retiring -/

/-- The instruction retires at a new pc: `icnt` counts it (R404), the progress word is cleared (R218), dctl.SKIP is used
up (R389), but not while a handler runs, which sets it for the instruction it returns to (R392, log entry 28). -/
def State.retireTo (s : State) (pc : Word) : State :=
  let s := s.onWs (fun w => { w with pc := pc, prog := 0 })
  let s := s.onSlot (fun x => { x with icnt := x.icnt + 1 })
  let s := s.onSx (fun x => { x with touched := false, asking := false, hostMark := none })
  if s.slot.tctl.getLsbD 32 then s else s.onDbg (fun d => { d with dctl := setFld d.dctl 4 4 0 })

/-- The instruction retires and the next one follows. -/
def State.retire (s : State) : State := s.retireTo s.nextPc

end Sys2Proof.Machine
end

