-- ==== Sys2Proof/Machine/Device.lean ====
section
/-! DEFINITION. The device-register blocks as they are read (spec/00 R7; spec/01 R43, R45, R47; spec/02 R70; spec/03 R74; spec/04
R136; spec/06 R170 to R174; spec/14 R387, R388, R403; spec/15 R420 to R422), and a core seen as the current one. -/
namespace Sys2Proof.Machine

/-- The core `n` and its slot `i` seen as the current ones by `f`, then the view restored. -/
def State.asCore (s : State) (n : Nat) (i : SlotId) (f : State → State) : State :=
  if n = s.cn then
    let cur := s.core.cur
    let t := f { s with core := { s.core with cur := i } }
    { t with core := { t.core with cur := cur } }
  else
    let c := s.coreOf n
    let back := s.cn
    let t := f { s with cn := n, core := { c with cur := i }, others := mapSet (mapDel s.others n) back s.core }
    { t with cn := back, core := t.coreOf back, others := mapSet (mapDel t.others back) n { t.core with cur := c.cur } }

/-! ## Registers of a function (R43, R45, R70) -/

/-- The registers of a function at reset: share 1, of the physical function 256 (R70); four ranges whose limit lies below their
base, so that they cover nothing (R45; the ranges are the model's choice, log entry 94). -/
def FnRegs.reset (vfn : Nat) : FnRegs := { vkey := 0, share := if vfn = 0 then 256 else 1, ranges := List.replicate 4 (1, 0) }
def State.fn (s : State) (vfn : Nat) : FnRegs := (mapGet s.pkgx.fns vfn).getD (FnRegs.reset vfn)
def State.onFn (s : State) (vfn : Nat) (f : FnRegs → FnRegs) : State :=
  { s with pkgx := { s.pkgx with fns := mapSet s.pkgx.fns vfn (f (s.fn vfn)) } }

/-! ## Debug registers (R387) -/

/-- `adjctl` has been accessed while ADJ = 1: SEEN (R401). -/
def State.seenAdjctl (s : State) : State :=
  if s.pkg.adjctl.getLsbD 0 then { s with pkg := { s.pkg with adjctl := setFld s.pkg.adjctl 10 10 1 } } else s

/-- The current core's counters by number: value or select of the core, cluster and die banks (R387, R396). -/
def State.counterWord (s : State) (n : Nat) : Word :=
  let d := s.core.dbg
  let k := s.cluster s.cl
  let f := s.die s.dn
  if n < 0x818 then d.pmc[fin8 (n - 0x810)] else if n < 0x820 then d.pms[fin8 (n - 0x818)]
  else if n < 0x828 then k.cpc[fin8 (n - 0x820)] else if n < 0x830 then k.cps[fin8 (n - 0x828)]
  else if n < 0x840 then f.fpc[fin16 (n - 0x830)] else f.fps[fin16 (n - 0x840)]

/-- The control word of a ring with ERR as its base has it (R393, R135). -/
def State.ringCtl (s : State) (r : Ring) : Word := setFld r.ctl 2 2 (bit01 (!s.baseOk (fld r.base 51 6 * 64)))

/-- A debug register as root reads it (R387). -/
def State.debugWord (s : State) (n : Nat) : Word :=
  let d := s.core.dbg
  match n with
  | 0x800 => d.dctl
  | 0x801 => d.dstat
  | 0x806 => d.dwa[0] | 0x807 => d.dwa[1] | 0x808 => d.dwc[0] | 0x809 => d.dwc[1]
  | 0x80A => s.ringCtl d.note | 0x80B => d.note.base | 0x80C => d.note.ptr
  | 0x80D => s.ringCtl d.mlog | 0x80E => d.mlog.base | 0x80F => d.mlog.ptr
  | 0x850 => s.pkg.adjctl
  | 0x852 => s.pkg.storm
  | 0x853 => s.pkg.wdog
  | 0x861 => natWord s.slot.icnt.toNat
  | 0x862 => d.dvrep
  | 0x863 => d.dvpos
  | n => if n < 0x806 then d.dbp[fin4 (n - 0x802)] else if 0x810 ≤ n ∧ n < 0x850 then s.counterWord n else 0

/-! ## Device registers -/

def Template.reset : Template := { on := false, w8 := 0, w9 := 0, w10 := 0, w11 := 0, w12 := 0 }
def MapWin.reset : MapWin := { en := false, region := 0, base := 0, limit := 0, port := 0 }

/-- The half of a 128-bit register. -/
def halfOf (v : BitVec 128) (half : Nat) : Word := if half = 0 then v.extractLsb' 0 64 else v.extractLsb' 64 64

/-- A word of a template (R174, log entry 17). -/
def Template.word (t : Template) (i : Nat) : Word :=
  match i with
  | 0 => natWord (bit01 t.on)
  | 8 => t.w8 | 9 => t.w9 | 10 => t.w10 | 11 => t.w11 | 12 => t.w12 | _ => 0

/-- A word of a map window (R421, log entry 17). -/
def MapWin.word (m : MapWin) (i : Nat) : Word :=
  match i with
  | 0 => natWord (bit01 m.en + m.region * 2 + m.port * 256)
  | 1 => natWord m.base
  | _ => natWord m.limit

/-- A length or band as last written (R74). -/
def State.lengthWord (s : State) (i now : Nat) : Word := natWord ((mapGet s.pkg.lenNext i).getD now)

/-- The scoresheet entry that `sssel` picks, by word (R403). -/
def State.scoreWord (s : State) (i : Nat) : Word :=
  match s.pkg.score[(fld s.pkg.ssptr 11 0 + 4095 - fld s.pkg.sssel 11 0) % 4096]? with
  | some e => (match i with
    | 0 => natWord e.time | 1 => e.w1 | 2 => e.d0 | _ => e.d1)
  | none => 0

/-- A device register as read, and what its reading changes (R7; log entry 17 for those without a bit layout). -/
def State.readDevice (s : State) (r : DevReg) : Word × State :=
  match r with
  | .vkey f => ((s.fn f).vkey, s)
  | .share f => (natWord (s.fn f).share, s)
  | .rangeBase f i => (natWord ((s.fn f).ranges.getD i (1, 0)).1, s)
  | .rangeLimit f i => (natWord ((s.fn f).ranges.getD i (1, 0)).2, s)
  | .llen1 => (s.lengthWord 0 s.pkg.llen1, s)
  | .llen2 => (s.lengthWord 1 s.pkg.llen2, s)
  | .gband => (s.lengthWord 2 s.pkg.gband, s)
  | .lcut => (s.lengthWord 3 s.pkg.lcut, s)
  | .record d i w => ((s.record d (i % 512)).w[fin32 w], s)
  | .level d i h => (halfOf (s.level d (i % 1024)) h, s)
  | .template d f w => (((mapGet (s.die d).templates f).getD Template.reset).word w, s)
  | .keySlot _ => (0, s)
  | .mapWindow b i w => (((mapGet s.pkgx.maps (i % 16 + (if b then 1000 else 0))).getD MapWin.reset).word w, s)
  | .featacc h => (halfOf s.pkgx.accept h, s)
  | .featoff h => (halfOf s.pkgx.offer h, s)
  | .featstat => (natWord (bit01 s.pkgx.featDone), s)
  | .sssel => (s.pkg.sssel, s)
  | .ssptr => (s.pkg.ssptr, s)
  | .ssdata i => (s.scoreWord i, s)
  | .storm => (s.pkg.storm, s)
  | .adjctl => (s.pkg.adjctl, s.seenAdjctl)
  | .wdog => (s.pkg.wdog, s)
  | .numVfs => (natWord (s.pkgx.numVfs + bit01 s.pkgx.vfEnable * 65536), s)
  | .kmiss cl => ((s.cluster cl).kmiss, s)
  | .frmode => (natWord (bit01 s.pkg.frmEn + bit01 (!s.pkg.frmBusy.isEmpty) * 2), s)
  | .coreReg c i n =>
    (if (s.coreOf c).dbg.dstat.getLsbD 0 ∧ 0x800 ≤ n then
      (if c = s.cn then { s with core := { s.core with cur := fin4 i } }
       else { s with cn := c, core := { s.coreOf c with cur := fin4 i } } : State).debugWord n
     else 0,
     if (s.coreOf c).dbg.dstat.getLsbD 0 ∧ n = 0x850 then s.seenAdjctl else s)

end Sys2Proof.Machine
end

