-- ==== Sys2Proof/Machine/Float.lean ====
section
/-! DEFINITION. Number formats and exact arithmetic (spec/05 R138 to R150, R152): decoding, the one rounding routine,
flags, conversions, block scales. -/
namespace Sys2Proof

/-- Flags in the order of fcsr [4:0] (R146): NX, UF, OF, DZ, IV. -/
abbrev Flags := BitVec 5
def flNX : Flags := 1
def flUF : Flags := 2
def flOF : Flags := 4
def flDZ : Flags := 8
def flIV : Flags := 16

/-- A decoded value (R139, R142): (−1)^neg × m × 2^e when finite. -/
inductive FVal where
  | fin (neg : Bool) (m : Nat) (e : Int)
  | inf (neg : Bool)
  | nan (signalling : Bool)
  | reserved
deriving DecidableEq, Repr

/-- The layout of a binary format (R139): exponent and fraction widths, bias, and what its top exponent means: 0 infinity
and NaN, 1 the single NaN of E4M3, 2 neither (E2M1). -/
structure Layout where
  eb : Nat
  fb : Nat
  bias : Nat
  top : Nat
deriving DecidableEq, Repr

def lay64 : Layout := { eb := 11, fb := 52, bias := 1023, top := 0 }
def lay32 : Layout := { eb := 8, fb := 23, bias := 127, top := 0 }
def lay16 : Layout := { eb := 5, fb := 10, bias := 15, top := 0 }
def layB16 : Layout := { eb := 8, fb := 7, bias := 127, top := 0 }
def layE4M3 : Layout := { eb := 4, fb := 3, bias := 7, top := 1 }
def layE5M2 : Layout := { eb := 5, fb := 2, bias := 15, top := 0 }
def layE2M1 : Layout := { eb := 2, fb := 1, bias := 1, top := 2 }

/-- The class of a format code (R233): integer, binary float, tapered with magnitude width and exponent bit (R142). -/
inductive FmtClass where
  | int (t : IT)
  | flt (l : Layout)
  | taper (w xb : Nat)
deriving DecidableEq, Repr

def Fmt.cls : Fmt → FmtClass
  | .i8 => .int { w := .b8, uns := false } | .i16 => .int { w := .b16, uns := false }
  | .i32 => .int { w := .b32, uns := false } | .i64 => .int { w := .b64, uns := false }
  | .n8 => .int { w := .b8, uns := true } | .n16 => .int { w := .b16, uns := true }
  | .n32 => .int { w := .b32, uns := true } | .n64 => .int { w := .b64, uns := true }
  | .f64 => .flt lay64 | .f32 => .flt lay32 | .f16 => .flt lay16 | .bf16 => .flt layB16
  | .e4m3 => .flt layE4M3 | .e5m2 => .flt layE5M2 | .mxfp4 => .flt layE2M1
  | .t8 => .taper 7 1 | .t6 => .taper 5 0

def FC.fmt : FC → Fmt
  | .f64 => .f64 | .f32 => .f32 | .f16 => .f16 | .bf16 => .bf16
def FC.lay : FC → Layout
  | .f64 => lay64 | .f32 => lay32 | .f16 => lay16 | .bf16 => layB16

def Layout.bits (l : Layout) : Nat := l.eb + l.fb + 1
def Layout.sign (l : Layout) (neg : Bool) : Nat := if neg then 2 ^ (l.eb + l.fb) else 0
/-- The code of infinity without its sign. -/
def Layout.infCode (l : Layout) : Nat := (2 ^ l.eb - 1) * 2 ^ l.fb
/-- The code of the largest finite magnitude (R139). -/
def Layout.maxCode (l : Layout) : Nat :=
  match l.top with
  | 0 => l.infCode - 1
  | 1 => 2 ^ (l.eb + l.fb) - 2
  | _ => 2 ^ (l.eb + l.fb) - 1
/-- The canonical NaN (R140). -/
def Layout.canon (l : Layout) : Nat := if l.top = 0 then l.infCode + 2 ^ (l.fb - 1) else 2 ^ (l.eb + l.fb) - 1

/-- Decoding a binary format (R139, R140). -/
def Layout.decode (l : Layout) (x : Nat) : FVal :=
  let x := x % 2 ^ l.bits
  let neg := x.testBit (l.eb + l.fb)
  let ex := x / 2 ^ l.fb % 2 ^ l.eb
  let f := x % 2 ^ l.fb
  if l.top = 0 ∧ ex = 2 ^ l.eb - 1 then
    if f = 0 then .inf neg else .nan (!(f.testBit (l.fb - 1)))
  else if l.top = 1 ∧ x % 2 ^ (l.eb + l.fb) = 2 ^ (l.eb + l.fb) - 1 then .nan false
  else if ex = 0 then .fin neg f (1 - Int.ofNat l.bias - Int.ofNat l.fb)
  else .fin neg (f + 2 ^ l.fb) (Int.ofNat ex - Int.ofNat l.bias - Int.ofNat l.fb)

/-- The length of the run of bits equal to `b` from bit `n - 1` of `m` downward (R142). -/
def runLen (m : Nat) (b : Bool) (n : Nat) : Nat :=
  match n with
  | 0 => 0
  | n + 1 => if m.testBit n = b then 1 + runLen m b n else 0

/-- The magnitude of a tapered code (R142) as (m, e): m × 2^e. -/
def taperMag (w xb mag : Nat) : Nat × Int :=
  if mag = 0 then (0, 0)
  else
    let b := mag.testBit (w - 1)
    let run := runLen mag b w
    let k : Int := if b then Int.ofNat run - 1 else -Int.ofNat run
    let n := if run = w then 0 else w - run - 1
    let e := if xb = 1 ∧ 1 ≤ n then bitsOf mag (n - 1) (n - 1) else 0
    let n := if xb = 1 ∧ 1 ≤ n then n - 1 else n
    (2 ^ n + mag % 2 ^ n, Int.ofNat (1 + xb) * k + Int.ofNat e - Int.ofNat n)

def signExt (w x : Nat) : Int := if x % 2 ^ w < 2 ^ (w - 1) then Int.ofNat (x % 2 ^ w) else Int.ofNat (x % 2 ^ w) - Int.ofNat (2 ^ w)

/-- The integer value of a code (R138). -/
def IT.value (t : IT) (x : Nat) : Int := if t.uns then Int.ofNat (x % 2 ^ t.bits) else signExt t.bits x
def IT.least (t : IT) : Int := if t.uns then 0 else -Int.ofNat (2 ^ (t.bits - 1))
def IT.greatest (t : IT) : Int := if t.uns then Int.ofNat (2 ^ t.bits) - 1 else Int.ofNat (2 ^ (t.bits - 1)) - 1
/-- The code of an integer, modulo 2^width (R138). -/
def IT.wrap (t : IT) (v : Int) : Nat := (v % Int.ofNat (2 ^ t.bits)).toNat
/-- Saturation to the range of the type (R138). -/
def IT.clamp (t : IT) (v : Int) : Int := max t.least (min v t.greatest)

/-- Decoding any format. -/
def Fmt.decode (f : Fmt) (x : Nat) : FVal :=
  match Fmt.cls f with
  | .int t => let v := t.value x; .fin (decide (v < 0)) v.natAbs 0
  | .flt l => l.decode x
  | .taper w xb =>
    let neg := x.testBit w
    let mag := x % 2 ^ w
    if mag = 0 ∧ neg then .reserved
    else let p := taperMag w xb mag; .fin neg p.1 p.2

/-! ## Rounding (R147 to R149) -/

def bitLen (n : Nat) : Nat := if n = 0 then 0 else n.log2 + 1

/-- Whether a truncated magnitude steps one unit away from zero: the fraction beyond it is r / d (R147, R148). -/
def stepAway (rm : RM) (draw : Nat) (neg odd : Bool) (r d : Nat) : Bool :=
  match rm with
  | .sto => decide (2 ^ 32 ≤ r * 2 ^ 32 / d + draw)
  | .rtz => false
  | .rup => !neg && r != 0
  | .rdn => neg && r != 0
  | _ => decide (d < 2 * r) || (decide (2 * r = d) && odd)

/-- m × 2^e rounded to a multiple of 2^q: the count of 2^q, and whether it is inexact. -/
def quantise (rm : RM) (draw : Nat) (neg : Bool) (m : Nat) (e q : Int) : Nat × Bool :=
  if q ≤ e then (m * 2 ^ (e - q).toNat, false)
  else
    let d := 2 ^ (q - e).toNat
    let n := m / d
    let r := m % d
    (n + bit01 (stepAway rm draw neg (n % 2 == 1) r d), r != 0)

/-- Whether a format lets SATF and STO give infinity or the largest finite magnitude (R148, R149): FP16, BF16, E5M2. -/
def Layout.satf (l : Layout) : Bool := l == lay16 || l == layB16 || l == layE5M2

/-- The result of an overflow (R148, R149). -/
def Layout.overflow (l : Layout) (rm : RM) (sat neg : Bool) : Nat :=
  let toMax := match rm with
    | .sto => (sat && l.satf) || !l.satf
    | .rtz => true
    | .rup => neg
    | .rdn => !neg
    | _ => false
  l.sign neg + (if toMax || l.top != 0 || (sat && l.satf) then l.maxCode else l.infCode)

/-- The exact value (−1)^neg × m × 2^e rounded into a binary format with its flags (R147 to R149); `sat` is SATF of a
conversion, `draw` the draw of STO. -/
def Layout.round (l : Layout) (rm : RM) (sat : Bool) (draw : Nat) (neg : Bool) (m : Nat) (e : Int) : Nat × Flags :=
  if m = 0 then (l.sign neg, 0)
  else
    let emin : Int := 1 - Int.ofNat l.bias
    let lead : Int := e + Int.ofNat (bitLen m) - 1
    let qmin := emin - Int.ofNat l.fb
    let q := max (lead - Int.ofNat l.fb) qmin
    let (n, inexact) := quantise rm draw neg m e q
    let code := (q - qmin).toNat * 2 ^ l.fb + n
    if l.maxCode < code then (l.overflow rm sat neg, flOF ||| flNX)
    else
      let tiny := match rm with
        | .sto => decide (code < 2 ^ l.fb)
        | _ =>
          let u := (quantise rm draw neg m e (lead - Int.ofNat l.fb)).1
          decide (lead < emin) && !(decide (lead = emin - 1) && decide (2 ^ (l.fb + 1) ≤ u))
      (l.sign neg + code, (if inexact then flNX else 0) ||| (if inexact && tiny then flUF else 0))

/-- Rounding into a tapered format (R147, R149); ties go to the even code (log entry 23). -/
def taperRound (w xb : Nat) (rm : RM) (draw : Nat) (neg : Bool) (m : Nat) (e : Int) : Nat × Flags :=
  if m = 0 then (0, 0)
  else
    -- every code is a multiple of 2^-14; scale both sides to a common unit
    let base : Int := min e (-14)
    let big := m * 2 ^ (e - base).toNat
    let mag := fun (c : Nat) => (taperMag w xb c).1 * 2 ^ ((taperMag w xb c).2 - base).toNat
    let top := 2 ^ w - 1
    let sgn := fun (c : Nat) => if c = 0 then 0 else c + bit01 neg * 2 ^ w
    if mag top < big then (sgn top, flOF ||| flNX)
    else if mag top = big then (sgn top, 0)
    else
      let c := (List.range top).foldl (fun best c => if mag c ≤ big then c else best) 0
      let r := big - mag c
      let c' := if stepAway rm draw neg (c % 2 == 1) r (mag (c + 1) - mag c) then c + 1 else c
      let tiny := match rm with
        | .sto => c' == 0
        | _ => decide (big < mag 1)
      (sgn c', (if r ≠ 0 then flNX else 0) ||| (if r != 0 && tiny then flUF else 0))

/-- A finite value rounded to an integer type: out of range saturates with IV (R149). -/
def IT.fromFloat (t : IT) (rm : RM) (neg : Bool) (m : Nat) (e : Int) : Nat × Flags :=
  let (n, inexact) := quantise rm 0 neg m e 0
  let v : Int := if neg then -Int.ofNat n else Int.ofNat n
  if v < t.least ∨ t.greatest < v then (t.wrap (t.clamp v), flIV)
  else (t.wrap v, if inexact then flNX else 0)

/-- Whether STO applies to a conversion (R147), to no integer destination (log entry 107). -/
def stoApplies (src dst : Fmt) : Bool :=
  match src with
  | .f64 => dst == .f32 || dst == .f16 || dst == .bf16 || dst == .e4m3 || dst == .e5m2 || dst.isBlock
  | .f32 => dst == .f16 || dst == .bf16 || dst == .e4m3 || dst == .e5m2 || dst.isBlock
  | .f16 => dst == .e4m3 || dst == .e5m2 || dst.isBlock
  | _ => false

/-- The mode an operation other than a narrowing conversion uses: STO becomes RNE (R147). -/
def RM.plain (rm : RM) : RM := if rm = .sto then .rne else rm

/-- A finite value into a format (R147 to R149); a conversion to a block format's element. -/
def Fmt.encode (f : Fmt) (rm : RM) (sat : Bool) (draw : Nat) (neg : Bool) (m : Nat) (e : Int) : Nat × Flags :=
  match Fmt.cls f with
  | .int t => t.fromFloat rm.plain neg m e
  | .flt l => l.round rm sat draw neg m e
  | .taper w xb => taperRound w xb rm draw neg m e

/-- Conversion of one element (R138, R145, R149, R259): `rm` is the mode after R147, STO only where it applies. -/
def convertElem (src dst : Fmt) (rm : RM) (sat : Bool) (draw x : Nat) : Nat × Flags :=
  match Fmt.cls src, Fmt.cls dst with
  | .int t, .int u => (u.wrap (u.clamp (t.value x)), 0)
  | _, dc =>
    match src.decode x with
    | .fin neg m e => dst.encode rm sat draw neg m e
    | .inf neg =>
      match dc with
      | .int t => (t.wrap (if neg then t.least else t.greatest), flIV)
      | .flt l => if l.top = 0 then (l.sign neg + l.infCode, 0) else (l.sign neg + l.maxCode, flOF ||| flNX)
      | .taper w _ => (bit01 neg * 2 ^ w + (2 ^ w - 1), flOF ||| flNX)
    | .nan sig =>
      match dc with
      | .int _ => (0, flIV)
      | .flt l => if l.top = 2 then (0, flIV) else (l.canon, if sig then flIV else 0)
      | .taper w _ => (2 ^ w, flIV)
    | .reserved =>
      match dc with
      | .int _ => (0, flIV)
      | .flt l => if l.top = 2 then (0, flIV) else (l.canon, flIV)
      | .taper w _ => (2 ^ w, flIV)

/-! ## Arithmetic (R139, R140, R258, R259) -/

def FVal.isNan : FVal → Bool
  | .nan _ => true | .reserved => true | _ => false
def FVal.isSnan : FVal → Bool
  | .nan s => s | _ => false
def FVal.isZero : FVal → Bool
  | .fin _ m _ => m == 0 | _ => false
def FVal.isInf : FVal → Bool
  | .inf _ => true | _ => false
def FVal.neg : FVal → FVal
  | .fin n m e => .fin (!n) m e | .inf n => .inf (!n) | v => v
def FVal.sign : FVal → Bool
  | .fin n _ _ => n | .inf n => n | _ => false

/-- The exact product of two values that are not NaN; 0 × ∞ is excluded by the caller. -/
def FVal.mul (a b : FVal) : FVal :=
  match a, b with
  | .fin n m e, .fin n' m' e' => .fin (n != n') (m * m') (e + e')
  | _, _ => .inf (a.sign != b.sign)

/-- A finite value as an integer multiple of 2^q, q at most its exponent. -/
def scaled (n : Bool) (m : Nat) (e q : Int) : Int :=
  let x := Int.ofNat (m * 2 ^ (e - q).toNat)
  if n then -x else x

/-- The exact sum of two values that are not NaN (R139): none for ∞ − ∞; an exact zero sum is −0 when both are −0, or under
RDN unless both are +0. -/
def FVal.add (rm : RM) (a b : FVal) : Option FVal :=
  match a, b with
  | .fin n m e, .fin n' m' e' =>
    let q := min e e'
    let x := scaled n m e q + scaled n' m' e' q
    if x = 0 then some (.fin (if n = n' then n else rm == .rdn) 0 0)
    else some (.fin (decide (x < 0)) x.natAbs q)
  | .inf n, .inf n' => if n = n' then some (.inf n) else none
  | .inf n, _ => some (.inf n)
  | _, y => some y

def Layout.finish (l : Layout) (rm : RM) (v : FVal) : Nat × Flags :=
  match v with
  | .fin n m e => l.round rm false 0 n m e
  | .inf n => (l.sign n + l.infCode, 0)
  | _ => (l.canon, 0)

/-- The canonical NaN, with IV when an operand is signalling (R140). -/
def Layout.nanOf (l : Layout) (vs : List FVal) : Nat × Flags := (l.canon, if vs.any FVal.isSnan then flIV else 0)
def Layout.invalid (l : Layout) : Nat × Flags := (l.canon, flIV)

def Layout.addV (l : Layout) (rm : RM) (x y : FVal) : Nat × Flags :=
  if x.isNan || y.isNan then l.nanOf [x, y]
  else match x.add rm y with
    | some v => l.finish rm v
    | none => l.invalid

def Layout.add (l : Layout) (rm : RM) (a b : Nat) : Nat × Flags := l.addV rm (l.decode a) (l.decode b)
def Layout.sub (l : Layout) (rm : RM) (a b : Nat) : Nat × Flags := l.addV rm (l.decode a) (l.decode b).neg

def Layout.mul (l : Layout) (rm : RM) (a b : Nat) : Nat × Flags :=
  let x := l.decode a
  let y := l.decode b
  if x.isNan || y.isNan then l.nanOf [x, y]
  else if (x.isZero && y.isInf) || (x.isInf && y.isZero) then l.invalid
  else l.finish rm (x.mul y)

/-- A quotient of exact values rounded once: m / m' × 2^(e − e'), with a sticky bit. -/
def Layout.divide (l : Layout) (rm : RM) (neg : Bool) (m : Nat) (e : Int) (m' : Nat) (e' : Int) : Nat × Flags :=
  let sh := bitLen m' + l.fb + 4
  let n := m * 2 ^ sh
  l.round rm false 0 neg (2 * (n / m') + bit01 (n % m' != 0)) (e - e' - Int.ofNat sh - 1)

def Layout.div (l : Layout) (rm : RM) (a b : Nat) : Nat × Flags :=
  let x := l.decode a
  let y := l.decode b
  let neg := x.sign != y.sign
  if x.isNan || y.isNan then l.nanOf [x, y]
  else match x, y with
    | .inf _, .inf _ => l.invalid
    | .inf _, _ => (l.sign neg + l.infCode, 0)
    | _, .inf _ => (l.sign neg, 0)
    | .fin _ m e, .fin _ m' e' =>
      if m' = 0 then (if m = 0 then l.invalid else (l.sign neg + l.infCode, flDZ))
      else l.divide rm neg m e m' e'
    | _, _ => l.invalid

/-- The integer square root, bit by bit: `r` so far, bits `n - 1` down still to try. -/
def isqrtFrom (x r n : Nat) : Nat :=
  match n with
  | 0 => r
  | n + 1 => let r' := r + 2 ^ n; isqrtFrom x (if r' * r' ≤ x then r' else r) n
def isqrt (x : Nat) : Nat := isqrtFrom x 0 (bitLen x / 2 + 1)

def Layout.sqrt (l : Layout) (rm : RM) (a : Nat) : Nat × Flags :=
  let x := l.decode a
  match x with
  | .fin neg m e =>
    if m = 0 then (l.sign neg, 0)
    else if neg then l.invalid
    else
      let sh := 2 * l.fb + 8 + (e % 2).toNat
      let r := isqrt (m * 2 ^ sh)
      l.round rm false 0 false (2 * r + bit01 (r * r != m * 2 ^ sh)) ((e - Int.ofNat sh) / 2 - 1)
  | .inf neg => if neg then l.invalid else (l.infCode, 0)
  | _ => l.nanOf [x]

/-- a × b + c with one rounding; a product of 0 and ∞ is invalid even with a NaN c (R259). `np` negates the product, `nc`
negates c. -/
def Layout.fma (l : Layout) (rm : RM) (np nc : Bool) (a b c : Nat) : Nat × Flags :=
  let x := l.decode a
  let y := l.decode b
  let z := l.decode c
  if (x.isZero && y.isInf) || (x.isInf && y.isZero) then l.invalid
  else if x.isNan || y.isNan || z.isNan then l.nanOf [x, y, z]
  else
    let p := x.mul y
    l.addV rm (if np then p.neg else p) (if nc then z.neg else z)

/-- a < b for values that are not NaN; `zeroSign` orders −0 below +0 (R140). -/
def FVal.lt (zeroSign : Bool) (a b : FVal) : Bool :=
  match a, b with
  | .fin n m e, .fin n' m' e' =>
    let q := min e e'
    let x := scaled n m e q
    let y := scaled n' m' e' q
    decide (x < y) || (zeroSign && decide (x = y) && n && !n')
  | .inf n, .inf n' => n && !n'
  | .inf n, _ => n
  | _, .inf n => !n
  | _, _ => false

/-- Minimum and maximum (R140). -/
def Layout.minMax (l : Layout) (isMax : Bool) (a b : Nat) : Nat × Flags :=
  let x := l.decode a
  let y := l.decode b
  let fl := if x.isSnan || y.isSnan then flIV else 0
  let a := a % 2 ^ l.bits
  let b := b % 2 ^ l.bits
  if x.isNan && y.isNan then (l.canon, fl)
  else if x.isNan then (b, fl)
  else if y.isNan then (a, fl)
  else if y.lt true x != isMax then (b, fl) else (a, fl)

/-- Comparison by predicate 0 to 7 (R258). -/
def Layout.compare (l : Layout) (pred a b : Nat) : Bool × Flags :=
  let x := l.decode a
  let y := l.decode b
  let snan := x.isSnan || y.isSnan
  if x.isNan || y.isNan then
    (pred == 1 || pred == 6, if snan || (2 ≤ pred && pred ≤ 5) then flIV else 0)
  else
    let lt := x.lt false y
    let gt := y.lt false x
    (match pred with
      | 0 => !lt && !gt
      | 1 => lt || gt
      | 2 => lt
      | 3 => !gt
      | 4 => gt
      | 5 => !lt
      | 6 => false
      | _ => true, 0)

/-- The class mask of `fclass` (R258). -/
def Layout.classify (l : Layout) (a : Nat) : Nat :=
  match l.decode a with
  | .inf neg => if neg then 1 else 128
  | .nan sig => if sig then 256 else 512
  | .fin neg m _ =>
    if m = 0 then (if neg then 8 else 16)
    else if m < 2 ^ l.fb then (if neg then 4 else 32) else (if neg then 2 else 64)
  | .reserved => 512

/-- Absolute value and negation (R282): the sign alone changes, a NaN becomes canonical. -/
def Layout.setSign (l : Layout) (a : Nat) (neg : Bool → Bool) : Nat × Flags :=
  let x := l.decode a
  if x.isNan then l.nanOf [x] else (a % 2 ^ (l.eb + l.fb) + l.sign (neg x.sign), 0)

/-! ## Block scales (R150) -/

def Fmt.emax : Fmt → Int
  | .mxfp4 => 2 | .t8 => 12 | _ => 4

/-- The exponent xs that R150 chooses for 32 decoded values. -/
def blockExp (f : Fmt) (vs : List FVal) : Int :=
  let tops := vs.filterMap (fun v => match v with
    | .fin _ m e => if m = 0 then none else some (e + Int.ofNat m.log2)
    | _ => none)
  match tops with
  | [] => -127
  | t :: ts => max (-127) (min 127 (ts.foldl max t - f.emax))

end Sys2Proof
end

