-- ==== Sys2Proof/Machine/Transc.lean ====
section
/-! DEFINITION. The transcendental functions on FP32 (spec/05 R152), correctly rounded: a fixed-point value with 448
fraction bits whose relative error stays below 2^-200, rounded from both ends (log entry 14). -/
namespace Sys2Proof

/-- Fraction bits of the working values. -/
def tP : Nat := 448
def tOne : Nat := 2 ^ tP
def tMul (a b : Nat) : Nat := a * b / tOne
def tDiv (a b : Nat) : Nat := a * tOne / b

/-- e^x for a fixed-point x of at most 128: the series, with `n` the next index and `t` its last term. -/
def tExpFrom (x t acc n fuel : Nat) : Nat :=
  match fuel with
  | 0 => acc
  | fuel + 1 => if t = 0 then acc else tExpFrom x (t * x / (n * tOne)) (acc + t) (n + 1) fuel
def tExp (x : Nat) : Nat := tExpFrom x tOne 0 1 1024

/-- Σ z^(2n+1) / (2n+1), the inverse hyperbolic tangent of z (`alt` false) or its arc tangent (`alt` true). -/
def tAtanFrom (z2 : Nat) (alt : Bool) (t n fuel : Nat) : Int :=
  match fuel with
  | 0 => 0
  | fuel + 1 =>
    if t = 0 then 0
    else
      let term := Int.ofNat (t / (2 * n + 1))
      let rest := tAtanFrom z2 alt (tMul t z2) (n + 1) fuel
      if alt then term - rest else term + rest
def tAtanh (z : Nat) : Nat := (tAtanFrom (tMul z z) false z 0 600).toNat
def tAtan (z : Nat) : Nat := (tAtanFrom (tMul z z) true z 0 600).toNat
def tLn2 : Nat := 2 * tAtanh (tOne / 3)
/-- π by Machin's formula. -/
def tPi : Nat := 16 * tAtan (tOne / 5) - 4 * tAtan (tOne / 239)
/-- √(2π). -/
def tSqrt2Pi : Nat := isqrt (2 * tPi * tOne)

/-- Σ (k x)^(2n+1) / (2n+1)!! for k² = `s`, divided by k: the series of the normal integral. -/
def tNormFrom (x2 t acc n fuel : Nat) : Nat :=
  match fuel with
  | 0 => acc
  | fuel + 1 => if t = 0 then acc else tNormFrom x2 (t * x2 / (n * tOne)) (acc + t) (n + 2) fuel

/-- Φ(x) − ½ for a fixed-point x of at most 16: e^(−x²/2) Σ x^(2n+1) / (2n+1)!! / √(2π). -/
def tNorm (x : Nat) : Nat :=
  let x2 := tMul x x
  tDiv (tDiv (tNormFrom x2 x 0 3 1024) (tExp (x2 / 2))) tSqrt2Pi

/-- erf(x) for a fixed-point x of at most 8: 2 e^(−x²) Σ 2^n x^(2n+1) / (2n+1)!! / √π. -/
def tErf (x : Nat) : Nat :=
  let x2 := tMul x x
  tDiv (2 * tDiv (tNormFrom (2 * x2) x 0 3 1024) (tExp x2)) (isqrt (tPi * tOne))

/-- The natural logarithm of m × 2^e with m positive. -/
def tLn (m : Nat) (e : Int) : Int :=
  let n := Int.ofNat m.log2
  -- f in [1, 2), then in [3/4, 3/2)
  let f := m * tOne / 2 ^ m.log2
  let up := decide (3 * tOne ≤ 2 * f)
  let f := if up then f / 2 else f
  let k := e + n + (if up then 1 else 0)
  let d := Int.ofNat f - Int.ofNat tOne
  let z := tDiv d.natAbs (f + tOne)
  let l := Int.ofNat (2 * tAtanh z)
  k * Int.ofNat tLn2 + (if d < 0 then -l else l)

/-- The nine functions of R152. -/
inductive TFn where
  | exp | log | rcp | rsqrt | tanh | sigm | erf | phi | pdf
deriving DecidableEq, Repr

def TFn.code : TFn → Nat
  | .exp => 0 | .log => 1 | .rcp => 2 | .rsqrt => 3 | .tanh => 4 | .sigm => 5 | .erf => 6 | .phi => 7 | .pdf => 8

/-- An irrational value near v × 2^−448, rounded into FP32; where the error bound leaves the rounding open, the value is
`Config.unsettled`. -/
def settle (fn : TFn) (x : Nat) (neg : Bool) (v : Nat) : Nat × Flags :=
  let w := v * 2 ^ 200
  let at' := fun (y : Nat) => lay32.round .rne false 0 neg (2 * y + 1) (-Int.ofNat tP - 201)
  let lo := at' (w - v)
  let hi := at' (w + v + 1)
  if lo = hi then lo else ((Config.unsettled fn.code x).toNat, lo.2)

/-- |m × 2^e| in fixed point, at most `cap`. -/
def tFix (m : Nat) (e : Int) (cap : Nat) : Nat :=
  if 16 ≤ e then (if m = 0 then 0 else cap * tOne)
  else min (if 0 ≤ e + Int.ofNat tP then m * 2 ^ (e + Int.ofNat tP).toNat else m / 2 ^ (-(e + Int.ofNat tP)).toNat) (cap * tOne)

def f32One : Nat := 0x3F800000

/-- A transcendental function of an FP32 code, with its flags (R152). -/
def TFn.eval (fn : TFn) (x : Nat) : Nat × Flags :=
  let v := lay32.decode x
  match v with
  | .nan s => (lay32.canon, if s then flIV else 0)
  | .reserved => (lay32.canon, flIV)
  | .inf neg =>
    match fn with
    | .exp => (if neg then 0 else lay32.infCode, 0)
    | .log => if neg then lay32.invalid else (lay32.infCode, 0)
    | .rcp => (lay32.sign neg, 0)
    | .rsqrt => if neg then lay32.invalid else (0, 0)
    | .tanh => (lay32.sign neg + f32One, 0)
    | .sigm => (if neg then 0 else f32One, 0)
    | .erf => (lay32.sign neg + f32One, 0)
    | .phi => (if neg then 0 else f32One, 0)
    | .pdf => (0, 0)
  | .fin neg m e =>
    match fn with
    | .exp =>
      if m = 0 then (f32One, 0)
      else
        let y := tExp (tFix m e 128)
        settle fn x false (if neg then tDiv tOne y else y)
    | .log =>
      if m = 0 then (lay32.sign true + lay32.infCode, flDZ)
      else if neg then lay32.invalid
      else if x % 2 ^ 32 = f32One then (0, 0)
      else let y := tLn m e; settle fn x (decide (y < 0)) y.natAbs
    | .rcp =>
      if m = 0 then (lay32.sign neg + lay32.infCode, flDZ) else lay32.divide .rne neg 1 0 m e
    | .rsqrt =>
      if m = 0 then (lay32.sign neg + lay32.infCode, flDZ)
      else if neg then lay32.invalid
      else
        -- 1 / √(m 2^e) = √(2^(2k) / m') × 2^(−k − e'/2) for an even e' and a matching m'
        let m' := m * 2 ^ (e % 2).toNat
        let e' := e - e % 2
        let k := 64
        let r := isqrt (2 ^ (2 * k) / m')
        lay32.round .rne false 0 false (2 * r + bit01 (r * r * m' != 2 ^ (2 * k))) (-Int.ofNat k - e' / 2 - 1)
    | .tanh =>
      if m = 0 then (lay32.sign neg, 0)
      else
        let y := tExp (2 * tFix m e 64)
        settle fn x neg (tDiv (y - tOne) (y + tOne))
    | .sigm =>
      if m = 0 then (0x3F000000, 0)
      else
        let y := tExp (tFix m e 128)
        settle fn x false (tDiv (if neg then tOne else y) (y + tOne))
    | .erf => if m = 0 then (lay32.sign neg, 0) else settle fn x neg (tErf (tFix m e 8))
    | .phi =>
      if m = 0 then (0x3F000000, 0)
      else
        let g := tNorm (tFix m e 16)
        settle fn x false (if neg then tOne / 2 - g else tOne / 2 + g)
    | .pdf =>
      let y := tFix m e 16
      settle fn x false (tDiv tOne (tMul (tExp (tMul y y / 2)) tSqrt2Pi))

end Sys2Proof
end

