-- ==== Sys2Proof/Machine/Flags.lean ====
section
/-! DEFINITION. The floating-point control register (spec/05 R146 to R151), the generators (R148, R297) and the FP trap. -/
namespace Sys2Proof.Machine

/-! ## fcsr -/

def Ws.frm (w : Ws) : RM :=
  match w.fcsr.toNat / 32 % 8 with
  | 1 => .rtz | 2 => .rup | 3 => .rdn | 4 => .sto | _ => .rne
def Ws.satf (w : Ws) : Bool := w.fcsr.getLsbD 8
def Ws.ten (w : Ws) : Flags := w.fcsr.extractLsb' 9 5
/-- The mode a rounding field selects (R147). -/
def Ws.rm (w : Ws) (rm : RM) : RM := if rm = .dyn then w.frm else rm
/-- Sticky flags set (R146). -/
def Ws.setFlags (w : Ws) (f : Flags) : Ws := { w with fcsr := w.fcsr ||| f.setWidth 14 }
/-- A written value of fcsr: RM codes 5 to 7 store 0 (R146). -/
def fcsrOf (x : Word) : BitVec 14 :=
  let v := x.setWidth 14
  if 5 ≤ v.toNat / 32 % 8 then v &&& ~~~(0xE0 : BitVec 14) else v

/-- The flags that lanes have raised, each with its lane (R151). -/
abbrev Raised := List (Nat × Flags)
def Raised.all (l : Raised) : Flags := l.foldl (fun f x => f ||| x.2) 0

/-- The lane mask of a fault record for `n` lanes: those that raised an enabled flag, in groups of n / 32 above 32 lanes
(R151, log entry 24). -/
def laneMask (ten : Flags) (n : Nat) (l : Raised) : Nat :=
  (l.foldl (fun (m : BitVec 32) x =>
    if x.2 &&& ten != 0 then m ||| BitVec.twoPow 32 (if n ≤ 32 then x.1 else x.1 * 32 / n) else m) 0).toNat

/-- The FP trap with its detail word (R151). -/
def fpTrap {α : Type} (s : State) (fl : Flags) (mask : Nat) : M α :=
  trapNow s 0x0C 0 0 (BitVec.ofNat 64 (fl.toNat + mask * 4294967296))

/-- The flags of an instruction are set; an enabled one raises FP (R151). -/
def raiseFlags (s : State) (n : Nat) (l : Raised) : M State :=
  let fl := Raised.all l
  let s := s.onWs (fun w => w.setFlags fl)
  if fl &&& s.ws.ten != 0 then fpTrap s fl (laneMask s.ws.ten n l) else .ok s

/-! ## Generators -/

/-- One step of srng (R148). -/
def srngStep (x : BitVec 32) : BitVec 32 :=
  let x := x ^^^ (x <<< 13)
  let x := x ^^^ (x >>> 17)
  x ^^^ (x <<< 5)

/-- One step of grng (R297). -/
def grngStep (x : Word) : Word :=
  let x := x ^^^ (x <<< 13)
  let x := x ^^^ (x >>> 7)
  x ^^^ (x <<< 17)

/-- `n` draws of srng in order. -/
def srngDraws (x : BitVec 32) (n : Nat) : List (BitVec 32) :=
  match n with
  | 0 => []
  | n + 1 => srngStep x :: srngDraws (srngStep x) n
def grngDraws (x : Word) (n : Nat) : List Word :=
  match n with
  | 0 => []
  | n + 1 => grngStep x :: grngDraws (grngStep x) n

def State.afterS (s : State) (ds : List (BitVec 32)) : State := { s with core := { s.core with srng := ds.getLastD s.core.srng } }
def State.afterG (s : State) (ds : List Word) : State := { s with core := { s.core with grng := ds.getLastD s.core.grng } }

/-- √3 × 2^62, rounded down; the product of R297 is irrational, so a sticky bit below it settles the rounding. -/
def sqrt3Bits : Nat := isqrt (3 * 2 ^ 124)

/-- The Gaussian value of a draw (R297). -/
def gaussOf (x : Word) : Nat :=
  let t := fld x 15 0 + fld x 31 16 + fld x 47 32 + fld x 63 48
  let d := Int.ofNat t - 131070
  if d = 0 then 0
  else (lay32.round .rne false 0 (decide (d < 0)) (2 * (d.natAbs * sqrt3Bits) + 1) (-79)).1

end Sys2Proof.Machine
end

