-- ==== Sys2Proof/Machine/Operands.lean ====
section
/-! DEFINITION. Operands: token registers (spec/12 R331), stream registers (spec/06 R157, spec/12 R320 to R322), last-read
marks (R166), scalar and vector sources and destinations (R244, R245, R277 to R279). -/
namespace Sys2Proof

/-! ## Operand fields that may name a stream (R229) -/

def SQ.q? : SQ → Option QReg
  | .q n => some n | .s _ => none
def SQ.regs : SQ → List SReg
  | .s r => [r] | .q _ => []
def VQ.q? : VQ → Option QReg
  | .q n => some n | .v _ => none
def VQ.regs : VQ → List VReg
  | .v r => [r] | .q _ => []
/-- A last-read mark; one on a stream register has no effect (R166). -/
def SQ.mark (a : SQ) (l : Bool) : Bool × SReg :=
  match a with
  | .s r => (l, r) | .q _ => (false, 0)
def VQ.mark (a : VQ) (l : Bool) : Bool × VReg :=
  match a with
  | .v r => (l, r) | .q _ => (false, 0)

end Sys2Proof

namespace Sys2Proof.Machine

/-! ## Scalar operands -/

/-- A token register of the running workspace whose copy has not completed (R331). -/
def Core.tokenPending (c : Core) (r : SReg) : Bool :=
  c.copies.any (fun k => k.wp == c.res.wp && k.task == (c.sx k.slot).task.id && fld k.w0 21 20 == 1
    && fld k.w0 19 15 == r.val && r != 0)

/-! ## Claims in use (R191, R192) -/

/-- The vault number of a vault place (R13). -/
def Place.vault (p : Place) : Nat := p.pa / 2 ^ 24 % 64
/-- A vault over a quad of a core's cluster (R64). -/
def nearVault (core : Nat) (p : Place) : Bool :=
  p.pa / 2 ^ 30 % 8 == dieOf core && p.vault % 8 == fileOf core / 2 && p.vault / 16 == rankOf core / 4

/-- The launch of a unit on a core holds a claim of a class (and instance) in the present tempo. -/
def State.claimOf (s : State) (core : Nat) (src : TaskSrc) (cls : Nat) (inst : Option Nat) : Bool :=
  match src with
  | .unit d rn _ =>
    let t := s.tempo (dieOf core)
    (s.cluster (clusterOf core)).cal.launches.any (fun l => l.recNo == recKey d rn && l.claims.any (fun k =>
      k.cls == cls && inst.all (· == k.inst) && decide (k.start ≤ t) && decide (t < k.fin)))
  | _ => false
/-- The launch of a slot's task holds a claim. -/
def State.claimAt (s : State) (core : Nat) (i : SlotId) (cls : Nat) (inst : Option Nat) : Bool :=
  s.claimOf core ((s.coreOf core).sx i).task.src cls inst
def State.holdsClaim (s : State) (cls : Nat) (inst : Option Nat) : Bool := s.claimAt s.cn s.core.cur cls inst

/-! ## Waits for the release queue (R113, R120) -/

/-- The place that a queued release store or atomic accesses. -/
def RelOp.place (o : RelOp) : Option Place :=
  match o with
  | .store p _ _ _ => some p
  | .amo p _ _ _ _ _ _ _ _ => some p
  | _ => none

/-- The context is held back by an operation of its release queue (R120): in a booked task a fixed wait, in which it keeps
the core, for a near vault under a VAULT claim (R191), else LATE. -/
def holdBack {α : Type} (s : State) (o : RelOp) : M α :=
  let fixed : Bool := match o.place with
    | some p => p.kind == 1 && nearVault s.cn p && s.holdsClaim 8 (some p.vault)
    | none => false
  if s.booked && fixed then stallNow s 0x26 else waitNow s 0x26 0x0D 0

/-- The slot's queued atomic that will write one of the registers (R120). -/
def State.atomicInto (s : State) (rs : List SReg) : Option RelEntry :=
  s.slot.relq.find? (fun e => match e.op with
    | .amo _ _ _ _ _ _ d wp _ => d != 0 && rs.contains d && wp == s.core.res.wp
    | _ => false)

/-- No named register is a pending token (R331) or the destination of a queued atomic (R120). -/
def tokensReady (s : State) (rs : List SReg) : M Unit :=
  match rs.find? s.core.tokenPending with
  | some r => waitNow s 0x22 0x02 r.val
  | none =>
    match s.atomicInto rs with
    | some e => holdBack s e.op
    | none => .ok ()

/-- A queued atomic that acquires holds back every later access (R120). -/
def accessReady (s : State) : M Unit :=
  match s.slot.relq.find? (fun e => match e.op with
    | .amo _ _ _ _ _ _ _ _ acq => acq
    | _ => false) with
  | some e => holdBack s e.op
  | none => .ok ()

/-! ## Stream queues (R157) -/

/-- The stream engine of stream `n` goes on. -/
def State.kick (s : State) (n : QReg) : State :=
  if s.ws.q[n].dir then s.postOnce (.streamStoreWrite s.cn n) else s.postOnce (.streamFetch s.cn n)

/-- The bindings that an instruction's stream operands need (R157). -/
def bindingOk (s : State) (src dst : Option QReg) : Bool :=
  (match src with
    | some n => s.ws.q[n].bound && !s.ws.q[n].dir
    | none => true) &&
  (match dst with
    | some n => s.ws.q[n].bound && s.ws.q[n].dir
    | none => true)

/-- A source queue holds an element and a destination queue has room; a faulted element traps (R157, R322). -/
def queuesReady (s : State) (src dst : Option QReg) : M Unit := do
  match src with
  | some n =>
    match s.ws.q[n].queue with
    | [] => waitNow (s.kick n) 0x25 0x06 n.val
    | _ => pure ()
  | none => pure ()
  match dst with
  | some n => if 8 ≤ s.ws.q[n].queue.length then waitNow (s.kick n) 0x25 0x06 n.val else pure ()
  | none => pure ()
  match src with
  | some n =>
    match s.ws.q[n].queue with
    | e :: _ => if e.cause ≠ 0 then trapNow s e.cause e.reason e.addr 0 else pure ()
    | [] => pure ()
  | none => pure ()

/-- Everything that an instruction's register operands need before it executes: bindings, tokens, queues (R157, R209,
R331). -/
def ready (s : State) (src dst : Option QReg) (rs : List SReg) : M Unit := do
  if bindingOk s src dst then pure () else illegalNow s
  tokensReady s rs
  queuesReady s src dst

/-- The oldest element of a source queue. -/
def Stream.head (q : Stream) : VWord :=
  match q.queue with
  | e :: _ => e.val
  | [] => 0

/-- One element taken (R157, R320): after the last one the stream is no longer bound. -/
def Stream.take (q : Stream) : Stream :=
  { q with queue := q.queue.drop 1, pos := q.pos + 1, bound := decide (q.pos + 1 < q.total) }

/-- One element appended with its address (R157, R321): the low bytes up to the element width. -/
def Stream.append (q : Stream) (x : VWord) : Stream :=
  { q with
    queue := q.queue ++ [{ val := BitVec.ofNat 1024 (x.toNat % 2 ^ (8 * q.eb)), addr := q.addr q.pos, cause := 0, reason := 0 }],
    pos := q.pos + 1,
    bound := decide (q.pos + 1 < q.total) }

def Ws.onQ (w : Ws) (n : QReg) (f : Stream → Stream) : Ws := { w with q := w.q.set n (f w.q[n]) }

def State.takeQ (s : State) (src : Option QReg) : State :=
  match src with
  | some n => (s.onWs (fun w => w.onQ n Stream.take)).kick n
  | none => s

def State.appendQ (s : State) (n : QReg) (x : VWord) : State := (s.onWs (fun w => w.onQ n (fun q => q.append x))).kick n

/-- The value of a scalar source: of a stream, the low 8 bytes of its element (R245). -/
def Ws.srcS (w : Ws) (a : SQ) : Word :=
  match a with
  | .s r => w.getS r
  | .q n => (w.q[n].head).setWidth 64

/-- The value of a vector source (R279). -/
def Ws.srcV (w : Ws) (a : VQ) : VWord :=
  match a with
  | .v r => w.getV r
  | .q n => w.q[n].head

/-! ## Last-read marks (R166) -/

def Ws.killSs (w : Ws) (ks : List (Bool × SReg)) : Ws := ks.foldl (fun w k => if k.1 then w.killS k.2 else w) w
def Ws.killVs (w : Ws) (ks : List (Bool × VReg)) : Ws := ks.foldl (fun w k => if k.1 then w.killV k.2 else w) w

/-! ## Completing an instruction -/

/-- A scalar destination: a stream receives the low bytes of the 64-bit result, zero-extended (R245). -/
def State.putS (s : State) (d : SQ) (y : Word) : State :=
  match d with
  | .s r => s.onWs (fun w => w.setS r y)
  | .q n => s.appendQ n (y.setWidth 1024)

def State.putV (s : State) (d : VQ) (y : VWord) : State :=
  match d with
  | .v r => s.onWs (fun w => w.setV r y)
  | .q n => s.appendQ n y

/-- Marked scalar sources die, then the scalar destination is written, then the instruction retires. -/
def State.doneS (s : State) (d : SReg) (ks : List (Bool × SReg)) (y : Word) : State :=
  (s.onWs (fun w => (w.killSs ks).setS d y)).retire

/-- As `doneS`, for a destination and source that may be streams. -/
def State.doneSQ (s : State) (d a : SQ) (ks : List (Bool × SReg)) (y : Word) : State :=
  (((s.takeQ a.q?).onWs (fun w => w.killSs ks)).putS d y).retire

/-- Marked sources die and the instruction retires. -/
def State.done (s : State) (ks : List (Bool × SReg)) : State := (s.onWs (fun w => w.killSs ks)).retire

def State.doneVQ (s : State) (d a : VQ) (vs : List (Bool × VReg)) (ss : List (Bool × SReg)) (y : VWord) : State :=
  (((s.takeQ a.q?).onWs (fun w => (w.killVs vs).killSs ss)).putV d y).retire

/-! ## Scalar integers (R244) -/

/-- The result of width w extended to 64 bits (R244). -/
def extend (t : IT) (y : Nat) : Word := BitVec.ofInt 64 (t.value y)

/-- The low w bits of a register. -/
def lowBits (t : IT) (x : Word) : Nat := x.toNat % 2 ^ t.bits

/-! ## Lanes (R277, R278) -/

/-- The lanes of width `w` of an `n`-lane value, lane 0 first. -/
def splitLanes (w n x : Nat) : List Nat :=
  match n with
  | 0 => []
  | n + 1 => x % 2 ^ w :: splitLanes w n (x / 2 ^ w)

def joinLanes (w : Nat) (l : List Nat) : Nat := l.foldr (fun x acc => x % 2 ^ w + acc * 2 ^ w) 0

/-- Lane `i` of an instruction of `n` lanes is active (R277). -/
def Ws.active (w : Ws) (k : Mask) (n i : Nat) : Bool :=
  decide (i < min w.vl.toNat n) &&
    (match k with
      | none => true
      | some r => (w.getK r).getLsbD i)

/-- What a destination's inactive lanes keep: the register's old lanes; for a stream destination a free value, since it
has no old value (R278, R279, log entry 25). -/
def State.oldV (s : State) (d : VQ) : VWord × State :=
  match d with
  | .v r => (s.ws.getV r, s)
  | .q _ => s.drawFree

/-- Active lanes computed over an old value, with the flags each raised (R278, R280). -/
def mapLanes (act : Nat → Bool) (old : List Nat) (f : Nat → Nat × Flags) (i : Nat) : List Nat × Raised :=
  match old with
  | [] => ([], [])
  | o :: t =>
    let r := mapLanes act t f (i + 1)
    if act i then
      let y := f i
      (y.1 :: r.1, if y.2 = 0 then r.2 else (i, y.2) :: r.2)
    else (o :: r.1, r.2)

/-- A vector form of width `w` over active lanes with sources that may be a stream: the common course of R278 to R280. -/
def vectorOp (s : State) (w : Nat) (k : Mask) (d a : VQ) (rs : List SReg) (vs : List (Bool × VReg)) (ss : List (Bool × SReg))
    (f : Ws → Nat → Nat × Flags) : M State := do
  ready s a.q? d.q? rs
  let n := 1024 / w
  let (old, s') := s.oldV d
  let r := mapLanes (s.ws.active k n) (splitLanes w n old.toNat) (f s.ws) 0
  let s'' ← raiseFlags s' n r.2
  .ok (s''.doneVQ d a vs ss (BitVec.ofNat 1024 (joinLanes w r.1)))

/-- Lane `i` of width `w` of a value. -/
def laneOf (w : Nat) {n : Nat} (x : BitVec n) (i : Nat) : Nat := (x.extractLsb' (i * w) w).toNat

end Sys2Proof.Machine
end

