-- ==== Sys2Proof/Machine/Coherence.lean ====
section
/-! DEFINITION. Leases, cuts, ownership and visibility times (spec/03 R79 to R90, R97, R104, R105), the executing points (spec/02
R67), the bytes of memory under keys (spec/01 R42 to R44), and the numbering of a context's writes (spec/04 R117). -/
namespace Sys2Proof.Machine

/-! ## Lines of the host (R105) -/

/-- A line of HBM; every other line that has an entry is a host's or peer's. -/
def hbmLine (line : Nat) : Bool := decide (line * 64 < 2 ^ 48)
/-- The line is cached through CXL.cache or a fabric port (R105), when host caching is enabled (R422). -/
def State.portCaches (s : State) (line : Nat) : Bool := !hbmLine line && (s.pkgx.enabled.getLsbD 7 || line * 64 / 2 ^ 48 == 3)
/-- The I/O die holds a host or peer line from its owner; a line that is not cached needs no such hold. -/
def State.hostHeld (s : State) (line : Nat) : Bool := !s.portCaches line || setHas s.pkgx.hostLines line
/-- The I/O die holds the line owned, as a write of it needs. -/
def State.hostOwns (s : State) (line : Nat) : Bool := !s.portCaches line || setHas s.pkgx.hostOwned line

/-- The owning I/O die asks the host or peer for a line with RdShared, or with RdOwn (`own`). -/
def State.askHost (s : State) (line : Nat) (own : Bool) : State :=
  if s.portCaches line then s.postOnce (.cxlCacheResponse ⟨line, own⟩) else s

/-! ## Acknowledgements (R81, R104, R107) -/

/-- The address-space word of a slot's workspace. -/
def Core.atpOf (c : Core) (wp : Nat) : Word :=
  if c.res.wp = wp then c.res.ws.atp
  else match c.alt with
    | some a => if a.wp = wp then a.ws.atp else BitVec.ofNat 64 (c.padNat (wp + 8656) 8)
    | none => BitVec.ofNat 64 (c.padNat (wp + 8656) 8)

/-- The function for which a write is made (R397). -/
def State.wakVfn (s : State) (w : WakDst) : Nat :=
  match w with
  | .slot core i _ => fld ((s.coreOf core).atpOf ((s.coreOf core).slot i).wp) 5 0
  | .stream core wp _ => fld ((s.coreOf core).atpOf wp) 5 0
  | .copy core id => (((s.coreOf core).copies.find? (fun k => k.id == id)).map (fun k => k.vfn)).getD 0
  | .matrix cl id => (((s.cluster cl).arr.queue.find? (fun k => k.id == id)).map (fun k => k.vfn)).getD 0
  | _ => 0


/-- The write is a host's or peer's own. -/
def WakDst.isHost (w : WakDst) : Bool :=
  match w with
  | .host _ => true | _ => false

/-- A WAK carries a write's visibility time to whom it concerns. -/
def State.wak (s : State) (w : WakDst) (line vt : Nat) : State :=
  match w with
  | .none => s
  | _ => s.post s.pkg.ptime (.wak w line vt false)

/-- Nothing holds the write's `vt` open any more. -/
def LineWait.done (w : LineWait) : Bool := !w.recalls && !w.cut && !w.snoop

/-- The WAKs of a line's writes whose `vt` is fixed are sent. -/
def State.settleWaits (s : State) (line : Nat) : State :=
  let ws := (s.entry line).waits
  if ws.any LineWait.done then
    let s := s.onEntry line (fun e => { e with waits := ws.filter (fun w => !w.done) })
    (ws.filter LineWait.done).foldl (fun s w => s.wak w.dst line w.vt) s
  else s

/-- A write whose R81 time is `vt`, held open while a BIRsp is due, but for a host's own write (R104). -/
def State.settle (s : State) (line d : Nat) (dst : WakDst) (vt : Nat) (cut : Bool) : State :=
  let e := s.entry line
  let snoop := e.snoop && !WakDst.isHost dst
  if cut ∨ snoop then
    s.setEntry line { e with waits := e.waits ++ [
      { dst := dst, vt := vt, recalls := false, cut := cut, snoop := snoop, force := false, die := d, req := none }] }
  else s.wak dst line vt

/-- The copies of a host or peer are invalidated before `vt` is fixed (R104): BISnpInv is sent. -/
def State.snoopHost (s : State) (line : Nat) : State :=
  let e := s.entry line
  if e.host ∧ !e.snoop then (s.setEntry line { e with snoop := true }).post s.pkg.ptime (.birsp line) else s

/-! ## Fills (R50, R79, R80, R86, R90, R97) -/

/-- A lease granted to die `d` (R79): its expiry, 0 when unleased. A home out of lock grants none (R90), nor an I/O die for a
line that it does not hold (R105); the owner of a line in M needs none (R86). -/
def State.grant (s : State) (line d : Nat) : Nat × State :=
  let s := s.visit line
  let e := s.entry line
  let h := s.lineHome line
  let t := s.ptimeOf h
  if !s.hostHeld line then (0, s.askHost line false)
  else if e.cutting || e.st == 3 || (e.st == 2 && d != h) || !s.locked h || !(hbmLine line || s.portCaches line) then (0, s)
  else if d = h then
    let x := t + s.pkg.llen1
    (x, s.setEntry line { e with lhz := max e.lhz x })
  else
    let x := t + s.pkg.llen2
    (x, s.setEntry line { e with hint := e.hint ||| BitVec.twoPow 8 d, hz := max e.hz x, st := 1 })

/-- A miss in a die's slice (R397), counted in the slice's cluster. -/
def State.countL2 (s : State) (d line vfn : Nat) : State := s.count (coreAt (d * 32 + sliceCluster (s.lineX line)) 0) 0x010 vfn

/-- A new copy of a line in a slice: its L1HZ starts at the floor, which covers what was granted before (log entry 91). -/
def State.newL2 (s : State) (d line key vfn exp : Nat) : L2Line :=
  { line := line, key := key, vfn := vfn, exp := exp, l1hz := s.l1Horizon d line, owner := none, ownE := 0, core := none }

/-- The home slice of an HBM line serves a request of another die: it holds the line (R62, R63, R76). -/
def State.homeSlice (s : State) (line key vfn : Nat) : State :=
  let h := s.lineHome line
  if 8 ≤ h then s
  else
    match s.l2Get h line key with
    | some y => s.fillL2 h y
    | none => (s.countL2 h line vfn).fillL2 h (s.newL2 h line key vfn 0)

/-- Die `d`'s slice is made to hold a line for a read, and how long its copy serves an L1 there (R62, R63, R79, R80): 0 when
the data serves this access only. The home slice holds the line without a lease, an owner die's too. -/
def State.fillSlice (s : State) (d line key vfn : Nat) : Nat × State :=
  let h := s.lineHome line
  let now := s.ptimeOf d
  let free := now + s.pkg.llen1
  match s.l2Get d line key with
  | some y =>
    if h = d ∨ (s.entry line).st = 2 then (free, s.fillL2 d y)
    else if now < y.exp then (y.exp, s.fillL2 d y)
    else
      let s := (s.countL2 d line vfn).homeSlice line key vfn
      let (x, s) := if s.locked d then s.grant line d else (0, s.visit line)
      (x, if x = 0 then s else s.fillL2 d { y with exp := x })
  | none =>
    let s := s.countL2 d line vfn
    if h = d ∨ (s.entry line).st = 2 then (free, s.fillL2 d (s.newL2 d line key vfn 0))
    else
      let s := s.homeSlice line key vfn
      let (x, s) := if s.locked d then s.grant line d else (0, s.visit line)
      (x, if x = 0 then s else s.fillL2 d (s.newL2 d line key vfn x))

/-- A line placed in an L1 of a core; the slice's tag names the core of a line that is owned, and no longer that of one given up
for it (R51). -/
def State.fillL1 (s : State) (core : Nat) (code : Bool) (x : L1Line) : State :=
  let now := s.ptimeOf (dieOf core)
  if code then s.onCore core (fun c => { c with l1i := l1Put 4 now c.l1i x })
  else
    let old := (s.coreOf core).l1d
    let new := l1Put 8 now old x
    let gone := old.filter (fun y => y.owned && !new.any (fun z => z.line == y.line))
    let s := s.onCore core (fun c => { c with l1d := new })
    let s := gone.foldl (fun s y => s.onL2 (dieOf core) y.line (fun z => { z with core := none })) s
    if x.owned then s.onL2 (dieOf core) x.line (fun z => { z with core := some core }) else s

/-- A core owns a line of its die's slice in its L1 (R51, R97): the slice holds it, unleased. -/
def State.ownL1 (s : State) (core line : Nat) (p : Place) : State :=
  let d := dieOf core
  let x := (s.l2Get d line p.key).getD (s.newL2 d line p.key p.vfn 0)
  (s.fillL2 d x).fillL1 core false { line := line, exp := 0, owned := true }

/-- The time at the executing point of a write that has no directory entry (R76): its vault's die, its home, its I/O die. -/
def State.pointTime (s : State) (p : Place) (line : Nat) : Nat := s.ptimeOf (if p.kind = 1 then p.pa / 2 ^ 30 % 8 else s.lineHome line)

/-- A read of a line by a core's LS path through its L1 (R50, R53, R79, R80): a hit, or a fill of the slice and the L1. -/
def State.readLine (s : State) (core line key vfn : Nat) (code : Bool) : State :=
  let d := dieOf core
  let now := s.ptimeOf d
  let c := s.coreOf core
  if l1Hit (if code then c.l1i else c.l1d) now line then
    s.onCore core (fun c => if code then { c with l1i := l1Use c.l1i line } else { c with l1d := l1Use c.l1d line })
  else
    let s := (s.count core (if code then 0x004 else 0x003) vfn)
    let (x2, s) := s.fillSlice d line key vfn
    if d = s.lineHome line then
      let (x, s) := s.grant line d
      if x = 0 then s else s.fillL1 core code { line := line, exp := x, owned := false }
    else if x2 = 0 ∨ !s.locked d then s
    else
      let x := min (now + s.pkg.llen1) x2
      (s.onL2 d line (fun y => { y with l1hz := max y.l1hz x })).fillL1 core code { line := line, exp := x, owned := false }

/-! ## Cuts and ownership (R81, R85, R86) -/

/-- A cut sent to every hinted die but `keep` (R81, R86), counted for the function whose request it serves (R397; 0 for a request of
a die, log entry 87). -/
def State.sendCuts (s : State) (line keep vfn : Nat) : State :=
  let e := s.entry line
  let dies := (hintDies e.hint).filter (· != keep)
  let s := s.setEntry line { e with cutting := true, cuas := dies }
  let s := dies.foldl (fun s d =>
    (s.post s.pkg.ptime (.cut line d)).count (coreAt (s.lineHome line % 8 * 32 + sliceCluster (s.lineX line)) 0) 0x011 vfn) s
  s.post (s.pkg.ptime + ((e.hz + s.pkg.gband) - s.ptimeOf (s.lineHome line))) (.cutCompletion line)

/-- The first ownership request of a line goes on (R86): a recall, a hold on the host's line, a cut of every other hinted die,
and time past LHZ come first; then OAK, after the turns of the cores that may have waited for the line (log entry 5). -/
def State.serveOwn (s : State) (line : Nat) : State :=
  let e := s.entry line
  match e.ownReq with
  | [] => s
  | d :: _ =>
    let t := s.ptimeOf (s.lineHome line)
    if e.st = 3 then s.setEntry line { e with ownReq := [] }
    else if e.st = 2 ∧ e.odie ≠ d then s.recall line
    else if e.st = 2 then s.postOnce (.oak line d)
    else if !s.hostOwns line then s.askHost line true
    else if e.cutting then s
    else if (hintDies e.hint).any (· != d) then s.sendCuts line d 0
    else s.once (s.pkg.ptime + max engineGap (e.lhz - t)) (.oak line d)

/-- A request of die `d` that finds the line in M elsewhere, or not yet held from the host, waits at the home in the order of arrival
(R86, R87, R105). -/
def State.holdReq (s : State) (line d : Nat) (ev : Event) : State :=
  let e := s.entry line
  if e.waits.any (fun w => w.req == some ev) then s
  else s.setEntry line { e with
    waits := e.waits ++ [{ dst := .none, vt := 0, recalls := true, cut := false, snoop := false, force := false, die := d, req := some ev }] }

/-- An ownership request of die `d` (R84, R86): the L1 or the cluster that owns the line at its home gives it up (R52, R85). -/
def State.requestOwn (s : State) (line d : Nat) : State :=
  let s := s.visit line
  let h := s.lineHome line
  let s := if d = h ∨ (s.entry line).st = 2 then s else (s.recallL1 2048 line).recallCluster h line
  let e := s.entry line
  if e.ownReq.contains d then s
  else if e.st = 2 ∧ e.odie ≠ d then (s.recall line).holdReq line d (.own line d)
  else if e.ownReq.isEmpty then (s.setEntry line { e with ownReq := [d] }).serveOwn line
  else s.setEntry line { e with ownReq := e.ownReq ++ [d] }

/-! ## Writes (R81, R84, R86, R90, R95, R104) -/

/-- A tile's mark is performed (R95): the line enters T. -/
def State.markLine (s : State) (line : Nat) (dst : WakDst) : State :=
  match dst with
  | .tile tid =>
    match ((mapGet (s.die (tid / 8192)).tiles (tid % 8192)).getD TileEntry.reset).decl with
    | some t => s.onEntry line (fun e => { e with st := 3, tid := tid, odie := dieOf t.owner, held := false })
    | none => s
  | _ => s

/-- A mark finds its line in T: another tile's mark has come first (R96). -/
def State.marked (s : State) (line : Nat) (dst : WakDst) : Bool :=
  match dst with
  | .tile _ => (s.entry line).st == 3
  | _ => false

/-- A write of a line from die `d` at its home or its owner (R81, R84, R86, R90); `vt` is returned at once, or when the recall,
the hold on the host's line, the cut or the snoop that it waits for ends. `force` cuts whatever the remaining horizon. -/
def State.perform (s : State) (line d : Nat) (force : Bool) (dst : WakDst) : State :=
  let s := s.visit line
  let s := if WakDst.isHost dst then s else s.snoopHost line
  let e := s.entry line
  let h := s.lineHome line
  let t := s.ptimeOf h
  let out := !s.locked h
  let hold := fun (s : State) => s.onEntry line (fun e => { e with
    waits := e.waits ++ [{ dst := dst, vt := 0, recalls := true, cut := false, snoop := false, force := force, die := d, req := none }] })
  if s.marked line dst then s.post s.pkg.ptime (.wak dst line 0 true)
  else if e.st = 2 ∧ e.odie ≠ d then hold (s.recall line)
  else if e.st = 2 then s.settle line d dst (max (s.ptimeOf d) (s.l1Horizon d line)) false
  else if !s.hostOwns line then hold (s.askHost line true)
  else
    let beaconDue := out && decide ((s.die h).clk.lastBeacon < e.hz + s.pkg.gband)
    let s' :=
      if e.cutting then s.settle line d dst 0 true
      else if (e.st = 1 ∧ (force ∨ t + s.pkg.lcut < e.hz)) ∨ beaconDue then (s.sendCuts line 100 (s.wakVfn dst)).settle line d dst 0 true
      else s.settle line d dst (if out then 0 else max t (max e.hz e.lhz) + s.pkg.gband) false
    s'.markLine line dst

/-- A snoop of the host is answered once the cut and the recall are done (R105): the I/O die gives the line up. -/
def State.answerSnoop (s : State) (line : Nat) : State :=
  let e := s.entry line
  if e.hostAsks ∧ !e.cutting ∧ e.st ≠ 2 then
    let s := s.setEntry line { e with hostAsks := false }
    { s with pkgx := { s.pkgx with hostLines := setDel s.pkgx.hostLines line, hostOwned := setDel s.pkgx.hostOwned line } }
  else s

/-- A cut completes: at the last CUA or at the horizon (R81, R90). -/
def State.finishCut (s : State) (line t : Nat) : State :=
  let e := s.entry line
  let vt := if !s.locked (s.lineHome line) then 0 else max (min (e.hz + s.pkg.gband) t) e.lhz
  let ws := e.waits.map (fun w => if w.cut then { w with cut := false, vt := max w.vt vt } else w)
  let s := s.setEntry line { e with cutting := false, st := (if e.st = 3 then 3 else 0), hint := 0, hz := 0, cuas := [], waits := ws }
  ((s.settleWaits line).serveOwn line).answerSnoop line

/-! ## A context's writes (R117) -/

/-- The next write of the current slot on the LS path, not yet acknowledged. -/
def State.newWrite (s : State) : WakDst × State :=
  (.slot s.cn s.core.cur s.slot.wseq, s.onSlot (fun x => { x with
    wseq := x.wseq + 1,
    outStores := x.outStores + 1,
    fcount := x.fcount + 1,
    trk := { x.trk with count := x.trk.count + 1 } }))

/-- A write performed at once enters the tracker with its time (R117). -/
def State.trackNow (s : State) (t : Nat) : State := s.onSlot (fun x => { x with trk := { x.trk with v := max x.trk.v t } })

/-- A page whose lines have directory entries (R76). -/
def Place.coherent (p : Place) : Bool := p.cach && p.kind != 1 && !p.dev

/-- The line of byte `i` after a place. -/
def Place.line (p : Place) (i : Nat) : Nat := p.loc i / 64

/-- The lines of an access, each with a place on it. -/
def Span.lines (sp : Span) : List (Nat × Place) :=
  (sp.flatMap (fun e => (List.range ((e.1.pa % 64 + e.2 + 63) / 64)).map (fun j =>
    let o := if j = 0 then 0 else 64 * j - e.1.pa % 64
    (e.1.line o, { e.1 with pa := e.1.pa + o })))).foldl (fun acc x => if acc.any (fun y => y.1 == x.1) then acc else acc ++ [x]) []

/-! ## Bytes under keys (R41 to R44) -/

def State.keyLoaded (s : State) (k : Nat) : Bool := k == 0 || s.pkg.keys.any (· == k)

/-- An access under a permitted key whose slot is not loaded is counted (R42, R43). -/
def State.countKmiss (s : State) (core : Nat) (p : Place) : State :=
  let s := s.onCluster (clusterOf core) (fun c => { c with
    kmiss := BitVec.ofNat 64 (min (fld c.kmiss 31 0 + 1) 4294967295 + p.key * 4294967296 + p.vfn * 2199023255552) })
  s.count core 0x016 p.vfn
def State.countKmisses (s : State) (core : Nat) (sp : Span) : State :=
  sp.foldl (fun s e => if s.keyLoaded e.1.key then s else s.countKmiss core e.1) s

/-- A copy of a line cached under another key than the latest one. -/
def State.staleCopy (s : State) (line key : Nat) : Option StaleCopy := s.stale.find? (fun c => c.line == line && c.key == key)

/-- The tagged granules of a line as read under a key (R26, R44): the tags travel with the copy that is read, memory keeps its own
beside the ECC. -/
def State.tagsUnder (s : State) (key line : Nat) : List Nat :=
  match mapGet s.lineKey line with
  | none => s.lineTags line
  | some k =>
    if k = key then s.lineTags line
    else match s.staleCopy line key with
      | some c => c.tags
      | none => (s.hbmOf line k).tags

/-- A byte of a line as read under a key that is not the latest copy's, which is `k` (R44): from a copy cached under the key,
else what memory holds, decrypted when it is encrypted under another. -/
def State.otherKey (s : State) (k key l : Nat) : Byte :=
  let line := l / 64
  match s.staleCopy line key with
  | some c => c.bytes.getD (l % 64) 0
  | none =>
    let x := s.hbmOf line k
    if x.key = key then x.bytes.getD (l % 64) 0 else Config.decrypt x.key key line (BitVec.ofNat 512 (ofBytes x.bytes)) (l % 64)

/-- A byte as read under a key (R42, R44): zero in a device page (R262) and under a slot not loaded. -/
def State.byteUnder (s : State) (p : Place) (l : Nat) : Byte :=
  if p.dev then 0
  else if p.kind ≥ 2 then readByte s.mem l
  else if !s.keyLoaded p.key then 0
  else
    match mapGet s.lineKey (l / 64) with
    | some k => if k = p.key then readByte s.mem l else s.otherKey k p.key l
    | none => readByte s.mem l

/-- Fabric release mode holds, until its exit has ended on every die (R136, R137). -/
def State.frmOn (s : State) : Bool := s.pkg.frmMode

/-- A host's write still matters (R104, R126): it has no `vt` yet, or some die's time has not reached it. -/
def State.hostAhead (s : State) (w : HostWrite) : Bool :=
  match w.vt with
  | none => true
  | some v => (s.lineHome w.line :: s.pkgx.present).any (fun d => decide (s.releaseTime d < v))

/-- The bytes of an access, in order. -/
def State.readSpan (s : State) (sp : Span) : List Byte := sp.bytes.map (fun x => s.byteUnder x.1 x.2)

/-- The first write of a line under another key than its latest copy's (R44): the line as that key reads it becomes the latest
copy, a dirty copy under the old key stays cached beside it. -/
def State.rekey (s : State) (p : Place) (line : Nat) : State :=
  if p.kind ≥ 2 then s
  else
    let s := match mapGet s.lineKey line with
      | some k => if k = p.key then s
        else
          let x := s.hbmOf line k
          let bytes := (upto (line * 64) 64).map (s.byteUnder p)
          let tags := s.tagsUnder p.key line
          let old := if x.dirty then [({ line := line, key := k, bytes := s.lineBytes line, tags := s.lineTags line } : StaleCopy)] else []
          { s.setTags line tags with
            mem := writeLocs s.mem (upto (line * 64) 64) bytes,
            stale := (s.stale.filter (fun (c : StaleCopy) => !(c.line == line && c.key == p.key))) ++ old,
            hbm := if p.coherent then mapSet s.hbm line { x with dirty := false } else mapDel s.hbm line }
      | none => s
    { s with lineKey := mapSet s.lineKey line p.key }

/-- What memory holds of a cacheable line that a write makes dirty (R274, R275). -/
def State.noteDirty (s : State) (p : Place) (line : Nat) : State :=
  if p.coherent then { s with hbm := mapSet s.hbm line { s.hbmOf line p.key with dirty := true } } else s

/-- Bytes written by an access: those in a device page or under a slot not loaded are discarded (R42, R262), tags of touched
granules go (R26). -/
def State.writeSpan (s : State) (sp : Span) (bs : List Byte) : State :=
  let s := sp.lines.foldl (fun s l => if s.keyLoaded l.2.key && !l.2.dev then (s.rekey l.2 l.1).noteDirty l.2 l.1 else s) s
  let cells := (sp.bytes.zip bs).filter (fun x => s.keyLoaded x.1.1.key && !x.1.1.dev)
  { s with
    mem := writeLocs s.mem (cells.map (fun x => x.1.2)) (cells.map (fun x => x.2)),
    tags := cells.foldl (fun t x => setDel t (x.1.2 / 16)) s.tags,
    bad := s.bad.filter (fun w => !((upto (8 * w) 8).all (fun l => cells.any (fun x => x.1.2 == l)))) }

/-- A word with an uncorrected error lies in an access (R49): the first such byte's place. -/
def State.spanFault (s : State) (sp : Span) : Option Place :=
  if s.bad.isEmpty then none
  else (sp.find? (fun e => (List.range e.2).any (fun i => setHas s.bad (e.1.loc i / 8)))).map (·.1)

/-- The place of a byte of memory named by its key, as it is held. -/
def State.placeOfKey (s : State) (k : Nat) : Place :=
  let key := (mapGet s.lineKey (k / 64)).getD 0
  if k < 2 ^ 48 then
    { pa := k % 2 ^ 37, key := key, kind := 0, hm := true, hdie := k / 2 ^ 37, cach := true, dev := false, vfn := 0 }
  else { pa := k, key := key, kind := k / 2 ^ 48, hm := false, hdie := 0, cach := false, dev := false, vfn := 0 }

/-- The bytes of a line's mask with their keys. -/
def maskedCells (line : Nat) (mask : BitVec 64) (data : BitVec 512) : List (Nat × Byte) :=
  ((List.range 64).filter (fun i => mask.getLsbD i)).map (fun i => (line * 64 + i, data.extractLsb' (8 * i) 8))

/-- Bytes of a line written where it is held, with the tags of the granules they touch (R26): a cached line becomes dirty. -/
def State.writeMasked (s : State) (line : Nat) (mask : BitVec 64) (data : BitVec 512) (tags : BitVec 4) : State :=
  let cells := maskedCells line mask data
  let s := s.noteDirty { s.placeOfKey (line * 64) with cach := true } line
  { s with
    mem := writeLocs s.mem (cells.map (·.1)) (cells.map (·.2)),
    tags := cells.foldl (fun t x => if tags.getLsbD (x.1 / 16 % 4) then setAdd t (x.1 / 16) else setDel t (x.1 / 16)) s.tags,
    bad := s.bad.filter (fun w => !((upto (8 * w) 8).all (fun l => cells.any (fun x => x.1 == l)))) }

/-- A whole line as a message carries it: its data and the tags of its granules. -/
def State.lineData (s : State) (line : Nat) : BitVec 512 := BitVec.ofNat 512 (ofBytes (s.lineBytes line))
def State.lineTagBits (s : State) (line : Nat) : BitVec 4 :=
  (s.lineTags line).foldl (fun (m : BitVec 4) g => m ||| BitVec.twoPow 4 (g % 4)) 0

/-! ## Tiles (R92, R97) -/

def State.tile (s : State) (tid : Nat) : TileEntry := (mapGet (s.die (tid / 8192)).tiles (tid % 8192)).getD TileEntry.reset
def State.onTile (s : State) (tid : Nat) (f : TileEntry → TileEntry) : State :=
  s.onDie (tid / 8192) (fun d => { d with tiles := mapSet d.tiles (tid % 8192) (f (s.tile tid)) })

/-- The core owns the tile of a line in T (R97). -/
def State.tileOwner (s : State) (core line : Nat) : Bool :=
  let t := s.tile (s.entry line).tid
  t.state == 1 && t.owner == core
/-- Whether a write by a core to a line is refused because the line belongs to a tile (R97). -/
def State.tileRefuses (s : State) (core line : Nat) : Bool := (s.entry line).st == 3 && !s.tileOwner core line

/-! ## Accesses of contexts and engines -/

/-- An access to a line by anything but core `core`'s LS path takes it from the L1s and clusters that own it (R52, R85), on its
own die and at the home; a line of a tile is served as a snapshot and is not recalled (R97). -/
def State.lineTouched (s : State) (core d line : Nat) : State :=
  if (s.entry line).st = 3 then s
  else ((s.recallL1 core line).recallCluster d line).recallCluster (s.lineHome line) line

/-- A write by the core that owns the line in its L1, or whose cluster owns it (R84, R85): its `vt` is the present time, or the
latest L1 expiry `e`. -/
def State.ownedWrite (s : State) (line : Nat) (w : WakDst) (e : Nat) : State :=
  (s.snoopHost line).settle line s.dn w (max s.now e) false

/-- The slice in which a write of a line from die `d` is performed holds the line: the home's, or an owner die's (R81, R84). -/
def State.writeSlice (s : State) (d line : Nat) (p : Place) : State :=
  let e := s.entry line
  if s.lineHome line = d ∨ (e.st = 2 ∧ e.odie = d) then (s.fillSlice d line p.key p.vfn).2
  else if e.st = 2 then s
  else s.homeSlice line p.key p.vfn

/-- The directory's part of a write of the current core's context to a line (R81, R84, R85, R97); `sc` is the scope of an atomic,
a release store or a reduction, `w` who takes the `vt`. -/
def State.lineWrite (s : State) (line : Nat) (p : Place) (sc : Option Scope) (w : WakDst) : State :=
  if p.coherent = false then s.wak w line (s.pointTime p line)
  else if (s.entry line).st = 3 then (s.ownL1 s.cn line p).wak w line s.now
  else if s.core.ownsLine line then
    let e := if s.lineHome line = s.dn then (s.entry line).lhz else s.l1Horizon s.dn line
    (s.setCore { s.core with l1d := l1Use s.core.l1d line }).ownedWrite line w e
  else
    let own := match s.clusterOwner s.dn line with
      | some (c, e) => if c = clusterIn s.cn ∧ sc = some .cluster then some e else none
      | none => none
    match own with
    | some e => s.ownedWrite line w e
    | none =>
      let s := (s.setCore { s.core with l1d := l1Use s.core.l1d line }).lineTouched s.cn s.dn line
      (s.writeSlice s.dn line p).perform line s.dn false w

/-- The directory's part of a write of the current context to the lines of an access, which its core's L1 instruction cache
gives up (R227); each line is a write of its tracker (R117). -/
def State.contextWrite (s : State) (sp : Span) (sc : Option Scope) : State :=
  sp.lines.foldl (fun s l =>
    let (w, s) := s.newWrite
    let s := s.setCore { s.core with l1i := s.core.l1i.filter (fun y => y.line != l.1) }
    s.lineWrite l.1 l.2 sc w) s

/-- The lines of an access that a core's network port moves (R71): all but those that its L1 serves. -/
def State.portLines (s : State) (core : Nat) (sp : Span) (wr code : Bool) : Nat :=
  let c := s.coreOf core
  let l1 := if code then c.l1i else c.l1d
  (sp.lines.filter (fun l => !(l.2.coherent &&
    (if wr then c.ownsLine l.1 else l1Hit l1 (s.ptimeOf (dieOf core)) l.1)))).length

/-- The lines of an acquire, a release or an atomic at a scope that leave the core (R67, R71): all but those that its L1 owns, at core
scope or as a tile's owner. -/
def State.pointLines (s : State) (sp : Span) (sc : Scope) : Nat :=
  (sp.lines.filter (fun l => !(l.2.coherent && s.core.ownsLine l.1 && (sc == .core || (s.entry l.1).st == 3)))).length

/-- Requests of function `vfn` for `n` lines leave a core's port (R71): what its bucket lacks they take from the next
refill. -/
def Core.pay (c : Core) (vfn n : Nat) : Core :=
  if n = 0 then c
  else
    let b := (mapGet c.tokens vfn).getD 0
    { c with
      tokens := mapSet c.tokens vfn (b - n),
      debt := if n ≤ b then c.debt else mapSet c.debt vfn ((mapGet c.debt vfn).getD 0 + (n - b)),
      active := setAdd c.active vfn }

/-- The running context pays for its request; a booked one takes no token (R71). -/
def State.payLines (s : State) (sp : Span) (wr code : Bool) : State :=
  if s.booked then s else s.setCore (s.core.pay s.vfn (s.portLines s.cn sp wr code))

def State.payPoint (s : State) (sp : Span) (sc : Scope) : State :=
  if s.booked then s else s.setCore (s.core.pay s.vfn (s.pointLines sp sc))

/-- A read of a line by a die waits: for the recall of another die's line in M (R86, R87), or for the host's answer to its I/O die
(R105). -/
def State.lineWaits (s : State) (line d : Nat) : Bool := s.ownedElsewhere line d || !s.hostHeld line
def State.askLine (s : State) (line d : Nat) : State := if s.ownedElsewhere line d then s.recall line else s.askHost line false

/-- A line of an access is one for which the core's access waits. -/
def State.away (s : State) (core : Nat) (sp : Span) : Bool := sp.lines.any (fun l => l.2.coherent && s.lineWaits l.1 (dieOf core))
/-- What it waits for is asked for. -/
def State.recallAway (s : State) (core : Nat) (sp : Span) : State :=
  sp.lines.foldl (fun s l => if l.2.coherent && s.lineWaits l.1 (dieOf core) then s.askLine l.1 (dieOf core) else s) s

/-- The directory's part of a read of the current context, of code or data: the owner of a tile holds its lines in its L1 and in the
slice of its die (R97); a line that the L1 serves reaches no slice. -/
def State.contextRead (s : State) (sp : Span) (code : Bool) : State :=
  sp.lines.foldl (fun s l =>
    if !l.2.coherent then s
    else if s.core.ownsLine l.1 && !code then s.setCore { s.core with l1d := l1Use s.core.l1d l.1 }
    else if (s.entry l.1).st = 3 then (if s.tileOwner s.cn l.1 && !code then s.ownL1 s.cn l.1 l.2 else s)
    else
      let hit := l1Hit (if code then s.core.l1i else s.core.l1d) s.now l.1
      (if hit then s else s.lineTouched s.cn s.dn l.1).readLine s.cn l.1 l.2.key l.2.vfn code) s

/-- The directory's part of an engine's read for a core: it fills the die's slice and no L1 (R60, R80). -/
def State.engineRead (s : State) (core : Nat) (sp : Span) : State :=
  sp.lines.foldl (fun s l =>
    if l.2.coherent ∧ (s.entry l.1).st ≠ 3 then ((s.lineTouched 2048 (dieOf core) l.1).fillSlice (dieOf core) l.1 l.2.key l.2.vfn).2 else s) s

/-- A write of an owner's engine to a tile line is performed at the slice of its die, after the L1 has given the line up (R97). -/
def State.tileWrite (s : State) (d line : Nat) (p : Place) : State :=
  let s := s.recallL1 2048 line
  s.fillL2 d ((s.l2Get d line p.key).getD (s.newL2 d line p.key p.vfn 0))

/-- The directory's part of an engine's write for a core: each line returns its `vt` to the command in a WAK (R81, R97,
R112). -/
def State.engineWrite (s : State) (core : Nat) (sp : Span) (dst : WakDst) : State :=
  sp.lines.foldl (fun s l =>
    if l.2.coherent = false then s.wak dst l.1 (s.pointTime l.2 l.1)
    else if (s.entry l.1).st = 3 then (s.tileWrite (dieOf core) l.1 l.2).wak dst l.1 (s.ptimeOf (dieOf core))
    else ((s.lineTouched 2048 (dieOf core) l.1).writeSlice (dieOf core) l.1 l.2).perform l.1 (dieOf core) false dst) s

/-! ## Executing points (R51, R67, R84, R85, R106, R116) -/

/-- A die may execute an operation on a line below its home (R84, R86): it owns the line, or it is the home and no other die
has a copy. -/
def State.dieHolds (s : State) (line d : Nat) : Bool :=
  let e := s.entry line
  if s.lineHome line = d then e.st != 2 && e.hint == 0 && !e.cutting else e.st == 2 && e.odie == d

/-- The point that a scope and page select holds a cacheable line as R67, R106 and R116 ask; `amo` for an atomic. -/
def State.pointReady (s : State) (p : Place) (line : Nat) (sc : Scope) (amo : Bool) : Bool :=
  let d := s.dn
  if !p.coherent ∨ (s.entry line).st = 3 then true
  else if p.kind ≠ 0 then (if amo then s.dieHolds line d && s.hostOwns line else !s.lineWaits line d)
  else match sc with
    | .core => s.core.ownsLine line || s.dieHolds line d
    | .cluster => (match s.clusterOwner d line with
      | some (c, _) => c == clusterIn s.cn
      | none => false) || s.dieHolds line d
    | .die => if s.lineHome line = d then !s.ownedElsewhere line d else s.dieHolds line d
    | _ => !s.ownedElsewhere line d

/-- The point asks for the line (R85, R86, R106); `amo` for an atomic. -/
def State.askPoint (s : State) (p : Place) (line : Nat) (sc : Scope) (amo : Bool) : State :=
  let s := s.visit line
  let e := s.entry line
  let d := s.dn
  let wide := p.kind = 0 ∧ (sc = .package ∨ sc = .system)
  if p.kind ≠ 0 ∧ !amo then s.askLine line d
  else if wide ∨ s.lineHome line = d then
    if s.ownedElsewhere line d then s.recall line
    else if e.cutting ∨ e.hint = 0 then s
    else s.sendCuts line 100 s.vfn
  else s.requestOwn line d

/-- The point takes the line that it may take: owners below it give it up, a core or cluster scope makes an owner. -/
def State.takePoint (s : State) (p : Place) (line : Nat) (sc : Scope) : State :=
  let d := s.dn
  if !p.coherent ∨ (s.entry line).st = 3 then s
  else if p.kind ≠ 0 then s.lineTouched 2048 d line
  else match sc with
    | .core =>
      if s.core.ownsLine line then s
      else ((s.lineTouched s.cn d line).fillSlice d line p.key p.vfn).2.ownL1 s.cn line p
    | .cluster =>
      if (match s.clusterOwner d line with
        | some (c, _) => c == clusterIn s.cn
        | none => false) then s
      else
        let s := s.lineTouched 2048 d line
        let s := (s.fillSlice d line p.key p.vfn).2
        let e := if s.lineHome line = d then (s.entry line).lhz else s.l1Horizon d line
        s.onL2 d line (fun y => { y with owner := some (clusterIn s.cn), ownE := e })
    | _ => s.lineTouched 2048 d line

/-- An acquire load at cluster scope and wider invalidates the issuing core's L1 copy (R116). -/
def State.acquireDrops (s : State) (line : Nat) (sc : Scope) : State :=
  if sc = .core then s else s.setCore { s.core with l1d := s.core.l1d.filter (fun y => y.line != line || y.owned) }

end Sys2Proof.Machine
end

