-- ==== Sys2Proof/Machine/Translate.lean ====
section
/-! DEFINITION. Translation (spec/01 R11 to R20, R30 to R36, R42, R45): page-table entries, walks, TLBs, parking and the
fault buffer. -/
namespace Sys2Proof.Machine

/-- The rights an access needs (R20), with the bits of AK (R37): 1 read, 2 write, 4 execute. -/
structure Need where
  rd : Bool
  wr : Bool
  ex : Bool
deriving DecidableEq, Repr

def Need.load : Need := { rd := true, wr := false, ex := false }
def Need.store : Need := { rd := false, wr := true, ex := false }
def Need.both : Need := { rd := true, wr := true, ex := false }
def Need.fetch : Need := { rd := false, wr := false, ex := true }
def Need.ak (n : Need) : BitVec 3 := BitVec.ofNat 3 (bit01 n.rd + bit01 n.wr * 2 + bit01 n.ex * 4)

/-! ## Keys and function registers (R42, R43, R45, R70) -/

/-- A function may use a key on a leaf (R42). -/
def State.keyAllowed (s : State) (vfn key kind : Nat) : Bool :=
  vfn == 0 || 2 ≤ kind ||
    (let v := (s.fn vfn).vkey
     key != 0 && decide (fld v 8 0 ≤ key) && decide (key < fld v 8 0 + fld v 18 9) && decide (key ≤ 511))

/-- Frames `f` to `f + n - 1` lie in one range of the function (R45). -/
def State.inRange (s : State) (vfn f n : Nat) : Bool :=
  vfn == 0 || (s.fn vfn).ranges.any (fun r => decide (r.1 ≤ f) && decide (f + n ≤ r.2 + 1))

/-! ## Frames (R13 to R15) -/

/-- An HBM frame is valid under its home mode (R14). -/
def State.hbmFrameOk (s : State) (ppn : Nat) (hm : Bool) (hdie : Nat) : Bool :=
  let off := ppn % 2 ^ 32 * 65536
  decide (ppn / 2 ^ 32 = 0) && (hm || hdie == 0) &&
    (if hm then decide (s.pkg.hsplit * 2 ^ 30 ≤ off) && decide (off < 96 * 2 ^ 30)
     else decide (off < 8 * s.pkg.hsplit * 2 ^ 30))

/-- A page-table entry (R17). -/
def ptePpn (e : Word) : Nat := fld e 63 28
def pteHm (e : Word) : Bool := e.getLsbD 19
def pteHdie (e : Word) : Nat := fld e 22 20
/-- The number of 64 KiB frames of a page by its SZ code (R17). -/
def pageFrames (sz : Nat) : Nat := if sz = 1 then 32 else if sz = 2 then 16384 else 1

/-- A valid pointer entry passes R19. -/
def State.ptrOk (s : State) (e : Word) : Bool :=
  fld e 6 1 == 0 && fld e 18 8 == 0 && fld e 27 23 == 0 && s.hbmFrameOk (ptePpn e) (pteHm e) (pteHdie e)

/-- A valid leaf read at a level passes R19 and R15. -/
def State.leafOk (s : State) (level : Nat) (e : Word) : Bool :=
  let sz := fld e 6 5
  let kind := fld e 18 17
  let ppn := ptePpn e
  let region := ppn / 2 ^ 32
  let dev := e.getLsbD 24
  let cach := e.getLsbD 23
  fld e 27 25 == 0 && (if level = 1 then sz == 2 else decide (sz < 2)) && ppn % pageFrames sz == 0
    && (pteHm e || pteHdie e == 0)
    && (if dev then region == 15 && sz == 0 && fld e 23 8 == 0
        else match kind with
          | 0 => s.hbmFrameOk ppn (pteHm e) (pteHdie e)
          | 1 => region == 1 && pteHm e && fld e 59 45 == 0 && pteHdie e == fld e 44 42
                 && decide (ppn % 256 * 65536 + pageFrames sz * 65536 ≤ 12 * 2 ^ 20) && sz != 2 && !cach
          | k => region == k && !(pteHm e) && fld e 16 8 == 0)

/-! ## Walks (R16 to R19, R45) -/

/-- What a walk ends in: a leaf, a fault with its reason, V = 0 at a level, a table line that another die still owns, a table
word with an uncorrected error. -/
inductive WalkRes where
  | ok (e : TlbEntry)
  | bad (reason : Nat)
  | absent (level : Nat)
  | held (line : Nat)
  | ecc (pa : Nat)
deriving DecidableEq, Repr

/-- Where a page-table word lies (R16, R17): plain memory, key 0 (R32, R41). -/
def tablePlace (vfn ppn : Nat) (hm : Bool) (hdie idx : Nat) : Place :=
  { pa := ppn * 65536 + idx * 8, key := 0, kind := 0, hm := hm, hdie := hdie, cach := true, dev := false, vfn := vfn }

def leafEntry (vfn vpn level : Nat) (e : Word) : TlbEntry :=
  let sz := if level = 1 then 2 else fld e 6 5
  let n := pageFrames sz
  { vfn := vfn, vbase := vpn / n * n, size := sz, pbase := ptePpn e / n * n, rd := e.getLsbD 1, wr := e.getLsbD 2,
    ex := e.getLsbD 3, user := e.getLsbD 4, key := fld e 16 8, kind := fld e 18 17, hm := pteHm e, hdie := pteHdie e,
    cach := e.getLsbD 23, dev := e.getLsbD 24 }

/-- The walk of a cluster from a table at `level` (R16), with the table words that it reads: a table frame outside the
function's ranges ends it (R45). -/
def State.walkFrom (s : State) (cl vfn vpn : Nat) (ppn : Nat) (hm : Bool) (hdie level : Nat) : WalkRes × List Place :=
  if !s.inRange vfn ppn 1 then (.bad 0x06, [])
  else
    let p := tablePlace vfn ppn hm hdie (vpn / 2 ^ (13 * level) % 8192)
    if s.ownedElsewhere (p.line 0) (cl / 32) then (.held (p.line 0), [])
    else if (s.spanFault [(p, 8)]).isSome then (.ecc p.pa, [p])
    else
      let e : Word := BitVec.ofNat 64 (ofBytes (s.readSpan [(p, 8)]))
      if e.getLsbD 0 = false then (.absent level, [p])
      else if e.getLsbD 7 then
        match level with
        | 0 => (.bad 0x03, [p])
        | l + 1 =>
          if s.ptrOk e then
            let r := s.walkFrom cl vfn vpn (ptePpn e) (pteHm e) (pteHdie e) l
            (r.1, p :: r.2)
          else (.bad 0x03, [p])
      else if level = 2 ∨ !s.leafOk level e then (.bad 0x03, [p])
      else (.ok (leafEntry vfn vpn level e), [p])

/-- The result of a whole walk and the words it reads (R16, R19). -/
def State.walkWords (s : State) (cl : Nat) (atp : Word) (vpn : Nat) : WalkRes × List Place :=
  let ppn := fld atp 51 16
  let hm := atp.getLsbD 52
  let hdie := fld atp 55 53
  if !s.hbmFrameOk ppn hm hdie then (.bad 0x03, []) else s.walkFrom cl (fld atp 5 0) vpn ppn hm hdie 2

/-- A walk of a cluster's walker: its reads are coherent loads through the die's slices (R32), which take the lines from the L1s
that own them (R52). -/
def State.walk (s : State) (cl : Nat) (atp : Word) (vpn : Nat) : WalkRes × State :=
  let r := s.walkWords cl atp vpn
  (r.1, r.2.foldl (fun s p => s.engineRead (coreAt cl 0) [(p, 8)]) s)

/-! ## TLBs (R30) -/

def TlbEntry.covers (e : TlbEntry) (vfn vpn : Nat) : Bool :=
  e.vfn == vfn && decide (e.vbase ≤ vpn) && decide (vpn < e.vbase + pageFrames e.size)

/-- The cluster-TLB set of an entry (R30). -/
def TlbEntry.set (e : TlbEntry) : Nat :=
  let v := e.vbase / pageFrames e.size
  (v % 256) ^^^ (v / 256 % 256) ^^^ e.vfn

/-- The entry is the most recently used; the core TLB holds 64. -/
def Core.tlbUse (c : Core) (e : TlbEntry) : Core := { c with tlb := (e :: c.tlb.erase e).take 64 }

/-- The entry is the most recently used of its set of 8. -/
def Cluster.tlbUse (c : Cluster) (e : TlbEntry) : Cluster :=
  let others := c.tlb.erase e
  let mine := others.filter (fun x => x.set == e.set)
  { c with tlb := e :: (match mine.drop 7 with
      | [] => others
      | drop => others.filter (fun x => !(drop.contains x))) }

/-- A translation held by the core's or its cluster's TLB; a cluster hit fills the core TLB. -/
def State.tlbFind (s : State) (core vfn vpn : Nat) : Option (TlbEntry × State) :=
  match (s.coreOf core).tlb.find? (fun e => e.covers vfn vpn) with
  | some e => some (e, s.onCore core (fun c => c.tlbUse e))
  | none =>
    match (s.cluster (clusterOf core)).tlb.find? (fun e => e.covers vfn vpn) with
    | some e =>
      let s := s.onCluster (clusterOf core) (fun c => c.tlbUse e)
      let s := s.count core 0x005 vfn
      some (e, s.onCore core (fun c => c.tlbUse e))
    | none => none

/-! ## Leaf checks (R20, R42, R45) -/

/-- The reason of the first leaf check that fails (R20, R42, R45, R262). -/
def State.leafCheck (s : State) (vfn : Nat) (user : Bool) (n : Need) (e : TlbEntry) : Option Nat :=
  if (user && !e.user) || (!user && n.ex && e.user) then some 0x05
  else if e.dev && (user || vfn != 0) then some 0x09
  else if (n.rd && !e.rd) || (n.wr && !e.wr) || (n.ex && !e.ex) then some 0x04
  else if !e.dev && !s.keyAllowed vfn e.key e.kind then some 0x07
  else if !s.inRange vfn e.pbase (pageFrames e.size) then some 0x06
  else none

/-- The place of a virtual address under an entry. -/
def TlbEntry.place (e : TlbEntry) (va : Nat) : Place :=
  { pa := (e.pbase + (va / 65536 - e.vbase)) * 65536 + va % 65536, key := e.key, kind := e.kind, hm := e.hm, hdie := e.hdie,
    cach := e.cach, dev := e.dev, vfn := e.vfn }

/-! ## Messages to a core (R366) -/

/-- A message joins the events; it arrives at its target's port in the next cycle, so that those sent in one cycle arrive together, by
increasing source core (R366). -/
def State.sendMsg (s : State) (target : Nat) (m : Msg) : State := s.post (s.pkg.ptime + 1) (.messageArrival target m)

def hwMsg (kind src vfn : Nat) (w0 w1 : Word) : Msg :=
  { kind := kind, src := src, sctx := 0, vfn := vfn, host := false, tag := 0, w0 := w0, w1 := w1, captag := false, entry := 0 }

/-! ## Parking (R34 to R37) -/

/-- The order of requesters within an entry (R36): task slots, then streams, copies, matrix commands. -/
def Requester.order (r : Requester) : Nat :=
  match r with
  | .ctx c i => taskSlot c i
  | .stream c wp _ => 32 + localOf c * 262144 + wp
  | .copy _ id => 8388608 + id
  | .matrix _ id => 4294967296 + id

/-- Requesters in the order of R36. -/
def insertPark (l : List ParkReq) (x : ParkReq) : List ParkReq :=
  match l with
  | [] => [x]
  | y :: t => if x.r.order < y.r.order then x :: y :: t else if x.r = y.r then y :: t else y :: insertPark t x

/-- The FAULT message of a new entry, or of the first drop with index 15 (R35). Its header names the cluster's local core 0 and
VFN 0, which the spec leaves open (log entry 95). -/
def State.faultMsg (s : State) (cl idx vfn vpn : Nat) : State :=
  let svc := fld (s.cluster cl).fbctl 26 16
  s.sendMsg svc (hwMsg 4 (coreAt cl 0) 0 (BitVec.ofNat 64 (cl + idx * 256 + vfn * 4096)) (BitVec.ofNat 64 vpn))

/-- A requester is parked on a page (R35): it joins an entry, takes the lowest free one, or is dropped. -/
def State.parkOn (s : State) (cl : Nat) (x : ParkReq) : State :=
  let c := s.cluster cl
  let s := s.count (coreAt cl 0) 0x014 x.vfn
  match (List.finRange 8).find? (fun i => c.fb[i].valid && c.fb[i].vpn == x.vpn && c.fb[i].vfn == x.vfn) with
  | some i =>
    s.onCluster cl (fun c => { c with fb := c.fb.set i { c.fb[i] with
      reqs := insertPark c.fb[i].reqs x, count := min (c.fb[i].count + 1) 255, ak := c.fb[i].ak ||| x.ak } })
  | none =>
    match (List.finRange 8).find? (fun i => !c.fb[i].valid) with
    | some i =>
      let e : FbEntry := { valid := true, vpn := x.vpn, vfn := x.vfn, ak := x.ak, level := x.level, reqs := [x], count := 1 }
      let s := s.onCluster cl (fun c => { c with fb := c.fb.set i e })
      s.faultMsg cl i.val x.vfn x.vpn
    | none =>
      let s := s.count (coreAt cl 0) 0x015 x.vfn
      let first := !c.fbDrop
      let s := s.onCluster cl (fun c => { c with
        dropped := c.dropped ++ [x], fbDrop := true, fbDrops := min (c.fbDrops + 1) 255 })
      if first then s.faultMsg cl 15 x.vfn x.vpn else s

/-- The status word of the workspace at `wp` changed where it is held: in the register file or in its image. -/
def Core.onTsw (c : Core) (wp : Nat) (f : Word → Word) : Core :=
  if c.res.wp = wp then { c with res := { c.res with ws := { c.res.ws with tsw := f c.res.ws.tsw } } }
  else
    match c.alt with
    | some a =>
      if a.wp = wp then { c with alt := some { a with ws := { a.ws with tsw := f a.ws.tsw } } }
      else c.padWrite (wp + 8648) (toBytes 8 (f (BitVec.ofNat 64 (c.padNat (wp + 8648) 8))).toNat)
    | none => c.padWrite (wp + 8648) (toBytes 8 (f (BitVec.ofNat 64 (c.padNat (wp + 8648) 8))).toNat)

/-- The status word of a slot's workspace. -/
def Core.tswOf (c : Core) (wp : Nat) : Word :=
  if c.res.wp = wp then c.res.ws.tsw
  else match c.alt with
    | some a => if a.wp = wp then a.ws.tsw else BitVec.ofNat 64 (c.padNat (wp + 8648) 8)
    | none => BitVec.ofNat 64 (c.padNat (wp + 8648) 8)

/-- A context parks (R34): its slot enters PARK, tsw.PK is set. -/
def State.parkCtx (s : State) (core : Nat) (i : SlotId) (vfn vpn : Nat) : State :=
  s.onCore core (fun c =>
    let wp := (c.slot i).wp
    let c := c.onSlot i (fun x => if x.st = .stop then { x with prev := .park } else { x with st := .park })
    let c := c.onSx i (fun x => { x with parked := some (vfn, vpn), waitCause := 0x27 })
    c.onTsw wp (fun t => setFld t 5 5 1))

/-- A requester parks in this cycle: it takes its place in the fault buffer when the cycle ends (R36). -/
def State.parkLater (s : State) (cl : Nat) (r : Requester) (ak : BitVec 3) (vfn vpn level : Nat) : State :=
  s.onCluster cl (fun c => { c with parkq := c.parkq ++ [{ r := r, ak := ak, vfn := vfn, vpn := vpn, level := level }] })

/-- The requesters of a cycle are placed in the order of R36. -/
def State.placeParked (s : State) : State :=
  s.clusters.foldl (fun s c =>
    if c.2.parkq.isEmpty then s
    else
      let s := s.onCluster c.1 (fun c => { c with parkq := [] })
      (c.2.parkq.foldl insertPark []).foldl (fun s x => s.parkOn c.1 x) s) s

/-- A parked context is released with tsw.PK clear; it reissues, or takes the trap of `fbdlv` (R39, R40). -/
def State.unparkCtx (s : State) (core : Nat) (i : SlotId) (fault : Option Nat) : State :=
  let s := s.onCore core (fun c =>
    let wp := (c.slot i).wp
    let c := c.onSlot i (fun x => if x.st = .park then { x with st := .ready } else if x.st = .stop ∧ x.prev = .park then { x with prev := .ready } else x)
    let c := c.onSx i (fun x => { x with parked := none, walkFault := fault.map (fun r => (x.parkVa, r)), readySince := s.pkg.ptime })
    c.onTsw wp (fun t => setFld t 5 5 0))
  s.noteTransp core i 3

/-! ## Misses (R31) -/

/-- A miss joins a walk for its page, takes a walker, or queues (R31). A walk ends in the next cycle at the earliest, so that every miss of
this one has joined it. -/
def State.miss (s : State) (r : Requester) (ak : BitVec 3) (cl : Nat) (vfn vpn : Nat) (atp : Word) : Option State :=
  let c := s.cluster cl
  let same := fun (w : Walk) => w.vfn == vfn && w.vpn == vpn
  let join := fun (w : Walk) => if same w then { w with reqs := w.reqs ++ [(r, ak)] } else w
  let fresh : Walk := { vfn := vfn, vpn := vpn, atp := atp, reqs := [(r, ak)] }
  if c.walks.any same then some (s.onCluster cl (fun c => { c with walks := c.walks.map join }))
  else if c.missq.any same then some (s.onCluster cl (fun c => { c with missq := c.missq.map join }))
  else if c.walks.length < 16 then
    some ((s.onCluster cl (fun c => { c with walks := c.walks ++ [fresh] })).post (s.pkg.ptime + 1) (.walkCompletion cl vfn vpn))
  else if c.missq.length < 32 then
    some ((s.onCluster cl (fun c => { c with missq := c.missq ++ [fresh] })).postOnce (.walkStart cl))
  else none

/-- A requester's miss on a page is already a walk's or waits for a walker. -/
def State.walking (s : State) (r : Requester) (cl : Nat) (vfn vpn : Nat) : Bool :=
  let mine := fun (w : Walk) => w.vfn == vfn && w.vpn == vpn && w.reqs.any (fun q => q.1 == r)
  (s.cluster cl).walks.any mine || (s.cluster cl).missq.any mine

/-- A requester has a walk in flight or queued. -/
def State.walkingAny (s : State) (cl : Nat) (r : Requester) : Bool :=
  let mine := fun (w : Walk) => w.reqs.any (fun q => q.1 == r)
  (s.cluster cl).walks.any mine || (s.cluster cl).missq.any mine

/-- An engine's requester looks at its access again. -/
def State.resume (s : State) (r : Requester) : State :=
  match r with
  | .ctx _ _ => s
  | .stream core _ n => (s.again (.streamFetch core n)).again (.streamStoreWrite core n)
  | .copy core id => s.again (.copyLineMove core id)
  | .matrix cl id => s.again (.matrixCommandComplete cl id)

/-! ## Translation for a context (R31, R34, R262) -/

/-- One page of an access of the running context: the entry, or the trap or the stall that stops it. A write of `frmode` by another than
root raises PRIV (R136), where any other device register raises PROT (R47; log entry 112). -/
def translatePage (s : State) (n : Need) (va : Word) (vpn : Nat) : M (TlbEntry × State) := do
  let w := s.ws
  if w.atp.getLsbD 63 = false then trapNow s 0x05 0x02 va 0
  else
    match s.tlbFind s.cn w.vfn vpn with
    | some (e, s) =>
      match s.leafCheck w.vfn (!w.sup) n e with
      | some reason =>
        if reason = 0x09 ∧ n.wr ∧ Config.deviceReg (e.place va.toNat).pa = some .frmode then privNow s
        else trapNow s (causeOfReason reason) reason va 0
      | none => .ok (e, s)
    | none =>
      if s.walking (.ctx s.cn s.core.cur) s.cl w.vfn vpn then stallNow s 0x20
      else
        let s := (s.count s.cn 0x005 w.vfn).onSx (fun x => { x with parkVa := va, asking := true })
        match s.miss (.ctx s.cn s.core.cur) n.ak s.cl w.vfn vpn w.atp with
        | some s => stallNow s 0x20
        | none => if s.booked then waitNow s 0x20 0x0A 0 else stallNow s 0x20

/-- The pieces of an access by 64 KiB page: virtual page and count of bytes. -/
def pieces (va len : Nat) : List (Nat × Nat) :=
  let first := min len (65536 - va % 65536)
  if first = len then [(va, len)] else [(va, first), (va + first, len - first)]

/-- The translation of an access of the running context (R262): every page, the lower first. `len` is at most 65,536. -/
def translate (s : State) (n : Need) (va : Word) (len : Nat) : M (Span × State) :=
  if 2 ^ 55 < va.toNat + len then trapNow s 0x06 0x01 va 0
  else
    (pieces va.toNat len).foldlM (fun (acc : Span × State) pc => do
      let (e, s) ← translatePage acc.2 n (if pc.1 = va.toNat then va else BitVec.ofNat 64 pc.1) (pc.1 / 65536)
      .ok (acc.1 ++ [(e.place pc.1, pc.2)], s)) ([], s)

/-! ## Translation for an engine (R31, R34, R46) -/

/-- What an engine's access meets: a span, a reason, a page that is not present (with the page and level), or nothing yet. -/
inductive EngRes where
  | ok (sp : Span)
  | bad (reason : Nat)
  | absent (vpn level : Nat)
  | wait
deriving DecidableEq, Repr

/-- One page of an engine's access: the TLBs, the result of its walk, else a walk (R31). -/
def State.enginePage (s : State) (r : Requester) (core : Nat) (atp : Word) (user : Bool) (n : Need) (va : Nat) :
    (TlbEntry ⊕ EngRes) × State :=
  let vfn := fld atp 5 0
  let vpn := va / 65536
  let cl := clusterOf core
  if atp.getLsbD 63 = false then (.inr (.bad 0x02), s)
  else
    match s.tlbFind core vfn vpn with
    | some (e, s) =>
      match s.leafCheck vfn user n e with
      | some reason => (.inr (.bad reason), s)
      | none => (.inl e, s)
    | none =>
      match (s.cluster cl).walked.find? (fun x => x.1 == r && x.2.1 == vpn) with
      | some (_, _, reason, level) =>
        let s := s.onCluster cl (fun c => { c with walked := c.walked.filter (fun x => !(x.1 == r)) })
        (.inr (if reason = 0 then .absent vpn level else .bad reason), s)
      | none =>
        if s.walking r cl vfn vpn then (.inr .wait, s)
        else
          match (s.count core 0x005 vfn).miss r n.ak cl vfn vpn atp with
          | some s => (.inr .wait, s)
          | none => (.inr .wait, s.resume r)

/-- An engine's access: every page; a read waits until no other die owns a line of it (R86). -/
def State.engineSpan (s : State) (r : Requester) (core : Nat) (atp : Word) (user : Bool) (n : Need) (va : Word) (len : Nat) :
    EngRes × State :=
  if 2 ^ 55 < va.toNat + len then (.bad 0x01, s)
  else
    let acc := (pieces va.toNat len).foldl (fun (acc : EngRes × State) pc =>
      match acc.1 with
      | .ok sp =>
        match acc.2.enginePage r core atp user n pc.1 with
        | (.inl e, s) => (.ok (sp ++ [(e.place pc.1, pc.2)]), s)
        | (.inr x, s) => (x, s)
      | x => (x, acc.2)) (.ok [], s)
    match acc.1 with
    | .ok sp => if n.rd && acc.2.away core sp then (.wait, (acc.2.recallAway core sp).resume r) else acc
    | _ => acc

end Sys2Proof.Machine
end

