-- ==== Sys2Proof/Machine/Access.lean ====
section
/-! DEFINITION. The LS path's accesses: local ones with margins and holds (spec/02 R57 to R61, spec/10 R263), global ones
with watchpoints, booked-task limits and tiles (spec/10 R262 to R265, spec/07 R192, spec/14 R392). -/
namespace Sys2Proof.Machine

/-! ## Margins (R57 to R59) -/

/-- A byte of the scratchpad inside a live allocation (R58). -/
def Core.inAlloc (c : Core) (o : Nat) : Bool := c.allocs.any (fun a => a.live && decide (a.base ≤ o) && decide (o < a.base + a.len))

/-- The first margin byte of an access. -/
def Core.firstMargin (c : Core) (ofs n : Nat) : Option Nat := (upto ofs n).find? (fun o => !c.inAlloc o)

/-- A margin touch recorded for a slot (R59): the first one since the last report is described, later ones are counted, in COUNT and,
above the record, as merged faults (R210). -/
def Core.touchMargin (c : Core) (i : SlotId) (o path : Nat) (wr : Bool) : Core :=
  c.onSx i (fun x => { x with
    margin := if x.margin = 0 then BitVec.ofNat 64 (o + (o / 8 % 96) * 262144 + path * 33554432 + bit01 wr * 268435456 + 536870912)
      else setFld (setFld x.margin 36 29 (min (fld x.margin 36 29 + 1) 255)) 45 37 (min (fld x.margin 45 37 + 1) 255) })

/-- The bytes that a checked read returns: zero in margins (R58). -/
def Core.checkedRead (c : Core) (check : Bool) (ofs n : Nat) : List Byte :=
  (upto ofs n).map (fun o => if check && !c.inAlloc o then 0 else readByte c.pad o)

/-- A write of bytes, but not to margins when checked (R58); workspace images note it (R163). -/
def Core.checkedWrite (c : Core) (check : Bool) (ofs : Nat) (bs : List Byte) : Core :=
  let cells := ((upto ofs bs.length).zip bs).filter (fun x => !check || c.inAlloc x.1)
  let c : Core := { c with
    pad := writeLocs c.pad (cells.map (·.1)) (cells.map (·.2)),
    padTags := cells.foldl (fun t x => setDel t (x.1 / 16)) c.padTags }
  let c : Core := { c with padBad := c.padBad.filter (fun w => !((upto (8 * w) 8).all (fun o => cells.any (fun x => x.1 == o)))) }
  cells.foldl (fun c x => c.markImages x.1 1) c

/-! ## Holds (R60, R61) -/

/-- A held range: offset, length, and whether it also blocks loads (a destination). -/
structure Held where
  ofs : Nat
  len : Nat
  dest : Bool
deriving DecidableEq, Repr

def cpyKind (k : CopyCmd) : Nat := fld k.w0 2 0
def cpyRow (k : CopyCmd) : Nat := fld k.w3 19 0
def cpyRows (k : CopyCmd) : Nat := fld k.w3 35 20
def CopyCmd.total (k : CopyCmd) : Nat := cpyRow k * cpyRows k
def CopyCmd.srcLocal (k : CopyCmd) : Bool := cpyKind k == 1 || cpyKind k == 3 || cpyKind k == 5
def CopyCmd.dstLocal (k : CopyCmd) : Bool := cpyKind k == 0 || cpyKind k == 3

/-- The rows of a copy's local endpoint that are still to move. -/
def CopyCmd.heldRows (k : CopyCmd) (base pitch : Nat) (dest : Bool) : List Held :=
  (List.range (cpyRows k)).filterMap (fun r =>
    let skip := k.pos - r * cpyRow k
    if skip < cpyRow k then some { ofs := base + 64 * pitch * r + skip, len := cpyRow k - skip, dest := dest } else none)

def CopyCmd.helds (k : CopyCmd) : List Held :=
  (if k.srcLocal then k.heldRows (fld k.w1 17 0) (fld k.w3 49 36) false else [])
    ++ (if k.dstLocal then k.heldRows (fld k.w2 17 0) (fld k.w3 63 50) true else [])

/-- The ranges a local stream holds: elements fetched ahead and still to read, or appended and not yet written (R320,
R321). -/
def Stream.helds (q : Stream) : List Held :=
  if !q.isLocal then []
  else if q.dir then q.queue.map (fun e => { ofs := fld e.addr 17 0, len := q.eb, dest := true })
  else if q.bound then
    (upto q.done (min (q.pos + 8) q.total - q.done)).map (fun j => { ofs := fld (q.addr j) 17 0, len := q.eb, dest := false })
  else []

/-- Bits of one element of an operand of format code `f` under a palette: 32 for the moment pairs (R153, R338). -/
def palElemBits (pal : BitVec 11) (f : Nat) : Nat := if pal.getLsbD 10 then 32 else (Fmt.ofCode f).bits
def palA (pal : BitVec 11) : Nat := pal.toNat % 32
def palB (pal : BitVec 11) : Nat := pal.toNat / 32 % 32

/-- Formats whose blocks carry a scale (R141). -/
def Fmt.scaled (f : Nat) : Bool := f == 14 || f == 15 || f == 16

/-- The most bytes of one row or column that a matrix load reads: dense ones (R342), or the records of a column in the compressed
form, within its pitch (R343); and the bytes of its scales. -/
def mxRowBytes (d : Word) (bits : Nat) : Nat :=
  let kd := fld d 47 32
  if d.getLsbD 10 then
    min (64 * fld d 31 12) (kd / 64 * (8 + 8 * bits) + (if kd % 64 = 0 then 0 else 8 + (kd % 64 * bits + 63) / 64 * 8))
  else kd * bits / 8
def mxScaleBytes (d : Word) : Nat := fld d 47 32 / 32
/-- The bytes of one element that `mxst` writes, its two members for a moment handle (R347). -/
def mxStoreElem (h d : Word) : Nat := (Fmt.ofCode (fld d 36 32)).bits / 8 * (if h.getLsbD 9 then 2 else 1)

/-- The local ranges of a matrix load (R60, R342). -/
def mxLoadHelds (pal : BitVec 11) (f : Nat) (a d sc : Word) : List Held :=
  if !(d.getLsbD 9) then []
  else
    (List.range (fld d 8 0)).map (fun r =>
        ({ ofs := fld a 17 0 + 64 * fld d 31 12 * r, len := mxRowBytes d (palElemBits pal f), dest := false } : Held))
      ++ (if Fmt.scaled f && !pal.getLsbD 10 then
            [({ ofs := fld sc 17 0, len := fld d 8 0 * mxScaleBytes d, dest := false } : Held)] else [])

/-- The local ranges that a matrix command holds (R60, R342, R347). -/
def MxCmd.helds (m : MxCmd) : List Held :=
  match m.op with
  | .lda _ a d sc => mxLoadHelds m.pal (palA m.pal) a d sc
  | .ldb _ a d sc => mxLoadHelds m.pal (palB m.pal) a d sc
  | .st h a d _ _ _ =>
    if d.getLsbD 9 then
      (List.range (fld d 8 0)).map (fun r =>
        ({ ofs := fld a 17 0 + 64 * fld d 31 12 * r, len := fld d 56 48 * mxStoreElem h d, dest := true } : Held))
    else []
  | _ => []

/-- How many local ranges it holds (R61): its source or destination, and the scales. -/
def MxCmd.endpoints (m : MxCmd) : Nat :=
  match m.op with
  | .lda _ _ d _ => if d.getLsbD 9 then 1 + bit01 (Fmt.scaled (palA m.pal) && !m.pal.getLsbD 10) else 0
  | .ldb _ _ d _ => if d.getLsbD 9 then 1 + bit01 (Fmt.scaled (palB m.pal) && !m.pal.getLsbD 10) else 0
  | .st _ _ d _ _ _ => bit01 (d.getLsbD 9)
  | _ => 0

/-- Every range held on a core (R60), but for that of one stream, which its own accesses do not meet. -/
def State.heldBut (s : State) (core : Nat) (own : Option (Nat × QReg)) : List Held :=
  let c := s.coreOf core
  let streams := fun (r : Resident) =>
    ((List.finRange 8).filter (fun n => decide (own ≠ some (r.wp, n)))).flatMap (fun n => (r.ws.q[n]).helds)
  c.copies.flatMap CopyCmd.helds
    ++ streams c.res
    ++ (match c.alt with
      | some a => streams a
      | none => [])
    ++ (c.drains.filter (fun d => decide (own ≠ some (d.wp, d.n)))).flatMap (fun d => d.st.helds)
    ++ c.puts.filterMap (fun p => p.src.map (fun o => ({ ofs := o, len := p.len, dest := false } : Held)))
    ++ ((s.cluster (clusterOf core)).arr.queue.filter (fun m => m.core == core)).flatMap MxCmd.helds
def State.held (s : State) (core : Nat) : List Held := s.heldBut core none

/-- Whether an access to granules meets a hold that blocks it (R60). -/
def heldMeets (hs : List Held) (ofs n : Nat) (wr : Bool) : Bool :=
  hs.any (fun h => (wr || h.dest) && 0 < h.len && decide (h.ofs / 64 ≤ (ofs + n - 1) / 64) && decide (ofs / 64 ≤ (h.ofs + h.len - 1) / 64))

/-- The count of held ranges (R61): each local endpoint and each local stream is one. -/
def State.heldCount (s : State) : Nat :=
  let streams := fun (w : Ws) => ((List.finRange 8).filter (fun n => w.q[n].isLocal && (w.q[n].bound || !w.q[n].queue.isEmpty))).length
  (s.core.copies.map (fun k => bit01 k.srcLocal + bit01 k.dstLocal)).sum + streams s.ws
    + (match s.core.alt with
      | some a => streams a.ws
      | none => 0)
    + (s.core.drains.filter (fun d => d.st.isLocal)).length + (s.core.puts.filter (fun p => p.src.isSome)).length
    + (((s.cluster s.cl).arr.queue.filter (fun m => m.core == s.cn)).map MxCmd.endpoints).sum

/-! ## Watchpoints (R392) -/

/-- The first byte of an access that an enabled watchpoint of the core matches: its unit and address. -/
def Debug.watchHit (d : Debug) (lcl : Bool) (addr n : Nat) (rd wr : Bool) : Option (Nat × Nat) :=
  if d.dctl.getLsbD 4 then none
  else
    let hit := fun (i : Fin 2) =>
      let c := d.dwc[i]
      let size := 8 * 2 ^ fld c 7 4
      let a := (if lcl then fld d.dwa[i] 17 0 else fld d.dwa[i] 54 0) / size * size
      if c.getLsbD 0 && (c.getLsbD 3 == lcl) && ((c.getLsbD 1 && rd) || (c.getLsbD 2 && wr)) && decide (addr < a + size) && decide (a < addr + n)
      then some (4 + i.val, max a addr) else none
    match hit 0 with
    | some x => some x
    | none => hit 1

/-- A matching watchpoint raises BREAK (R392). -/
def watch (s : State) (lcl : Bool) (addr n : Nat) (rd wr : Bool) (lane : Nat) : M Unit :=
  match s.core.dbg.watchHit lcl addr n rd wr with
  | some (u, a) => trapNow s 0x17 0 (BitVec.ofNat 64 a) (BitVec.ofNat 64 (u + bit01 wr * 8 + lane * 16))
  | none => .ok ()

/-! ## Local accesses (R21, R263) -/

/-- The offset of a local access inside the scratchpad, or PROT with LOCAL_RANGE. -/
def localOfs (s : State) (a : Word) (n : Nat) : M Nat :=
  if a.toNat + n ≤ 196608 then .ok a.toNat else trapNow s 0x06 0x08 a 0

/-- The margin touch of an access of the running context recorded (R59); not again when it is reissued after a hold (R61). -/
def State.noteMargin (s : State) (touch : Option Nat) (wr : Bool) : State :=
  match touch with
  | some o => if s.sup ∨ s.sx.touched then s else s.setCore (s.core.touchMargin s.core.cur o 0 wr)
  | none => s

/-- The hold test (R60, R61, R263). -/
def holdGate (s : State) (ofs n : Nat) (wr : Bool) : M Unit :=
  if heldMeets (s.held s.cn) ofs n wr then
    if s.booked ∧ s.timingTrap 0x10 then trapNow s 0x10 0 (BitVec.ofNat 64 ofs) 0
    else .error (.st ((s.onSx (fun x => { x with touched := true })).waitHere 0x24))
  else .ok ()

/-- The margin touch of an access recorded, then the hold test (R60, R61, R263). -/
def localGate (s : State) (ofs n : Nat) (wr : Bool) : M State := do
  let s := s.noteMargin (s.core.firstMargin ofs n) wr
  holdGate s ofs n wr
  .ok (s.onSx (fun x => { x with touched := false }))

/-! ## Window granules (R133) -/

/-- A write of a window granule by core `src`: logged when racy, then recorded (R133). -/
def State.granuleWrite (s : State) (owner src idx : Nat) (e : WinEntry) (g off len : Nat) : State :=
  let seen := if e.vault then mapGet s.vgran g else mapGet (s.coreOf owner).gran g
  let s := match seen with
    | some (w, ep) => if ep = e.epoch ∧ w ≠ src ∧ (w ≠ owner ∨ src ≠ owner) then s.logRace owner src w idx e.vault off len else s
    | none => s
  if e.vault then { s with vgran := mapSet s.vgran g (src, e.epoch) }
  else s.onCore owner (fun c => { c with gran := mapSet c.gran g (src, e.epoch) })

/-- A write by core `src` of bytes that lie in registered windows of core `owner`, granule by granule; `base` gives a window's
first byte in the same numbering (R133). -/
def State.windowWrite (s : State) (owner src at' n : Nat) (vault : Bool) (base : WinEntry → Option Nat) : State :=
  (List.range 32).foldl (fun s i =>
    let e := (s.coreOf owner).win[fin32 i]
    match base e with
    | some b =>
      if e.reg ∧ e.vault = vault ∧ at' < b + e.len ∧ b < at' + n then
        let lo := max at' b
        let hi := min (at' + n) (b + e.len)
        (upto (lo / 64) ((hi + 63) / 64 - lo / 64)).foldl (fun s g =>
          let a := max lo (64 * g)
          s.granuleWrite owner src i e g (a - b) (min hi (64 * g + 64) - a)) s
      else s
    | none => s) s

/-- A write by a core's own path into its scratchpad. -/
def State.ownLocal (s : State) (owner ofs n : Nat) : State := s.windowWrite owner owner ofs n false (fun e => some e.base)
/-- A write by a core into vault memory: in its own windows, and in those of any other core (R133). -/
def State.ownVault (s : State) (src : Nat) (p : Place) (n : Nat) : State :=
  if p.kind = 1 then s.cores.foldl (fun s c => s.windowWrite c src p.pa n true (fun e => e.place.map (·.pa))) s else s

/-! ## Uncorrected errors (R49, R208) -/

/-- The running context consumes a word with an uncorrected error (R208): ECC is pending for the next boundary. -/
def State.consumeBad (s : State) (addr : Nat) : State :=
  s.onSx (fun x => { x with ecc := match x.ecc with
    | some f => some { f with count := f.count + 1 }
    | none => some { cause := 0x1B, reason := 0, addr := BitVec.ofNat 64 addr, detail := 0, pc := s.ws.pc, count := 0 } })
def State.padConsumed (s : State) (ofs n : Nat) : State :=
  match s.core.padFault ofs n with
  | some o => s.consumeBad o
  | none => s
def State.spanConsumed (s : State) (sp : Span) : State :=
  match s.spanFault sp with
  | some p => s.consumeBad p.pa
  | none => s

/-- The destination of a load that consumed such a word is dead (R208). -/
def State.lostS (s : State) (d : SReg) : State := if s.sx.ecc.isSome then s.onWs (fun w => w.killS d) else s
def State.lostV (s : State) (d : VReg) : State := if s.sx.ecc.isSome then s.onWs (fun w => w.killV d) else s
def State.lostM (s : State) (d : MReg) : State := if s.sx.ecc.isSome then s.onWs (fun w => w.killM d) else s
def State.lostC (s : State) (d : CReg) : State := if s.sx.ecc.isSome then s.onWs (fun w => w.killC d) else s

/-- The checks of a local access of the running context (R209, R263), giving its offset: the range, the hold, then a watchpoint, which
reports `lane`. -/
def localEnter (s : State) (a : Word) (n : Nat) (wr : Bool) (lane : Nat) : M (Nat × State) := do
  accessReady s
  let o ← localOfs s a n
  let t ← localGate s o n wr
  watch s true o n (!wr) wr lane
  .ok (o, t)

/-- A number read locally at a checked offset. -/
def State.getLocal (s : State) (o n : Nat) : Nat := ofBytes (s.core.checkedRead (!s.sup) o n)

/-- Bytes stored locally by the running context; the tracker takes the time (R117). -/
def State.putLocal (s : State) (o : Nat) (bs : List Byte) : State :=
  ((s.setCore (s.core.checkedWrite (!s.sup) o bs)).ownLocal s.cn o bs.length).trackNow s.now

/-- A local load of `n` bytes by the running context. -/
def localLoad (s : State) (a : Word) (n : Nat) : M (Nat × State) := do
  let (o, s) ← localEnter s a n false 0
  .ok (s.getLocal o n, s.padConsumed o n)

/-- A local store of the running context. -/
def localStore (s : State) (a : Word) (bs : List Byte) : M State := do
  let (o, s) ← localEnter s a bs.length true 0
  .ok (s.putLocal o bs)

/-! ## Booked tasks (R192, R265) -/

/-- The booked-task limits of an LS access (R192, R265). -/
def bookedLimit (s : State) (sp : Span) : M Unit :=
  if !s.booked then .ok ()
  else if sp.any (fun e => e.1.kind != 1 && !e.1.dev) then bookedNow s 1
  else if sp.any (fun e => !e.1.dev && !nearVault s.cn e.1) then bookedNow s 2
  else if sp.any (fun e => !e.1.dev && !s.holdsClaim 8 (some e.1.vault)) then bookedNow s 3
  else .ok ()

/-! ## Global accesses (R262 to R265) -/

/-- The device register that an access reaches (R47, R262): by an 8-byte access at a multiple of 8 of a device page; any other
reaches none. -/
def deviceOf (sp : Span) : Option DevReg :=
  match sp with
  | [(p, n)] => if p.dev ∧ n = 8 ∧ p.pa % 8 = 0 then Config.deviceReg p.pa else none
  | _ => none

/-- Such an access where no register lies (log entry 17). -/
def deviceGate (sp : Span) : M Unit :=
  match sp with
  | [(p, n)] =>
    if p.dev ∧ n = 8 ∧ p.pa % 8 = 0 ∧ (Config.deviceReg p.pa).isNone then .error (.fault (.deviceRegister p.pa)) else .ok ()
  | _ => .ok ()

/-- A store to a line of a tile that the core does not own raises TILE_WRITE (R97, R264). -/
def tileGate (s : State) (sp : Span) (va : Word) : M Unit :=
  if sp.lines.any (fun l => l.2.coherent && s.tileRefuses s.cn l.1) then trapNow s 0x09 0 va 0 else .ok ()

/-- A host or peer address in no enabled map window fails at the I/O die (R421). -/
def hostGate (s : State) (sp : Span) (va : Word) : M Unit :=
  if sp.any (fun e => s.unmapped e.1) then trapNow s 0x06 0x04 va 0 else .ok ()

/-- A queued release or atomic of the slot writes bytes of the span. -/
def RelOp.meets (o : RelOp) (sp : Span) : Bool :=
  match o with
  | .store p _ n _ => (List.range n).any (fun i => sp.locs.contains (p.loc i))
  | .amo p _ _ t _ _ _ _ _ => (List.range (t.bits / 8)).any (fun i => sp.locs.contains (p.loc i))
  | _ => false

/-- An access to bytes that the slot's own release queue writes follows it (R113). -/
def orderGate (s : State) (sp : Span) : M Unit :=
  match s.slot.relq.find? (fun e => e.op.meets sp) with
  | some e => holdBack s e.op
  | none => .ok ()

/-- A fetch follows every release store that has retired on the core (R227). -/
def fetchGate (s : State) (sp : Span) : M Unit :=
  if (List.finRange 4).any (fun i => (s.core.slot i).relq.any (fun e => e.op.meets sp)) then stallNow s 0x26 else .ok ()

/-- A read waits until no other die owns a line of it (R86, R87). -/
def lineGate (s : State) (need : Need) (sp : Span) : M Unit :=
  if (need.rd || need.ex) && s.away s.cn sp then stallNow (s.recallAway s.cn sp) 0x20 else .ok ()

/-- The checks of a global access of the running context up to the access itself; `lane` is reported by a watchpoint. -/
def globalChecks (s : State) (need : Need) (va : Word) (n lane : Nat) : M (Span × State) := do
  accessReady s
  let (sp, s) ← translate s need va n
  bookedLimit s sp
  watch s false va.toNat n need.rd need.wr lane
  deviceGate sp
  hostGate s sp va
  if need.wr then tileGate s sp va else pure ()
  .ok (sp, s)

/-- The checks of an access that is made at once: it keeps its order with the slot's release queue. -/
def globalGate (s : State) (need : Need) (va : Word) (n lane : Nat) : M (Span × State) := do
  let (sp, s) ← globalChecks s need va n lane
  orderGate s sp
  lineGate s need sp
  .ok (sp, s)

/-- The value of a checked global read, with the directory's part: of a device register, or of memory. -/
def State.getSpan (s : State) (sp : Span) : Nat × State :=
  match deviceOf sp with
  | some r =>
    let x := s.readDevice r
    (x.1.toNat, x.2)
  | none =>
    let s := ((s.contextRead sp false).countKmisses s.cn sp).spanConsumed sp
    (ofBytes (s.readSpan sp), s)

/-- The bytes of a checked global write, with the directory's part; `sc` is the scope of an atomic or a release. A write of a
device register reaches its block in the next cycle, before what that cycle records there (R7, R43). -/
def State.putScoped (s : State) (sp : Span) (bs : List Byte) (sc : Option Scope) : State :=
  match deviceOf sp with
  | some r => s.post (s.pkg.ptime + 1) (.registerWrite r (natWord (ofBytes bs)))
  | none =>
    let s := ((s.countKmisses s.cn sp).contextWrite sp sc).writeSpan sp bs
    sp.foldl (fun s e => s.ownVault s.cn e.1 e.2) s
def State.putSpan (s : State) (sp : Span) (bs : List Byte) : State := s.putScoped sp bs none

/-- A global load of `n` bytes. -/
def globalLoad (s : State) (va : Word) (n : Nat) : M (Nat × State) := do
  let (sp, s) ← globalGate s .load va n 0
  .ok ((s.payLines sp false false).getSpan sp)

/-- A global store. -/
def globalStore (s : State) (va : Word) (bs : List Byte) : M State := do
  let (sp, s) ← globalGate s .store va bs.length 0
  .ok ((s.payLines sp true false).putSpan sp bs)

/-! ## Capability accesses (R25 to R27) -/

def Cap.base (c : Cap) : Nat := bitsOf c.val.toNat 54 0
def Cap.length (c : Cap) : Nat := bitsOf c.val.toNat 77 55
def Cap.gen (c : Cap) : Nat := bitsOf c.val.toNat 93 78
def Cap.owner (c : Cap) : Nat := bitsOf c.val.toNat 104 94
def Cap.rights (c : Cap) : Nat := bitsOf c.val.toNat 107 105
def Cap.tid (c : Cap) : Nat := bitsOf c.val.toNat 123 108
/-- A well-formed tagged capability (R25). -/
def capOf (base len gen owner rights tid : Nat) : Cap :=
  { val := BitVec.ofNat 128 (base % 2 ^ 55 + len % 2 ^ 23 * 2 ^ 55 + gen % 65536 * 2 ^ 78 + owner % 2048 * 2 ^ 94
      + rights % 8 * 2 ^ 105 + tid % 65536 * 2 ^ 108),
    tag := true }

/-- The reason code of the first of steps 1 to 3 of R27 that fails, 0 when none does. -/
def Cap.check (c : Cap) (ofs size need : Nat) : Nat :=
  if !c.tag then 0x10
  else if need &&& c.rights ≠ need then 0x11
  else if c.length < ofs + size then 0x12
  else 0

/-- Steps 1 to 3 of R27, trapping. -/
def capGate (s : State) (c : Cap) (ofs size need : Nat) : M Unit :=
  let r := c.check ofs size need
  if r = 0 then .ok () else trapNow s 0x07 r (BitVec.ofNat 64 (c.base + ofs)) 0

/-- Step 5 of R27: the generation of the tile entry. -/
def capFresh (s : State) (c : Cap) (addr : Word) : M Unit :=
  if (s.tile c.tid).gen.toNat = c.gen then .ok () else trapNow s 0x08 0x13 addr 0

end Sys2Proof.Machine
end

