-- ==== Sys2Proof/Machine/Fetch.lean ====
section
/-! DEFINITION. Code lines (spec/09 R219 to R227, R237): entering a line, its checks, and the instruction at a pc; choosing
a context (spec/06 R176). -/
namespace Sys2Proof.Machine

/-! ## Line checks (R220, R222, R223) -/

/-- The reason for which a line refuses an entry at head `h`, none when it passes (R223, R237). -/
def LineBuf.refuse (l : LineBuf) (h : Nat) (bit5 : Bool) : Option Nat :=
  let nh := l.heads
  if (l.hw.getD 0 0).toNat % 2048 ≠ 0 ∨ nh = 0 ∨ 30 < nh then some 0x38
  else if 31 < nh + l.tails nh then some 0x39
  else if (upto (nh + 1) (31 - l.tails nh - nh)).any (fun j => l.hw.getD j 0 != 0) then some 0x3A
  else if h = 0 ∨ nh < h ∨ bit5 then some 0x3B
  else none

/-- 64 bytes as 32 little-endian halfwords. -/
def halfwords (bs : List Byte) : List Half :=
  match bs with
  | a :: b :: t => (BitVec.ofNat 16 (a.toNat + 256 * b.toNat)) :: halfwords t
  | _ => []

/-- ILLEGAL_LINE (R223, R237): the saved pc is head 1 of the line. -/
def illegalLine {α : Type} (s : State) (l : LineBuf) (reason : Nat) : M α :=
  let pc := s.ws.pc
  let s := s.onWs (fun w => { w with pc := BitVec.ofNat 64 (fld pc 54 6 * 64 + 1) })
  .error (.st (s.trap { Trap.mk0 0x02 reason pc 0 with fins := (l.hw.getD 0 0).setWidth 64 }))

/-- The line that a follower's cluster leader is executing, when it is the one at `la` (R175). -/
def State.leaderLine (s : State) (la : Nat) : Option LineBuf :=
  if s.ws.tsw.getLsbD 3 = false then none
  else
    let c := s.coreOf (coreAt s.cl 0)
    let l := (c.slot c.cur).line
    if (c.slot c.cur).st = .run ∧ l.valid ∧ l.addr = la then some { l with led := true } else none

/-- What the leader has done since its latest execution of the head at `pc` in the line at `la`, in order (R175). -/
def Core.leadFrom (c : Core) (la : Nat) (pc : Word) : List (Word × Word) :=
  let l := c.trail.takeWhile (fun x => x.1.toNat / 64 * 64 == la)
  if l.any (fun x => x.1 == pc) then (l.take (l.findIdx (fun x => x.1 == pc) + 1)).reverse else []

/-- A follower enters a line of its leader at the pc (R175): the heads that it will execute are the leader's from there on. -/
def State.takeLead (s : State) (la : Nat) : State :=
  let pc := s.ws.pc
  let l := if !s.core.trail.isEmpty then []
    else if s.core.lead.any (fun x => x.1 == pc) then s.core.lead
    else (s.coreOf (coreAt s.cl 0)).leadFrom la pc
  s.setCore { s.core with lead := l }

/-- A line is entered at the pc when it passes the checks. -/
def enterAt (s : State) (l : LineBuf) : M (LineBuf × State) :=
  match l.refuse (fld s.ws.pc 4 0) (s.ws.pc.getLsbD 5) with
  | some r => illegalLine s l r
  | none => .ok (l, s.onSlot (fun x => { x with line := l }))

/-- The line of the pc is the one in the line buffer, or the leader's, or is fetched and entered (R175, R223, R227; log
entry 40). -/
def enterLine (s : State) : M (LineBuf × State) := do
  let pc := s.ws.pc
  let la := pc.toNat / 64 * 64
  let b := s.slot.line
  if b.valid ∧ b.addr = la then
    match b.refuse (fld pc 4 0) (pc.getLsbD 5) with
    | some r => illegalLine s b r
    | none => .ok (b, s)
  else
    match s.leaderLine la with
    | some l => enterAt (s.takeLead la) l
    | none =>
      let s := s.setCore { s.core with lead := [] }
      let (sp, s) ← translate s .fetch (BitVec.ofNat 64 la) 64
      deviceGate sp
      hostGate s sp (BitVec.ofNat 64 la)
      fetchGate s sp
      lineGate s .fetch sp
      let s := (((s.payLines sp false true).contextRead sp true).countKmisses s.cn sp).spanConsumed sp
      enterAt s { valid := true, led := false, addr := la, hw := halfwords (s.readSpan sp) }

/-! ## Features (R422) -/

def Fmt.tapered : Fmt → Bool
  | .t8 => true | .t6 => true | _ => false

/-- A major that acts as reserved while its feature is not enabled (R422). -/
def majorOff (en : BitVec 128) (maj : Nat) : Bool :=
  (decide (0x24 ≤ maj ∧ maj ≤ 0x27) && !en.getLsbD 0) || (maj == 0x37 && !en.getLsbD 2)

/-- An instruction holds a format or a rounding mode of a feature that is not enabled (R422). -/
def featureRefuses (en : BitVec 128) (i : Instr) : Bool :=
  let sto := !(en.getLsbD 11)
  let fm := fun (f : Fmt) => !(en.getLsbD 1) && Fmt.tapered f
  match i with
  | .fadd _ rm _ _ _ _ _ => sto && rm == .sto | .fsub _ rm _ _ _ _ _ => sto && rm == .sto
  | .fmul _ rm _ _ _ _ _ => sto && rm == .sto | .fdiv _ rm _ _ _ _ _ => sto && rm == .sto
  | .fsqrt _ rm _ _ _ => sto && rm == .sto | .fma _ rm _ _ _ _ _ _ _ => sto && rm == .sto
  | .fms _ rm _ _ _ _ _ _ _ => sto && rm == .sto | .fcvt rm _ _ b c _ => (sto && rm == .sto) || fm b || fm c
  | .vadd _ rm _ _ _ _ _ _ => sto && rm == .sto | .vsub _ rm _ _ _ _ _ _ => sto && rm == .sto
  | .vmul _ rm _ _ _ _ _ _ => sto && rm == .sto | .vdiv _ rm _ _ _ _ _ _ => sto && rm == .sto
  | .vsqrt _ rm _ _ _ _ => sto && rm == .sto | .vfma _ rm _ _ _ _ _ _ _ _ => sto && rm == .sto
  | .vfms _ rm _ _ _ _ _ _ _ _ => sto && rm == .sto | .vfnma _ rm _ _ _ _ _ _ _ _ => sto && rm == .sto
  | .vdot _ rm _ _ _ _ _ _ _ _ => sto && rm == .sto
  | .vexp rm _ _ _ _ => sto && rm == .sto | .vlog rm _ _ _ _ => sto && rm == .sto
  | .vrcp rm _ _ _ _ => sto && rm == .sto | .vrsqrt rm _ _ _ _ => sto && rm == .sto
  | .vtanh rm _ _ _ _ => sto && rm == .sto | .vsigm rm _ _ _ _ => sto && rm == .sto
  | .verf rm _ _ _ _ => sto && rm == .sto | .vphi rm _ _ _ _ => sto && rm == .sto
  | .vpdf rm _ _ _ _ => sto && rm == .sto
  | .vcvt _ rm _ _ _ _ _ _ => sto && rm == .sto
  | .vscalePack rm _ _ _ c _ _ => (sto && rm == .sto) || fm c
  | .vscaleUnpack _ _ _ c _ _ => fm c
  | .mpack rm _ _ _ _ => sto && rm == .sto
  | .mxst rm _ _ _ _ _ => sto && rm == .sto
  | _ => false

/-! ## Breakpoints (R391, R392) -/

def Debug.breakHit (d : Debug) (pc : Word) : Option Nat :=
  if d.dctl.getLsbD 4 then none
  else ((List.finRange 4).find? (fun i => d.dbp[i].getLsbD 5 && fld d.dbp[i] 4 0 == fld pc 4 0 && fld d.dbp[i] 54 6 == fld pc 63 6)).map (·.val)

/-! ## Contexts (R161, R176) -/

/-- The core's running context, if one runs. -/
def State.running (s : State) : Bool := s.slot.st == .run

/-- The slot holds a booked task whose start tempo has come (R176). -/
def SlotX.due (x : SlotX) (tempo : Nat) : Bool := x.task.booked && decide (x.task.bookStart ≤ tempo)

/-- A booked task's time runs on the core: no free task issues (R188). -/
def Core.inBooked (c : Core) (tempo : Nat) : Bool :=
  (List.finRange 4).any (fun i => (c.slot i).st != .free && (c.sx i).due tempo && decide (tempo < (c.sx i).task.bookEnd))

/-- The slot's workspace is resident. -/
def Core.resident (c : Core) (i : SlotId) : Bool :=
  (c.slot i).wp == c.res.wp || (match c.alt with
    | some a => a.wp == (c.slot i).wp
    | none => false)

/-- The slot that the core chooses among its READY contexts (R176, R188, R379): one whose booked time has come; else a free
one, one that has yielded last, a resident one first, the lowest; of those that a message has woken in one cycle the lowest (R370). No free
one while a booked unit of the core is due (`due`). -/
def Core.choose (c : Core) (tempo : Nat) (due : Bool) : Option SlotId :=
  let ready := (List.finRange 4).filter (fun i => (c.slot i).st == .ready)
  match ready.find? (fun i => (c.sx i).due tempo) with
  | some i => some i
  | none =>
    if due || c.inBooked tempo then none
    else
      let free := ready.filter (fun i => !(c.sx i).task.booked)
      let fresh := free.filter (fun i => !(c.sx i).yielded)
      let pool := if fresh.isEmpty then free else fresh
      match pool.find? c.resident with
      | some i =>
        if (c.sx i).waitCause ≠ 0x10 then some i
        else pool.find? (fun j => (c.sx j).waitCause == 0x10 && (c.sx j).readySince == (c.sx i).readySince)
      | none => pool.head?

/-- The cause that the notation stream gives a switch (R395). -/
def Core.switchCause (c : Core) (i : SlotId) : Nat :=
  let x := c.sx i
  if x.waitCause = 0x27 then 0x09
  else if (c.slot i).icnt = 0 ∧ x.waitCause = 0 ∧ x.task.src ≠ .none then 0x00
  else if i = c.cur then 0x01
  else 4 + i.val

/-- The core switches to a slot (R161): its workspace is brought in and it runs. A context that ran goes to READY. A switch,
or a new task in the slot that ran last, ends following (R175). -/
def State.switchTo (s : State) (n : Nat) (i : SlotId) : State :=
  let s := if (s.coreOf n).cur = i ∧ ((s.coreOf n).slot i).icnt ≠ 0 then s else (s.unfollow n).unfollowers n
  let s := s.onCore n (fun c =>
    let c := if (c.slot c.cur).st = .run then
        (c.onSlot c.cur (fun x => { x with st := .ready })).onSx c.cur (fun x => { x with readySince := s.pkg.ptime })
      else c
    let c := { c with cur := i }.bringIn (c.slot i).wp (c.sx i).task.booked
    let c := { c with slotx := c.slotx.map (fun (x : SlotX) => { x with yielded := false }) }
    let c := c.onSx i (fun x => { x with waitCause := 0, look := false })
    let c := c.onWs (fun w => (w.setTsw 17 16 i.val).setTsw 1 1 (bit01 (c.sx i).task.booked))
    c.onSlot i (fun x => { x with st := .run }))
  s.refetchStreams n

/-- The switch, with its record in the notation stream (R395). -/
def State.switchSlot (s : State) (n : Nat) (i : SlotId) : State :=
  (s.switchTo n i).noteChange n 0 ((s.coreOf n).switchCause i)

/-- Something has happened that the waiting contexts of a core may have waited for (R167; log entry 10). -/
def Core.wakeAll (c : Core) : Core :=
  (List.finRange 4).foldl (fun c i => if (c.slot i).st = .wait then c.onSx i (fun x => { x with look := true }) else c) c

/-- As `Core.wakeAll` for every core of the package, after an event. -/
def State.wakeAll (s : State) : State :=
  { s with core := s.core.wakeAll, others := s.others.map (fun p => (p.1, p.2.wakeAll)) }

end Sys2Proof.Machine
end

