-- ==== Sys2Proof/Machine/Scalar.lean ====
section
/-! DEFINITION. Scalar integer, select and capability instructions (spec/10 R244 to R255). -/
namespace Sys2Proof.Machine

/-- An integer result of a type: wrapped to its width and extended to 64 bits (R244). -/
def intResult (t : IT) (v : Int) : Word := BitVec.ofInt 64 (t.value (t.wrap v))

/-- A register-register integer form (R244, R245): the operation on the low w bits of both sources. -/
def intOp (t : IT) (d a : SQ) (b : SReg) (la lb : Bool) (f : Nat → Nat → Int) (s : State) : M State := do
  ready s a.q? d.q? (a.regs ++ d.regs ++ [b])
  let y := intResult t (f (lowBits t (s.ws.srcS a)) (lowBits t (s.ws.getS b)))
  .ok (s.doneSQ d a [a.mark la, (lb, b)] y)

/-- An immediate integer form: b is the immediate sign-extended and truncated to w bits (R247). -/
def immOp (t : IT) (d a : SReg) (imm : Int) (f : Nat → Nat → Int) (s : State) : M State := do
  tokensReady s [a, d]
  .ok (s.doneS d [] (intResult t (f (lowBits t (s.ws.getS a)) (t.wrap imm))))

/-- A one-source form whose count is written zero-extended (R250). -/
def countOp (t : IT) (d a : SQ) (la : Bool) (f : Nat → Nat) (s : State) : M State := do
  ready s a.q? d.q? (a.regs ++ d.regs)
  .ok (s.doneSQ d a [a.mark la] (BitVec.ofNat 64 (f (lowBits t (s.ws.srcS a)))))

def intAnd (a b : Nat) : Int := Int.ofNat (a &&& b)
def intOr (a b : Nat) : Int := Int.ofNat (a ||| b)
def intXor (a b : Nat) : Int := Int.ofNat (a ^^^ b)
/-- NOT b in w bits. -/
def notBits (t : IT) (b : Nat) : Nat := 2 ^ t.bits - 1 - b
def intLt (t : IT) (a b : Nat) : Int := if t.value a < t.value b then 1 else 0
def intMin (t : IT) (a b : Nat) : Int := min (t.value a) (t.value b)
def intMax (t : IT) (a b : Nat) : Int := max (t.value a) (t.value b)
/-- An arithmetic right shift, filled with a[w − 1] whatever the type (R244). -/
def sraBits (t : IT) (a n : Nat) : Int := signExt t.bits a / Int.ofNat (2 ^ n)
/-- Left rotation of w bits. -/
def rotBits (w a n : Nat) : Nat := (a * 2 ^ n ||| a / 2 ^ (w - n)) % 2 ^ w
def popBits (w a : Nat) : Nat := ((List.range w).filter (fun i => a.testBit i)).length
/-- Trailing zeros of a w-bit value. -/
def ctzBits (w a : Nat) : Nat := ((List.range w).find? (fun i => a.testBit i)).getD w
/-- A quotient truncated toward zero, and its remainder. -/
def divTrunc (a b : Int) : Int := a.tdiv b
def remTrunc (a b : Int) : Int := a.tmod b

/-- `div` and `rem` raise DIVZERO before any effect (R249). -/
def divOp (t : IT) (d a : SQ) (b : SReg) (la lb : Bool) (f : Int → Int → Int) (s : State) : M State := do
  ready s a.q? d.q? (a.regs ++ d.regs ++ [b])
  let y := lowBits t (s.ws.getS b)
  if y = 0 then trapNow s 0x0D 0 0 0
  else .ok (s.doneSQ d a [a.mark la, (lb, b)] (intResult t (f (t.value (lowBits t (s.ws.srcS a))) (t.value y))))

/-! ## Major 0x01 (R247) -/

/-- `add` (R247). -/
def execAdd (t : IT) (d a : SQ) (b : SReg) (la lb : Bool) (s : State) : Host.Outcome State Fault Refusal :=
  finish (intOp t d a b la lb (fun x y => Int.ofNat (x + y)) s)

/-- `sub` (R247). -/
def execSub (t : IT) (d a : SQ) (b : SReg) (la lb : Bool) (s : State) : Host.Outcome State Fault Refusal :=
  finish (intOp t d a b la lb (fun x y => Int.ofNat x - Int.ofNat y) s)

/-- `and` (R247). -/
def execAnd (t : IT) (d a : SQ) (b : SReg) (la lb : Bool) (s : State) : Host.Outcome State Fault Refusal :=
  finish (intOp t d a b la lb intAnd s)

/-- `or` (R247). -/
def execOr (t : IT) (d a : SQ) (b : SReg) (la lb : Bool) (s : State) : Host.Outcome State Fault Refusal :=
  finish (intOp t d a b la lb intOr s)

/-- `xor` (R247). -/
def execXor (t : IT) (d a : SQ) (b : SReg) (la lb : Bool) (s : State) : Host.Outcome State Fault Refusal :=
  finish (intOp t d a b la lb intXor s)

/-- `andn` (R247). -/
def execAndn (t : IT) (d a : SQ) (b : SReg) (la lb : Bool) (s : State) : Host.Outcome State Fault Refusal :=
  finish (intOp t d a b la lb (fun x y => intAnd x (notBits t y)) s)

/-- `orn` (R247). -/
def execOrn (t : IT) (d a : SQ) (b : SReg) (la lb : Bool) (s : State) : Host.Outcome State Fault Refusal :=
  finish (intOp t d a b la lb (fun x y => intOr x (notBits t y)) s)

/-- `min` (R247). -/
def execMin (t : IT) (d a : SQ) (b : SReg) (la lb : Bool) (s : State) : Host.Outcome State Fault Refusal :=
  finish (intOp t d a b la lb (intMin t) s)

/-- `max` (R247). -/
def execMax (t : IT) (d a : SQ) (b : SReg) (la lb : Bool) (s : State) : Host.Outcome State Fault Refusal :=
  finish (intOp t d a b la lb (intMax t) s)

/-- `slt` (R247). -/
def execSlt (t : IT) (d a : SQ) (b : SReg) (la lb : Bool) (s : State) : Host.Outcome State Fault Refusal :=
  finish (intOp t d a b la lb (intLt t) s)

/-- `seq` (R247). -/
def execSeq (t : IT) (d a : SQ) (b : SReg) (la lb : Bool) (s : State) : Host.Outcome State Fault Refusal :=
  finish (intOp t d a b la lb (fun x y => if x = y then 1 else 0) s)

/-- `sne` (R247). -/
def execSne (t : IT) (d a : SQ) (b : SReg) (la lb : Bool) (s : State) : Host.Outcome State Fault Refusal :=
  finish (intOp t d a b la lb (fun x y => if x = y then 0 else 1) s)

/-! ## Majors 0x02 and 0x03 (R247, R248) -/

/-- `addi` (R247). -/
def execAddi (t : IT) (d a : SReg) (imm : BitVec 16) (s : State) : Host.Outcome State Fault Refusal :=
  finish (immOp t d a imm.toInt (fun x y => Int.ofNat (x + y)) s)

/-- `andi` (R247). -/
def execAndi (t : IT) (d a : SReg) (imm : BitVec 16) (s : State) : Host.Outcome State Fault Refusal :=
  finish (immOp t d a imm.toInt intAnd s)

/-- `ori` (R247). -/
def execOri (t : IT) (d a : SReg) (imm : BitVec 16) (s : State) : Host.Outcome State Fault Refusal :=
  finish (immOp t d a imm.toInt intOr s)

/-- `xori` (R247). -/
def execXori (t : IT) (d a : SReg) (imm : BitVec 16) (s : State) : Host.Outcome State Fault Refusal :=
  finish (immOp t d a imm.toInt intXor s)

/-- `slti` (R247). -/
def execSlti (t : IT) (d a : SReg) (imm : BitVec 16) (s : State) : Host.Outcome State Fault Refusal :=
  finish (immOp t d a imm.toInt (intLt t) s)

/-- `shli` (R247): the count is the immediate. -/
def execShli (t : IT) (d a : SReg) (n : BitVec 6) (s : State) : Host.Outcome State Fault Refusal :=
  finish (immOp t d a 0 (fun x _ => (fun x y => Int.ofNat (x * 2 ^ y)) x n.toNat) s)

/-- `shri` (R247): the count is the immediate. -/
def execShri (t : IT) (d a : SReg) (n : BitVec 6) (s : State) : Host.Outcome State Fault Refusal :=
  finish (immOp t d a 0 (fun x _ => (fun x y => Int.ofNat (x / 2 ^ y)) x n.toNat) s)

/-- `srai` (R247): the count is the immediate. -/
def execSrai (t : IT) (d a : SReg) (n : BitVec 6) (s : State) : Host.Outcome State Fault Refusal :=
  finish (immOp t d a 0 (fun x _ => (sraBits t) x n.toNat) s)

/-- `li` with a 32-bit immediate (R248). -/
def execLi (d : SReg) (imm : BitVec 32) (s : State) : Host.Outcome State Fault Refusal := finish (do
  tokensReady s [d]
  .ok (s.doneS d [] (imm.signExtend 64)))

/-- `lih` (R248): bits [31:0] are kept. -/
def execLih (d : SReg) (imm : BitVec 32) (s : State) : Host.Outcome State Fault Refusal := finish (do
  tokensReady s [d]
  .ok (s.doneS d [] (imm ++ (s.ws.getS d).extractLsb' 0 32)))

/-- `li` with a 64-bit immediate (R248). -/
def execLiImm64 (d : SReg) (imm : BitVec 64) (s : State) : Host.Outcome State Fault Refusal := finish (do
  tokensReady s [d]
  .ok (s.doneS d [] imm))

/-! ## Multiply and divide (R249) -/

/-- `mul` (R249: the low w bits). -/
def execMul (t : IT) (d a : SQ) (b : SReg) (la lb : Bool) (s : State) : Host.Outcome State Fault Refusal :=
  finish (intOp t d a b la lb (fun x y => Int.ofNat (x * y)) s)

/-- `mulh` (R249: the high w bits of the exact product). -/
def execMulh (t : IT) (d a : SQ) (b : SReg) (la lb : Bool) (s : State) : Host.Outcome State Fault Refusal :=
  finish (intOp t d a b la lb (fun x y => t.value x * t.value y / Int.ofNat (2 ^ t.bits)) s)

/-- `div` (R249). -/
def execDiv (t : IT) (d a : SQ) (b : SReg) (la lb : Bool) (s : State) : Host.Outcome State Fault Refusal :=
  finish (divOp t d a b la lb divTrunc s)

/-- `rem` (R249). -/
def execRem (t : IT) (d a : SQ) (b : SReg) (la lb : Bool) (s : State) : Host.Outcome State Fault Refusal :=
  finish (divOp t d a b la lb remTrunc s)

/-! ## Shifts and bit fields (R250, R251) -/

/-- `shl` (R250). -/
def execShl (t : IT) (d a : SQ) (b : SReg) (la lb : Bool) (s : State) : Host.Outcome State Fault Refusal :=
  finish (intOp t d a b la lb (fun x y => Int.ofNat (x * 2 ^ (y % t.bits))) s)

/-- `shr` (R250). -/
def execShr (t : IT) (d a : SQ) (b : SReg) (la lb : Bool) (s : State) : Host.Outcome State Fault Refusal :=
  finish (intOp t d a b la lb (fun x y => Int.ofNat (x / 2 ^ (y % t.bits))) s)

/-- `sra` (R250). -/
def execSra (t : IT) (d a : SQ) (b : SReg) (la lb : Bool) (s : State) : Host.Outcome State Fault Refusal :=
  finish (intOp t d a b la lb (fun x y => sraBits t x (y % t.bits)) s)

/-- `rot` (R250). -/
def execRot (t : IT) (d a : SQ) (b : SReg) (la lb : Bool) (s : State) : Host.Outcome State Fault Refusal :=
  finish (intOp t d a b la lb (fun x y => Int.ofNat (rotBits t.bits x (y % t.bits))) s)

/-- `clz` (R250). -/
def execClz (t : IT) (d a : SQ) (la : Bool) (s : State) : Host.Outcome State Fault Refusal :=
  finish (countOp t d a la (fun x => t.bits - bitLen x) s)

/-- `ctz` (R250). -/
def execCtz (t : IT) (d a : SQ) (la : Bool) (s : State) : Host.Outcome State Fault Refusal :=
  finish (countOp t d a la (ctzBits t.bits) s)

/-- `pop` (R250). -/
def execPop (t : IT) (d a : SQ) (la : Bool) (s : State) : Host.Outcome State Fault Refusal :=
  finish (countOp t d a la (popBits t.bits) s)

/-- `sext` (R250): the type's own extension of the low w bits. -/
def execSext (t : IT) (d a : SQ) (la : Bool) (s : State) : Host.Outcome State Fault Refusal := finish (do
  ready s a.q? d.q? (a.regs ++ d.regs)
  .ok (s.doneSQ d a [a.mark la] (extend t (lowBits t (s.ws.srcS a)))))

/-- `zext` (R250): the type's own extension of the low w bits. -/
def execZext (t : IT) (d a : SQ) (la : Bool) (s : State) : Host.Outcome State Fault Refusal := finish (do
  ready s a.q? d.q? (a.regs ++ d.regs)
  .ok (s.doneSQ d a [a.mark la] (extend t (lowBits t (s.ws.srcS a)))))

/-- `bext` (R251): bits p + l − 1 to p, those above 63 reading 0. -/
def execBext (t : IT) (d a : SReg) (pos len1 : BitVec 6) (s : State) : Host.Outcome State Fault Refusal := finish (do
  tokensReady s [a, d]
  let l := len1.toNat + 1
  let f := (s.ws.getS a).toNat / 2 ^ pos.toNat % 2 ^ l
  .ok (s.doneS d [] (if t.uns then BitVec.ofNat 64 f else BitVec.ofInt 64 (signExt l f))))

/-- `bins` (R251): the low l bits of the source replace bits p + l − 1 to p; none above 63. -/
def execBins (_t : IT) (d a : SReg) (pos len1 : BitVec 6) (s : State) : Host.Outcome State Fault Refusal := finish (do
  tokensReady s [a, d]
  let mask : Word := BitVec.ofNat 64 ((2 ^ (len1.toNat + 1) - 1) * 2 ^ pos.toNat)
  .ok (s.doneS d [] ((s.ws.getS d &&& ~~~mask) ||| ((s.ws.getS a <<< pos.toNat) &&& mask))))

/-! ## Select (R252) -/

/-- `sel` (R252). -/
def execSel (t : IT) (d a : SQ) (b c : SReg) (la lb lc : Bool) (s : State) : Host.Outcome State Fault Refusal := finish (do
  ready s a.q? d.q? (a.regs ++ d.regs ++ [b, c])
  let y := if lowBits t (s.ws.getS c) ≠ 0 then lowBits t (s.ws.srcS a) else lowBits t (s.ws.getS b)
  .ok (s.doneSQ d a [a.mark la, (lb, b), (lc, c)] (intResult t (Int.ofNat y))))

/-! ## Capabilities (R253 to R255) -/

/-- A field of a `c` register as held (R253). -/
def capField (d : SReg) (a : CReg) (la : Bool) (f : Cap → Nat) (s : State) : M State := do
  tokensReady s [d]
  let y := BitVec.ofNat 64 (f (s.ws.getC a))
  let s := if la then s.onWs (fun w => w.killC a) else s
  .ok (s.doneS d [] y)


/-- `cbase` (R253). -/
def execCbase (d : SReg) (a : CReg) (la : Bool) (s : State) : Host.Outcome State Fault Refusal :=
  finish (capField d a la Cap.base s)

/-- `clen` (R253). -/
def execClen (d : SReg) (a : CReg) (la : Bool) (s : State) : Host.Outcome State Fault Refusal :=
  finish (capField d a la Cap.length s)

/-- `cgen` (R253). -/
def execCgen (d : SReg) (a : CReg) (la : Bool) (s : State) : Host.Outcome State Fault Refusal :=
  finish (capField d a la Cap.gen s)

/-- `crights` (R253: rights, tag, owner and TID). -/
def execCrights (d : SReg) (a : CReg) (la : Bool) (s : State) : Host.Outcome State Fault Refusal :=
  finish (capField d a la (fun c => c.rights + bit01 c.tag * 8 + c.owner * 16 + c.tid * 32768) s)

/-- `cnarrow` (R254): it makes no access, so its traps have no address (R210). -/
def execCnarrow (d a : CReg) (b c : SReg) (la lb lc : Bool) (s : State) : Host.Outcome State Fault Refusal := finish (do
  tokensReady s [b, c]
  let k := s.ws.getC a
  let o := (s.ws.getS b).toNat
  let l := fld (s.ws.getS c) 22 0
  let m := fld (s.ws.getS c) 26 24
  if !k.tag then trapNow s 0x07 0x10 0 0
  else if o % 64 ≠ 0 ∨ l % 64 ≠ 0 ∨ l < 128 ∨ k.length < o + l then trapNow s 0x07 0x12 0 0
  else
    let y := capOf (k.base + o) l k.gen k.owner (k.rights &&& m) k.tid
    let s := s.onWs (fun w => (if la then w.killC a else w).setC d y)
    .ok (s.done [(lb, b), (lc, c)]))

/-- `ccheck` (R255). -/
def execCcheck (d : SReg) (a : CReg) (b c : SReg) (la lb lc : Bool) (s : State) : Host.Outcome State Fault Refusal := finish (do
  tokensReady s [b, c, d]
  let w := s.ws.getS c
  let y := (s.ws.getC a).check (s.ws.getS b).toNat (fld w 31 0) (fld w 34 32)
  let s := if la then s.onWs (fun w => w.killC a) else s
  .ok (s.doneS d [(lb, b), (lc, c)] (BitVec.ofNat 64 y)))

end Sys2Proof.Machine
end

