-- ==== Sys2Proof/Machine/Memory.lean ====
section
/-! DEFINITION. Loads, stores, acquire and release, atomics, fences and cache operations (spec/10 R261 to R276; spec/04 R116
to R120, R126; spec/02 R67). -/
namespace Sys2Proof.Machine

/-! ## Loads and stores (R261) -/

/-- base + sign-extended displacement, modulo 2^64 (R261). -/
def dispAddr (s : State) (a : SReg) (imm : BitVec 16) : Word := s.ws.getS a + imm.signExtend 64

/-- The low w/8 bytes of a register (R261). -/
def regBytes (t : IT) (x : Word) : List Byte := toBytes (t.bits / 8) x.toNat

/-- `ld` (R261, R262). -/
def execLd (t : IT) (d a : SReg) (imm : BitVec 16) (s : State) : Host.Outcome State Fault Refusal := finish (do
  tokensReady s [a, d]
  let (x, s) ← globalLoad s (dispAddr s a imm) (t.bits / 8)
  .ok ((s.doneS d [] (extend t x)).lostS d))

/-- `st` (R261, R262). -/
def execSt (t : IT) (d a : SReg) (imm : BitVec 16) (s : State) : Host.Outcome State Fault Refusal := finish (do
  tokensReady s [a, d]
  let s ← globalStore s (dispAddr s a imm) (regBytes t (s.ws.getS d))
  .ok (s.done []))

/-- The checks of an access through a capability (R27): steps 1 to 3, the translation, the generation, then as for any
global access. -/
def capAccess (s : State) (c : Cap) (ofs n : Nat) (need : Need) : M (Span × State) := do
  capGate s c ofs n (bit01 need.rd + bit01 need.wr * 2)
  let va := BitVec.ofNat 64 (c.base + ofs)
  accessReady s
  let (sp, s) ← translate s need va n
  capFresh s c va
  bookedLimit s sp
  watch s false va.toNat n need.rd need.wr 0
  deviceGate sp
  hostGate s sp va
  if need.wr then tileGate s sp va else pure ()
  orderGate s sp
  lineGate s need sp
  .ok (sp, s)

/-- `ld` through a capability (R27, R261). -/
def execLdThroughCap (t : IT) (d : SReg) (a : CReg) (imm : BitVec 16) (s : State) : Host.Outcome State Fault Refusal := finish (do
  tokensReady s [d]
  let (sp, s) ← capAccess s (s.ws.getC a) imm.toNat (t.bits / 8) .load
  let (x, s) := (s.payLines sp false false).getSpan sp
  .ok ((s.doneS d [] (extend t x)).lostS d))

/-- `st` through a capability (R27, R261). -/
def execStThroughCap (t : IT) (d : SReg) (a : CReg) (imm : BitVec 16) (s : State) : Host.Outcome State Fault Refusal := finish (do
  tokensReady s [d]
  let (sp, s) ← capAccess s (s.ws.getC a) imm.toNat (t.bits / 8) .store
  .ok (((s.payLines sp true false).putSpan sp (regBytes t (s.ws.getS d))).done []))

/-- The address of a capability-width access: bits [3:0] cleared (R261). -/
def granuleAddr (s : State) (a : SReg) (imm : BitVec 16) : Word := dispAddr s a imm &&& ~~~15

/-- The tag of the granule of a place (R26). -/
def State.tagOf (s : State) (p : Place) : Bool :=
  s.keyLoaded p.key && !p.dev && decide (p.kind < 2) && (s.tagsUnder p.key (p.line 0)).contains (p.loc 0 / 16)

/-- `ld.cap` (R28, R261). -/
def execLdCap (d : CReg) (a : SReg) (imm : BitVec 16) (s : State) : Host.Outcome State Fault Refusal := finish (do
  tokensReady s [a]
  let (sp, s) ← globalGate s .load (granuleAddr s a imm) 16 0
  let (x, s) := (s.payLines sp false false).getSpan sp
  let c : Cap := { val := BitVec.ofNat 128 x, tag := sp.all (fun e => s.tagOf e.1) }
  .ok (((s.onWs (fun w => w.setC d c)).done []).lostC d))

/-- `st.cap` (R26, R261): the granule's tag becomes the register's. -/
def execStCap (d : CReg) (a : SReg) (imm : BitVec 16) (s : State) : Host.Outcome State Fault Refusal := finish (do
  tokensReady s [a]
  let (sp, s) ← globalGate s .store (granuleAddr s a imm) 16 0
  let c := s.ws.getC d
  let s := (s.payLines sp true false).putSpan sp (toBytes 16 c.val.toNat)
  let s := if c.tag then { s with tags := sp.foldl (fun t e =>
      if s.keyLoaded e.1.key && !e.1.dev && decide (e.1.kind < 2) then setAdd t (e.1.loc 0 / 16) else t) s.tags } else s
  .ok (s.done []))

/-- `ldl` (R261, R263). -/
def execLdl (t : IT) (d a : SReg) (imm : BitVec 16) (s : State) : Host.Outcome State Fault Refusal := finish (do
  tokensReady s [a, d]
  let (x, s) ← localLoad s (dispAddr s a imm) (t.bits / 8)
  .ok ((s.doneS d [] (extend t x)).lostS d))

/-- `stl` (R261, R263). -/
def execStl (t : IT) (d a : SReg) (imm : BitVec 16) (s : State) : Host.Outcome State Fault Refusal := finish (do
  tokensReady s [a, d]
  let s ← localStore s (dispAddr s a imm) (regBytes t (s.ws.getS d))
  .ok (s.done []))

/-! ## Acquire and release (R116 to R118, R266) -/

/-- An address with the bits below the access's size cleared (R266, R267). -/
def alignDown (a : Word) (n : Nat) : Word := BitVec.ofNat 64 (a.toNat / n * n)

/-- The earliest the slot's trackers and the carry tracker allow (R117). -/
def State.trackV (s : State) : Nat := max s.slot.trk.v s.core.carry.v

/-- An operation enters the slot's release queue (R118), or waits for room. -/
def enqueueRelease (s : State) (op : RelOp) : M State :=
  if 4 ≤ s.slot.relq.length then waitNow s 0x26 0x07 0
  else
    let e : RelEntry :=
      { op := op, seq := s.slot.wseq, bases := (List.finRange 4).map (fun i => (s.core.slot i).wbase),
        count := s.slot.trk.count + s.core.carry.count, v := s.trackV, fleft := s.slot.fcount, sent := false, refused := false }
    .ok ((s.onSlot (fun x => { x with relq := x.relq ++ [e] })).post s.pkg.ptime (.releaseComplete s.cn s.core.cur))

/-- The point of an acquire or an atomic has the line, or asks for it while the context stalls (R67, R86, R116). -/
def pointGate (s : State) (sp : Span) (sc : Scope) (amo : Bool) : M Unit :=
  match sp with
  | (p, _) :: _ => if s.pointReady p (p.line 0) sc amo then .ok () else stallNow (s.askPoint p (p.line 0) sc amo) 0x20
  | [] => .ok ()

/-- The directory's part of a read at the point of a scope (R67, R116): it fills no L1 but that of a core-scope owner. -/
def State.pointRead (s : State) (sp : Span) (sc : Scope) : State :=
  sp.lines.foldl (fun s l =>
    if !l.2.coherent then s
    else if (s.entry l.1).st = 3 then s.contextRead [(l.2, 1)] false
    else
      let s := s.acquireDrops l.1 sc
      match sc with
      | .core => s.setCore { s.core with l1d := l1Use s.core.l1d l.1 }
      | .cluster => s
      | .die => (s.fillSlice s.dn l.1 l.2.key l.2.vfn).2
      | _ => s.writeSlice s.dn l.1 l.2) s

/-- The value of a checked acquire load (R116). -/
def State.getPoint (s : State) (sp : Span) (sc : Scope) : Nat × State :=
  match deviceOf sp with
  | some r =>
    let x := s.readDevice r
    (x.1.toNat, x.2)
  | none =>
    let s := (sp.lines.foldl (fun s l => s.takePoint l.2 l.1 sc) s).pointRead sp sc
    let s := (s.countKmisses s.cn sp).spanConsumed sp
    (ofBytes (s.readSpan sp), s)

/-- `ld.acq` (R116, R266). -/
def execLdAcq (sc : Scope) (t : IT) (d a : SReg) (la : Bool) (s : State) : Host.Outcome State Fault Refusal := finish (do
  tokensReady s [a, d]
  let (sp, s) ← globalGate s .load (alignDown (s.ws.getS a) (t.bits / 8)) (t.bits / 8) 0
  pointGate s sp sc false
  let (x, s) := (s.payPoint sp sc).getPoint sp sc
  .ok ((s.doneS d [(la, a)] (extend t x)).lostS d))

/-- `st.rel` (R118, R266): it enters the release queue. -/
def execStRel (sc : Scope) (t : IT) (d a : SReg) (la : Bool) (s : State) : Host.Outcome State Fault Refusal := finish (do
  tokensReady s [a, d]
  let n := t.bits / 8
  let (sp, s) ← globalChecks s .store (alignDown (s.ws.getS a) n) n 0
  let s ← enqueueRelease s (.store ((sp.headD (default0, 0)).1) sc n (s.ws.getS d))
  .ok ((s.payPoint sp sc).done [(la, a)]))
where
  /-- Never used: an access has at least one place. -/
  default0 : Place := { pa := 0, key := 0, kind := 0, hm := false, hdie := 0, cach := false, dev := false, vfn := 0 }

/-! ## Atomics (R67, R106, R267 to R269) -/

/-- The format of `amo.fadd` (R268). -/
def amoLay (t : IT) : Layout :=
  match t.w with
  | .b16 => layB16 | .b32 => lay32 | _ => lay64

/-- The new memory value of an atomic, none when it does not write, and its flags (R267, R268). -/
def amoNew (op : AmoOp) (t : IT) (o b c : Nat) : Option Nat × Flags :=
  match op with
  | .add => (some ((o + b) % 2 ^ t.bits), 0)
  | .fadd => let r := (amoLay t).add .rne o b; (some r.1, r.2)
  | .min => (some (if t.value b < t.value o then b else o), 0)
  | .max => (some (if t.value o < t.value b then b else o), 0)
  | .and => (some (o &&& b), 0)
  | .or => (some (o ||| b), 0)
  | .xor => (some (o ^^^ b), 0)
  | .swap => (some b, 0)
  | .cas => (if o = b then some c else none, 0)

/-- The atomic at its point (R67, R269): old value, flags, state with the value written. It is one access, which counts once under a key
whose slot is not loaded (R42): where it writes, by its write. -/
def State.amoAt (s : State) (p : Place) (sc : Scope) (op : AmoOp) (t : IT) (b c : Word) : Nat × Flags × State :=
  let n := t.bits / 8
  let sp : Span := [(p, n)]
  let s := s.takePoint p (p.line 0) sc
  let rd := match deviceOf sp with
    | some r =>
      let x := s.readDevice r
      (x.1.toNat, x.2)
    | none => (ofBytes (s.readSpan sp), s.spanConsumed sp)
  let o := rd.1
  let s := rd.2
  let r := amoNew op t o (lowBits t b) (lowBits t c)
  match r.1 with
  | some y => (o, r.2, s.putScoped sp (toBytes n y) (some sc))
  | none => (o, r.2, (s.countKmisses s.cn sp).pointRead sp sc)

/-- The old value as written to the destination (R267, R268). -/
def amoResult (op : AmoOp) (t : IT) (o : Nat) : Word := if op = .fadd then BitVec.ofNat 64 o else extend t o

/-- The root port of a host address advertises AtomicOps (R106); the ports of I/O die B are numbered from 1,000. -/
def State.portAtomics (s : State) (pa : Nat) : Bool :=
  s.pkgx.enabled.getLsbD 6 && (match s.mapWin pa with
    | some m => setHas s.pkgx.atomicPorts (m.2.port + (if m.1 < 1000 then 0 else 1000))
    | none => false)

/-- Atomics that the page does not take (R106). -/
def State.atomicRefused (s : State) (p : Place) (op : AmoOp) (t : IT) : Bool :=
  p.kind == 3 || (p.kind == 2 && !p.cach &&
    !(s.portAtomics p.pa && (op == .add || op == .swap || op == .cas) && decide (32 ≤ t.bits)))

/-- Such an atomic raises ATOMIC_PATH (R106). -/
def atomicGate (s : State) (p : Place) (op : AmoOp) (t : IT) (va : Word) : M Unit :=
  if !p.dev && s.atomicRefused p op t then trapNow s 0x14 0 va 0 else .ok ()

def MemOrder.acq : MemOrder → Bool
  | .acq => true | .ar => true | _ => false
def MemOrder.rel : MemOrder → Bool
  | .rel => true | .ar => true | _ => false

/-- An atomic instruction (R120, R267): at once, or through the release queue when it releases or when a root port performs
it and answers later (R106). -/
def amoOp (op : AmoOp) (sc : Scope) (o : MemOrder) (t : IT) (d a b c : SReg) (ks : List (Bool × SReg)) (s : State) : M State := do
  tokensReady s [a, b, c, d]
  let n := t.bits / 8
  let va := alignDown (s.ws.getS a) n
  let (sp, s) ← globalChecks s .both va n 0
  match sp with
  | [(p, _)] =>
    atomicGate s p op t va
    let x := s.ws.getS b
    let y := s.ws.getS c
    if MemOrder.rel o ∨ p.kind = 2 ∧ !p.cach then
      let s ← enqueueRelease s (.amo p sc op t x y d s.core.res.wp (MemOrder.acq o))
      .ok ((s.payPoint sp sc).done ks)
    else do
      orderGate s sp
      lineGate s .both sp
      pointGate s sp sc true
      let r := (s.payPoint sp sc).amoAt p sc op t x y
      let s := r.2.2.onWs (fun w => w.setFlags r.2.1)
      .ok ((s.doneS d ks (amoResult op t r.1)).lostS d)
  | _ => .ok (s.done ks)

/-- `amo.add` (R267). -/
def execAmoAdd (sc : Scope) (o : MemOrder) (t : IT) (d a b : SReg) (la lb : Bool) (s : State) : Host.Outcome State Fault Refusal :=
  finish (amoOp .add sc o t d a b 0 [(la, a), (lb, b)] s)
/-- `amo.fadd` (R268). -/
def execAmoFadd (sc : Scope) (o : MemOrder) (t : IT) (d a b : SReg) (la lb : Bool) (s : State) : Host.Outcome State Fault Refusal :=
  finish (amoOp .fadd sc o t d a b 0 [(la, a), (lb, b)] s)
/-- `amo.min` (R267). -/
def execAmoMin (sc : Scope) (o : MemOrder) (t : IT) (d a b : SReg) (la lb : Bool) (s : State) : Host.Outcome State Fault Refusal :=
  finish (amoOp .min sc o t d a b 0 [(la, a), (lb, b)] s)
/-- `amo.max` (R267). -/
def execAmoMax (sc : Scope) (o : MemOrder) (t : IT) (d a b : SReg) (la lb : Bool) (s : State) : Host.Outcome State Fault Refusal :=
  finish (amoOp .max sc o t d a b 0 [(la, a), (lb, b)] s)
/-- `amo.and` (R267). -/
def execAmoAnd (sc : Scope) (o : MemOrder) (t : IT) (d a b : SReg) (la lb : Bool) (s : State) : Host.Outcome State Fault Refusal :=
  finish (amoOp .and sc o t d a b 0 [(la, a), (lb, b)] s)
/-- `amo.or` (R267). -/
def execAmoOr (sc : Scope) (o : MemOrder) (t : IT) (d a b : SReg) (la lb : Bool) (s : State) : Host.Outcome State Fault Refusal :=
  finish (amoOp .or sc o t d a b 0 [(la, a), (lb, b)] s)
/-- `amo.xor` (R267). -/
def execAmoXor (sc : Scope) (o : MemOrder) (t : IT) (d a b : SReg) (la lb : Bool) (s : State) : Host.Outcome State Fault Refusal :=
  finish (amoOp .xor sc o t d a b 0 [(la, a), (lb, b)] s)
/-- `amo.swap` (R267). -/
def execAmoSwap (sc : Scope) (o : MemOrder) (t : IT) (d a b : SReg) (la lb : Bool) (s : State) : Host.Outcome State Fault Refusal :=
  finish (amoOp .swap sc o t d a b 0 [(la, a), (lb, b)] s)
/-- `amo.cas` (R267). -/
def execAmoCas (sc : Scope) (o : MemOrder) (t : IT) (d a b c : SReg) (la lb lc : Bool) (s : State) :
    Host.Outcome State Fault Refusal :=
  finish (amoOp .cas sc o t d a b c [(la, a), (lb, b), (lc, c)] s)

/-! ## Fences (R119, R126, R270, R271) -/

/-- A wait for a visibility time: the time event is posted for when it comes (R83, R119). -/
def State.awaitTime (s : State) (v : Nat) : State :=
  s.post (s.pkg.ptime + (v - s.releaseTime s.dn)) (.visibilityTimeReached s.cn s.core.cur)

/-- `fence` (R119, R137, R270): in fabric release mode the slot's counter decides and no `vt` is waited for. -/
def execFence (_sc : Scope) (s : State) : Host.Outcome State Fault Refusal := finish (
  if s.frmOn then
    if s.slot.outLoads = 0 ∧ s.slot.fcount = 0 ∧ s.slot.relq.isEmpty then .ok s.retire else waitNow s 0x23 0x08 0
  else if s.slot.outLoads = 0 ∧ s.slot.trk.count = 0 ∧ s.core.carry.count = 0 ∧ s.slot.relq.isEmpty then
    if s.trackV ≤ s.releaseTime s.dn then .ok s.retire else waitNow (s.awaitTime s.trackV) 0x23 0x08 0
  else waitNow s 0x23 0x08 0)

/-- How many host and peer writes the I/O dies had accepted when the running `xfence` issued (R126). -/
def State.hostMark (s : State) : Nat := s.sx.hostMark.getD s.pkgx.hostSeq
/-- The host and peer writes accepted before the running `xfence` issued. -/
def State.hostBefore (s : State) : List HostWrite := s.pkgx.hostWrites.filter (fun w => decide (w.seq < s.hostMark))
/-- The largest `vt` among them. -/
def State.hostV (s : State) : Nat := s.hostBefore.foldl (fun m w => max m (w.vt.getD 0)) 0

/-- The largest visibility time among the writes that an `xfence` names by its source mask (R111, R126). -/
def State.crossV (s : State) (src : BitVec 6) : Nat :=
  let e := s.slot.engV
  let pick := fun (b : Nat) (v : Nat) => if src.getLsbD b then v else 0
  max (pick 0 s.trackV) (max (max (pick 1 e[0]) (pick 2 e[1])) (max (max (pick 3 e[2]) (pick 4 e[3])) (pick 5 s.hostV)))

/-- A queued operation of the slot writes memory on the LS path (R126). -/
def RelOp.writes (o : RelOp) : Bool := o.place.isSome

/-- Writes that an `xfence` names are still to be performed or acknowledged (R126): those on the LS path, with the queued
releases and atomics; those of hosts and peers accepted before it issued. An engine's are acknowledged when its completion is observed (R112). -/
def State.crossPending (s : State) (src : BitVec 6) : Bool :=
  (src.getLsbD 0 && (s.slot.trk.count != 0 || s.core.carry.count != 0 || s.slot.relq.any (fun e => e.op.writes)))
    || (src.getLsbD 5 && s.hostBefore.any (fun w => w.vt.isNone))

/-- `xfence` (R126, R137, R270): with LS in the destination mask the writes enter the tracker. -/
def execXfence (_sc : Scope) (src dst : BitVec 6) (s : State) : Host.Outcome State Fault Refusal := finish (
  let v := s.crossV src
  let s := s.onSx (fun x => { x with hostMark := some s.hostMark })
  if s.crossPending src then waitNow s 0x23 0x08 0
  else if !s.frmOn ∧ s.releaseTime s.dn < v then waitNow (s.awaitTime v) 0x23 0x08 0
  else .ok (if dst.getLsbD 0 then (s.trackNow v).retire else s.retire))

/-! ## Cache operations (R272 to R276) -/

/-- The translation of a hint (R273): a TLB entry, else a walk made at once; none when it fails. -/
def State.hintPage (s : State) (va : Nat) : Option TlbEntry × State :=
  let leaf := fun (s : State) (e : TlbEntry) =>
    ((if (s.leafCheck s.vfn (!s.sup) .load e).isSome then none else some e), s)
  match s.tlbFind s.cn s.vfn (va / 65536) with
  | some (e, s) => leaf s e
  | none =>
    match s.walk s.cl s.ws.atp (va / 65536) with
    | (.ok e, s) => leaf ((s.onCluster s.cl (fun c => c.tlbUse e)).onCore s.cn (fun c => c.tlbUse e)) e
    | (_, s) => (none, s)

/-- `pref`: a hint without architectural effect that never waits (R273): a leased fill of the die's slice, and of the L1; a fill whose
line another die owns is left with the home, which makes it after the recall (R87). -/
def prefOp (l1 : Bool) (a : SReg) (imm : BitVec 16) (s : State) : State :=
  let va := dispAddr s a imm
  if s.booked ∨ 2 ^ 55 ≤ va.toNat ∨ s.ws.atp.getLsbD 63 = false then s.retire
  else
    match s.hintPage va.toNat with
    | (some e, s) =>
      let p := e.place va.toNat
      let line := p.line 0
      if !p.coherent ∨ (s.entry line).st = 3 ∨ s.unmapped p then s.retire
      else if s.lineWaits line s.dn then ((s.askLine line s.dn).holdReq line s.dn (.rdl line s.dn)).retire
      else if s.core.ownsLine line then s.retire
      else
        let s := if l1 && l1Hit s.core.l1d s.now line then s else s.lineTouched s.cn s.dn line
        (if l1 then s.readLine s.cn line p.key p.vfn false else (s.fillSlice s.dn line p.key p.vfn).2).retire
    | (none, s) => s.retire

/-- `pref.l1` (R272, R273). -/
def execPrefL1 (a : SReg) (imm : BitVec 16) (s : State) : Host.Outcome State Fault Refusal := .next (prefOp true a imm s)
/-- `pref.l2` (R272, R273). -/
def execPrefL2 (a : SReg) (imm : BitVec 16) (s : State) : Host.Outcome State Fault Refusal := .next (prefOp false a imm s)

/-- The line of a cache operation that acts on it: none on a tile line, a vault page or an uncached page (R276). -/
def cacheLine (s : State) (sp : Span) : Option (Place × Nat) :=
  match sp with
  | (p, _) :: _ => if p.coherent ∧ (s.entry (p.line 0)).st ≠ 3 then some (p, p.line 0) else none
  | [] => none

/-- In a booked task both operations raise BOOKED_ACCESS on HBM, host and peer pages (R276). -/
def cacheBooked (s : State) (sp : Span) : M Unit :=
  if s.booked ∧ sp.any (fun e => e.1.kind != 1 && !e.1.dev) then bookedNow s 1 else .ok ()

/-- The checks of a cache operation (R272, R276): an access on the LS path, which waits for the recall of an owner die (R86). -/
def cacheGate (s : State) (need : Need) (va : Word) : M (Span × State) := do
  accessReady s
  let (sp, s) ← translate s need va 1
  cacheBooked s sp
  orderGate s sp
  match cacheLine s sp with
  | some (_, line) => if (s.entry line).st = 2 then stallNow (s.recall line) 0x20 else pure ()
  | none => pure ()
  .ok (sp, s)

/-- The L1 and cluster owners of a line give it up (R274, R275). -/
def State.disown (s : State) (line : Nat) : State := ((s.recallL1 2048 line).recallCluster s.dn line).recallCluster (s.lineHome line) line

/-- Every dirty copy of a line reaches memory (R274): those under older keys first, then the latest (log entry 98). -/
def State.flushLine (s : State) (line : Nat) : State :=
  let s := (s.stale.filter (fun c => c.line == line)).foldl (fun s c => s.writeBack line c.key) s
  s.writeBack line ((mapGet s.lineKey line).getD 0)

/-- The `vt` of an operation that leaves every copy as it is (R81, R276): the time of a write that cuts nothing. -/
def State.quietVt (s : State) (line : Nat) (w : WakDst) : State :=
  let s := s.visit line
  let e := s.entry line
  let h := s.lineHome line
  s.settle line s.dn w (if s.locked h ∧ !e.cutting then max (s.ptimeOf h) (max e.hz e.lhz) + s.pkg.gband else 0) e.cutting

/-- `flushl` (R274, R276): dirty bytes reach memory, the value does not change and every copy stays. -/
def execFlushl (a : SReg) (imm : BitVec 16) (s : State) : Host.Outcome State Fault Refusal := finish (do
  tokensReady s [a]
  let (sp, s) ← cacheGate s .load (dispAddr s a imm)
  match cacheLine s sp with
  | some (_, line) =>
    let (w, s) := ((s.disown line).flushLine line).newWrite
    .ok ((s.quietVt line w).done [])
  | none => .ok (s.done []))

/-- What `drop` leaves of a line (R275): the bytes, key and tags that memory holds; whether dirty bytes of the latest copy had
reached it is a free value (log entry 12). Copies under other keys are gone. -/
def State.dropLine (s : State) (line : Nat) : State :=
  let s := { s with stale := s.stale.filter (fun (c : StaleCopy) => c.line != line) }
  match mapGet s.hbm line with
  | some x =>
    let (v, s) := s.drawFree
    let s := if x.dirty && v.getLsbD 0 then { s with hbm := mapDel s.hbm line } else s.refetch line
    s.dropCopy (s.lineHome line) line
  | none => s.dropCopy (s.lineHome line) line

/-- `drop` (R275, R276). -/
def execDrop (a : SReg) (imm : BitVec 16) (s : State) : Host.Outcome State Fault Refusal := finish (do
  tokensReady s [a]
  let (sp, s) ← cacheGate s .store (dispAddr s a imm)
  match cacheLine s sp with
  | some (_, line) =>
    let (w, s) := ((s.disown line).dropLine line).newWrite
    .ok ((s.perform line s.dn true w).done [])
  | none => .ok (s.done []))

end Sys2Proof.Machine
end

