-- ==== Sys2Proof/Machine/ScalarFp.lean ====
section
/-! DEFINITION. Scalar floating point (spec/10 R258 to R260). -/
namespace Sys2Proof.Machine

/-- The flags of a scalar form: lane 0 of one (R151). -/
def raise1 (s : State) (f : Flags) : M State := raiseFlags s 1 (if f = 0 then [] else [(0, f)])

/-- A scalar floating-point form (R258, R260): the result zero-extended, flags set, FP before any effect. -/
def fpOp (d a : SQ) (bs : List SReg) (ks : List (Bool × SReg)) (f : Ws → Nat × Flags) (s : State) : M State := do
  ready s a.q? d.q? (a.regs ++ d.regs ++ bs)
  let r := f s.ws
  let s ← raise1 s r.2
  .ok (s.doneSQ d a ks (BitVec.ofNat 64 r.1))

/-- `fadd` (R258). -/
def execFadd (f : FC) (rm : RM) (d a : SQ) (b : SReg) (la lb : Bool) (s : State) : Host.Outcome State Fault Refusal :=
  finish (fpOp d a [b] [a.mark la, (lb, b)] (fun w => f.lay.add (w.rm rm).plain (w.srcS a).toNat (w.getS b).toNat) s)
/-- `fsub` (R258). -/
def execFsub (f : FC) (rm : RM) (d a : SQ) (b : SReg) (la lb : Bool) (s : State) : Host.Outcome State Fault Refusal :=
  finish (fpOp d a [b] [a.mark la, (lb, b)] (fun w => f.lay.sub (w.rm rm).plain (w.srcS a).toNat (w.getS b).toNat) s)
/-- `fmul` (R258). -/
def execFmul (f : FC) (rm : RM) (d a : SQ) (b : SReg) (la lb : Bool) (s : State) : Host.Outcome State Fault Refusal :=
  finish (fpOp d a [b] [a.mark la, (lb, b)] (fun w => f.lay.mul (w.rm rm).plain (w.srcS a).toNat (w.getS b).toNat) s)
/-- `fdiv` (R258). -/
def execFdiv (f : FC) (rm : RM) (d a : SQ) (b : SReg) (la lb : Bool) (s : State) : Host.Outcome State Fault Refusal :=
  finish (fpOp d a [b] [a.mark la, (lb, b)] (fun w => f.lay.div (w.rm rm).plain (w.srcS a).toNat (w.getS b).toNat) s)
/-- `fsqrt` (R258). -/
def execFsqrt (f : FC) (rm : RM) (d a : SQ) (la : Bool) (s : State) : Host.Outcome State Fault Refusal :=
  finish (fpOp d a [] [a.mark la] (fun w => f.lay.sqrt (w.rm rm).plain (w.srcS a).toNat) s)
/-- `fmin` (R140, R258). -/
def execFmin (f : FC) (d a : SQ) (b : SReg) (la lb : Bool) (s : State) : Host.Outcome State Fault Refusal :=
  finish (fpOp d a [b] [a.mark la, (lb, b)] (fun w => f.lay.minMax false (w.srcS a).toNat (w.getS b).toNat) s)
/-- `fmax` (R140, R258). -/
def execFmax (f : FC) (d a : SQ) (b : SReg) (la lb : Bool) (s : State) : Host.Outcome State Fault Refusal :=
  finish (fpOp d a [b] [a.mark la, (lb, b)] (fun w => f.lay.minMax true (w.srcS a).toNat (w.getS b).toNat) s)
/-- `fcmp` (R258). -/
def execFcmp (f : FC) (d a : SQ) (b : SReg) (c : Fin 8) (la lb : Bool) (s : State) : Host.Outcome State Fault Refusal :=
  finish (fpOp d a [b] [a.mark la, (lb, b)]
    (fun w => let r := f.lay.compare c.val (w.srcS a).toNat (w.getS b).toNat; (bit01 r.1, r.2)) s)
/-- `fclass` (R258): a test of the operand's bits that raises no flag, of a signalling NaN either (log entry 125). -/
def execFclass (f : FC) (d a : SQ) (la : Bool) (s : State) : Host.Outcome State Fault Refusal :=
  finish (fpOp d a [] [a.mark la] (fun w => (f.lay.classify (w.srcS a).toNat, 0)) s)
/-- `fma` (R259). -/
def execFma (f : FC) (rm : RM) (d a : SQ) (b c : SReg) (la lb lc : Bool) (s : State) : Host.Outcome State Fault Refusal :=
  finish (fpOp d a [b, c] [a.mark la, (lb, b), (lc, c)]
    (fun w => f.lay.fma (w.rm rm).plain false false (w.srcS a).toNat (w.getS b).toNat (w.getS c).toNat) s)
/-- `fms` (R259). -/
def execFms (f : FC) (rm : RM) (d a : SQ) (b c : SReg) (la lb lc : Bool) (s : State) : Host.Outcome State Fault Refusal :=
  finish (fpOp d a [b, c] [a.mark la, (lb, b), (lc, c)]
    (fun w => f.lay.fma (w.rm rm).plain false true (w.srcS a).toNat (w.getS b).toNat (w.getS c).toNat) s)

/-- The mode of a conversion and its draw (R147, R148): STO only where it applies. -/
def Ws.cvtMode (w : Ws) (rm : RM) (src dst : Fmt) : RM :=
  let r := w.rm rm
  if r = .sto ∧ !stoApplies src dst then .rne else r

/-- The register image of a conversion's result (R244, R258, R259): integers extended under their type. -/
def cvtResult (dst : Fmt) (y : Nat) : Word :=
  match Fmt.cls dst with
  | .int t => BitVec.ofInt 64 (t.value y)
  | _ => BitVec.ofNat 64 y

/-- `fcvt` (R259). -/
def execFcvt (rm : RM) (d a : SQ) (b c : Fmt) (la : Bool) (s : State) : Host.Outcome State Fault Refusal := finish (do
  ready s a.q? d.q? (a.regs ++ d.regs)
  let m := s.ws.cvtMode rm b c
  let draws := if m = .sto then [srngStep s.core.srng] else []
  let r := convertElem b c m s.ws.satf ((draws.headD 0).toNat) (s.ws.srcS a).toNat
  let s ← raise1 s r.2
  .ok ((s.afterS draws).doneSQ d a [a.mark la] (cvtResult c r.1)))

end Sys2Proof.Machine
end

