-- ==== Sys2Proof/Machine/Vector.lean ====
section
/-! DEFINITION. Vector instructions, majors 0x18 to 0x21 (spec/11 R277 to R298). -/
namespace Sys2Proof.Machine

/-- Lane `i` of width `w` of a register (R277). -/
abbrev vlane (w : Nat) (x : VWord) (i : Nat) : Nat := laneOf w x i

/-! ## Floating-point arithmetic (R282, R283) -/

/-- A two-source floating-point form (R282). -/
def vfp2 (f : FC) (k : Mask) (d a : VQ) (b : VReg) (la lb : Bool) (g : Ws → Nat → Nat → Nat × Flags) (s : State) : M State :=
  vectorOp s f.bits k d a [] [a.mark la, (lb, b)] [] (fun w i => g w (vlane f.bits (w.srcV a) i) (vlane f.bits (w.getV b) i))

/-- A one-source floating-point form (R282). -/
def vfp1 (f : FC) (k : Mask) (d a : VQ) (la : Bool) (g : Ws → Nat → Nat × Flags) (s : State) : M State :=
  vectorOp s f.bits k d a [] [a.mark la] [] (fun w i => g w (vlane f.bits (w.srcV a) i))

/-- A three-source floating-point form (R283). -/
def vfp3 (f : FC) (k : Mask) (d a : VQ) (b c : VReg) (la lb lc : Bool) (g : Ws → Nat → Nat → Nat → Nat × Flags) (s : State) :
    M State :=
  vectorOp s f.bits k d a [] [a.mark la, (lb, b), (lc, c)] [] (fun w i =>
    g w (vlane f.bits (w.srcV a) i) (vlane f.bits (w.getV b) i) (vlane f.bits (w.getV c) i))

/-- `vadd` (R282). -/
def execVadd (f : FC) (rm : RM) (d a : VQ) (b : VReg) (la lb : Bool) (k : Mask) (s : State) :
    Host.Outcome State Fault Refusal :=
  finish (vfp2 f k d a b la lb (fun w x y => f.lay.add (w.rm rm).plain x y) s)
/-- `vsub` (R282). -/
def execVsub (f : FC) (rm : RM) (d a : VQ) (b : VReg) (la lb : Bool) (k : Mask) (s : State) :
    Host.Outcome State Fault Refusal :=
  finish (vfp2 f k d a b la lb (fun w x y => f.lay.sub (w.rm rm).plain x y) s)
/-- `vmul` (R282). -/
def execVmul (f : FC) (rm : RM) (d a : VQ) (b : VReg) (la lb : Bool) (k : Mask) (s : State) :
    Host.Outcome State Fault Refusal :=
  finish (vfp2 f k d a b la lb (fun w x y => f.lay.mul (w.rm rm).plain x y) s)
/-- `vdiv` (R282). -/
def execVdiv (f : FC) (rm : RM) (d a : VQ) (b : VReg) (la lb : Bool) (k : Mask) (s : State) :
    Host.Outcome State Fault Refusal :=
  finish (vfp2 f k d a b la lb (fun w x y => f.lay.div (w.rm rm).plain x y) s)
/-- `vmin` (R140, R282). -/
def execVmin (f : FC) (d a : VQ) (b : VReg) (la lb : Bool) (k : Mask) (s : State) : Host.Outcome State Fault Refusal :=
  finish (vfp2 f k d a b la lb (fun _ x y => f.lay.minMax false x y) s)
/-- `vmax` (R140, R282). -/
def execVmax (f : FC) (d a : VQ) (b : VReg) (la lb : Bool) (k : Mask) (s : State) : Host.Outcome State Fault Refusal :=
  finish (vfp2 f k d a b la lb (fun _ x y => f.lay.minMax true x y) s)
/-- `vabs` (R282). -/
def execVabs (f : FC) (d a : VQ) (la : Bool) (k : Mask) (s : State) : Host.Outcome State Fault Refusal :=
  finish (vfp1 f k d a la (fun _ x => f.lay.setSign x (fun _ => false)) s)
/-- `vneg` (R282). -/
def execVneg (f : FC) (d a : VQ) (la : Bool) (k : Mask) (s : State) : Host.Outcome State Fault Refusal :=
  finish (vfp1 f k d a la (fun _ x => f.lay.setSign x (fun n => !n)) s)
/-- `vsqrt` (R282). -/
def execVsqrt (f : FC) (rm : RM) (d a : VQ) (la : Bool) (k : Mask) (s : State) : Host.Outcome State Fault Refusal :=
  finish (vfp1 f k d a la (fun w x => f.lay.sqrt (w.rm rm).plain x) s)
/-- `vfma` (R283). -/
def execVfma (f : FC) (rm : RM) (d a : VQ) (b c : VReg) (la lb lc : Bool) (k : Mask) (s : State) :
    Host.Outcome State Fault Refusal :=
  finish (vfp3 f k d a b c la lb lc (fun w x y z => f.lay.fma (w.rm rm).plain false false x y z) s)
/-- `vfms` (R283). -/
def execVfms (f : FC) (rm : RM) (d a : VQ) (b c : VReg) (la lb lc : Bool) (k : Mask) (s : State) :
    Host.Outcome State Fault Refusal :=
  finish (vfp3 f k d a b c la lb lc (fun w x y z => f.lay.fma (w.rm rm).plain false true x y z) s)
/-- `vfnma` (R283). -/
def execVfnma (f : FC) (rm : RM) (d a : VQ) (b c : VReg) (la lb lc : Bool) (k : Mask) (s : State) :
    Host.Outcome State Fault Refusal :=
  finish (vfp3 f k d a b c la lb lc (fun w x y z => f.lay.fma (w.rm rm).plain true false x y z) s)
/-- round(c + a × b + a' × b') in FP32, the sum exact (R283). -/
def dot2 (l : Layout) (rm : RM) (a b a' b' c : Nat) : Nat × Flags :=
  let x := l.decode a
  let y := l.decode b
  let x' := l.decode a'
  let y' := l.decode b'
  let z := lay32.decode c
  let clash := fun (u v : FVal) => (u.isZero && v.isInf) || (u.isInf && v.isZero)
  if clash x y || clash x' y' then lay32.invalid
  else if [x, y, x', y', z].any FVal.isNan then lay32.nanOf [x, y, x', y', z]
  else
    match (x.mul y).add rm (x'.mul y') with
    | some p => lay32.addV rm p z
    | none => lay32.invalid

/-- `vdot` (R283). -/
def execVdot (f : FC) (rm : RM) (d a : VQ) (b c : VReg) (la lb lc : Bool) (k : Mask) (s : State) :
    Host.Outcome State Fault Refusal :=
  finish (vectorOp s 32 k d a [] [a.mark la, (lb, b), (lc, c)] [] (fun w i =>
    dot2 f.lay (w.rm rm).plain (vlane 16 (w.srcV a) (2 * i)) (vlane 16 (w.getV b) (2 * i))
      (vlane 16 (w.srcV a) (2 * i + 1)) (vlane 16 (w.getV b) (2 * i + 1)) (vlane 32 (w.getV c) i)))

/-! ## Integers (R284) -/

/-- A vector integer form (R284). -/
def vint (t : IT) (k : Mask) (d a : VQ) (b : VReg) (la lb : Bool) (g : Nat → Nat → Nat) (s : State) : M State :=
  vectorOp s t.bits k d a [] [a.mark la, (lb, b)] []
    (fun w i => (g (vlane t.bits (w.srcV a) i) (vlane t.bits (w.getV b) i) % 2 ^ t.bits, 0))

/-- `viadd` (R284). -/
def execViadd (t : IT) (d a : VQ) (b : VReg) (la lb : Bool) (k : Mask) (s : State) : Host.Outcome State Fault Refusal :=
  finish (vint t k d a b la lb (fun x y => x + y) s)
/-- `visub` (R284). -/
def execVisub (t : IT) (d a : VQ) (b : VReg) (la lb : Bool) (k : Mask) (s : State) : Host.Outcome State Fault Refusal :=
  finish (vint t k d a b la lb (fun x y => x + (2 ^ t.bits - y)) s)
/-- `vimul` (R284). -/
def execVimul (t : IT) (d a : VQ) (b : VReg) (la lb : Bool) (k : Mask) (s : State) : Host.Outcome State Fault Refusal :=
  finish (vint t k d a b la lb (fun x y => x * y) s)
/-- `vand` (R284). -/
def execVand (t : IT) (d a : VQ) (b : VReg) (la lb : Bool) (k : Mask) (s : State) : Host.Outcome State Fault Refusal :=
  finish (vint t k d a b la lb (fun x y => x &&& y) s)
/-- `vor` (R284). -/
def execVor (t : IT) (d a : VQ) (b : VReg) (la lb : Bool) (k : Mask) (s : State) : Host.Outcome State Fault Refusal :=
  finish (vint t k d a b la lb (fun x y => x ||| y) s)
/-- `vxor` (R284). -/
def execVxor (t : IT) (d a : VQ) (b : VReg) (la lb : Bool) (k : Mask) (s : State) : Host.Outcome State Fault Refusal :=
  finish (vint t k d a b la lb (fun x y => x ^^^ y) s)
/-- `vshl` (R284). -/
def execVshl (t : IT) (d a : VQ) (b : VReg) (la lb : Bool) (k : Mask) (s : State) : Host.Outcome State Fault Refusal :=
  finish (vint t k d a b la lb (fun x y => x * 2 ^ (y % t.bits)) s)
/-- `vshr` (R284). -/
def execVshr (t : IT) (d a : VQ) (b : VReg) (la lb : Bool) (k : Mask) (s : State) : Host.Outcome State Fault Refusal :=
  finish (vint t k d a b la lb (fun x y => x / 2 ^ (y % t.bits)) s)
/-- `vsra` (R284). -/
def execVsra (t : IT) (d a : VQ) (b : VReg) (la lb : Bool) (k : Mask) (s : State) : Host.Outcome State Fault Refusal :=
  finish (vint t k d a b la lb (fun x y => t.wrap (sraBits t x (y % t.bits))) s)

/-! ## Compares, select, masks (R285, R286) -/

def CmpTy.bits : CmpTy → Nat
  | .flt f => f.bits
  | .int t => t.bits
/-- A compare of two lanes (R258, R285). -/
def CmpTy.holds (ty : CmpTy) (p x y : Nat) : Bool × Flags :=
  match ty with
  | .flt f => f.lay.compare p x y
  | .int t =>
    let a := t.value x
    let b := t.value y
    (match p with
      | 0 => decide (a = b)
      | 1 => decide (a ≠ b)
      | 2 => decide (a < b)
      | 3 => decide (a ≤ b)
      | 4 => decide (b < a)
      | _ => decide (b ≤ a), 0)

def Ws.killKs (w : Ws) (ks : List (Bool × KReg)) : Ws := ks.foldl (fun w k => if k.1 then w.killK k.2 else w) w

/-- `vcmp` (R285). -/
def execVcmp (ty : CmpTy) (d : KReg) (a : VQ) (b : VReg) (p : Fin 8) (la lb : Bool) (k : Mask) (s : State) :
    Host.Outcome State Fault Refusal := finish (do
  ready s a.q? none []
  let n := 1024 / CmpTy.bits ty
  let act := s.ws.active k n
  let f := fun i =>
    let r := CmpTy.holds ty p.val (vlane (CmpTy.bits ty) (s.ws.srcV a) i) (vlane (CmpTy.bits ty) (s.ws.getV b) i)
    (bit01 r.1, r.2)
  let r := mapLanes act (splitLanes 1 n (s.ws.getK d).toNat) f 0
  let s ← raiseFlags s n r.2
  let low := joinLanes 1 r.1
  let old := (s.ws.getK d).toNat
  let y := BitVec.ofNat 128 (old / 2 ^ n * 2 ^ n + low)
  .ok (((s.takeQ a.q?).onWs (fun w => (w.killVs [a.mark la, (lb, b)]).setK d y)).retire))

/-- `vsel` (R286). -/
def execVsel (e : Width) (d a : VQ) (b : VReg) (c : KReg) (la lb lc : Bool) (k : Mask) (s : State) :
    Host.Outcome State Fault Refusal := finish (do
  let t ← vectorOp s e.bits k d a [] [a.mark la, (lb, b)] [] (fun w i =>
    (if (w.getK c).getLsbD i then vlane e.bits (w.srcV a) i else vlane e.bits (w.getV b) i, 0))
  .ok (t.onWs (fun w => w.killKs [(lc, c)])))

/-- A whole-mask form: marks, then the destination (R286). -/
def State.doneK (s : State) (d : KReg) (ks : List (Bool × KReg)) (y : KWord) : State :=
  (s.onWs (fun w => (w.killKs ks).setK d y)).retire
/-- `kand` (R286). -/
def execKand (d a b : KReg) (la lb : Bool) (s : State) : Host.Outcome State Fault Refusal :=
  .next (s.doneK d [(la, a), (lb, b)] (s.ws.getK a &&& s.ws.getK b))
/-- `kor` (R286). -/
def execKor (d a b : KReg) (la lb : Bool) (s : State) : Host.Outcome State Fault Refusal :=
  .next (s.doneK d [(la, a), (lb, b)] (s.ws.getK a ||| s.ws.getK b))
/-- `knot` (R286). -/
def execKnot (d a : KReg) (la : Bool) (s : State) : Host.Outcome State Fault Refusal :=
  .next (s.doneK d [(la, a)] (~~~(s.ws.getK a)))
/-- `kpop` (R286): the count takes `vl` as its table says. -/
def execKpop (e : Width) (d : SReg) (a : KReg) (la : Bool) (s : State) : Host.Outcome State Fault Refusal := finish (do
  tokensReady s [d]
  let n := ((List.range (1024 / e.bits)).filter (s.ws.active (some a) (1024 / e.bits))).length
  .ok ((s.onWs (fun w => (w.killKs [(la, a)]).setS d (BitVec.ofNat 64 n))).retire))

/-! ## Transcendentals (R287) -/

/-- A transcendental form: FP32 lanes, the correctly rounded value (R152, R287). -/
def vtrans (fn : TFn) (d a : VQ) (la : Bool) (k : Mask) (s : State) : M State :=
  vectorOp s 32 k d a [] [a.mark la] [] (fun w i => fn.eval (vlane 32 (w.srcV a) i))
/-- `vexp` (R287). -/
def execVexp (_rm : RM) (d a : VQ) (la : Bool) (k : Mask) (s : State) : Host.Outcome State Fault Refusal :=
  finish (vtrans .exp d a la k s)
/-- `vlog` (R287). -/
def execVlog (_rm : RM) (d a : VQ) (la : Bool) (k : Mask) (s : State) : Host.Outcome State Fault Refusal :=
  finish (vtrans .log d a la k s)
/-- `vrcp` (R287). -/
def execVrcp (_rm : RM) (d a : VQ) (la : Bool) (k : Mask) (s : State) : Host.Outcome State Fault Refusal :=
  finish (vtrans .rcp d a la k s)
/-- `vrsqrt` (R287). -/
def execVrsqrt (_rm : RM) (d a : VQ) (la : Bool) (k : Mask) (s : State) : Host.Outcome State Fault Refusal :=
  finish (vtrans .rsqrt d a la k s)
/-- `vtanh` (R287). -/
def execVtanh (_rm : RM) (d a : VQ) (la : Bool) (k : Mask) (s : State) : Host.Outcome State Fault Refusal :=
  finish (vtrans .tanh d a la k s)
/-- `vsigm` (R287). -/
def execVsigm (_rm : RM) (d a : VQ) (la : Bool) (k : Mask) (s : State) : Host.Outcome State Fault Refusal :=
  finish (vtrans .sigm d a la k s)
/-- `verf` (R287). -/
def execVerf (_rm : RM) (d a : VQ) (la : Bool) (k : Mask) (s : State) : Host.Outcome State Fault Refusal :=
  finish (vtrans .erf d a la k s)
/-- `vphi` (R287). -/
def execVphi (_rm : RM) (d a : VQ) (la : Bool) (k : Mask) (s : State) : Host.Outcome State Fault Refusal :=
  finish (vtrans .phi d a la k s)
/-- `vpdf` (R287). -/
def execVpdf (_rm : RM) (d a : VQ) (la : Bool) (k : Mask) (s : State) : Host.Outcome State Fault Refusal :=
  finish (vtrans .pdf d a la k s)

/-! ## Conversions (R288, R289) -/

/-- Lanes replaced at some indices: the value of each, none where the old one stays. -/
def putLanes (old : List Nat) (f : Nat → Option Nat) (i : Nat) : List Nat :=
  match old with
  | [] => []
  | o :: t => (f i).getD o :: putLanes t f (i + 1)

/-- The value that a list of (index, value) pairs gives an index. -/
def lookupLane (l : List (Nat × Nat)) (i : Nat) : Option Nat := (l.find? (fun x => x.1 == i)).map (·.2)

/-- Results of the listed elements in order, each with its draw (R148). -/
def convertList (src dst : Fmt) (m : RM) (sat : Bool) (x : Nat → Nat) (lanes : List Nat) (draws : List (BitVec 32)) :
    List (Nat × Nat × Flags) :=
  match lanes with
  | [] => []
  | i :: t => (i, convertElem src dst m sat (draws.headD 0).toNat (x i)) :: convertList src dst m sat x t draws.tail

/-- Flags of listed results, the lanes that raised none left out. -/
def raisedOf (l : List (Nat × Nat × Flags)) : Raised := l.filterMap (fun r => if r.2.2 = 0 then none else some (r.1, r.2.2))

/-- `vcvt` (R288). -/
def execVcvt (part : Fin 8) (rm : RM) (d a : VQ) (b c : Fmt) (la : Bool) (k : Mask) (s : State) :
    Host.Outcome State Fault Refusal := finish (do
  ready s a.q? d.q? []
  let nc := 1024 / max b.bits c.bits
  let si := fun i => if b.bits < c.bits then i + part.val * nc else i
  let di := fun i => if c.bits < b.bits then i + part.val * nc else i
  let lanes := (List.range nc).filter (s.ws.active k nc)
  let m := s.ws.cvtMode rm b c
  let draws := if m = .sto then srngDraws s.core.srng lanes.length else []
  let rs := convertList b c m s.ws.satf (fun i => vlane b.bits (s.ws.srcV a) (si i)) lanes draws
  let (old, s') := s.oldV d
  let s'' ← raiseFlags s' nc (raisedOf rs)
  let out := putLanes (splitLanes c.bits (1024 / c.bits) old.toNat) (lookupLane (rs.map (fun r => (di r.1, r.2.1)))) 0
  .ok ((s''.afterS draws).doneVQ d a [a.mark la] [] (BitVec.ofNat 1024 (joinLanes c.bits out))))

/-- One FP32 value divided by 2^xs and converted to a block element (R150). -/
def packElem (c : Fmt) (m : RM) (sat : Bool) (xs : Int) (draw x : Nat) : Nat × Flags :=
  match lay32.decode x with
  | .fin neg f e => c.encode m sat draw neg f (e - xs)
  | _ => convertElem .f32 c m sat draw x

def packElems (c : Fmt) (m : RM) (sat : Bool) (xs : Int) (vs : List Nat) (draws : List (BitVec 32)) (i : Nat) :
    List (Nat × Nat × Flags) :=
  match vs with
  | [] => []
  | x :: t => (i, packElem c m sat xs (draws.headD 0).toNat x) :: packElems c m sat xs t draws.tail (i + 1)

/-- A block of 32 FP32 values packed (R150): the code used, the elements with flags; `code` is an explicit scale. The elements under an
explicit 0xFF are the values divided by 2^128 (log entry 108). -/
def packBlock (c : Fmt) (m : RM) (sat : Bool) (code : Option Nat) (vs : List Nat) (draws : List (BitVec 32)) :
    Nat × List Nat × Raised :=
  let nans := (List.range 32).filter (fun i => (lay32.decode (vs.getD i 0)).isNan)
  if c = .mxfp4 ∧ !nans.isEmpty then
    (255, List.replicate 32 0, nans.map (fun i => (i, flIV)) ++ (if code = some 255 then (List.range 32).map (fun i => (i, flIV)) else []))
  else
    let x := code.getD (blockExp c (vs.map lay32.decode) + 127).toNat
    let rs := packElems c m sat (Int.ofNat x - 127) vs draws 0
    (x, rs.map (fun r => r.2.1), raisedOf rs ++ (if x = 255 then (List.range 32).map (fun i => (i, flIV)) else []))

/-- `vscale`, packing (R289). -/
def execVscalePack (rm : RM) (d a : VQ) (b : SReg) (c : Fmt) (la lb : Bool) (s : State) : Host.Outcome State Fault Refusal :=
  finish (do
    ready s a.q? d.q? [b]
    let m := s.ws.cvtMode rm .f32 c
    let draws := if m = .sto then srngDraws s.core.srng 32 else []
    let x := s.ws.getS b
    let code := if x.getLsbD 8 then some (fld x 7 0) else none
    let r := packBlock c m s.ws.satf code (splitLanes 32 32 (s.ws.srcV a).toNat) draws
    let s ← raiseFlags s 32 r.2.2
    let s := ((s.afterS draws).takeQ a.q?).onWs (fun w => (w.killVs [a.mark la]).killSs [(lb, b)])
    let s := s.putV d (BitVec.ofNat 1024 (joinLanes c.bits r.2.1))
    .ok (s.onWs (fun w => w.setS b (BitVec.ofNat 64 r.1))).retire)

/-- An element of a block with its scale, as FP32 (R289). -/
def unpackElem (c : Fmt) (scale x : Nat) : Nat × Flags :=
  match c.decode x with
  | .fin neg m e => lay32.round .rne false 0 neg m (e + Int.ofNat scale - 127)
  | v => if v.isInf then (lay32.sign v.sign + lay32.infCode, 0) else convertElem c .f32 .rne false 0 x

/-- `vscale`, unpacking (R289). -/
def execVscaleUnpack (d a : VQ) (b : SReg) (c : Fmt) (la lb : Bool) (s : State) : Host.Outcome State Fault Refusal := finish (do
  ready s a.q? d.q? [b]
  let scale := fld (s.ws.getS b) 7 0
  let es := splitLanes c.bits 32 (s.ws.srcV a).toNat
  let rs := if scale = 255 then (List.range 32).map (fun i => (i, lay32.canon, flIV))
    else (List.range 32).map (fun i => (i, unpackElem c scale (es.getD i 0)))
  let s ← raiseFlags s 32 (raisedOf rs)
  .ok (s.doneVQ d a [a.mark la] [(lb, b)] (BitVec.ofNat 1024 (joinLanes 32 (rs.map (fun r => r.2.1))))))

/-! ## Reductions (R155, R290) -/

/-- A node of the reduction tree: its value and the active lanes that flow into it. -/
abbrev RNode := Nat × List Nat

/-- One level of the tree (R155): node i joins node i + w, with the flags it raises. -/
def reduceLevel (op : Nat → Nat → Nat × Flags) (xs ys : List RNode) : List RNode × Raised :=
  match xs, ys with
  | x :: xs, y :: ys =>
    let r := reduceLevel op xs ys
    let v := op x.1 y.1
    let ls := x.2 ++ y.2
    ((v.1, ls) :: r.1, (if v.2 = 0 then [] else ls.map (fun i => (i, v.2))) ++ r.2)
  | _, _ => ([], [])

/-- The tree of R155 over `2^k` nodes. -/
def reduceTree (op : Nat → Nat → Nat × Flags) (k : Nat) (t : List RNode) : RNode × Raised :=
  match k with
  | 0 => (t.headD (0, []), [])
  | k + 1 =>
    let l := reduceLevel op (t.take (2 ^ k)) (t.drop (2 ^ k))
    let r := reduceTree op k l.1
    (r.1, l.2 ++ r.2)

/-- The three reductions of R155. -/
inductive RedOp where
  | sum | most | least
deriving DecidableEq, Repr

/-- The operation of a reduction in a lane format (R155). -/
def RedOp.apply (o : RedOp) (c : Fmt) (x y : Nat) : Nat × Flags :=
  match Fmt.cls c with
  | .flt l => match o with
    | .sum => l.add .rne x y
    | .most => l.minMax true x y
    | .least => l.minMax false x y
  | .int t => (t.wrap (match o with
    | .sum => t.value x + t.value y
    | .most => max (t.value x) (t.value y)
    | .least => min (t.value x) (t.value y)), 0)
  | .taper _ _ => (x, 0)

/-- The identity of a reduction (R155). -/
def RedOp.ident (o : RedOp) (c : Fmt) : Nat :=
  match Fmt.cls c with
  | .flt l => match o with
    | .sum => l.sign true
    | .most => l.sign true + l.infCode
    | .least => l.infCode
  | .int t => match o with
    | .sum => 0
    | .most => t.wrap t.least
    | .least => t.wrap t.greatest
  | .taper _ _ => 0

/-- A reduction (R155, R290): the scalar result extended by its format. -/
def reduce (o : RedOp) (d : SReg) (a : VQ) (c : Fmt) (la : Bool) (k : Mask) (s : State) : M State := do
  ready s a.q? none [d]
  let n := 1024 / c.bits
  let act := s.ws.active k n
  let nodes := (List.range n).map (fun i => if act i then (vlane c.bits (s.ws.srcV a) i, [i]) else (o.ident c, []))
  let r := reduceTree (o.apply c) (n.log2) nodes
  let y := if o = .sum ∧ !(List.range n).any act then 0 else r.1.1
  let s ← raiseFlags s n r.2
  .ok ((((s.takeQ a.q?).onWs (fun w => w.killVs [a.mark la])).putS (.s d) (cvtResult c y)).retire)

/-- `vredsum` (R290). -/
def execVredsum (d : SReg) (a : VQ) (c : Fmt) (la : Bool) (k : Mask) (s : State) : Host.Outcome State Fault Refusal :=
  finish (reduce .sum d a c la k s)
/-- `vredmax` (R290). -/
def execVredmax (d : SReg) (a : VQ) (c : Fmt) (la : Bool) (k : Mask) (s : State) : Host.Outcome State Fault Refusal :=
  finish (reduce .most d a c la k s)
/-- `vredmin` (R290). -/
def execVredmin (d : SReg) (a : VQ) (c : Fmt) (la : Bool) (k : Mask) (s : State) : Host.Outcome State Fault Refusal :=
  finish (reduce .least d a c la k s)

/-! ## Permutes (R291) -/

/-- `vperm` (R291). -/
def execVperm (e : Width) (d a : VQ) (b : VReg) (la lb : Bool) (k : Mask) (s : State) : Host.Outcome State Fault Refusal :=
  finish (vectorOp s e.bits k d a [] [a.mark la, (lb, b)] [] (fun w i =>
    (vlane e.bits (w.srcV a) (vlane e.bits (w.getV b) i % (1024 / e.bits)), 0)))

/-- `vbcast` (R291). -/
def execVbcast (e : Width) (d : VQ) (a : SReg) (la : Bool) (k : Mask) (s : State) : Host.Outcome State Fault Refusal :=
  finish (vectorOp s e.bits k d (.v 0) [a] [] [(la, a)] (fun w _ => ((w.getS a).toNat % 2 ^ e.bits, 0)))

/-- `vslide` (R291): the shift is signed. -/
def execVslide (e : Width) (d a : VQ) (b : SReg) (la lb : Bool) (k : Mask) (s : State) : Host.Outcome State Fault Refusal :=
  finish (vectorOp s e.bits k d a [b] [a.mark la] [(lb, b)] (fun w i =>
    let j := Int.ofNat i + (w.getS b).toInt
    (if 0 ≤ j ∧ j < Int.ofNat (1024 / e.bits) then vlane e.bits (w.srcV a) j.toNat else 0, 0)))

/-- `vext` (R291). -/
def execVext (e : Width) (d : SReg) (a : VQ) (b : SReg) (la lb : Bool) (s : State) : Host.Outcome State Fault Refusal :=
  finish (do
    ready s a.q? none [d, b]
    let y := vlane e.bits (s.ws.srcV a) ((s.ws.getS b).toNat % (1024 / e.bits))
    let s := (s.takeQ a.q?).onWs (fun w => ((w.killVs [a.mark la]).killSs [(lb, b)]).setS d (BitVec.ofNat 64 y))
    .ok s.retire)

/-- `vins` (R291). -/
def execVins (e : Width) (d : VQ) (a b : SReg) (la lb : Bool) (s : State) : Host.Outcome State Fault Refusal := finish (do
  ready s none d.q? [a, b]
  let n := 1024 / e.bits
  let j := (s.ws.getS b).toNat % n
  let (old, s') := s.oldV d
  let x := (s.ws.getS a).toNat % 2 ^ e.bits
  let out := putLanes (splitLanes e.bits n old.toNat) (fun i => if i = j then some x else none) 0
  .ok (s'.doneVQ d (.v 0) [] [(la, a), (lb, b)] (BitVec.ofNat 1024 (joinLanes e.bits out))))

/-! ## Vector memory (R292 to R294) -/

/-- The active lanes of an `n`-lane form, increasing. -/
def Ws.lanes (w : Ws) (k : Mask) (n : Nat) : List Nat := (List.range n).filter (w.active k n)

/-- The address of lane i of a contiguous form (R292). -/
def contigAddr (base : Word) (nb i : Nat) : Word := base + BitVec.ofNat 64 (i * nb)

/-- A place in memory that a lane has been checked for: a global span or a local offset. -/
inductive LanePlace where
  | glob (sp : Span)
  | loc (o : Nat)
deriving DecidableEq, Repr

/-- The checks of one lane's access (R262 to R265, R294). -/
def laneGate (s : State) (lcl : Bool) (need : Need) (a : Word) (nb lane : Nat) : M (LanePlace × State) :=
  if lcl then do
    let (o, s) ← localEnter s a nb need.wr lane
    .ok (.loc o, s)
  else do
    let (sp, s) ← globalGate s need a nb lane
    .ok (.glob sp, s.payLines sp need.wr false)

def State.getLane (s : State) (p : LanePlace) (nb : Nat) : Nat × State :=
  match p with
  | .glob sp => s.getSpan sp
  | .loc o => (s.getLocal o nb, s.padConsumed o nb)

def State.putLane (s : State) (p : LanePlace) (bs : List Byte) : State :=
  match p with
  | .glob sp => s.putSpan sp bs
  | .loc o => s.putLocal o bs

/-- The local offsets of a contiguous form's lanes, each in range (R294). -/
def contigOffsets (s : State) (base : Word) (nb : Nat) (lanes : List Nat) : M (List (Nat × Nat)) :=
  match lanes with
  | [] => .ok []
  | i :: t => do
    let o ← localOfs s (contigAddr base nb i) nb
    let os ← contigOffsets s base nb t
    .ok ((i, o) :: os)

/-- The watchpoints of every local lane (R392). -/
def contigWatch (s : State) (wr : Bool) (nb : Nat) (os : List (Nat × Nat)) : M Unit :=
  match os with
  | [] => .ok ()
  | x :: t => do
    watch s true x.2 nb (!wr) wr x.1
    contigWatch s wr nb t

/-- Hold tests of every lane. -/
def contigHolds (s : State) (wr : Bool) (nb : Nat) (os : List (Nat × Nat)) : M Unit :=
  match os with
  | [] => .ok ()
  | x :: t => do
    holdGate s x.2 nb wr
    contigHolds s wr nb t

/-- The global lanes of a contiguous form, checked in order. -/
def contigSpans (s : State) (need : Need) (base : Word) (nb : Nat) (lanes : List Nat) : M (List (Nat × LanePlace) × State) :=
  match lanes with
  | [] => .ok ([], s)
  | i :: t => do
    let (sp, s) ← globalGate s need (contigAddr base nb i) nb i
    let (ps, s) ← contigSpans s need base nb t
    .ok ((i, .glob sp) :: ps, s)

/-- The global places of lanes, as one access. -/
def LanePlace.span (p : LanePlace) : Span :=
  match p with
  | .glob sp => sp
  | .loc _ => []

/-- Every lane of a contiguous form is checked before any access (R293, R294); a local form is one access to the margin
check (R59), and its holds come before its watchpoints (R209). -/
def contigGate (s : State) (lcl : Bool) (need : Need) (base : Word) (nb : Nat) (lanes : List Nat) :
    M (List (Nat × LanePlace) × State) :=
  if lcl then do
    accessReady s
    let os ← contigOffsets s base nb lanes
    let t := s.noteMargin (os.findSome? (fun x => s.core.firstMargin x.2 nb)) need.wr
    contigHolds t need.wr nb os
    contigWatch s need.wr nb os
    .ok (os.map (fun x => (x.1, .loc x.2)), t.onSx (fun x => { x with touched := false }))
  else do
    let (ps, s) ← contigSpans s need base nb lanes
    .ok (ps, s.payLines (ps.flatMap (fun x => x.2.span)) need.wr false)

/-- The lanes of a checked contiguous load. -/
def State.getLanes (s : State) (nb : Nat) (ps : List (Nat × LanePlace)) : List (Nat × Nat) × State :=
  match ps with
  | [] => ([], s)
  | (i, p) :: t =>
    let (x, s) := s.getLane p nb
    let (xs, s) := s.getLanes nb t
    ((i, x) :: xs, s)

/-- A contiguous load's lanes of `nb` bytes (R293). -/
def contigLoad (s : State) (lcl : Bool) (base : Word) (nb : Nat) (lanes : List Nat) : M (List (Nat × Nat) × State) := do
  let (ps, s) ← contigGate s lcl .load base nb lanes
  .ok (s.getLanes nb ps)

/-- A contiguous store of the lanes of a value (R293). -/
def contigStore (s : State) (lcl : Bool) (base : Word) (nb : Nat) (lanes : List Nat) (x : Nat → Nat) : M State := do
  let (ps, s) ← contigGate s lcl .store base nb lanes
  .ok (ps.foldl (fun s p => s.putLane p.2 (toBytes nb (x p.1))) s)

/-- The lanes below LANE of a valid progress word are done (R218). -/
def Ws.lanesDone (w : Ws) : Nat := if w.prog.getLsbD 8 then fld w.prog 7 0 else 0

/-- The lanes of a listed form in increasing order; the progress word names the lane at which a trap or a wait would
stop it (R218, R293). -/
def listedLanes (s : State) (step : State → Nat → M State) (lanes : List Nat) : M State :=
  match lanes with
  | [] => .ok s
  | i :: t => do
    let s ← step (s.onWs (fun w => { w with prog := BitVec.ofNat 64 (i + 256) })) i
    listedLanes s step t

/-- Lane `i` of a register replaced. -/
def putLane1 (w : Nat) (x : VWord) (i y : Nat) : VWord :=
  BitVec.ofNat 1024 (joinLanes w (putLanes (splitLanes w (1024 / w) x.toNat) (fun j => if j = i then some y else none) 0))

/-- A contiguous vector load (R292, R293, R294). -/
def vloadOp (lcl : Bool) (e : Width) (d : VReg) (a : SReg) (la : Bool) (k : Mask) (s : State) : M State := do
  tokensReady s [a]
  let n := 1024 / e.bits
  let (xs, s) ← contigLoad s lcl (s.ws.getS a) (e.bits / 8) (s.ws.lanes k n)
  let out := putLanes (splitLanes e.bits n (s.ws.getV d).toNat) (lookupLane xs) 0
  .ok ((s.doneVQ (.v d) (.v 0) [] [(la, a)] (BitVec.ofNat 1024 (joinLanes e.bits out))).lostV d)

/-- A contiguous vector store (R292, R293, R294). -/
def vstoreOp (lcl : Bool) (e : Width) (d : VReg) (a : SReg) (la : Bool) (k : Mask) (s : State) : M State := do
  tokensReady s [a]
  let x := s.ws.getV d
  let s ← contigStore s lcl (s.ws.getS a) (e.bits / 8) (s.ws.lanes k (1024 / e.bits)) (vlane e.bits x)
  .ok (s.done [(la, a)])

/-- A listed load: each lane from its own address, by the registers that the instruction found (R278, R293); a lane that consumes an
uncorrected word leaves the destination dead (R208). -/
def vlistLoad (lcl : Bool) (e : Width) (d : VReg) (addr : Ws → Nat → Word) (vs : List (Bool × VReg)) (ss : List (Bool × SReg))
    (k : Mask) (s : State) : M State := do
  let todo := (s.ws.lanes k (1024 / e.bits)).filter (fun i => decide (s.ws.lanesDone ≤ i))
  let w0 := s.ws
  let s ← listedLanes s (fun s i => do
    let (p, s) ← laneGate s lcl .load (addr w0 i) (e.bits / 8) i
    let (x, s) := s.getLane p (e.bits / 8)
    .ok ((s.onWs (fun w => w.setV d (putLane1 e.bits (w.getV d) i x))).lostV d)) todo
  let y := s.ws.getV d
  .ok (((s.onWs (fun w => ((w.killVs vs).killSs ss).setV d y)).retire).lostV d)

/-- A listed store (R293). -/
def vlistStore (lcl : Bool) (e : Width) (d : VReg) (addr : Ws → Nat → Word) (vs : List (Bool × VReg)) (ss : List (Bool × SReg))
    (k : Mask) (s : State) : M State := do
  let todo := (s.ws.lanes k (1024 / e.bits)).filter (fun i => decide (s.ws.lanesDone ≤ i))
  let s ← listedLanes s (fun s i => do
    let (p, s) ← laneGate s lcl .store (addr s.ws i) (e.bits / 8) i
    .ok (s.putLane p (toBytes (e.bits / 8) (vlane e.bits (s.ws.getV d) i)))) todo
  .ok ((s.onWs (fun w => (w.killVs vs).killSs ss)).retire)

/-- The address of lane i of a strided form (R292). -/
def strideAddr (a b : SReg) (w : Ws) (i : Nat) : Word := w.getS a + BitVec.ofNat 64 i * w.getS b
/-- The address of lane i of an indexed form (R292). -/
def indexAddr (e : Width) (a : SReg) (b : VReg) (c : Fin 4) (w : Ws) (i : Nat) : Word :=
  w.getS a + BitVec.ofInt 64 (signExt e.bits (vlane e.bits (w.getV b) i) * Int.ofNat (2 ^ c.val))

/-- `vld` (R293). -/
def execVld (e : Width) (d : VReg) (a : SReg) (la : Bool) (k : Mask) (s : State) : Host.Outcome State Fault Refusal :=
  finish (vloadOp false e d a la k s)
/-- `vst` (R293). -/
def execVst (e : Width) (d : VReg) (a : SReg) (la : Bool) (k : Mask) (s : State) : Host.Outcome State Fault Refusal :=
  finish (vstoreOp false e d a la k s)
/-- `vldl` (R294). -/
def execVldl (e : Width) (d : VReg) (a : SReg) (la : Bool) (k : Mask) (s : State) : Host.Outcome State Fault Refusal :=
  finish (vloadOp true e d a la k s)
/-- `vstl` (R294). -/
def execVstl (e : Width) (d : VReg) (a : SReg) (la : Bool) (k : Mask) (s : State) : Host.Outcome State Fault Refusal :=
  finish (vstoreOp true e d a la k s)
/-- `vlds` (R292, R293). -/
def execVlds (e : Width) (d : VReg) (a b : SReg) (la lb : Bool) (k : Mask) (s : State) :
    Host.Outcome State Fault Refusal := finish (do
  tokensReady s [a, b]
  vlistLoad false e d (strideAddr a b) [] [(la, a), (lb, b)] k s)
/-- `vsts` (R292, R293). -/
def execVsts (e : Width) (d : VReg) (a b : SReg) (la lb : Bool) (k : Mask) (s : State) :
    Host.Outcome State Fault Refusal := finish (do
  tokensReady s [a, b]
  vlistStore false e d (strideAddr a b) [] [(la, a), (lb, b)] k s)
/-- `vgather` (R292, R293). -/
def execVgather (e : Width) (d : VReg) (a : SReg) (b : VReg) (c : Fin 4) (la lb : Bool) (k : Mask) (s : State) :
    Host.Outcome State Fault Refusal := finish (do
  tokensReady s [a]
  vlistLoad false e d (indexAddr e a b c) [(lb, b)] [(la, a)] k s)
/-- `vscatter` (R292, R293). -/
def execVscatter (e : Width) (d : VReg) (a : SReg) (b : VReg) (c : Fin 4) (la lb : Bool) (k : Mask) (s : State) :
    Host.Outcome State Fault Refusal := finish (do
  tokensReady s [a]
  vlistStore false e d (indexAddr e a b c) [(lb, b)] [(la, a)] k s)
/-- `vgatherl` (R292, R293, R294). -/
def execVgatherl (e : Width) (d : VReg) (a : SReg) (b : VReg) (c : Fin 4) (la lb : Bool) (k : Mask) (s : State) :
    Host.Outcome State Fault Refusal := finish (do
  tokensReady s [a]
  vlistLoad true e d (indexAddr e a b c) [(lb, b)] [(la, a)] k s)
/-- `vscatterl` (R292, R293, R294). -/
def execVscatterl (e : Width) (d : VReg) (a : SReg) (b : VReg) (c : Fin 4) (la lb : Bool) (k : Mask) (s : State) :
    Host.Outcome State Fault Refusal := finish (do
  tokensReady s [a]
  vlistStore true e d (indexAddr e a b c) [(lb, b)] [(la, a)] k s)

/-! ## Vector control and generators (R295 to R298) -/

/-- `vsetvl` (R295). -/
def execVsetvl (e : Width) (d a : SReg) (la : Bool) (s : State) : Host.Outcome State Fault Refusal := finish (do
  tokensReady s [a, d]
  let n := min (s.ws.getS a).toNat (1024 / e.bits)
  let s := s.onWs (fun w => { w with vl := BitVec.ofNat 8 n })
  .ok (s.doneS d [(la, a)] (BitVec.ofNat 64 n)))

/-- `vmovs` (R295). -/
def execVmovs (e : Width) (d a : VQ) (la : Bool) (k : Mask) (s : State) : Host.Outcome State Fault Refusal :=
  finish (vectorOp s e.bits k d a [] [a.mark la] [] (fun w i => (vlane e.bits (w.srcV a) i, 0)))

/-- `vzero` (R295). -/
def execVzero (d : VReg) (s : State) : Host.Outcome State Fault Refusal := .next ((s.onWs (fun w => w.setV d 0)).retire)

/-- `vrand` fills its active lanes, one draw of grng each in increasing order (R297, R298). -/
def vrandOp (w : Nat) (d : VReg) (k : Mask) (g : Word → Nat) (s : State) : State :=
  let n := 1024 / w
  let lanes := s.ws.lanes k n
  let draws := grngDraws s.core.grng lanes.length
  let out := putLanes (splitLanes w n (s.ws.getV d).toNat) (lookupLane (lanes.zip (draws.map g))) 0
  ((s.afterG draws).onWs (fun x => x.setV d (BitVec.ofNat 1024 (joinLanes w out)))).retire

/-- `vrand.unif` (R298). -/
def execVrandUnif (e : Width) (d : VReg) (k : Mask) (s : State) : Host.Outcome State Fault Refusal :=
  .next (vrandOp e.bits d k (fun x => x.toNat % 2 ^ e.bits) s)
/-- `vrand.gauss` (R298). -/
def execVrandGauss (d : VReg) (k : Mask) (s : State) : Host.Outcome State Fault Refusal := .next (vrandOp 32 d k gaussOf s)

end Sys2Proof.Machine
end

