-- ==== Sys2Proof/Machine/Moment.lean ====
section
/-! DEFINITION. Moment instructions, majors 0x24 to 0x27 (spec/11 R299 to R316; spec/05 R153). -/
namespace Sys2Proof.Machine

/-! ## The moment control register (R300) -/

def Ws.ca (w : Ws) : Nat := w.mcr.toNat % 4
def Ws.nvc (w : Ws) : Bool := w.mcr.getLsbD 2
/-- NV is set (R301). -/
def Ws.setNv (w : Ws) : Ws := { w with mcr := w.mcr ||| 8 }

/-! ## Moment lanes (R153, R277, R301) -/

/-- A mean and a variance as FP32 codes. -/
abbrev MLane := Nat × Nat

/-- The code of −0. -/
def negZero : Nat := 0x80000000

/-- A variance that is negative or NaN; −0 is neither (R301). -/
def varCond (v : Nat) : Bool :=
  match lay32.decode v with
  | .fin neg m _ => neg && m != 0
  | .inf neg => neg
  | _ => true

/-- Lane `i` of a moment register as it stands. -/
def Ws.rawLane (w : Ws) (r : MReg) (i : Nat) : MLane := (laneOf 32 (w.getM r) (2 * i), laneOf 32 (w.getM r) (2 * i + 1))

/-- Lane `i` of an operand: a variance of −0, and one that a clamp replaces, read as +0 (R153, R301). -/
def Ws.mlane (w : Ws) (r : MReg) (i : Nat) : MLane :=
  let x := w.rawLane r i
  (x.1, if varCond x.2 || x.2 == negZero then 0 else x.2)

def joinM (l : List MLane) : MWord := BitVec.ofNat 2048 (joinLanes 64 (l.map (fun x => x.1 + x.2 * 2 ^ 32)))

/-- A register with the listed lanes replaced. -/
def Ws.withLanes (w : Ws) (r : MReg) (l : List (Nat × MLane)) : MWord :=
  joinM ((List.range 32).map (fun i =>
    match l.find? (fun x => x.1 == i) with
    | some x => x.2
    | none => w.rawLane r i))

def Ws.killMs (w : Ws) (ks : List (Bool × MReg)) : Ws := ks.foldl (fun w k => if k.1 then w.killM k.2 else w) w

/-- The bits of a list of lanes. -/
def lanesMask (l : List Nat) : Nat := (l.foldl (fun (m : BitVec 32) i => m ||| BitVec.twoPow 32 i) 0).toNat

/-- MOMENT_NEG (R301, R302). -/
def momentTrap {α : Type} (s : State) (lanes : List Nat) (place : Nat) : M α :=
  trapNow s 0x0B 0 0 (BitVec.ofNat 64 (lanesMask lanes + place * 4294967296))

/-- The operand check (R301): the first operand that holds a condition traps, or NV is set. -/
def momentGate (s : State) (k : Mask) (ops : List MReg) : M State :=
  let bad := fun (r : MReg) => (s.ws.lanes k 32).filter (fun i => varCond (s.ws.rawLane r i).2)
  match (ops.zip (List.range 3)).find? (fun r => !(bad r.1).isEmpty) with
  | none => .ok s
  | some r => if s.ws.nvc then .ok (s.onWs Ws.setNv) else momentTrap s (bad r.1) (r.2 + 1)

/-! ## Rounded steps (R299) -/

/-- What a lane's computation raises: its flags, and whether a result held a condition. -/
structure MAcc where
  fl : Flags
  neg : Bool
deriving DecidableEq, Repr

abbrev MM (α : Type) := StateM MAcc α

/-- One step with its flags. -/
def mstep (r : Nat × Flags) : MM Nat := fun a => (r.1, { a with fl := a.fl ||| r.2 })
def mAdd (x y : Nat) : MM Nat := mstep (lay32.add .rne x y)
def mSub (x y : Nat) : MM Nat := mstep (lay32.sub .rne x y)
def mMul (x y : Nat) : MM Nat := mstep (lay32.mul .rne x y)
def mDiv (x y : Nat) : MM Nat := mstep (lay32.div .rne x y)
def mSqrt (x : Nat) : MM Nat := mstep (lay32.sqrt .rne x)
def mFn (f : TFn) (x : Nat) : MM Nat := mstep (f.eval x)

/-- The result check (R301): a condition reads as +0 and is noted; −0 becomes +0. -/
def mRes (v : Nat) : MM Nat := fun a =>
  if varCond v then (0, { a with neg := true }) else (if v = negZero then 0 else v, a)

/-- A member passed on as a result: a NaN becomes the canonical one, a signalling one sets IV (R140, R280). -/
def mPass (x : Nat) : MM Nat := if (lay32.decode x).isNan then mstep (lay32.nanOf [lay32.decode x]) else pure x

def f32Two : Nat := 0x40000000
def f32Half : Nat := 0x3F000000
def f32Four : Nat := 0x40800000
/-- π / 8 (R310). -/
def f32L2 : Nat := 0x3EC90FDB

/-- The sum or difference of two rounded values: x + y when `plus`. -/
def mAddSub (plus : Bool) (x y : Nat) : MM Nat := if plus then mAdd x y else mSub x y

/-! ## Arithmetic (R304 to R306) -/

/-- The variance of `madd` (`plus`) and `msub` under an assumption (R304). -/
def addVar (ca : Nat) (plus : Bool) (va vb : Nat) : MM Nat := do
  match ca with
  | 0 => mAdd va vb
  | 3 =>
    let t ← mAdd (← mSqrt va) (← mSqrt vb)
    mMul t t
  | _ =>
    let s ← mAdd va vb
    let x ← mMul (← mSqrt va) (← mSqrt vb)
    let y ← mMul f32Two x
    mAddSub (plus == (ca == 1)) s y

/-- `madd` and `msub` of one lane (R304). -/
def laneAdd (ca : Nat) (plus : Bool) (a b : MLane) : MM MLane := do
  let m ← mAddSub plus a.1 b.1
  let v ← addVar ca plus a.2 b.2
  pure (m, v)

/-- `mmul` of one lane (R305). -/
def laneMul (ca : Nat) (a b : MLane) : MM MLane := do
  let p ← mMul a.1 b.1
  let t1 ← mMul (← mMul a.1 a.1) b.2
  let t2 ← mMul (← mMul b.1 b.1) a.2
  let t3 ← mMul a.2 b.2
  let e ← mAdd t1 t2
  if ca = 0 then pure (p, ← mAdd e t3)
  else
    let c ← mMul (← mSqrt a.2) (← mSqrt b.2)
    let t4 ← mMul f32Two (← mMul p c)
    let t5 ← mMul f32Two t3
    let var := fun (pos : Bool) => do mAdd (← mAddSub pos e t4) t5
    if ca = 3 then
      let vp ← mRes (← var true)
      let vn ← mRes (← var false)
      pure (p, (lay32.minMax true vp vn).1)
    else pure (← mAddSub (ca == 1) p c, ← var (ca == 1))

/-- `mfma` of one lane (R305). -/
def laneFma (ca : Nat) (a b c : MLane) : MM MLane := do
  let p ← laneMul ca a b
  laneAdd ca true (p.1, ← mRes p.2) c

/-! ## Nonlinear operations (R308 to R311) -/

/-- `mrelu` of one lane (R308). With v = +0 a quiet NaN mean sets no flag: its test of μ is no ordered comparison (log entry 126). -/
def laneRelu (a : MLane) : MM MLane := do
  let (m, v) := a
  if v = 0 then
    match lay32.decode m with
    | .fin neg k _ => pure (if !neg && k != 0 then m else 0, 0)
    | .inf neg => pure (if neg then 0 else m, 0)
    | x => pure (← mstep (lay32.nanOf [x]), 0)
  else
    let sd ← mSqrt v
    let z ← mDiv m sd
    let pz ← mFn .phi z
    let dz ← mFn .pdf z
    let mean ← mAdd (← mMul m pz) (← mMul sd dz)
    let x ← mMul (← mAdd (← mMul m m) v) pz
    let y ← mMul (← mMul m sd) dz
    let m2 ← mAdd x y
    pure (mean, ← mSub m2 (← mMul mean mean))

/-- `mexp` of one lane (R309). -/
def laneExp (a : MLane) : MM MLane := do
  let mean ← mFn .exp (← mAdd a.1 (← mMul f32Half a.2))
  let x ← mSub (← mFn .exp a.2) f32One
  pure (mean, ← mMul x (← mMul mean mean))

/-- `msigm` of one lane (R310). -/
def laneSigm (a : MLane) : MM MLane := do
  let t ← mAdd f32One (← mMul f32L2 a.2)
  let g ← mSqrt (← mDiv f32L2 t)
  let mean ← mFn .phi (← mMul a.1 g)
  let w ← mSub f32One (← mFn .rcp (← mSqrt t))
  pure (mean, ← mMul (← mMul mean (← mSub f32One mean)) w)

/-- `mtanh` of one lane (R310). -/
def laneTanh (a : MLane) : MM MLane := do
  let r ← laneSigm (← mMul f32Two a.1, ← mMul f32Four a.2)
  pure (← mSub (← mMul f32Two r.1) f32One, ← mMul f32Four r.2)

/-- `mmax` of one lane (R311). -/
def laneMax (ca : Nat) (a b : MLane) : MM MLane := do
  let th2 ← mRes (← addVar ca false a.2 b.2)
  if th2 = 0 then
    let r := lay32.compare 5 a.1 b.1
    let ge ← mstep (bit01 r.1, r.2)
    let r := if ge = 1 then a else b
    pure (← mPass r.1, r.2)
  else
    let th ← mSqrt th2
    let al ← mDiv (← mSub a.1 b.1) th
    let pa ← mFn .phi al
    let pb ← mFn .phi (al ^^^ negZero)
    let d ← mFn .pdf al
    let mean ← mAdd (← mAdd (← mMul a.1 pa) (← mMul b.1 pb)) (← mMul th d)
    let ka ← mMul (← mAdd (← mMul a.1 a.1) a.2) pa
    let kb ← mMul (← mAdd (← mMul b.1 b.1) b.2) pb
    let kc ← mMul (← mMul (← mAdd a.1 b.1) th) d
    pure (mean, ← mSub (← mAdd (← mAdd ka kb) kc) (← mMul mean mean))

/-! ## The common course (R278, R280, R301) -/

/-- Flags set and conditions settled (R301): MOMENT_NEG comes before FP. -/
def momentSettle (s : State) (l : List (Nat × MAcc)) : M State :=
  let raised : Raised := l.filterMap (fun x => if x.2.fl = 0 then none else some (x.1, x.2.fl))
  let bad := (l.filter (fun x => x.2.neg)).map (·.1)
  if bad.isEmpty then raiseFlags s 32 raised
  else if s.ws.nvc then raiseFlags (s.onWs Ws.setNv) 32 raised
  else momentTrap (s.onWs (fun w => w.setFlags raised.all)) bad 0

/-- Each active lane computed, its result variance checked. -/
def momentLanes (lanes : List Nat) (f : Nat → MM MLane) : List (Nat × MLane × MAcc) :=
  lanes.map (fun i =>
    let r := (do
      let x ← f i
      pure (x.1, ← mRes x.2) : MM MLane) { fl := 0, neg := false }
    (i, r.1, r.2))

/-- A moment form into an `m` register (R299, R301). -/
def momentOp (s : State) (d : MReg) (k : Mask) (ops : List MReg) (rs : List SReg) (ms : List (Bool × MReg))
    (ss : List (Bool × SReg)) (f : Ws → Nat → MM MLane) : M State := do
  tokensReady s rs
  let s ← momentGate s k ops
  let l := momentLanes (s.ws.lanes k 32) (f s.ws)
  let s ← momentSettle s (l.map (fun x => (x.1, x.2.2)))
  let y := s.ws.withLanes d (l.map (fun x => (x.1, x.2.1)))
  .ok ((s.onWs (fun w => ((w.killMs ms).killSs ss).setM d y)).retire)

/-- `madd` (R304). -/
def execMadd (d a b : MReg) (la lb : Bool) (k : Mask) (s : State) : Host.Outcome State Fault Refusal :=
  finish (momentOp s d k [a, b] [] [(la, a), (lb, b)] [] (fun w i => laneAdd w.ca true (w.mlane a i) (w.mlane b i)))
/-- `msub` (R304). -/
def execMsub (d a b : MReg) (la lb : Bool) (k : Mask) (s : State) : Host.Outcome State Fault Refusal :=
  finish (momentOp s d k [a, b] [] [(la, a), (lb, b)] [] (fun w i => laneAdd w.ca false (w.mlane a i) (w.mlane b i)))
/-- `mmul` (R305). -/
def execMmul (d a b : MReg) (la lb : Bool) (k : Mask) (s : State) : Host.Outcome State Fault Refusal :=
  finish (momentOp s d k [a, b] [] [(la, a), (lb, b)] [] (fun w i => laneMul w.ca (w.mlane a i) (w.mlane b i)))
/-- `mfma` (R305). -/
def execMfma (d a b c : MReg) (la lb lc : Bool) (k : Mask) (s : State) : Host.Outcome State Fault Refusal :=
  finish (momentOp s d k [a, b, c] [] [(la, a), (lb, b), (lc, c)] []
    (fun w i => laneFma w.ca (w.mlane a i) (w.mlane b i) (w.mlane c i)))
/-- `mscale` (R306). -/
def execMscale (d a : MReg) (b : SReg) (la lb : Bool) (k : Mask) (s : State) : Host.Outcome State Fault Refusal :=
  finish (momentOp s d k [a] [b] [(la, a)] [(lb, b)] (fun w i => do
    let c := fld (w.getS b) 31 0
    let x := w.mlane a i
    let m ← mMul c x.1
    pure (m, ← mMul (← mMul c c) x.2)))
/-- `mshift` (R306). -/
def execMshift (d a : MReg) (b : SReg) (la lb : Bool) (k : Mask) (s : State) : Host.Outcome State Fault Refusal :=
  finish (momentOp s d k [a] [b] [(la, a)] [(lb, b)] (fun w i => do
    let x := w.mlane a i
    pure (← mAdd x.1 (fld (w.getS b) 31 0), x.2)))
/-- `mrelu` (R308). -/
def execMrelu (d a : MReg) (la : Bool) (k : Mask) (s : State) : Host.Outcome State Fault Refusal :=
  finish (momentOp s d k [a] [] [(la, a)] [] (fun w i => laneRelu (w.mlane a i)))
/-- `mexp` (R309). -/
def execMexp (d a : MReg) (la : Bool) (k : Mask) (s : State) : Host.Outcome State Fault Refusal :=
  finish (momentOp s d k [a] [] [(la, a)] [] (fun w i => laneExp (w.mlane a i)))
/-- `msigm` (R310). -/
def execMsigm (d a : MReg) (la : Bool) (k : Mask) (s : State) : Host.Outcome State Fault Refusal :=
  finish (momentOp s d k [a] [] [(la, a)] [] (fun w i => laneSigm (w.mlane a i)))
/-- `mtanh` (R310). -/
def execMtanh (d a : MReg) (la : Bool) (k : Mask) (s : State) : Host.Outcome State Fault Refusal :=
  finish (momentOp s d k [a] [] [(la, a)] [] (fun w i => laneTanh (w.mlane a i)))
/-- `mmax` (R311). -/
def execMmax (d a b : MReg) (la lb : Bool) (k : Mask) (s : State) : Host.Outcome State Fault Refusal :=
  finish (momentOp s d k [a, b] [] [(la, a), (lb, b)] [] (fun w i => laneMax w.ca (w.mlane a i) (w.mlane b i)))

/-! ## Memory and packing (R312) -/

/-- `mld` and `mldl`: contiguous lanes of 8 bytes. -/
def mloadOp (lcl : Bool) (d : MReg) (a : SReg) (la : Bool) (k : Mask) (s : State) : M State := do
  tokensReady s [a]
  let (xs, s) ← contigLoad s lcl (s.ws.getS a) 8 (s.ws.lanes k 32)
  let y := s.ws.withLanes d (xs.map (fun x => (x.1, x.2 % 2 ^ 32, x.2 / 2 ^ 32)))
  .ok (((s.onWs (fun w => (w.killSs [(la, a)]).setM d y)).retire).lostM d)

def mstoreOp (lcl : Bool) (d : MReg) (a : SReg) (la : Bool) (k : Mask) (s : State) : M State := do
  tokensReady s [a]
  let x := s.ws.getM d
  let s ← contigStore s lcl (s.ws.getS a) 8 (s.ws.lanes k 32) (laneOf 64 x)
  .ok (s.done [(la, a)])

/-- `mld` (R312). -/
def execMld (d : MReg) (a : SReg) (la : Bool) (k : Mask) (s : State) : Host.Outcome State Fault Refusal :=
  finish (mloadOp false d a la k s)
/-- `mst` (R312). -/
def execMst (d : MReg) (a : SReg) (la : Bool) (k : Mask) (s : State) : Host.Outcome State Fault Refusal :=
  finish (mstoreOp false d a la k s)
/-- `mldl` (R312). -/
def execMldl (d : MReg) (a : SReg) (la : Bool) (k : Mask) (s : State) : Host.Outcome State Fault Refusal :=
  finish (mloadOp true d a la k s)
/-- `mstl` (R312). -/
def execMstl (d : MReg) (a : SReg) (la : Bool) (k : Mask) (s : State) : Host.Outcome State Fault Refusal :=
  finish (mstoreOp true d a la k s)

/-- The BF16 halves of the listed lanes, two draws each (R312). -/
def packLanes (m : RM) (sat : Bool) (x : Nat → MLane) (lanes : List Nat) (draws : List (BitVec 32)) :
    List (Nat × Nat × Flags) :=
  match lanes with
  | [] => []
  | i :: t =>
    let p := convertElem .f32 .bf16 m sat (draws.headD 0).toNat (x i).1
    let q := convertElem .f32 .bf16 m sat (draws.tail.headD 0).toNat (x i).2
    (i, p.1 + q.1 * 65536, p.2 ||| q.2) :: packLanes m sat x t draws.tail.tail

/-- `mpack` (R312). -/
def execMpack (rm : RM) (d : VReg) (a : MReg) (la : Bool) (k : Mask) (s : State) : Host.Outcome State Fault Refusal := finish (do
  let s ← momentGate s k [a]
  let lanes := s.ws.lanes k 32
  let m := s.ws.cvtMode rm .f32 .bf16
  let draws := if m = .sto then srngDraws s.core.srng (2 * lanes.length) else []
  let l := packLanes m s.ws.satf (s.ws.mlane a) lanes draws
  let s ← raiseFlags s 32 (raisedOf l)
  let y := putLanes (splitLanes 32 32 (s.ws.getV d).toNat) (lookupLane (l.map (fun x => (x.1, x.2.1)))) 0
  .ok (((s.afterS draws).onWs (fun w => (w.killMs [(la, a)]).setV d (BitVec.ofNat 1024 (joinLanes 32 y)))).retire))

/-- A BF16 half widened exactly; a NaN becomes canonical (R312). -/
def widenHalf (h : Nat) : Nat := if (layB16.decode h).isNan then lay32.canon else h % 65536 * 65536

/-- `munpack` (R312). -/
def execMunpack (d : MReg) (a : VReg) (la : Bool) (k : Mask) (s : State) : Host.Outcome State Fault Refusal :=
  let x := s.ws.getV a
  let y := s.ws.withLanes d ((s.ws.lanes k 32).map (fun i => (i, widenHalf (laneOf 16 x (2 * i)), widenHalf (laneOf 16 x (2 * i + 1)))))
  .next ((s.onWs (fun w => (w.killVs [(la, a)]).setM d y)).retire)

/-! ## Collapse and control (R313 to R316) -/

/-- One level of the tree of `mredsum`: node i joins node i + w by a checked `madd` (R314). -/
def mredLevel (ca : Nat) (xs ys : List MLane) : MM (List MLane) :=
  match xs, ys with
  | x :: xs, y :: ys => do
    let r ← laneAdd ca true x y
    let v ← mRes r.2
    let t ← mredLevel ca xs ys
    pure ((r.1, v) :: t)
  | _, _ => pure []

def mredTree (ca : Nat) (k : Nat) (t : List MLane) : MM MLane :=
  match k with
  | 0 => pure (t.headD (0, 0))
  | k + 1 => do
    let l ← mredLevel ca (t.take (2 ^ k)) (t.drop (2 ^ k))
    mredTree ca k l

/-- `mredsum` (R314): flags and conditions are reported at lane 0. -/
def execMredsum (d a : MReg) (la : Bool) (k : Mask) (s : State) : Host.Outcome State Fault Refusal := finish (do
  let s ← momentGate s k [a]
  let act := s.ws.active k 32
  let r := mredTree s.ws.ca 5 ((List.range 32).map (fun i => if act i then s.ws.mlane a i else (negZero, 0))) { fl := 0, neg := false }
  let s ← momentSettle s [(0, r.2)]
  let y := s.ws.withLanes d [(0, if (List.range 32).any act then r.1 else (0, 0))]
  .ok ((s.onWs (fun w => (w.killMs [(la, a)]).setM d y)).retire))

/-- The value of one lane of `mcollapse` (R315): `c` the mode, `k` the factor, `g` the Gaussian value. -/
def laneCollapse (c : Nat) (k g : Nat) (x : MLane) : MM Nat := do
  match c with
  | 0 => mPass x.1
  | 1 => pure x.2
  | 2 => mSqrt x.2
  | 3 => mAdd x.1 (← mMul k (← mSqrt x.2))
  | _ => mAdd x.1 (← mMul (← mSqrt x.2) g)

def collapseLanes (c k : Nat) (x : Nat → MLane) (lanes : List Nat) (draws : List Word) : List (Nat × Nat × Flags) :=
  match lanes with
  | [] => []
  | i :: t =>
    let r := laneCollapse c k (gaussOf (draws.headD 0)) (x i) { fl := 0, neg := false }
    (i, r.1, r.2.fl) :: collapseLanes c k x t draws.tail

/-- `mcollapse` (R315). -/
def execMcollapse (d : VReg) (a : MReg) (b : SReg) (c : Fin 5) (la lb : Bool) (k : Mask) (s : State) :
    Host.Outcome State Fault Refusal := finish (do
  tokensReady s [b]
  let s ← momentGate s k [a]
  let lanes := s.ws.lanes k 32
  let draws := if c = 4 then grngDraws s.core.grng lanes.length else []
  let l := collapseLanes c.val (fld (s.ws.getS b) 31 0) (s.ws.mlane a) lanes draws
  let s ← raiseFlags s 32 (raisedOf l)
  let y := putLanes (splitLanes 32 32 (s.ws.getV d).toNat) (lookupLane (l.map (fun x => (x.1, x.2.1)))) 0
  .ok (((s.afterG draws).onWs (fun w =>
    ((w.killMs [(la, a)]).killSs [(lb, b)]).setV d (BitVec.ofNat 1024 (joinLanes 32 y)))).retire))

/-- `mcheck` (R316). -/
def execMcheck (d : SReg) (a : MReg) (la : Bool) (k : Mask) (s : State) : Host.Outcome State Fault Refusal := finish (do
  tokensReady s [d]
  let bad := (s.ws.lanes k 32).filter (fun i => varCond (s.ws.rawLane a i).2)
  .ok ((s.onWs (fun w => (w.killMs [(la, a)]).setS d (BitVec.ofNat 64 (lanesMask bad)))).retire))

/-- `mmode` (R316). -/
def execMmode (d a : SReg) (la : Bool) (_k : Mask) (s : State) : Host.Outcome State Fault Refusal := finish (do
  tokensReady s [a, d]
  let x := s.ws.getS a
  let old := s.ws.mcr
  let new := BitVec.ofNat 16 (fld x 2 0) ||| (if x.getLsbD 3 then 0 else old &&& 8)
  .ok ((s.onWs (fun w => { w with mcr := new })).doneS d [(la, a)] (old.setWidth 64)))

end Sys2Proof.Machine
end

