-- ==== Sys2Proof/Machine/Stream.lean ====
section
/-! DEFINITION. Streams (spec/12 R317 to R325), what every engine shares (R58, R208, R211), and the stream engines' events. -/
namespace Sys2Proof.Machine

/-! ## Engine faults and completion (R112, R126, R208, R211) -/

/-- The detail word of COPY, and of MX when a command ends (R211). -/
def engineDetail (bytes reason token : Nat) : Word :=
  BitVec.ofNat 64 (min bytes 4294967295 + reason * 4294967296 + token * 1099511627776)

/-- An engine's fault for a slot (R208): pending, or merged into a pending one of its cause; recorded in the scoresheet
when the task `task` has retired. -/
def State.engineFault (s : State) (core : Nat) (i : SlotId) (task : Option Nat) (mx : Bool) (f : Imprecise) : State :=
  let x := (s.coreOf core).sx i
  if task.any (· != x.task.id) then s.score 0x06 core 0 f.detail f.pc
  else
    let merge := fun (o : Option Imprecise) => match o with
      | some g => some { g with count := g.count + 1 }
      | none => some f
    s.onCore core (fun c => c.onSx i (fun x =>
      if mx then { x with mxFault := merge x.mxFault } else { x with copyFault := merge x.copyFault }))

/-- The fault of a command: cause COPY or MX with its reason, bytes and token (R211), and the virtual address or local offset of the access
that failed, 0 where none did (R210; log entry 114). -/
def faultOf (mx : Bool) (reason bytes token : Nat) (addr pc : Word) : Imprecise :=
  { cause := if mx then 0x15 else 0x13, reason := reason, addr := addr, detail := engineDetail bytes reason token, pc := pc, count := 0 }

/-- An engine command of a slot is complete and its writes are performed; the slot has not observed that yet (R112). -/
def State.engineDone (s : State) (core : Nat) (i : SlotId) (path : Fin 4) (report : EngineReport) (vt : Nat) : State :=
  s.onCore core (fun c => c.onSlot i (fun x => { x with done := x.done ++ [{ path := path, report := report, vt := vt }] }))

/-- A slot observes the completions that `p` names (R112): an `xfence` that follows waits for their writes (R126). -/
def State.observe (s : State) (core : Nat) (i : SlotId) (p : EngineDone → Bool) : State :=
  s.onCore core (fun c => c.onSlot i (fun x => { x with
    engV := (x.done.filter p).foldl (fun v e => v.set e.path (max v[e.path] e.vt)) x.engV,
    done := x.done.filter (fun e => !p e) }))

/-- An engine's local access for a slot's task is checked (R58): a touch of a margin is recorded for that task (R59), while the slot runs
it (R208; log entry 115). -/
def State.engineTouch (s : State) (core : Nat) (i : SlotId) (task : Option Nat) (user : Bool) (path ofs n : Nat) (wr : Bool) : State :=
  let c := s.coreOf core
  if !user ∨ task.any (· != (c.sx i).task.id) then s
  else match c.firstMargin ofs n with
    | some o => s.onCore core (fun c => c.touchMargin i o path wr)
    | none => s

/-- An engine's local read for a slot (R58): margin bytes read zero and are recorded for it. -/
def State.engineLoad (s : State) (core : Nat) (i : SlotId) (task : Option Nat) (user : Bool) (path ofs n : Nat) : List Byte × State :=
  ((s.coreOf core).checkedRead user ofs n, s.engineTouch core i task user path ofs n false)

/-- An engine's local write that has been checked (R58). -/
def State.engineWritten (s : State) (core : Nat) (user : Bool) (ofs : Nat) (bs : List Byte) : State :=
  (s.onCore core (fun c => c.checkedWrite user ofs bs)).ownLocal core ofs bs.length

/-- An engine's local write for a slot (R58). -/
def State.engineStore (s : State) (core : Nat) (i : SlotId) (task : Option Nat) (user : Bool) (path ofs : Nat) (bs : List Byte) : State :=
  (s.engineTouch core i task user path ofs bs.length true).engineWritten core user ofs bs

/-- An engine's command pays for its lines, but not a booked one (R71). -/
def State.enginePay (s : State) (core : Nat) (booked : Bool) (sp : Span) : State :=
  if booked then s
  else match sp with
    | (p, _) :: _ => s.onCore core (fun c => c.pay p.vfn (sp.lines.length))
    | [] => s

/-- An engine's global read. -/
def State.engineGet (s : State) (core : Nat) (booked : Bool) (sp : Span) : List Byte × State :=
  let s := ((s.enginePay core booked sp).engineRead core sp).countKmisses core sp
  (s.readSpan sp, s)

/-- An engine's global write, whose lines return their `vt` to `dst` one by one (R112); a tile line of another core refuses it
(R97). -/
def State.enginePut (s : State) (core : Nat) (booked : Bool) (sp : Span) (bs : List Byte) (dst : WakDst) : Option State :=
  if sp.lines.any (fun l => l.2.coherent && s.tileRefuses core l.1) then none
  else
    let s := (((s.enginePay core booked sp).countKmisses core sp).engineWrite core sp dst).writeSpan sp bs
    some (sp.foldl (fun s e => s.ownVault core e.1 e.2) s)

/-- Why a read by an engine cannot deliver (R208, R421): 0x24 outside every map window, 0x23 an uncorrected word. -/
def State.engineBad (s : State) (sp : Span) : Option Nat :=
  if sp.any (fun e => s.unmapped e.1) then some 0x24 else if (s.spanFault sp).isSome then some 0x23 else none

/-! ## Groups of four registers (R317) -/

def grpReg (g : Grp) (j : Nat) : SReg := fin32 (4 * g.val + 4 + j)
def grpRegs (g : Grp) : List SReg := [grpReg g 0, grpReg g 1, grpReg g 2, grpReg g 3]

/-! ## Stream instructions (R319, R320, R323, R324) -/

/-- Unbinding waits for a store stream's elements to be written and its writes to be performed (R323). -/
def unbindGate (s : State) (n : QReg) : M Unit :=
  if s.ws.q[n].draining then waitNow (s.postOnce (.streamStoreWrite s.cn n)) 0x25 0x0D n.val else .ok ()

def State.setStream (s : State) (n : QReg) (q : Stream) : State := s.onWs (fun w => { w with q := w.q.set n q })

/-- A requester takes back the misses it has in a cluster. -/
def State.quitWalk (s : State) (cl : Nat) (r : Requester) : State :=
  let quit := fun (w : Walk) => { w with reqs := w.reqs.filter (fun q => q.1 != r) }
  s.onCluster cl (fun c => { c with
    walks := c.walks.map quit, missq := c.missq.map quit, walked := c.walked.filter (fun x => x.1 != r) })

/-- Stream `n` of the running workspace is unbound: what it holds and has in flight is discarded (R323). -/
def State.unbind (s : State) (n : QReg) : State :=
  (s.setStream n Stream.unbound).quitWalk s.cl (.stream s.cn s.core.res.wp n)

/-- The completion event of a store stream (R112, R321): its `sunbind` retires. -/
def State.streamObserved (s : State) (n : QReg) : State :=
  let q := s.ws.q[n]
  let s := if q.dir then s.engineDone s.cn s.core.cur 0 (.stream s.core.res.wp n) q.vt else s
  s.observe s.cn s.core.cur (fun e => e.report == .stream s.core.res.wp n)

/-- `sbind` (R319, R320). -/
def execSbind (d : Fin 8) (a : Grp) (la : Bool) (s : State) : Host.Outcome State Fault Refusal := finish (do
  tokensReady s (grpRegs a)
  accessReady s
  unbindGate s d
  let w0 := s.ws.getS (grpReg a 0)
  let w1 := s.ws.getS (grpReg a 1)
  let w2 := s.ws.getS (grpReg a 2)
  let w3 := s.ws.getS (grpReg a 3)
  let free := s.unbind d
  if streamOk w0 w1 w2 w3 then pure () else illegalNow free
  if s.booked ∧ w0.getLsbD 1 = false then bookedNow s 1 else pure ()
  if w0.getLsbD 1 ∧ 32 ≤ free.heldCount then waitNow s 0x28 0x0A d.val else pure ()
  let q : Stream :=
    { bound := true, w0 := w0, w1 := w1, w2 := w2, w3 := w3, pos := 0, done := 0, queue := [], parked := false, after := true,
      pend := 0, vt := 0, touched := false }
  let s := (free.setStream d q).kick d
  let s := { s with core := { s.core with bindPcs := mapSet s.core.bindPcs (s.core.res.wp * 8 + d.val) s.ws.pc } }
  .ok (s.done [(la, grpReg a 0)]))

/-- `sunbind` (R323). -/
def execSunbind (d : Fin 8) (s : State) : Host.Outcome State Fault Refusal := finish (do
  unbindGate s d
  .ok ((s.streamObserved d).unbind d).retire)

/-- The status word of a stream (R324). -/
def Stream.word (q : Stream) : Word :=
  BitVec.ofNat 64 (q.status + q.queue.length * 256 + (if q.bound then q.total - q.pos else 0) * 65536)

/-- `sstat` (R319, R324). -/
def execSstat (d : SReg) (a : Fin 8) (s : State) : Host.Outcome State Fault Refusal := finish (do
  tokensReady s [d]
  .ok (s.doneS d [] (s.ws.q[a]).word))

/-! ## The stream engines (R320 to R322) -/

/-- A stream of a core where it is held: 0 the running workspace, 1 the other resident one, i + 2 a workspace that has left
residency. -/
structure StreamRef where
  sel : Nat
  wp : Nat
  slot : SlotId
  atp : Word
  user : Bool
  st : Stream
deriving DecidableEq, Repr

/-- A stream of a resident workspace: the spec does not say whether a bound stream keeps the address space and function of its `sbind` or follows
its workspace's `atp` (R46); the model takes the `atp` that the workspace has now (log entry 116). -/
def residentStream (sel : Nat) (r : Resident) (n : QReg) : StreamRef :=
  { sel := sel, wp := r.wp, slot := fin4 (fld r.ws.tsw 17 16), atp := r.ws.atp, user := !r.ws.sup, st := r.ws.q[n] }

/-- Stream `n` of every workspace that a core holds, those that have left residency first. -/
def Core.streamRefs (c : Core) (n : QReg) : List StreamRef :=
  ((List.range c.drains.length).zip c.drains).filterMap (fun x => if x.2.n = n then
      some { sel := x.1 + 2, wp := x.2.wp, slot := x.2.slot, atp := x.2.atp, user := x.2.user, st := x.2.st } else none)
    ++ [residentStream 0 c.res n]
    ++ (match c.alt with
      | some a => [residentStream 1 a n]
      | none => [])

def putQ (r : Resident) (n : QReg) (q : Stream) : Resident := { r with ws := { r.ws with q := r.ws.q.set n q } }

/-- A stream replaced where it is held; one that has left residency and has drained goes, its state written to its image
(R162). -/
def Core.putStream (c : Core) (r : StreamRef) (n : QReg) (q : Stream) : Core :=
  match r.sel with
  | 0 => { c with res := putQ c.res n q }
  | 1 => { c with alt := c.alt.map (fun a => putQ a n q) }
  | k + 2 =>
    match c.drains[k]? with
    | none => c
    | some d =>
      if q.draining then { c with drains := c.drains.set k { d with st := q } }
      else
        let c := if d.save then c.padWrite (r.wp + 8704 + 64 * n.val) q.image else c
        { c with drains := c.drains.eraseIdx k }

/-- As `Core.putStream`; the writes of a stream that has drained out of residency are performed. -/
def State.putStream (s : State) (core : Nat) (r : StreamRef) (n : QReg) (q : Stream) : State :=
  let s := s.onCore core (fun c => c.putStream r n q)
  if 2 ≤ r.sel ∧ !q.draining then s.engineDone core r.slot 0 (.stream r.wp n) q.vt else s

def Core.bindPc (c : Core) (wp : Nat) (n : QReg) : Word := (mapGet c.bindPcs (wp * 8 + n.val)).getD 0

/-- A load stream that may fetch (R320): room for one of the eight elements ahead. -/
def StreamRef.canFetch (r : StreamRef) : Bool :=
  r.st.bound && !r.st.dir && !r.st.parked && decide (r.st.queue.length < 8) && decide (r.st.done < r.st.total)

/-- A store stream that has an element to write (R321). -/
def StreamRef.canWrite (r : StreamRef) : Bool := r.st.dir && !r.st.queue.isEmpty && !r.st.parked

/-- A stream ends with the imprecise COPY fault (R34, R322) at its next element: its elements are discarded. -/
def State.streamFault (s : State) (core : Nat) (r : StreamRef) (n : QReg) (reason : Nat) : State :=
  let a := match r.st.queue with
    | e :: _ => if r.st.dir then e.addr else r.st.addr r.st.done
    | [] => r.st.addr r.st.done
  let f := faultOf false reason (r.st.done * r.st.eb) 0 a ((s.coreOf core).bindPc r.wp n)
  (s.putStream core r n Stream.unbound).engineFault core r.slot none false f

/-- An element joins a load stream's queue, and the next fetch follows. -/
def State.fetched (s : State) (core : Nat) (r : StreamRef) (n : QReg) (e : Elem) : State :=
  (s.putStream core r n { r.st with queue := r.st.queue ++ [e], done := r.st.done + 1, after := false, touched := false }).again (.streamFetch core n)

/-- The task of a slot is booked. -/
def State.slotBooked (s : State) (core : Nat) (i : SlotId) : Bool := ((s.coreOf core).sx i).task.booked

def badElem (a : Word) (cause reason : Nat) : Elem := { val := 0, addr := a, cause := cause, reason := reason }

/-- A non-present page of a stream (R34, R322): parked; the COPY fault while parking is disabled. A booked task never parks:
the instruction that takes the element traps, a store stream ends with COPY (log entry 26). -/
def State.streamAbsent (s : State) (core : Nat) (r : StreamRef) (n : QReg) (a : Word) (need : Need) (vpn level : Nat) : State :=
  if s.slotBooked core r.slot then
    if r.st.dir then s.streamFault core r n 0x02 else s.fetched core r n (badElem a 0x05 0x02)
  else if (s.cluster (clusterOf core)).fbctl.getLsbD 0 then
    (s.putStream core r n { r.st with parked := true }).parkLater (clusterOf core) (.stream core r.wp n) need.ak (fld r.atp 5 0) vpn level
  else s.streamFault core r n 0x02

/-- A local offset at which `n` bytes lie inside the scratchpad (R21). -/
def localFits (a : Word) (n : Nat) : Bool := decide (a.toNat + n ≤ 196608)

/-- A range that another command holds blocks a local access of a stream, which is made again later (R60; log entry 97). -/
def State.streamHeld (s : State) (core : Nat) (r : StreamRef) (n : QReg) (a : Word) (wr : Bool) : Bool :=
  heldMeets (s.heldBut core (some (r.wp, n))) a.toNat r.st.eb wr

/-- The margin check of a local stream's next element, which comes before the hold test and records a touch once (R58, R61). -/
def State.streamTouch (s : State) (core : Nat) (r : StreamRef) (n : QReg) (a : Word) (wr : Bool) : State × StreamRef :=
  if r.st.touched then (s, r)
  else
    let q := { r.st with touched := true }
    ((s.engineTouch core r.slot none r.user 1 a.toNat r.st.eb wr).onCore core (fun c => c.putStream r n q), { r with st := q })

/-- The next element of a load stream is fetched (R320, R322). -/
def State.fetchElem (s : State) (core : Nat) (r : StreamRef) (n : QReg) : State :=
  let a := r.st.addr r.st.done
  let eb := r.st.eb
  if r.st.isLocal then
    if !(localFits a eb) then s.fetched core r n (badElem a 0x06 0x08)
    else
      let (s, r) := s.streamTouch core r n a false
      let c := s.coreOf core
      if s.streamHeld core r n a false then s.again (.streamFetch core n)
      else if (c.padFault a.toNat eb).isSome then s.streamFault core r n 0x23
      else s.fetched core r n { val := BitVec.ofNat 1024 (ofBytes (c.checkedRead r.user a.toNat eb)), addr := a, cause := 0, reason := 0 }
  else
    match s.engineSpan (.stream core r.wp n) core r.atp r.user .load a eb with
    | (.ok sp, s) =>
      match s.engineBad sp with
      | some reason => s.streamFault core r n reason
      | none =>
      let (bs, s) := s.engineGet core (s.slotBooked core r.slot) sp
      s.fetched core r n { val := BitVec.ofNat 1024 (ofBytes bs), addr := a, cause := 0, reason := 0 }
    | (.bad reason, s) => s.fetched core r n (badElem a (causeOfReason reason) reason)
    | (.absent vpn level, s) => s.streamAbsent core r n a .load vpn level
    | (.wait, s) => s

/-- Each stream `n` of a core to which the test applies does its next piece of work. -/
def State.eachStream (s : State) (core : Nat) (n : QReg) (can : StreamRef → Bool) (go : State → StreamRef → State) : State :=
  ((s.coreOf core).streamRefs n).foldl (fun s x =>
    match ((s.coreOf core).streamRefs n).find? (fun r => r.wp == x.wp && can r) with
    | some r => go s r
    | none => s) s

/-- A load stream's next fetch (R320): the first one waits until the LS writes that precede its `sbind`, the queued ones among
them, have returned their `vt` and it has come; in fabric release mode until they are acknowledged (R137). -/
def State.fetchNext (s : State) (core : Nat) (n : QReg) (r : StreamRef) : State :=
  let c := s.coreOf core
  let sl := c.slot r.slot
  let v := max sl.trk.v c.carry.v
  if !r.st.after then s.fetchElem core r n
  else if sl.trk.count ≠ 0 ∨ c.carry.count ≠ 0 ∨ sl.relq.any (fun e => e.op.writes) then s
  else if !s.frmOn ∧ s.releaseTime (dieOf core) < v then
    s.post (s.pkg.ptime + (v - s.releaseTime (dieOf core))) (.streamFetch core n)
  else s.fetchElem core r n

/-- STREAM_FETCH (R320). -/
def execStreamFetch (core : Nat) (n : QReg) (s : State) : Host.Outcome State Fault Refusal :=
  .next (s.eachStream core n StreamRef.canFetch (fun s r => s.fetchNext core n r))

/-- The head of a store stream's queue has been written: by a local write, or by `k` writes whose `vt` is still due. -/
def State.streamWrote (s : State) (core : Nat) (r : StreamRef) (n : QReg) (k vt : Nat) : State :=
  (s.putStream core r n { r.st with
    queue := r.st.queue.drop 1, done := r.st.done + 1, touched := false, pend := r.st.pend + k, vt := max r.st.vt vt }).again (.streamStoreWrite core n)

/-- A store stream's write returns its `vt` (R112, R321). -/
def State.streamAcked (s : State) (core wp : Nat) (n : QReg) (vt : Nat) : State :=
  match ((s.coreOf core).streamRefs n).find? (fun r => r.wp == wp && r.st.pend != 0) with
  | some r => s.putStream core r n { r.st with pend := r.st.pend - 1, vt := max r.st.vt vt }
  | none => s

/-- The head of a store stream's queue is written (R321, R322). -/
def State.storeElem (s : State) (core : Nat) (r : StreamRef) (n : QReg) (e : Elem) : State :=
  let bs := toBytes r.st.eb e.val.toNat
  if r.st.isLocal then
    if !(localFits e.addr r.st.eb) then s.streamFault core r n 0x08
    else
      let (s, r) := s.streamTouch core r n e.addr true
      if s.streamHeld core r n e.addr true then s.again (.streamStoreWrite core n)
      else (s.engineWritten core r.user e.addr.toNat bs).streamWrote core r n 0 (s.ptimeOf (dieOf core))
  else
    match s.engineSpan (.stream core r.wp n) core r.atp r.user .store e.addr r.st.eb with
    | (.ok sp, s) =>
      if sp.any (fun e => s.unmapped e.1) then s.streamFault core r n 0x24
      else
      match s.enginePut core (s.slotBooked core r.slot) sp bs (.stream core r.wp n) with
      | some s => s.streamWrote core r n sp.lines.length 0
      | none => s.streamFault core r n 0x20
    | (.bad reason, s) => s.streamFault core r n reason
    | (.absent vpn level, s) => s.streamAbsent core r n e.addr .store vpn level
    | (.wait, s) => s

/-- STREAM_STORE_WRITE (R321). -/
def execStreamStoreWrite (core : Nat) (n : QReg) (s : State) : Host.Outcome State Fault Refusal :=
  .next (s.eachStream core n StreamRef.canWrite (fun s r =>
    match r.st.queue with
    | e :: _ => s.storeElem core r n e
    | [] => s))

/-- A parked stream goes on after `replayall`, or is resolved by fault (R39, R40, R322). -/
def State.unparkStream (s : State) (core wp : Nat) (n : QReg) (deliver : Bool) : State :=
  match ((s.coreOf core).streamRefs n).find? (fun r => r.wp == wp && r.st.parked) with
  | none => s
  | some r =>
    let r := { r with st := { r.st with parked := false } }
    if !deliver then
      (s.putStream core r n r.st).again (if r.st.dir then .streamStoreWrite core n else .streamFetch core n)
    else if r.st.dir then s.streamFault core r n 0x22
    else s.fetched core r n (badElem (r.st.addr r.st.done) 0x05 0x02)

end Sys2Proof.Machine
end

