-- ==== Sys2Proof/Machine/Window.lean ====
section
/-! DEFINITION. Windows and puts (spec/12 R350 to R355; spec/01 R23, R24; spec/04 R130 to R134). -/
namespace Sys2Proof.Machine

/-! ## Handles (R23) -/

def hOwner (h : Word) : Nat := fld h 10 0
def hIndex (h : Word) : Nat := fld h 15 11
def hSerial (h : Word) : Nat := fld h 31 16

/-- A core of a compute die that the topology table holds (R416). -/
def State.corePresent (s : State) (core : Nat) : Bool := setHas s.pkgx.present (dieOf core)

def State.winEntry (s : State) (owner idx : Nat) : WinEntry := (s.coreOf owner).win[fin32 idx]
def State.onWin (s : State) (owner idx : Nat) (f : WinEntry → WinEntry) : State :=
  s.onCore owner (fun c => { c with win := c.win.set (fin32 idx) (f c.win[fin32 idx]) })

/-- The handle names a registered entry at its current serial. -/
def State.handleLive (s : State) (h : Word) : Bool :=
  let e := s.winEntry (hOwner h) (hIndex h)
  e.reg && e.serial.toNat == hSerial h

/-! ## Pending traps at a named instruction (R24, R59, R208) -/

/-- A pending fault as a trap at the instruction (R206). -/
def Imprecise.trap (f : Imprecise) : Trap :=
  { cause := f.cause, reason := f.reason, addr := f.addr, detail := f.detail, next := false, imp := true, count := f.count,
    fpc := some f.pc, fins := 0, fins1 := 0 }

/-- A pending WINDOW fault is taken first (R24). -/
def windowGate (s : State) : M Unit :=
  match s.sx.window with
  | some f => .error (.st ((s.onSx (fun x => { x with window := none })).trap f.trap))
  | none => .ok ()

/-- A pending MARGIN trap is taken first (R59); the touches that have joined it are merged faults (R210). -/
def marginGate (s : State) : M Unit :=
  let m := s.sx.margin
  if m = 0 then .ok ()
  else
    let f : Imprecise :=
      { cause := 0x0A, reason := 0, addr := BitVec.ofNat 64 (fld m 17 0), detail := m &&& 0x1FFFFFFFFF, pc := s.ws.pc, count := fld m 45 37 }
    .error (.st ((s.onSx (fun x => { x with margin := 0 })).trap f.trap))

/-! ## Registration (R351, R352) -/

/-- The failure value of `wreg` (R351). -/
def wregFail (reason : Nat) : Word := BitVec.ofNat 64 (0xFFFFFFFE00000000 + reason)

/-- The lowest free entry of the window table. -/
def Core.freeWin (c : Core) : Option Nat := (List.range 32).find? (fun i => !(c.win[fin32 i]).reg)

/-- An entry is registered, and its handle (R23, R351). -/
def State.register (s : State) (idx : Nat) (vault : Bool) (base : Nat) (p : Option Place) (len : Nat) : Word × State :=
  let serial := (s.winEntry s.cn idx).serial + 1
  let e : WinEntry :=
    { reg := true, vault := vault, base := base, place := p, len := len, vfn := s.vfn, ctx := s.core.cur,
      serial := serial, pend := 0, early := 0, epoch := 0, sat := false }
  (BitVec.ofNat 64 (s.cn + idx * 2048 + serial.toNat * 65536 + bit01 vault * 4294967296), s.onWin s.cn idx (fun _ => e))

/-- The range tests of `wreg` in their order (R351): the failure, or where the window lies. -/
def wregPlace (s : State) (a : Word) (len : Nat) (vault : Bool) : M ((Nat ⊕ Option Place) × State) :=
  if a.toNat % 64 ≠ 0 ∨ len % 64 ≠ 0 then .ok (.inl 3, s)
  else if !vault then
    .ok (if len < 64 ∨ 196608 < len ∨ 196608 < a.toNat + len then .inl 2 else .inr none, s)
  else if len = 0 then .ok (.inl 2, s)
  else if 2 ^ 55 ≤ a.toNat then trapNow s 0x06 0x01 a 0
  else do
    let (e, s) ← translatePage s { rd := false, wr := false, ex := false } a (a.toNat / 65536)
    let inPage := decide (a.toNat - e.vbase * 65536 + len ≤ pageFrames e.size * 65536)
    .ok (if e.kind = 1 ∧ !e.dev ∧ e.rd ∧ e.wr ∧ inPage then .inr (some (e.place a.toNat)) else .inl 4, s)

/-- `wreg` (R351). -/
def execWreg (d a b : SReg) (la lb : Bool) (s : State) : Host.Outcome State Fault Refusal := finish (do
  tokensReady s [d, a, b]
  let x := s.ws.getS a
  let y := s.ws.getS b
  let ks := [(la, a), (lb, b)]
  let (r, s) ← wregPlace s x (fld y 23 0) (y.getLsbD 24)
  match r, s.core.freeWin with
  | .inl reason, _ => .ok (s.doneS d ks (wregFail reason))
  | .inr _, none => .ok (s.doneS d ks (wregFail 1))
  | .inr p, some i =>
    let (h, s) := s.register i (y.getLsbD 24) (if p.isSome then 0 else x.toNat) p (fld y 23 0)
    .ok (s.doneS d ks h))

/-- `wunreg` (R352). -/
def execWunreg (d a : SReg) (la : Bool) (s : State) : Host.Outcome State Fault Refusal := finish (do
  tokensReady s [d, a]
  let h := s.ws.getS a
  if hOwner h = s.cn ∧ s.handleLive h then
    .ok ((s.onWin s.cn (hIndex h) (fun e => { e with reg := false, serial := e.serial + 1 })).doneS d [(la, a)] 0)
  else .ok (s.doneS d [(la, a)] 1))

/-! ## Puts (R353) -/

/-- A WINDOW fault of a put for its source (R24). -/
def State.windowFault (s : State) (core : Nat) (i : SlotId) (task reason : Nat) (pc : Word) : State :=
  let x := (s.coreOf core).sx i
  if x.task.id ≠ task then s.score 0x07 core 0 (BitVec.ofNat 64 reason) pc
  else
    let f : Imprecise := { cause := 0x16, reason := reason, addr := 0, detail := 0, pc := pc, count := 0 }
    s.onCore core (fun c => c.onSx i (fun x => { x with window := match x.window with
      | some g => some { g with count := g.count + 1 }
      | none => some f }))

/-- A put leaves its source, or is refused there (R24, R353). -/
def State.sendPut (s : State) (p : PutCmd) : State :=
  let s := s.onSlot (fun x => { x with iss := x.iss + 1 })
  let reason := if fld p.handle 63 33 ≠ 0 then 0x17 else if s.corePresent (hOwner p.handle) then 0 else 0x14
  if reason ≠ 0 then (s.windowFault s.cn p.slot p.task reason p.pc).post s.pkg.ptime (.putAck s.cn p.slot)
  else
    let s := { s with core := { s.core with puts := s.core.puts ++ [p] }, nextId := s.nextId + 1 }
    let s : State := if s.booked then s else s.setCore (s.core.pay s.vfn ((p.len + 63) / 64))
    s.post (s.pkg.ptime + engineGap) (.putArrival s.cn p.id)

/-- A put of `len` bytes to an offset of a window (R353). -/
def putOp (a b c : SReg) (ks : List (Bool × SReg)) (imm : Bool) (s : State) : M State := do
  tokensReady s [a, b, c]
  accessReady s
  let y := s.ws.getS b
  let x := s.ws.getS c
  let len := fld y 39 24 + 1
  if imm ∧ 8 < len then illegalNow s else pure ()
  let ofs := fld x 17 0
  if !imm ∧ 196608 < ofs + len then trapNow s 0x06 0x08 (BitVec.ofNat 64 ofs) 0 else pure ()
  if 64 ≤ (s.slot.iss - s.slot.cmp).toNat then waitNow s 0x28 0x0A 0 else pure ()
  if !imm ∧ 32 ≤ s.heldCount then waitNow s 0x28 0x0A 0 else pure ()
  let p : PutCmd :=
    { id := s.nextId, slot := s.core.cur, task := s.sx.task.id, handle := s.ws.getS a, off := fld y 23 0, len := len,
      src := if imm then none else some ofs, imm := x, vfn := s.vfn, user := !s.sup, pc := s.ws.pc }
  .ok ((s.sendPut p).done ks)

/-- `put` (R353). -/
def execPut (a b c : SReg) (la lb lc : Bool) (s : State) : Host.Outcome State Fault Refusal :=
  finish (putOp a b c [(la, a), (lb, b), (lc, c)] false s)
/-- `put.imm` (R353). -/
def execPutImm (a b c : SReg) (la lb lc : Bool) (s : State) : Host.Outcome State Fault Refusal :=
  finish (putOp a b c [(la, a), (lb, b), (lc, c)] true s)

/-! ## Arrival (R24, R130, R133) -/

/-- The first failing check of a delivery at the owner's port (R24, R333); a multicast passes no serial. -/
def WinEntry.refuses (e : WinEntry) (serial : Option Nat) (off len vfn : Nat) : Nat :=
  if !e.reg ∨ serial.any (· != e.serial.toNat) then 0x14
  else if e.len < off + len then 0x15
  else if vfn ≠ e.vfn then 0x16
  else 0

/-- The beats of a delivery (R130): each within one granule. `margin` names who takes a margin touch and its path,
none when the check is not made (R58). -/
def State.beats (s : State) (owner src idx off : Nat) (bs : List Byte) (margin : Option (Nat × SlotId × Nat)) : State :=
  let e := s.winEntry owner idx
  let base := match e.place with
    | some p => p.pa
    | none => e.base
  let a := base + off
  let n := bs.length
  (upto (a / 64) ((a + n + 63) / 64 - a / 64)).foldl (fun s g =>
    let lo := max a (64 * g)
    let k := min (a + n) (64 * g + 64) - lo
    let part := (bs.drop (lo - a)).take k
    let s := s.granuleWrite owner src idx e g (lo - base) k
    match e.place with
    | some p =>
      let q := { p with pa := lo }
      (s.countKmisses owner [(q, k)]).writeSpan [(q, k)] part
    | none =>
      match margin with
      | some (mc, mi, path) =>
        let s := match (s.coreOf owner).firstMargin lo k with
          | some o => s.onCore mc (fun c => c.touchMargin mi o path true)
          | none => s
        s.onCore owner (fun c => c.checkedWrite true lo part)
      | none => s.onCore owner (fun c => c.checkedWrite false lo part)) s

/-- One arrival counted in an entry (R130). -/
def WinEntry.arrive (e : WinEntry) : WinEntry :=
  if e.pend ≠ 0 then { e with pend := e.pend - 1 }
  else if e.early < 16777215 then { e with early := e.early + 1 }
  else { e with sat := true }

/-- The bytes that a put carries; a local source is read with the margin check (R353). -/
def State.putBytes (s : State) (core : Nat) (p : PutCmd) : List Byte × State :=
  match p.src with
  | some o => s.engineLoad core p.slot (some p.task) p.user 4 o p.len
  | none => (toBytes p.len p.imm.toNat, s)

/-- A word of a put's local source has an uncorrected error (R49). -/
def State.putBad (s : State) (core : Nat) (p : PutCmd) : Bool :=
  match p.src with
  | some o => ((s.coreOf core).padFault o p.len).isSome
  | none => false

/-- PUT_ARRIVAL (R24, R130): the put is checked at the owner's port, its beats written, its arrival counted and it is
acknowledged. One that consumes an uncorrected word ends with the COPY fault, REASON 0x23 (R208; log entry 99). -/
def execPutArrival (core id : Nat) (s : State) : Host.Outcome State Fault Refusal :=
  match (s.coreOf core).puts.find? (fun p => p.id == id) with
  | none => .next s
  | some p =>
    let (bs, s) := s.putBytes core p
    let owner := hOwner p.handle
    let idx := hIndex p.handle
    let e := s.winEntry owner idx
    let reason := e.refuses (some (hSerial p.handle)) p.off p.len p.vfn
    let s := s.onCore core (fun c => { c with puts := c.puts.filter (fun q => q.id != id) })
    let s := if s.putBad core p then s.engineFault core p.slot (some p.task) false (faultOf false 0x23 0 0 (natWord (p.src.getD 0)) p.pc)
      else if reason ≠ 0 then s.windowFault core p.slot p.task reason p.pc
      else (s.beats owner core idx p.off bs (some (owner, e.ctx, 4))).onWin owner idx WinEntry.arrive
    .next (s.post s.pkg.ptime (.putAck core p.slot))

/-- PUT_ACK (R130): CMP counts the acknowledgement. -/
def execPutAck (core : Nat) (slot : SlotId) (s : State) : Host.Outcome State Fault Refusal :=
  .next ((s.onCore core (fun c => c.onSlot slot (fun x => { x with cmp := x.cmp + 1 }))).engineDone core slot 3 .put (s.ptimeOf (dieOf core)))

/-! ## Expectations and counts (R131, R354, R355) -/

/-- R131: the entry after `wexp` of n, none on overflow. -/
def WinEntry.expect (e : WinEntry) (n : Nat) : Option WinEntry :=
  if n = 0 then some e
  else
    let c := min n e.early
    let need := e.pend + (n - c)
    if 16777215 < n ∨ 16777215 < need then none
    else some { e with early := e.early - c, pend := need, epoch := (e.epoch + 1) % 16 }

/-- `wexp` (R354). -/
def execWexp (d a b : SReg) (la lb : Bool) (s : State) : Host.Outcome State Fault Refusal := finish (do
  tokensReady s [d, a, b]
  let h := s.ws.getS a
  let ks := [(la, a), (lb, b)]
  if hOwner h = s.cn ∧ s.handleLive h then
    match (s.winEntry s.cn (hIndex h)).expect (s.ws.getS b).toNat with
    | some e => .ok ((s.onWin s.cn (hIndex h) (fun _ => e)).doneS d ks 0)
    | none => .ok (s.doneS d ks 1)
  else .ok (s.doneS d ks 2))

/-- The word that `wcnt` returns (R355). -/
def WinEntry.word (e : WinEntry) : Word :=
  BitVec.ofNat 64 (e.pend + e.early * 2 ^ 24 + e.epoch * 2 ^ 48 + bit01 e.sat * 2 ^ 52 + bit01 e.reg * 2 ^ 53)

/-- `wcnt` (R355). -/
def execWcnt (d a : SReg) (la : Bool) (s : State) : Host.Outcome State Fault Refusal := finish (do
  tokensReady s [d, a]
  windowGate s
  let h := s.ws.getS a
  .ok (s.doneS d [(la, a)] (if s.handleLive h then (s.winEntry (hOwner h) (hIndex h)).word else 0)))

/-- `wcnt.src` (R355): it observes the puts that CMP counts (R112). -/
def execWcntSrc (d : SReg) (s : State) : Host.Outcome State Fault Refusal := finish (do
  tokensReady s [d]
  windowGate s
  .ok ((s.observe s.cn s.core.cur (fun e => e.report == .put)).doneS d [] (BitVec.ofNat 64 (s.slot.iss.toNat * 4294967296 + s.slot.cmp.toNat))))

/-- `wwait` (R131, R355). -/
def execWwait (a : SReg) (la : Bool) (s : State) : Host.Outcome State Fault Refusal := finish (do
  tokensReady s [a]
  windowGate s
  let h := s.ws.getS a
  if s.handleLive h ∧ (s.winEntry (hOwner h) (hIndex h)).pend ≠ 0 then waitNow s 0x29 0x09 0
  else .ok (s.done [(la, a)]))

end Sys2Proof.Machine
end

