-- ==== Sys2Proof/Machine/Copy.lean ====
section
/-! DEFINITION. Copies: `cpy`, `cpy.nb`, `cpq` and the copy engine (spec/12 R326 to R336; spec/02 R69; spec/08 R211). -/
namespace Sys2Proof.Machine

/-! ## Commands (R327 to R330) -/

def cpyRop (k : CopyCmd) : Nat := fld k.w0 6 3
def cpyFmt (k : CopyCmd) : Nat := fld k.w0 11 7
def cpyScope (k : CopyCmd) : Nat := fld k.w0 14 12
def cpyToken (k : CopyCmd) : Nat := fld k.w0 19 15
def cpyMode (k : CopyCmd) : Nat := fld k.w0 21 20
def cpyTarget (k : CopyCmd) : Nat := fld k.w0 32 22
def cpyMcast (k : CopyCmd) : Nat := fld k.w0 40 33
def cpyWidx (k : CopyCmd) : Nat := fld k.w0 45 41
def cpySpitch (k : CopyCmd) : Nat := fld k.w3 49 36
def cpyDpitch (k : CopyCmd) : Nat := fld k.w3 63 50
/-- KIND GW or LW (R328). -/
def cpyWin (k : CopyCmd) : Bool := cpyKind k == 4 || cpyKind k == 5
/-- Whether an endpoint is global (R328). -/
def cpyGlobal (k : CopyCmd) : Bool := cpyKind k == 0 || cpyKind k == 1 || cpyKind k == 2 || cpyKind k == 4

/-- The formats that a reduction allows (R332): ROP and RFMT codes. -/
def ropAllows (rop fmt : Nat) : Bool :=
  (fmt == 2 || fmt == 3 || fmt == 6 || fmt == 7) || (rop ≤ 3 && (fmt == 9 || fmt == 11))

/-- The bytes of a reduction's element. -/
def cpyElem (k : CopyCmd) : Nat := (Fmt.ofCode (cpyFmt k)).bits / 8

/-- A command that R330, R332 or R333 calls malformed. -/
def State.malformed (s : State) (k : CopyCmd) : Bool :=
  let kind := cpyKind k
  let mode := cpyMode k
  let rop := cpyRop k
  decide (5 < kind) || fld k.w0 63 46 != 0 || decide (5 < rop) || decide (4 < cpyScope k)
    || (rop == 0 && (cpyFmt k != 0 || cpyScope k != 0))
    || (rop != 0 && (kind != 1 || !(ropAllows rop (cpyFmt k)) || cpyRow k % cpyElem k != 0 || k.w2.toNat % cpyElem k != 0))
    || (mode == 1) != (cpyToken k != 0)
    || (decide (mode < 2) && cpyTarget k != 0) || (mode == 3 && decide (15 < cpyTarget k))
    || (mode == 2 && !s.corePresent (cpyTarget k))
    || cpyWin k != (cpyMcast k != 0) || (!cpyWin k && cpyWidx k != 0)
    || (k.srcLocal && fld k.w1 63 18 != 0) || (k.dstLocal && fld k.w2 63 18 != 0) || (cpyWin k && fld k.w2 63 24 != 0)
    || cpyRow k == 0 || cpyRows k == 0
    || (cpyWin k && cpyDpitch k != 0 && cpyDpitch k * 64 != cpyRow k)

/-- A local endpoint that leaves the scratchpad in some row (R330). -/
def cpySrcOutside (k : CopyCmd) : Bool :=
  k.srcLocal && decide (196608 < fld k.w1 17 0 + 64 * cpySpitch k * (cpyRows k - 1) + cpyRow k)
def cpyOutside (k : CopyCmd) : Bool :=
  cpySrcOutside k || (k.dstLocal && decide (196608 < fld k.w2 17 0 + 64 * cpyDpitch k * (cpyRows k - 1) + cpyRow k))

/-! ## Issue (R326, R331, R334) -/

/-- Commands of the FIFO that have not started. -/
def Core.fifo (c : Core) : List CopyCmd := c.copies.filter (fun k => !k.started)

/-- The two near vaults of a core's cluster (R64). -/
def nearVaults (core : Nat) : List Nat :=
  [rankOf core / 4 * 16 + fileOf core / 2, rankOf core / 4 * 16 + 8 + fileOf core / 2]

/-- A global endpoint of a command is seen to lie in HBM as the command issues. -/
def State.endsInHbm (s : State) (k : CopyCmd) : Bool :=
  let hbm := fun (a : Word) => decide (a.toNat < 2 ^ 55) && (match (s.hintPage a.toNat).1 with
    | some e => e.kind == 0
    | none => false)
  (!k.srcLocal && hbm k.w1) || (!k.dstLocal && !cpyWin k && hbm k.w2)

/-- The booked-task limits of a copy (R192, R334): an HBM endpoint without an HBM claim is refused where its first byte's translation shows
it (log entry 100). -/
def copyBooked (s : State) (k : CopyCmd) : M Unit :=
  if !s.booked then .ok ()
  else if !s.holdsClaim 4 none then bookedNow s 3
  else if !s.holdsClaim 9 none && s.endsInHbm k then bookedNow s 3
  else if cpyGlobal k && !s.holdsClaim 9 none && !(nearVaults s.cn).any (fun v => s.holdsClaim 8 (some v)) then bookedNow s 3
  else .ok ()

/-- The command as captured (R60). -/
def State.captureCopy (s : State) (a : Grp) : CopyCmd :=
  { id := s.nextId, slot := s.core.cur, wp := s.core.res.wp, task := s.sx.task.id, src := s.sx.task.src,
    w0 := s.ws.getS (grpReg a 0), w1 := s.ws.getS (grpReg a 1), w2 := s.ws.getS (grpReg a 2), w3 := s.ws.getS (grpReg a 3),
    vfn := s.vfn, atp := s.ws.atp, user := !s.sup, booked := s.booked, pc := s.ws.pc, started := false, parked := false,
    pos := 0, vt := 0, pend := 0, fault := none, faddr := 0, flags := 0, bad := 0, hbm := false, last := 0, beats := 0 }

/-- An accepted command: counted, and started or, when it can move nothing, completed (R326, R330). -/
def State.pushCopy (s : State) (k : CopyCmd) : State :=
  let fault := if s.malformed k then some 0x24 else if cpyOutside k then some 0x08 else none
  let k := { k with
    fault := fault, started := fault.isSome,
    faddr := if fault = some 0x08 then (if cpySrcOutside k then k.w1 else k.w2) else 0 }
  let s := { s with core := { s.core with copies := s.core.copies ++ [k] }, nextId := s.nextId + 1 }
  let s := s.onSlot (fun x => { x with outCopies := x.outCopies + 1 })
  if fault.isSome then s.post s.pkg.ptime (.copyCompletion s.cn k.id) else s.postOnce (.copyStart s.cn)

/-- The waits of a copy at issue (R61, R326, R331). -/
def copyWaits (s : State) (k : CopyCmd) : M Unit := do
  if cpyMode k = 1 ∧ s.core.tokenPending (fin32 (cpyToken k)) then waitNow s 0x22 0x02 (cpyToken k) else pure ()
  let need := bit01 k.srcLocal + bit01 k.dstLocal
  if !s.malformed k ∧ !cpyOutside k ∧ 32 < s.heldCount + need then waitNow s 0x28 0x0A 0 else pure ()

/-- `cpy` (R326). -/
def execCpy (a : Grp) (la : Bool) (s : State) : Host.Outcome State Fault Refusal := finish (do
  tokensReady s (grpRegs a)
  accessReady s
  let k := s.captureCopy a
  copyBooked s k
  if 16 ≤ s.core.fifo.length then waitNow s 0x28 0x0A 0 else pure ()
  copyWaits s k
  .ok ((s.pushCopy k).done [(la, grpReg a 0)]))

/-- `cpy.nb` (R326). -/
def execCpyNb (d : SReg) (a : Grp) (la : Bool) (s : State) : Host.Outcome State Fault Refusal := finish (do
  tokensReady s (d :: grpRegs a)
  accessReady s
  let k := s.captureCopy a
  copyBooked s k
  if 16 ≤ s.core.fifo.length then .ok (s.doneS d [(la, grpReg a 0)] 1)
  else do
    copyWaits s k
    .ok ((s.pushCopy k).doneS d [(la, grpReg a 0)] 0))

/-- `cpq` (R336): the clear keeps the completions of its own cycle (R7). -/
def execCpq (d a : SReg) (la : Bool) (s : State) : Host.Outcome State Fault Refusal := finish (do
  tokensReady s [a]
  let clear := (s.ws.getS a).getLsbD 0
  needPriv s (!clear || s.sup)
  tokensReady s [d]
  let c := s.core
  let w := BitVec.ofNat 64 (16 - min 16 c.fifo.length + min c.copies.length 255 * 256 + c.orphan * 65536)
  let s := if clear then s.setCore { c with orphan := c.freshAt 0 s.pkg.ptime } else s
  .ok (s.doneS d [(la, a)] w))

/-! ## The engine (R329 to R333) -/

def State.onCopy (s : State) (core id : Nat) (f : CopyCmd → CopyCmd) : State :=
  s.onCore core (fun c => { c with copies := c.copies.map (fun k => if k.id = id then f k else k) })

/-- The cores of a multicast mask (R36, R327). -/
def mcastCores (core mask : Nat) : List Nat :=
  ((List.range 8).filter (fun i => mask.testBit i)).map (fun i => coreAt (clusterOf core) i)

/-- A command that has a line to move, unless it waits for a walk. -/
def State.copyReady (s : State) (core : Nat) (k : CopyCmd) : Bool :=
  k.started && !k.parked && k.fault.isNone && decide (k.pos < k.total) && !s.walkingAny (clusterOf core) (.copy core k.id)

/-- A line of a core's commands is due. -/
def State.lineDue (s : State) (core : Nat) : Bool :=
  s.pending.any (fun x => match x.2 with
    | .copyLineMove c _ => c == core
    | _ => false)

/-- A line of the command goes under a COPYBW claim that its launch holds in the present tempo. -/
def State.lineClaimed (s : State) (core : Nat) (k : CopyCmd) : Bool := k.booked && s.claimOf core k.src 4 none

/-- The lines that a core's FIFO has moved in this cycle. -/
def State.fifoBeats (s : State) (core : Nat) : Nat :=
  (s.coreOf core).copies.foldl (fun n k => if k.last = s.pkg.ptime then n + k.beats else n) 0

/-- The FIFO's part of the eight lines that its cluster may move in this cycle, where the FIFOs with a line due share what is left; only
those under a COPYBW claim count beside a command that has one (R331). -/
def State.fifoShare (s : State) (core : Nat) (claimed : Bool) : Nat :=
  let copied := (s.cluster (clusterOf core)).copied
  let left := 8 - (if copied.1 = s.pkg.ptime then copied.2 else 0)
  let others := (s.pending.filter (fun x => match x.2 with
    | .copyLineMove c id => decide (x.1 ≤ s.pkg.ptime) && c != core && clusterOf c == clusterOf core
        && (!claimed || (s.coreOf c).copies.any (fun k => k.id == id && s.lineClaimed c k))
    | _ => false)).length
  (left + s.fifoBeats core + others) / (others + 1)

/-- After a line of command `id` the turn passes to the FIFO's next one (R331): a command under a COPYBW claim, else the one after it. The
beats of multicasts meet those of other cores by rising number (R133), so a FIFO moves its part of them at once and goes on in the next cycle. -/
def State.nextLine (s : State) (core id : Nat) : State :=
  if s.lineDue core then s
  else
    let ks := (s.coreOf core).copies
    let ready := ((ks.filter (fun k => id < k.id)) ++ (ks.filter (fun k => k.id ≤ id))).filter (s.copyReady core)
    match (match ready.find? (s.lineClaimed core) with
      | some k => some k
      | none => ready.head?) with
    | some k =>
      let spent := cpyWin k && decide (s.fifoShare core (s.lineClaimed core k) ≤ s.fifoBeats core)
      s.post (s.pkg.ptime + bit01 spent) (.copyLineMove core k.id)
    | none => s

/-- The copy engine of a core's cluster has moved its 512 bytes of this cycle (R331). -/
def State.linesSpent (s : State) (core : Nat) : Bool :=
  let x := (s.cluster (clusterOf core)).copied
  x.1 == s.pkg.ptime && decide (8 ≤ x.2)
def State.spendLine (s : State) (core : Nat) : State :=
  s.onCluster (clusterOf core) (fun c => { c with
    copied := (s.pkg.ptime, if c.copied.1 = s.pkg.ptime then c.copied.2 + 1 else 1) })

/-- COPY_START (R331): the oldest command of the FIFO starts while fewer than four are in progress and none of its context's
release stores and atomics is still queued; multicast targets are checked at their ports (R333). -/
def execCopyStart (core : Nat) (s : State) : Host.Outcome State Fault Refusal :=
  let c := s.coreOf core
  match c.fifo with
  | [] => .next s
  | k :: _ =>
    if 4 ≤ (c.copies.filter (fun x => x.started)).length ∨ (c.slot k.slot).relq.any (fun e => e.op.writes) then .next s
    else
      let refused := (List.range 8).filter (fun i => (cpyMcast k).testBit i &&
        (s.winEntry (coreAt (clusterOf core) i) (cpyWidx k)).refuses none (fld k.w2 23 0) k.total k.vfn != 0)
      let bad := refused.foldl (fun (m : BitVec 8) i => m ||| BitVec.twoPow 8 i) 0
      let s := s.onCopy core k.id (fun k => { k with started := true, bad := bad })
      .next ((s.again (.copyStart core)).again (.copyLineMove core k.id))

/-- A command that has moved its last byte or has failed completes when each of its writes has returned its `vt` (R112). -/
def State.copyEnds (s : State) (core id : Nat) : State :=
  if (s.coreOf core).copies.any (fun k => k.id == id && k.pend == 0 && (k.fault.isSome || decide (k.total ≤ k.pos))) then
    s.postOnce (.copyCompletion core id)
  else s

/-- A copy's write returns its `vt` (R112). -/
def State.copyAcked (s : State) (core id vt : Nat) : State :=
  (s.onCopy core id (fun k => { k with pend := k.pend - 1, vt := max k.vt vt })).copyEnds core id

/-- A command ends with a fault of the access at an address: what it has delivered stays (R210, R211, R330). -/
def State.copyFails (s : State) (core id reason : Nat) (addr : Word) : State :=
  ((s.onCopy core id (fun k => { k with fault := some reason, faddr := addr, parked := false })).copyEnds core id).nextLine core id

/-- A non-present page of a copy (R34): the other commands of its FIFO go on (R331). -/
def State.copyAbsent (s : State) (core : Nat) (k : CopyCmd) (a : Word) (need : Need) (vpn level : Nat) : State :=
  if !k.booked ∧ (s.cluster (clusterOf core)).fbctl.getLsbD 0 then
    ((s.onCopy core k.id (fun k => { k with parked := true, faddr := a })).parkLater (clusterOf core) (.copy core k.id) need.ak k.vfn vpn
      level).nextLine core k.id
  else s.copyFails core k.id 0x02 a

/-- Where a global endpoint of a booked copy may not lie (R192, R334): HBM without an HBM claim too (log entry 100). The claims bind the task
that issued it while that runs booked: a copy that outlives it goes on (R378). -/
def State.copyRefused (s : State) (core : Nat) (k : CopyCmd) (sp : Span) : Bool :=
  let t := ((s.coreOf core).sx k.slot).task
  let bound : Bool := t.id == k.task && t.booked
  k.booked && sp.any (fun e => e.1.dev || decide (2 ≤ e.1.kind) || (e.1.kind == 1 && !nearVault core e.1)
    || (bound && e.1.kind == 0 && !s.claimOf core k.src 9 none)
    || (bound && e.1.kind == 1 && !s.claimOf core k.src 8 (some e.1.vault)))

/-- One element of a reduction (R69, R332): the new value and its flags. -/
def ropApply (rop : Nat) (f : Fmt) (o b : Nat) : Nat × Flags :=
  match Fmt.cls f with
  | .flt l => if rop = 1 then l.add .rne o b else l.minMax (rop == 3) o b
  | .int t => (match rop with
    | 1 => (o + b) % 2 ^ t.bits
    | 2 => if t.value b < t.value o then b else o
    | 3 => if t.value o < t.value b then b else o
    | 4 => o &&& b
    | _ => o ||| b, 0)
  | .taper _ _ => (o, 0)

/-- The points of a reduction's scope hold the lines of an access, or are asked for them (R67, R69). -/
def State.reducePoints (s : State) (core : Nat) (k : CopyCmd) (sp : Span) : Bool × State :=
  let sc := Scope.ofCode (cpyScope k)
  let lacking := fun (s : State) => sp.lines.find? (fun l => !(s.pointReady l.2 l.1 sc true))
  ((lacking { s with cn := core, core := s.coreOf core, others := if core = s.cn then s.others else mapSet (mapDel s.others core) s.cn s.core }).isNone,
    s.asCore core k.slot (fun s => match lacking s with
      | some l => s.askPoint l.2 l.1 sc true
      | none => s))

/-- The elements of a reduction from place `p` on, each at the executing point of its scope, which returns its `vt` (R67, R69, R85), on a
tile's line at its owner's slice (R97): their flags. -/
def State.reduceInto (s : State) (core : Nat) (k : CopyCmd) (p : Place) (bs : List Byte) (n : Nat) : Flags × State :=
  match n with
  | 0 => (0, s)
  | n + 1 =>
    let e := cpyElem k
    let sc := Scope.ofCode (cpyScope k)
    let sp : Span := [(p, e)]
    let s := if p.coherent ∧ (s.entry (p.line 0)).st = 3 then s.engineWrite core sp (.copy core k.id)
      else s.asCore core k.slot (fun s => (s.takePoint p (p.line 0) sc).lineWrite (p.line 0) p (some sc) (.copy core k.id))
    let r := ropApply (cpyRop k) (Fmt.ofCode (cpyFmt k)) (ofBytes (s.readSpan sp)) (ofBytes (bs.take e))
    let s := ((s.countKmisses core sp).writeSpan sp (toBytes e r.1)).ownVault core p e
    let t := s.reduceInto core k { p with pa := p.pa + e } (bs.drop e) n
    (r.2 ||| t.1, t.2)

/-- `n` bytes have moved (R397 counts the line) with `w` writes to be acknowledged and a `vt` already known: the command goes on
or completes with its last byte. -/
def State.copyMoved (s : State) (core id n w vt : Nat) (fl : Flags) : State :=
  let s := s.onCopy core id (fun k => { k with
    pos := k.pos + n, vt := max k.vt vt, flags := k.flags ||| fl, pend := k.pend + w, last := s.pkg.ptime,
    beats := if k.last = s.pkg.ptime then k.beats + 1 else 1 })
  match (s.coreOf core).copies.find? (fun k => k.id == id) with
  | some k => ((s.count core 0x012 k.vfn).copyEnds core id).nextLine core id
  | none => s

/-- A reduction at a global destination (R69, R106, R332). -/
def State.copyReduce (s : State) (core : Nat) (k : CopyCmd) (d : Word) (sp : Span) (bs : List Byte) : State :=
  let n := bs.length
  match sp with
  | [] => s
  | (p, _) :: _ =>
    let port := s.portAtomics p.pa && cpyRop k == 1 && decide (cpyFmt k < 8) && decide (4 ≤ cpyElem k)
    if p.kind = 3 ∨ (p.kind = 2 ∧ !p.cach ∧ !port) then s.copyFails core k.id 0x21 d
    else if (s.spanFault sp).isSome then s.copyFails core k.id 0x23 d
    else
      match s.reducePoints core k sp with
      | (false, s) => s.again (.copyLineMove core k.id)
      | (true, s) =>
        let r := (s.enginePay core k.booked sp).reduceInto core k p bs (n / cpyElem k)
        r.2.copyMoved core k.id n (n / cpyElem k) 0 r.1

/-- A multicast line delivered to every target that passed its check, by rising core number (R133, R333); each delivery takes a
token (R71). -/
def State.copyCast (s : State) (core : Nat) (k : CopyCmd) (d : Nat) (bs : List Byte) : State :=
  let cores := ((List.range 8).filter (fun i => (cpyMcast k).testBit i && !k.bad.getLsbD i)).map (fun i => coreAt (clusterOf core) i)
  let s := if k.booked then s else s.onCore core (fun c => c.pay k.vfn (cores.filter (· != core)).length)
  cores.foldl (fun s c => s.beats c core (cpyWidx k) d bs (if k.user then some (core, k.slot, 2) else none)) s

/-- The write of a line's bytes at destination `d` (R97, R106, R328, R333). -/
def State.copyWrite (s : State) (core : Nat) (k : CopyCmd) (d : Word) (bs : List Byte) : State :=
  let n := bs.length
  let now := s.ptimeOf (dieOf core)
  if k.dstLocal then (s.engineStore core k.slot (some k.task) k.user 2 d.toNat bs).copyMoved core k.id n 0 now 0
  else if cpyWin k then (s.copyCast core k d.toNat bs).copyMoved core k.id n 0 now 0
  else
    match s.engineSpan (.copy core k.id) core k.atp k.user (if cpyRop k = 0 then .store else .both) d n with
    | (.ok sp, s) =>
      let s := s.onCopy core k.id (fun k => { k with hbm := k.hbm || sp.any (fun e => e.1.kind == 0) })
      if s.copyRefused core k sp || sp.any (fun e => s.unmapped e.1) then s.copyFails core k.id 0x24 d
      else if sp.lines.any (fun l => l.2.coherent && s.tileRefuses core l.1) then s.copyFails core k.id 0x20 d
      else if cpyRop k = 0 then
        match s.enginePut core k.booked sp bs (.copy core k.id) with
        | some s => s.copyMoved core k.id n sp.lines.length 0 0
        | none => s.copyFails core k.id 0x20 d
      else s.copyReduce core k d sp bs
    | (.bad reason, s) => s.copyFails core k.id reason d
    | (.absent vpn level, s) => s.copyAbsent core k d .store vpn level
    | (.wait, s) => s.nextLine core k.id

/-- The source and destination of the byte at the command's position, and the bytes of its line (R329, R331, R333). -/
def CopyCmd.chunk (k : CopyCmd) : Word × Word × Nat :=
  let r := k.pos / cpyRow k
  let col := k.pos % cpyRow k
  let src := k.w1 + BitVec.ofNat 64 (64 * cpySpitch k * r + col)
  let dst := k.w2 + BitVec.ofNat 64 ((if cpyWin k then cpyRow k * r else 64 * cpyDpitch k * r) + col)
  (src, dst, min (cpyRow k - col) (64 - dst.toNat % 64))

/-- A line under a COPYBW claim is due in the cluster's FIFOs (R331). -/
def State.claimedLineDue (s : State) (core : Nat) : Bool :=
  s.pending.any (fun x => match x.2 with
    | .copyLineMove c id => decide (x.1 ≤ s.pkg.ptime) && clusterOf c == clusterOf core
        && (s.coreOf c).copies.any (fun k => k.id == id && s.lineClaimed c k)
    | _ => false)

/-- The line that a FIFO moves: of the command whose turn it is, unless another of its commands has a COPYBW claim and that one none
(R331). -/
def State.lineTaken (s : State) (core : Nat) (k : CopyCmd) : CopyCmd :=
  if s.lineClaimed core k then k
  else ((s.coreOf core).copies.find? (fun q => s.lineClaimed core q && s.copyReady core q)).getD k

/-- One line of a copy in progress is read and written (R331). -/
def State.moveLine (s : State) (core : Nat) (k : CopyCmd) : State :=
  let (src, dst, n) := k.chunk
  let s := s.spendLine core
  if k.srcLocal then
    if ((s.coreOf core).padFault src.toNat n).isSome then s.copyFails core k.id 0x23 src
    else
      let (bs, s) := s.engineLoad core k.slot (some k.task) k.user 2 src.toNat n
      s.copyWrite core k dst bs
  else
    match s.engineSpan (.copy core k.id) core k.atp k.user .load src n with
    | (.ok sp, s) =>
      let s := s.onCopy core k.id (fun k => { k with hbm := k.hbm || sp.any (fun e => e.1.kind == 0) })
      if s.copyRefused core k sp then s.copyFails core k.id 0x24 src
      else
        match s.engineBad sp with
        | some reason => s.copyFails core k.id reason src
        | none =>
          let (bs, s) := s.engineGet core k.booked sp
          s.copyWrite core k dst bs
    | (.bad reason, s) => s.copyFails core k.id reason src
    | (.absent vpn level, s) => s.copyAbsent core k src .load vpn level
    | (.wait, s) => s.nextLine core k.id

/-- COPY_LINE_MOVE (R331): one 64-byte line of a copy in progress, eight in a cycle and cluster; those under a COPYBW claim have had their
turn in this cycle (`State.copyTurn`). -/
def execCopyLineMove (core id : Nat) (s : State) : Host.Outcome State Fault Refusal :=
  match (s.coreOf core).copies.find? (fun k => k.id == id) with
  | none => .next s
  | some k =>
    let k := s.lineTaken core k
    if !s.copyReady core k then .next (s.nextLine core id)
    else if s.linesSpent core then .next (s.once (s.pkg.ptime + 1) (.copyLineMove core k.id))
    else .next (s.moveLine core k)

/-! ## Completion (R151, R331, R335) -/

/-- Parts of a workspace changed in its image. -/
def Core.onImage (c : Core) (wp : Nat) (f : Ws → Ws) (parts : List Nat) : Core :=
  let w := f (c.loadWs wp false)
  parts.foldl (fun c i => c.savePart wp w i) c

/-- A workspace changed where it is held, or in its image; on a stopped core, whose resident workspaces have been written back, in both
(R390). -/
def Core.onWsAt (c : Core) (wp : Nat) (f : Ws → Ws) (parts : List Nat) : Core :=
  let alt := match c.alt with
    | some a => a.wp == wp
    | none => false
  if c.res.wp != wp ∧ !alt then c.onImage wp f parts
  else
    let c := if c.dbg.dstat.getLsbD 0 then c.onImage wp f parts else c
    if c.res.wp = wp then c.onWs f
    else { c with alt := c.alt.map (fun a => { a with ws := f a.ws }) }

/-- The token register's value (R331): BYTES, and bit 63 on a fault. -/
def tokenWord (bytes : Nat) (fault : Bool) : Word := BitVec.ofNat 64 (min bytes 4294967295 + bit01 fault * 2 ^ 63)

/-- The decision on an arrival of a slot (R360): 0 OK, 1 NOTMEMBER, 2 AGAIN, 3 FORCED. -/
def State.arrivalAt (s : State) (core : Nat) (i : SlotId) (b : Fin 16) : Nat :=
  if !s.isMember core i b then 1
  else if s.hasArrived core i b || ((s.coreOf core).slot i).arrivalQueued b.val || s.pending.any (fun p => p.2 == .barrierArrival core i b.val) then 2
  else if ((s.cluster (clusterOf core)).node[b]).skip &&& nodeBit core i != 0 then 3
  else 0

/-- SKIP of a slot is used up (R360). -/
def State.useSkip (s : State) (core : Nat) (i : SlotId) (b : Fin 16) : State :=
  s.onCluster (clusterOf core) (fun c => c.onNode b (fun m => { m with skip := m.skip &&& ~~~(nodeBit core i) }))

/-- The arrival that a copy performs for its context (R331, R360). -/
def State.copyArrives (s : State) (core : Nat) (i : SlotId) (b : Nat) : State :=
  match s.arrivalAt core i (fin16 b) with
  | 0 => s.post s.pkg.ptime (.barrierArrival core i b)
  | 3 => s.useSkip core i (fin16 b)
  | _ => s

/-- A booked copy with an HBM endpoint that has completed past the bound of R194 is counted (R195). -/
def State.countBroken (s : State) (core : Nat) (k : CopyCmd) : State :=
  if k.booked ∧ k.hbm ∧ k.last + 1536 < s.pkg.ptime then
    s.onCore core (fun c => { c with latecnt := setFld c.latecnt 47 32 (min (fld c.latecnt 47 32 + 1) 65535) })
  else s

/-- A copy that has ended reports to its context while that runs its task still: its writes, its flags, its token, its arrival (R112, R151,
R331, R335). The writes of modes 2 and 3 are visible by then. -/
def State.copyReports (s : State) (core : Nat) (k : CopyCmd) (fault : Bool) : State :=
  let s := if 2 ≤ cpyMode k then s
    else s.engineDone core k.slot 1 (if cpyMode k = 1 then .token k.wp (fin32 (cpyToken k)) else .count) k.vt
  let s : State := if k.flags = 0 then s else s.onCore core (fun c => c.onWsAt k.wp (fun w => w.setFlags k.flags) [95])
  if cpyMode k = 1 then
    s.onCore core (fun c => c.onWsAt k.wp (fun w => w.setS (fin32 (cpyToken k)) (tokenWord k.pos fault)) [cpyToken k, 97])
  else if cpyMode k = 3 ∧ !fault then s.copyArrives core k.slot (cpyTarget k)
  else s

/-- COPY_COMPLETION (R331, R333, R335): counted and reported by CMODE; modes 2 and 3 wait for the writes to be visible. -/
def execCopyCompletion (core id : Nat) (s : State) : Host.Outcome State Fault Refusal :=
  match (s.coreOf core).copies.find? (fun k => k.id == id) with
  | none => .next s
  | some k =>
    let now := s.releaseTime (dieOf core)
    if k.pend ≠ 0 ∨ (k.fault.isNone ∧ k.pos < k.total) then .next s
    else if 2 ≤ cpyMode k ∧ now < k.vt then .next (s.post (s.pkg.ptime + (k.vt - now)) (.copyCompletion core id))
    else
      let fault := match k.fault with
        | some r => some r
        | none => if k.bad = 0 then none else some 0x24
      let live := decide (((s.coreOf core).sx k.slot).task.id = k.task)
      let s : State := s.onCore core (fun c => { c with copies := c.copies.filter (fun q => q.id != id) }.onSlot k.slot (fun y =>
        { y with outCopies := y.outCopies - 1 }))
      let good := (List.range 8).filter (fun i => k.fault.isNone && (cpyMcast k).testBit i && !k.bad.getLsbD i)
      let s : State := good.foldl (fun s i => s.onWin (coreAt (clusterOf core) i) (cpyWidx k) WinEntry.arrive) s
      let s : State := if live then s.copyReports core k fault.isSome
        else s.countOrphan core
      let s : State := match fault with
        | some r => s.engineFault core k.slot (some k.task) false (faultOf false r k.pos (if cpyMode k = 1 then cpyToken k else 0) k.faddr k.pc)
        | none => s.countBroken core k
      let w0 := BitVec.ofNat 64 (min k.pos 4294967295 + cpyToken k * 4294967296 + bit01 fault.isSome * 2 ^ 37)
      let msg : Msg := { hwMsg 3 core k.vfn w0 0 with sctx := k.slot.val }
      let s : State := if cpyMode k = 2 ∧ s.corePresent (cpyTarget k) then s.sendMsg (cpyTarget k) msg else s
      .next (s.postOnce (.copyStart core))

/-- A parked copy goes on, or ends with DELIVERED (R39, R40). -/
def State.unparkCopy (s : State) (core id : Nat) (deliver : Bool) : State :=
  if !(s.coreOf core).copies.any (fun k => k.id == id && k.parked) then s
  else if deliver then s.copyFails core id 0x22 (((s.coreOf core).copies.find? (fun k => k.id == id)).elim 0 CopyCmd.faddr)
  else (s.onCopy core id (fun k => { k with parked := false })).again (.copyLineMove core id)

end Sys2Proof.Machine
end

