-- ==== Sys2Proof/Machine/Matrix.lean ====
section
/-! DEFINITION. The matrix array: sittings and palettes, operand loads, products, accumulators (spec/12 R337 to R348; spec/05
R154). -/
namespace Sys2Proof.Machine

/-! ## Palettes (R338) -/

/-- The pass depth of a palette, none when R338 does not list it. -/
def palDepth (pal : BitVec 11) : Option Nat :=
  let a := palA pal
  let b := palB pal
  let both := fun (l : List Nat) => l.contains a && l.contains b
  if pal.getLsbD 10 then (if a = 11 ∧ b = 11 then some 64 else none)
  else if both [10, 11] then some 256
  else if both [12, 13, 15] then some 512
  else if both [0, 4] then some 512
  else if both [16] then some 1024
  else if both [14] then some 2048
  else none

def palMom (pal : BitVec 11) : Bool := pal.getLsbD 10
/-- The accumulator of the palette is i32. -/
def palInt (pal : BitVec 11) : Bool := !palMom pal && (palA pal == 0 || palA pal == 4)

/-- A matrix command refused at issue: precise MX with its reason (R341). -/
def mxNow {α : Type} (s : State) (reason : Nat) : M α := trapNow s 0x15 reason 0 0

def State.array (s : State) : MxArray := (s.cluster s.cl).arr
def State.onArray (s : State) (cl : Nat) (f : MxArray → MxArray) : State := s.onCluster cl (fun c => { c with arr := f c.arr })

/-! ## Sittings (R339, R340) -/

/-- The context slot holds the sitting. -/
def MxArray.sits (a : MxArray) (core : Nat) (i : SlotId) : Bool :=
  match a.sit with
  | some x => x.core == core && x.slot == i
  | none => false

/-- The request granted next (R339): under an ARRAY claim first, then the oldest, then the lower core. -/
def State.nextSitting (s : State) (cl : Nat) : Option Sitting :=
  let reqs := (s.cluster cl).arr.reqs
  match reqs.find? (fun r => s.claimAt r.core r.slot 2 none) with
  | some r => some r
  | none => reqs.head?

/-- Zeroed stage and weight slots (R337). -/
def OpSlot.clear (o : OpSlot) : OpSlot :=
  { o with data := o.data.map (fun r => r.map (fun _ => 0)), scales := o.scales.map (fun r => r.map (fun _ => 0)) }

/-- A slot as command `id` finds it: cleared when a sitting of another VFN began between the two (R337). -/
def MxArray.seen (a : MxArray) (o : OpSlot) (id : Nat) : OpSlot :=
  if a.wipes.any (fun t => decide (o.byId < t) && decide (t ≤ id)) then o.clear else o

/-- The marks that some slot or queued load still needs. -/
def MxArray.liveWipes (a : MxArray) : List Nat :=
  a.wipes.filter (fun t => a.stage.any (fun x => decide (x.2.byId < t)) || a.weight.any (fun x => decide (x.2.byId < t))
    || a.queue.any (fun k => decide (k.id < t)))

/-- The array goes to a request (R337, R339): one of another VFN finds the stage and the weight buffer cleared, once the commands
already issued have used them. -/
def State.grantSitting (s : State) (cl : Nat) : State :=
  let a := (s.cluster cl).arr
  match a.sit, s.nextSitting cl with
  | none, some r =>
    let c := s.coreOf r.core
    let vfn := fld (c.atpOf (c.slot r.slot).wp) 5 0
    s.onArray cl (fun a => { a with
      sit := some { r with last := s.pkg.ptime },
      reqs := a.reqs.filter (fun x => x != r),
      wipes := if vfn = a.lastVfn then a.wipes else a.liveWipes ++ [s.nextId],
      lastVfn := vfn,
      lastPal := (c.sx r.slot).palette })
  | _, _ => s

/-- SITTING_GRANT (R339). -/
def execSittingGrant (cl : Nat) (s : State) : Host.Outcome State Fault Refusal := .next (s.grantSitting cl)

/-- The sitting in progress ends and the next one is granted. -/
def State.endSitting (s : State) (cl : Nat) : State :=
  (s.onArray cl (fun a => { a with sit := none })).post s.pkg.ptime (.sittingGrant cl)

/-- SITTING_EXPIRY (R340): 4,096 cycles without a matrix command while another request waits. The spec does not say from when they are counted:
the model counts from the grant and from each counted command, whenever the other request came, and `mxpal` and `mxrel` do not count (log
entry 118). -/
def execSittingExpiry (cl : Nat) (s : State) : Host.Outcome State Fault Refusal :=
  let a := (s.cluster cl).arr
  match a.sit with
  | none => .next s
  | some x =>
    if a.reqs.isEmpty then .next s
    else if x.last + 4096 ≤ s.pkg.ptime then .next (s.endSitting cl)
    else .next (s.post (x.last + 4096) (.sittingExpiry cl))

/-- n of `sit` (R339): s[A] as a signed value between 1 and 64. -/
def sitCount (x : Word) : Nat := (Min.min (Max.max x.toInt 1) 64).toNat

/-- The launch of a slot's task holds the sitting (R339). -/
def State.launchSits (s : State) : Bool :=
  match s.array.sit, s.sx.task.src with
  | some x, .unit d rn _ =>
    match ((s.coreOf x.core).sx x.slot).task.src with
    | .unit d' rn' _ => d == d' && rn == rn'
    | _ => false
  | _, _ => false

/-- The request of the current slot for a sitting of `n` commands. -/
def State.askSitting (s : State) (n : Nat) : State :=
  if s.array.reqs.any (fun x => x.core == s.cn && x.slot == s.core.cur) then s
  else s.onArray s.cl (fun a => { a with reqs := a.reqs ++ [{ core := s.cn, slot := s.core.cur, n := n, last := 0 }] })

/-- `sit` (R339). A request of a free task for an idle array is granted in the next cycle, when every request of this one is known, those under
an ARRAY claim first. -/
def execSit (d a : SReg) (la : Bool) (s : State) : Host.Outcome State Fault Refusal := finish (do
  tokensReady s [d, a]
  let n := sitCount (s.ws.getS a)
  let take := fun (s : State) =>
    (s.onArray s.cl (fun r => { r with sit := r.sit.map (fun x => { x with n := n }) })).doneS d [(la, a)] (BitVec.ofNat 64 n)
  if s.booked && !s.holdsClaim 2 none then bookedNow s 3
  else if s.array.sits s.cn s.core.cur then .ok (take s)
  else
    let t := if s.booked then (s.askSitting n).grantSitting s.cl else s.askSitting n
    if t.array.sits s.cn s.core.cur then .ok (take t)
    else if s.booked then waitNow s 0x2B (if s.launchSits then 0x05 else 0x0D) 0
    else match t.array.sit with
      | none => stallNow (t.once (t.pkg.ptime + 1) (.sittingGrant t.cl)) 0x2B
      | some x => waitNow (t.post (Max.max t.pkg.ptime (x.last + 4096)) (.sittingExpiry t.cl)) 0x2B 0x05 0)

/-- `unsit` (R339). -/
def execUnsit (s : State) : Host.Outcome State Fault Refusal :=
  .next ((if s.array.sits s.cn s.core.cur then s.endSitting s.cl else s).retire)

/-- `mxpal` (R338): a tapered format without feature bit 1 is ILLEGAL (R422). -/
def execMxpal (a : SReg) (la : Bool) (s : State) : Host.Outcome State Fault Refusal := finish (do
  tokensReady s [a]
  let x := s.ws.getS a
  let pal := x.setWidth 11
  let tapered := fun (f : Nat) => f == 15 || f == 16
  if !s.pkgx.enabled.getLsbD 1 ∧ (tapered (palA pal) ∨ tapered (palB pal)) then illegalNow s else pure ()
  if fld x 63 11 ≠ 0 ∨ (palDepth pal).isNone then mxNow s 0x41 else pure ()
  .ok ((s.onSx (fun y => { y with palette := pal })).done [(la, a)]))

/-! ## Issue of a counted command (R340, R341, R346) -/

/-- A counted command needs the sitting (R340). -/
def sittingGate (s : State) : M Unit := if s.array.sits s.cn s.core.cur then .ok () else mxNow s 0x40

/-- The command as captured at issue (R60, R338). -/
def State.mxCapture (s : State) (op : MxOp) : MxCmd :=
  { id := s.nextId, core := s.cn, slot := s.core.cur, wp := s.core.res.wp, task := s.sx.task.id, op := op,
    pal := s.sx.palette, vfn := s.vfn, atp := s.ws.atp, user := !s.sup, pc := s.ws.pc, started := false, parked := false,
    pos := 0, vt := 0, pend := 0, flags := 0, nv := false, ended := none, faddr := 0 }

/-- Room among the held ranges (R61). -/
def mxHoldGate (s : State) (k : MxCmd) : M Unit :=
  if k.endpoints ≠ 0 ∧ 32 < s.heldCount + k.endpoints then waitNow s 0x28 0x0A 0 else .ok ()

/-- The command joins the array's queue; its sitting counts it and ends with the n-th (R340, R346). -/
def State.mxIssue (s : State) (k : MxCmd) : State :=
  let s := { s with nextId := s.nextId + 1 }
  let s := s.onArray s.cl (fun a => { a with
    queue := a.queue ++ [k],
    sit := a.sit.map (fun x => { x with n := x.n - 1, last := s.pkg.ptime }) })
  let s := s.onSlot (fun x => { x with outMatrix := x.outMatrix + 1 })
  let s := s.post (s.pkg.ptime + engineGap) (.matrixCommandStart s.cl k.id)
  match s.array.sit with
  | some x => if x.n = 0 then s.endSitting s.cl else s
  | none => s

/-! ## Operand slots as a command finds them at issue (R341, R342) -/

/-- COUNT, KD and palette of a slot after the queued loads: the last queued one, else what the slot holds. -/
def MxArray.slotShape (a : MxArray) (stage : Bool) (n : Nat) : Option (Nat × Nat × BitVec 11) :=
  let queued := a.queue.reverse.findSome? (fun q =>
    match q.op, stage with
    | .lda m _ d _, true => if m = n then some (fld d 8 0, fld d 47 32, q.pal) else none
    | .ldb m _ d _, false => if m = n then some (fld d 8 0, fld d 47 32, q.pal) else none
    | _, _ => none)
  match queued with
  | some x => some x
  | none =>
    match mapGet (if stage then a.stage else a.weight) n with
    | some o => if o.loaded then some (o.count, o.kd, o.pal) else none
    | none => none

/-! ## Handles and accumulator slots (R344) -/

def hSlots (h : Word) : List Nat := if h.getLsbD 9 then [fld h 3 0, fld h 7 4] else [fld h 3 0]

/-- A handle that names slots held by the context slot, of a kind (R344). -/
def State.handleOk (s : State) (h : Word) : Bool :=
  h.getLsbD 8 && fld h 63 11 == 0 && !(h.getLsbD 9 && h.getLsbD 10)
    && (if h.getLsbD 9 then fld h 3 0 != fld h 7 4 else fld h 7 4 == 0)
    && (hSlots h).all (fun n => match mapGet s.array.acc n with
      | some a => a.holder == some (s.cn, s.core.cur) && !a.releasing
      | none => false)

/-- Such a handle whose MOM and INT are those of the current palette (R344). -/
def State.handleFits (s : State) (h : Word) : Bool :=
  s.handleOk h && h.getLsbD 9 == palMom s.sx.palette && h.getLsbD 10 == palInt s.sx.palette

/-- SLOT claims of the current tempo that their launch has not taken (R344). -/
def State.slotsClaimed (s : State) : Nat :=
  let t := s.tempo s.dn
  let taken := fun (key : Nat) => (s.array.acc.filter (fun a => match a.2.holder with
    | some (c, i) => (match ((s.coreOf c).sx i).task.src with
      | .unit d r _ => recKey d r == key
      | _ => false)
    | none => false)).length
  ((s.cluster s.cl).cal.launches.map (fun l =>
    ((l.claims.filter (fun k => k.cls == 3 && decide (k.start ≤ t) && decide (t < k.fin))).map (fun k => k.qty)).sum - taken l.recNo)).sum

/-- The lowest `n` free slots, none when they cannot be had (R344). -/
def State.freeSlots (s : State) (n : Nat) : Option (List Nat) :=
  let free := (List.range 16).filter (fun i => (mapGet s.array.acc i).isNone)
  if free.length < n ∨ (!s.booked ∧ free.length ≤ s.slotsClaimed) then none else some (free.take n)

/-- New slots taken, and the handle (R344). -/
def State.takeSlots (s : State) (ns : List Nat) (mom int : Bool) : Word × State :=
  let h := ns.getD 0 0 + ns.getD 1 0 * 16 + 256 + bit01 mom * 512 + bit01 int * 1024
  (BitVec.ofNat 64 h, s.onArray s.cl (fun a => { a with
    acc := ns.foldl (fun l n => mapSet l n { holder := some (s.cn, s.core.cur), cells := [], releasing := false }) a.acc }))

/-- The handle that a command writing an accumulator uses: its register's, or a new one when that is 0 (R344). -/
def accGate (s : State) (h : Word) : M (Word × State) :=
  let pal := s.sx.palette
  if h ≠ 0 then
    if s.handleFits h then .ok (h, s) else mxNow s 0x42
  else
    match s.freeSlots (if palMom pal then 2 else 1) with
    | some ns => .ok (s.takeSlots ns (palMom pal) (palInt pal))
    | none => waitNow s 0x2A 0x0D 0

/-! ## The counted commands (R342, R345, R347, R348) -/

/-- A load descriptor that passes R342 under a palette. -/
def loadShapeOk (pal : BitVec 11) (weight : Bool) (d : Word) : Bool :=
  let kd := fld d 47 32
  decide (1 ≤ fld d 8 0) && decide (fld d 8 0 ≤ 256) && (weight || !d.getLsbD 10) && !d.getLsbD 11 && fld d 63 48 == 0
    && decide (32 ≤ kd) && kd % 32 == 0 && decide (kd ≤ (palDepth pal).getD 0)

/-- A load of a stage or weight slot (R342). -/
def mxLoadOp (weight : Bool) (n : Nat) (a b c : SReg) (ks : List (Bool × SReg)) (s : State) : M State := do
  tokensReady s [a, b, c]
  accessReady s
  sittingGate s
  let d := s.ws.getS b
  if loadShapeOk s.sx.palette weight d then pure () else mxNow s 0x43
  if s.booked && !d.getLsbD 9 then bookedNow s 1 else pure ()
  let k := s.mxCapture (if weight then .ldb n (s.ws.getS a) d (s.ws.getS c) else .lda n (s.ws.getS a) d (s.ws.getS c))
  mxHoldGate s k
  .ok ((s.mxIssue k).done ks)

/-- `mxlda` (R342). -/
def execMxlda (d : Fin 4) (a b c : SReg) (la lb lc : Bool) (s : State) : Host.Outcome State Fault Refusal :=
  finish (mxLoadOp false d.val a b c [(la, a), (lb, b), (lc, c)] s)
/-- `mxldb` (R342). -/
def execMxldb (d : Fin 8) (a b c : SReg) (la lb lc : Bool) (s : State) : Host.Outcome State Fault Refusal :=
  finish (mxLoadOp true d.val a b c [(la, a), (lb, b), (lc, c)] s)

/-- A product of a stage slot and a weight slot into an accumulator (R345). -/
def mxmmaOp (mom z : Bool) (d : SReg) (i j : Nat) (s : State) : M State := do
  tokensReady s [d]
  sittingGate s
  let pal := s.sx.palette
  if palMom pal != mom then mxNow s 0x41 else pure ()
  let h := s.ws.getS d
  if h ≠ 0 ∧ !s.handleFits h then mxNow s 0x42 else pure ()
  match s.array.slotShape true i, s.array.slotShape false j with
  | some (_, ka, pa), some (_, kb, pb) => if ka = kb ∧ pa = pal ∧ pb = pal then pure () else mxNow s 0x43
  | _, _ => mxNow s 0x43
  let (h, s) ← accGate s h
  .ok ((s.mxIssue (s.mxCapture (.mma i j h z))).doneS d [] h)

/-- `mxmma` (R345). -/
def execMxmma (z : Bool) (d : SReg) (a : Fin 4) (b : Fin 8) (s : State) : Host.Outcome State Fault Refusal :=
  finish (mxmmaOp false z d a.val b.val s)
/-- `mxmma.m` (R345). -/
def execMxmmaM (z : Bool) (d : SReg) (a : Fin 4) (b : Fin 8) (s : State) : Host.Outcome State Fault Refusal :=
  finish (mxmmaOp true z d a.val b.val s)

/-- A store descriptor that passes R347 for a handle. -/
def storeShapeOk (h d : Word) : Bool :=
  let rows := fld d 8 0
  let cols := fld d 56 48
  let fmts := if h.getLsbD 10 then [2] else if h.getLsbD 9 then [9, 11] else [9, 10, 11, 12, 13]
  decide (1 ≤ rows) && decide (1 ≤ cols) && decide (cols ≤ 256) && fld d 11 10 == 0 && fld d 39 37 == 0 && fld d 63 57 == 0
    && decide (fld d 47 40 + rows ≤ 256) && fmts.contains (fld d 36 32)

/-- `mxst` (R347): it captures the rounding mode and SATF, and takes its draws at issue. -/
def execMxst (rm : RM) (d a b : SReg) (la lb : Bool) (s : State) : Host.Outcome State Fault Refusal := finish (do
  tokensReady s [d, a, b]
  accessReady s
  sittingGate s
  let h := s.ws.getS d
  let desc := s.ws.getS b
  if s.handleFits h then pure () else mxNow s 0x42
  if storeShapeOk h desc then pure () else mxNow s 0x43
  if s.booked && !desc.getLsbD 9 then bookedNow s 1 else pure ()
  let m := s.ws.cvtMode rm .f32 (Fmt.ofCode (fld desc 36 32))
  let n := fld desc 8 0 * fld desc 56 48 * (if h.getLsbD 9 then 2 else 1)
  let draws := if m = .sto then srngDraws s.core.srng n else []
  let k := s.mxCapture (.st h (s.ws.getS a) desc m s.ws.satf draws)
  mxHoldGate s k
  .ok (((s.mxIssue k).afterS draws).done [(la, a), (lb, b)]))

/-- `mxrel` (R348). A register that holds 0 names no slot; the spec does not say what becomes of it: the model releases nothing and writes 0
(log entry 120). -/
def execMxrel (d : SReg) (s : State) : Host.Outcome State Fault Refusal := finish (do
  tokensReady s [d]
  let h := s.ws.getS d
  if h ≠ 0 ∧ !s.handleFits h then mxNow s 0x42 else pure ()
  let s := if h = 0 then s else s.onArray s.cl (fun a => a.release (fun n _ => (hSlots h).contains n))
  .ok (s.doneS d [] 0))

/-- `mxzero` (R348). -/
def execMxzero (d : SReg) (s : State) : Host.Outcome State Fault Refusal := finish (do
  tokensReady s [d]
  sittingGate s
  let h := s.ws.getS d
  let (h, s) ← accGate s h
  .ok ((s.mxIssue (s.mxCapture (.zero h))).doneS d [] h))

/-! ## What a command reads and writes (R346) -/

def MxOp.accs (o : MxOp) : List Nat :=
  match o with
  | .mma _ _ h _ => hSlots h
  | .st h _ _ _ _ _ => hSlots h
  | .zero h => hSlots h
  | _ => []

/-- The slots read, and those written: stage slots from 0, weight slots from 4, accumulators from 12. -/
def MxOp.rd (o : MxOp) : List Nat :=
  match o with
  | .mma i j h _ => i :: (4 + j) :: (hSlots h).map (12 + ·)
  | .st h _ _ _ _ _ => (hSlots h).map (12 + ·)
  | _ => []
def MxOp.wr (o : MxOp) : List Nat :=
  match o with
  | .lda n _ _ _ => [n]
  | .ldb n _ _ _ => [4 + n]
  | .mma _ _ h _ => (hSlots h).map (12 + ·)
  | .zero h => (hSlots h).map (12 + ·)
  | _ => []

/-- The command must let an earlier one finish first (R346). -/
def MxOp.after (o e : MxOp) : Bool :=
  e.wr.any (fun x => o.rd.contains x || o.wr.contains x) || e.rd.any (fun x => o.wr.contains x)

/-- A command waits behind a parked one of its queue (R34). -/
def MxArray.behind (a : MxArray) (id : Nat) : Bool := a.queue.any (fun e => e.parked && decide (e.id < id))

/-- The throttle holds array issue back for so many more cycles (R426): its sixteenths are the first of every 16 cycles (log entry
110). -/
def State.gatedFor (s : State) : Nat := s.pkgx.throttle - s.pkg.ptime % 16

/-- MATRIX_COMMAND_START (R346): the first command in issue order that has not started, unless the throttle gates issue (R426). -/
def execMatrixCommandStart (cl id : Nat) (s : State) : Host.Outcome State Fault Refusal :=
  let a := (s.cluster cl).arr
  match a.queue.find? (fun k => !k.started) with
  | none => .next s
  | some k =>
    if k.id ≠ id ∨ a.behind id ∨ a.queue.any (fun e => e.started && k.op.after e.op) then .next s
    else if s.gatedFor ≠ 0 then .next (s.post (s.pkg.ptime + s.gatedFor) (.matrixCommandStart cl id))
    else
      let s := s.onArray cl (fun a => { a with queue := a.queue.map (fun q => if q.id = id then { q with started := true } else q) })
      .next (s.post (s.pkg.ptime + engineGap) (.matrixCommandComplete cl id))

/-- The next command is given its chance to start, and those in progress theirs to go on. -/
def State.kickArray (s : State) (cl : Nat) : State :=
  let q := (s.cluster cl).arr.queue
  let s := (q.filter (fun k => k.started && !k.parked && k.ended.isNone)).foldl (fun s k => s.again (.matrixCommandComplete cl k.id)) s
  match q.find? (fun k => !k.started) with
  | some k => s.postOnce (.matrixCommandStart cl k.id)
  | none => s

/-! ## Access by a command (R34, R58, R97, R342, R347) -/

/-- Why a command does not go on: it ends with a fault reason, meets a page that is not present, or waits for a walk or a
recall. -/
inductive MxStop where
  | fault (reason : Nat) (addr : Word)
  | absent (addr : Word) (need : Need) (vpn level : Nat)
  | wait
deriving DecidableEq, Repr

/-- Bytes read by a matrix command. -/
def State.mxGet (s : State) (k : MxCmd) (lcl : Bool) (a : Word) (n : Nat) : Except MxStop (List Byte) × State :=
  if lcl then
    if localFits a n then
      let r := s.engineLoad k.core k.slot (some k.task) k.user 3 a.toNat n
      if ((s.coreOf k.core).padFault a.toNat n).isSome then (.error (.fault 0x23 a), s) else (.ok r.1, r.2)
    else (.error (.fault 0x08 a), s)
  else
    match s.engineSpan (.matrix (clusterOf k.core) k.id) k.core k.atp k.user .load a n with
    | (.ok sp, s) =>
      match s.engineBad sp with
      | some reason => (.error (.fault reason a), s)
      | none => let r := s.engineGet k.core (s.slotBooked k.core k.slot) sp; (.ok r.1, r.2)
    | (.bad r, s) => (.error (.fault r a), s)
    | (.absent v l, s) => (.error (.absent a .load v l), s)
    | (.wait, s) => (.error .wait, s)

/-- Bytes written by a matrix command: how many writes are to return their `vt`, or the `vt` of a local one (R112). -/
def State.mxPut (s : State) (k : MxCmd) (lcl : Bool) (a : Word) (bs : List Byte) : Except MxStop (Nat × Nat) × State :=
  if lcl then
    if localFits a bs.length then (.ok (0, s.ptimeOf (dieOf k.core)), s.engineStore k.core k.slot (some k.task) k.user 3 a.toNat bs)
    else (.error (.fault 0x08 a), s)
  else
    match s.engineSpan (.matrix (clusterOf k.core) k.id) k.core k.atp k.user .store a bs.length with
    | (.ok sp, s) =>
      if sp.any (fun e => s.unmapped e.1) then (.error (.fault 0x24 a), s)
      else
      match s.enginePut k.core (s.slotBooked k.core k.slot) sp bs (.matrix (clusterOf k.core) k.id) with
      | some s => (.ok (sp.lines.length, 0), s)
      | none => (.error (.fault 0x20 a), s)
    | (.bad r, s) => (.error (.fault r a), s)
    | (.absent v l, s) => (.error (.absent a .store v l), s)
    | (.wait, s) => (.error .wait, s)

/-! ## Operand data (R141, R343) -/

/-- One group of the compressed form: the codes whose bitmap bits are set, in order; the bits used by them. -/
def unpackGroup (bitmap bits x : Nat) (n i : Nat) : List Nat × Nat :=
  match n with
  | 0 => ([], 0)
  | n + 1 =>
    if bitmap.testBit i then
      let r := unpackGroup bitmap bits (x / 2 ^ bits) n (i + 1)
      (x % 2 ^ bits :: r.1, bits + r.2)
    else
      let r := unpackGroup bitmap bits x n (i + 1)
      (0 :: r.1, r.2)

/-- A column in the compressed form (R343), read group by group: `kd` elements in `groups` groups of 64 from address `a` on, where
`room` bytes of its pitch are left. -/
def State.packedCol (s : State) (k : MxCmd) (lcl : Bool) (bits : Nat) (a : Word) (room kd groups : Nat) :
    Except MxStop (List Nat) × State :=
  match groups with
  | 0 => (.ok [], s)
  | g + 1 =>
    let n := min 64 kd
    if room < 8 then (.error (.fault 0x24 a), s)
    else
      match s.mxGet k lcl a 8 with
      | (.error e, s) => (.error e, s)
      | (.ok bs, s) =>
        let bitmap := ofBytes bs
        let len := (((List.range 64).filter bitmap.testBit).length * bits + 63) / 64 * 8
        if 2 ^ n ≤ bitmap ∨ room < 8 + len then (.error (.fault 0x24 a), s)
        else
          match (if len = 0 then (.ok [], s) else s.mxGet k lcl (a + 8) len) with
          | (.error e, s) => (.error e, s)
          | (.ok es, s) =>
            match s.packedCol k lcl bits (a + BitVec.ofNat 64 (8 + len)) (room - 8 - len) (kd - n) g with
            | (.error e, s) => (.error e, s)
            | (.ok t, s) => (.ok ((unpackGroup bitmap bits (ofBytes es) n 0).1 ++ t), s)

/-- The codes of row or column `m` (R141, R342, R343). -/
def State.mxRow (s : State) (k : MxCmd) (d a : Word) (bits m : Nat) : Except MxStop (List Nat) × State :=
  let kd := fld d 47 32
  let at' := a + BitVec.ofNat 64 (64 * fld d 31 12 * m)
  if d.getLsbD 10 then s.packedCol k (d.getLsbD 9) bits at' (64 * fld d 31 12) kd ((kd + 63) / 64)
  else
    match s.mxGet k (d.getLsbD 9) at' (kd * bits / 8) with
    | (.ok bs, s) => (.ok (splitLanes bits kd (ofBytes bs)), s)
    | (.error e, s) => (.error e, s)

/-- The rows of a load from row `m`, `n` of them (R342): the slot as filled, and why it stopped. -/
def State.loadRows (s : State) (k : MxCmd) (f : Nat) (a d sc : Word) (o : OpSlot) (m n : Nat) : OpSlot × Option MxStop × State :=
  match n with
  | 0 => ({ o with loaded := true }, none, s)
  | n + 1 =>
    let bits := palElemBits k.pal f
    let lcl := d.getLsbD 9
    let scaled := Fmt.scaled f && !palMom k.pal
    match s.mxRow k d a bits m with
    | (.error e, s) => (o, some e, s)
    | (.ok row, s) =>
      match (if scaled then s.mxGet k lcl (sc + BitVec.ofNat 64 (m * mxScaleBytes d)) (mxScaleBytes d) else (.ok [], s)) with
      | (.error e, s) => (o, some e, s)
      | (.ok ss, s) =>
        s.loadRows k f a d sc { o with data := o.data ++ [row], scales := o.scales ++ [ss.map BitVec.toNat] } (m + 1) n

/-! ## Products (R154, R345) -/

/-- A product of exact values: none for a NaN, or for 0 times infinity. -/
def exactProduct (l : List FVal) : Option FVal :=
  if l.any FVal.isNan || (l.any FVal.isZero && l.any FVal.isInf) then none
  else some (l.foldl FVal.mul (.fin false 1 0))

/-- The exact sum of a group's products with the block scales applied, rounded once (R154): `e` is the scales' exponent. -/
def groupValue (terms : List (Option FVal)) (e : Int) : Nat × Flags :=
  let vs := terms.filterMap id
  if vs.length ≠ terms.length then lay32.invalid
  else
    let infs := vs.filter FVal.isInf
    match infs with
    | x :: _ => if infs.any (fun y => y.sign != x.sign) then lay32.invalid else (lay32.sign x.sign + lay32.infCode, 0)
    | [] =>
      match vs.foldl (fun (acc : Option FVal) v => match acc with
          | some a => a.add .rne v
          | none => none) (some (.fin true 0 0)) with
      | some (.fin neg m q) =>
        if m = 0 then (lay32.sign (vs.all (fun v => v.isZero && v.sign)), 0) else lay32.round .rne false 0 neg m (q + e)
      | _ => lay32.invalid

/-- An operand element: of a moment pair its mean and variance, a negative or NaN variance read as +0 (R153, R345). -/
def mxElem (pal : BitVec 11) (f : Nat) (x : Nat) : FVal × FVal :=
  if palMom pal then
    let v := layB16.decode (x / 65536)
    (layB16.decode (x % 65536), if v.isNan || v.sign then .fin false 0 0 else v)
  else ((Fmt.ofCode f).decode x, .fin false 0 0)

/-- A variance that sets NV when read (R345): negative or NaN. -/
def mxVarBad (x : Nat) : Bool :=
  match layB16.decode (x / 65536) with
  | .fin neg m _ => neg && m != 0
  | .inf neg => neg
  | _ => true

/-- The scales of group `g` of a row and a column: the exponent, none for an ill-formed record (R141). -/
def groupScale (fa fb : Nat) (mom : Bool) (sa sb : List Nat) (g : Nat) : Option Int :=
  let one := fun (f : Nat) (l : List Nat) =>
    if Fmt.scaled f && !mom then (if l.getD g 0 = 255 then none else some (Int.ofNat (l.getD g 0) - 127)) else some 0
  match one fa sa, one fb sb with
  | some x, some y => some (x + y)
  | _, _ => none

/-- The values that group `g` adds: the mean sum, then for moments the variance sum (R154, R345). A block with the scale 0xFF
counts as read here, where its elements are used, and sets IV (R141; log entry 101). -/
def groupTerms (pal : BitVec 11) (a b : List Nat) (sc : Option Int) : List (Nat × Flags) :=
  match sc with
  | none => [lay32.invalid]
  | some e =>
    let ps := (a.zip b).map (fun x => (mxElem pal (palA pal) x.1, mxElem pal (palB pal) x.2))
    let mean := groupValue (ps.map (fun p => exactProduct [p.1.1, p.2.1])) e
    if palMom pal then
      [mean, groupValue (ps.flatMap (fun p =>
        [exactProduct [p.1.1, p.1.1, p.2.2], exactProduct [p.2.1, p.2.1, p.1.2], exactProduct [p.1.2, p.2.2]])) e]
    else [mean]

/-- One group added to the accumulators (R154). -/
def accumulate (accs : List Nat) (qs : List (Nat × Flags)) (fl : Flags) : List Nat × Flags :=
  (accs.zip qs).foldl (fun (r : List Nat × Flags) x =>
    let y := lay32.add .rne x.1 x.2.1
    (r.1 ++ [y.1], r.2 ||| x.2.2 ||| y.2)) ([], fl)

/-- One element of the product (R154): the groups in order from group `g`, `n` of them. -/
def mxElement (pal : BitVec 11) (a b sa sb : List Nat) (accs : List Nat) (fl : Flags) (g n : Nat) : List Nat × Flags :=
  match n with
  | 0 => (accs, fl)
  | n + 1 =>
    let xs := (a.drop (32 * g)).take 32
    let ys := (b.drop (32 * g)).take 32
    if palInt pal then
      let v := fun (f : Nat) (x : Nat) => ({ w := .b8, uns := f == 4 } : IT).value x
      let t := ((xs.zip ys).map (fun p => v (palA pal) p.1 * v (palB pal) p.2)).sum
      mxElement pal a b sa sb (accs.map (fun x => ((Int.ofNat x + t) % Int.ofNat (2 ^ 32)).toNat)) fl (g + 1) n
    else
      let r := accumulate accs (groupTerms pal xs ys (groupScale (palA pal) (palB pal) (palMom pal) sa sb g)) fl
      mxElement pal a b sa sb r.1 r.2 (g + 1) n

def AccSlot.cell (a : AccSlot) (i : Nat) : Nat := ((mapGet a.cells i).getD 0).toNat
def MxArray.accOf (a : MxArray) (n : Nat) : AccSlot := (mapGet a.acc n).getD { holder := none, cells := [], releasing := false }

/-- Elements written to an accumulator slot; those that are zero are not listed. -/
def AccSlot.write (a : AccSlot) (xs : List (Nat × Nat)) : AccSlot :=
  { a with cells := xs.foldr (fun x m => if x.2 % 2 ^ 32 = 0 then mapDel m x.1 else mapSet m x.1 (BitVec.ofNat 32 x.2)) a.cells }

/-- The whole product (R345): new values of each accumulator slot with their indices, and the flags. -/
def MxArray.product (a : MxArray) (pal : BitVec 11) (st wt : OpSlot) (slots : List Nat) (zero : Bool) :
    List (Nat × List Nat) × Flags :=
  let idx := (List.range st.count).flatMap (fun m => (List.range wt.count).map (fun n => (m, n)))
  idx.foldl (fun (r : List (Nat × List Nat) × Flags) x =>
    let i := 256 * x.1 + x.2
    let old := slots.map (fun q => if zero then 0 else (a.accOf q).cell i)
    let e := mxElement pal (st.data.getD x.1 []) (wt.data.getD x.2 []) (st.scales.getD x.1 []) (wt.scales.getD x.2 []) old 0 0 (st.kd / 32)
    (r.1 ++ [(i, e.1)], r.2 ||| e.2)) ([], 0)

/-! ## Running a command (R342, R345, R347, R348) -/

/-- What a command has done: the state, its flags, whether it sets NV, bytes delivered, why it stopped. -/
structure MxDone where
  s : State
  fl : Flags
  nv : Bool
  bytes : Nat
  stop : Option MxStop

/-- A load runs (R342): a slot whose load stops stays unloaded. BYTES counts whole rows, for a PACKED source each at the most bytes that its
records may take: the spec does not say how such a load's bytes are counted (R211, R343; log entry 121). -/
def State.runLoad (s : State) (cl : Nat) (k : MxCmd) (weight : Bool) (n : Nat) (a d sc : Word) : MxDone :=
  let f := if weight then palB k.pal else palA k.pal
  let old := (mapGet (if weight then (s.cluster cl).arr.weight else (s.cluster cl).arr.stage) n)
  let fresh : OpSlot := { loaded := false, count := fld d 8 0, kd := fld d 47 32, pal := k.pal, data := [], scales := [], byId := k.id }
  let start := if k.pos = 0 then fresh else old.getD fresh
  let r := s.loadRows k f a d sc start k.pos (fld d 8 0 - k.pos)
  let o := r.1
  let s := r.2.2.onArray cl (fun a => if weight then { a with weight := mapSet a.weight n o } else { a with stage := mapSet a.stage n o })
  { s := s, fl := 0, nv := false, bytes := o.data.length * mxRowBytes d (palElemBits k.pal f), stop := r.2.1 }

/-- A product runs (R342, R345). -/
def State.runMma (s : State) (cl : Nat) (k : MxCmd) (i j : Nat) (h : Word) (zero : Bool) : MxDone :=
  let a := (s.cluster cl).arr
  let stop := { s := s, fl := 0, nv := false, bytes := 0, stop := some (.fault 0x24 0) }
  match mapGet a.stage i, mapGet a.weight j with
  | some st, some wt =>
    let st := a.seen st k.id
    let wt := a.seen wt k.id
    if !(st.loaded && wt.loaded) then stop
    else
      let slots := hSlots h
      let r := a.product k.pal st wt slots zero
      let acc := ((List.range slots.length).zip slots).foldl (fun l q =>
        mapSet l q.2 ((a.accOf q.2).write (r.1.map (fun x => (x.1, x.2.getD q.1 0))))) a.acc
      let nv := palMom k.pal && (st.data.any (fun l => l.any mxVarBad) || wt.data.any (fun l => l.any mxVarBad))
      { s := s.onArray cl (fun a => { a with acc := acc }), fl := r.2, nv := nv, bytes := 0, stop := none }
  | _, _ => stop

/-- The elements of one row as stored (R347): bytes, flags, the draws left. -/
def storeElems (int : Bool) (f : Fmt) (m : RM) (sat : Bool) (vs : List Nat) (draws : List (BitVec 32)) : List Byte × Flags × List (BitVec 32) :=
  match vs with
  | [] => ([], 0, draws)
  | x :: t =>
    let y := if int then (x, 0) else convertElem .f32 f m sat (draws.headD 0).toNat x
    let r := storeElems int f m sat t draws.tail
    (toBytes (f.bits / 8) y.1 ++ r.1, y.2 ||| r.2.1, r.2.2)

/-- The rows of a store from row `r`, `n` of them (R347): flags, writes to be acknowledged, the largest `vt` known, rows written,
why it stopped. -/
def State.storeRows (s : State) (cl : Nat) (k : MxCmd) (h a d : Word) (m : RM) (sat : Bool) (draws : List (BitVec 32))
    (r n : Nat) (fl : Flags) (pend vt : Nat) : Flags × Nat × Nat × Nat × Option MxStop × State :=
  match n with
  | 0 => (fl, pend, vt, r, none, s)
  | n + 1 =>
    let arr := (s.cluster cl).arr
    let vs := (List.range (fld d 56 48)).flatMap (fun c =>
      (hSlots h).map (fun q => (arr.accOf q).cell (256 * (fld d 47 40 + r) + c)))
    let e := storeElems (h.getLsbD 10) (Fmt.ofCode (fld d 36 32)) m sat vs draws
    match s.mxPut k (d.getLsbD 9) (a + BitVec.ofNat 64 (64 * fld d 31 12 * r)) e.1 with
    | (.error x, s) => (fl, pend, vt, r, some x, s)
    | (.ok t, s) => s.storeRows cl k h a d m sat e.2.2 (r + 1) n (fl ||| e.2.1) (pend + t.1) (max vt t.2)

def State.onMx (s : State) (cl id : Nat) (f : MxCmd → MxCmd) : State :=
  s.onArray cl (fun a => { a with queue := a.queue.map (fun q => if q.id = id then f q else q) })

/-- A store runs from the row it has reached (R347). -/
def State.runStore (s : State) (cl : Nat) (k : MxCmd) (h a d : Word) (m : RM) (sat : Bool) (draws : List (BitVec 32)) : MxDone :=
  let per := fld d 56 48 * (hSlots h).length
  let r := s.storeRows cl k h a d m sat (draws.drop (k.pos * per)) k.pos (fld d 8 0 - k.pos) 0 0 0
  let s := r.2.2.2.2.2.onMx cl k.id (fun q => { q with pend := q.pend + r.2.1, vt := max q.vt r.2.2.1 })
  { s := s, fl := r.1, nv := false, bytes := r.2.2.2.1 * (fld d 56 48 * mxStoreElem h d), stop := r.2.2.2.2.1 }

def State.runMx (s : State) (cl : Nat) (k : MxCmd) : MxDone :=
  match k.op with
  | .lda n a d sc => s.runLoad cl k false n a d sc
  | .ldb n a d sc => s.runLoad cl k true n a d sc
  | .mma i j h z => s.runMma cl k i j h z
  | .st h a d m sat draws => s.runStore cl k h a d m sat draws
  | .zero h =>
    { s := s.onArray cl (fun a => { a with acc := (hSlots h).foldl (fun l n => mapSet l n { a.accOf n with cells := [] }) a.acc }),
      fl := 0, nv := false, bytes := 0, stop := none }

/-! ## Completion (R112, R151, R208, R211, R346, R348) -/

/-- Accumulator slots that wait for their last command are free once it is gone (R348). -/
def MxArray.sweep (a : MxArray) : MxArray :=
  { a with acc := a.acc.filter (fun e => !(e.2.releasing && !a.queue.any (fun q => q.op.usesAcc e.1))) }

/-- The flags of a command reach its issuer (R151, R345). -/
def Ws.mxFlags (w : Ws) (fl : Flags) (nv : Bool) : Ws := if nv then (w.setFlags fl).setNv else w.setFlags fl

/-- A command leaves the queue: flags, counts, the fault with its record, its writes. -/
def State.mxEnd (s : State) (cl : Nat) (k : MxCmd) (fault : Option Nat) (bytes : Nat) : State :=
  let s := s.onArray cl (fun a => MxArray.sweep { a with queue := a.queue.filter (fun q => q.id != k.id) })
  let live := decide (((s.coreOf k.core).sx k.slot).task.id = k.task)
  let nv := k.nv
  let s : State := s.onCore k.core (fun c => c.onSlot k.slot (fun x => { x with outMatrix := x.outMatrix - 1 }))
  let s : State := if live then
      let s : State := s.engineDone k.core k.slot 2 .count k.vt
      if k.flags = 0 ∧ !nv then s
      else s.onCore k.core (fun c =>
        let c := c.onWsAt k.wp (fun w => w.mxFlags k.flags nv) [95]
        if nv then c.freshen (2 + 4096 * k.wp) s.pkg.ptime (· ||| 8) else c)
    else s.countOrphan k.core
  let s : State := match fault with
    | some r => s.engineFault k.core k.slot (some k.task) true (faultOf true r bytes 0 k.faddr k.pc)
    | none => s
  s.kickArray cl

/-- A command that has ended completes when each of its writes has returned its `vt` (R112). -/
def State.mxSettle (s : State) (cl id : Nat) : State :=
  match (s.cluster cl).arr.queue.find? (fun q => q.id == id) with
  | some k =>
    match k.ended with
    | some (fault, bytes) => if k.pend = 0 then s.mxEnd cl k fault bytes else s
    | none => s
  | none => s

/-- A matrix command's write returns its `vt`. -/
def State.mxAcked (s : State) (cl id vt : Nat) : State :=
  (s.onMx cl id (fun q => { q with pend := q.pend - 1, vt := max q.vt vt })).mxSettle cl id

/-- A command ends, a fault with the address that it names. -/
def State.mxOver (s : State) (cl id : Nat) (fault : Option (Nat × Word)) (bytes : Nat) : State :=
  (s.onMx cl id (fun q => { q with
    ended := some (fault.map (·.1), bytes), faddr := (fault.map (·.2)).getD 0, parked := false })).mxSettle cl id

/-- A non-present page of a matrix command (R34): the command parks, or ends while parking is disabled. -/
def State.mxAbsent (s : State) (cl : Nat) (k : MxCmd) (bytes : Nat) (a : Word) (need : Need) (vpn level : Nat) : State :=
  if (s.cluster cl).fbctl.getLsbD 0 ∧ s.slotBooked k.core k.slot = false then
    (s.onMx cl k.id (fun q => { q with parked := true, faddr := a })).parkLater cl (.matrix cl k.id) need.ak k.vfn vpn level
  else s.mxOver cl k.id (some (0x02, a)) bytes

/-- The bytes of one row of a command. -/
def MxCmd.rowBytes (k : MxCmd) : Nat :=
  match k.op with
  | .lda _ _ d _ => mxRowBytes d (palElemBits k.pal (palA k.pal))
  | .ldb _ _ d _ => mxRowBytes d (palElemBits k.pal (palB k.pal))
  | .st h _ d _ _ _ => fld d 56 48 * mxStoreElem h d
  | _ => 1

/-- A pass of the array, one for each `mxmma`, counted (R345, R397). -/
def State.countPass (s : State) (k : MxCmd) : State :=
  match k.op with
  | .mma _ _ _ _ => s.count k.core 0x013 k.vfn
  | _ => s

/-- MATRIX_COMMAND_COMPLETE (R342 to R348): a started command runs from where it stands, and completes. -/
def execMatrixCommandComplete (cl id : Nat) (s : State) : Host.Outcome State Fault Refusal :=
  match (s.cluster cl).arr.queue.find? (fun k => k.id == id) with
  | none => .next s
  | some k =>
    if !k.started ∨ k.parked ∨ k.ended.isSome ∨ (s.cluster cl).arr.behind id then .next s
    else
      let r := s.runMx cl k
      let rows := r.bytes / max 1 k.rowBytes
      let s := r.s.onMx cl id (fun q => { q with pos := rows, flags := q.flags ||| r.fl, nv := q.nv || r.nv })
      match r.stop with
      | none => .next ((s.countPass k).mxOver cl id none r.bytes)
      | some (.fault x a) => .next (s.mxOver cl id (some (x, a)) r.bytes)
      | some (.absent a need v l) => .next (s.mxAbsent cl k r.bytes a need v l)
      | some .wait => .next s

/-- A parked matrix command goes on after `replayall`, and those that wait behind it with it, or ends with DELIVERED (R39,
R40). -/
def State.unparkMatrix (s : State) (cl id : Nat) (deliver : Bool) : State :=
  match (s.cluster cl).arr.queue.find? (fun k => k.id == id && k.parked) with
  | none => s
  | some k =>
    if deliver then s.mxOver cl id (some (0x22, k.faddr)) (k.pos * k.rowBytes)
    else (s.onMx cl id (fun q => { q with parked := false })).kickArray cl

end Sys2Proof.Machine
end

