-- ==== Sys2Proof/Machine/Tile.lean ====
section
/-! DEFINITION. Tiles: declaring, passing, acquiring and undeclaring (spec/03 R91 to R103; spec/12 R349), with the events of
their marks, sweeps and pushes. -/
namespace Sys2Proof.Machine

/-! ## Entries (R91, R92) -/

/-- Where the tile lies: as declared, or as its declaration in progress has it (R95). -/
def TileEntry.range (e : TileEntry) : Option (Place × Nat) :=
  match e.decl with
  | some d => some (d.place, d.len)
  | none => e.place.map (fun p => (p, e.len))

/-- The lines of a tile. -/
def TileEntry.lines (e : TileEntry) : List Nat :=
  match e.range with
  | some (p, n) => (List.range (n / 64)).map (fun i => p.line (64 * i))
  | none => []

/-- The physical address of the first line. -/
def TileEntry.pa (e : TileEntry) : Nat :=
  match e.place with
  | some p => p.pa
  | none => 0

/-- A word of the entry (R92). -/
def TileEntry.word (e : TileEntry) (i : Nat) : Word :=
  match i with
  | 0 => BitVec.ofNat 64 e.vbase
  | 1 => BitVec.ofNat 64 (e.len + e.gen.toNat * 2 ^ 23 + e.owner * 2 ^ 39 + e.next * 2 ^ 50 + e.state * 2 ^ 61)
  | 2 => BitVec.ofNat 64 (e.pa / 64 % 2 ^ 46 + e.vfn * 2 ^ 46)
  | _ => 0

/-- The capability of a tile (R25, R95, R99). -/
def TileEntry.cap (e : TileEntry) (tid owner rights : Nat) : Cap := capOf e.vbase e.len e.gen.toNat owner rights tid

/-- The compute dies of the topology table. -/
def State.computeDies (s : State) : List Nat := (List.range 8).filter (fun d => setHas s.pkgx.present d)

/-! ## Waiting for a tile instruction (R349) -/

/-- The current instruction's tile operation, if one is in progress or done. -/
def State.tileOp (s : State) : Option TileOp :=
  s.sx.tileOps.find? (fun o => o.wp == s.core.res.wp && o.pc == s.ws.pc)
def State.dropTileOp (s : State) : State :=
  s.onSx (fun x => { x with tileOps := x.tileOps.filter (fun o => !(o.wp == s.core.res.wp && o.pc == s.ws.pc)) })
def State.addTileOp (s : State) (kind tid : Nat) : State :=
  let o : TileOp := { kind := kind, tid := tid, wp := s.core.res.wp, pc := s.ws.pc, done := false, status := 0 }
  s.onSx (fun x => { x with tileOps := x.tileOps ++ [o] })

/-- A slot's operation on a tile ends with a status. -/
def State.tileDone (s : State) (core : Nat) (i : SlotId) (tid status : Nat) : State :=
  s.onCore core (fun c => c.onSx i (fun x => { x with tileOps := x.tileOps.map (fun o =>
    if o.tid = tid then { o with done := true, status := status } else o) }))

/-- The context waits for its tile instruction (log entry 38). -/
def tileWait {α : Type} (s : State) : M α := .error (.st (s.waitHere 0x23))

/-! ## The frame filter and sweeps (R94, R99) -/

def filterIndex (pa : Nat) : Nat :=
  let f := pa / 65536 % 2 ^ 36
  (f ^^^ (f / 2 ^ 13) ^^^ (f / 2 ^ 26)) % 8192

/-- Every die is told of a filter update (R94). -/
def State.filterUpdate (s : State) (e : TileEntry) (op : Nat) : State :=
  match e.range with
  | some (p, n) => s.computeDies.foldl (fun s d => s.post s.pkg.ptime (.swp d p.pa n op)) s
  | none => s

/-- One counter of the filter (R94): 15 stays until warm reset. -/
def filterStep (op n : Nat) : Nat := if n = 15 then 15 else if op = 1 then n + 1 else n - 1

/-- The lines in a range of which a die holds a copy, in its slices or its L1s. -/
def State.heldIn (s : State) (die : Nat) (mine : Nat → Bool) : List Nat :=
  ((s.die die).l2.flatMap (fun x => (x.2.filter (fun y => mine y.line)).map (·.line))
    ++ (s.cores.filter (fun c => dieOf c == die)).flatMap (fun c => ((s.coreOf c).l1d.filter (fun y => mine y.line)).map (·.line))).eraseDups

/-- A range's copies leave a die (R99): from the L1s and the slices, written back to their home slices, which keep theirs; its tile lines
are held there no longer. -/
def State.sweep (s : State) (die lo hi : Nat) : State :=
  let mine := fun (line : Nat) => decide (lo ≤ s.lineX line) && decide (s.lineX line < hi)
  let lines := s.heldIn die mine
  let s' := s.onDie die (fun d => { d with l2 := d.l2.map (fun x =>
    (x.1, (x.2.filter (fun y => !mine y.line || s.lineHome y.line == die)).map (fun y => if mine y.line then { y with core := none } else y))) })
  let s' := (s'.cores.filter (fun c => dieOf c == die)).foldl (fun s c =>
    s.onCore c (fun k => { k with l1d := k.l1d.filter (fun y => !mine y.line) })) s'
  let s' := s'.computeDies.foldl (fun s h => s.onDie h (fun d => { d with dir := d.dir.map (fun x =>
    (x.1, if x.2.st = 3 ∧ x.2.odie = die ∧ mine x.1 then { x.2 with held := false } else x.2)) })) s'
  lines.foldl (fun s l => s.homeSlice l ((mapGet s.lineKey l).getD 0) (s.tile (s.entry l).tid).vfn) s'

/-- SWP (R94, R99): op 0 sweeps the copies of the range on a die, 1 increments and 2 decrements the filter's counters. -/
def execSwp (die base len op : Nat) (s : State) : Host.Outcome State Fault Refusal :=
  if op = 0 then .next (s.sweep die (base / 64) ((base + len) / 64))
  else
    let frames := upto (base / 65536) ((base + len - 1) / 65536 + 1 - base / 65536)
    .next (s.onDie die (fun d => { d with filter := frames.foldl (fun m f =>
      let i := filterIndex (f * 65536)
      mapSet m i (filterStep op ((mapGet m i).getD 0))) d.filter }))

/-! ## Marks (R95, R96, R101) -/

/-- The T entries of a line's home slice (R78, R93). -/
def State.sliceTiles (s : State) (line : Nat) : Nat :=
  ((s.die (s.lineHome line)).dir.filter (fun x => x.2.st == 3 && s.slice x.1 == s.slice line)).length

/-- A failed declaration unmarks what it marked (R93). -/
def State.unmarkAll (s : State) (tid : Nat) : State :=
  (s.tile tid).lines.foldl (fun s l =>
    if (s.entry l).st = 3 ∧ (s.entry l).tid = tid then s.onEntry l (fun e => { e with st := 0, tid := 0, hint := 0 }) else s) s

/-- The core whose instruction is in progress on a tile. -/
def TileEntry.actor (e : TileEntry) : Nat :=
  match e.decl with
  | some d => d.owner
  | none => e.owner

/-- One mark or unmark has returned (R95, R101); the last one ends the operation once time reaches the largest `vt`. A
declaration that fails leaves the entry as it was (R93). -/
def State.markReturned (s : State) (tid vt fail : Nat) : State :=
  let worst := fun (a b : Nat) => if a = 0 then b else if b = 0 then a else min a b
  let s := s.onTile tid (fun e => { e with vt := max e.vt vt, left := e.left - 1, fail := worst e.fail fail })
  let e := s.tile tid
  if e.left ≠ 0 then s
  else if e.decl.isNone then s.post s.pkg.ptime (.undeclarationComplete tid)
  else if e.fail ≠ 0 then
    let s := (s.unmarkAll tid).filterUpdate e 2
    (s.onTile tid (fun e => { e with busy := false, decl := none })).tileDone e.actor e.slot tid e.fail
  else s.post s.pkg.ptime (.declarationComplete tid)

/-- The function of a tile, or of its declaration in progress. -/
def State.tileVfn (s : State) (tid : Nat) : Nat :=
  match (s.tile tid).decl with
  | some d => d.vfn
  | none => (s.tile tid).vfn

/-- TMK (R95, R96): a line already in T refuses; else the mark is a write that cuts every lease, and the line enters T. -/
def execTmk (line tid _odie : Nat) (s : State) : Host.Outcome State Fault Refusal :=
  let e := s.entry line
  if e.st = 3 then .next (if e.tid = tid then s else s.markReturned tid 0 1)
  else if 8192 ≤ s.sliceTiles line then .next (s.markReturned tid 0 6)
  else
    let s := (s.recallL1 2048 line).recallCluster (s.lineHome line) line
    .next ((s.homeSlice line ((mapGet s.lineKey line).getD 0) (s.tileVfn tid)).perform line 100 true (.tile tid))

/-- TUN (R101): the line is written back to its home and becomes I; its `vt` follows R81. -/
def execTun (line : Nat) (x : TileUnmark) (s : State) : Host.Outcome State Fault Refusal :=
  let e := s.entry line
  let tid := x.tid
  if e.st = 3 ∧ e.tid = tid then
    let s := s.recallL1 2048 line
    let s := if e.odie = s.lineHome line then s else s.dropCopy e.odie line
    let s := s.onEntry line (fun e => { e with st := 0, odie := 0, tid := 0, held := false, hint := 0, hz := 0, lhz := 0 })
    .next ((s.homeSlice line ((mapGet s.lineKey line).getD 0) (s.tileVfn tid)).perform line 100 false (.tile tid))
  else .next s

/-- DECLARATION_COMPLETE (R95). The rule names no die whose `ptime` must have reached the largest `vt`: the model takes the tile home's (log
entry 111). -/
def execDeclarationComplete (tid : Nat) (s : State) : Host.Outcome State Fault Refusal :=
  let e := s.tile tid
  match e.decl with
  | none => .next s
  | some d =>
    let now := s.ptimeOf (tid / 8192)
    if e.left ≠ 0 then .next s
    else if now < e.vt then .next (s.post (s.pkg.ptime + (e.vt - now)) (.declarationComplete tid))
    else .next ((s.onTile tid (fun e => { e with
      busy := false, decl := none, state := 1, vbase := d.vbase, len := d.len, owner := d.owner, next := 0,
      place := some d.place, vfn := d.vfn })).tileDone d.owner e.slot tid 0)

/-- UNDECLARATION_COMPLETE (R101), by the tile home's `ptime` (log entry 111). -/
def execUndeclarationComplete (tid : Nat) (s : State) : Host.Outcome State Fault Refusal :=
  let e := s.tile tid
  if !e.busy ∨ e.state ≠ 1 ∨ e.left ≠ 0 then .next s
  else
    let now := s.ptimeOf (tid / 8192)
    if now < e.vt then .next (s.post (s.pkg.ptime + (e.vt - now)) (.undeclarationComplete tid))
    else
      let s := s.onTile tid (fun e => { e with busy := false, state := 0, gen := e.gen + 1 })
      .next ((s.filterUpdate e 2).tileDone e.owner e.slot tid 0)

/-! ## Pushes and the message of a pass (R99) -/

/-- PSH (R99): a line pushed into the slice of the consumer's die. -/
def execPsh (x : LinePush) (die : Nat) (s : State) : Host.Outcome State Fault Refusal :=
  let line := x.line
  let e := s.entry line
  if e.st ≠ 3 then .next s
  else
    let s := s.writeMasked line x.mask x.data.bytes x.data.tags
    let p := s.placeOfKey (line * 64)
    let s := s.fillL2 die (s.newL2 die line p.key (s.tileVfn e.tid) 0)
    let s := s.onEntry line (fun e => { e with odie := die, held := true })
    let s := s.onTile e.tid (fun t => { t with left := t.left - 1 })
    .next (if (s.tile e.tid).left = 0 then s.post s.pkg.ptime (.passMessageSend e.tid) else s)

/-- PASS_MESSAGE_SEND (R99): the capability with the new generation, tagged, to the consumer. -/
def execPassMessageSend (tid : Nat) (s : State) : Host.Outcome State Fault Refusal :=
  let e := s.tile tid
  if !e.busy ∨ e.state ≠ 2 then .next s
  else
    let v := (e.cap tid e.next e.rights).val
    let m : Msg := { hwMsg 2 e.owner e.vfn (v.extractLsb' 0 64) (v.extractLsb' 64 64) with captag := true, sctx := e.slot.val }
    .next ((s.onTile tid (fun e => { e with busy := false })).sendMsg e.next m)

/-! ## The instructions (R349) -/

/-- A tile instruction in a booked task (R192). -/
def tileBooked (s : State) : M Unit := if s.booked then bookedNow s 4 else .ok ()

/-- Tiles are not enabled: their operations return KIND (R422). -/
def State.noTiles (s : State) : Bool := !s.pkgx.enabled.getLsbD 3

/-- A tile may lie in a page at an address with a length (R91, R93): 0, or the first status that applies. -/
def tilePlaceStatus (e : TlbEntry) (va len : Nat) : Nat :=
  if va % 64 ≠ 0 ∨ len % 64 ≠ 0 ∨ len < 128 ∨ 4194304 < len then 5
  else if e.kind ≠ 0 ∨ e.dev ∨ !e.cach then 4
  else if pageFrames e.size * 65536 < va - e.vbase * 65536 + len then 3
  else 0

/-- The lowest-numbered FREE entry of a die's table (R95). -/
def State.freeTile (s : State) (d : Nat) : Option Nat :=
  ((List.range 8192).find? (fun i => let e := s.tile (d * 8192 + i); e.state == 0 && !e.busy)).map (fun i => d * 8192 + i)

/-- A declaration starts: entry taken, filters updated, marks sent (R95). -/
def State.declare (s : State) (tid : Nat) (p : Place) (va len : Nat) : State :=
  let d : TileDecl := { vbase := va, len := len, owner := s.cn, place := p, vfn := s.vfn }
  let s := s.onTile tid (fun e => { e with decl := some d, vt := 0, busy := true, left := len / 64, fail := 0, slot := s.core.cur })
  let e := s.tile tid
  let s := s.filterUpdate e 1
  let s := e.lines.foldl (fun s l => s.post s.pkg.ptime (.tmk l tid s.dn)) s
  s.addTileOp 0 tid

/-- The result of a tile instruction that has ended. -/
def tileResult (s : State) (o : TileOp) (d : Option CReg) (c : SReg) (ks : List (Bool × SReg)) (kc : List (Bool × CReg)) : State :=
  let s := s.dropTileOp
  let s := s.onWs (fun w => kc.foldl (fun w k => if k.1 then w.killC k.2 else w) w)
  let s := match d with
    | some r => if o.status = 0 then s.onWs (fun w => w.setC r ((s.tile o.tid).cap o.tid s.cn 7)) else s
    | none => s
  s.doneS c ks (BitVec.ofNat 64 o.status)

/-- `tdecl` (R95, R349). -/
def execTdecl (d : CReg) (a b c : SReg) (la lb : Bool) (s : State) : Host.Outcome State Fault Refusal := finish (do
  tokensReady s [a, b, c]
  let ks := [(la, a), (lb, b)]
  tileBooked s
  match s.tileOp with
  | some o => if o.done then .ok (tileResult s o (some d) c ks []) else tileWait s
  | none =>
    accessReady s
    let va := s.ws.getS a
    if 2 ^ 55 ≤ va.toNat then trapNow s 0x06 0x01 va 0 else pure ()
    let (e, s) ← translatePage s .both va (va.toNat / 65536)
    let len := (s.ws.getS b).toNat
    let status := if s.noTiles then 4 else tilePlaceStatus e va.toNat len
    if status ≠ 0 then .ok (s.doneS c ks (BitVec.ofNat 64 status))
    else
      let p := e.place va.toNat
      match s.freeTile (s.lineHome (p.line 0)) with
      | none => .ok (s.doneS c ks 2)
      | some tid => tileWait (s.declare tid p va.toNat len))

/-- The checks of R27 for a tile instruction: rights, the translation of BASE, the generation. -/
def tileCapGate (s : State) (c : Cap) (rights : Nat) (n : Need) : M State := do
  capGate s c 0 0 rights
  let va := BitVec.ofNat 64 c.base
  accessReady s
  let (_, s) ← translatePage s n va (c.base / 65536)
  capFresh s c va
  .ok s

/-- The core owns the tile and may pass or undeclare it (R99, R101). -/
def State.ownsTile (s : State) (tid : Nat) : Bool :=
  let e := s.tile tid
  e.state == 1 && e.owner == s.cn && !e.busy

/-- The release of step 2 of R99, at package scope; in fabric release mode no `vt` is waited for (R137). -/
def passRelease (s : State) : M Unit :=
  if s.slot.trk.count ≠ 0 ∨ s.core.carry.count ≠ 0 ∨ !s.slot.relq.isEmpty then tileWait s
  else if !s.frmOn ∧ s.releaseTime s.dn < s.trackV then tileWait (s.awaitTime s.trackV)
  else .ok ()

/-- Steps 3 to 5 of R99: the tile is PASSED, the giver's copies are swept, the lines are pushed. -/
def State.pass (s : State) (tid consumer rights : Nat) : State :=
  let s := s.onTile tid (fun e => { e with
    gen := e.gen + 1, state := 2, next := consumer, busy := true, left := e.len / 64, slot := s.core.cur, rights := rights })
  let e := s.tile tid
  let s := s.post s.pkg.ptime (.swp s.dn e.pa e.len 0)
  let s := e.lines.foldl (fun s l =>
    s.post (s.pkg.ptime + engineGap) (.psh ⟨l, BitVec.allOnes 64, ⟨s.lineData l, s.lineTagBits l⟩⟩ (dieOf consumer))) s
  s.addTileOp 1 tid

def noNeed : Need := { rd := false, wr := false, ex := false }

/-- `tpass` (R99, R349). -/
def execTpass (d : SReg) (a : CReg) (b : SReg) (la lb : Bool) (s : State) : Host.Outcome State Fault Refusal := finish (do
  tokensReady s [d, b]
  let ks := [(lb, b)]
  let kc := [(la, a)]
  match s.tileOp with
  | some o => if o.done then .ok (tileResult s o none d ks kc) else tileWait s
  | none =>
    let c := s.ws.getC a
    let s ← tileCapGate s c 4 noNeed
    tileBooked s
    let consumer := fld (s.ws.getS b) 10 0
    let status := if s.noTiles then 4 else if !s.ownsTile c.tid then 8 else if !s.corePresent consumer then 10 else 0
    if status ≠ 0 then
      .ok ((s.onWs (fun w => if la then w.killC a else w)).doneS d ks (BitVec.ofNat 64 status))
    else
      passRelease s
      tileWait (s.pass c.tid consumer c.rights))

/-- The status of `tacq` (R100). -/
def State.acquireStatus (s : State) (tid : Nat) : Nat :=
  let e := s.tile tid
  if s.noTiles then 4 else if e.state ≠ 2 then 8 else if e.next ≠ s.cn then 7 else if e.vfn ≠ s.vfn then 9 else 0

/-- `tacq` (R100, R349). -/
def execTacq (d : SReg) (a : CReg) (la : Bool) (s : State) : Host.Outcome State Fault Refusal := finish (do
  tokensReady s [d]
  let c := s.ws.getC a
  if c.tag then pure () else trapNow s 0x07 0x10 (BitVec.ofNat 64 c.base) 0
  accessReady s
  capFresh s c (BitVec.ofNat 64 c.base)
  tileBooked s
  let status := s.acquireStatus c.tid
  let s := if status = 0 then s.onTile c.tid (fun e => { e with owner := e.next, next := 0, state := 1 }) else s
  .ok ((s.onWs (fun w => if la then w.killC a else w)).doneS d [] (BitVec.ofNat 64 status)))

/-- `tundecl` (R101, R349). -/
def execTundecl (d : SReg) (a : CReg) (la : Bool) (s : State) : Host.Outcome State Fault Refusal := finish (do
  tokensReady s [d]
  match s.tileOp with
  | some o => if o.done then .ok (tileResult s o none d [] [(la, a)]) else tileWait s
  | none =>
    let c := s.ws.getC a
    let s ← tileCapGate s c 3 .both
    tileBooked s
    if s.noTiles then .ok ((s.onWs (fun w => if la then w.killC a else w)).doneS d [] 4)
    else if s.ownsTile c.tid then
      let s := s.onTile c.tid (fun e => { e with busy := true, left := e.len / 64, vt := 0, fail := 0, slot := s.core.cur })
      let s := (s.tile c.tid).lines.foldl (fun s l => s.post s.pkg.ptime (.tun l ⟨c.tid, s.dn⟩)) s
      tileWait (s.addTileOp 2 c.tid)
    else .ok ((s.onWs (fun w => if la then w.killC a else w)).doneS d [] 8))

/-- `tstat` (R349): a word of the entry, 0 for another function's entry. -/
def execTstat (d : SReg) (a : CReg) (b : SReg) (la lb : Bool) (s : State) : Host.Outcome State Fault Refusal := finish (do
  tokensReady s [d, b]
  let c := s.ws.getC a
  if c.tag then pure () else trapNow s 0x07 0x10 (BitVec.ofNat 64 c.base) 0
  accessReady s
  tileBooked s
  let e := s.tile c.tid
  let w := if e.vfn ≠ s.vfn ∧ s.vfn ≠ 0 then 0 else e.word (fld (s.ws.getS b) 1 0)
  .ok ((s.onWs (fun w => if la then w.killC a else w)).doneS d [(lb, b)] w))

end Sys2Proof.Machine
end

