-- ==== Sys2Proof/Machine/Barrier.lean ====
section
/-! DEFINITION. Barriers (spec/13 R357 to R365): arrivals, waits, membership, time-outs and forced arrivals. -/
namespace Sys2Proof.Machine

/-- The barrier number of an operand (R359). -/
def barOf (x : Word) : Fin 16 := fin16 (fld x 3 0)

def State.bar (s : State) (d : Nat) (b : Fin 16) : Barrier := (s.die d).bar[b]
def State.onBar (s : State) (d : Nat) (b : Fin 16) (f : Barrier → Barrier) : State := s.onDie d (fun x => x.onBar b f)
def State.onNode (s : State) (cl : Nat) (b : Fin 16) (f : NodeMask → NodeMask) : State := s.onCluster cl (fun c => c.onNode b f)

/-- The result word of `arrive` and `barw` (R359). -/
def barResult (par : Bool) (status : Nat) : Word := BitVec.ofNat 64 (bit01 par + status * 2)

/-! ## Arrivals (R357, R358, R360, R363) -/

/-- A time-out is due when TMO runs out (R363). -/
def State.armTimeout (s : State) (d : Nat) (b : Fin 16) (next : Nat) : State :=
  let s := s.onBar d b (fun r => { r with next := next })
  s.post (s.pkg.ptime + (next - s.ptimeOf d)) (.timeout d b.val)

/-- One arrival reaches the root (R357, R358): the phase's first one sets TSTART. -/
def State.rootArrival (s : State) (d : Nat) (b : Fin 16) : State :=
  let r := s.bar d b
  let t := s.ptimeOf d
  let s := s.onBar d b (fun r => { r with count := r.count + 1, tstart := if r.count = 0 then t else r.tstart })
  let s := if r.count = 0 ∧ r.tmo ≠ 0 then s.armTimeout d b (t + r.tmo) else s
  s.checkPhase d b

/-- BARRIER_ARRIVAL (R360): an arrival reaches node and root; one that finds SKIP set is used up by it. -/
def execBarrierArrival (core : Nat) (slot : SlotId) (b : Nat) (s : State) : Host.Outcome State Fault Refusal :=
  let k := fin16 (b % 16)
  let cl := clusterOf core
  let bit := nodeBit core slot
  if !s.isMember core slot k ∨ s.hasArrived core slot k then .next s
  else if ((s.cluster cl).node[k]).skip &&& bit != 0 then .next (s.onNode cl k (fun m => { m with skip := m.skip &&& ~~~bit }))
  else .next ((s.onNode cl k (fun m => { m with arrived := m.arrived ||| bit })).rootArrival (dieOf core) k)

/-- The nodes of a die. -/
def dieClusters (d : Nat) : List Nat := upto (d * 32) 32

/-- How many members a node loses when the phase completes. -/
def popCount (x : BitVec 32) : Nat := ((List.range 32).filter (fun i => x.getLsbD i)).length

/-- A time-out of this root cycle is void: the phase completes in it (R363). -/
def State.voidTimeouts (s : State) (die b : Nat) : State :=
  let now := s.pkg.ptime
  (s.cores.filter (fun c => dieOf c == die)).foldl (fun s c => s.onCore c (fun k => { k with slotx := k.slotx.map (fun (x : SlotX) =>
    if x.waitBar.any (fun w => w.bar == b) && x.timeout.any (fun t => t.2 == now) then { x with timeout := none } else x) })) s

/-- PHASE_COMPLETION (R358, R362): PAR inverts, COUNT and ARRIVED clear, removed members leave, every core is signalled. -/
def execPhaseCompletion (die b : Nat) (s : State) : Host.Outcome State Fault Refusal :=
  let k := fin16 (b % 16)
  let r := s.bar die k
  if r.expect = 0 ∨ r.count ≠ r.expect then .next s
  else
    let out := ((dieClusters die).map (fun c => popCount ((s.cluster c).node[k]).leaving)).sum
    let s := s.onBar die k (fun r => { r with par := !r.par, count := 0, expect := r.expect - out, next := 0 })
    let s := s.voidTimeouts die b
    let s := (dieClusters die).foldl (fun s c => if (s.cluster c).node[k] = NodeMask.reset then s else
      s.onNode c k (fun m => { m with
        member := m.member &&& ~~~m.leaving, skip := m.skip &&& ~~~m.leaving, arrived := 0, leaving := 0, forced := 0 })) s
    .next ((s.cores.filter (fun c => dieOf c == die)).foldl (fun s c => s.post s.pkg.ptime (.completionSignalArrival c b)) s)

/-- COMPLETION_SIGNAL_ARRIVAL (R361): the waits of the core on the barrier end. -/
def execCompletionSignalArrival (core b : Nat) (s : State) : Host.Outcome State Fault Refusal :=
  .next (s.onCore core (fun c => { c with slotx := c.slotx.map (fun (x : SlotX) =>
    { x with waitBar := x.waitBar.map (fun w => if w.bar = b then { w with signalled := true } else w) }) }))

/-- The members of a barrier that have not arrived, as core × 4 + slot, lowest first (R363). -/
def State.missing (s : State) (d : Nat) (b : Fin 16) : List Nat :=
  (List.range 1024).filterMap (fun j =>
    let core := d * 256 + j / 4
    let i := fin4 (j % 4)
    let m := (s.cluster (clusterOf core)).node[b]
    if m.member &&& ~~~(m.arrived ||| m.forced) &&& nodeBit core i != 0 then some (core * 4 + i.val) else none)

/-- The detail word of TIMEOUT (R363). -/
def State.timeoutWord (s : State) (d : Nat) (b : Fin 16) : Word :=
  let l := s.missing d b
  BitVec.ofNat 64 (b.val + bit01 (s.bar d b).par * 16 + l.length % 1024 * 32 + l.headD 0 * 32768)

/-- TIMEOUT (R363): every waiting `bwait` on the barrier, and every member's waiting `barw`, is signalled, once the die's clock has come to
the time-out. -/
def execTimeout (die b : Nat) (s : State) : Host.Outcome State Fault Refusal :=
  let k := fin16 (b % 16)
  let r := s.bar die k
  let now := s.ptimeOf die
  if r.count = 0 ∨ r.tmo = 0 ∨ r.next = 0 ∨ r.count = r.expect then .next s
  else if now < r.next then .next (s.once (s.pkg.ptime + (r.next - now)) (.timeout die b))
  else
    let w := s.timeoutWord die k
    let s := (s.cores.filter (fun c => dieOf c == die)).foldl (fun s c => s.onCore c (fun x => { x with
      slotx := x.slotx.map (fun y => if y.waitBar.any (fun v => v.bar == b) then { y with timeout := some (w, s.pkg.ptime) } else y) })) s
    .next (s.armTimeout die k (r.next + r.tmo))

/-! ## Waiting (R361, R363) -/

/-- A context waits in `bwait` or `barw`: LATE in a booked task, TIMEOUT when it has been signalled; in replay where it is recorded (R406). -/
def barrierWait (s : State) (b : Fin 16) (barw : Bool) (status : Nat) : M State :=
  match (if s.timingTrap 0x12 then s.sx.timeout else none) with
  | some w => trapNow (s.onSx (fun x => { x with timeout := none, waitBar := none })) 0x12 0 0 w.1
  | none =>
    if s.booked ∧ s.timingTrap 0x0F then waitNow s 0x11 0x03 0
    else if s.recorded = some 0x12 then .error (.st ((s.onSx (fun x => { x with timeout := none, waitBar := none })).recordedTrap 0x12))
    else .error (.st ((s.onSx (fun x => { x with waitBar := some { bar := b.val, barw := barw, status := status, signalled := false } })).waitHere 0x11))

/-- The wait is over. -/
def State.barrierDone (s : State) : State := s.onSx (fun x => { x with timeout := none, waitBar := none })

/-- Whether the waiting instruction still waits: until the completion signal reaches the core (R361); one that does not wait
yet by its own condition; a TIMEOUT signalled before that comes first (R363). -/
def State.stillWaits (s : State) (start : Bool) : Bool :=
  match s.sx.waitBar with
  | some w => !w.signalled || (s.sx.timeout.isSome && s.timingTrap 0x12)
  | none => start

/-! ## The instructions (R359) -/

/-- The decision at issue (R360). -/
def State.arrivalStatus (s : State) (b : Fin 16) : Nat := s.arrivalAt s.cn s.core.cur b

/-- The arrival of a status: an OK one enters the release queue (R118, R360). -/
def performArrival (s : State) (b : Fin 16) (status : Nat) : M State :=
  if status = 0 then enqueueRelease s (.arrive b.val)
  else .ok (if status = 3 then s.useSkip s.cn s.core.cur b else s)

/-- The parity that `arrive` reports (R359): that of the phase in progress; a FORCED arrival counts in the phase for which
`bforce` gave one, which has completed unless the node still shows it (R360). -/
def State.arrivalPar (s : State) (b : Fin 16) (status : Nat) : Bool :=
  let par := (s.bar s.dn b).par
  if status = 3 ∧ ((s.cluster s.cl).node[b]).forced &&& nodeBit s.cn s.core.cur = 0 then !par else par

/-- `arrive` (R359, R360). -/
def execArrive (d a : SReg) (la : Bool) (s : State) : Host.Outcome State Fault Refusal := finish (do
  tokensReady s [d, a]
  marginGate s
  windowGate s
  let b := barOf (s.ws.getS a)
  let st := s.arrivalStatus b
  let par := s.arrivalPar b st
  let s ← performArrival s b st
  .ok (s.doneS d [(la, a)] (barResult par st)))

/-- `bwait` (R359, R361). -/
def execBwait (a b : SReg) (la lb : Bool) (s : State) : Host.Outcome State Fault Refusal := finish (do
  tokensReady s [a, b]
  marginGate s
  windowGate s
  let k := barOf (s.ws.getS a)
  if s.stillWaits ((s.bar s.dn k).par == (s.ws.getS b).getLsbD 0) then barrierWait s k false 0
  else .ok (s.barrierDone.done [(la, a), (lb, b)]))

/-- The wait of `barw` (R359, R361): while the slot's ARRIVED bit is set or its arrival is on its way. -/
def barwWait (s : State) (b : Fin 16) (status : Nat) (d a : SReg) (la : Bool) : M State :=
  if s.stillWaits (s.hasArrived s.cn s.core.cur b || s.slot.arrivalQueued b.val
      || s.pending.any (fun p => p.2 == .barrierArrival s.cn s.core.cur b.val)) then barrierWait s b true status
  else
    let s := (s.barrierDone).onWs (fun w => w.setTsw 2 2 0)
    .ok (s.doneS d [(la, a)] (barResult (s.bar s.dn b).par status))

/-- `barw` (R217, R359 to R361). -/
def execBarw (d a : SReg) (la : Bool) (s : State) : Host.Outcome State Fault Refusal := finish (do
  tokensReady s [d, a]
  marginGate s
  windowGate s
  let b := barOf (s.ws.getS a)
  match s.sx.waitBar with
  | some w => barwWait s b w.status d a la
  | none =>
    if s.ws.ap then barwWait s b 0 d a la
    else
      let st := s.arrivalStatus b
      let s ← performArrival s b st
      barwWait (if st = 0 then s.onWs (fun w => w.setTsw 2 2 1) else s) b st d a la)

/-- `bjoin` (R362). -/
def execBjoin (d a : SReg) (la : Bool) (s : State) : Host.Outcome State Fault Refusal := finish (do
  tokensReady s [d, a]
  marginGate s
  windowGate s
  let b := barOf (s.ws.getS a)
  if s.isMember s.cn s.core.cur b then .ok (s.doneS d [(la, a)] 1)
  else if (s.bar s.dn b).count ≠ 0 then waitNow s 0x11 0x03 0
  else
    let s := s.onNode s.cl b (fun m => { m with member := m.member ||| nodeBit s.cn s.core.cur })
    .ok ((s.onBar s.dn b (fun r => { r with expect := r.expect + 1 })).doneS d [(la, a)] 0))

/-- `bjoin.leave` (R362). -/
def execBjoinLeave (d a : SReg) (la : Bool) (s : State) : Host.Outcome State Fault Refusal := finish (do
  tokensReady s [d, a]
  marginGate s
  windowGate s
  let b := barOf (s.ws.getS a)
  let st := if s.isMember s.cn s.core.cur b then 0 else 1
  .ok ((s.leaveBarrier s.cn s.core.cur b).doneS d [(la, a)] (BitVec.ofNat 64 st)))

/-- `btimeout` (R359, R363). -/
def execBtimeout (a b : SReg) (la lb : Bool) (s : State) : Host.Outcome State Fault Refusal := finish (do
  tokensReady s [a, b]
  let k := barOf (s.ws.getS a)
  let tmo := fld (s.ws.getS b) 31 0
  let r := s.bar s.dn k
  let s := s.onBar s.dn k (fun r => { r with tmo := tmo, next := 0 })
  let s := if r.count = 0 ∨ tmo = 0 then s
    else s.armTimeout s.dn k (if tmo ≤ s.now - r.tstart then s.now + 1 else r.tstart + tmo)
  .ok (s.done [(la, a), (lb, b)]))

/-- The member that `bforce` names: its core and slot (R364). -/
def forcedCore (x : Word) : Nat := fld x 12 2
def forcedSlot (x : Word) : SlotId := fin4 (fld x 1 0)

/-- `bforce` (R364). -/
def execBforce (d a b : SReg) (la lb : Bool) (s : State) : Host.Outcome State Fault Refusal := finish (do
  needPriv s s.root
  tokensReady s [d, a, b]
  let k := barOf (s.ws.getS a)
  let core := forcedCore (s.ws.getS b)
  let i := forcedSlot (s.ws.getS b)
  let ks := [(la, a), (lb, b)]
  if dieOf core ≠ s.dn ∨ !s.isMember core i k then .ok (s.doneS d ks 1)
  else if s.arrivalMade core i k then .ok (s.doneS d ks 2)
  else
    let bit := nodeBit core i
    let s := s.onNode (clusterOf core) k (fun m => { m with forced := m.forced ||| bit, skip := m.skip ||| bit })
    .ok ((s.rootArrival s.dn k).doneS d ks 0))

/-- `bforce.remove` (R362, R364). -/
def execBforceRemove (d a b : SReg) (la lb : Bool) (s : State) : Host.Outcome State Fault Refusal := finish (do
  needPriv s s.root
  tokensReady s [d, a, b]
  let k := barOf (s.ws.getS a)
  let core := forcedCore (s.ws.getS b)
  let i := forcedSlot (s.ws.getS b)
  let ks := [(la, a), (lb, b)]
  if dieOf core ≠ s.dn ∨ !s.isMember core i k then .ok (s.doneS d ks 1)
  else .ok ((s.leaveBarrier core i k).doneS d ks 0))

/-- The word that `bstat` reads through `bsel` (R365). -/
def State.bstat (s : State) : Word :=
  let b := barOf s.core.bsel
  let m := (s.cluster s.cl).node[b]
  let r := s.bar s.dn b
  match fld s.core.bsel 5 4 with
  | 0 => BitVec.ofNat 64 (m.member.toNat + m.arrived.toNat * 2 ^ 32)
  | 1 => BitVec.ofNat 64 m.skip.toNat
  | 2 => BitVec.ofNat 64 (r.expect + r.count * 2 ^ 11 + bit01 r.par * 2 ^ 22 + r.tmo * 2 ^ 23)
  | _ => 0

end Sys2Proof.Machine
end

