-- ==== Sys2Proof/Machine/Mailbox.lean ====
section
/-! DEFINITION. Mailboxes and messages (spec/13 R366 to R370; spec/06 R174), and the wait on counters (R371). -/
namespace Sys2Proof.Machine

/-! ## Messages (R367) -/

/-- The header word of a message. -/
def msgHeader (m : Msg) : Word :=
  BitVec.ofNat 64 (m.kind % 16 + m.src % 2048 * 2 ^ 4 + m.sctx % 4 * 2 ^ 15 + m.vfn % 64 * 2 ^ 17 + bit01 m.host * 2 ^ 23
    + m.tag.toNat * 2 ^ 32)

/-- A message that a context has sent by `msend` or `amsg`: it is retried from its release queue (R366, R369). -/
def msgFromContext (m : Msg) : Bool := !m.host && (m.kind == 1 || m.kind == 5 || m.kind == 6 || decide (8 ≤ m.kind))

/-! ## Arrival (R174, R366, R369) -/

/-- Messages for a core that wait in its cluster's overflow. -/
def State.overflowed (s : State) (core : Nat) : Bool := (s.cluster (clusterOf core)).overflow.any (fun e => e.1 == core)

/-- A message finds a place at its target (R366): the mailbox, or the overflow when the mailbox is full or older messages
for the core wait there; none when it is refused as busy. A core in replay mode accepts no message (R406). -/
def State.placeMsg (s : State) (target : Nat) (m : Msg) : Option State :=
  let c := s.coreOf target
  let cl := clusterOf target
  if c.dbg.dctl.getLsbD 5 then none
  else if c.mbox.length < 64 ∧ !s.overflowed target then some (s.onCore target (fun c => { c with mbox := c.mbox ++ [m] }))
  else if (s.cluster cl).overflow.length < 256 then
    some (s.onCluster cl (fun k => { k with overflow := k.overflow ++ [(target, m)] }))
  else none

/-- Whether the message at the head of a slot's release queue is on its way (R369). -/
def Slot.sending (sl : Slot) : Bool :=
  match sl.relq with
  | e :: _ => e.sent
  | [] => false

/-- The head of a slot's release queue changed. -/
def Slot.onHead (sl : Slot) (f : RelEntry → RelEntry) : Slot :=
  match sl.relq with
  | e :: t => { sl with relq := f e :: t }
  | [] => sl

/-- A message has been accepted: its sender's release queue goes on; a capability's pass has ended (R99, R369). -/
def State.accepted (s : State) (m : Msg) : State :=
  let i := fin4 (m.sctx % 4)
  if msgFromContext m then
    if ((s.coreOf m.src).slot i).sending then
      (s.onCore m.src (fun c => c.onSlot i (fun x => { x with relq := x.relq.drop 1 }))).post s.pkg.ptime (.releaseComplete m.src i)
    else s
  else if m.kind = 2 then
    s.tileDone m.src i (bitsOf (m.w0.toNat + m.w1.toNat * 2 ^ 64) 123 108) 0
  else s

/-- A busy refusal (R366, R369): a context's message stays at the head of its release queue and is retried; a hardware message
is held at its engine and retried; a host is told to retry. -/
def State.refusedBusy (s : State) (target : Nat) (m : Msg) : State :=
  let i := fin4 (m.sctx % 4)
  if msgFromContext m then
    (s.onCore m.src (fun c => c.onSlot i (fun x => x.onHead (fun e => { e with refused := true })))).post (s.pkg.ptime + 16)
      (.busyRetry m.src i)
  else if m.host then s
  else s.post (s.pkg.ptime + 16) (.messageArrival target m)

/-- The template that an active message selects is enabled, and so is its function (R174, R420). -/
def State.templateOn (s : State) (core vfn : Nat) : Bool :=
  (vfn == 0 || (s.pkgx.vfEnable && decide (vfn ≤ s.pkgx.numVfs))) &&
    (match mapGet (s.die (dieOf core)).templates vfn with
     | some t => t.on
     | none => false)

/-- MESSAGE_ARRIVAL (R174, R366). A host's message to a core on an absent die ends on its PCIe function (Unsupported Request). -/
def execMessageArrival (target : Nat) (m : Msg) (s : State) : Host.Outcome State Fault Refusal :=
  if !s.corePresent target then .next s
  else if m.kind = 6 ∧ s.templateOn target m.vfn = false then .next ((s.count target 0x023 m.vfn).accepted m)
  else
    match s.placeMsg target m with
    | some s =>
      let s := s.accepted m
      .next (if m.kind = 6 then s.post s.pkg.ptime (.activeMessageStart target) else s)
    | none => .next (s.refusedBusy target m)

/-- BUSY_RETRY (R366): the message at the head of the release queue goes to its target again. -/
def execBusyRetry (core : Nat) (slot : SlotId) (s : State) : Host.Outcome State Fault Refusal :=
  match ((s.coreOf core).slot slot).relq with
  | e :: _ =>
    match e.op with
    | .message target m => .next (if e.sent ∧ e.refused then s.sendMsg target m else s)
    | _ => .next s
  | [] => .next s

/-- The first element that satisfies `p`, and the list without it. -/
def takeFirst {α : Type} (p : α → Bool) (l : List α) : Option (α × List α) :=
  match l with
  | [] => none
  | x :: t =>
    if p x then some (x, t)
    else match takeFirst p t with
      | some (y, r) => some (y, x :: r)
      | none => none

/-- OVERFLOW_MOVE (R366): the oldest message of the overflow whose target's mailbox has room moves in, one per cycle; into that of a core in
replay mode none (R406). -/
def execOverflowMove (cl : Nat) (s : State) : Host.Outcome State Fault Refusal :=
  match takeFirst (fun e => decide ((s.coreOf e.1).mbox.length < 64) && !(s.coreOf e.1).dbg.dctl.getLsbD 5) (s.cluster cl).overflow with
  | none => .next s
  | some ((t, m), rest) =>
    let s := s.onCluster cl (fun k => { k with overflow := rest })
    let s := s.onCore t (fun c => { c with mbox := c.mbox ++ [m] })
    let s := s.once (s.pkg.ptime + 1) (.overflowMove cl)
    .next (if m.kind = 6 then s.post s.pkg.ptime (.activeMessageStart t) else s)

/-- A mailbox entry is freed: messages move in from the overflow (R366). -/
def State.freeEntry (s : State) (core : Nat) (rest : List Msg) : State :=
  (s.onCore core (fun c => { c with mbox := rest })).once (s.pkg.ptime + 1) (.overflowMove (clusterOf core))

/-! ## Sending (R368, R369) -/

/-- A message held refused in the slot's release queue makes a booked sender LATE (R369). -/
def sendGate (s : State) : M Unit :=
  if s.booked ∧ s.slot.relq.any (fun e => e.refused) then waitNow s 0x12 0x04 0 else .ok ()

def pairReg (p : Pair) (j : Nat) : SReg := fin32 (2 * p.val + 2 + j)

/-- The status of `msend` and `amsg` (R368): 1 for a KIND that may not be sent, 2 for an absent core. -/
def State.sendStatus (s : State) (target kind : Nat) : Nat :=
  if kind = 1 ∨ kind = 5 ∨ kind = 6 ∨ 8 ≤ kind then (if s.corePresent target then 0 else 2) else 1

/-- A message of the current context. -/
def State.contextMsg (s : State) (kind : Nat) (tag : BitVec 32) (w0 w1 entry : Word) : Msg :=
  { kind := kind, src := s.cn, sctx := s.core.cur.val, vfn := s.vfn, host := false, tag := tag, w0 := w0, w1 := w1,
    captag := false, entry := entry }

/-- A message enters the slot's release queue unless its status forbids it. -/
def sendOp (s : State) (target st : Nat) (m : Msg) : M State :=
  if st = 0 then enqueueRelease s (.message target m) else .ok s

/-- `msend` (R368, R369). -/
def execMsend (d : SReg) (a : Pair) (b : SReg) (la lb : Bool) (s : State) : Host.Outcome State Fault Refusal := finish (do
  tokensReady s [d, pairReg a 0, pairReg a 1, b]
  sendGate s
  let t := s.ws.getS b
  let kind := fld t 15 12
  let st := if kind = 6 then 1 else s.sendStatus (fld t 10 0) kind
  let s ← sendOp s (fld t 10 0) st
    (s.contextMsg kind (t.extractLsb' 32 32) (s.ws.getS (pairReg a 0)) (s.ws.getS (pairReg a 1)) 0)
  .ok (s.doneS d [(la, pairReg a 0), (lb, b)] (BitVec.ofNat 64 st)))

/-- `amsg` (R174, R368, R369). -/
def execAmsg (d : SReg) (a : Grp) (la : Bool) (s : State) : Host.Outcome State Fault Refusal := finish (do
  tokensReady s (d :: grpRegs a)
  sendGate s
  let target := fld (s.ws.getS (grpReg a 0)) 10 0
  let st := s.sendStatus target 6
  let s ← sendOp s target st (s.contextMsg 6 0 (s.ws.getS (grpReg a 2)) (s.ws.getS (grpReg a 3)) (s.ws.getS (grpReg a 1)))
  .ok (s.doneS d [(la, grpReg a 0)] (BitVec.ofNat 64 st)))

/-! ## Receiving (R370, R405) -/

/-- A kind mask admits a kind (R370); bit 2 counts for `mwait` only. -/
def kindAdmitted (mask : Word) (cap : Bool) (k : Nat) : Bool :=
  if fld mask 15 0 = 0 then k == 1 || k == 3 || k == 4 || k == 5 || decide (8 ≤ k)
  else mask.getLsbD k && k != 0 && k != 6 && k != 7 && (k != 2 || cap)

/-- The restrictions of R370. -/
def State.seesMsg (s : State) (m : Msg) : Bool := s.root || (m.vfn == s.vfn && m.kind != 4)

/-- No admitted message: the context waits (R370); in replay mode a receive that finds none is a divergence (R407). -/
def mailboxWait {α : Type} (s : State) (taking : Bool) : M α :=
  if s.booked ∧ s.timingTrap 0x0F then waitNow s 0x10 0x04 0
  else if taking ∧ s.core.dbg.dctl.getLsbD 5 then .error (.st (s.diverge s.cn s.core.cur 4 0 0))
  else waitNow s 0x10 0x04 0

/-- The oldest admitted message is taken and logged (R370, R405). -/
def receive (s : State) (admits : Nat → Bool) : M (Msg × State) :=
  match takeFirst (fun m => admits m.kind && s.seesMsg m) s.core.mbox with
  | none => mailboxWait s true
  | some (m, rest) =>
    let s := s.freeEntry s.cn rest
    let w3 := BitVec.ofNat 64 (s.slot.icnt.toNat + s.core.cur.val * 2 ^ 48 + bit01 m.captag * 2 ^ 50)
    .ok (m, s.logMessage s.cn (msgHeader m) m.w0 m.w1 w3)

/-- `mrecv` (R368, R370): the fourth register of the group keeps its value. -/
def execMrecv (d : Grp) (a : SReg) (la : Bool) (s : State) : Host.Outcome State Fault Refusal := finish (do
  tokensReady s (a :: grpRegs d)
  let mask := s.ws.getS a
  let (m, s) ← receive s (kindAdmitted mask false)
  .ok ((s.onWs (fun w => ((((w.killSs [(la, a)]).setS (grpReg d 0) m.w0).setS (grpReg d 1) m.w1).setS (grpReg d 2) (msgHeader m)))).retire))

/-- `mrecv.c` (R368, R370). -/
def execMrecvC (d : CReg) (a : SReg) (s : State) : Host.Outcome State Fault Refusal := finish (do
  tokensReady s [a]
  let (m, s) ← receive s (fun k => k == 2)
  let s := s.onWs (fun w => w.setC d { val := m.w1 ++ m.w0, tag := m.captag })
  .ok (s.doneS a [] (msgHeader m)))

/-- `mwait` (R368, R370): the count of matching messages. -/
def execMwait (d a : SReg) (la : Bool) (s : State) : Host.Outcome State Fault Refusal := finish (do
  tokensReady s [d, a]
  let mask := s.ws.getS a
  let n := (s.core.mbox.filter (fun m => kindAdmitted mask true m.kind && s.seesMsg m)).length
  if n = 0 then mailboxWait s false else .ok (s.doneS d [(la, a)] (BitVec.ofNat 64 n)))

/-- REPLAY_MESSAGE_INJECT (R406): a logged entry is placed in the mailbox when its slot reaches the recorded `icnt`. -/
def execReplayMessageInject (core : Nat) (s : State) : Host.Outcome State Fault Refusal :=
  let c := s.coreOf core
  let due := fun (e : List Word) =>
    let w3 := e.getD 3 0
    (c.slot (fin4 (fld w3 49 48))).icnt.toNat == fld w3 47 0
  if c.dbg.dctl.getLsbD 5 = false ∨ 64 ≤ c.mbox.length then .next s
  else
    match takeFirst due c.dbg.rplMsgs with
    | none => .next s
    | some (e, rest) =>
      let h := e.getD 0 0
      let m : Msg :=
        { kind := fld h 3 0, src := fld h 14 4, sctx := fld h 16 15, vfn := fld h 22 17, host := h.getLsbD 23,
          tag := h.extractLsb' 32 32, w0 := e.getD 1 0, w1 := e.getD 2 0, captag := (e.getD 3 0).getLsbD 50, entry := 0 }
      .next (s.onCore core (fun c => { c with mbox := c.mbox ++ [m], dbg := { c.dbg with rplMsgs := rest } }))

/-! ## The wait on counters (R371) -/

/-- A count is at or below its immediate; 15 places no bound. -/
def countOk (n : Nat) (b : BitVec 4) : Bool := b == 15 || decide (n ≤ b.toNat)

/-- `wait` (R371): it observes the copies or matrix commands whose count is 0 as it ends (R112). -/
def execWait (loads stores copies matrix : BitVec 4) (s : State) : Host.Outcome State Fault Refusal := finish (
  let x := s.slot
  if countOk x.outLoads loads ∧ countOk x.outStores stores ∧ countOk x.outCopies copies ∧ countOk x.outMatrix matrix then
    .ok ((s.observe s.cn s.core.cur (fun e => (e.path == 1 && x.outCopies == 0) || (e.path == 2 && x.outMatrix == 0))).retire)
  else waitNow s 0x21 0x01 0)

end Sys2Proof.Machine
end

