-- ==== Sys2Proof/Machine/Launch.lean ====
section
/-! DEFINITION. Scratchpad allocations (spec/02 R57; spec/07 R186; spec/13 R380) and the start of tasks (spec/06 R169, R172,
R174; spec/07 R188, R198). -/
namespace Sys2Proof.Machine

/-! ## Allocations (R57) -/

def roundUp (n : Nat) : Nat := (n + 63) / 64 * 64

/-- An allocation of `len` bytes at `base` keeps a margin granule from every other one and from both ends. -/
def Core.allocFits (c : Core) (base len : Nat) : Bool :=
  decide (64 ≤ base) && decide (base + len + 64 ≤ 196608)
    && c.allocs.all (fun a => decide (base + len + 64 ≤ a.base) || decide (a.base + a.len + 64 ≤ base))

/-- The lowest offset at which it fits: after the first margin or after the margin of another allocation. -/
def Core.allocBase (c : Core) (len : Nat) : Option Nat :=
  ((64 :: c.allocs.map (fun a => a.base + a.len + 64)).filter (fun b => c.allocFits b len)).min?

/-- An allocation made, at most 32 on a core, reservations counted. -/
def Core.allocate (c : Core) (i : SlotId) (kind : AllocKind) (len : Nat) : Option (Nat × Core) :=
  if 32 ≤ c.allocs.length then none
  else match c.allocBase len with
    | some b => some (b, { c with allocs := c.allocs ++ [{ base := b, len := len, slot := i, kind := kind }] })
    | none => none

/-- The sizes of a task's allocations by word 8 of its record or template (R170). -/
def stackBytes (w8 : Word) : Nat := roundUp (fld w8 19 4)
def declaredBytes (w8 : Word) : Nat := roundUp (fld w8 35 20)
def wsBytes : Nat := 9216

/-- The workspace, stack and declared allocation of a task: the base of the workspace and the end of the stack (R169). -/
def Core.allocTask (c : Core) (i : SlotId) (w8 : Word) : Option (Nat × Nat × Core) := do
  let (wp, c) ← c.allocate i .workspace wsBytes
  let n := stackBytes w8
  let (top, c) ← if n = 0 then some (0, c) else (c.allocate i .stack n).map (fun r => (r.1 + n, r.2))
  let m := declaredBytes w8
  let c ← if m = 0 then some c else (c.allocate i .declared m).map (fun r => r.2)
  some (wp, top, c)

/-- The same space reserved for an admitted unit (R186). -/
def Core.reserve (c : Core) (d rn j : Nat) (w8 : Word) : Option Core := do
  let k : AllocKind := .reserved d rn j
  let (_, c) ← c.allocate 0 k wsBytes
  let n := stackBytes w8
  let c ← if n = 0 then some c else (c.allocate 0 k n).map (fun r => r.2)
  let m := declaredBytes w8
  if m = 0 then some c else (c.allocate 0 k m).map (fun r => r.2)

/-- A unit's reservation turned into the allocations of its task (R186): the workspace first, then the stack. -/
def Core.convertReserved (c : Core) (i : SlotId) (d rn j : Nat) (w8 : Word) : Option (Nat × Nat × Core) :=
  let mine := c.allocs.filter (fun a => a.kind == .reserved d rn j)
  let rest := c.allocs.filter (fun a => a.kind != .reserved d rn j)
  match mine with
  | w :: t =>
    let n := stackBytes w8
    let kinds : List AllocKind := if n = 0 then [.declared] else [.stack, .declared]
    let top := match t with
      | a :: _ => if n = 0 then 0 else a.base + n
      | [] => 0
    let first : Alloc := { w with slot := i, kind := .workspace }
    let more : List Alloc := (t.zip kinds).map (fun x => { x.1 with slot := i, kind := x.2 })
    some (w.base, top, { c with allocs := rest ++ first :: more })
  | [] => c.allocTask i w8

/-! ## The state of a task at its start (R169) -/

/-- What a record, or a template and its message, gives a task. -/
structure TaskStart where
  task : Task
  wp : Nat
  stackTop : Nat
  pc : Word
  x : Nat
  y : Nat
  z : Nat
  arg0 : Word
  arg1 : Word
  extent : Word
  index : Nat
  w8 : Word
  cvm : Word
  mode : Word
  atp : Word
deriving DecidableEq, Repr

/-- The workspace of a task at its start; `mcr.NV` starts at 0 (R300). -/
def TaskStart.ws (t : TaskStart) (i : SlotId) : Ws :=
  let w := { ({ Ws.reset with
    pc := t.pc,
    tsw := natWord (bit01 (t.w8.getLsbD 2) + bit01 t.task.booked * 2 + bit01 (t.w8.getLsbD 3) * 16 + i.val * 65536),
    atp := t.atp,
    cvm := t.cvm } : Ws).setMode (setFld t.mode 35 35 0).toNat with vl := 32 }
  let w := ((w.setS 1 (natWord t.x)).setS 2 (natWord t.y)).setS 3 (natWord t.z)
  let w := ((w.setS 4 t.arg0).setS 5 t.arg1).setS 6 t.extent
  (w.setS 7 (natWord t.index)).setS 30 (natWord t.stackTop)

/-- A task bound to a slot: its workspace is written to its image and the slot enters READY (R167, R169); `icnt` is
cleared (R404). -/
def Core.beginTask (c : Core) (i : SlotId) (t : TaskStart) (now : Nat) : Core :=
  let r : Resident := { wp := t.wp, ws := t.ws i, mask := 0 }
  let c := c.saveWs r
  let c := if c.res.wp = t.wp then { c with res := r } else c
  let c := match c.alt with
    | some a => if a.wp = t.wp then { c with alt := some r } else c
    | none => c
  let c := c.onSlot i (fun x => { x with
    st := .ready,
    wp := t.wp,
    line := LineBuf.empty,
    icnt := 0,
    tbud := natWord (t.task.budget + bit01 (t.task.budget != 0) * 4294967296) })
  c.onSx i (fun x => { SlotX.reset with palette := x.palette, task := t.task, readySince := now })

def Core.freeSlot (c : Core) : Option SlotId := (List.finRange 4).find? (fun i => (c.slot i).st == .free)

/-! ## Units (R172, R198) -/

/-- The entry of a record (R170, R225): head 1 where its low bits name no head, else the head and bit 5 as they stand, which entering
the line checks (log entry 96). -/
def Rec.entry (r : Rec) : Word :=
  let x := fld r.w[0] 54 0
  natWord (if x % 64 = 0 then x + 1 else x)

/-- A unit of a record at its start: coordinates, arguments, the booked window (R169, R182). -/
def Rec.taskStart (r : Rec) (d rn j id : Nat) (booked : Bool) (start fin wp top : Nat) : TaskStart :=
  let x := fld r.w[3] 15 0
  let y := fld r.w[3] 31 16
  { task := { src := .unit d rn j, id := id, booked := booked, bookStart := start, bookEnd := fin,
              budget := fld r.w[12] 31 0, overrun := false, nest := 0 },
    wp := wp, stackTop := top, pc := r.entry, x := j % x, y := j / x % y, z := j / (x * y),
    arg0 := r.w[1], arg1 := r.w[2], extent := natWord (fld r.w[3] 47 0), index := j, w8 := r.w[8], cvm := r.w[9],
    mode := r.w[10], atp := r.w[11] }

/-- A unit starts in a slot with its allocations made (R171): the record is ACTIVE, the launch has started. -/
def State.startUnit (s : State) (core : Nat) (i : SlotId) (d rn j : Nat) (booked : Bool) (start fin : Nat)
    (a : Nat × Nat × Core) : State :=
  let r := s.record d rn
  let t := r.taskStart d rn j s.nextId booked start fin a.1 a.2.1
  let s := s.onCore core (fun _ => a.2.2.beginTask i t s.pkg.ptime)
  let s := s.onRec d rn (fun r => { r with started := r.started ++ [j] })
  let s := if booked then s.onCluster (clusterOf core) (fun c => { c with cal := c.cal.onLaunch (recKey d rn) (fun l => { l with started := true }) })
    else s
  { s with nextId := s.nextId + 1 }

/-- The unit of a booked record whose core this is (R182). -/
def Rec.unitOn (r : Rec) (core : Nat) : Option Nat := (List.range (min r.units 8)).find? (fun j => r.coreOfUnit j == core)

/-- A CORE claim of a launch for a core. -/
def Launch.coreClaim (l : Launch) (core : Nat) : Option BookedClaim := l.claims.find? (fun k => k.cls == 1 && k.inst == localOf core)

/-- The booked units of a core that are due and have not started: their record, unit and window (R188, R196). -/
def State.dueUnits (s : State) (core : Nat) : List (Nat × Nat × Nat × BookedClaim) :=
  let cl := clusterOf core
  let t := s.tempo (dieOf core)
  (s.cluster cl).cal.launches.filterMap (fun l =>
    let d := l.recNo / 512
    let rn := l.recNo % 512
    let r := s.record d rn
    match r.unitOn core, l.coreClaim core with
    | some j, some k =>
      if l.armed ∧ !l.done ∧ k.start ≤ t ∧ !setHas r.started j ∧ !r.restSettled ∧ !r.frozen ∧ !r.cancel then some (d, rn, j, k) else none
    | _, _ => none)

/-- The position of a core in a placement set (R172). -/
def Rec.position (r : Rec) (core : Nat) : Option Nat := (List.range r.places).find? (fun p => r.coreOfUnit p == core)

/-- The next unit of a free launch for a core (R172): units go in increasing j, none beyond MAXC + 1 contexts. -/
def State.nextUnit (s : State) (core d rn : Nat) (r : Rec) : Option Nat :=
  match r.position core with
  | none => none
  | some p =>
    let n := (r.started.filter (fun j => j % r.places == p)).length
    let j := p + r.places * n
    let running := (List.finRange 4).filter (fun i =>
      let c := s.coreOf core
      (c.slot i).st != .free && (match (c.sx i).task.src with
        | .unit d' rn' _ => d' == d && rn' == rn
        | _ => false))
    if r.state = 4 ∧ !r.booked ∧ !r.restSettled ∧ !r.frozen ∧ !r.cancel ∧ j < r.units ∧ running.length ≤ fld r.w[4] 25 24 then some j else none

/-- A candidate unit of a core (R198): deadline, record, die, unit, release time. -/
structure Candidate where
  deadline : Nat
  recNo : Nat
  die : Nat
  unit : Nat
  release : Nat
deriving DecidableEq, Repr

/-- The order of R184 and R198: a deadline of 0 counts as later than every other. -/
def deadlineBefore (a b : Nat) : Bool := a != 0 && (b == 0 || decide (a < b))
/-- R198's order; between records of one number on two dies, which the spec does not order, the lower die comes first (log entry
44). -/
def Candidate.before (a b : Candidate) : Bool :=
  deadlineBefore a.deadline b.deadline || (a.deadline == b.deadline &&
    (decide (a.recNo < b.recNo) || (a.recNo == b.recNo && decide (a.die < b.die))))

/-- The first of a list by an order. -/
def firstBy {α : Type} (before : α → α → Bool) (l : List α) : Option α :=
  l.foldl (fun m x => match m with
    | some y => if before x y then some x else some y
    | none => some x) none

/-- The pending free units of a core. -/
def State.candidates (s : State) (core : Nat) : List Candidate :=
  s.dies.flatMap (fun de => de.2.recs.filterMap (fun e =>
    (s.nextUnit core de.1 e.1 e.2).map (fun j =>
      { deadline := e.2.w[6].toNat, recNo := e.1, die := de.1, unit := j, release := e.2.w[5].toNat })))

/-- An event due at a time, once. -/
def State.postAt (s : State) (t : Nat) (e : Event) : State := if s.pending.any (fun p => p.1 == t && p.2 == e) then s else s.post t e

/-- The core looks for work again after a start. -/
def State.seekWork (s : State) (core : Nat) : State :=
  (s.postOnce (.freeUnitStart core)).postOnce (.activeMessageStart core)

/-- A booked unit that is due starts in a FREE context (R188, R196). -/
def State.startDue (s : State) (core : Nat) (i : SlotId) (x : Nat × Nat × Nat × BookedClaim) : State :=
  let d := x.1
  let rn := x.2.1
  let j := x.2.2.1
  let k := x.2.2.2
  match (s.coreOf core).convertReserved i d rn j (s.record d rn).w[8] with
  | some a => s.startUnit core i d rn j true k.start k.fin a
  | none => s

/-- FREE_UNIT_START (R172, R198): the first pending unit of a core starts in a FREE context; one whose RELEASE has not come
waits for it, one that finds no space waits for space (R169). -/
def execFreeUnitStart (core : Nat) (s : State) : Host.Outcome State Fault Refusal :=
  match (s.coreOf core).freeSlot with
  | none => .next s
  | some i =>
    if !s.pkgx.featDone ∨ !s.corePresent core then .next s
    else
      match s.dueUnits core with
      | x :: _ => .next ((s.startDue core i x).seekWork core)
      | [] =>
        let now := s.ptimeOf (dieOf core)
        let cs := s.candidates core
        let s : State := (cs.filter (fun c => decide (now < c.release))).foldl (fun s c =>
          s.postAt (s.pkg.ptime + (c.release - now)) (.freeUnitStart core)) s
        match firstBy Candidate.before (cs.filter (fun c => decide (c.release ≤ now))) with
        | none => .next s
        | some c =>
          match (s.coreOf core).allocTask i (s.record c.die c.recNo).w[8] with
          | some a => .next ((s.startUnit core i c.die c.recNo c.unit false 0 0 a).seekWork core)
          | none => .next s

/-! ## Active messages (R174) -/

/-- The task of an active message by its template. -/
def messageStart (m : Msg) (t : Template) (id wp top : Nat) : TaskStart :=
  { task := { src := .message m.vfn, id := id, booked := false, bookStart := 0, bookEnd := 0, budget := fld t.w12 31 0,
              overrun := false, nest := 0 },
    wp := wp, stackTop := top, pc := m.entry, x := 0, y := 0, z := 0, arg0 := m.w0, arg1 := m.w1,
    extent := 0x000100010001, index := 0, w8 := t.w8, cvm := t.w9, mode := t.w10, atp := t.w11 }

/-- ACTIVE_MESSAGE_START (R174, R198): the oldest active message starts in a FREE context when no released unit is pending on the
core, not even one that waits for space (log entry 44). -/
def execActiveMessageStart (core : Nat) (s : State) : Host.Outcome State Fault Refusal :=
  let c := s.coreOf core
  let now := s.ptimeOf (dieOf core)
  match c.freeSlot, takeFirst (fun m => m.kind == 6) c.mbox with
  | some i, some (m, rest) =>
    if !s.pkgx.featDone ∨ !(s.dueUnits core).isEmpty ∨ (s.candidates core).any (fun x => decide (x.release ≤ now)) then .next s
    else
      match mapGet (s.die (dieOf core)).templates m.vfn with
      | none => .next (s.freeEntry core rest)
      | some t =>
        match c.allocTask i t.w8 with
        | none => .next s
        | some (wp, top, c) =>
          let s := s.onCore core (fun _ => c.beginTask i (messageStart m t s.nextId wp top) s.pkg.ptime)
          let s := { s with nextId := s.nextId + 1 }
          let s := s.freeEntry core rest
          .next ((s.logMessage core (msgHeader m) m.w0 m.w1 (natWord (i.val * 2 ^ 48))).seekWork core)
  | _, _ => .next s

end Sys2Proof.Machine
end

