-- ==== Sys2Proof/Machine/Calendar.lean ====
section
/-! DEFINITION. The tempo calendar (spec/07 R178 to R197, R205): claims, admission, tempo boundaries, demotion, and the booking
forms (spec/13 R372, R373). -/
namespace Sys2Proof.Machine

/-! ## Claims (R179, R181) -/

def clCls (w : Word) : Nat := fld w 3 0
def clInst (w : Word) : Nat := fld w 11 4
def clOfs (w : Word) : Nat := fld w 23 12
def clLen (w : Word) : Nat := fld w 35 24 + 1
def clQty (w : Word) : Nat := fld w 47 36

/-- The capacity of a class in a tempo; for BANKS the mask of all groups (R179). -/
def capacity (cls : Nat) : Nat :=
  match cls with
  | 1 => 1 | 2 => 1 | 3 => 16 | 4 => 16 | 5 => 4095 | 6 => 16 | 7 => 16 | 8 => 8 | 9 => 90 | _ => 0

/-- An instance that a class has on the cluster of a core (R179). -/
def instOk (core cls inst : Nat) : Bool :=
  match cls with
  | 1 => decide (inst < 8)
  | 5 => decide (inst < 8)
  | 8 => (nearVaults core).any (· == inst)
  | _ => inst == 0

/-- A claim obeys R181 and R182. -/
def claimOk (core : Nat) (w : Word) : Bool :=
  decide (1 ≤ clCls w) && decide (clCls w ≤ 9) && fld w 63 48 == 0 && decide (1 ≤ clQty w) && decide (clQty w ≤ capacity (clCls w))
    && instOk core (clCls w) (clInst w)

/-- The non-empty claims of a record with their numbers (R181). -/
def Rec.claims (r : Rec) : List (Nat × Word) :=
  ((List.range 16).map (fun i => (i, r.w[fin32 (16 + i)]))).filter (fun c => c.2 != 0)
/-- The span of a template (R181). -/
def Rec.span (r : Rec) : Nat := (r.claims.map (fun c => clOfs c.2 + clLen c.2)).foldl max 0

/-- The placement set lies inside its die and in one cluster, with a core for each unit (R172, R182). -/
def Rec.spanOk (r : Rec) : Bool :=
  let cores := (List.range r.places).map r.coreOfUnit
  decide (fld r.w[4] 11 8 + fld r.w[4] 15 12 ≤ 15) && decide (fld r.w[4] 19 16 + fld r.w[4] 23 20 ≤ 15)
    && cores.all (fun c => clusterOf c == r.cluster) && decide (r.units ≤ r.places)

/-- The reason for which a template is refused (R182, R183): 1 CLAIM, 2 SPAN, 3 CORE; 0 when it is sound. -/
def Rec.templateRefused (r : Rec) : Nat :=
  if r.claims.any (fun c => !claimOk (r.coreOfUnit 0) c.2) ∨ 4096 < r.span then 1
  else if !r.spanOk then 2
  else
    let mine := fun (core : Nat) => (r.claims.filter (fun c => clCls c.2 == 1 && clInst c.2 == localOf core)).length
    if (List.range r.units).any (fun j => mine (r.coreOfUnit j) != 1) then 3 else 0

/-! ## The search (R179, R180, R185) -/

/-- A booked claim covers a tempo as admission sees it. -/
def BookedClaim.covers (k : BookedClaim) (t : Nat) : Bool := decide (k.start ≤ t) && decide (t < k.busy)

/-- The claims booked for a class and instance of a cluster; those of class HBM over the clusters of the die (R180). -/
def State.bookedFor (s : State) (cl cls inst : Nat) : List BookedClaim :=
  let cls' := if cls = 9 then dieClusters (cl / 32) else [cl]
  (cls'.flatMap (fun c => (s.cluster c).cal.launches.flatMap (fun l => l.claims))).filter (fun k => k.cls == cls && k.inst == inst)

/-- A quantity fits beside the claims held in each tempo of a range (R185). -/
def fitsIn (held : List BookedClaim) (cls qty start len : Nat) : Bool :=
  (upto start len).all (fun t =>
    let here := held.filter (fun k => k.covers t)
    if cls = 5 then here.all (fun k => k.qty &&& qty == 0)
    else decide ((here.map (fun k => k.qty)).sum + qty ≤ capacity cls))

/-- The claims of a template placed at a start tempo, none when one does not fit; claims of one launch count together. -/
def placeClaims (held : Nat → Nat → List BookedClaim) (s0 : Nat) (mine : List BookedClaim) (cs : List (Nat × Word)) :
    Option (List BookedClaim) :=
  match cs with
  | [] => some mine
  | (i, w) :: t =>
    let cls := clCls w
    let inst := clInst w
    let start := s0 + clOfs w
    let beside := held cls inst ++ mine.filter (fun k => k.cls == cls && k.inst == inst)
    if fitsIn beside cls (clQty w) start (clLen w) then
      placeClaims held s0 (mine ++ [{ idx := i, cls := cls, inst := inst, qty := clQty w, start := start,
                                      fin := start + clLen w, busy := start + clLen w, freed := false }]) t
    else none

/-- The first start tempo at which every claim fits: the start and the claims, or a refusal (R185). -/
def firstFit (place : Nat → Option (List BookedClaim)) (deadline span : Nat) (starts : List Nat) :
    Nat ⊕ (Nat × List BookedClaim) :=
  match starts with
  | [] => .inl 4
  | s :: t =>
    if deadline ≠ 0 ∧ deadline < (s + span) * 64 then .inl 5
    else match place s with
      | some ks => .inr (s, ks)
      | none => firstFit place deadline span t

/-- The first start tempo that a search or a compaction at tempo `t` considers. -/
def Rec.earliest (r : Rec) (t : Nat) : Nat := max (t + 2) ((r.w[5].toNat + 63) / 64)

/-- The search of R185. -/
def State.search (s : State) (r : Rec) : Nat ⊕ (Nat × List BookedClaim) :=
  let cl := r.cluster
  let tn := s.tempo (cl / 32)
  let t0 := r.earliest tn
  firstFit (fun st => placeClaims (s.bookedFor cl) st [] r.claims) r.w[6].toNat r.span (upto t0 (tn + 4097 - r.span - t0))

/-- The space of every unit reserved on its core (R186), none when a core lacks it. -/
def State.reserveUnits (s : State) (d rn : Nat) (r : Rec) (js : List Nat) : Option State :=
  match js with
  | [] => some s
  | j :: t =>
    match (s.coreOf (r.coreOfUnit j)).reserve d rn j r.w[8] with
    | some c => (s.onCore (r.coreOfUnit j) (fun _ => c)).reserveUnits d rn r t
    | none => none

/-- A refusal noted in `calstat` and for `bkq` (R183, R197). -/
def State.refuse (s : State) (d rn code : Nat) : State :=
  let s := s.onCluster (s.record d rn).cluster (fun c => { c with cal := { c.cal with lastRsn := code, lastRec := rn } })
  s.onRec d rn (fun r => { r with reason := code })

/-- The admission of a record (R182 to R186): 0 and its launch committed, or a reason. -/
def State.admitLaunch (s : State) (d rn : Nat) : Nat × State :=
  let r := s.record d rn
  let bad := r.templateRefused
  if bad ≠ 0 then (bad, s.refuse d rn bad)
  else if 32 ≤ ((s.cluster r.cluster).cal.launches.filter (fun l => !l.done)).length then (7, s.refuse d rn 7)
  else
    match s.search r with
    | .inl code => (code, s.refuse d rn code)
    | .inr (st, ks) =>
      match s.reserveUnits d rn r (List.range r.units) with
      | none => (6, s.refuse d rn 6)
      | some s =>
        let l : Launch := { recNo := recKey d rn, ended := 0, start := st, claims := ks, armed := false, started := false, done := false }
        let s := s.onCluster r.cluster (fun c => { c with cal := { c.cal with launches := c.cal.launches ++ [l] } })
        (0, s.onRec d rn (fun r => { r with admitted := true, startTempo := st, reason := 0 }))

/-! ## The admission queue (R184) -/

/-- The order of the queue. -/
def AdmReq.before (a b : AdmReq) : Bool :=
  deadlineBefore a.deadline b.deadline || (a.deadline == b.deadline &&
    (decide (a.recNo < b.recNo) || (a.recNo == b.recNo && decide (a.core < b.core))))

/-- The request at the head of a queue. -/
def Calendar.head (c : Calendar) : Option AdmReq := firstBy AdmReq.before c.queue

/-- A request is answered and leaves the queue. -/
def State.answer (s : State) (cl : Nat) (q : AdmReq) (code : Nat) : State :=
  let s := s.onCluster cl (fun c => { c with cal := { c.cal with queue := c.cal.queue.erase q } })
  s.onCore q.core (fun c => c.onSx q.slot (fun x => { x with answer := some (q, code) }))

/-! ## Arming (R171, R173, R185, R203) -/

/-- The parent counters that a record names (R170): graph, phase and job; counter 0 stands for none. -/
def Rec.parents (r : Rec) : List Nat := [fld r.w[7] 9 0, fld r.w[7] 19 10, fld r.w[7] 29 20].filter (· != 0)
def Rec.graph (r : Rec) : Nat := fld r.w[7] 9 0

/-- The record's graph counter is FROZEN (R203). -/
def State.graphFrozen (s : State) (d : Nat) (r : Rec) : Bool := r.graph != 0 && (s.level d r.graph).getLsbD 116

/-- A record armed (R171): its launch begins with no unit started. -/
def Rec.arm (r : Rec) (booked : Bool) : Rec :=
  { r with
    w := r.w.set 13 (setFld (setFld r.w[13] 2 0 4) 23 16 0),
    started := [], settled := 0, restSettled := false, failCode := none, cancel := false, frozen := false, booked := booked }

/-- The launch begins: booked units wait for their tempi, free ones for contexts; a cancelled parent cancels them (R173). -/
def State.beginLaunch (s : State) (d rn : Nat) (booked : Bool) : State :=
  let s := s.onRec d rn (fun r => r.arm booked)
  let r := s.record d rn
  let s := if booked then
      s.onCluster r.cluster (fun c => { c with cal := c.cal.onLaunch (recKey d rn) (fun l => { l with armed := true }) })
    else s
  let s := if r.parents.any (fun c => (s.level d c).getLsbD 115) then s.cancelRest d rn else s
  if booked then s else ((List.range (min r.units r.places)).map r.coreOfUnit).foldl (fun s c => s.postOnce (.freeUnitStart c)) s

/-- A record armed under a FROZEN graph counter: every unit completes as CANCELLED (R203). -/
def State.armFrozen (s : State) (d rn : Nat) : State :=
  let s := if (s.record d rn).admitted then s.withdraw d rn else s
  (s.onRec d rn (fun r => r.arm false)).freezeRec d rn

/-- The code of an answer that found the record's graph counter FROZEN (R203), none of R183. -/
def frozenCode : Nat := 16

/-- What the calendar answers to a request, and does (R171, R185, R187, R203): `book` admits; `lrarm` admits and arms, on a refusal arms a
record with FALLBACK as a free launch. A record that its asker holds no more is left alone. -/
def State.settleRequest (s : State) (q : AdmReq) : Nat × State :=
  let r := s.record q.die q.recNo
  if r.state ≠ 2 ∨ fld r.w[13] 15 3 ≠ q.core * 4 + q.slot.val then (0, s)
  else if q.arm ∧ (r.frozen ∨ s.graphFrozen q.die r) then (frozenCode, s.armFrozen q.die q.recNo)
  else
    let (code, s) := s.admitLaunch q.die q.recNo
    if !q.arm then (code, s)
    else if code = 0 then (0, s.beginLaunch q.die q.recNo true)
    else (code, if r.w[8].getLsbD 1 then s.beginLaunch q.die q.recNo false else s)

/-- The request at the head is searched for and answered; the next one follows. -/
def State.serve (s : State) (cl : Nat) (q : AdmReq) : State :=
  let (code, s) := s.settleRequest q
  let s := s.answer cl q code
  if (s.cluster cl).cal.queue.isEmpty then s else s.once (s.pkg.ptime + 1) (.admissionSearch cl)

/-- A boundary of the die's calendars is due in this cycle: a search waits for its steps 1 to 3 (R196, R205). -/
def State.boundaryAhead (s : State) (d : Nat) : Bool :=
  (dieClusters d).any (fun c => s.pending.any (fun p => decide (p.1 ≤ s.pkg.ptime) && p.2 == .tempoBoundary c))

/-- The record claims HBM, which the die calendar books (R180). -/
def Rec.claimsHbm (r : Rec) : Bool := r.claims.any (fun c => clCls c.2 == 9)

/-- ADMISSION_SEARCH (R184, R185): the request at the head of the queue, in the cycle after one has come, so that the requests of a
cycle are ordered (R205); one with HBM claims goes to the die calendar. -/
def execAdmissionSearch (cl : Nat) (s : State) : Host.Outcome State Fault Refusal :=
  match (s.cluster cl).cal.head with
  | none => .next s
  | some q =>
    if s.boundaryAhead (cl / 32) then .next (s.post s.pkg.ptime (.admissionSearch cl))
    else if (s.record q.die q.recNo).claimsHbm then .next (s.once (s.pkg.ptime + 1) (.dieCalendarRequest (cl / 32) cl (recKey q.die q.recNo)))
    else .next (s.serve cl q)

/-- DIE_CALENDAR_REQUEST (R180): the die calendar answers for the request at the head of a cluster's queue. -/
def execDieCalendarRequest (die cl rec : Nat) (s : State) : Host.Outcome State Fault Refusal :=
  match (s.cluster cl).cal.head with
  | some q => .next (
      if s.boundaryAhead (cl / 32) then s.post s.pkg.ptime (.dieCalendarRequest die cl rec)
      else if recKey q.die q.recNo = rec then s.serve cl q
      else s)
  | none => .next s

/-- A request of the current slot in a calendar's queue. -/
def State.queued (s : State) (cal : Calendar) : Bool := cal.queue.any (fun x => x.core == s.cn && x.slot == s.core.cur)

/-- The answer to `book` or `lrarm` (R184, R373): a booked task whose request finds an earlier one in the queue is LATE, else its
answer is a fixed wait; a free one waits for room and for its answer. -/
def admission (s : State) (d rn : Nat) (arm : Bool) : M (Nat × State) :=
  let r := s.record d rn
  let q : AdmReq := { die := d, recNo := rn, deadline := r.w[6].toNat, core := s.cn, slot := s.core.cur, arm := arm, time := s.pkg.ptime }
  let cal := (s.cluster r.cluster).cal
  let wait := fun (s : State) => (if s.booked then stallNow s 0x23 else waitNow s 0x23 0x0C 0 : M (Nat × State))
  let fresh : M (Nat × State) :=
    if s.queued cal then wait s
    else if s.booked ∧ cal.queue.any (fun x => decide (x.time < q.time)) ∧ s.timingTrap 0x0F then waitNow s 0x23 0x0C 0
    else if 16 ≤ cal.queue.length then wait s
    else
      let s := s.onCluster r.cluster (fun c => { c with cal := { c.cal with queue := c.cal.queue ++ [q] } })
      wait (s.once (s.pkg.ptime + 1) (.admissionSearch r.cluster))
  match s.sx.answer with
  | some (q', code) =>
    if q'.die = d ∧ q'.recNo = rn ∧ q'.arm = arm then .ok (code, s.onSx (fun x => { x with answer := none }))
    else fresh
  | none => fresh

/-- What the current slot has asked of the calendars is given up. -/
def State.dropRequest (s : State) (cl : Nat) : State :=
  let s := s.onCluster cl (fun c => { c with cal := { c.cal with queue := c.cal.queue.filter (fun x => !(x.core == s.cn && x.slot == s.core.cur)) } })
  s.onSx (fun x => { x with answer := none })

/-! ## Demotion (R189, R193) -/

/-- `latecnt.DEMOTE` counts a demotion (R195). -/
def Core.countDemote (c : Core) : Core := { c with latecnt := setFld c.latecnt 55 48 (min (fld c.latecnt 55 48 + 1) 255) }

/-- A slot's booked task becomes free (R193): `tsw.B` is cleared, the budget loaded, its CORE claim freed. -/
def State.demote (s : State) (core : Nat) (i : SlotId) : State :=
  let t := ((s.coreOf core).sx i).task
  if !t.booked then s
  else
    let s := s.onCore core (fun c =>
      let c := c.countDemote.onSx i (fun x => { x with task := { x.task with booked := false, overrun := false } })
      let c := c.onTsw (c.slot i).wp (fun w => setFld w 1 1 0)
      c.onSlot i (fun x => { x with tbud := natWord (t.budget + bit01 (t.budget != 0) * 4294967296) }))
    match t.src with
    | .unit d rn _ => s.endUnits d rn 1 (fun k => k.cls == 1 && k.inst == localOf core)
    | _ => s

/-- OVERRUN (R189): a booked task at its booked end raises LATE with reason OVERRUN. -/
def execOverrun (core : Nat) (s : State) : Host.Outcome State Fault Refusal :=
  let c := s.coreOf core
  let t := (c.sx c.cur).task
  if !t.booked ∨ t.overrun ∨ (c.slot c.cur).st ≠ .run ∨ s.tempo (dieOf core) < t.bookEnd then .next s
  else
    .next (s.asCore core c.cur (fun s =>
      if s.timingTrap 0x0F then
        (s.onSx (fun x => { x with task := { x.task with overrun := true, nest := 0 } })).trap (Trap.mk0 0x0F 0 0 0x0B)
      else s))

/-! ## Tempo boundaries (R188, R196) -/

/-- The unit whose booked start has come: a booked task still running on its core is demoted (R189), then the unit starts
in a FREE context, or as soon as there is one; the core's free tasks issue nothing meanwhile (R188, log entry 103). -/
def State.startBooked (s : State) (core : Nat) (x : Nat × Nat × Nat × BookedClaim) : State :=
  let late := (List.finRange 4).filter (fun i =>
    let c := s.coreOf core
    (c.slot i).st != .free && (c.sx i).task.booked)
  let s := late.foldl (fun s i => s.demote core i) s
  match (s.coreOf core).freeSlot with
  | some i => s.startDue core i x
  | none => s

/-- Step 1: units that are due start, bookings that are not armed lapse, their claims free from this tempo on (R185, R190). -/
def State.boundaryStarts (s : State) (cl t : Nat) : State :=
  let lapsed := (s.cluster cl).cal.launches.filter (fun l => !l.armed && !l.done && decide (l.start ≤ t))
  let s := lapsed.foldl (fun s l =>
    (s.unbookFrom (l.recNo / 512) (l.recNo % 512) t).refuse (l.recNo / 512) (l.recNo % 512) 8) s
  ((List.range 8).map (coreAt cl)).foldl (fun s c => (s.dueUnits c).foldl (fun s x => s.startBooked c x) s) s

/-- Step 2: freed tempi become available; completed launches go (R190). -/
def Calendar.settle (c : Calendar) : Calendar :=
  { c with launches := (c.launches.filter (fun l => !l.done)).map (fun l =>
      { l with claims := l.claims.map (fun k => { k with busy := k.fin }) }) }

/-- A launch moved to the first start at which every claim fits in both calendars, never a later one (R196): where the die calendar
does not accept an earlier start, the search goes on (log entry 54). -/
def State.compactOne (s : State) (cl t : Nat) (l : Launch) : State :=
  let d := l.recNo / 512
  let rn := l.recNo % 512
  let r := s.record d rn
  let set := fun (s : State) (f : Launch → Launch) => s.onCluster cl (fun c => { c with cal := c.cal.onLaunch l.recNo f })
  let s' := set s (fun l => { l with claims := [] })
  match firstFit (fun st => placeClaims (s'.bookedFor cl) st [] r.claims) 0 0 (upto (r.earliest t) (l.start - r.earliest t)) with
  | .inl _ => s
  | .inr (st, ks) => (set s (fun l => { l with start := st, claims := ks })).onRec d rn (fun r => { r with startTempo := st })

/-- A list in an order, equals in the order they came. -/
def insertBy {α : Type} (before : α → α → Bool) (x : α) (l : List α) : List α :=
  match l with
  | [] => [x]
  | y :: t => if before x y then x :: y :: t else y :: insertBy before x t
def sortBy {α : Type} (before : α → α → Bool) (l : List α) : List α := l.foldl (fun acc x => insertBy before x acc) []

/-- The launches that may move, in the order of the admission queue (R184, R196). -/
def State.movable (s : State) (cl : Nat) : List Launch :=
  let key := fun (l : Launch) =>
    ({ deadline := (s.record (l.recNo / 512) (l.recNo % 512)).w[6].toNat, recNo := l.recNo % 512, die := l.recNo / 512, unit := 0,
       release := 0 } : Candidate)
  sortBy (fun a b => (key a).before (key b)) ((s.cluster cl).cal.launches.filter (fun l => !l.started && !l.done && l.ended == 0))

/-- Step 3: compaction. -/
def State.compact (s : State) (cl t : Nat) : State := (s.movable cl).foldl (fun s l => s.compactOne cl t l) s

/-- A free task's sitting ends at the first boundary at which another launch holds the ARRAY claim (R340). -/
def State.sittingBoundary (s : State) (cl t : Nat) : State :=
  match (s.cluster cl).arr.sit with
  | none => s
  | some x =>
    let task := ((s.coreOf x.core).sx x.slot).task
    let own : Option Nat := match task.src with
      | .unit d rn _ => some (recKey d rn)
      | _ => none
    if !task.booked && (s.cluster cl).cal.launches.any (fun l => some l.recNo != own
        && l.claims.any (fun k => k.cls == 2 && decide (k.start ≤ t) && decide (t < k.fin))) then s.endSitting cl
    else s

/-- Steps 1 and 2 of a tempo boundary (R196) in one cluster. -/
def State.boundaryFrees (s : State) (cl t : Nat) : State :=
  if (s.cluster cl).cal.launches.isEmpty then s
  else
    let s := (s.boundaryStarts cl t).onCluster cl (fun c => { c with cal := c.cal.settle })
    ((List.range 8).map (coreAt cl)).foldl (fun s c => s.spaceFreed c t) s

/-- TEMPO_BOUNDARY (R196): starts, freed tempi, compaction, then the admission queue goes on. The die calendar's tempi are freed
before any cluster of the die compacts (R180, R190). -/
def execTempoBoundary (cl : Nat) (s : State) : Host.Outcome State Fault Refusal :=
  let t := s.tempo (cl / 32)
  let s := (dieClusters (cl / 32)).foldl (fun s c => s.boundaryFrees c t) s
  let s := (s.compact cl t).sittingBoundary cl t
  .next (if (s.cluster cl).cal.queue.isEmpty then s else s.postOnce (.admissionSearch cl))

/-! ## The booking forms (R372, R373) -/

/-- The record that an operand names, none out of range (R372). -/
def recOf (x : Word) : Option Nat := if fld x 63 9 = 0 then some (fld x 8 0) else none

/-- The result and booking word (R372). -/
def Rec.bookWord (r : Rec) (code : Nat) : Word :=
  natWord (code % 256 + r.state * 256 + bit01 r.admitted * 2048 + (if r.admitted then r.startTempo % 2 ^ 48 * 65536 else 0))

def Rec.taker (r : Rec) : Nat := fld r.w[13] 15 3
def Rec.vfn (r : Rec) : Nat := fld r.w[11] 5 0
/-- The number under which the current context takes records (R170). -/
def State.takerId (s : State) : Nat := s.cn * 4 + s.core.cur.val
def Rec.takenBy (r : Rec) (s : State) : Bool := r.state == 2 && r.taker == s.takerId

/-- `book` (R373). -/
def execBook (d a : SReg) (la : Bool) (s : State) : Host.Outcome State Fault Refusal := finish (do
  tokensReady s [d, a]
  let ks := [(la, a)]
  match recOf (s.ws.getS a) with
  | none => .ok (s.doneS d ks 0x12)
  | some rn =>
    let r := s.record s.dn rn
    let pending : Bool := match s.sx.answer with
      | some (q, _) => q.die == s.dn && q.recNo == rn && !q.arm
      | none => false
    if !r.takenBy s || (r.admitted && !pending) then .ok (s.doneS d ks (r.bookWord 0x10))
    else if r.w[8].getLsbD 0 = false then .ok (s.doneS d ks (r.bookWord 0x11))
    else
      let (code, s) ← admission s s.dn rn false
      .ok (s.doneS d ks ((s.record s.dn rn).bookWord code)))

/-- The record of the current task's unit. -/
def State.myUnit (s : State) : Option (Nat × Nat) :=
  match s.sx.task.src with
  | .unit d rn _ => some (d, rn)
  | _ => none

/-- `unbook` (R193, R373). -/
def execUnbook (d : SReg) (s : State) : Host.Outcome State Fault Refusal := finish (do
  tokensReady s [d]
  match s.myUnit with
  | some (rd, rn) =>
    if s.sx.task.booked then
      let s := s.demote s.cn s.core.cur
      .ok (s.doneS d [] ((s.record rd rn).bookWord 0))
    else .ok (s.doneS d [] ((s.record rd rn).bookWord 0x10))
  | none => .ok (s.doneS d [] 0x10))

/-- The runtime withdraws the booking of any record (R373): unstarted units run free, running ones are demoted. -/
def State.unbookAll (s : State) (d rn : Nat) : State :=
  let r := s.record d rn
  if !r.admitted then s
  else if r.state = 2 then s.withdraw d rn
  else
    let cores := (List.range (min r.units 8)).map r.coreOfUnit
    let s := (s.withdraw d rn).onRec d rn (fun r => { r with booked := false })
    cores.foldl (fun s c =>
      let s := (List.finRange 4).foldl (fun s i => match ((s.coreOf c).sx i).task.src with
        | .unit d' rn' _ => if d' = d ∧ rn' = rn ∧ ((s.coreOf c).slot i).st ≠ .free then s.demote c i else s
        | _ => s) s
      s.postOnce (.freeUnitStart c)) s

/-- `unbook.rec` (R373). -/
def execUnbookRec (d a : SReg) (la : Bool) (s : State) : Host.Outcome State Fault Refusal := finish (do
  tokensReady s [d, a]
  let ks := [(la, a)]
  match recOf (s.ws.getS a) with
  | none => .ok (s.doneS d ks 0x12)
  | some rn =>
    let r := s.record s.dn rn
    if r.takenBy s && r.admitted then
      let s := s.withdraw s.dn rn
      .ok (s.doneS d ks ((s.record s.dn rn).bookWord 0))
    else if s.root then
      let s := s.unbookAll s.dn rn
      .ok (s.doneS d ks ((s.record s.dn rn).bookWord 0))
    else .ok (s.doneS d ks (r.bookWord 0x10)))

/-- The launch of a record in its calendar. -/
def State.launchOf (s : State) (d rn : Nat) : Option Launch :=
  (s.cluster (s.record d rn).cluster).cal.launches.find? (fun l => l.of (recKey d rn))

/-- The claims of the current unit's launch that a mask may name (R373): its own CORE claim and those of the launch, not
yet freed. -/
def State.claimsNamed (s : State) (l : Launch) (mask : Nat) : List BookedClaim :=
  l.claims.filter (fun k => mask.testBit k.idx && (k.cls != 1 || k.inst == localOf s.cn) && !k.freed)

/-- `bkrel` (R190, R373). -/
def execBkrel (d a : SReg) (la : Bool) (s : State) : Host.Outcome State Fault Refusal := finish (do
  tokensReady s [d, a]
  let mask := fld (s.ws.getS a) 15 0
  match s.myUnit with
  | some (rd, rn) =>
    match s.sx.task.booked, s.launchOf rd rn with
    | true, some l =>
      let named := s.claimsNamed l mask
      let m := (named.map (fun k => 2 ^ k.idx)).foldl (fun x y => x ||| y) 0
      let s := s.freeClaims rd rn (fun k => k.cls != 1 && named.contains k)
      let s := if named.any (fun k => k.cls == 1) then s.demote s.cn s.core.cur else s
      .ok (s.doneS d [(la, a)] (natWord m))
    | _, _ => .ok (s.doneS d [(la, a)] 0)
  | none => .ok (s.doneS d [(la, a)] 0))

/-- The claims that `bkext` lengthens (R373): the unit's CORE claim and the launch claims named. -/
def State.claimsExtended (s : State) (l : Launch) (mask : Nat) : List BookedClaim :=
  l.claims.filter (fun k => (k.cls == 1 && k.inst == localOf s.cn) || (mask.testBit k.idx && k.cls != 1 && !k.freed))

/-- The claims fit `n` tempi further, counted together. -/
def extendFits (held : Nat → Nat → List BookedClaim) (n : Nat) (ks more : List BookedClaim) : Bool :=
  match ks with
  | [] => true
  | k :: t =>
    let beside := held k.cls k.inst ++ more.filter (fun x => x.cls == k.cls && x.inst == k.inst)
    fitsIn beside k.cls k.qty k.fin n && extendFits held n t ({ k with start := k.fin, fin := k.fin + n, busy := k.fin + n } :: more)

/-- `bkext` (R189, R193, R373): all or none; a task whose booked end had raised OVERRUN is extended. -/
def execBkext (d a b : SReg) (la lb : Bool) (s : State) : Host.Outcome State Fault Refusal := finish (do
  tokensReady s [d, a, b]
  let ks := [(la, a), (lb, b)]
  let n := (s.ws.getS b).toNat
  match s.myUnit with
  | some (rd, rn) =>
    let r := s.record rd rn
    match s.sx.task.booked, s.launchOf rd rn with
    | true, some l =>
      let cs := s.claimsExtended l (fld (s.ws.getS a) 15 0)
      if n = 0 ∨ 4096 < n then .ok (s.doneS d ks (r.bookWord 0x12))
      else if cs.any (fun k => decide (s.tempo s.dn + 4096 < k.fin + n)) then .ok (s.doneS d ks (r.bookWord 2))
      else if !extendFits (s.bookedFor s.cl) n cs [] then .ok (s.doneS d ks (r.bookWord 4))
      else
        let longer := fun (k : BookedClaim) => if cs.contains k then { k with fin := k.fin + n, busy := k.fin + n } else k
        let s := s.onCluster s.cl (fun c => { c with cal := c.cal.onLaunch (recKey rd rn) (fun l => { l with claims := l.claims.map longer }) })
        let s := s.onSx (fun x => { x with task := { x.task with bookEnd := x.task.bookEnd + n, overrun := false } })
        .ok (s.doneS d ks ((s.record rd rn).bookWord 0))
    | _, _ => .ok (s.doneS d ks (r.bookWord 0x10))
  | none => .ok (s.doneS d ks 0x10))

/-- `bkq` (R373): the booking word, 0 for another function's record. -/
def execBkq (d a : SReg) (la : Bool) (s : State) : Host.Outcome State Fault Refusal := finish (do
  tokensReady s [d, a]
  match recOf (s.ws.getS a) with
  | none => .ok (s.doneS d [(la, a)] 0x12)
  | some rn =>
    let r := s.record s.dn rn
    .ok (s.doneS d [(la, a)] (if s.vfn ≠ 0 ∧ r.vfn ≠ s.vfn then 0 else r.bookWord r.reason)))

/-- `calstat` (R197). -/
def State.calstat (s : State) : Word :=
  let c := (s.cluster s.cl).cal
  natWord (s.tempo s.dn % 4096 + (c.launches.filter (fun l => !l.done)).length * 2 ^ 12 + c.queue.length * 2 ^ 18
    + c.lastRsn * 2 ^ 24 + c.lastRec * 2 ^ 32)

end Sys2Proof.Machine
end

