-- ==== Sys2Proof/Machine/Control.lean ====
section
/-! DEFINITION. Branches, jumps, calls and returns (spec/09 R224, R225, spec/10 R256, R257). -/
namespace Sys2Proof.Machine

/-- The pc of a relative target, or PROT NONCANON at the branch when its line leaves the 55-bit space (R225). -/
def targetPc (s : State) (tgt : Target) : M Word :=
  let line : Int := Int.ofNat (s.ws.pc.toNat / 64) + tgt.lofs.toInt
  if line < 0 ∨ 2 ^ 49 ≤ line then trapNow s 0x06 0x01 (BitVec.ofInt 64 (line * 64)) 0
  else .ok (BitVec.ofInt 64 (line * 64 + Int.ofNat tgt.head.toNat))

/-- A pc from a register: bits [63:55] are zero, or PROT NONCANON (R225). Of `faddr` R210 says only 'faulting virtual address': the model records
the register's whole value, and for an encoded target its line address (log entry 123). -/
def registerPc (s : State) (pc : Word) : M Word :=
  if 2 ^ 55 ≤ pc.toNat then trapNow s 0x06 0x01 pc 0 else .ok pc

/-- A taken transfer retires at its target, whose line is entered anew (R227). -/
def State.jump (s : State) (pc : Word) (reg : Bool) : State :=
  ((s.noteBranch pc reg).retireTo pc).onSlot (fun x => { x with line := LineBuf.empty })

/-- A conditional branch (R256). -/
def branchOp (t : IT) (a b : SReg) (tgt : Target) (taken : Nat → Nat → Bool) (s : State) : M State := do
  tokensReady s [a, b]
  if taken (lowBits t (s.ws.getS a)) (lowBits t (s.ws.getS b)) then
    let pc ← targetPc s tgt
    .ok (s.jump pc false)
  else .ok s.retire

/-- `beq` (R256). -/
def execBeq (t : IT) (a b : SReg) (tgt : Target) (s : State) : Host.Outcome State Fault Refusal :=
  finish (branchOp t a b tgt (fun x y => x == y) s)
/-- `bne` (R256). -/
def execBne (t : IT) (a b : SReg) (tgt : Target) (s : State) : Host.Outcome State Fault Refusal :=
  finish (branchOp t a b tgt (fun x y => x != y) s)
/-- `blt` (R256): signed or unsigned by the type. -/
def execBlt (t : IT) (a b : SReg) (tgt : Target) (s : State) : Host.Outcome State Fault Refusal :=
  finish (branchOp t a b tgt (fun x y => decide (t.value x < t.value y)) s)
/-- `bge` (R256). -/
def execBge (t : IT) (a b : SReg) (tgt : Target) (s : State) : Host.Outcome State Fault Refusal :=
  finish (branchOp t a b tgt (fun x y => decide (t.value y ≤ t.value x)) s)
/-- `bz` (R256). -/
def execBz (t : IT) (a : SReg) (tgt : Target) (s : State) : Host.Outcome State Fault Refusal :=
  finish (branchOp t a 0 tgt (fun x _ => x == 0) s)
/-- `bnz` (R256). -/
def execBnz (t : IT) (a : SReg) (tgt : Target) (s : State) : Host.Outcome State Fault Refusal :=
  finish (branchOp t a 0 tgt (fun x _ => x != 0) s)

/-- `loop` (R256): the count less one, taken while it is not 0; with `s0` it is always taken. -/
def execLoop (t : IT) (d : SReg) (tgt : Target) (s : State) : Host.Outcome State Fault Refusal := finish (do
  tokensReady s [d]
  let y := intResult t (Int.ofNat (lowBits t (s.ws.getS d)) - 1)
  if lowBits t y ≠ 0 then
    let pc ← targetPc s tgt
    .ok ((s.onWs (fun w => w.setS d y)).jump pc false)
  else .ok (s.doneS d [] y))

/-- `br` (R257). -/
def execBr (tgt : Target) (s : State) : Host.Outcome State Fault Refusal := finish (do
  let pc ← targetPc s tgt
  .ok (s.jump pc false))

/-- `jmp` (R257). -/
def execJmp (a : SReg) (la : Bool) (s : State) : Host.Outcome State Fault Refusal := finish (do
  tokensReady s [a]
  let pc ← registerPc s (s.ws.getS a)
  .ok ((s.onWs (fun w => w.killSs [(la, a)])).jump pc true))

/-- The registers that `cvm` names become dead (R165). -/
def Ws.killCvm (w : Ws) : Ws :=
  { w with
    liveS := w.liveS &&& ~~~(w.cvm.extractLsb' 0 32 &&& ~~~1),
    liveV := w.liveV &&& ~~~(w.cvm.extractLsb' 32 32) }

/-- The effect of a call on the registers (R257): `cvm` dies, then s31 takes the link. -/
def State.link (s : State) (ks : List (Bool × SReg)) : State :=
  let next := s.nextPc
  s.onWs (fun w => ((w.killSs ks).killCvm).setS 31 next)

/-- `call` (R257). -/
def execCall (tgt : Target) (s : State) : Host.Outcome State Fault Refusal := finish (do
  tokensReady s [31]
  let pc ← targetPc s tgt
  .ok ((s.link []).jump pc false))

/-- `callr` (R257): the target is read before the link is written. -/
def execCallr (a : SReg) (la : Bool) (s : State) : Host.Outcome State Fault Refusal := finish (do
  tokensReady s [a, 31]
  let pc ← registerPc s (s.ws.getS a)
  .ok ((s.link [(la, a)]).jump pc true))

/-- `ret` (R257). -/
def execRet (s : State) : Host.Outcome State Fault Refusal := finish (do
  tokensReady s [31]
  let pc ← registerPc s (s.ws.getS 31)
  .ok ((s.onWs Ws.killCvm).jump pc true))

end Sys2Proof.Machine
end

