-- ==== Sys2Proof/Machine/Record.lean ====
section
/-! DEFINITION. Launch records, level counters, arming, cancellation and resign tokens (spec/06 R170 to R173; spec/07 R187, R203,
R204; spec/13 R374 to R376). -/
namespace Sys2Proof.Machine

/-! ## Taking and patching (R171, R375) -/

/-- The status of `lrpatch` (R171, R375): STATE, VFN, BUSY, FIELD, in this order; 0 OK. -/
def State.patchStatus (s : State) (r : Rec) (w : Nat) (x : Word) : Nat :=
  if r.state ≠ 1 ∧ r.state ≠ 2 then 2
  else if s.vfn ≠ r.vfn then 8
  else if r.state = 2 ∧ r.taker ≠ s.takerId then 1
  else if (w = 3 ∧ fld x 63 48 ≠ 0) ∨ (w = 7 ∧ fld x 63 30 ≠ 0) then 3
  else 0

/-- POOL to TAKEN (R171): TAKER set, the counts and an earlier freezing cleared. -/
def Rec.take (r : Rec) (taker : Nat) : Rec :=
  if r.state ≠ 1 then r
  else { r with
    w := ((r.w.set 13 (setFld (setFld r.w[13] 2 0 2) 15 3 taker)).set 14 0).set 15 0,
    reason := 0, frozen := false }

/-- `lrpatch` (R171, R375). -/
def execLrpatch (w : Fin 8) (d a b : SReg) (la lb : Bool) (s : State) : Host.Outcome State Fault Refusal := finish (do
  tokensReady s [d, a, b]
  let ks := [(la, a), (lb, b)]
  let x := s.ws.getS b
  match recOf (s.ws.getS a) with
  | none => .ok (s.doneS d ks 9)
  | some rn =>
    let st := s.patchStatus (s.record s.dn rn) w.val x
    if st ≠ 0 then .ok (s.doneS d ks (natWord st))
    else
      let id := s.takerId
      let s := s.onRec s.dn rn (fun r =>
        let r := r.take id
        if w = 0 then r else { r with w := r.w.set (fin32 w.val) x })
      .ok (s.doneS d ks 0))

/-! ## Arming (R171, R173, R185, R187, R203) -/

/-- The checks of `lrarm` on the record (R171, R173): EXTENT, PLACE, LATE_DL, VFN; 0 when all pass. A DIES bit of a die absent from
the topology table gives PLACE (log entry 102). -/
def State.armStatus (s : State) (d : Nat) (r : Rec) : Nat :=
  if r.units = 0 then 4
  else if 15 < fld r.w[4] 11 8 + fld r.w[4] 15 12 ∨ 15 < fld r.w[4] 19 16 + fld r.w[4] 23 20 ∨ r.dies.isEmpty
      ∨ r.dies.any (fun x => !setHas s.pkgx.present x) then 5
  else if r.w[6] ≠ 0 ∧ r.w[6].toNat < r.w[5].toNat then 6
  else if r.parents.any (fun c => lvField (s.level d c) 122 117 != s.vfn) then 8
  else 0

/-- Arming is a release at package scope (R171): it waits for the writes that it covers, in fabric release mode for no `vt`
(R137). -/
def armRelease (s : State) : M Unit :=
  if s.slot.trk.count ≠ 0 ∨ s.core.carry.count ≠ 0 ∨ !s.slot.relq.isEmpty then waitNow s 0x26 0x0D 0
  else if !s.frmOn ∧ s.releaseTime s.dn < s.trackV then waitNow (s.awaitTime s.trackV) 0x26 0x0D 0
  else .ok ()

/-- The status of an `lrarm` that the calendar has answered (R171, R187, R203, R375). -/
def Rec.armAnswer (r : Rec) (code : Nat) : Word :=
  if code = 0 then natWord (r.startTempo % 2 ^ 48 * 65536)
  else if code = frozenCode then 10
  else natWord ((if r.w[8].getLsbD 1 then 0 else 7) + code * 256)

/-- The calendar has answered the current context's `lrarm` of the record (R184). -/
def State.armAnswered (s : State) (rn : Nat) : Bool :=
  match s.sx.answer with
  | some (q, _) => q.die == s.dn && q.recNo == rn && q.arm
  | none => false

/-- `lrarm` (R171, R187, R375): TAKEN while admission is asked, which makes it ARMED and then ACTIVE, or leaves it TAKEN (log entry 41). -/
def execLrarm (d a : SReg) (la : Bool) (s : State) : Host.Outcome State Fault Refusal := finish (do
  tokensReady s [d, a]
  let ks := [(la, a)]
  match recOf (s.ws.getS a) with
  | none => .ok (s.doneS d ks 9)
  | some rn =>
    let r := s.record s.dn rn
    if s.armAnswered rn then do
      let (code, s) ← admission s s.dn rn true
      .ok (s.doneS d ks ((s.record s.dn rn).armAnswer code))
    else if !r.takenBy s then .ok (s.doneS d ks 2)
    else if s.armStatus s.dn r ≠ 0 then .ok (s.doneS d ks (natWord (s.armStatus s.dn r)))
    else do
      armRelease s
      if r.frozen || s.graphFrozen s.dn r then .ok (((s.dropRequest r.cluster).armFrozen s.dn rn).doneS d ks 10)
      else if r.w[8].getLsbD 0 && !r.admitted then do
        let (code, s) ← admission s s.dn rn true
        .ok (s.doneS d ks ((s.record s.dn rn).armAnswer code))
      else
        let s := s.beginLaunch s.dn rn r.admitted
        .ok (s.doneS d ks (if r.admitted then natWord (r.startTempo % 2 ^ 48 * 65536) else 0)))

/-! ## Reads (R170, R173, R375) -/

/-- A word of a record as read: reserved bits of words 4, 8, 13 and 15 read zero (R170). -/
def Rec.read (r : Rec) (i : SReg) : Word :=
  let w := r.w[i]
  if i = 4 then natWord (fld w 25 0)
  else if i = 8 then natWord (fld w 35 0)
  else if i = 13 then natWord (fld w 23 0)
  else if i = 15 then natWord (fld w 31 0)
  else w

/-- `lrstat` (R375). -/
def execLrstat (d a b : SReg) (la lb : Bool) (s : State) : Host.Outcome State Fault Refusal := finish (do
  tokensReady s [d, a, b]
  let ks := [(la, a), (lb, b)]
  match recOf (s.ws.getS a) with
  | none => .ok (s.doneS d ks 9)
  | some rn =>
    let r := s.record s.dn rn
    .ok (s.doneS d ks (if s.vfn ≠ 0 ∧ r.vfn ≠ s.vfn then 0 else r.read (fin32 (fld (s.ws.getS b) 4 0)))))

/-- The counter that an operand names: its die and number (R375). -/
def ctrDie (x : Word) : Nat := fld x 12 10
def ctrNo (x : Word) : Nat := fld x 9 0

/-- `lvlcnt` (R375). -/
def execLvlcnt (d a b : SReg) (la lb : Bool) (s : State) : Host.Outcome State Fault Refusal := finish (do
  tokensReady s [d, a, b]
  let x := s.ws.getS a
  let v := s.level (ctrDie x) (ctrNo x)
  let hidden := ctrNo x = 0 ∨ (s.vfn ≠ 0 ∧ lvField v 122 117 ≠ s.vfn)
  let half : Word := if (s.ws.getS b).getLsbD 0 then v.extractLsb' 64 64 else v.extractLsb' 0 64
  .ok (s.doneS d [(la, a), (lb, b)] (if hidden then 0 else half)))

/-! ## Cancelling (R173, R375) -/

/-- The records of a die that name a counter as a parent. -/
def State.children (s : State) (d c : Nat) : List Nat :=
  ((s.die d).recs.filter (fun e => e.2.parents.any (· == c))).map (·.1)

/-- CANCEL set on a counter: the units not started under it complete as CANCELLED. -/
def State.cancelLevel (s : State) (d c : Nat) : State :=
  let s := s.setLevel d c (lvSet (s.level d c) 115 115 1)
  (s.children d c).foldl (fun s rn => s.cancelRest d rn) s

/-- `lvlcancel` (R375). -/
def execLvlcancel (d a : SReg) (la : Bool) (s : State) : Host.Outcome State Fault Refusal := finish (do
  tokensReady s [d, a]
  let x := s.ws.getS a
  let v := s.level (ctrDie x) (ctrNo x)
  let kind := lvField v 114 112
  let st := if ctrNo x = 0 ∨ kind < 2 ∨ 4 < kind then 2 else if lvField v 122 117 ≠ s.vfn then 8 else 0
  let s := if st = 0 then s.cancelLevel (ctrDie x) (ctrNo x) else s
  .ok (s.doneS d [(la, a)] (natWord st)))

/-- `lvlcancel.rec` (R375): the units of the record's launch that have not started complete as CANCELLED. -/
def execLvlcancelRec (d a : SReg) (la : Bool) (s : State) : Host.Outcome State Fault Refusal := finish (do
  tokensReady s [d, a]
  let ks := [(la, a)]
  match recOf (s.ws.getS a) with
  | none => .ok (s.doneS d ks 9)
  | some rn =>
    if (s.record s.dn rn).state < 3 then .ok (s.doneS d ks 2)
    else .ok (((s.onRec s.dn rn (fun r => { r with cancel := true })).cancelRest s.dn rn).doneS d ks 0))

/-- RESIGN_TOKEN (R203, R204): FROZEN is set in the graph counter, and every record of the die that names it, from TAKEN to
ACTIVE, is frozen. -/
def execResignToken (die graph : Nat) (s : State) : Host.Outcome State Fault Refusal :=
  if graph = 0 then .next s
  else
    let s := s.setLevel die graph (lvSet (s.level die graph) 116 116 1)
    let mine := (s.die die).recs.filter (fun e => e.2.graph == graph && decide (2 ≤ e.2.state))
    .next (mine.foldl (fun s e => s.freezeRec die e.1) s)

end Sys2Proof.Machine
end

