-- ==== Sys2Proof/Machine/Task.lean ====
section
/-! DEFINITION. Task control (spec/13 R377 to R380; spec/06 R168, R175; spec/02 R57). -/
namespace Sys2Proof.Machine

/-! ## Retiring (R168, R376, R378) -/

/-- A range meets an allocation of the slot's task. -/
def Core.inTask (c : Core) (i : SlotId) (ofs len : Nat) : Bool :=
  c.allocs.any (fun a => a.slot == i && a.live && decide (0 < len) && decide (ofs < a.base + a.len) && decide (a.base < ofs + len))

/-- A window of core `owner` that lies in the slot's scratchpad. -/
def State.taskWindow (s : State) (owner idx : Nat) (i : SlotId) : Bool :=
  let e := s.winEntry owner idx
  e.reg && !e.vault && e.ctx == i

/-- A copy, put or `mxst` still writes the scratchpad of the current task: its allocations, or, for a command of the task
itself, any place in its core's scratchpad (R168, R335, R378; log 29). -/
def State.landing (s : State) : Bool :=
  let i := s.core.cur
  (s.held s.cn).any (fun h => h.dest && s.core.inTask i h.ofs h.len)
    || s.core.copies.any (fun k => k.slot == i && k.task == s.sx.task.id
        && (k.dstLocal || (cpyWin k && (cpyMcast k).testBit (localOf s.cn))))
    || ((s.cluster s.cl).arr.queue).any (fun m => m.core == s.cn && m.slot == i && m.task == s.sx.task.id && m.helds.any Held.dest)
    || s.cores.any (fun c => (s.coreOf c).puts.any (fun p =>
        hOwner p.handle == s.cn && s.taskWindow s.cn (hIndex p.handle) i))
    || s.cores.any (fun c => clusterOf c == s.cl && (s.coreOf c).copies.any (fun k =>
        cpyWin k && (cpyMcast k).testBit (localOf s.cn) && s.taskWindow s.cn (cpyWidx k) i))

/-- Store streams of the slot still to drain (R378). -/
def State.storesDraining (s : State) : Bool :=
  (List.finRange 8).any (fun n => (s.ws.q[n]).draining) || s.core.drains.any (fun d => d.slot == s.core.cur)

/-- The drain of `retire` is over and its release complete (R137, R376, R378). -/
def State.drained (s : State) : Bool :=
  s.slot.outLoads == 0 && s.slot.relq.isEmpty && !s.storesDraining && !s.landing
    && s.slot.trk.count == 0 && s.core.carry.count == 0 && (s.frmOn || decide (s.trackV ≤ s.releaseTime s.dn))

/-- `retire` waits for its drain: a free task gives up the core; a booked one, which never enters WAIT (R167), keeps it until
its booked end (R118, R378). -/
def retireWait {α : Type} (s : State) : M α :=
  if s.booked then stallNow s 0x26
  else .error (.st ((if s.releaseTime s.dn < s.trackV then s.awaitTime s.trackV else s).waitHere 0x26))

/-- `retire` and `retire.fail` (R378): the margin trap, the drain, then the end of the task. -/
def retireOp (s : State) (fail : Option Nat) : M State := do
  marginGate s
  if s.drained then .ok (s.endTask fail) else retireWait s

/-- `retire` (R378). -/
def execRetire (s : State) : Host.Outcome State Fault Refusal := finish (retireOp s none)
/-- `retire.fail` (R378): the unit fails with status code s[A][6:0] (R203). -/
def execRetireFail (a : SReg) (_la : Bool) (s : State) : Host.Outcome State Fault Refusal := finish (do
  tokensReady s [a]
  retireOp s (some (fld (s.ws.getS a) 6 0)))

/-! ## Yield, follow (R175, R199, R379) -/

/-- `yield` (R379): the budget reloaded, the context READY and chosen last; no effect in a booked task. -/
def execYield (s : State) : Host.Outcome State Fault Refusal :=
  let t := s.retire
  if s.booked then .next t
  else
    let t := t.onSlot (fun x => { x with st := .ready, tbud := setFld x.tbud 31 0 s.sx.task.budget })
    .next (t.onSx (fun x => { x with yielded := true, readySince := s.pkg.ptime, waitCause := 0 }))

/-- `follow` (R175): FW is set, but not on the leader core. -/
def execFollow (s : State) : Host.Outcome State Fault Refusal :=
  .next ((if localOf s.cn = 0 then s else
    ({ s with core := { s.core with trail := [], lead := [] } } : State).onWs (fun w => w.setTsw 3 3 1)).retire)

/-- `unfollow` (R175, R377). -/
def execUnfollow (s : State) : Host.Outcome State Fault Refusal := .next ((s.unfollow s.cn).retire)

/-! ## Allocations (R380) -/

/-- `salloc` (R380). -/
def execSalloc (d a : SReg) (la : Bool) (s : State) : Host.Outcome State Fault Refusal := finish (do
  tokensReady s [d, a]
  let n := (s.ws.getS a).toNat
  let ks := [(la, a)]
  if n = 0 ∨ 196480 < n then .ok (s.doneS d ks (BitVec.allOnes 64))
  else
    match s.core.allocate s.core.cur .made (roundUp n) with
    | some (b, c) => .ok ((s.setCore c).doneS d ks (natWord b))
    | none => .ok (s.doneS d ks (BitVec.allOnes 64)))

/-- `sfree` (R380): it waits for the holds on the range. -/
def execSfree (d a : SReg) (la : Bool) (s : State) : Host.Outcome State Fault Refusal := finish (do
  tokensReady s [d, a]
  let b := (s.ws.getS a).toNat
  let ks := [(la, a)]
  match s.core.allocs.find? (fun x => x.base == b && x.kind == .made && x.slot == s.core.cur) with
  | none => .ok (s.doneS d ks 1)
  | some x =>
    if heldMeets (s.held s.cn) x.base x.len true then waitNow s 0x24 0x0D 0
    else
      let s := s.setCore { s.core with allocs := s.core.allocs.erase x }
      .ok ((s.seekWork s.cn).doneS d ks 0))

end Sys2Proof.Machine
end

