-- ==== Sys2Proof/Machine/System.lean ====
section
/-! DEFINITION. Control registers, traps and returns, workspaces, TLB invalidation, replay of parked translations, debug
instructions (spec/13 R381 to R386; spec/14 R387 to R404; spec/08 R210 to R216; spec/01 R33, R38 to R40). -/
namespace Sys2Proof.Machine

/-! ## Stops and resumption (R389, R390) -/

/-- A stop of a core is requested: it takes effect at the next boundary of the running context, at once when none runs. -/
def State.requestStop (s : State) (core : Nat) : State :=
  if (s.coreOf core).dbg.dstat.getLsbD 0 then s
  else s.onCore core (fun c => { c with dbg := { c.dbg with dstat := setFld c.dbg.dstat 1 1 1 } })

/-- STOP_TAKES_EFFECT (R390). -/
def execStopTakesEffect (core : Nat) (s : State) : Host.Outcome State Fault Refusal :=
  .next (if (s.coreOf core).dbg.dstat.getLsbD 1 then s.stopCore core 0 else s)

/-- The bits of a status word that the hardware holds (R160): B, FW, PK and CTX, which no image gives. -/
def tswHardware : Word := 0x3002A

/-- A workspace that stayed resident while its core was stopped, read again from its image (R163, R390): the hardware's bits of the
status word stay, and so do store streams that still drain. -/
def Core.reread (c : Core) (r : Resident) (booked : Bool) : Resident :=
  if r.wp = vacantWp then r
  else
    let w := c.loadWs r.wp booked
    let q : Vector Stream 8 := Vector.ofFn (fun n => if (r.ws.q[n]).draining then r.ws.q[n] else w.q[n])
    { r with ws := { w with tsw := w.tsw ||| (r.ws.tsw &&& tswHardware), q := q }, mask := 0 }

/-- The slot whose workspace lies at `wp` runs a booked task. -/
def Core.bookedAt (c : Core) (wp : Nat) : Bool := (List.finRange 4).any (fun i => (c.slot i).wp == wp && (c.sx i).task.booked)

/-- A stopped core resumes (R390): every slot returns to the state it left, edits of the images take effect (R163), and what has
happened meanwhile is looked at. -/
def State.resumeCore (s : State) (core : Nat) : State :=
  if (s.coreOf core).dbg.dstat.getLsbD 0 = false then s
  else
    let s := s.onCore core (fun (c : Core) =>
      let c : Core := { c with
        res := c.reread c.res (c.sx c.cur).task.booked,
        alt := c.alt.map (fun (a : Resident) => c.reread a (c.bookedAt a.wp)) }
      { c with
        slots := c.slots.map (fun (x : Slot) => if x.st = .stop then { x with st := x.prev, line := LineBuf.empty } else x),
        slotx := c.slotx.map (fun (x : SlotX) => { x with look := true }),
        dbg := { c.dbg with dstat := setFld (setFld c.dbg.dstat 0 0 0) 7 4 0 } })
    ((s.refetchStreams core).noteChange core 0 0x08).seekWork core

/-- A write of `dctl` (R389): STOP and RESUME act unless both are written. -/
def State.writeDctl (s : State) (core : Nat) (v : Word) : State :=
  let s := s.onCore core (fun c => { c with dbg := { c.dbg with dctl := v &&& 0x3C } })
  let s := if s.overflowed core then s.once (s.pkg.ptime + 1) (.overflowMove (clusterOf core)) else s
  match v.getLsbD 0, v.getLsbD 1 with
  | true, false => s.requestStop core
  | false, true => s.resumeCore core
  | _, _ => s

/-- DCTL_STOP and DCTL_RESUME (R389, R390). -/
def execDctlStop (core : Nat) (s : State) : Host.Outcome State Fault Refusal := .next (s.requestStop core)
def execDctlResume (core : Nat) (s : State) : Host.Outcome State Fault Refusal := .next (s.resumeCore core)

/-! ## Adjournment and watchdog registers (R401, R402) -/

/-- ADJCTL_NOW (R401): the recorders adjourn by hand. -/
def execAdjctlNow (s : State) : Host.Outcome State Fault Refusal := .next (s.adjourn 5)
/-- ADJCTL_REARM (R402). -/
def execAdjctlRearm (s : State) : Host.Outcome State Fault Refusal := .next s.rearm

/-- A write of `adjctl` (R401, R402): TEN, then NOW or REARM, neither when both are written. -/
def State.writeAdjctl (s : State) (v : Word) : State :=
  let s := { s with pkg := { s.pkg with adjctl := setFld s.pkg.adjctl 9 6 (fld v 9 6) } }
  match v.getLsbD 12, v.getLsbD 11 with
  | true, false => s.adjourn 5
  | false, true => s.rearm
  | _, _ => s

/-- A write of `wdog` restarts its period (R401). -/
def State.writeWdog (s : State) (v : Word) : State :=
  let period := fld v 31 0
  let s := { s with pkg := { s.pkg with wdog := natWord period, wdogStart := if period = 0 then none else some s.pkg.ptime } }
  if period = 0 then s else s.post (s.pkg.ptime + period * 65536) .watchdogExpiry

/-- WDOG_WRITE (R401). -/
def execWdogWrite (v : Word) (s : State) : Host.Outcome State Fault Refusal := .next (s.writeWdog v)

/-! ## The fault buffer (R37 to R40) -/

/-- The two halves of an entry (R37). -/
def FbEntry.word (e : FbEntry) (high : Bool) : Word :=
  if high then
    let tasks := e.reqs.foldl (fun (m : BitVec 32) (x : ParkReq) => match x.r with
      | .ctx c i => m ||| nodeBit c i
      | _ => m) 0
    let eng := bit01 (e.reqs.any (fun x => match x.r with
      | .stream _ _ _ => true | _ => false)) + bit01 (e.reqs.any (fun x => match x.r with
      | .copy _ _ => true | _ => false)) * 2 + bit01 (e.reqs.any (fun x => match x.r with
      | .matrix _ _ => true | _ => false)) * 4
    natWord (tasks.toNat + eng * 2 ^ 32)
  else natWord (e.vpn % 2 ^ 39 + e.vfn * 2 ^ 39 + e.ak.toNat * 2 ^ 45 + e.count * 2 ^ 48 + e.level * 2 ^ 56)

/-- `fbstat` (R38). -/
def Cluster.fbstat (c : Cluster) : Word :=
  natWord (((List.finRange 8).map (fun i => bit01 c.fb[i].valid * 2 ^ i.val)).sum + bit01 c.fbDrop * 256 + c.fbDrops * 65536)

/-- A parked requester goes on (R39), or is resolved by fault (R40). -/
def State.release (s : State) (r : Requester) (deliver : Bool) : State :=
  match r with
  | .ctx c i => s.unparkCtx c i (if deliver then some 0x02 else none)
  | .stream c wp n => s.unparkStream c wp n deliver
  | .copy c id => s.unparkCopy c id deliver
  | .matrix cl id => s.unparkMatrix cl id deliver

/-- A fault-buffer entry resolved by fault (R40); none has no effect. -/
def State.deliverEntry (s : State) (cl : Nat) (i : Fin 8) : State :=
  let e := (s.cluster cl).fb[i]
  if !e.valid then s
  else
    let s := s.onCluster cl (fun c => { c with fb := c.fb.set i FbEntry.reset })
    e.reqs.foldl (fun s x => s.release x.r true) s

/-- FBDLV_WRITE (R40). -/
def execFbdlvWrite (cl entry : Nat) (s : State) : Host.Outcome State Fault Refusal := .next (s.deliverEntry cl (fin8 (entry % 8)))

/-- The core of a requester and the address space under which it translates, none for one that has ended. -/
def State.asks (s : State) (r : Requester) : Option (Nat × Word) :=
  match r with
  | .ctx c i => some (c, (s.coreOf c).atpOf ((s.coreOf c).slot i).wp)
  | .stream c wp n => (((s.coreOf c).streamRefs n).find? (fun r => r.wp == wp)).map (fun r => (c, r.atp))
  | .copy c id => ((s.coreOf c).copies.find? (fun k => k.id == id)).map (fun k => (c, k.atp))
  | .matrix cl id => ((s.cluster cl).arr.queue.find? (fun k => k.id == id)).map (fun k => (k.core, k.atp))

/-- A context whose translation is made again awaits its walk (R39): it parks afresh where the walk finds V = 0. -/
def State.awaiting (s : State) (r : Requester) : State :=
  match r with
  | .ctx c i => s.onCore c (fun k => k.onSx i (fun x => { x with asking := true }))
  | _ => s

/-- A parked translation is made again (R39): through the TLBs and, on a miss, by a fresh walk; one that finds the walkers and their
queue full asks again by itself. -/
def State.reask (s : State) (cl : Nat) (x : ParkReq) : State :=
  let s := s.release x.r false
  match s.asks x.r with
  | none => s
  | some (core, atp) =>
    match s.tlbFind core x.vfn x.vpn with
    | some (_, s) => s
    | none =>
      let s := s.count core 0x005 x.vfn
      match s.miss x.r x.ak cl x.vfn x.vpn atp with
      | some s => s.awaiting x.r
      | none => s

/-- The reissue of every parked translation of a cluster (R39). -/
def State.replayAll (s : State) (cl : Nat) : State :=
  let c := s.cluster cl
  let reqs := ((List.finRange 8).filter (fun i => c.fb[i].valid)).flatMap (fun i => c.fb[i].reqs)
  let s := s.onCluster cl (fun c => { c with fb := Vector.replicate 8 FbEntry.reset, dropped := [], fbDrop := false, fbDrops := 0 })
  (reqs ++ c.dropped.foldl insertPark []).foldl (fun s x => s.reask cl x) s

/-! ## Reading control registers (R381, R387) -/

def boolWord (b : Bool) : Word := natWord (bit01 b)

/-- The select register that governs a core or cluster counter or select (R398). -/
def State.counterSelect (s : State) (n : Nat) : Word :=
  if n < 0x820 then s.core.dbg.pms[fin8 (n % 8)] else (s.cluster s.cl).cps[fin8 (n % 8)]

/-- A debug register as the running supervisor reads it (R388, R398): a counter of heads has counted the reading one (R399). -/
def State.readDebug (s : State) (n : Nat) : Word :=
  let s := s.countCore s.cn 2 s.vfn
  if s.vfn = 0 then s.debugWord n
  else if 0x810 ≤ n ∧ n < 0x830 ∧ (s.counterSelect n).getLsbD 16 ∧ fld (s.counterSelect n) 15 10 = s.vfn then s.counterWord n
  else 0

/-- `lstat`, `bwtok` and the other registers of 0x010 to 0x017 (R72 to R75, R14). -/
def State.timeWord (s : State) (n : Nat) : Word :=
  match n with
  | 0x010 => natWord s.now
  | 0x011 => natWord s.pkg.llen1
  | 0x012 => natWord s.pkg.llen2
  | 0x013 => natWord s.pkg.gband
  | 0x014 => natWord s.pkg.lcut
  | 0x015 => (s.die s.dn).clk.lstat
  | 0x016 => natWord s.pkg.hsplit
  | _ => natWord ((mapGet s.core.tokens s.vfn).getD 0)

/-- A control register as read (R381). -/
def State.readCsr (s : State) (n : Nat) : Word :=
  let w := s.ws
  let x := s.slot
  let k := s.cluster s.cl
  match n with
  | 0x000 => w.tsw
  | 0x001 => natWord w.fcsr.toNat
  | 0x002 => natWord w.mcr.toNat
  | 0x003 => w.cvm
  | 0x004 => w.atp
  | 0x005 => natWord x.wp
  | 0x006 => natWord w.vl.toNat
  | 0x007 => w.prog
  | 0x020 => natWord s.core.srng.toNat
  | 0x021 => s.core.grng
  | 0x022 => s.core.latecnt
  | 0x023 => x.tbud
  | 0x024 => s.calstat
  | 0x030 => x.fault.fcause
  | 0x031 => x.fault.faddr
  | 0x032 => x.fault.fdetail
  | 0x033 => x.fault.fpc
  | 0x034 => x.fault.fins
  | 0x035 => x.fault.fins1
  | 0x036 => x.fault.fwp
  | 0x037 => x.tvec
  | 0x038 => x.tctl
  | 0x040 => k.fbstat
  | 0x041 => k.fbctl
  | 0x042 => k.fbsel
  | 0x043 => (k.fb[fin8 (fld k.fbsel 2 0)]).word (k.fbsel.getLsbD 3)
  | 0x044 => 0
  | 0x050 => s.ringCtl s.core.dbg.race
  | 0x051 => s.core.dbg.race.base
  | 0x052 => s.core.dbg.race.ptr
  | 0x060 => s.core.bsel
  | 0x061 => s.bstat
  | n => if n < 0x018 then s.timeWord n else s.readDebug n

/-! ## Writing control registers (R7, R381) -/

/-- The bits of a mask take the written value. -/
def maskWrite (old new mask : Word) : Word := (old &&& ~~~mask) ||| (new &&& mask)

/-- Bits of a mask written 1 are cleared (W1C). -/
def clearWrite (old new mask : Word) : Word := old &&& ~~~(new &&& mask)

/-- The control word of a ring written (R135, R393): OVF is W1C, but for one set in this cycle (R7), LOST is cleared by EN from 0 to 1. -/
def ringWrite (old new keep : Word) (fresh : Nat) : Word :=
  let v := maskWrite (clearWrite old new (2 &&& ~~~(natWord fresh))) new keep
  if !old.getLsbD 0 && new.getLsbD 0 then setFld v 63 32 0 else v

def baseMask : Word := 0x000FFFFFFFFFFFC0
def ptrMask : Word := 0xFFFFFFFF00000000
def counterMask : Word := 0x0000FFFFFFFFFFFF

/-- The bank of a counter register: its scope, the core, cluster or die, and the counter's number. -/
def State.ctrBank (s : State) (n : Nat) : Nat × Nat × Nat :=
  if n < 0x820 then (0, s.cn, n % 8) else if n < 0x830 then (1, s.cl, n % 8) else (2, s.dn, n % 16)

/-- A counter written in a cycle (R399): its value stands, a wrap of this cycle is undone; its new select counts from the next cycle. -/
def State.markWrite (s : State) (n : Nat) (value : Bool) (sel : Word) : State :=
  let b := s.ctrBank n
  let m := (s.ctrMark b.1 b.2.1 b.2.2).getD
    { scope := b.1, place := b.2.1, core := s.cn, idx := b.2.2, sel := sel, wrapped := false, wrote := false }
  s.setMark (if value then { m with wrote := true, wrapped := false } else m)

/-- A select register written (R396, R399): OVF is W1C, but one set in this very cycle stays. -/
def State.selWrite (s : State) (n : Nat) (old new : Word) : Word :=
  let b := s.ctrBank n
  let now := (s.ctrMark b.1 b.2.1 b.2.2).any (·.wrapped)
  maskWrite (if now then old else clearWrite old new 0x20000) new 0x5FFFF

/-- OVF after a value is written: the wrap of this cycle has not happened (R399). -/
def State.ovfWrite (s : State) (n : Nat) (sel : Word) : Word :=
  let b := s.ctrBank n
  match s.ctrMark b.1 b.2.1 b.2.2 with
  | some m => if m.wrapped then setFld sel 17 17 (bit01 (m.sel.getLsbD 17)) else sel
  | none => sel

/-- A counter or select register written (R396). -/
def State.writeCounter (s : State) (n : Nat) (v : Word) : State :=
  let val := v &&& counterMask
  let i := fin8 (n % 8)
  let j := fin16 (n % 16)
  let d := s.core.dbg
  let k := s.cluster s.cl
  let f := s.die s.dn
  if n < 0x818 then (s.onDbg (fun x => { x with pmc := x.pmc.set i val, pms := x.pms.set i (s.ovfWrite n x.pms[i]) })).markWrite n true d.pms[i]
  else if n < 0x820 then (s.onDbg (fun x => { x with pms := x.pms.set i (s.selWrite n x.pms[i] v) })).markWrite n false d.pms[i]
  else if n < 0x828 then
    (s.onCluster s.cl (fun x => { x with cpc := x.cpc.set i val, cps := x.cps.set i (s.ovfWrite n x.cps[i]) })).markWrite n true k.cps[i]
  else if n < 0x830 then (s.onCluster s.cl (fun x => { x with cps := x.cps.set i (s.selWrite n x.cps[i] v) })).markWrite n false k.cps[i]
  else if n < 0x840 then
    (s.onDie s.dn (fun x => { x with fpc := x.fpc.set j val, fps := x.fps.set j (s.ovfWrite n x.fps[j]) })).markWrite n true f.fps[j]
  else (s.onDie s.dn (fun x => { x with fps := x.fps.set j (s.selWrite n x.fps[j] v) })).markWrite n false f.fps[j]

/-- A ring changed in the debug module. -/
def Ring.write (r : Ring) (part : Nat) (keep v : Word) (fresh : Nat) : Ring :=
  match part with
  | 0 => { r with ctl := ringWrite r.ctl v keep fresh }
  | 1 => { r with base := v &&& baseMask }
  | _ => { r with ptr := maskWrite r.ptr v ptrMask }

/-- A debug register written by root (R388 to R404). -/
def State.writeDebug (s : State) (n : Nat) (v : Word) : State :=
  match n with
  | 0x800 => s.writeDctl s.cn v
  | 0x801 => s
  | 0x806 => s.onDbg (fun d => { d with dwa := d.dwa.set 0 (v &&& 0x7FFFFFFFFFFFFF) })
  | 0x807 => s.onDbg (fun d => { d with dwa := d.dwa.set 1 (v &&& 0x7FFFFFFFFFFFFF) })
  | 0x808 => s.onDbg (fun d => { d with dwc := d.dwc.set 0 (v &&& 0xFF) })
  | 0x809 => s.onDbg (fun d => { d with dwc := d.dwc.set 1 (v &&& 0xFF) })
  | 0x80A =>
    let arm := !s.core.dbg.note.ctl.getLsbD 0 && v.getLsbD 0
    let s := s.onDbg (fun d => { d with note := { d.note.write 0 0xFFFFFF09 v (s.core.freshAt 0x80A s.pkg.ptime) with last := if arm then s.pkg.ptime else d.note.last } })
    if arm then s.noteSync s.cn else s
  | 0x80B => s.onDbg (fun d => { d with note := d.note.write 1 0 v 0 })
  | 0x80C => s.onDbg (fun d => { d with note := d.note.write 2 0 v 0 })
  | 0x80D => s.onDbg (fun d => { d with mlog := d.mlog.write 0 0xFFFFFF01 v (s.core.freshAt 0x80D s.pkg.ptime) })
  | 0x80E => s.onDbg (fun d => { d with mlog := d.mlog.write 1 0 v 0 })
  | 0x80F => s.onDbg (fun d => { d with mlog := d.mlog.write 2 0 v 0 })
  | 0x850 => s.writeAdjctl v
  | 0x852 => { s with pkg := { s.pkg with storm := v &&& 0xFFFF } }
  | 0x853 => s.writeWdog v
  | 0x861 => s.onSlot (fun x => { x with icnt := v.setWidth 48 })
  | n =>
    if n < 0x806 then s.onDbg (fun d => { d with dbp := d.dbp.set (fin4 (n - 0x802)) (v &&& 0x7FFFFFFFFFFFFF) })
    else if 0x810 ≤ n ∧ n < 0x850 then s.writeCounter n v
    else s

/-- `fbctl` written (R38): a SVC on an absent die leaves SVC as it was. -/
def State.writeFbctl (s : State) (v : Word) : State :=
  let mask : Word := if s.corePresent (fld v 26 16) then 0x7FF0001 else 1
  s.onCluster s.cl (fun c => { c with fbctl := maskWrite c.fbctl v mask })

/-- `fcsr` written (R146): RM of 5 to 7 stores 0. -/
def fcsrWrite (v : Word) : BitVec 14 :=
  let v := if 5 ≤ fld v 7 5 then setFld v 7 5 0 else v
  v.setWidth 14

/-- `mcr` written (R300): NV is W1C, but for one set in this cycle (R7). -/
def mcrWrite (old : BitVec 16) (v : Word) (fresh : Nat) : BitVec 16 :=
  (old &&& 8 &&& (~~~(v.setWidth 16) ||| BitVec.ofNat 16 fresh)) ||| (v.setWidth 16 &&& 7)

/-- A control register written with its new value (R381): the bits that are not writable keep theirs. -/
def State.writeCsr (s : State) (n : Nat) (v : Word) : State :=
  match n with
  | 0x000 => s.onWs (fun w => { w with tsw := maskWrite w.tsw v 0x15 })
  | 0x001 => s.onWs (fun w => { w with fcsr := fcsrWrite v })
  | 0x002 => s.onWs (fun w => { w with mcr := mcrWrite w.mcr v (s.core.freshAt (2 + 4096 * s.core.res.wp) s.pkg.ptime) })
  | 0x003 => s.onWs (fun w => { w with cvm := v })
  | 0x004 => s.onWs (fun w => { w with atp := v &&& 0x80FFFFFFFFFF003F })
  | 0x007 => s.onWs (fun w => { w with prog := v &&& 0x1FF })
  | 0x020 => s.setCore { s.core with srng := if v.setWidth 32 = (0 : BitVec 32) then 0x6D2B79F5 else v.setWidth 32 }
  | 0x021 => s.setCore { s.core with grng := if v = 0 then 0x6A09E667F3BCC909 else v }
  | 0x022 => s.setCore { s.core with latecnt := v &&& 0x00FFFFFFFFFFFFFF }
  | 0x023 => s.onSlot (fun x => { x with tbud := setFld x.tbud 31 0 (fld v 31 0) })
  | 0x036 => s.onSlot (fun x => { x with fault := { x.fault with fwp := v &&& 0x3FFFF } })
  | 0x037 => s.onSlot (fun x => { x with tvec := v &&& 0x7FFFFFFFFFFFC0 })
  | 0x038 => s.onSlot (fun x => { x with tctl := v &&& 0x30003FFFF })
  | 0x040 => s.onCluster s.cl (fun c => { c with fbDrop := c.fbDrop && !v.getLsbD 8 })
  | 0x041 => s.writeFbctl v
  | 0x042 => s.onCluster s.cl (fun c => { c with fbsel := v &&& 0xF })
  | 0x044 => s.deliverEntry s.cl (fin8 (fld v 2 0))
  | 0x050 => s.onDbg (fun d => { d with race := d.race.write 0 0xFFFFFF01 v (s.core.freshAt 0x050 s.pkg.ptime) })
  | 0x051 => s.onDbg (fun d => { d with race := d.race.write 1 0 v 0 })
  | 0x052 => s.onDbg (fun d => { d with race := d.race.write 2 0 v 0 })
  | 0x060 => s.setCore { s.core with bsel := v &&& 0x3F }
  | n => if 0x800 ≤ n then s.writeDebug n v else s

/-- Who may read a register (R381, R388). -/
def State.csrReadable (s : State) (n : Nat) : Bool :=
  if 0x030 ≤ n ∧ n ≤ 0x038 then s.sup
  else if 0x040 ≤ n ∧ n ≤ 0x052 then s.root
  else if 0x800 ≤ n then s.sup
  else true

/-- Who may write it (R381, R388); a write that a register ignores is no forbidden access. -/
def State.csrWritable (s : State) (n : Nat) : Bool :=
  if n = 0x000 ∨ n = 0x004 ∨ n = 0x007 ∨ n = 0x020 ∨ n = 0x021 ∨ n = 0x023 then s.sup
  else if 0x030 ≤ n ∧ n ≤ 0x036 then s.sup
  else if n = 0x022 ∨ n = 0x037 ∨ n = 0x038 ∨ (0x040 ≤ n ∧ n ≤ 0x052) ∨ 0x800 ≤ n then s.root
  else true

/-- A write of `tctl` whose HWP R22 does not allow raises ILLEGAL (R212). -/
def tctlGate (s : State) (n : Nat) (v : Word) : M Unit :=
  if n = 0x038 ∧ !wpOk (fld v 17 0) then illegalNow s else .ok ()

/-- An access to `fcsr` follows the flags of the slot's queued atomics (R146). -/
def flagsReady (s : State) (n : Nat) : M Unit :=
  if n ≠ 1 then .ok ()
  else
    match s.slot.relq.find? (fun e => match e.op with
      | .amo _ _ .fadd _ _ _ _ wp _ => wp == s.core.res.wp
      | _ => false) with
    | some e => holdBack s e.op
    | none => .ok ()

/-- The three writing forms (R381): the old value to s[D], then the new value by `f` of the old one and s[A]. -/
def csrOp (d a : SReg) (n : BitVec 12) (f : Word → Word → Word) (s : State) : M State := do
  let k := n.toNat
  needPriv s (s.csrReadable k && s.csrWritable k)
  tokensReady s [d, a]
  flagsReady s k
  let old := s.readCsr k
  let v := f old (s.ws.getS a)
  tctlGate s k v
  .ok (((if k = 0x850 then s.seenAdjctl else s).doneS d [] old).writeCsr k v)

/-- `csrr` (R381). -/
def execCsrr (d : SReg) (n : BitVec 12) (s : State) : Host.Outcome State Fault Refusal := finish (do
  needPriv s (s.csrReadable n.toNat)
  tokensReady s [d]
  flagsReady s n.toNat
  let s := s.doneS d [] (s.readCsr n.toNat)
  .ok (if n = 0x850 then s.seenAdjctl else s))
/-- `csrw` (R381). -/
def execCsrw (d a : SReg) (n : BitVec 12) (s : State) : Host.Outcome State Fault Refusal := finish (csrOp d a n (fun _ x => x) s)
/-- `csrs` (R381). -/
def execCsrs (d a : SReg) (n : BitVec 12) (s : State) : Host.Outcome State Fault Refusal := finish (csrOp d a n (fun o x => o ||| x) s)
/-- `csrc` (R381). -/
def execCsrc (d a : SReg) (n : BitVec 12) (s : State) : Host.Outcome State Fault Refusal :=
  finish (csrOp d a n (fun o x => o &&& ~~~x) s)

/-! ## Traps and returns (R214, R216, R382, R383) -/

/-- `trap` (R382): any cause but SYSCALL needs supervisor mode; the saved pc is the next instruction. -/
def execTrap (d : Fin 32) (imm : BitVec 16) (s : State) : Host.Outcome State Fault Refusal := finish (do
  if causeTabled d.val then pure () else illegalNow s
  needPriv s (s.sup || d.val == 0x19)
  .error (.st (s.trap { Trap.mk0 d.val 0 0 (imm.setWidth 64) with next := true })))

/-- A handler returns: a task whose booked end has raised OVERRUN and that has not extended its booking is demoted as the handler of that
trap returns (R189), not one that nests in it (R215). -/
def State.settleOverrun (s : State) : State :=
  let n := s.sx.task.nest
  let s := s.onSx (fun x => { x with task := { x.task with nest := n - 1 } })
  if s.sx.task.overrun && s.sx.task.booked && decide (n ≤ 1) then s.demote s.cn s.core.cur else s

/-- What follows a switch of the running context's workspace (R40, R162, R175): load streams fetch again, the cluster's followers
leave a leader, a translation that had failed is no longer asked for. -/
def State.switched (s : State) : State :=
  ((s.onSx (fun x => { x with walkFault := none, asking := false })).refetchStreams s.cn).unfollowers s.cn

/-- `sret` (R214): the handler's workspace is written back, `fwp` resumed, `tctl.ACT` cleared. A resumed pc outside the 55-bit space is PROT
NONCANON at the `sret` (R225). -/
def execSret (s : State) : Host.Outcome State Fault Refusal := finish (do
  needPriv s s.sup
  let wp := s.slot.fault.fwp.toNat
  if wpOk wp then pure () else illegalNow s
  let _ ← registerPc s ((s.core.onWs (fun w => { w with pc := s.nextPc, prog := 0 })).switchTo wp).res.ws.pc
  let s := s.onWs (fun w => { w with pc := s.nextPc, prog := 0 })
  let s := s.onSlot (fun x => { x with icnt := x.icnt + 1, tctl := setFld x.tctl 32 32 0 })
  let s := s.settleOverrun
  let s := (s.setCore (s.core.switchTo wp)).switched
  .ok ((s.noteChange s.cn 0 0x03).noteBranch s.ws.pc true))

/-- The slot's tracker is merged into the carry tracker (R117); a queued release goes on covering what it covers. -/
def Core.mergeTracker (c : Core) (i : SlotId) : Core :=
  let x := c.slot i
  let c := { c with carry := { count := c.carry.count + x.trk.count, v := max c.carry.v x.trk.v } }
  c.onSlot i (fun x => { x with trk := { count := 0, v := 0 }, wbase := x.wseq })

/-- `wsw` (R216, R340, R383). It ends the slot's sitting; of a request that still waits the spec says nothing, and the model keeps it for the slot
(log entry 119). -/
def execWsw (a : SReg) (la : Bool) (s : State) : Host.Outcome State Fault Refusal := finish (do
  needPriv s s.sup
  tokensReady s [a]
  let wp := (s.ws.getS a).toNat
  if wpOk wp then pure () else illegalNow s
  let s := (s.onWs (fun w => w.killSs [(la, a)])).retire
  let s := (s.setCore ((s.core.mergeTracker s.core.cur).switchTo wp)).switched
  .ok (if s.array.sits s.cn s.core.cur then s.endSitting s.cl else s))

/-! ## TLB invalidation (R33, R46, R384) -/

/-- The entry or walk of a page range meets the bytes `lo` to `lo + n - 1`. -/
def pageMeets (page frames lo n : Nat) : Bool := decide (0 < n) && decide (page * 65536 < lo + n) && decide (lo < (page + frames) * 65536)

/-- Entries that satisfy `p` leave every TLB of the package, and the results of such walks are discarded: their requesters ask
again (R33). -/
def State.invalidate (s : State) (p : Nat → Nat → Nat → Bool) : State :=
  let gone := fun (w : Walk) => p w.vfn w.vpn 1
  let owed := s.clusters.flatMap (fun c => (c.2.walks.filter gone ++ c.2.missq.filter gone).flatMap (fun w => w.reqs.map (·.1)))
  let s := s.cores.foldl (fun s c => s.onCore c (fun k => { k with tlb := k.tlb.filter (fun e => !p e.vfn e.vbase (pageFrames e.size)) })) s
  let s := { s with clusters := s.clusters.map (fun c => (c.1, { c.2 with
      tlb := c.2.tlb.filter (fun e => !p e.vfn e.vbase (pageFrames e.size)),
      walks := c.2.walks.filter (fun w => !gone w), missq := c.2.missq.filter (fun w => !gone w) })) }
  owed.foldl (fun s r => s.resume r) s

/-- What the forms of `tlbinv` share (R384): root only, LATE in a booked task, the wait of `fence.pkg`. -/
def tlbGate (s : State) : M Unit := do
  needPriv s s.root
  if s.booked ∧ s.timingTrap 0x0F then waitNow s 0x23 0x0D 0 else pure ()
  if s.slot.outLoads ≠ 0 ∨ s.slot.trk.count ≠ 0 ∨ s.core.carry.count ≠ 0 ∨ !s.slot.relq.isEmpty then .error (.st (s.waitHere 0x23))
  else if !s.frmOn ∧ s.releaseTime s.dn < s.trackV then .error (.st ((s.awaitTime s.trackV).waitHere 0x23))
  else .ok ()

/-- `tlbinv` (R384). -/
def execTlbinv (a b c : SReg) (la lb lc : Bool) (s : State) : Host.Outcome State Fault Refusal := finish (do
  tlbGate s
  tokensReady s [a, b, c]
  let vfn := fld (s.ws.getS c) 5 0
  let lo := (s.ws.getS a).toNat
  let n := (s.ws.getS b).toNat
  .ok ((s.invalidate (fun v p f => v == vfn && pageMeets p f lo n)).done [(la, a), (lb, b), (lc, c)]))

/-- `tlbinv.vf` (R384). -/
def execTlbinvVf (c : SReg) (lc : Bool) (s : State) : Host.Outcome State Fault Refusal := finish (do
  tlbGate s
  tokensReady s [c]
  let vfn := fld (s.ws.getS c) 5 0
  .ok ((s.invalidate (fun v _ _ => v == vfn)).done [(lc, c)]))

/-- `tlbinv.all` (R384). -/
def execTlbinvAll (s : State) : Host.Outcome State Fault Refusal := finish (do
  tlbGate s
  .ok (s.invalidate (fun _ _ _ => true)).retire)

/-- `replayall` (R39, R385). -/
def execReplayall (s : State) : Host.Outcome State Fault Refusal := finish (do
  needPriv s s.root
  .ok (s.replayAll s.cl).retire)

/-! ## Debug instructions (R386) -/

/-- `brk` (R386, R392): BREAK with unit 7. -/
def execBrk (s : State) : Host.Outcome State Fault Refusal := .next (s.trap { Trap.mk0 0x17 0 0 7 with next := true })

/-- `notate` (R386, R394): a MARK record. -/
def execNotate (imm : BitVec 16) (s : State) : Host.Outcome State Fault Refusal :=
  .next ((s.note s.cn 0x82 none [BitVec.ofNat 32 (imm.toNat + s.core.cur.val * 65536)]).retire)

end Sys2Proof.Machine
end

