-- ==== Sys2Proof/Machine/Fabric.lean ====
section
/-! DEFINITION. Events of the memory system and of the clocks: the line directory's messages (spec/03 R73, R79 to R90, R107,
R108), host accesses (R104 to R106), the memory ports (R411), acknowledgements and releases (spec/04 R117 to R120, R137),
translation walks (spec/01 R31 to R36) and token refills (spec/02 R72). -/
namespace Sys2Proof.Machine

/-! ## Requests at the home (R79, R81, R86, R107) -/

/-- What serves a request of another die at the home (R52, R62, R85): owners there give the line up, the home slice holds it. -/
def State.homeServesFor (s : State) (line vfn : Nat) : State :=
  if (s.entry line).st = 3 then s
  else (s.lineTouched 2048 (s.lineHome line) line).homeSlice line ((mapGet s.lineKey line).getD 0) vfn
def State.homeServes (s : State) (line : Nat) : State := s.homeServesFor line 0

/-- The answer to a fill (R79, R107): GNT with the expiry, FIL with the whole line's data and its tags. -/
def State.answerFill (s : State) (line die expiry : Nat) : State :=
  (s.post s.pkg.ptime (.gnt line die expiry)).post s.pkg.ptime
    (.fil ⟨line, BitVec.allOnes 64, ⟨s.lineData line, s.lineTagBits line⟩⟩ die)

/-- A request of a die is served at the home, or held there until the line is (R86, R87, R105). -/
def State.atHome (s : State) (line die : Nat) (ev : Event) (serve : State → State) : State :=
  if s.lineWaits line die then (s.askLine line die).holdReq line die ev else serve s

/-- A leased fill (R79); a tile line is served as a snapshot (R97). -/
def State.serveRdl (s : State) (line die : Nat) : State :=
  s.atHome line die (.rdl line die) (fun s =>
    let (x, s) := (s.homeServes line).grant line die
    s.answerFill line die x)
/-- An unleased fill (R79). -/
def State.serveRdu (s : State) (line die : Nat) : State :=
  s.atHome line die (.rdu line die) (fun s => ((s.visit line).homeServes line).answerFill line die 0)

/-- RDL (R79). -/
def execRdl (line die : Nat) (s : State) : Host.Outcome State Fault Refusal := .next (s.serveRdl line die)

/-- RDU (R79). -/
def execRdu (line die : Nat) (s : State) : Host.Outcome State Fault Refusal := .next (s.serveRdu line die)

/-- GNT (R80, R82, R108): the slice's copy has the expiry, unless the die has been cut meanwhile or is out of lock. -/
def execGnt (line die expiry : Nat) (s : State) : Host.Outcome State Fault Refusal :=
  let e := s.entry line
  if s.lineHome line = die ∨ !s.locked die ∨ e.cutting ∨ e.hint.getLsbD die = false ∨ expiry = 0 then .next s
  else
    let key := (mapGet s.lineKey line).getD 0
    .next (s.fillL2 die (match s.l2Get die line key with
      | some y => { y with exp := expiry }
      | none => s.newL2 die line key 0 expiry))

/-- FIL (R107): the data that serves the accesses waiting for it; the slice's copy of the line, if it has one, is used. Memory holds
each byte once (log entry 4). -/
def execFil (x : LineFill) (die : Nat) (s : State) : Host.Outcome State Fault Refusal :=
  match s.l2Any die x.line with
  | some y => .next (s.fillL2 die y)
  | none => .next s

/-- WRQ (R81): a store of a slot performed at the home, with a WAK that carries its `vt`; a tile line refuses it (R97). -/
def execWrq (line die core : Nat) (slot : SlotId) (mask : BitVec 64) (data : StoreData) (s : State) :
    Host.Outcome State Fault Refusal :=
  .next (s.asCore core slot (fun s =>
    let (w, s) := s.newWrite
    if s.tileRefuses core line then s.post s.pkg.ptime (.wak w line 0 true)
    else
      let s := s.writeMasked line mask data.bytes 0
      if (s.entry line).st = 3 then s.wak w line s.now
      else (s.homeServesFor line data.vfn).perform line die false w))

/-- The register that an atomic answers to, in the workspace of its slot. -/
def State.answerAtomic (s : State) (core wp : Nat) (d : SReg) (fl : Flags) (y : Word) : State :=
  s.onCore core (fun c => c.onWsAt wp (fun w => (w.setFlags fl).setS d y) [d.val, 95, 97])

/-- An atomic at a scope on a byte of memory for a slot, its old value to the register (R67). -/
def State.atomicFor (s : State) (addr : Nat) (sc : Scope) (op : AmoOp) (t : IT) (b c : Word) (core : Nat) (slot : SlotId) (d : SReg) :
    State :=
  let p := s.placeOfKey addr
  let wp := ((s.coreOf core).slot slot).wp
  s.asCore core slot (fun s =>
    let r := s.amoAt p sc op t b c
    r.2.2.answerAtomic core wp d r.2.1 (amoResult op t r.1))

/-- An atomic that reaches the home; a tile line of another core refuses it. -/
def State.serveAmo (s : State) (addr : Nat) (op : AmoOp) (t : IT) (b c : Word) (src : AmoSource) (core : Nat) (slot : SlotId) (d : SReg) :
    State :=
  if s.tileRefuses core (addr / 64) then s
  else s.atHome (addr / 64) src.die (.amo addr op t b c src core slot d) (fun s => s.atomicFor addr src.sc op t b c core slot d)

/-- AMO (R67, R97, R107): an atomic executed at the home. -/
def execAmo (addr : Nat) (op : AmoOp) (t : IT) (b c : Word) (src : AmoSource) (core : Nat) (slot : SlotId) (d : SReg) (s : State) :
    Host.Outcome State Fault Refusal :=
  .next (s.serveAmo addr op t b c src core slot d)

/-- VAULT_ACCESS (R65, R67): a request served by a vault's controller. -/
def execVaultAccess (addr : Nat) (op : AmoOp) (t : IT) (b c : Word) (core : Nat) (slot : SlotId) (d : SReg) (s : State) :
    Host.Outcome State Fault Refusal := .next (s.atomicFor addr .package op t b c core slot d)

/-- A fill of a host or peer (R104): unleased; a cacheable state sets HOST, but not on a tile line. -/
def State.serveCxlRead (s : State) (x : CxlAccess) (cacheable : Bool) : State :=
  let line := x.line
  let s := s.visit line
  if (s.entry line).st = 3 then s
  else s.atHome line 8 (.cxlMemRead x cacheable) (fun s =>
    let s := s.homeServes line
    if cacheable then s.onEntry line (fun e => { e with host := true }) else s)

/-- A request held at the home is served. -/
def State.serveHeld (s : State) (ev : Event) : State :=
  match ev with
  | .rdl line die => s.serveRdl line die
  | .rdu line die => s.serveRdu line die
  | .own line die => s.requestOwn line die
  | .amo addr op t b c src core slot d => s.serveAmo addr op t b c src core slot d
  | .cxlMemRead x cacheable => s.serveCxlRead x cacheable
  | _ => s

/-- What the home holds for a recall or for the host's line is done in the order of its arrival (R87): what follows a request for
ownership waits until it is granted. -/
def State.performHeld (s : State) (line : Nat) : State :=
  let ws := (s.entry line).waits
  if ws.any (·.recalls) then
    let s := s.onEntry line (fun e => { e with waits := ws.filter (fun w => !w.recalls) })
    (ws.filter (·.recalls)).foldl (fun s w =>
      if !(s.entry line).ownReq.isEmpty then s.onEntry line (fun e => { e with waits := e.waits ++ [w] })
      else match w.req with
        | some ev => s.serveHeld ev
        | none => s.perform line w.die w.force w.dst) s
  else s

/-- OWN (R86): ownership for a die. -/
def execOwn (line die : Nat) (s : State) : Host.Outcome State Fault Refusal := .next (s.requestOwn line die)

/-- OAK (R86): the grant to the first die that asks, once no other die has a copy, no cut is in progress and time has reached LHZ;
the next die that asks follows after it. -/
def execOak (line die : Nat) (s : State) : Host.Outcome State Fault Refusal :=
  let s := s.visit line
  let e := s.entry line
  let t := s.ptimeOf (s.lineHome line)
  if e.ownReq.head? ≠ some die then .next s
  else if e.st = 3 then .next (s.setEntry line { e with ownReq := [] })
  else if (e.st = 2 ∧ e.odie ≠ die) ∨ e.cutting ∨ (hintDies e.hint).any (· != die) ∨ !s.hostOwns line then .next (s.serveOwn line)
  else if e.st ≠ 2 ∧ t < e.lhz then .next (s.once (s.pkg.ptime + (e.lhz - t)) (.oak line die))
  else
    let rest := e.ownReq.drop 1
    let s := s.setEntry line { e with st := 2, odie := die, hint := 0, hz := 0, ownReq := rest }
    let s := (s.fillSlice die line ((mapGet s.lineKey line).getD 0) 0).2
    .next (match rest with
      | d :: _ => s.again (.oak line d)
      | [] => s.performHeld line)

/-! ## Cuts (R81, R82, R90) -/

/-- The latest L1 expiry of a line, for which the answer of a die to a CUT or an RCL waits, is kept (R82, R86). -/
def State.owe (s : State) (die line : Nat) : State :=
  let hz := s.l1Horizon die line
  s.onDie die (fun d => { d with due := mapSet d.due line hz })
/-- The answer has been given. -/
def State.answered (s : State) (die line : Nat) : State := s.onDie die (fun d => { d with due := mapDel d.due line })
/-- The cycles until a die may answer for a line: none for a die out of lock (R82, R88). -/
def State.answerLeft (s : State) (die line : Nat) : Nat :=
  if s.locked die then (mapGet (s.die die).due line).getD 0 - s.ptimeOf die else 0

/-- CUT (R82): the die invalidates its copy; CUA is due when its L1 copies have expired. A die whose clock has stopped does
not answer (R89). -/
def execCut (line die : Nat) (s : State) : Host.Outcome State Fault Refusal :=
  if !(s.die die).clk.running then .next s
  else
    let s := (s.recallCluster die line).owe die line
    .next ((s.dropCopy die line).post (s.pkg.ptime + s.answerLeft die line) (.cuaDue line die))

/-- CUA_DUE (R82): the die answers once its own time has passed the L1 expiries. -/
def execCuaDue (line die : Nat) (s : State) : Host.Outcome State Fault Refusal :=
  if !(s.die die).clk.running then .next s
  else
    let wait := s.answerLeft die line
    if wait ≠ 0 then .next (s.once (s.pkg.ptime + wait) (.cuaDue line die))
    else .next ((s.answered die line).post s.pkg.ptime (.cua line die))

/-- CUA (R81): recorded at the home; the last one completes the cut. -/
def execCua (line die : Nat) (s : State) : Host.Outcome State Fault Refusal :=
  let e := s.entry line
  if !e.cutting ∨ !(e.cuas.contains die) then .next s
  else
    let left := e.cuas.filter (· != die)
    let s := s.setEntry line { e with cuas := left }
    .next (if left.isEmpty then s.finishCut line (s.ptimeOf (s.lineHome line)) else s)

/-- CUT_COMPLETION (R81, R89, R90): the horizon and its band have passed, by the home's time or, when it is out of lock, by the latest
beacon's; a home in lock that comes too early comes again. -/
def execCutCompletion (line : Nat) (s : State) : Host.Outcome State Fault Refusal :=
  let e := s.entry line
  let h := s.lineHome line
  let due := e.hz + s.pkg.gband
  if !e.cutting then .next s
  else if due ≤ s.releaseTime h then .next (s.finishCut line (s.releaseTime h))
  else .next (if s.locked h then s.once (s.pkg.ptime + (due - s.releaseTime h)) (.cutCompletion line) else s)

/-- LEASE_HORIZON_PASS (R79, R86). -/
def execLeaseHorizonPass (line : Nat) (s : State) : Host.Outcome State Fault Refusal := .next (s.visit line)

/-! ## Recalls (R86, R87) -/

/-- RCL (R86): the owner die invalidates its copies and answers once its L1 horizon has passed, with the bytes that are dirty; a
stopped die answers when it resumes (R87). The cores for which it owns the line have a turn before it answers (log entry 5). -/
def execRcl (line : Nat) (s : State) : Host.Outcome State Fault Refusal :=
  let e := s.entry line
  let d := e.odie
  if e.recalled.isNone ∨ !(s.die d).clk.running then .next s
  else
    let dirty : BitVec 64 := if (s.hbmOf line 0).dirty then BitVec.allOnes 64 else 0
    let s := ((s.recallL1 2048 line).recallCluster d line).owe d line
    .next ((s.dropCopy d line).post (s.pkg.ptime + max engineGap (s.answerLeft d line)) (.rca ⟨line, dirty⟩))

/-- The requests held at a home for a line go on (R86, R87), then the next request for ownership, then a snoop of the host
(R105). -/
def State.goOn (s : State) (line : Nat) : State := ((s.performHeld line).serveOwn line).answerSnoop line

/-- RCA (R86): the line is I, or stays a tile's, and its dirty bytes are the home's (log entry 4); the requests held for it proceed.
An entry recalled to leave the directory store leaves it (R78). No RECALL_HELD is due any more (R87). -/
def execRca (x : LineRecalled) (s : State) : Host.Outcome State Fault Refusal :=
  let line := x.line
  let e := s.entry line
  let wait := s.answerLeft e.odie line
  if e.recalled.isNone then .next s
  else if wait ≠ 0 then .next (s.once (s.pkg.ptime + wait) (.rca x))
  else
    let s := s.answered e.odie line
    let s := { s with pending := s.pending.filter (fun p => p.2 != Event.recallHeld line) }
    let s := s.setEntry line { e with
      st := if e.st = 3 then 3 else 0, odie := if e.st = 3 then e.odie else 0, recalled := none, leaves := false }
    let s := s.goOn line
    .next (if e.leaves ∧ (s.entry line).st < 2 ∧ (s.entry line).quiet then s.dropEntry line else s)

/-- RECALL_HELD (R87): recorded in the scoresheet and counted at the home die. -/
def execRecallHeld (line : Nat) (s : State) : Host.Outcome State Fault Refusal :=
  let h := s.lineHome line
  match (s.entry line).recalled with
  | some t =>
    if t + 262144 ≤ s.ptimeOf h then
      .next ((s.score 0x03 ((s.entry line).odie * 256) 0 (natWord line) 0).onDie h (fun d => { d with held := d.held + 1 }))
    else .next (s.once (s.pkg.ptime + (t + 262144 - s.ptimeOf h)) (.recallHeld line))
  | none => .next s

/-- WBD (R86, R98): bytes written back with their tags arrive at the home; an owner die that evicts a line has given it up, a tile
line is no longer held. -/
def execWbd (line : Nat) (mask : BitVec 64) (data : LineData) (s : State) : Host.Outcome State Fault Refusal :=
  let s := s.writeMasked line mask data.bytes data.tags
  let e := s.entry line
  if e.st = 3 then .next (s.setEntry line { e with held := false })
  else if e.st = 2 ∧ e.recalled.isNone then .next ((s.setEntry line { e with st := 0, odie := 0 }).goOn line)
  else .next s

/-! ## The memory ports (R411) -/

/-- The words of a line with an uncorrected error (R49). -/
def State.lineBad (s : State) (line : Nat) : Bool := (upto (line * 8) 8).any (setHas s.bad)

/-- MRD (R66, R411): a memory-port die reads a line, decrypts it under its key (R41) and checks it (R49); it answers with what memory holds
(R274), and STATUS 1 where a word has an uncorrected error (log entry 109). Reads of a booked claim come first (R194). -/
def execMrd (die : Nat) (x : PortRead) (s : State) : Host.Outcome State Fault Refusal :=
  let line := (die * 2 ^ 37 + x.addr) / 64
  let m := s.hbmOf line ((mapGet s.lineKey line).getD 0)
  let bytes : BitVec 512 := if s.keyLoaded m.key then BitVec.ofNat 512 (ofBytes m.bytes) else 0
  let tags : BitVec 4 := m.tags.foldl (fun (b : BitVec 4) g => b ||| BitVec.twoPow 4 (g % 4)) 0
  .next ((s.post s.pkg.ptime (.mrs die ⟨x.addr, bit01 (s.lineBad line)⟩)).post s.pkg.ptime (.mdt die x.addr ⟨bytes, tags⟩))

/-- The tagged granules of a line by the tags that a message carries. -/
def tagList (line : Nat) (tags : BitVec 4) : List Nat := (upto (line * 4) 4).filter (fun g => tags.getLsbD (g % 4))

/-- MWR (R66, R411): a memory-port die encrypts a line under its key and writes it with its tags (R26) and a fresh end-to-end code, which
mends its words; a copy that a slice of the home holds stands above it. Under a key not loaded nothing is written (R42). -/
def execMwr (die addr : Nat) (data : LineData) (s : State) : Host.Outcome State Fault Refusal :=
  let line := (die * 2 ^ 37 + addr) / 64
  let key := (mapGet s.lineKey line).getD 0
  let bs := toBytes 64 data.bytes.toNat
  let s := { s with bad := s.bad.filter (fun w => w / 8 != line) }
  if !s.keyLoaded key then .next s
  else if (mapGet s.hbm line).isSome ∨ s.inTags line then
    .next { s with hbm := mapSet s.hbm line { s.hbmOf line key with bytes := bs, tags := tagList line data.tags, key := key } }
  else .next { s.setTags line (tagList line data.tags) with mem := writeLocs s.mem (upto (line * 64) 64) bs }

/-- MRS (R411): the response reaches its requester, whose accesses go on. -/
def execMrs (_die : Nat) (_x : PortAnswer) (s : State) : Host.Outcome State Fault Refusal := .next s
/-- MDT (R411): the data reaches its requester; memory holds each byte once (log entry 4). -/
def execMdt (_die _addr : Nat) (_data : LineData) (s : State) : Host.Outcome State Fault Refusal := .next s

/-! ## Hosts and peers (R104 to R106) -/

/-- A CXL port serves accesses to HBM (R104, R419, R422, R423): boot has enabled the ports, the record gives the port a role, HDM-DB is
negotiated, and for a peer's port the fabric. -/
def State.cxlOpen (s : State) (port : Nat) : Bool :=
  decide (6 ≤ s.pkgx.boot) && s.pkgx.enabled.getLsbD 8 &&
    (match mapGet s.pkgx.roles port with
     | some r => r == 0 || s.pkgx.enabled.getLsbD 9
     | none => false)

/-- CXL_MEM_READ (R104). -/
def execCxlMemRead (x : CxlAccess) (cacheable : Bool) (s : State) : Host.Outcome State Fault Refusal :=
  if s.cxlOpen x.port then .next (s.serveCxlRead x cacheable) else .next s

/-- CXL_MEM_WRITE (R104): a write under R81 whose WAK returns its completion; on a tile line it is discarded, recorded and signalled
as an error on the port that carried it. -/
def execCxlMemWrite (x : CxlAccess) (mask : BitVec 64) (data : BitVec 512) (s : State) : Host.Outcome State Fault Refusal :=
  let line := x.line
  if !s.cxlOpen x.port then .next s
  else if (s.entry line).st = 3 then
    let s := s.score 0x04 0 0 (natWord (line * 64)) 0
    .next { s with pkgx := { s.pkgx with cxlErrors := s.pkgx.cxlErrors ++ [(x.port, line)] } }
  else
    let s := (s.writeMasked line mask data 0).homeServes line
    let n := s.pkgx.hostSeq
    let w : HostWrite := { seq := n, line := line, vt := none }
    let s := { s with pkgx := { s.pkgx with hostSeq := n + 1, hostWrites := s.pkgx.hostWrites ++ [w] } }
    .next (s.perform line 8 false (.host n))

/-- BIRSP (R104): the holders have given the line up; the writes held for it take a `vt` no earlier than now. -/
def execBirsp (line : Nat) (s : State) : Host.Outcome State Fault Refusal :=
  let e := s.entry line
  let t := s.ptimeOf (s.lineHome line)
  if !e.snoop then .next s
  else
    let ws := e.waits.map (fun w => if w.snoop then { w with snoop := false, vt := if w.vt = 0 ∧ !w.cut then 0 else max w.vt t } else w)
    .next ((s.setEntry line { e with host := false, snoop := false, waits := ws }).settleWaits line)

/-- HOST_SNOOP (R105): every hinted die is cut and any owner recalled; then the I/O die answers and gives the line up. -/
def execHostSnoop (line : Nat) (s : State) : Host.Outcome State Fault Refusal :=
  let s := (s.visit line).lineTouched 2048 (s.lineHome line) line
  let s := s.onEntry line (fun e => { e with hostAsks := true })
  let e := s.entry line
  if e.st = 2 then .next (s.recall line)
  else if !e.cutting ∧ e.hint ≠ 0 then .next (s.sendCuts line 100 0)
  else .next (s.answerSnoop line)

/-- CXL_CACHE_RESPONSE (R105): the I/O die holds the line, owned when it has asked so; the requests held for it proceed. -/
def execCxlCacheResponse (x : HostRead) (s : State) : Host.Outcome State Fault Refusal :=
  let line := x.line
  if !s.portCaches line then .next s
  else
    let px := { s.pkgx with
      hostLines := setAdd s.pkgx.hostLines line,
      hostOwned := if x.own then setAdd s.pkgx.hostOwned line else s.pkgx.hostOwned }
    .next (({ s with pkgx := px } : State).goOn line)

/-! ## Acknowledgements and releases (R83, R117 to R120, R137) -/

/-- Slots of a core whose release queue may go on. -/
def State.pushReleases (s : State) (core : Nat) : State :=
  (List.finRange 4).foldl (fun s i =>
    if ((s.coreOf core).slot i).relq.isEmpty then s else s.postOnce (.releaseComplete core i)) s
/-- Load streams that wait for the writes before their `sbind` try again (R320). -/
def State.pushStreams (s : State) (core : Nat) : State :=
  (List.finRange 8).foldl (fun s n =>
    if ((s.coreOf core).streamRefs n).any (fun r => r.st.after) then s.postOnce (.streamFetch core n) else s) s

/-- The core's copies may have waited for a release that has been performed (R331). -/
def State.pushCopies (s : State) (core : Nat) : State :=
  if (s.coreOf core).copies.isEmpty then s else s.postOnce (.copyStart core)

/-- A queue entry of slot `i` covers a write of a slot by its number (R118): those that its own slot had issued, and those of any slot
that the carry tracker held. -/
def RelEntry.covers (e : RelEntry) (i slot : SlotId) (seq : Nat) : Bool :=
  if i = slot then decide (seq < e.seq) else decide (seq < e.bases.getD slot.val 0)

/-- A WAK in the trackers of a slot (R117): writes before the last merge are the carry tracker's. The entries that cover the write
wait for one less (R118), and the router counts one less (R137). -/
def Core.acked (c : Core) (slot : SlotId) (seq vt : Nat) : Core :=
  let old := decide (seq < (c.slot slot).wbase)
  let one := fun (t : Tracker) => ({ count := t.count - 1, v := max t.v vt } : Tracker)
  let take := fun (i : SlotId) (e : RelEntry) =>
    if e.covers i slot seq then { e with count := e.count - 1, v := max e.v vt, fleft := if i = slot then e.fleft - 1 else e.fleft } else e
  let c := (List.finRange 4).foldl (fun (c : Core) i => c.onSlot i (fun x => { x with relq := x.relq.map (take i) })) c
  let c := c.onSlot slot (fun x => { x with
    outStores := x.outStores - 1, fcount := x.fcount - 1, trk := if old then x.trk else one x.trk })
  if old then { c with carry := one c.carry } else c

/-- A host's write has its `vt` (R104): its completion goes back when the home's time reaches it. -/
def State.hostAcked (s : State) (seq vt : Nat) : State :=
  { s with pkgx := { s.pkgx with hostWrites := s.pkgx.hostWrites.map (fun w => if w.seq = seq then { w with vt := some vt } else w) } }

/-- The `vt` of a line of a recorder's ring: WPTR may pass the line then (R393). -/
def State.ringAcked (s : State) (core : Nat) (log : Bool) (line vt : Nat) : State :=
  let mine := fun (l : RingLine) => l.sent && l.vt.isNone && (basePlace l.addr).line 0 == line
  let ack := fun (r : Ring) => { r with out := (r.out.foldl (fun (a : List RingLine × Bool) l =>
    if mine l && !a.2 then (a.1 ++ [{ l with vt := some vt }], true) else (a.1 ++ [l], a.2)) ([], false)).1 }
  (s.onCore core (fun c => { c with dbg :=
    if log then { c.dbg with mlog := ack c.dbg.mlog } else { c.dbg with note := ack c.dbg.note } })).postOnce (.notationLineWrite core)

/-- WAK (R81, R107, R112, R117): a visibility time returns to the writer's tracker, its engine command, a tile's mark (R95), a recorder's ring (R393)
or a host. -/
def execWak (dst : WakDst) (line vt : Nat) (refused : Bool) (s : State) : Host.Outcome State Fault Refusal :=
  match dst with
  | .slot core i seq =>
    .next ((((s.onCore core (fun c => c.acked i seq vt)).pushReleases core).pushStreams core).pushCopies core)
  | .stream core wp n => .next (s.streamAcked core wp n vt)
  | .copy core id => .next (s.copyAcked core id vt)
  | .matrix cl id => .next (s.mxAcked cl id vt)
  | .tile tid => .next (s.markReturned tid vt (bit01 refused))
  | .ring core log => .next (s.ringAcked core log line vt)
  | .host seq => .next (s.hostAcked seq vt)
  | .none => .next s

/-! A release as it is performed -/

/-- The core `n` with its slot `i` as the current one, to be asked and not to be kept. -/
def State.viewCore (s : State) (n : Nat) (i : SlotId) : State :=
  if n = s.cn then { s with core := { s.core with cur := i } }
  else { s with cn := n, core := { s.coreOf n with cur := i }, others := mapSet (mapDel s.others n) s.cn s.core }

/-- What performs a release on memory needs of its line first (R67, R85, R86): the place and scope of its point. -/
def RelOp.point (o : RelOp) : Option (Place × Scope × Bool) :=
  match o with
  | .store p sc _ _ => some (p, sc, false)
  | .amo p sc _ _ _ _ _ _ _ => some (p, sc, true)
  | _ => none

/-- Its line has become part of another core's tile while it waited (R97). -/
def State.relRefused (s : State) (core : Nat) (o : RelOp) : Bool :=
  match o.point with
  | some (p, _, _) => p.coherent && s.tileRefuses core (p.line 0)
  | none => false

/-- The entry has been performed: the queue goes on, with the streams and copies that may have waited for it. -/
def State.popRelease (s : State) (core : Nat) (slot : SlotId) : State :=
  (((s.onCore core (fun c => c.onSlot slot (fun x => { x with relq := x.relq.drop 1 }))).pushReleases core).pushStreams core).pushCopies core

/-- A store of the queue is performed at its point. -/
def State.performStore (s : State) (core : Nat) (slot : SlotId) (p : Place) (sc : Scope) (bs : List Byte) : State :=
  s.asCore core slot (fun s => (s.takePoint p (p.line 0) sc).putScoped [(p, bs.length)] bs (some sc))

/-- The head of a release queue is performed (R67, R118, R120, R360, R369), once its point has the line. A message leaves the queue
when its target accepts it, an atomic on a root port when its answer comes (R106). One whose line belongs to another core's tile by
now is not performed, and an atomic answers with a free value (log entry 104). -/
def State.performRelease (s : State) (core : Nat) (slot : SlotId) (e : RelEntry) : State :=
  let mark := fun (s : State) => s.onCore core (fun c => c.onSlot slot (fun x => x.onHead (fun e => { e with sent := true })))
  let ready : Bool := match e.op.point with
    | some (p, sc, amo) => (s.viewCore core slot).pointReady p (p.line 0) sc amo
    | none => true
  if !ready then
    match e.op.point with
    | some (p, sc, amo) => (s.asCore core slot (fun s => s.askPoint p (p.line 0) sc amo)).again (.releaseComplete core slot)
    | none => s
  else
    let refused := s.relRefused core e.op
    match e.op with
    | .store p sc n data => (if refused then s else s.performStore core slot p sc (toBytes n data.toNat)).popRelease core slot
    | .amo p sc op t b c d wp _ =>
      if refused then
        let (x, s) := s.drawFree
        (s.answerAtomic core wp d 0 (amoResult op t (x.toNat % 2 ^ t.bits))).popRelease core slot
      else
        let port := decide (p.kind = 2) && !p.cach
        let ans := s.asCore core slot (fun s =>
          let r := s.amoAt p sc op t b c
          if port then r.2.2.post (s.pkg.ptime + engineGap) (.atomicopCompletion core slot d t (natWord r.1))
          else r.2.2.answerAtomic core wp d r.2.1 (amoResult op t r.1))
        if port then mark ans else ans.popRelease core slot
    | .arrive b => (s.post s.pkg.ptime (.barrierArrival core slot b)).popRelease core slot
    | .message target m => (mark s).sendMsg target m

/-- The head of a slot's release queue when it may be performed but for time (R118): every write it covers is acknowledged; in fabric
release mode every write that the router counts before it (R137). -/
def Core.readyRelease (c : Core) (slot : SlotId) (frm : Bool) : Option RelEntry :=
  match (c.slot slot).relq with
  | e :: _ => if e.sent ∨ (if frm then e.fleft else e.count) ≠ 0 then none else some e
  | [] => none

/-- RELEASE_COMPLETE (R83, R118): performed when time has reached the largest `vt`; in fabric release mode the router decides
(R137). -/
def execReleaseComplete (core : Nat) (slot : SlotId) (s : State) : Host.Outcome State Fault Refusal :=
  let frm := s.frmOn
  match (s.coreOf core).readyRelease slot frm with
  | none => .next s
  | some e =>
    let now := s.releaseTime (dieOf core)
    if frm then .next (s.postOnce (.fabricReleaseForward core slot))
    else if now < e.v then .next (s.postAt (s.pkg.ptime + (e.v - now)) (.releaseComplete core slot))
    else .next (s.performRelease core slot e)

/-- FABRIC_RELEASE_FORWARD (R137): the router forwards a held release once every write before it is acknowledged. -/
def execFabricReleaseForward (core : Nat) (slot : SlotId) (s : State) : Host.Outcome State Fault Refusal :=
  let frm := s.frmOn
  match (s.coreOf core).readyRelease slot frm with
  | none => .next s
  | some e => if frm then .next (s.performRelease core slot e) else .next (s.postOnce (.releaseComplete core slot))

/-- ATOMICOP_COMPLETION (R106): the old value returns to the atomic at the head of the slot's release queue. -/
def execAtomicopCompletion (core : Nat) (slot : SlotId) (d : SReg) (t : IT) (old : Word) (s : State) :
    Host.Outcome State Fault Refusal :=
  match ((s.coreOf core).slot slot).relq with
  | e :: _ =>
    match e.op with
    | .amo _ _ op _ _ _ _ wp _ =>
      if e.sent then
        let s := s.answerAtomic core wp d 0 (amoResult op t old.toNat)
        .next (s.popRelease core slot)
      else .next s
    | _ => .next s
  | [] => .next s

/-- VISIBILITY_TIME_REACHED (R119): the waits held on the time end. -/
def execVisibilityTimeReached (core : Nat) (slot : SlotId) (s : State) : Host.Outcome State Fault Refusal :=
  .next ((s.pushReleases core).onCore core (fun c => c.onSx slot (fun x => { x with look := true })))

/-! ## Clocks (R73, R74, R88, R89, R425) -/

/-- A die leaves lock and retires its lease epoch (R88): the leased copies of its L1s and slices are invalid, owned lines, lines in M
and tile lines stay, EPOCH counts. -/
def State.lockLoss (s : State) (d : Nat) : State :=
  let s := (s.cores.filter (fun c => dieOf c == d)).foldl (fun s c =>
    s.onCore c (fun k => { k with l1d := k.l1d.filter (·.owned), l1i := k.l1i.filter (·.owned) })) s
  let stays := fun (y : L2Line) =>
    s.lineHome y.line == d || ((s.entry y.line).st == 2 && (s.entry y.line).odie == d) || (s.entry y.line).st == 3
  s.onDie d (fun x => { x with
    l2 := x.l2.map (fun c => (c.1, (c.2.filter stays).map (fun y => { y with l1hz := 0 }))),
    l1floor := [],
    clk := { x.clk with
      good := 0,
      lstat := setFld (setFld x.clk.lstat 0 0 0) 15 8 (fld x.clk.lstat 15 8 + 1) } })

/-- The lease lengths and bands written take effect (R74). -/
def Pkg.takeLengths (p : Pkg) : Pkg :=
  let get := fun (i old : Nat) => (mapGet p.lenNext i).getD old
  { p with llen1 := get 0 p.llen1, llen2 := get 1 p.llen2, gband := get 2 p.gband, lcut := get 3 p.lcut, lenNext := [] }

/-- The clock of a die at `own` after a beacon of time `t` (R73), when the package's time is `now`: held, loaded or slewed. A die that
holds its count goes on holding it until the beacon's value has reached it, and does not slew meanwhile. -/
def DieClock.correct (k : DieClock) (now own t : Nat) : DieClock :=
  let off := Int.ofNat own - Int.ofNat t
  if 4096 < off then { k with held := some own, ofs := 0, slew := 0 }
  else if off < -4096 then { k with held := none, ofs := Int.ofNat t - Int.ofNat now, slew := 0 }
  else if k.held.isSome then
    (if 0 < off then { k with slew := 0 } else { k with held := none, ofs := Int.ofNat own - Int.ofNat now, slew := off })
  else { k with slew := off }

/-- A signed 16-bit field, saturating at 32,767 either way (R75). -/
def offsetField (x : Int) : Nat := (max (-32767) (min 32767 x) % 65536).toNat

/-- Lines homed on a die whose cut a beacon may end (R90). -/
def State.beaconCuts (s : State) (d : Nat) : State :=
  ((s.die d).dir.filter (fun e => e.2.cutting)).foldl (fun s e => s.postOnce (.cutCompletion e.1)) s

/-- Stage 5 of boot ends when every die present is in lock (R423). -/
def State.bootLocked (s : State) : State :=
  if s.pkgx.boot = 5 ∧ s.pkgx.present.all s.locked then { s with pkgx := { s.pkgx with boot := 6 } } else s

/-- BCN (R73 to R75, R88): a time beacon reaches a die. -/
def execBcn (die time : Nat) (s : State) : Host.Outcome State Fault Refusal :=
  let s := { s with pkg := s.pkg.takeLengths }
  let own := s.ptimeOf die
  let off := Int.ofNat own - Int.ofNat time
  let dist := off.natAbs
  let s := s.onDie die (fun d =>
    let k := d.clk.correct s.pkg.ptime own time
    { d with clk := { k with
        lastBeacon := max k.lastBeacon time,
        lstat := setFld k.lstat 31 16 (offsetField off),
        good := if dist * 4 ≤ s.pkg.gband then k.good + 1 else 0 } })
  let s := if s.pkg.gband < dist * 2 then (if s.locked die then s.lockLoss die else s)
    else if 4 ≤ (s.die die).clk.good ∧ !s.frmOn then
      s.onDie die (fun d => { d with clk := { d.clk with lstat := setFld d.clk.lstat 0 0 1 } })
    else s
  let s := (s.beaconCuts die).bootLocked
  .next ((s.cores.filter (fun c => dieOf c == die)).foldl (fun s c => s.pushReleases c) (s.post (s.pkg.ptime + 4096) (.beaconLoss die)))

/-- BEACON_LOSS (R88, R425). -/
def execBeaconLoss (die : Nat) (s : State) : Host.Outcome State Fault Refusal :=
  if s.locked die ∧ (s.die die).clk.lastBeacon + 4096 ≤ s.pkg.ptime then .next (s.lockLoss die) else .next s

/-- CLOCK_STOP (R88). -/
def execClockStop (die : Nat) (s : State) : Host.Outcome State Fault Refusal :=
  .next ((s.onDie die (fun d => { d with clk := { d.clk with running := false } })).lockLoss die)

/-- CLOCK_RESUME (R87, R89): the epoch is retired, the recalls that wait are answered. -/
def execClockResume (die : Nat) (s : State) : Host.Outcome State Fault Refusal :=
  if (s.die die).clk.running then .next s
  else
    let s := (s.onDie die (fun d => { d with clk := { d.clk with running := true } })).lockLoss die
    let owed := s.dies.flatMap (fun d => (d.2.dir.filter (fun e => e.2.recalled.isSome && e.2.odie == die)).map (·.1))
    .next (owed.foldl (fun s l => s.post s.pkg.ptime (.rcl l)) s)

/-! ## Walks (R31 to R36) -/

/-- WALK_START (R31, R32): a walker takes the oldest miss of the queue. -/
def execWalkStart (cl : Nat) (s : State) : Host.Outcome State Fault Refusal :=
  let c := s.cluster cl
  match c.missq with
  | w :: rest =>
    if 16 ≤ c.walks.length then .next s
    else
      let s := s.onCluster cl (fun c => { c with walks := c.walks ++ [w], missq := rest })
      .next ((s.post (s.pkg.ptime + 1) (.walkCompletion cl w.vfn w.vpn)).postOnce (.walkStart cl))
  | [] => .next s

/-- A context still waits for the walk of a page (R31): it has taken no trap and no other path meanwhile. -/
def State.awaits (s : State) (core : Nat) (i : SlotId) (w : Walk) : Bool :=
  let c := s.coreOf core
  let x := c.sx i
  x.asking && x.parkVa.toNat / 65536 == w.vpn && fld (c.atpOf (c.slot i).wp) 5 0 == w.vfn

/-- The address of a requester's walk faults with a reason (R19, R34, R45): a context traps when it next runs, an engine finds it. -/
def State.walkFails (s : State) (cl : Nat) (w : Walk) (reason level : Nat) (r : Requester) : State :=
  match r with
  | .ctx core i =>
    if s.awaits core i w then s.onCore core (fun c => c.onSx i (fun x => { x with asking := false, walkFault := some (x.parkVa, reason) }))
    else s
  | _ => (s.onCluster cl (fun c => { c with walked := c.walked ++ [(r, w.vpn, reason, level)] })).resume r

/-- A requester of a walk that met V = 0 (R34): a context parks, or takes PAGE; an engine decides when it finds it. -/
def State.notPresent (s : State) (cl : Nat) (w : Walk) (level : Nat) (r : Requester × BitVec 3) : State :=
  match r.1 with
  | .ctx core i =>
    if (s.cluster cl).fbctl.getLsbD 0 ∧ !((s.coreOf core).sx i).task.booked then
      if s.awaits core i w then
        ((s.parkLater cl r.1 r.2 w.vfn w.vpn level).parkCtx core i w.vfn w.vpn).onCore core (fun c => c.onSx i (fun x => { x with asking := false }))
      else s
    else s.walkFails cl w 0x02 0 r.1
  | _ => s.walkFails cl w 0 level r.1

/-- A requester of a walk that has read a word with an uncorrected error (R49, R208): ECC is pending for a context, an engine ends
with REASON 0x23. -/
def State.walkSpoilt (s : State) (cl : Nat) (w : Walk) (pa : Nat) (r : Requester) : State :=
  match r with
  | .ctx core i => if s.awaits core i w then s.asCore core i (fun s => s.consumeBad pa) else s
  | _ => s.walkFails cl w 0x23 0 r

/-- A requester of a walk that has found its page (R30, R31). -/
def State.walkFinds (s : State) (e : TlbEntry) (r : Requester) : State :=
  match r with
  | .ctx core i =>
    s.onCore core (fun c => (c.tlbUse e).onSx i (fun x => { x with asking := false }))
  | _ => s.resume r

/-- The requesters of a walk in the order of R36. -/
def Walk.ordered (w : Walk) : List (Requester × BitVec 3) := sortBy (fun a b => decide (a.1.order < b.1.order)) w.reqs

/-- The walks and queued misses of a cluster whose pages an entry covers end with it (R31). -/
def State.walkJoins (s : State) (cl : Nat) (e : TlbEntry) : State :=
  let c := s.cluster cl
  let mine := fun (w : Walk) => e.covers w.vfn w.vpn
  let s := s.onCluster cl (fun c => { c with walks := c.walks.filter (fun w => !mine w), missq := c.missq.filter (fun w => !mine w) })
  ((c.walks.filter mine ++ c.missq.filter mine).flatMap Walk.ordered).foldl (fun s r => s.walkFinds e r.1) s

/-- WALK_COMPLETION (R31 to R36, R400): the walk's result for every requester that joined it. A table line that another die owns is
recalled first (R86). -/
def execWalkCompletion (cl : Nat) (vfn vpn : Nat) (s : State) : Host.Outcome State Fault Refusal :=
  match (s.cluster cl).walks.find? (fun w => w.vfn == vfn && w.vpn == vpn) with
  | none => .next s
  | some w =>
    let r := s.walk cl w.atp vpn
    let s := r.2
    match r.1 with
    | .held line => .next ((s.recall line).again (.walkCompletion cl vfn vpn))
    | res =>
      let s := s.onCluster cl (fun c => { c with walks := c.walks.filter (fun w => !(w.vfn == vfn && w.vpn == vpn)) })
      let s := if (s.cluster cl).missq.isEmpty then s else s.postOnce (.walkStart cl)
      match res with
      | .ok e => .next ((w.ordered.foldl (fun s r => s.walkFinds e r.1) (s.onCluster cl (fun c => c.tlbUse e))).walkJoins cl e)
      | .bad reason => .next (w.ordered.foldl (fun s r => s.walkFails cl w reason 0 r.1) s)
      | .absent level => .next (w.ordered.foldl (fun s r => s.notPresent cl w level r) (s.adjourn 2))
      | .ecc pa => .next (w.ordered.foldl (fun s r => s.walkSpoilt cl w pa r.1) s)
      | .held _ => .next s

/-! ## Token refills (R70 to R72) -/

/-- The functions that are configured: the physical one and the enabled virtual ones (R72, R420). -/
def State.tenants (s : State) : List Nat := 0 :: (if s.pkgx.vfEnable then upto 1 (min s.pkgx.numVfs 63) else [])

/-- The allotments of one refill (R72), in increasing VFN. -/
def allotments (share : Nat → Nat) (active : Nat → Bool) (ts : List Nat) : List (Nat × Nat) :=
  let all := max 256 (ts.map share).sum
  let base := fun t => 1024 * share t / all
  let idle := ts.filter (fun t => !active t)
  let busy := ts.filter active
  let spare := 1024 - (ts.map base).sum + (idle.map (fun t => base t - min (base t) 64)).sum
  let sAct := (busy.map share).sum
  let extra := fun t => spare * share t / sAct
  let rest := spare - (busy.map extra).sum
  ts.map (fun t =>
    if active t then (t, base t + extra t + bit01 (decide ((busy.filter (fun u => decide (u < t))).length < rest)))
    else (t, min (base t) 64))

/-- TOKEN_REFILL (R72): the buckets take their allotments; requests that wait take theirs first (R71), and make their function active
in the period that begins. -/
def execTokenRefill (core : Nat) (s : State) : Host.Outcome State Fault Refusal :=
  let c := s.coreOf core
  let owed := fun t => (mapGet c.debt t).getD 0
  let alloc := allotments (fun t => (s.fn t).share) (fun t => setHas c.active t || owed t != 0) s.tenants
  let left := alloc.filterMap (fun a => if owed a.1 ≤ a.2 then none else some (a.1, owed a.1 - a.2))
  .next (s.onCore core (fun c => { c with
    tokens := alloc.map (fun a => (a.1, a.2 - owed a.1)),
    debt := left ++ c.debt.filter (fun d => !alloc.any (fun a => a.1 == d.1)),
    active := (alloc.filter (fun a => owed a.1 != 0)).map (·.1) }))

end Sys2Proof.Machine
end

