-- ==== Sys2Proof/Machine/Package.lean ====
section
/-! DEFINITION. Registers of the device block and events of the package: register writes (spec/00 R7; spec/01 R43, R45;
spec/02 R70; spec/06 R170, R173, R174), fabric release mode (spec/04 R136), links, discovery and boot (spec/15 R409 to R423),
power (R426), errors (spec/02 R49), the recorders' timers (spec/14 R393, R394, R400 to R402), reset. -/
namespace Sys2Proof.Machine

/-! ## Register writes (R7) -/

def clamp (lo hi x : Nat) : Nat := max lo (min hi x)

/-- A lease length or band as stored (R74): 0 `llen1`, 1 `llen2`, 2 `gband`, 3 `lcut`; it takes effect at the next beacon. -/
def State.writeLength (s : State) (i x : Nat) : State := { s with pkg := { s.pkg with lenNext := mapSet s.pkg.lenNext i x } }

/-- The bits of each word of a record that hold fields (R8, R12, R170, R181). -/
def recordMask (i : Nat) : Word :=
  match i with
  | 0 => 0x007FFFFFFFFFFFFF
  | 3 => 0x0000FFFFFFFFFFFF
  | 4 => 0x0000000003FFFFFF
  | 7 => 0x000000003FFFFFFF
  | 8 => 0x0000000FFFFFFFFF
  | 11 => atpImage
  | 12 => 0x00000000FFFFFFFF
  | 15 => 0x00000000FFFFFFFF
  | i => if 16 ≤ i then 0x0000FFFFFFFFFFFF else 0xFFFFFFFFFFFFFFFF

/-- The runtime builds a record (R170): every word but 13, whose STATE it sets to UNBUILT or POOL while no context has taken
the record. -/
def Rec.build (r : Rec) (i : Nat) (v : Word) : Rec :=
  if i = 13 then (if r.state < 2 then r.setState (fld v 0 0) else r)
  else { r with w := r.w.set (fin32 i) (v &&& recordMask i) }

/-- A level counter as the runtime writes it (R173, R204): EXPECT, which clears FROZEN; LEVEL and VFN. -/
def levelWrite (c : BitVec 128) (half : Nat) (v : Word) : BitVec 128 :=
  if half = 0 then lvSet (lvSet c 31 0 (fld v 31 0)) 116 116 0 else lvSet (lvSet c 114 112 (fld v 50 48)) 122 117 (fld v 58 53)

/-- A template word (R174): the enable, then words 8 to 12 of R170 (log entry 17). -/
def Template.write (t : Template) (i : Nat) (v : Word) : Template :=
  match i with
  | 0 => { t with on := v.getLsbD 0 }
  | 8 => { t with w8 := v &&& recordMask 8 }
  | 9 => { t with w9 := v }
  | 10 => { t with w10 := v }
  | 11 => { t with w11 := v &&& atpImage }
  | 12 => { t with w12 := v &&& recordMask 12 }
  | _ => t

/-- A word of a map window (R421, log entry 17): EN and REGION, then PORT; BASE; LIMIT, inclusive. -/
def MapWin.write (m : MapWin) (i : Nat) (v : Word) : MapWin :=
  match i with
  | 0 => { m with en := v.getLsbD 0, region := fld v 4 1, port := fld v 15 8 }
  | 1 => { m with base := fld v 47 16 * 65536 }
  | _ => { m with limit := fld v 47 16 * 65536 + 65535 }

/-! Fabric release mode (R136, R137) -/

/-- A write of EN is sent to every die (R136); it enters the mode when the mode does not hold. -/
def State.startFrm (s : State) (en : Bool) : State :=
  let dies := s.computeDies ++ upto 8 10
  let s := { s with pkg := { s.pkg with
    frmEn := en, frmMode := s.pkg.frmMode || en, frmEntry := en && !s.pkg.frmMode, frmBusy := dies } }
  dies.foldl (fun s d => s.post s.pkg.ptime (.frm d en)) s

/-- A write of `frmode` (R136): one while BUSY waits; without the feature none has an effect (R422). -/
def State.writeFrmode (s : State) (v : Word) : State :=
  if !s.pkgx.enabled.getLsbD 10 then s
  else if s.pkg.frmBusy.isEmpty then s.startFrm (v.getLsbD 0)
  else { s with pkg := { s.pkg with frmNext := s.pkg.frmNext ++ [v.getLsbD 0] } }

/-- GO of `featstat` (R422): what is offered and accepted is enabled, once; tasks can start from now on. -/
def State.goFeatures (s : State) : State :=
  if s.pkgx.featDone then s
  else
    let s := { s with pkgx := { s.pkgx with enabled := s.pkgx.offer &&& s.pkgx.accept, featDone := true } }
    s.cores.foldl (fun s c => s.seekWork c) s

/-- CLR of a cluster's `kmiss` (R43). -/
def State.clearKmiss (s : State) (cl : Nat) : State := s.onCluster cl (fun c => { c with kmiss := 0 })

/-- A device register written with its access codes (R7; log entry 17 for those without a bit layout); the debug registers of a core
while it is stopped (R388). -/
def State.writeDevice (s : State) (r : DevReg) (v : Word) : State :=
  match r with
  | .vkey f => s.onFn f (fun x => { x with vkey := v &&& 0x7FFFF })
  | .share f => s.onFn f (fun x => { x with share := clamp 1 256 (fld v 8 0) })
  | .rangeBase f i => s.onFn f (fun x => { x with ranges := x.ranges.set i (fld v 35 0, (x.ranges.getD i (1, 0)).2) })
  | .rangeLimit f i => s.onFn f (fun x => { x with ranges := x.ranges.set i ((x.ranges.getD i (1, 0)).1, fld v 35 0) })
  | .llen1 => s.writeLength 0 (clamp 16 65535 (fld v 15 0))
  | .llen2 => s.writeLength 1 (clamp 64 1048575 (fld v 19 0))
  | .gband => s.writeLength 2 (clamp 8 4094 (fld v 11 0 / 2 * 2))
  | .lcut => s.writeLength 3 (fld v 19 0)
  | .record d i w => s.onRec d (i % 512) (fun r => r.build (w % 32) v)
  | .level d i h => s.setLevel d (i % 1024) (levelWrite (s.level d (i % 1024)) h v)
  | .template d f w => s.onDie d (fun x => { x with
      templates := mapSet x.templates f (((mapGet x.templates f).getD Template.reset).write w v) })
  | .keySlot k => if k = 0 ∨ 511 < k then s
    else { s with pkg := { s.pkg with keys := if v.getLsbD 0 then setAdd s.pkg.keys k else setDel s.pkg.keys k } }
  | .mapWindow b i w =>
    let k := i % 16 + (if b then 1000 else 0)
    { s with pkgx := { s.pkgx with maps := mapSet s.pkgx.maps k (((mapGet s.pkgx.maps k).getD MapWin.reset).write w v) } }
  | .featacc h => if s.pkgx.featDone then s
    else { s with pkgx := { s.pkgx with accept :=
      if h = 0 then s.pkgx.accept.extractLsb' 64 64 ++ v else v ++ s.pkgx.accept.extractLsb' 0 64 } }
  | .sssel => { s with pkg := { s.pkg with sssel := v &&& 0xFFF } }
  | .storm => { s with pkg := { s.pkg with storm := v &&& 0xFFFF } }
  | .adjctl => s.writeAdjctl v
  | .wdog => s.writeWdog v
  | .numVfs => { s with pkgx := { s.pkgx with numVfs := min 63 (fld v 15 0), vfEnable := v.getLsbD 16 } }
  | .kmiss cl => if v.getLsbD 63 then s.clearKmiss cl else s
  | .frmode => s.writeFrmode v
  | .featstat => if v.getLsbD 1 then s.goFeatures else s
  | .featoff _ => s
  | .ssptr => s
  | .ssdata _ => s
  | .coreReg c i n =>
    if (s.coreOf c).dbg.dstat.getLsbD 0 ∧ 0x800 ≤ n then s.asCore c (fin4 (i % 4)) (fun s => s.writeDebug n v) else s

/-- REGISTER_WRITE (R7). -/
def execRegisterWrite (r : DevReg) (v : Word) (s : State) : Host.Outcome State Fault Refusal := .next (s.writeDevice r v)

/-- KMISS_CLR (R43). -/
def execKmissClr (cl : Nat) (s : State) : Host.Outcome State Fault Refusal := .next (s.clearKmiss cl)

/-- FEATSTAT_GO (R422). -/
def execFeatstatGo (s : State) : Host.Outcome State Fault Refusal := .next s.goFeatures

/-- FRMODE_WRITE (R136). -/
def execFrmodeWrite (v : Word) (s : State) : Host.Outcome State Fault Refusal := .next (s.writeFrmode v)

/-- A slot of a die holds a release. -/
def State.heldReleases (s : State) (d : Nat) : Bool :=
  s.cores.any (fun c => dieOf c == d && (List.finRange 4).any (fun i => !((s.coreOf c).slot i).relq.isEmpty))

/-- FRM (R136, R137): on entry the die retires its epoch and leaves lock; on exit it answers once every held release has been
forwarded; a write that changes nothing is answered at once. -/
def execFrm (die : Nat) (en : Bool) (s : State) : Host.Outcome State Fault Refusal :=
  if en then .next ((if s.pkg.frmEntry then s.lockLoss die else s).post s.pkg.ptime (.ack die 5 false))
  else if s.frmOn && s.heldReleases die then
    .next (((s.cores.filter (fun c => dieOf c == die)).foldl (fun s c => s.pushReleases c) s).again (.frm die en))
  else .next (s.post s.pkg.ptime (.ack die 5 false))

/-! ## Discovery (R409, R410, R415 to R418) -/

/-- TYPE and FEAT of the package's dies (R417). -/
def dieType (die : Nat) : Nat := if die < 8 then 1 else if die < 16 then 2 else 3
def dieFeat (die : Nat) : Nat := if die < 8 then 0x01 else if die < 16 then 0x1F else if die = 16 then 0xE1 else 0x61

/-- A die's features are those required of its type, and none beyond those defined (R417). -/
def featOk (die ty feat : Nat) : Bool :=
  let need := match ty with
    | 1 => 0x01 | 2 => 0x1F | 3 => if die = 16 then 0xE1 else 0x61 | _ => 0
  (ty == 1 || ty == 2 || ty == 3) && feat &&& need == need && decide (feat < 256)

/-- IDENT (R415, R416): forwarded along its route, or answered along the reverse route, by which it has come. -/
def execIdent (hops : Nat) (route : List Nat) (die : Nat) (x : PortPath) (s : State) : Host.Outcome State Fault Refusal :=
  if hops = 0 then
    match x.back with
    | [] => .next s
    | q :: rest =>
      match wired die q with
      | some (n, p) => .next (s.post s.pkg.ptime (.idack die (dieType die) (dieFeat die) ⟨x.port, n, rest.length, rest, [p]⟩))
      | none => .next s
  else
    match wired die (route.headD 15) with
    | some (n, p) => .next (s.post s.pkg.ptime (.ident (hops - 1) route.tail n ⟨p, p :: x.back⟩))
    | none => .next s

/-- The controller sends IDENT along a route of ports, the first one of I/O die A (R416). -/
def State.sendIdent (s : State) (route : List Nat) : State :=
  match route with
  | [] => s
  | p :: rest =>
    match wired 16 p with
    | some (n, q) => s.post s.pkg.ptime (.ident rest.length rest n ⟨q, [q]⟩)
    | none => s

/-- The controller probes every port of a die that has answered (R416), by the route of its answer. -/
def State.probe (s : State) (die : Nat) : State :=
  let route := (mapGet s.pkgx.routes die).getD []
  (diePorts die).foldl (fun s p =>
    if (wired die p).isNone ∨ (s.die die).down.contains p then s.post (s.pkg.ptime + 1050000) (.identTimeout die p)
    else s.sendIdent (route ++ [p])) s

/-- An event of discovery that is still to come. -/
def Event.discovers (e : Event) : Bool :=
  match e with
  | .ident _ _ _ _ => true | .idack _ _ _ _ => true | .identTimeout _ _ => true | _ => false
def Event.numbers (e : Event) : Bool :=
  match e with
  | .topo _ _ _ _ => true | .ack _ opa _ => opa == 3 | _ => false

/-- The next port from a die to an identifier (R410, R415): along the row first; 7 for itself. -/
def nextHop (die i : Nat) : Nat :=
  if die = i then 7
  else if die < 8 then
    if i = 16 then 0
    else if i = 17 then 1
    else
      let t := i % 8
      if t = die then 4
      else if die % 4 < t % 4 then 1 else if t % 4 < die % 4 then 0 else if die < t then 3 else 2
  else if die < 16 then 0
  else if i < 16 then i % 8 / 4
  else 0

/-- The identifiers found and accepted. -/
def State.foundDies (s : State) : List Nat := s.pkgx.found.map (·.1)

/-- TOPO is sent to a die along its route from I/O die A (R415, R416). -/
def State.sendTopo (s : State) (die ident : Nat) (nbr hop : List Nat) : State :=
  match (mapGet s.pkgx.routes die).getD [] with
  | [] => s
  | p :: rest =>
    match wired 16 p with
    | some (n, _) => s.post s.pkg.ptime (.topo n ⟨ident, rest.length, rest⟩ nbr hop)
    | none => s

/-- The topology table is sent once discovery has ended (R416). -/
def State.endDiscovery (s : State) : State :=
  if s.pending.any (fun p => Event.discovers p.2) then s
  else
    let found := s.foundDies
    found.foldl (fun s d =>
      let nbr := (List.range 5).map (fun p => match wired d p with
        | some (n, _) => if found.contains n then n else 31
        | none => 31)
      let hop := (List.range 18).map (fun i => if found.contains i then nextHop d i else 7)
      s.sendTopo d d nbr hop) s

/-- The links of a die are left down and the die out of the table (R416). -/
def State.refuseDie (s : State) (die port : Nat) : State :=
  let s := { s with pkgx := { s.pkgx with refused := setAdd s.pkgx.refused die, found := mapDel s.pkgx.found die } }
  s.onDie die (fun d => { d with down := (port :: diePorts die).foldl setAdd d.down })

/-- The number of the die at the end of a route from I/O die A, by its position (R416). -/
def numberAt (route : List Nat) : Option Nat :=
  route.foldl (fun d p => d.bind (fun d => (wired d p).map (·.1))) (some 16)

/-- The answer of a die has reached the controller (R416, R417): it is numbered by its position; one reached under two numbers is a
topology fault. A die accepted has its own ports probed next. -/
def State.idAnswer (s : State) (die ty feat : Nat) (x : IdPath) : State :=
  let old := mapGet s.pkgx.numbers die
  if s.pkgx.refused.contains die then s
  else match numberAt x.back with
    | none => s
    | some n =>
      if old.any (· != n) then s.refuseDie die x.port
      else if old.isSome then s
      else if featOk die ty feat then
        ({ s with pkgx := { s.pkgx with
          found := mapSet s.pkgx.found die ty, numbers := mapSet s.pkgx.numbers die n, routes := mapSet s.pkgx.routes die x.back } } : State).probe die
      else s.refuseDie die x.port

/-- IDACK (R415 to R417): forwarded along its route; at the controller, checked and recorded. -/
def execIdack (die ty feat : Nat) (x : IdPath) (s : State) : Host.Outcome State Fault Refusal :=
  if x.hops = 0 then .next (s.idAnswer die ty feat x).endDiscovery
  else
    match wired x.here (x.route.headD 15) with
    | some (n, p) => .next (s.post s.pkg.ptime (.idack die ty feat ⟨x.port, n, x.hops - 1, x.route.tail, p :: x.back⟩))
    | none => .next s.endDiscovery

/-- IDENT_TIMEOUT (R416): the port is recorded absent. -/
def execIdentTimeout (die port : Nat) (s : State) : Host.Outcome State Fault Refusal :=
  .next (s.onDie die (fun d => { d with down := setAdd d.down port })).endDiscovery

/-- TOPO (R415, R416): forwarded along its route; its addressee takes the identifier and the table, and acknowledges. -/
def execTopo (die : Nat) (x : TopoPath) (nbr hop : List Nat) (s : State) : Host.Outcome State Fault Refusal :=
  if x.hops = 0 then
    let s := s.onDie die (fun d => { d with ident := x.ident, nbr := nbr, hop := hop })
    let s := if x.ident < 8 then { s with pkgx := { s.pkgx with present := setAdd s.pkgx.present x.ident } } else s
    .next (s.post s.pkg.ptime (.ack die 3 false))
  else
    match wired die (x.route.headD 15) with
    | some (n, _) => .next (s.post s.pkg.ptime (.topo n ⟨x.ident, x.hops - 1, x.route.tail⟩ nbr hop))
    | none => .next s

/-- An image or the record of a boot stage is measured, and then verified under both signatures (R423). -/
def State.measure (s : State) (stage : Nat) : State := { s with pkgx := { s.pkgx with measured := s.pkgx.measured ++ [stage] } }
def State.verifies (s : State) (stage : Nat) : Bool := !s.pkgx.forged.contains stage
/-- Boot stops at a stage; the physical function answers with a recovery status (R423). -/
def State.bootStops (s : State) (stage : Nat) : State := { s with pkgx := { s.pkgx with boot := stage, recovery := true } }

/-- Stages 3 and 4 of boot (R418, R423): the record is refused when S is not 0 and a die is missing, or when it does not verify; the
dies' firmware is measured and verified. -/
def State.endNumbering (s : State) : State :=
  if s.pending.any (fun p => Event.numbers p.2) ∨ s.pkgx.boot ≠ 2 then s
  else
    let s := s.measure 3
    if !s.verifies 3 ∨ (s.pkg.hsplit ≠ 0 ∧ !((List.range 16).all (fun d => s.foundDies.contains d))) then s.bootStops 3
    else
      let s := s.measure 4
      if s.verifies 4 then { s with pkgx := { s.pkgx with boot := 5 } } else s.bootStops 4

/-- A die has acknowledged a write of release mode (R136, R137): the last one clears BUSY, ends an exit, and a write that waits goes
on. -/
def State.frmAcked (s : State) (die : Nat) : State :=
  let left := setDel s.pkg.frmBusy die
  let s := { s with pkg := { s.pkg with frmBusy := left, frmMode := s.pkg.frmMode && (s.pkg.frmEn || !left.isEmpty) } }
  if left.isEmpty then
    match s.pkg.frmNext with
    | en :: t => { s with pkg := { s.pkg with frmNext := t } }.startFrm en
    | [] => s
  else s

/-- ACK (R415): of TOPO or of FRM. -/
def execAck (die opa : Nat) (refused : Bool) (s : State) : Host.Outcome State Fault Refusal :=
  match opa with
  | 3 => .next (if refused then { s with pkgx := { s.pkgx with present := setDel s.pkgx.present die } } else s).endNumbering
  | 5 => .next (s.frmAcked die)
  | _ => .next s

/-! ## Links (R412 to R414) -/

/-- CRD (R414, R415): the credits announced at link-up; the link is up. -/
def execCrd (die port : Nat) (credits : List Nat) (s : State) : Host.Outcome State Fault Refusal :=
  .next (s.onDie die (fun d => { d with credits := mapSet d.credits port credits, down := setDel d.down port }))

/-- CREDIT_RETURN (R412, R414): slot 0 returns what has been freed, never beyond the grant. -/
def execCreditReturn (die port : Nat) (credits : List Nat) (s : State) : Host.Outcome State Fault Refusal :=
  .next (s.onDie die (fun d =>
    let have' := (mapGet d.credits port).getD (List.replicate 7 0)
    let sum := (List.range 7).map (fun i => min (classCredits.getD i 0) (have'.getD i 0 + credits.getD i 0))
    { d with credits := mapSet d.credits port sum }))

/-- PROTOCOL_ERROR (R413): a slot with an unassigned OP, or one of class 0 that is not empty, is discarded, the link held down, the die
reported; any other slot is none. -/
def execProtocolError (die : Nat) (x : PortSlot) (s : State) : Host.Outcome State Fault Refusal :=
  if !slotRefused x.slot then .next s
  else
    let s := s.onDie die (fun d => { d with down := setAdd d.down x.port })
    .next { s with pkgx := { s.pkgx with refused := setAdd s.pkgx.refused die } }

/-! ## Errors (R49, R400, R403) -/

/-- ECC_ERROR (R49): a corrected error is a transparent marker, an uncorrected one stays in its word until it is consumed or
written over; both adjourn the recorders. -/
def execEccError (lcl : Bool) (core addr : Nat) (corrected : Bool) (s : State) : Host.Outcome State Fault Refusal :=
  let s := s.score (if corrected then 0x01 else 0x02) core 0 (natWord addr) 0
  let s := if corrected then s.noteTransp core (s.coreOf core).cur 1
    else if lcl then s.onCore core (fun c => { c with padBad := setAdd c.padBad (addr / 8) })
    else { s with bad := setAdd s.bad (addr / 8) }
  .next (s.adjourn 1)

/-- RETRY_STORM (R400): a die has counted retries, at least the threshold; how many more is a free value (log entry 109). -/
def execRetryStorm (die : Nat) (s : State) : Host.Outcome State Fault Refusal :=
  let least := fld s.pkg.storm 15 0
  if least = 0 then .next s
  else
    let (x, s) := s.drawFree
    let n := least + x.toNat % 65536
    let s := ((s.score 0x0B (die * 256) 0 (natWord n) 0).countRetries die n).onDie die (fun d => { d with retries := n })
    .next (s.adjourn 4)

/-! ## Recorders (R393, R394, R400 to R402) -/

/-- WATCHDOG_EXPIRY (R401): once, until the next write. -/
def execWatchdogExpiry (s : State) : Host.Outcome State Fault Refusal :=
  match s.pkg.wdogStart with
  | some t =>
    if t + fld s.pkg.wdog 31 0 * 65536 ≤ s.pkg.ptime then
      .next ((({ s with pkg := { s.pkg with wdogStart := none } }).score 0x0A 0 0 0 0).adjourn 3)
    else .next s
  | none => .next s

/-- ADJ (R400, R413): an adjournment message with its WHY bits. -/
def execAdj (why : Nat) (s : State) : Host.Outcome State Fault Refusal :=
  .next (((List.range 5).filter (fun i => why.testBit i)).foldl (fun s i => s.adjourn (i + 1)) s)

/-- REARM (R402, R413). -/
def execRearm (s : State) : Host.Outcome State Fault Refusal := .next s.rearm

/-- The line buffers whose first word has waited 1,024 cycles. -/
def Ring.stale (r : Ring) (now : Nat) : Bool := !r.buf.isEmpty && decide (r.first + 1024 ≤ now)

/-- A ring's line written to memory for a core, its `vt` to come in a WAK; a vault's at once. -/
def State.sendRingLine (s : State) (core : Nat) (log : Bool) (l : RingLine) : State :=
  let p := basePlace l.addr
  let s := s.writePhys p (l.words.flatMap (fun w => toBytes 4 w.toNat))
  let w : WakDst := .ring core log
  if p.kind = 0 then s.perform (p.line 0) (dieOf core) false w else s.wak w (p.line 0) 0

/-- The lines of a ring that wait to be sent. -/
def State.sendRing (s : State) (core : Nat) (log : Bool) (r : Ring) : State :=
  (r.out.filter (fun l => !l.sent)).foldl (fun s l => s.sendRingLine core log l) s

/-- WPTR passes the lines whose `vt` has come, in their order (R393). -/
def Ring.settle (r : Ring) (now : Nat) : Ring :=
  r.out.foldl (fun (r : Ring) l =>
    if r.out.head? == some l ∧ l.vt.any (fun v => decide (v ≤ now)) then
      { r with ptr := setFld r.ptr 31 0 l.next, out := r.out.drop 1 }
    else r) r

/-- NOTATION_LINE_WRITE (R393, R405): line buffers that are full or have waited 1,024 cycles are written, and WPTR passes the lines
that have become visible. -/
def execNotationLineWrite (core : Nat) (s : State) : Host.Outcome State Fault Refusal :=
  let old := fun (r : Ring) (per : Nat) => if r.stale s.pkg.ptime then r.flush per else r
  let rings := fun (s : State) (f : Ring → Nat → Ring) => s.onCore core (fun c => { c with dbg := { c.dbg with
    note := f c.dbg.note 16, mlog := f c.dbg.mlog 2 } })
  let s := rings s old
  let d := (s.coreOf core).dbg
  let s := rings s (fun r _ => { r with out := r.out.map (fun l => { l with sent := true }) })
  let s := (s.sendRing core false d.note).sendRing core true d.mlog
  let now := s.releaseTime (dieOf core)
  let s := rings s (fun r _ => r.settle now)
  let d := (s.coreOf core).dbg
  match ([d.note, d.mlog].filterMap (fun (r : Ring) => r.out.head?.bind (·.vt))).min? with
  | some v => .next (s.once (s.pkg.ptime + max 1 (v - now)) (.notationLineWrite core))
  | none => .next s

/-- The notation stream of a core has been silent for the longest DELTA, or a multiple of it. -/
def Debug.silent (d : Debug) (now : Nat) : Bool :=
  d.note.ctl.getLsbD 0 && decide (d.note.last < now) && (now - d.note.last) % 4194303 == 0

/-- NOTATION_TIME_RECORD (R394). -/
def execNotationTimeRecord (core : Nat) (s : State) : Host.Outcome State Fault Refusal :=
  .next (if (s.coreOf core).dbg.silent s.pkg.ptime then s.note core 0x81 none [] else s)

/-- DIVERGENCE (R407, R408). -/
def execDivergence (core kind want got : Nat) (s : State) : Host.Outcome State Fault Refusal :=
  .next (s.diverge core (s.coreOf core).cur kind want got)

/-! ## Reset and power (R423, R424, R426) -/

/-- What a reset leaves of the package's registers: what the configuration record and the flash hold. -/
def PkgX.again (x : PkgX) : PkgX :=
  { PkgX.reset with offer := x.offer, atomicPorts := x.atomicPorts, roles := x.roles, primary := x.primary, forged := x.forged }

/-- COLD_RESET (R403, R423): the machine right after reset; what hosts and peers hold of their own memory stays, and so do the
configuration record and the images; one of the controller's own that does not verify stops boot at its first stage. -/
def execColdReset (s : State) : Host.Outcome State Fault Refusal :=
  let t : State := { State.reset with
    mem := s.mem.filter (fun c => decide (2 ^ 49 ≤ c.1)),
    pkg := { Pkg.reset with hsplit := s.pkg.hsplit },
    pkgx := s.pkgx.again,
    free := s.free }
  .next (if t.verifies 1 then t else { t.bootStops 1 with pending := [] })

/-- What a warm reset keeps of a die: generations and the epoch count (R75, R92). -/
def Die.warm (d : Die) : Die :=
  { Die.reset with
    tiles := d.tiles.map (fun t => (t.1, { TileEntry.reset with gen := t.2.gen })),
    clk := { DieClock.reset with lstat := setFld 0 15 8 (fld d.clk.lstat 15 8) } }

/-- WARM_RESET (R403, R423): boot begins again at discovery; memory, loaded keys, the scoresheet, generations and epochs
stay. -/
def State.warmReset (s : State) : State :=
  let s := s.score 0x0C 0 0 0 0
  { State.reset with
    mem := s.mem, tags := s.tags, lineKey := s.lineKey, bad := s.bad,
    dies := s.dies.map (fun d => (d.1, d.2.warm)),
    pkg := { Pkg.reset with hsplit := s.pkg.hsplit, keys := s.pkg.keys, score := s.pkg.score, ssptr := s.pkg.ssptr },
    pkgx := s.pkgx.again,
    free := s.free }
def execWarmReset (s : State) : Host.Outcome State Fault Refusal := .next s.warmReset

/-- THERMAL_SHUTDOWN (R426): the package powers down, recorded as a warm reset. -/
def execThermalShutdown (s : State) : Host.Outcome State Fault Refusal :=
  let t := s.warmReset
  .next { t with pending := [], pkgx := { t.pkgx with boot := 0 } }

/-- POWER_SAMPLE (R3, R426): above 4,000 W the matrix issue is gated by one more sixteenth, below it by one less; at 105 °C to
one sixteenth; at 115 °C the package powers down. -/
def execPowerSample (milliwatts degrees : Nat) (s : State) : Host.Outcome State Fault Refusal :=
  let gate := if 105 ≤ degrees then 15
    else if 4000000 < milliwatts then min 15 (s.pkgx.throttle + 1) else s.pkgx.throttle - 1
  let s := { s with pkgx := { s.pkgx with power := milliwatts, degrees := degrees, throttle := gate } }
  .next (if 115 ≤ degrees then s.post s.pkg.ptime .thermalShutdown else s)

/-- SPDM_REQUEST (R424): the controller answers outside the machine; the last request answered is kept. -/
def execSpdmRequest (code : Nat) (s : State) : Host.Outcome State Fault Refusal :=
  .next { s with pkgx := { s.pkgx with spdm := code } }

end Sys2Proof.Machine
end

