-- ==== Sys2Proof/Machine/Context.lean ====
section
/-! DEFINITION. What happens at the instruction boundary of a core: switches and yields (spec/06 R161, R176; spec/07 R188),
imprecise traps (spec/08 R208), the budget (spec/07 R199), the checks before an instruction issues (spec/08 R209), the
progress of a replay (spec/14 R406, R407). -/
namespace Sys2Proof.Machine

/-! ## The context that runs (R176, R188) -/

/-- A booked unit of the core is due and has found no context yet (R188): no free task issues meanwhile (log entry 103). -/
def State.bookedDue (s : State) (core : Nat) : Bool :=
  (s.dueUnits core).any (fun x => decide (s.tempo (dieOf core) < x.2.2.2.fin))

/-- The context to which a core switches at a boundary: a booked one whose time has come pre-empts a free one; a core whose
context has left RUN chooses among the READY ones. -/
def State.nextSlot (s : State) (core : Nat) : Option SlotId :=
  let c := s.coreOf core
  let t := s.tempo (dieOf core)
  if c.dbg.dstat.getLsbD 0 then none
  else if (c.slot c.cur).st = .run then
    if (c.sx c.cur).task.booked then none
    else (List.finRange 4).find? (fun i => (c.slot i).st == .ready && (c.sx i).due t)
  else c.choose t (s.bookedDue core)

/-- A free context of the core is pre-empted by the switch (R188): its tracker is merged (R117), and the notation stream
marks it (R394). -/
def State.preempt (s : State) (core : Nat) : State :=
  let c := s.coreOf core
  if (c.slot c.cur).st = .run then (s.onCore core (fun c => c.mergeTracker c.cur)).noteTransp core c.cur 2 else s

/-- The running free context makes way for a booked unit that is due (R188). -/
def State.standAside (s : State) (core : Nat) : State :=
  let c := s.coreOf core
  if (c.slot c.cur).st = .run ∧ !(c.sx c.cur).task.booked ∧ s.bookedDue core then
    (s.preempt core).onCore core (fun c =>
      (c.onSlot c.cur (fun x => { x with st := .ready })).onSx c.cur (fun x => { x with readySince := s.pkg.ptime }))
  else s

/-- CONTEXT_SWITCH (R161, R176): the core switches to the context that is next. -/
def execContextSwitch (core : Nat) (slot : SlotId) (s : State) : Host.Outcome State Fault Refusal :=
  if s.nextSlot core = some slot then .next ((s.preempt core).switchSlot core slot) else .next s

/-- A free context that has been READY for 4,096 cycles (R176). -/
def State.aged (s : State) (core : Nat) (i : SlotId) : Bool :=
  let c := s.coreOf core
  (c.slot i).st == .ready && !(c.sx i).task.booked && decide ((c.sx i).readySince + 4096 ≤ s.pkg.ptime)

/-- Another free context of the core has been READY for 4,096 cycles while a free one runs (R176). -/
def State.yieldDue (s : State) (core : Nat) : Bool :=
  let c := s.coreOf core
  (c.slot c.cur).st == .run && !(c.sx c.cur).task.booked && (List.finRange 4).any (fun i => i != c.cur && s.aged core i)

/-- YIELD_AFTER_WAIT (R176, R177): the running free context goes to READY, and in the choice that follows every context that
has not been READY for 4,096 cycles comes last (log entry 89). -/
def execYieldAfterWait (core : Nat) (s : State) : Host.Outcome State Fault Refusal :=
  if s.yieldDue core then
    .next (s.onCore core (fun c =>
      let c := (List.finRange 4).foldl (fun c i => if s.aged core i then c else c.onSx i (fun x => { x with yielded := true })) c
      (c.onSlot c.cur (fun x => { x with st := .ready })).onSx c.cur (fun x =>
        { x with readySince := s.pkg.ptime, yielded := true, waitCause := 0 })))
  else .next s

/-! ## The next instruction -/

/-- The instruction at head `pc` of a line, as the decoder reads it (R236). -/
def LineBuf.instrAt (l : LineBuf) (pc : Word) : Except IllegalReason Instr := decode (l.head (fld pc 4 0)) (l.tail (fld pc 4 0))

/-- The instruction ends the slice of a budget (R199): `yield` or `retire`. -/
def Instr.endsSlice (i : Instr) : Bool :=
  match i with
  | .yield => true
  | .retire => true
  | .retireFail _ _ => true
  | _ => false
def Instr.retires (i : Instr) : Bool :=
  match i with
  | .retire => true
  | .retireFail _ _ => true
  | _ => false

/-- The next instruction of the running context, when its line is entered, satisfies `p`. -/
def State.ahead (s : State) (p : Instr → Bool) : Bool :=
  let l := s.slot.line
  let pc := s.ws.pc
  l.valid && l.addr == pc.toNat / 64 * 64 && (match l.instrAt pc with
    | .ok i => p i
    | .error _ => false)

/-! ## Traps at a boundary (R199, R208) -/

/-- The budget of the running context is used up and is raised here (R199), or replay raises BUDGET here from its record (R406). -/
def State.budgetDue (s : State) : Bool :=
  s.running && !s.sx.task.booked && (s.recorded == some 0x0E ||
    (s.slot.tbud.getLsbD 32 && fld s.slot.tbud 31 0 == 0 && !s.slot.tctl.getLsbD 32 && s.timingTrap 0x0E && !s.ahead Instr.endsSlice))

/-- BUDGET_EXPIRY (R199). -/
def execBudgetExpiry (core : Nat) (s : State) : Host.Outcome State Fault Refusal :=
  .next (s.asCore core (s.coreOf core).cur (fun s => if s.budgetDue then s.trap (Trap.mk0 0x0E 0 0 0) else s))

/-- The pending imprecise trap that the running context takes at this boundary (R208), none when it takes none. -/
def State.imprecise (s : State) : Option State :=
  let x := s.sx
  if !s.running then none
  else
    match x.ecc with
    | some f => some ((s.onSx (fun x => { x with ecc := none })).trap f.trap)
    | none =>
      if !s.ws.ie then none
      else
        match x.copyFault, x.mxFault with
        | some f, _ => some ((s.onSx (fun x => { x with copyFault := none })).trap f.trap)
        | none, some f => some ((s.onSx (fun x => { x with mxFault := none })).trap f.trap)
        | none, none => none

/-- IMPRECISE_TRAP_DELIVERY (R208): ECC, then COPY, then MX, then BUDGET. -/
def execImpreciseTrapDelivery (core : Nat) (s : State) : Host.Outcome State Fault Refusal :=
  .next (s.asCore core (s.coreOf core).cur (fun s =>
    match s.imprecise with
    | some t => t
    | none => if s.budgetDue then s.trap (Trap.mk0 0x0E 0 0 0) else s))

/-- A booked task at its booked end (R189): a `retire` that has drained in that very cycle completes (R205). -/
def State.overrunDue (s : State) : Bool :=
  let t := s.sx.task
  s.running && t.booked && !t.overrun && decide (t.bookEnd ≤ s.tempo s.dn) && s.timingTrap 0x0F
    && !(s.ahead Instr.retires && s.drained && s.now == 64 * t.bookEnd)

/-! ## Before an instruction issues (R209) -/

/-- The instruction would raise PRIV (R209 step 3), which comes before a breakpoint. -/
def State.privRefuses (s : State) (i : Instr) : Bool :=
  match i with
  | .csrr _ n => !s.csrReadable n.toNat
  | .csrw _ _ n => !(s.csrReadable n.toNat && s.csrWritable n.toNat)
  | .csrs _ _ n => !(s.csrReadable n.toNat && s.csrWritable n.toNat)
  | .csrc _ _ n => !(s.csrReadable n.toNat && s.csrWritable n.toNat)
  | .trap d _ => !(s.sup || d.val == 0x19)
  | .sret => !s.sup
  | .wsw _ _ => !s.sup
  | .tlbinv _ _ _ _ _ _ => !s.root
  | .tlbinvVf _ _ => !s.root
  | .tlbinvAll => !s.root
  | .replayall => !s.root
  | .bforce _ _ _ _ _ => !s.root
  | .bforceRemove _ _ _ _ _ => !s.root
  | .cpq _ a _ => (s.ws.getS a).getLsbD 0 && !s.sup
  | _ => false

/-- BREAK from an instruction breakpoint (R391, R392), the lowest unit that matches. -/
def State.breaks (s : State) (i : Instr) : Option Nat :=
  if s.privRefuses i then none else s.core.dbg.breakHit s.ws.pc

/-- A BREAK of a breakpoint: the unit in the detail word, no address. -/
def breakTrap (unit : Nat) : Trap := Trap.mk0 0x17 0 0 (natWord unit)

/-! ## After an instruction -/

/-- STEP (R389, R390): the running context traps after an instruction has retired; the saved pc is the next instruction. -/
def State.stepTrap (s : State) (pc : Word) : State := s.trap { Trap.mk0 0x18 0 0 0 with fpc := some pc }

/-- The leader has gone from `pc` to `next` (R175): the oldest head that the follower has executed ahead of it is compared with this one
where it is the same head, else this one waits for the follower. False where the two went on elsewhere. -/
def Core.afterLeader (c : Core) (pc next : Word) : Core × Bool :=
  match c.trail.getLast? with
  | none => ({ c with lead := c.lead ++ [(pc, next)] }, true)
  | some x => if x.1 = pc then ({ c with trail := c.trail.dropLast }, x.2 == next) else (c, true)

/-- The follower has gone from `pc` to `next` (R175): it is compared with the leader's execution of that head, where that has come; else it
waits for the leader's. False where the two went on elsewhere. -/
def Core.afterFollower (c : Core) (pc next : Word) : Core × Bool :=
  match c.lead.dropWhile (fun x => x.1 != pc) with
  | x :: rest => ({ c with lead := rest }, x.2 == next)
  | [] => ({ c with lead := [], trail := (pc, next) :: c.trail }, true)

/-- A follower of the cluster as its leader leaves a head of the line at `la` (R175): it follows in that line from now on, and falls back
to its own fetch where it went on elsewhere from the same head. -/
def State.compareFollower (s : State) (la : Nat) (pc next : Word) (n : Nat) : State :=
  let c := s.coreOf n
  let l := (c.slot c.cur).line
  if c.res.ws.tsw.getLsbD 3 = false ∨ !l.valid then s
  else
    let c := if l.addr = la then c.onSlot c.cur (fun x => { x with line := { l with led := true } }) else c
    if l.led ∨ l.addr = la ∨ !c.trail.isEmpty then
      let r := c.afterLeader pc next
      let s := s.onCore n (fun _ => r.1)
      if r.2 then s else s.unfollow n
    else s

/-- A head of the running context has retired at `pc`, in a line that its cluster's leader fetched if `led` (R175): the same executions
of a head by leader and follower are compared in their order, whichever of the two comes first (log entry 40). -/
def State.followHead (s : State) (led : Bool) (pc : Word) : State :=
  let next := s.ws.pc
  if localOf s.cn = 0 then
    let s := s.setCore { s.core with trail := ((pc, next) :: s.core.trail).take 32 }
    (s.cores.filter (fun n => clusterOf n == s.cl && n != s.cn)).foldl (fun s n => s.compareFollower (pc.toNat / 64 * 64) pc next n) s
  else if s.ws.tsw.getLsbD 3 ∧ led then
    let r := s.core.afterFollower pc next
    if r.2 then s.setCore r.1 else (s.setCore r.1).unfollow s.cn
  else s

/-- A recorded trap of the running slot whose `icnt` has been passed without it is a divergence (R407). -/
def State.missedTrap (s : State) : State :=
  if s.core.dbg.dctl.getLsbD 5 = false then s
  else
    match s.core.dbg.rplTraps.find? (fun x => x.1 == s.core.cur.val && decide (x.2.2 < s.slot.icnt.toNat)) with
    | some (_, want, _) => s.diverge s.cn s.core.cur 3 want 0
    | none => s

/-! ## Every cycle -/

/-- The budget of the running context of a core counts a cycle (R199). -/
def Core.spend (c : Core) : Core :=
  let x := c.slot c.cur
  if x.st = .run ∧ !(c.sx c.cur).task.booked ∧ x.tbud.getLsbD 32 ∧ !x.tctl.getLsbD 32 ∧ fld x.tbud 31 0 ≠ 0 then
    c.onSlot c.cur (fun x => { x with tbud := x.tbud - 1 })
  else c

/-- A cycle that ends counted by the cores that have waited in it (R397). -/
def State.countWaits (s : State) : State :=
  s.cores.foldl (fun s n =>
    let c := s.coreOf n
    if c.dbg.noteState = 2 then s.countCore n 7 c.res.ws.vfn else if c.dbg.noteState = 1 then s.countCore n 8 c.res.ws.vfn else s) s

/-- A new cycle counted (R397), so that a read in it sees a counter that wraps in it (R399): by every core, tagged with the context that
runs or ran last (log entry 33), and by every cluster and die, with tag 0; and the fabric's traffic of a cycle by every die. -/
def State.countCycle (s : State) : State :=
  let s := s.cores.foldl (fun s n => s.countCore n 1 (s.coreOf n).res.ws.vfn) s
  let s := (s.clusters.map (·.1)).foldl (fun s k => s.countCluster k (coreAt k 0) 1 0) s
  (s.dies.map (·.1)).foldl (fun s d => (s.countDie d 1 0).countFabric d) s

/-- The slew of a die's clock by one cycle toward the last beacon (R73). -/
def DieClock.slewed (k : DieClock) : DieClock :=
  if 0 < k.slew then { k with ofs := k.ofs - 1, slew := k.slew - 1 }
  else if k.slew < 0 then { k with ofs := k.ofs + 1, slew := k.slew + 1 }
  else k

/-- The dies that a beacon goes to (R73): the compute dies present, the memory-port dies and the I/O dies. -/
def State.beaconDies (s : State) : List Nat := s.pkgx.present ++ upto 8 10

/-- What a new cycle makes due: beacons and refills every 1,024 cycles (R72, R73), the boundary of a tempo for calendars
that hold a launch or a request (R178, R196), the controller's reading of the power every 1,050 cycles (R426; log entry 86), the lines and
time records of the notation streams (R393, R394). -/
def State.postTimers (s : State) (before : Nat → Nat) : State :=
  let t := s.pkg.ptime
  let s := if t % 64 = 0 then { s with dies := s.dies.map (fun (d : Nat × Die) => (d.1, { d.2 with clk := d.2.clk.slewed })) } else s
  let calendars := s.clusters.filter (fun c => s.tempo (c.1 / 32) != before (c.1 / 32) && !(c.2.cal.launches.isEmpty && c.2.cal.queue.isEmpty))
  let s := calendars.foldl (fun s c => s.post t (.tempoBoundary c.1)) s
  let s := if t % 1024 = 0 then
      let s := if 5 ≤ s.pkgx.boot then
          (s.beaconDies.filter (fun d => (s.die d).clk.running)).foldl (fun s d => s.post t (.bcn d t)) s
        else s
      s.cores.foldl (fun s c => s.post t (.tokenRefill c)) s
    else s
  let s := if t % 1050 = 0 then s.post t (.powerSample s.pkgx.power s.pkgx.degrees) else s
  s.cores.foldl (fun s c =>
    let d := (s.coreOf c).dbg
    let s := if d.note.stale t || d.mlog.stale t then s.post t (.notationLineWrite c) else s
    if d.silent t then s.post t (.notationTimeRecord c) else s) s

/-- A cycle passes (R73): the translations that parked in it take their places (R36), counters and budgets count it, host
completions whose time has come have gone back (R104), and what the new cycle makes due is posted. -/
def State.cycle (s : State) : State :=
  let s := s.placeParked
  let s := { s with core := s.core.spend, others := s.others.map (fun (p : Nat × Core) => (p.1, p.2.spend)) }
  let s := s.countWaits.settleCounters.settleAdjourn
  let before := s.tempo
  let t := s.pkg.ptime + 1
  let s := { s with pkg := { s.pkg with ptime := t }, pkgx := { s.pkgx with hostWrites := s.pkgx.hostWrites.filter s.hostAhead } }
  s.countCycle.postTimers before

end Sys2Proof.Machine
end

