-- ==== Sys2Proof/Machine/Illegal.lean ====
section
/-! DEFINITION. The fate of a head that is no instruction (spec/09 R236, R237). -/
namespace Sys2Proof.Machine

def IllegalReason.num : IllegalReason → Nat
  | .major => 0x30 | .minor => 0x31 | .tlen => 0x32 | .rsvd => 0x33 | .regclass => 0x34 | .operand => 0x35

/-- ILLEGAL with the head and its tail in the fault record (R210, R237). -/
def execIllegal (r : IllegalReason) (head : Half) (tail : Word) (tail4 : Half) (s : State) : Host.Outcome State Fault Refusal :=
  .next (s.trap { Trap.mk0 0x01 (IllegalReason.num r) 0 0 with
    fins := head.setWidth 64 ||| (tail <<< 16), fins1 := tail4.setWidth 64 })

end Sys2Proof.Machine
end

