-- ==== Sys2Proof/Machine/Dispatch.lean ====
section
/-! DEFINITION. What each instruction and event does: one arm per constructor, each one call of its meaning. -/
namespace Sys2Proof.Machine

def exec (i : Instr) (s : State) : Host.Outcome State Fault Refusal :=
  match i with
  | .add t d a b la lb => Sys2Proof.Machine.execAdd t d a b la lb s
  | .sub t d a b la lb => Sys2Proof.Machine.execSub t d a b la lb s
  | .and t d a b la lb => Sys2Proof.Machine.execAnd t d a b la lb s
  | .or t d a b la lb => Sys2Proof.Machine.execOr t d a b la lb s
  | .xor t d a b la lb => Sys2Proof.Machine.execXor t d a b la lb s
  | .andn t d a b la lb => Sys2Proof.Machine.execAndn t d a b la lb s
  | .orn t d a b la lb => Sys2Proof.Machine.execOrn t d a b la lb s
  | .min t d a b la lb => Sys2Proof.Machine.execMin t d a b la lb s
  | .max t d a b la lb => Sys2Proof.Machine.execMax t d a b la lb s
  | .slt t d a b la lb => Sys2Proof.Machine.execSlt t d a b la lb s
  | .seq t d a b la lb => Sys2Proof.Machine.execSeq t d a b la lb s
  | .sne t d a b la lb => Sys2Proof.Machine.execSne t d a b la lb s
  | .addi t d a imm => Sys2Proof.Machine.execAddi t d a imm s
  | .andi t d a imm => Sys2Proof.Machine.execAndi t d a imm s
  | .ori t d a imm => Sys2Proof.Machine.execOri t d a imm s
  | .xori t d a imm => Sys2Proof.Machine.execXori t d a imm s
  | .slti t d a imm => Sys2Proof.Machine.execSlti t d a imm s
  | .shli t d a n => Sys2Proof.Machine.execShli t d a n s
  | .shri t d a n => Sys2Proof.Machine.execShri t d a n s
  | .srai t d a n => Sys2Proof.Machine.execSrai t d a n s
  | .li d imm => Sys2Proof.Machine.execLi d imm s
  | .lih d imm => Sys2Proof.Machine.execLih d imm s
  | .liImm64 d imm => Sys2Proof.Machine.execLiImm64 d imm s
  | .mul t d a b la lb => Sys2Proof.Machine.execMul t d a b la lb s
  | .mulh t d a b la lb => Sys2Proof.Machine.execMulh t d a b la lb s
  | .div t d a b la lb => Sys2Proof.Machine.execDiv t d a b la lb s
  | .rem t d a b la lb => Sys2Proof.Machine.execRem t d a b la lb s
  | .shl t d a b la lb => Sys2Proof.Machine.execShl t d a b la lb s
  | .shr t d a b la lb => Sys2Proof.Machine.execShr t d a b la lb s
  | .sra t d a b la lb => Sys2Proof.Machine.execSra t d a b la lb s
  | .rot t d a b la lb => Sys2Proof.Machine.execRot t d a b la lb s
  | .clz t d a la => Sys2Proof.Machine.execClz t d a la s
  | .ctz t d a la => Sys2Proof.Machine.execCtz t d a la s
  | .pop t d a la => Sys2Proof.Machine.execPop t d a la s
  | .sext t d a la => Sys2Proof.Machine.execSext t d a la s
  | .zext t d a la => Sys2Proof.Machine.execZext t d a la s
  | .bext t d a pos len1 => Sys2Proof.Machine.execBext t d a pos len1 s
  | .bins t d a pos len1 => Sys2Proof.Machine.execBins t d a pos len1 s
  | .sel t d a b c la lb lc => Sys2Proof.Machine.execSel t d a b c la lb lc s
  | .cbase d a la => Sys2Proof.Machine.execCbase d a la s
  | .clen d a la => Sys2Proof.Machine.execClen d a la s
  | .cgen d a la => Sys2Proof.Machine.execCgen d a la s
  | .crights d a la => Sys2Proof.Machine.execCrights d a la s
  | .cnarrow d a b c la lb lc => Sys2Proof.Machine.execCnarrow d a b c la lb lc s
  | .ccheck d a b c la lb lc => Sys2Proof.Machine.execCcheck d a b c la lb lc s
  | .beq t a b tgt => Sys2Proof.Machine.execBeq t a b tgt s
  | .bne t a b tgt => Sys2Proof.Machine.execBne t a b tgt s
  | .blt t a b tgt => Sys2Proof.Machine.execBlt t a b tgt s
  | .bge t a b tgt => Sys2Proof.Machine.execBge t a b tgt s
  | .bz t a tgt => Sys2Proof.Machine.execBz t a tgt s
  | .bnz t a tgt => Sys2Proof.Machine.execBnz t a tgt s
  | .loop t d tgt => Sys2Proof.Machine.execLoop t d tgt s
  | .br tgt => Sys2Proof.Machine.execBr tgt s
  | .jmp a la => Sys2Proof.Machine.execJmp a la s
  | .call tgt => Sys2Proof.Machine.execCall tgt s
  | .callr a la => Sys2Proof.Machine.execCallr a la s
  | .fadd f rm d a b la lb => Sys2Proof.Machine.execFadd f rm d a b la lb s
  | .fsub f rm d a b la lb => Sys2Proof.Machine.execFsub f rm d a b la lb s
  | .fmul f rm d a b la lb => Sys2Proof.Machine.execFmul f rm d a b la lb s
  | .fdiv f rm d a b la lb => Sys2Proof.Machine.execFdiv f rm d a b la lb s
  | .fsqrt f rm d a la => Sys2Proof.Machine.execFsqrt f rm d a la s
  | .fmin f d a b la lb => Sys2Proof.Machine.execFmin f d a b la lb s
  | .fmax f d a b la lb => Sys2Proof.Machine.execFmax f d a b la lb s
  | .fcmp f d a b c la lb => Sys2Proof.Machine.execFcmp f d a b c la lb s
  | .fclass f d a la => Sys2Proof.Machine.execFclass f d a la s
  | .fma f rm d a b c la lb lc => Sys2Proof.Machine.execFma f rm d a b c la lb lc s
  | .fms f rm d a b c la lb lc => Sys2Proof.Machine.execFms f rm d a b c la lb lc s
  | .fcvt rm d a b c la => Sys2Proof.Machine.execFcvt rm d a b c la s
  | .ld t d a imm => Sys2Proof.Machine.execLd t d a imm s
  | .ldThroughCap t d a imm => Sys2Proof.Machine.execLdThroughCap t d a imm s
  | .ldCap d a imm => Sys2Proof.Machine.execLdCap d a imm s
  | .st t d a imm => Sys2Proof.Machine.execSt t d a imm s
  | .stThroughCap t d a imm => Sys2Proof.Machine.execStThroughCap t d a imm s
  | .stCap d a imm => Sys2Proof.Machine.execStCap d a imm s
  | .ldl t d a imm => Sys2Proof.Machine.execLdl t d a imm s
  | .stl t d a imm => Sys2Proof.Machine.execStl t d a imm s
  | .ldAcq sc t d a la => Sys2Proof.Machine.execLdAcq sc t d a la s
  | .stRel sc t d a la => Sys2Proof.Machine.execStRel sc t d a la s
  | .amoAdd sc o t d a b la lb => Sys2Proof.Machine.execAmoAdd sc o t d a b la lb s
  | .amoFadd sc o t d a b la lb => Sys2Proof.Machine.execAmoFadd sc o t d a b la lb s
  | .amoMin sc o t d a b la lb => Sys2Proof.Machine.execAmoMin sc o t d a b la lb s
  | .amoMax sc o t d a b la lb => Sys2Proof.Machine.execAmoMax sc o t d a b la lb s
  | .amoAnd sc o t d a b la lb => Sys2Proof.Machine.execAmoAnd sc o t d a b la lb s
  | .amoOr sc o t d a b la lb => Sys2Proof.Machine.execAmoOr sc o t d a b la lb s
  | .amoXor sc o t d a b la lb => Sys2Proof.Machine.execAmoXor sc o t d a b la lb s
  | .amoSwap sc o t d a b la lb => Sys2Proof.Machine.execAmoSwap sc o t d a b la lb s
  | .amoCas sc o t d a b c la lb lc => Sys2Proof.Machine.execAmoCas sc o t d a b c la lb lc s
  | .fence sc => Sys2Proof.Machine.execFence sc s
  | .xfence sc src dst => Sys2Proof.Machine.execXfence sc src dst s
  | .prefL1 a imm => Sys2Proof.Machine.execPrefL1 a imm s
  | .prefL2 a imm => Sys2Proof.Machine.execPrefL2 a imm s
  | .flushl a imm => Sys2Proof.Machine.execFlushl a imm s
  | .drop a imm => Sys2Proof.Machine.execDrop a imm s
  | .vadd f rm d a b la lb k => Sys2Proof.Machine.execVadd f rm d a b la lb k s
  | .vsub f rm d a b la lb k => Sys2Proof.Machine.execVsub f rm d a b la lb k s
  | .vmul f rm d a b la lb k => Sys2Proof.Machine.execVmul f rm d a b la lb k s
  | .vdiv f rm d a b la lb k => Sys2Proof.Machine.execVdiv f rm d a b la lb k s
  | .vmin f d a b la lb k => Sys2Proof.Machine.execVmin f d a b la lb k s
  | .vmax f d a b la lb k => Sys2Proof.Machine.execVmax f d a b la lb k s
  | .vabs f d a la k => Sys2Proof.Machine.execVabs f d a la k s
  | .vneg f d a la k => Sys2Proof.Machine.execVneg f d a la k s
  | .vsqrt f rm d a la k => Sys2Proof.Machine.execVsqrt f rm d a la k s
  | .vfma f rm d a b c la lb lc k => Sys2Proof.Machine.execVfma f rm d a b c la lb lc k s
  | .vfms f rm d a b c la lb lc k => Sys2Proof.Machine.execVfms f rm d a b c la lb lc k s
  | .vfnma f rm d a b c la lb lc k => Sys2Proof.Machine.execVfnma f rm d a b c la lb lc k s
  | .vdot f rm d a b c la lb lc k => Sys2Proof.Machine.execVdot f rm d a b c la lb lc k s
  | .viadd t d a b la lb k => Sys2Proof.Machine.execViadd t d a b la lb k s
  | .visub t d a b la lb k => Sys2Proof.Machine.execVisub t d a b la lb k s
  | .vimul t d a b la lb k => Sys2Proof.Machine.execVimul t d a b la lb k s
  | .vand t d a b la lb k => Sys2Proof.Machine.execVand t d a b la lb k s
  | .vor t d a b la lb k => Sys2Proof.Machine.execVor t d a b la lb k s
  | .vxor t d a b la lb k => Sys2Proof.Machine.execVxor t d a b la lb k s
  | .vshl t d a b la lb k => Sys2Proof.Machine.execVshl t d a b la lb k s
  | .vshr t d a b la lb k => Sys2Proof.Machine.execVshr t d a b la lb k s
  | .vsra t d a b la lb k => Sys2Proof.Machine.execVsra t d a b la lb k s
  | .vcmp ty d a b p la lb k => Sys2Proof.Machine.execVcmp ty d a b p la lb k s
  | .vsel e d a b c la lb lc k => Sys2Proof.Machine.execVsel e d a b c la lb lc k s
  | .kand d a b la lb => Sys2Proof.Machine.execKand d a b la lb s
  | .kor d a b la lb => Sys2Proof.Machine.execKor d a b la lb s
  | .knot d a la => Sys2Proof.Machine.execKnot d a la s
  | .kpop e d a la => Sys2Proof.Machine.execKpop e d a la s
  | .vexp rm d a la k => Sys2Proof.Machine.execVexp rm d a la k s
  | .vlog rm d a la k => Sys2Proof.Machine.execVlog rm d a la k s
  | .vrcp rm d a la k => Sys2Proof.Machine.execVrcp rm d a la k s
  | .vrsqrt rm d a la k => Sys2Proof.Machine.execVrsqrt rm d a la k s
  | .vtanh rm d a la k => Sys2Proof.Machine.execVtanh rm d a la k s
  | .vsigm rm d a la k => Sys2Proof.Machine.execVsigm rm d a la k s
  | .verf rm d a la k => Sys2Proof.Machine.execVerf rm d a la k s
  | .vphi rm d a la k => Sys2Proof.Machine.execVphi rm d a la k s
  | .vpdf rm d a la k => Sys2Proof.Machine.execVpdf rm d a la k s
  | .vcvt part rm d a b c la k => Sys2Proof.Machine.execVcvt part rm d a b c la k s
  | .vscalePack rm d a b c la lb => Sys2Proof.Machine.execVscalePack rm d a b c la lb s
  | .vscaleUnpack d a b c la lb => Sys2Proof.Machine.execVscaleUnpack d a b c la lb s
  | .vredsum d a c la k => Sys2Proof.Machine.execVredsum d a c la k s
  | .vredmax d a c la k => Sys2Proof.Machine.execVredmax d a c la k s
  | .vredmin d a c la k => Sys2Proof.Machine.execVredmin d a c la k s
  | .vperm e d a b la lb k => Sys2Proof.Machine.execVperm e d a b la lb k s
  | .vbcast e d a la k => Sys2Proof.Machine.execVbcast e d a la k s
  | .vslide e d a b la lb k => Sys2Proof.Machine.execVslide e d a b la lb k s
  | .vext e d a b la lb => Sys2Proof.Machine.execVext e d a b la lb s
  | .vins e d a b la lb => Sys2Proof.Machine.execVins e d a b la lb s
  | .vld e d a la k => Sys2Proof.Machine.execVld e d a la k s
  | .vst e d a la k => Sys2Proof.Machine.execVst e d a la k s
  | .vlds e d a b la lb k => Sys2Proof.Machine.execVlds e d a b la lb k s
  | .vsts e d a b la lb k => Sys2Proof.Machine.execVsts e d a b la lb k s
  | .vgather e d a b c la lb k => Sys2Proof.Machine.execVgather e d a b c la lb k s
  | .vscatter e d a b c la lb k => Sys2Proof.Machine.execVscatter e d a b c la lb k s
  | .vldl e d a la k => Sys2Proof.Machine.execVldl e d a la k s
  | .vstl e d a la k => Sys2Proof.Machine.execVstl e d a la k s
  | .vgatherl e d a b c la lb k => Sys2Proof.Machine.execVgatherl e d a b c la lb k s
  | .vscatterl e d a b c la lb k => Sys2Proof.Machine.execVscatterl e d a b c la lb k s
  | .vsetvl e d a la => Sys2Proof.Machine.execVsetvl e d a la s
  | .vmovs e d a la k => Sys2Proof.Machine.execVmovs e d a la k s
  | .vzero d => Sys2Proof.Machine.execVzero d s
  | .vrandUnif e d k => Sys2Proof.Machine.execVrandUnif e d k s
  | .vrandGauss d k => Sys2Proof.Machine.execVrandGauss d k s
  | .madd d a b la lb k => Sys2Proof.Machine.execMadd d a b la lb k s
  | .msub d a b la lb k => Sys2Proof.Machine.execMsub d a b la lb k s
  | .mmul d a b la lb k => Sys2Proof.Machine.execMmul d a b la lb k s
  | .mfma d a b c la lb lc k => Sys2Proof.Machine.execMfma d a b c la lb lc k s
  | .mscale d a b la lb k => Sys2Proof.Machine.execMscale d a b la lb k s
  | .mshift d a b la lb k => Sys2Proof.Machine.execMshift d a b la lb k s
  | .mrelu d a la k => Sys2Proof.Machine.execMrelu d a la k s
  | .mexp d a la k => Sys2Proof.Machine.execMexp d a la k s
  | .msigm d a la k => Sys2Proof.Machine.execMsigm d a la k s
  | .mtanh d a la k => Sys2Proof.Machine.execMtanh d a la k s
  | .mmax d a b la lb k => Sys2Proof.Machine.execMmax d a b la lb k s
  | .mld d a la k => Sys2Proof.Machine.execMld d a la k s
  | .mst d a la k => Sys2Proof.Machine.execMst d a la k s
  | .mldl d a la k => Sys2Proof.Machine.execMldl d a la k s
  | .mstl d a la k => Sys2Proof.Machine.execMstl d a la k s
  | .mpack rm d a la k => Sys2Proof.Machine.execMpack rm d a la k s
  | .munpack d a la k => Sys2Proof.Machine.execMunpack d a la k s
  | .mredsum d a la k => Sys2Proof.Machine.execMredsum d a la k s
  | .mcollapse d a b c la lb k => Sys2Proof.Machine.execMcollapse d a b c la lb k s
  | .mcheck d a la k => Sys2Proof.Machine.execMcheck d a la k s
  | .mmode d a la k => Sys2Proof.Machine.execMmode d a la k s
  | .sbind d a la => Sys2Proof.Machine.execSbind d a la s
  | .sunbind d => Sys2Proof.Machine.execSunbind d s
  | .sstat d a => Sys2Proof.Machine.execSstat d a s
  | .cpy a la => Sys2Proof.Machine.execCpy a la s
  | .cpyNb d a la => Sys2Proof.Machine.execCpyNb d a la s
  | .cpq d a la => Sys2Proof.Machine.execCpq d a la s
  | .sit d a la => Sys2Proof.Machine.execSit d a la s
  | .mxpal a la => Sys2Proof.Machine.execMxpal a la s
  | .mxlda d a b c la lb lc => Sys2Proof.Machine.execMxlda d a b c la lb lc s
  | .mxldb d a b c la lb lc => Sys2Proof.Machine.execMxldb d a b c la lb lc s
  | .mxmma z d a b => Sys2Proof.Machine.execMxmma z d a b s
  | .mxmmaM z d a b => Sys2Proof.Machine.execMxmmaM z d a b s
  | .mxst rm d a b la lb => Sys2Proof.Machine.execMxst rm d a b la lb s
  | .mxrel d => Sys2Proof.Machine.execMxrel d s
  | .mxzero d => Sys2Proof.Machine.execMxzero d s
  | .tdecl d a b c la lb => Sys2Proof.Machine.execTdecl d a b c la lb s
  | .tpass d a b la lb => Sys2Proof.Machine.execTpass d a b la lb s
  | .tacq d a la => Sys2Proof.Machine.execTacq d a la s
  | .tundecl d a la => Sys2Proof.Machine.execTundecl d a la s
  | .tstat d a b la lb => Sys2Proof.Machine.execTstat d a b la lb s
  | .wreg d a b la lb => Sys2Proof.Machine.execWreg d a b la lb s
  | .wunreg d a la => Sys2Proof.Machine.execWunreg d a la s
  | .put a b c la lb lc => Sys2Proof.Machine.execPut a b c la lb lc s
  | .putImm a b c la lb lc => Sys2Proof.Machine.execPutImm a b c la lb lc s
  | .wexp d a b la lb => Sys2Proof.Machine.execWexp d a b la lb s
  | .wcnt d a la => Sys2Proof.Machine.execWcnt d a la s
  | .wcntSrc d => Sys2Proof.Machine.execWcntSrc d s
  | .wwait a la => Sys2Proof.Machine.execWwait a la s
  | .arrive d a la => Sys2Proof.Machine.execArrive d a la s
  | .bwait a b la lb => Sys2Proof.Machine.execBwait a b la lb s
  | .barw d a la => Sys2Proof.Machine.execBarw d a la s
  | .bjoin d a la => Sys2Proof.Machine.execBjoin d a la s
  | .bjoinLeave d a la => Sys2Proof.Machine.execBjoinLeave d a la s
  | .btimeout a b la lb => Sys2Proof.Machine.execBtimeout a b la lb s
  | .bforce d a b la lb => Sys2Proof.Machine.execBforce d a b la lb s
  | .bforceRemove d a b la lb => Sys2Proof.Machine.execBforceRemove d a b la lb s
  | .msend d a b la lb => Sys2Proof.Machine.execMsend d a b la lb s
  | .mrecv d a la => Sys2Proof.Machine.execMrecv d a la s
  | .mrecvC d a => Sys2Proof.Machine.execMrecvC d a s
  | .mwait d a la => Sys2Proof.Machine.execMwait d a la s
  | .amsg d a la => Sys2Proof.Machine.execAmsg d a la s
  | .wait loads stores copies matrix => Sys2Proof.Machine.execWait loads stores copies matrix s
  | .book d a la => Sys2Proof.Machine.execBook d a la s
  | .unbook d => Sys2Proof.Machine.execUnbook d s
  | .unbookRec d a la => Sys2Proof.Machine.execUnbookRec d a la s
  | .bkrel d a la => Sys2Proof.Machine.execBkrel d a la s
  | .bkext d a b la lb => Sys2Proof.Machine.execBkext d a b la lb s
  | .bkq d a la => Sys2Proof.Machine.execBkq d a la s
  | .lrpatch w d a b la lb => Sys2Proof.Machine.execLrpatch w d a b la lb s
  | .lrarm d a la => Sys2Proof.Machine.execLrarm d a la s
  | .lrstat d a b la lb => Sys2Proof.Machine.execLrstat d a b la lb s
  | .lvlcnt d a b la lb => Sys2Proof.Machine.execLvlcnt d a b la lb s
  | .lvlcancel d a la => Sys2Proof.Machine.execLvlcancel d a la s
  | .lvlcancelRec d a la => Sys2Proof.Machine.execLvlcancelRec d a la s
  | .retireFail a la => Sys2Proof.Machine.execRetireFail a la s
  | .salloc d a la => Sys2Proof.Machine.execSalloc d a la s
  | .sfree d a la => Sys2Proof.Machine.execSfree d a la s
  | .csrr d n => Sys2Proof.Machine.execCsrr d n s
  | .csrw d a n => Sys2Proof.Machine.execCsrw d a n s
  | .csrs d a n => Sys2Proof.Machine.execCsrs d a n s
  | .csrc d a n => Sys2Proof.Machine.execCsrc d a n s
  | .trap d imm => Sys2Proof.Machine.execTrap d imm s
  | .wsw a la => Sys2Proof.Machine.execWsw a la s
  | .tlbinv a b c la lb lc => Sys2Proof.Machine.execTlbinv a b c la lb lc s
  | .tlbinvVf c lc => Sys2Proof.Machine.execTlbinvVf c lc s
  | .notate imm => Sys2Proof.Machine.execNotate imm s
  | .ret => Sys2Proof.Machine.execRet s
  | .unsit => Sys2Proof.Machine.execUnsit s
  | .retire => Sys2Proof.Machine.execRetire s
  | .yield => Sys2Proof.Machine.execYield s
  | .follow => Sys2Proof.Machine.execFollow s
  | .unfollow => Sys2Proof.Machine.execUnfollow s
  | .sret => Sys2Proof.Machine.execSret s
  | .tlbinvAll => Sys2Proof.Machine.execTlbinvAll s
  | .replayall => Sys2Proof.Machine.execReplayall s
  | .brk => Sys2Proof.Machine.execBrk s
  | .registerWrite r v => Sys2Proof.Machine.execRegisterWrite r v s
  | .fbdlvWrite cl entry => Sys2Proof.Machine.execFbdlvWrite cl entry s
  | .kmissClr cl => Sys2Proof.Machine.execKmissClr cl s
  | .dctlStop core => Sys2Proof.Machine.execDctlStop core s
  | .dctlResume core => Sys2Proof.Machine.execDctlResume core s
  | .adjctlRearm => Sys2Proof.Machine.execAdjctlRearm s
  | .adjctlNow => Sys2Proof.Machine.execAdjctlNow s
  | .wdogWrite v => Sys2Proof.Machine.execWdogWrite v s
  | .featstatGo => Sys2Proof.Machine.execFeatstatGo s
  | .frmodeWrite v => Sys2Proof.Machine.execFrmodeWrite v s
  | .stopTakesEffect core => Sys2Proof.Machine.execStopTakesEffect core s
  | .contextSwitch core slot => Sys2Proof.Machine.execContextSwitch core slot s
  | .yieldAfterWait core => Sys2Proof.Machine.execYieldAfterWait core s
  | .impreciseTrapDelivery core => Sys2Proof.Machine.execImpreciseTrapDelivery core s
  | .budgetExpiry core => Sys2Proof.Machine.execBudgetExpiry core s
  | .walkStart cl => Sys2Proof.Machine.execWalkStart cl s
  | .walkCompletion cl vfn vpn => Sys2Proof.Machine.execWalkCompletion cl vfn vpn s
  | .rdl line die => Sys2Proof.Machine.execRdl line die s
  | .rdu line die => Sys2Proof.Machine.execRdu line die s
  | .wrq line die core slot mask data => Sys2Proof.Machine.execWrq line die core slot mask data s
  | .amo addr op t b c src core slot d => Sys2Proof.Machine.execAmo addr op t b c src core slot d s
  | .own line die => Sys2Proof.Machine.execOwn line die s
  | .tmk line tid odie => Sys2Proof.Machine.execTmk line tid odie s
  | .tun line tid => Sys2Proof.Machine.execTun line tid s
  | .mrd die addr => Sys2Proof.Machine.execMrd die addr s
  | .mwr die addr data => Sys2Proof.Machine.execMwr die addr data s
  | .gnt line die expiry => Sys2Proof.Machine.execGnt line die expiry s
  | .wak dst line vt refused => Sys2Proof.Machine.execWak dst line vt refused s
  | .oak line die => Sys2Proof.Machine.execOak line die s
  | .cua line die => Sys2Proof.Machine.execCua line die s
  | .rca x => Sys2Proof.Machine.execRca x s
  | .mrs die addr => Sys2Proof.Machine.execMrs die addr s
  | .fil x die => Sys2Proof.Machine.execFil x die s
  | .wbd line mask data => Sys2Proof.Machine.execWbd line mask data s
  | .psh x die => Sys2Proof.Machine.execPsh x die s
  | .mdt die addr data => Sys2Proof.Machine.execMdt die addr data s
  | .cut line die => Sys2Proof.Machine.execCut line die s
  | .cuaDue line die => Sys2Proof.Machine.execCuaDue line die s
  | .cutCompletion line => Sys2Proof.Machine.execCutCompletion line s
  | .leaseHorizonPass line => Sys2Proof.Machine.execLeaseHorizonPass line s
  | .rcl line => Sys2Proof.Machine.execRcl line s
  | .recallHeld line => Sys2Proof.Machine.execRecallHeld line s
  | .swp die base len op => Sys2Proof.Machine.execSwp die base len op s
  | .bcn die time => Sys2Proof.Machine.execBcn die time s
  | .beaconLoss die => Sys2Proof.Machine.execBeaconLoss die s
  | .clockStop die => Sys2Proof.Machine.execClockStop die s
  | .clockResume die => Sys2Proof.Machine.execClockResume die s
  | .releaseComplete core slot => Sys2Proof.Machine.execReleaseComplete core slot s
  | .fabricReleaseForward core slot => Sys2Proof.Machine.execFabricReleaseForward core slot s
  | .declarationComplete tid => Sys2Proof.Machine.execDeclarationComplete tid s
  | .passMessageSend tid => Sys2Proof.Machine.execPassMessageSend tid s
  | .undeclarationComplete tid => Sys2Proof.Machine.execUndeclarationComplete tid s
  | .cxlMemRead line cacheable => Sys2Proof.Machine.execCxlMemRead line cacheable s
  | .cxlMemWrite line mask data => Sys2Proof.Machine.execCxlMemWrite line mask data s
  | .birsp line => Sys2Proof.Machine.execBirsp line s
  | .hostSnoop line => Sys2Proof.Machine.execHostSnoop line s
  | .tokenRefill core => Sys2Proof.Machine.execTokenRefill core s
  | .streamFetch core n => Sys2Proof.Machine.execStreamFetch core n s
  | .streamStoreWrite core n => Sys2Proof.Machine.execStreamStoreWrite core n s
  | .copyStart core => Sys2Proof.Machine.execCopyStart core s
  | .copyLineMove core id => Sys2Proof.Machine.execCopyLineMove core id s
  | .copyCompletion core id => Sys2Proof.Machine.execCopyCompletion core id s
  | .putArrival core id => Sys2Proof.Machine.execPutArrival core id s
  | .putAck core slot => Sys2Proof.Machine.execPutAck core slot s
  | .sittingGrant cl => Sys2Proof.Machine.execSittingGrant cl s
  | .sittingExpiry cl => Sys2Proof.Machine.execSittingExpiry cl s
  | .matrixCommandStart cl id => Sys2Proof.Machine.execMatrixCommandStart cl id s
  | .matrixCommandComplete cl id => Sys2Proof.Machine.execMatrixCommandComplete cl id s
  | .barrierArrival core slot b => Sys2Proof.Machine.execBarrierArrival core slot b s
  | .phaseCompletion die b => Sys2Proof.Machine.execPhaseCompletion die b s
  | .completionSignalArrival core b => Sys2Proof.Machine.execCompletionSignalArrival core b s
  | .timeout die b => Sys2Proof.Machine.execTimeout die b s
  | .messageArrival target m => Sys2Proof.Machine.execMessageArrival target m s
  | .overflowMove cl => Sys2Proof.Machine.execOverflowMove cl s
  | .busyRetry core slot => Sys2Proof.Machine.execBusyRetry core slot s
  | .activeMessageStart core => Sys2Proof.Machine.execActiveMessageStart core s
  | .freeUnitStart core => Sys2Proof.Machine.execFreeUnitStart core s
  | .admissionSearch cl => Sys2Proof.Machine.execAdmissionSearch cl s
  | .dieCalendarRequest die cl rec => Sys2Proof.Machine.execDieCalendarRequest die cl rec s
  | .tempoBoundary cl => Sys2Proof.Machine.execTempoBoundary cl s
  | .overrun core => Sys2Proof.Machine.execOverrun core s
  | .resignToken die graph => Sys2Proof.Machine.execResignToken die graph s
  | .replayMessageInject core => Sys2Proof.Machine.execReplayMessageInject core s
  | .divergence core kind want got => Sys2Proof.Machine.execDivergence core kind want got s
  | .notationLineWrite core => Sys2Proof.Machine.execNotationLineWrite core s
  | .watchdogExpiry => Sys2Proof.Machine.execWatchdogExpiry s
  | .retryStorm die => Sys2Proof.Machine.execRetryStorm die s
  | .adj why => Sys2Proof.Machine.execAdj why s
  | .rearm => Sys2Proof.Machine.execRearm s
  | .coldReset => Sys2Proof.Machine.execColdReset s
  | .warmReset => Sys2Proof.Machine.execWarmReset s
  | .crd die port credits => Sys2Proof.Machine.execCrd die port credits s
  | .ident hops route die port => Sys2Proof.Machine.execIdent hops route die port s
  | .idack die ty feat port => Sys2Proof.Machine.execIdack die ty feat port s
  | .identTimeout die port => Sys2Proof.Machine.execIdentTimeout die port s
  | .topo die ident nbr hop => Sys2Proof.Machine.execTopo die ident nbr hop s
  | .frm die en => Sys2Proof.Machine.execFrm die en s
  | .ack die opa refused => Sys2Proof.Machine.execAck die opa refused s
  | .powerSample milliwatts degrees => Sys2Proof.Machine.execPowerSample milliwatts degrees s
  | .thermalShutdown => Sys2Proof.Machine.execThermalShutdown s
  | .visibilityTimeReached core slot => Sys2Proof.Machine.execVisibilityTimeReached core slot s
  | .notationTimeRecord core => Sys2Proof.Machine.execNotationTimeRecord core s
  | .vaultAccess addr op t b c core slot d => Sys2Proof.Machine.execVaultAccess addr op t b c core slot d s
  | .cxlCacheResponse x => Sys2Proof.Machine.execCxlCacheResponse x s
  | .atomicopCompletion core slot d t old => Sys2Proof.Machine.execAtomicopCompletion core slot d t old s
  | .creditReturn die port credits => Sys2Proof.Machine.execCreditReturn die port credits s
  | .protocolError die port => Sys2Proof.Machine.execProtocolError die port s
  | .eccError lcl core addr corrected => Sys2Proof.Machine.execEccError lcl core addr corrected s
  | .illegal r head tail tail4 => Sys2Proof.Machine.execIllegal r head tail tail4 s
  | .spdmRequest code => Sys2Proof.Machine.execSpdmRequest code s

end Sys2Proof.Machine
end

