-- ==== Sys2Proof/Machine/RunEvent.lean ====
section
/-! DEFINITION. A due event runs the meaning that `exec` gives its instruction. -/
namespace Sys2Proof.Machine

/-- The outcome of an event of the package. -/
def runEvent (e : Event) (s : State) : Host.Outcome State Fault Refusal :=
  match e with
  | .registerWrite r v => execRegisterWrite r v s
  | .fbdlvWrite cl entry => execFbdlvWrite cl entry s
  | .kmissClr cl => execKmissClr cl s
  | .dctlStop core => execDctlStop core s
  | .dctlResume core => execDctlResume core s
  | .adjctlRearm => execAdjctlRearm s
  | .adjctlNow => execAdjctlNow s
  | .wdogWrite v => execWdogWrite v s
  | .featstatGo => execFeatstatGo s
  | .frmodeWrite v => execFrmodeWrite v s
  | .stopTakesEffect core => execStopTakesEffect core s
  | .contextSwitch core slot => execContextSwitch core slot s
  | .yieldAfterWait core => execYieldAfterWait core s
  | .impreciseTrapDelivery core => execImpreciseTrapDelivery core s
  | .budgetExpiry core => execBudgetExpiry core s
  | .walkStart cl => execWalkStart cl s
  | .walkCompletion cl vfn vpn => execWalkCompletion cl vfn vpn s
  | .rdl line die => execRdl line die s
  | .rdu line die => execRdu line die s
  | .wrq line die core slot mask data => execWrq line die core slot mask data s
  | .amo addr op t b c src core slot d => execAmo addr op t b c src core slot d s
  | .own line die => execOwn line die s
  | .tmk line tid odie => execTmk line tid odie s
  | .tun line tid => execTun line tid s
  | .mrd die addr => execMrd die addr s
  | .mwr die addr data => execMwr die addr data s
  | .gnt line die expiry => execGnt line die expiry s
  | .wak dst line vt refused => execWak dst line vt refused s
  | .oak line die => execOak line die s
  | .cua line die => execCua line die s
  | .rca x => execRca x s
  | .mrs die addr => execMrs die addr s
  | .fil x die => execFil x die s
  | .wbd line mask data => execWbd line mask data s
  | .psh x die => execPsh x die s
  | .mdt die addr data => execMdt die addr data s
  | .cut line die => execCut line die s
  | .cuaDue line die => execCuaDue line die s
  | .cutCompletion line => execCutCompletion line s
  | .leaseHorizonPass line => execLeaseHorizonPass line s
  | .rcl line => execRcl line s
  | .recallHeld line => execRecallHeld line s
  | .swp die base len op => execSwp die base len op s
  | .bcn die time => execBcn die time s
  | .beaconLoss die => execBeaconLoss die s
  | .clockStop die => execClockStop die s
  | .clockResume die => execClockResume die s
  | .releaseComplete core slot => execReleaseComplete core slot s
  | .fabricReleaseForward core slot => execFabricReleaseForward core slot s
  | .declarationComplete tid => execDeclarationComplete tid s
  | .passMessageSend tid => execPassMessageSend tid s
  | .undeclarationComplete tid => execUndeclarationComplete tid s
  | .cxlMemRead line cacheable => execCxlMemRead line cacheable s
  | .cxlMemWrite line mask data => execCxlMemWrite line mask data s
  | .birsp line => execBirsp line s
  | .hostSnoop line => execHostSnoop line s
  | .tokenRefill core => execTokenRefill core s
  | .streamFetch core n => execStreamFetch core n s
  | .streamStoreWrite core n => execStreamStoreWrite core n s
  | .copyStart core => execCopyStart core s
  | .copyLineMove core id => execCopyLineMove core id s
  | .copyCompletion core id => execCopyCompletion core id s
  | .putArrival core id => execPutArrival core id s
  | .putAck core slot => execPutAck core slot s
  | .sittingGrant cl => execSittingGrant cl s
  | .sittingExpiry cl => execSittingExpiry cl s
  | .matrixCommandStart cl id => execMatrixCommandStart cl id s
  | .matrixCommandComplete cl id => execMatrixCommandComplete cl id s
  | .barrierArrival core slot b => execBarrierArrival core slot b s
  | .phaseCompletion die b => execPhaseCompletion die b s
  | .completionSignalArrival core b => execCompletionSignalArrival core b s
  | .timeout die b => execTimeout die b s
  | .messageArrival target m => execMessageArrival target m s
  | .overflowMove cl => execOverflowMove cl s
  | .busyRetry core slot => execBusyRetry core slot s
  | .activeMessageStart core => execActiveMessageStart core s
  | .freeUnitStart core => execFreeUnitStart core s
  | .admissionSearch cl => execAdmissionSearch cl s
  | .dieCalendarRequest die cl rec => execDieCalendarRequest die cl rec s
  | .tempoBoundary cl => execTempoBoundary cl s
  | .overrun core => execOverrun core s
  | .resignToken die graph => execResignToken die graph s
  | .replayMessageInject core => execReplayMessageInject core s
  | .divergence core kind want got => execDivergence core kind want got s
  | .notationLineWrite core => execNotationLineWrite core s
  | .watchdogExpiry => execWatchdogExpiry s
  | .retryStorm die => execRetryStorm die s
  | .adj why => execAdj why s
  | .rearm => execRearm s
  | .coldReset => execColdReset s
  | .warmReset => execWarmReset s
  | .crd die port credits => execCrd die port credits s
  | .ident hops route die port => execIdent hops route die port s
  | .idack die ty feat port => execIdack die ty feat port s
  | .identTimeout die port => execIdentTimeout die port s
  | .topo die ident nbr hop => execTopo die ident nbr hop s
  | .frm die en => execFrm die en s
  | .ack die opa refused => execAck die opa refused s
  | .powerSample milliwatts degrees => execPowerSample milliwatts degrees s
  | .thermalShutdown => execThermalShutdown s
  | .visibilityTimeReached core slot => execVisibilityTimeReached core slot s
  | .notationTimeRecord core => execNotationTimeRecord core s
  | .vaultAccess addr op t b c core slot d => execVaultAccess addr op t b c core slot d s
  | .cxlCacheResponse x => execCxlCacheResponse x s
  | .atomicopCompletion core slot d t old => execAtomicopCompletion core slot d t old s
  | .creditReturn die port credits => execCreditReturn die port credits s
  | .protocolError die port => execProtocolError die port s
  | .eccError lcl core addr corrected => execEccError lcl core addr corrected s
  | .illegal r head tail tail4 => execIllegal r head tail tail4 s
  | .spdmRequest code => execSpdmRequest code s

end Sys2Proof.Machine
end

