-- ==== Sys2Proof/Machine/Boundary.lean ====
section
/-! DEFINITION. One step of the package: a due event, or one turn of the current core (log entries 3, 5, 6). -/
namespace Sys2Proof.Machine

/-! ## The next state of a meaning that has no other outcome -/

/-- The next state of an outcome, `s` where there is none. -/
def orElse (r : Host.Outcome State Fault Refusal) (s : State) : State :=
  match r with
  | .next t => t
  | _ => s

/-! ## Events -/

/-- The access comes before others at a memory port (R66, R194): its task holds an HBM claim. -/
def State.portTurn (s : State) (core : Nat) (src : TaskSrc) : Nat := if s.claimOf core src 9 none then 65537 else 65538

/-- The turn of a copy's line among the accesses of a cycle (R133, R194, R331): the beats of a multicast by core, then the lines under a
COPYBW claim, then those of an HBM claim; a multicast without a COPYBW claim after the claimed lines that are due. -/
def State.copyTurn (s : State) (core id : Nat) : Nat :=
  match (s.coreOf core).copies.find? (fun k => k.id == id) with
  | none => 0
  | some k =>
    let k := s.lineTaken core k
    if cpyWin k && (s.lineClaimed core k || !s.claimedLineDue core) then core
    else if s.lineClaimed core k then 65536
    else s.portTurn core k.src

/-- The turn of a stream's access. -/
def State.streamTurn (s : State) (core : Nat) (n : QReg) : Nat :=
  if ((s.coreOf core).streamRefs n).any (fun r => s.claimAt core r.slot 9 none) then 65537 else 65538

/-- The turn of a matrix command's accesses. -/
def State.matrixTurn (s : State) (cl id : Nat) : Nat :=
  match (s.cluster cl).arr.queue.find? (fun k => k.id == id) with
  | some k => s.portTurn k.core ((s.coreOf k.core).sx k.slot).task.src
  | none => 65538

/-- Events of one cycle that meet at one place and are taken by increasing number (R36, R130, R133, R180, R194, R331, R366): their kind,
the place, and the number. -/
def State.dueRank (s : State) (e : Event) : Option (Nat × Nat × Nat) :=
  match e with
  | .messageArrival target m => some (0, target, m.src)
  | .putArrival core _ => some (1, 0, core)
  | .copyLineMove core id => some (1, 0, s.copyTurn core id)
  | .streamFetch core n => some (1, 0, s.streamTurn core n)
  | .streamStoreWrite core n => some (1, 0, s.streamTurn core n)
  | .matrixCommandComplete cl id => some (1, 0, s.matrixTurn cl id)
  | .mrd _ x => some (1, 0, if x.booked then 65537 else 65538)
  | .dieCalendarRequest die cl _ => some (2, die, cl)
  | _ => none

/-- The event clears `kmiss`, before any miss of its cycle is counted (R7, R43). -/
def Event.clears (e : Event) : Bool :=
  match e with
  | .kmissClr _ => true
  | .registerWrite (.kmiss _) v => v.getLsbD 63
  | _ => false

/-- The event comes before another of its cycle. -/
def State.comesBefore (s : State) (a b : Event) : Bool :=
  if Event.clears a || Event.clears b then Event.clears a && !Event.clears b
  else
    match s.dueRank a, s.dueRank b with
    | some (k, p, n), some (k', p', n') => k == k' && p == p' && decide (n < n')
    | _, _ => false

/-- The event that is taken of those due: the first, or one that comes before it. -/
def State.pickDue (s : State) : Option (Nat × Event) :=
  s.pending.foldl (fun m x =>
    if s.pkg.ptime < x.1 then m
    else match m with
      | none => some x
      | some y => if s.comesBefore x.2 y.2 then some x else some y) none

/-- The event that is due, with the others (log entry 5). -/
def State.takeDue (s : State) : Option (Event × List (Nat × Event)) :=
  s.pickDue.map (fun x => (x.2, s.pending.erase x))

/-- An outcome followed by a change of the next state. -/
def andThen (r : Host.Outcome State Fault Refusal) (f : State → State) : Host.Outcome State Fault Refusal :=
  match r with
  | .next s => .next (f s)
  | .fault x => .fault x
  | .refused x => .refused x

/-! ## The turn of a core -/

/-- The turns of a cycle go to the cores in the order of their numbers (log entry 6): the next core has its turn, with the
first one a new cycle begins. -/
def State.endTurn (s : State) : State :=
  let pass := fun (n : Nat) (c : Core) => ({ s with cn := n, core := c, others := mapSet (mapDel s.others n) s.cn s.core } : State)
  match s.others.find? (fun p => decide (s.cn < p.1)) with
  | some (n, c) => pass n c
  | none =>
    match s.others with
    | [] => s.cycle
    | (n, c) :: _ => (if n < s.cn then pass n c else s).cycle

/-- The instruction at the pc of the running context, its line entered, issues (R209, R236, R406, R422). -/
def issueHead (s : State) : Host.Outcome State Fault Refusal :=
  let pc := s.ws.pc
  let l := s.slot.line
  let head := l.head (fld pc 4 0)
  let tail := l.tail (fld pc 4 0)
  let bad := fun (r : IllegalReason) =>
    execIllegal r head (BitVec.ofNat 64 ((tail.getD 0 0).toNat + (tail.getD 1 0).toNat * 65536 + (tail.getD 2 0).toNat * 4294967296)) (tail.getD 3 0) s
  if majorOff s.pkgx.enabled (head.toNat / 1024) then bad .major
  else
    match decode head tail with
    | .error r => bad r
    | .ok i =>
      if featureRefuses s.pkgx.enabled i then bad .operand
      else
        match s.breaks i with
        | some u => .next (s.trap (breakTrap u))
        | none => s.fromRecord (exec i s)

/-- The running context's head as it issues: its slot, workspace, `icnt`, pc and function, whether the leader fetched its line (R175),
the scalar registers that it reads, and whether STEP follows it (R389). -/
structure HeadAt where
  slot : SlotId
  wp : Nat
  icnt : BitVec 48
  pc : Word
  vfn : Nat
  led : Bool
  reads : List SReg
  step : Bool
deriving DecidableEq, Repr

def State.headAt (s : State) : HeadAt :=
  { slot := s.core.cur, wp := s.core.res.wp, icnt := s.slot.icnt, pc := s.ws.pc, vfn := s.vfn, led := s.slot.line.led,
    reads := sourcesOf (s.slot.line.head (fld s.ws.pc 4 0)) (s.slot.line.tail (fld s.ws.pc 4 0)), step := s.core.dbg.dctl.getLsbD 2 }

/-- A head that retires observes the commands whose token registers it has read (R112). -/
def State.observeTokens (s : State) (h : HeadAt) : State :=
  if (s.core.slot h.slot).done.isEmpty then s
  else s.observe s.cn h.slot (fun e => h.reads.any (fun r => e.report == .token h.wp r))

/-- What follows a head that has issued (R112, R175, R389, R397, R407): it is counted unless its context waits or stalls, the tokens it
has read are observed, followers compare it, STEP is taken once it has retired. R208 does not list STEP: it is taken before an ECC, COPY
or MX that the same boundary holds (log entry 32). -/
def afterHead (h : HeadAt) (s : State) : State :=
  let x := s.core.slot h.slot
  let retired : Bool := x.icnt != h.icnt
  let stalls : Bool := x.st == .run && !retired && s.core.dbg.noteState != 0
  let s := if x.st = .wait ∨ x.st = .park ∨ stalls then s else s.countCore s.cn 2 h.vfn
  let s := if retired then s.observeTokens h else s
  let s := if retired ∧ x.st = .run ∧ s.core.cur = h.slot then s.followHead h.led h.pc else s
  if h.step ∧ retired ∧ x.st ≠ .free ∧ x.st ≠ .stop ∧ s.core.cur = h.slot then s.stepTrap h.pc else s.missedTrap

/-- The running context at its instruction boundary, its line entered: a word with an uncorrected error in it, BUDGET and
OVERRUN come first (R189, R199, R208), then the instruction. -/
def issueEntered (s : State) : Host.Outcome State Fault Refusal :=
  if s.sx.ecc.isSome then execImpreciseTrapDelivery s.cn s
  else if s.budgetDue then execBudgetExpiry s.cn s
  else if s.overrunDue then execOverrun s.cn s
  else andThen (issueHead s) (afterHead s.headAt)

/-- The running context at its instruction boundary: pending imprecise traps, the fault of a translation that it awaited (R19, R34,
R40), the line of its pc, then the instruction. A budget or a booked end that is due comes before a trap of the fetch. -/
def issue (s : State) : Host.Outcome State Fault Refusal :=
  if s.imprecise.isSome then execImpreciseTrapDelivery s.cn s
  else
    let late := fun (r : Host.Outcome State Fault Refusal) =>
      if s.budgetDue then execBudgetExpiry s.cn s else if s.overrunDue then execOverrun s.cn s else r
    match s.sx.walkFault with
    | some (va, reason) => late (.next (s.trap (Trap.mk0 (causeOfReason reason) reason va 0)))
    | none =>
      match enterLine s with
      | .ok (_, t) => issueEntered t
      | .error (.fault f) => late (.fault f)
      | .error (.st t) => if t.slot.st = .wait ∨ t.slot.st = .park then .next t else late (.next t)

/-- The running context issues again after a stall (R395): where its instruction retires now, the notation stream says first that
the wait has ended. -/
def issueAgain (s : State) : Host.Outcome State Fault Refusal :=
  if s.core.dbg.noteState = 1 ∨ s.core.dbg.noteState = 2 then
    match issue (s.noteChange s.cn 0 0x01) with
    | .next u => if (u.core.slot s.core.cur).icnt ≠ s.slot.icnt then .next u else issue s
    | r => r
  else issue s

/-- A waiting context is looked at (R167, log entry 10): its instruction is tried on a view of the core in which it runs. Where it
would wait again for the same cause, what the wait itself does is kept: the events it posts, its requests of the clusters' units, its own
slot; else the awaited event has come and the slot is READY. -/
def State.probeSlot (s : State) (i : SlotId) : State :=
  let cause := (s.core.sx i).waitCause
  let s := s.setCore (s.core.onSx i (fun x => { x with look := false }))
  match issue (s.switchTo s.cn i) with
  | .next u =>
    if (u.core.slot i).st = .wait ∧ (u.core.sx i).waitCause = cause then
      { s with pending := u.pending, clusters := u.clusters }.setCore { s.core with
        slots := s.core.slots.set i (u.core.slot i), slotx := s.core.slotx.set i (u.core.sx i) }
    else s.setCore ((s.core.onSlot i (fun x => { x with st := .ready })).onSx i (fun x => { x with readySince := s.pkg.ptime }))
  | _ => s.setCore ((s.core.onSlot i (fun x => { x with st := .ready })).onSx i (fun x => { x with readySince := s.pkg.ptime }))

/-- The waiting contexts of the current core that something may have woken are looked at. -/
def State.probeWaits (s : State) : State :=
  (List.finRange 4).foldl (fun s i => if (s.core.slot i).st = .wait ∧ (s.core.sx i).look then s.probeSlot i else s) s

/-- A core none of whose contexts can run: those that wait are looked at again (log entry 10); the core is idle unless it is in the
wait of the context that ran last (R395). -/
def idle (s : State) : State :=
  let t := s.setCore s.core.wakeAll
  match s.slot.st with
  | .wait => t
  | .ready => t
  | .park => t.noteChange s.cn 2 0x27
  | _ => t.noteChange s.cn 3 0x30

/-- A store queue of a workspace that has left residency has still to drain (R162), unless it waits for a parked page. -/
def Core.quiescing (c : Core) : Bool := c.drains.any (fun d => !d.st.queue.isEmpty && !d.st.parked)

/-- One turn of the current core: a stop requested, waits looked at, the choice of a context, then one instruction boundary. No
context issues before the store queues of a workspace that has left the core have drained (R162). -/
def turn (s : State) : Host.Outcome State Fault Refusal :=
  if !(s.die s.dn).clk.running then .next s
  else if s.core.dbg.dstat.getLsbD 1 then execStopTakesEffect s.cn s
  else if s.core.dbg.dstat.getLsbD 0 ∨ s.core.quiescing then .next s
  else
    let s := if s.core.dbg.dctl.getLsbD 5 then orElse (execReplayMessageInject s.cn s) s else s
    let s := (s.probeWaits).standAside s.cn
    let s := if s.yieldDue s.cn then orElse (execYieldAfterWait s.cn s) s else s
    match s.nextSlot s.cn with
    | some i =>
      match execContextSwitch s.cn i s with
      | .next t => if t.core.quiescing then .next t else issue t
      | r => r
    | none => if s.running then issueAgain s else .next (idle s)

/-- The event that is due, or the turn of the current core and the cycle it takes. -/
def advance (s : State) : Host.Outcome State Fault Refusal :=
  match s.takeDue with
  | some (e, rest) => andThen (runEvent e { s with pending := rest }) State.wakeAll
  | none => andThen (turn s) State.endTurn

end Sys2Proof.Machine
end

