-- ==== Sys2Proof/Machine/Step.lean ====
section
/-! DEFINITION. The step of the package, and the placing of one instruction where the next step fetches. -/
namespace Sys2Proof.Machine

/-- One step: the first due event, else a turn of the current core (log entries 3, 5, 6). -/
def step (s : State) : Host.Outcome State Fault Refusal := advance s

/-- A line whose one head is the instruction of a table word (R219, R222; log entry 8). -/
def tableLine (nbits w : Nat) : List Half :=
  let head := tableHalf nbits w 0
  let n := tailLen (head.toNat / 256 % 4)
  [0x0800, head] ++ List.replicate (30 - n) 0 ++ (List.range n).map (fun i => tableHalf nbits w (i + 1))

/-- The instruction of a table word as the next one that `step` runs (log entry 7): context slot 0 of the current core runs
in its workspace, at head 1 of a line, already entered, that holds it; boot is over with all eight compute dies present
(R423), and the driver has negotiated every feature (R422). -/
def State.withFetchWord (s : State) (nbits w : Nat) : State :=
  let line : LineBuf := { valid := true, led := false, addr := fld s.ws.pc 54 6 * 64, hw := tableLine nbits w }
  let c := s.core.onWs (fun x => { x with pc := BitVec.ofNat 64 (fld s.ws.pc 54 6 * 64 + 1) })
  let c := c.onSlot s.core.cur (fun x => { x with st := .run, line := line })
  let c := { c with res := { c.res with wp := s.slot.wp } }
  let x : PkgX := { s.pkgx with present := upto 0 8, boot := 6, featDone := true, enabled := s.pkgx.offer }
  { s with core := c, pkgx := x, pending := [] }

end Sys2Proof.Machine
end

