-- ==== Sys2Proof/Safety.lean ====
section
/-! DEFINITION. What counts as a safe run, and the terms that claims use: when operands are ready, when an access goes
through, and what an instruction that retires leaves unchanged. -/
namespace Sys2Proof.Safety

open Sys2Proof.Machine

/-- The step of a state answers a next state. -/
def Steps (s : State) : Prop := ∃ t, step s = .next t

/-- The first `n` steps from a state all answer next states. -/
def SafeFor (n : Nat) (s : State) : Prop :=
  match n with
  | 0 => True
  | n + 1 => ∃ t, step s = .next t ∧ SafeFor n t

/-! ## When operands are ready (R157, R209, R331) -/

/-- None of the registers is a pending copy token (R331) or the destination of a queued atomic (R120). -/
def TokensFree (s : State) (rs : List SReg) : Prop :=
  (∀ r ∈ rs, s.core.tokenPending r = false) ∧ s.atomicInto rs = none

/-- A source stream is bound for loading and holds a sound element (R157, R322). -/
def SourceReady (s : State) (src : Option QReg) : Prop :=
  ∀ n, src = some n → s.ws.q[n].bound = true ∧ s.ws.q[n].dir = false ∧ ∃ e l, s.ws.q[n].queue = e :: l ∧ e.cause = 0

/-- A destination stream is bound for storing and has room (R157). -/
def DestReady (s : State) (dst : Option QReg) : Prop :=
  ∀ n, dst = some n → s.ws.q[n].bound = true ∧ s.ws.q[n].dir = true ∧ s.ws.q[n].queue.length < 8

/-- The register and stream operands of an instruction are ready. -/
def Ready (s : State) (src dst : Option QReg) (rs : List SReg) : Prop :=
  SourceReady s src ∧ DestReady s dst ∧ TokensFree s rs

/-- The flags that an instruction raises are not enabled to trap (R151). -/
def Quiet (s : State) (fl : Flags) : Prop := fl &&& s.ws.ten = 0

/-! ## When an access goes through (R20, R27, R60, R97, R192, R262, R392) -/

/-- A queued operation is an atomic that acquires (R120). -/
def acquires (o : RelOp) : Bool :=
  match o with
  | .amo _ _ _ _ _ _ _ _ acq => acq
  | .store _ _ _ _ => false
  | .arrive _ => false
  | .message _ _ => false

/-- No queued atomic of the slot acquires (R120). -/
def NoAcquire (s : State) : Prop := ∀ e ∈ s.slot.relq, acquires e.op = false

/-- The `n` bytes at `va` lie in one 64 KiB page that the core's TLB maps by `e` with the rights needed. -/
def Translates (s : State) (need : Need) (va : Word) (n : Nat) (e : TlbEntry) : Prop :=
  0 < n ∧ va.toNat % 65536 + n ≤ 65536 ∧ va.toNat + n ≤ 2 ^ 55 ∧ s.ws.atp.getLsbD 63 = true ∧
  s.core.tlb.find? (fun x => x.covers s.ws.vfn (va.toNat / 65536)) = some e ∧
  s.leafCheck s.ws.vfn (!s.ws.sup) need e = none

/-- An access of the `n` bytes at `va` passes every check: it translates by `e`, no queued atomic acquires, no watchpoint matches,
the page is no device page, a host page lies in a map window, a store meets no other core's tile, and a booked task keeps to its
vaults. -/
def Passes (s : State) (need : Need) (va : Word) (n : Nat) (e : TlbEntry) : Prop :=
  Translates s need va n e ∧ NoAcquire s ∧ s.core.dbg.watchHit false va.toNat n need.rd need.wr = none ∧ e.dev = false ∧
  s.unmapped (e.place va.toNat) = false ∧
  (need.wr = true → (Span.lines [(e.place va.toNat, n)]).all (fun l => !(l.2.coherent && s.tileRefuses s.cn l.1)) = true) ∧
  (s.booked = true → e.kind = 1 ∧ nearVault s.cn (e.place va.toNat) = true ∧
    s.holdsClaim 8 (some (e.place va.toNat).vault) = true)

/-- Such an access may be made at once: no queued release of the slot writes its bytes, and no other die owns a line that is
read. -/
def Reaches (s : State) (need : Need) (va : Word) (n : Nat) (e : TlbEntry) : Prop :=
  Passes s need va n e ∧ s.slot.relq.find? (fun x => x.op.meets [(e.place va.toNat, n)]) = none ∧
  ((need.rd || need.ex) = true → s.away s.cn [(e.place va.toNat, n)] = false)

/-- An access of the 8 bytes at `va` translates to a device page by `e`, at a multiple of 8, and nothing holds it back (R47, R262). -/
def ReachesDevice (s : State) (need : Need) (va : Word) (e : TlbEntry) : Prop :=
  Translates s need va 8 e ∧ NoAcquire s ∧ s.core.dbg.watchHit false va.toNat 8 need.rd need.wr = none ∧ e.dev = true ∧
  (e.place va.toNat).pa % 8 = 0 ∧ s.unmapped (e.place va.toNat) = false ∧
  s.slot.relq.find? (fun x => x.op.meets [(e.place va.toNat, 8)]) = none

/-- The state after the translation of an access through the core's TLB. -/
def viaTlb (s : State) (e : TlbEntry) : State := { s with core := s.core.tlbUse e }

/-- The `n` bytes at local offset `a` lie in the scratchpad, and nothing holds the access back or stops it (R60, R263). -/
def ReachesLocal (s : State) (a : Word) (n : Nat) (wr : Bool) : Prop :=
  a.toNat + n ≤ 196608 ∧ NoAcquire s ∧ s.core.dbg.watchHit true a.toNat n (!wr) wr = none ∧
  heldMeets (s.held s.cn) a.toNat n wr = false

/-- The state after the checks of a local access: a margin touch is recorded (R59). -/
def viaLocal (s : State) (a : Word) (n : Nat) (wr : Bool) : State :=
  (s.noteMargin (s.core.firstMargin a.toNat n) wr).onSx (fun x => { x with touched := false })

/-! ## What an instruction leaves -/

/-- The register is one that a last-read mark names (R166). -/
def marked {α : Type} [DecidableEq α] (ks : List (Bool × α)) (r : α) : Bool := ks.any (fun k => k.1 && decide (k.2 = r))

/-- Every byte of memory and of the scratchpad, and every tag, is as before. -/
def KeepsMemory (s t : State) : Prop :=
  (∀ a, readByte t.mem a = readByte s.mem a) ∧ (∀ o, readByte t.core.pad o = readByte s.core.pad o) ∧
  t.tags = s.tags ∧ t.core.padTags = s.core.padTags ∧ t.lineKey = s.lineKey ∧ t.hbm = s.hbm ∧ t.stale = s.stale

/-- The registers of the other classes: moments, capabilities, masks. -/
def KeepsMCK (s t : State) : Prop :=
  (∀ r, t.ws.getM r = s.ws.getM r) ∧ (∀ r, t.ws.getC r = s.ws.getC r) ∧ (∀ r, t.ws.getK r = s.ws.getK r)

/-- The vector, moment and mask registers. -/
def KeepsVMK (s t : State) : Prop :=
  (∀ r, t.ws.getV r = s.ws.getV r) ∧ (∀ r, t.ws.getM r = s.ws.getM r) ∧ (∀ r, t.ws.getK r = s.ws.getK r)

/-- The streams, the floating-point control register and the generators. -/
def KeepsQF (s t : State) : Prop :=
  t.ws.q = s.ws.q ∧ t.ws.fcsr = s.ws.fcsr ∧ t.core.srng = s.core.srng ∧ t.core.grng = s.core.grng

/-- The status word, the address space, `vl`, `mcr` and `cvm` (R159, R160). -/
def KeepsModes (s t : State) : Prop :=
  t.ws.tsw = s.ws.tsw ∧ t.ws.atp = s.ws.atp ∧ t.ws.vl = s.ws.vl ∧ t.ws.mcr = s.ws.mcr ∧ t.ws.cvm = s.ws.cvm

/-- The fault record, the vector and every other register of the context slots, the rest of the core but for its
generators, the other cores, the clusters, the dies and the package. Of the slots' own state only the notes about the
instruction in progress may change: that it has touched a margin, that it awaits a translation, which host writes it waits for. -/
def KeepsSystem (s t : State) : Prop :=
  (∀ i, { t.core.slot i with icnt := (s.core.slot i).icnt } = s.core.slot i) ∧
  (∀ i, { t.core.sx i with touched := (s.core.sx i).touched, asking := (s.core.sx i).asking, hostMark := (s.core.sx i).hostMark } = s.core.sx i) ∧
  t.core.cur = s.core.cur ∧ t.core.alt = s.core.alt ∧ t.core.res.wp = s.core.res.wp ∧
  t.core.res.mask = s.core.res.mask ∧ t.core.win = s.core.win ∧ t.core.mbox = s.core.mbox ∧ t.core.copies = s.core.copies ∧
  t.core.allocs = s.core.allocs ∧ t.core.tlb = s.core.tlb ∧ t.core.latecnt = s.core.latecnt ∧ t.core.carry = s.core.carry ∧
  { t.core.dbg with dctl := s.core.dbg.dctl } = s.core.dbg ∧ t.cn = s.cn ∧ t.others = s.others ∧ t.clusters = s.clusters ∧
  t.dies = s.dies ∧ t.pkg = s.pkg ∧ t.pkgx = s.pkgx ∧ t.nextId = s.nextId

/-- The instruction has retired at `pc`: the progress word is zero, `icnt` has counted it (R218, R404). -/
def RetiredAt (s t : State) (pc : Word) : Prop :=
  t.ws.pc = pc ∧ t.ws.prog = 0 ∧ t.slot.icnt = s.slot.icnt + 1

/-- The whole effect of an instruction with a scalar destination `d` and a first source `a`, either of which may be a
stream, that writes `y`, raises `fl` and leaves the generator at `g`. -/
def ScalarEffect (s t : State) (d a : SQ) (ks : List (Bool × SReg)) (y : Word) (fl : Flags) (g : BitVec 32) : Prop :=
  (∀ r, t.ws.getS r = if d = .s r ∧ r ≠ 0 then y else if marked ks r then 0 else s.ws.getS r) ∧
  (∀ n : QReg, t.ws.q[n] =
    let q := if a = .q n then s.ws.q[n].take else s.ws.q[n]
    if d = .q n then q.append (y.setWidth 1024) else q) ∧
  (∀ r, t.ws.getV r = s.ws.getV r) ∧ KeepsMCK s t ∧ KeepsModes s t ∧ t.ws.fcsr = s.ws.fcsr ||| fl.setWidth 14 ∧
  t.core.srng = g ∧ t.core.grng = s.core.grng ∧ KeepsMemory s t ∧ KeepsSystem s t ∧ RetiredAt s t s.nextPc

/-- The whole effect of an instruction with a vector destination `d` and a first source `a` that writes `y`. -/
def VectorEffect (s t : State) (d a : VQ) (vs : List (Bool × VReg)) (ss : List (Bool × SReg)) (y : VWord) (fl : Flags)
    (g : BitVec 32) : Prop :=
  (∀ r, t.ws.getV r = if d = .v r then y else if marked vs r then 0 else s.ws.getV r) ∧
  (∀ n : QReg, t.ws.q[n] =
    let q := if a = .q n then s.ws.q[n].take else s.ws.q[n]
    if d = .q n then q.append y else q) ∧
  (∀ r, t.ws.getS r = if marked ss r then 0 else s.ws.getS r) ∧ KeepsMCK s t ∧ KeepsModes s t ∧
  t.ws.fcsr = s.ws.fcsr ||| fl.setWidth 14 ∧ t.core.srng = g ∧ t.core.grng = s.core.grng ∧ KeepsMemory s t ∧
  KeepsSystem s t ∧ RetiredAt s t s.nextPc

/-- The fault record, the control and budget registers, the state and the workspace of every context slot (R161, R167, R210,
R212). -/
def KeepsSlots (s t : State) : Prop :=
  ∀ i, (t.core.slot i).fault = (s.core.slot i).fault ∧ (t.core.slot i).tvec = (s.core.slot i).tvec ∧
    (t.core.slot i).tctl = (s.core.slot i).tctl ∧ (t.core.slot i).tbud = (s.core.slot i).tbud ∧
    (t.core.slot i).st = (s.core.slot i).st ∧ (t.core.slot i).wp = (s.core.slot i).wp

/-- Every register of the running context but the scalar ones, the generators, and the slots' registers. -/
def KeepsContext (s t : State) : Prop :=
  (∀ r, t.ws.getV r = s.ws.getV r) ∧ KeepsMCK s t ∧ KeepsModes s t ∧ KeepsQF s t ∧ KeepsSlots s t

/-- The scalar registers: `d` becomes `y` but for s0, marked ones die, the others are as before (R158, R166). -/
def ScalarWrite (s t : State) (d : SReg) (ks : List (Bool × SReg)) (y : Word) : Prop :=
  ∀ r, t.ws.getS r = if r = d ∧ r ≠ 0 then y else if marked ks r then 0 else s.ws.getS r

/-- The context's side of an instruction that writes `y` to a scalar register and retires; what it does to memory and to
the units beside the core is said apart. -/
def Writes (s t : State) (d : SReg) (ks : List (Bool × SReg)) (y : Word) : Prop :=
  ScalarWrite s t d ks y ∧ KeepsContext s t ∧ RetiredAt s t s.nextPc

/-- Every byte and tag of memory and of the scratchpad is as before. -/
def KeepsBytes (s t : State) : Prop :=
  (∀ a, readByte t.mem a = readByte s.mem a) ∧ (∀ o, readByte t.core.pad o = readByte s.core.pad o) ∧
  t.tags = s.tags ∧ t.core.padTags = s.core.padTags

/-- The bytes of memory at the keys `ls` become `bs` and the tags of their granules go (R26); every other byte and tag is
as before. -/
def Stores (s t : State) (ls : List Nat) (bs : List Byte) : Prop :=
  readLocs t.mem ls = bs ∧ (∀ a, a ∉ ls → readByte t.mem a = readByte s.mem a) ∧
  (∀ g, setHas t.tags g = (setHas s.tags g && !ls.any (fun l => l / 16 == g))) ∧
  (∀ o, readByte t.core.pad o = readByte s.core.pad o) ∧ t.core.padTags = s.core.padTags

/-- The bytes of the scratchpad at the offset `a` become `bs`, but in the margins when the context is no supervisor (R58),
and the tags of their granules go (R26); every other byte and tag is as before. -/
def StoresLocal (s t : State) (a : Nat) (bs : List Byte) : Prop :=
  let wrote := fun (o : Nat) => decide (a ≤ o) && decide (o < a + bs.length) && (s.sup || s.core.inAlloc o)
  (∀ o, readByte t.core.pad o = if wrote o then bs.getD (o - a) 0 else readByte s.core.pad o) ∧
  (∀ g, setHas t.core.padTags g = (setHas s.core.padTags g && !(upto (16 * g) 16).any wrote)) ∧
  (∀ k, readByte t.mem k = readByte s.mem k) ∧ t.tags = s.tags

/-- The whole course of an instruction that only goes to `pc` and perhaps writes scalar or vector registers. -/
def Moves (s t : State) (pc : Word) : Prop :=
  RetiredAt s t pc ∧ KeepsMemory s t ∧ KeepsModes s t ∧ KeepsSystem s t ∧ KeepsMCK s t ∧ KeepsQF s t

/-! ## Lanes (R277, R278, R280) -/

/-- The flags that the active ones of `n` lanes raise. -/
def laneFlags (act : Nat → Bool) (n : Nat) (f : Nat → Nat × Flags) : Flags :=
  ((List.range n).filter act).foldl (fun x i => x ||| (f i).2) 0

/-- The whole effect of a vector form of width `w` under the mask `k`: every active lane i holds the value of `f i`, every
other lane what it held. -/
def LaneEffect (s t : State) (w : Nat) (k : Mask) (d a : VQ) (vs : List (Bool × VReg)) (ss : List (Bool × SReg))
    (f : Nat → Nat × Flags) : Prop :=
  ∃ y, VectorEffect s t d a vs ss y (laneFlags (s.ws.active k (1024 / w)) (1024 / w) f) s.core.srng ∧
    ∀ i, i < 1024 / w → laneOf w y i = if s.ws.active k (1024 / w) i then (f i).1 % 2 ^ w else laneOf w (s.oldV d).1 i

/-- No flag of an active lane is enabled to trap (R151). -/
def LanesQuiet (s : State) (w : Nat) (k : Mask) (f : Nat → Nat × Flags) : Prop :=
  Quiet s (laneFlags (s.ws.active k (1024 / w)) (1024 / w) f)

/-- The whole effect of a moment form: `d` becomes `y`, marked registers die, the flags `fl` are set, and mcr.NV when a
variance was bad (R301). -/
def MomentEffect (s t : State) (d : MReg) (y : MWord) (fl : Flags) (nv : Bool) (ms : List (Bool × MReg))
    (ss : List (Bool × SReg)) : Prop :=
  (∀ r, t.ws.getM r = if r = d then y else if marked ms r then 0 else s.ws.getM r) ∧
  (∀ r, t.ws.getS r = if marked ss r then 0 else s.ws.getS r) ∧ (∀ r, t.ws.getV r = s.ws.getV r) ∧
  (∀ r, t.ws.getC r = s.ws.getC r) ∧ (∀ r, t.ws.getK r = s.ws.getK r) ∧
  t.ws.tsw = s.ws.tsw ∧ t.ws.atp = s.ws.atp ∧ t.ws.vl = s.ws.vl ∧ t.ws.cvm = s.ws.cvm ∧ t.ws.q = s.ws.q ∧
  t.ws.mcr = (if nv then s.ws.mcr ||| 8 else s.ws.mcr) ∧ t.ws.fcsr = s.ws.fcsr ||| fl.setWidth 14 ∧
  t.core.srng = s.core.srng ∧ t.core.grng = s.core.grng ∧ KeepsMemory s t ∧ KeepsSystem s t ∧ RetiredAt s t s.nextPc

/-! ## Instructions that act on a unit -/

/-- The instruction answers the next state of `t`, which differs from `s` by its effect on a unit alone, with `y` in the scalar
register `d`: nothing else of `t` changes but the marked registers, which die, and the pc. -/
def Retires (i : Instr) (s t : State) (d : SReg) (ks : List (Bool × SReg)) (y : Word) : Prop :=
  ∃ u, exec i s = .next u ∧ ScalarEffect t u (.s d) (.s 0) ks y 0 t.core.srng

/-- The entry that an operation takes in the release queue of the running context (R118): it covers the writes made so far. -/
def relEntry (s : State) (op : RelOp) : RelEntry :=
  { op := op, seq := s.slot.wseq, bases := (List.finRange 4).map (fun i => (s.core.slot i).wbase),
    count := s.slot.trk.count + s.core.carry.count, v := s.trackV, fleft := s.slot.fcount, sent := false, refused := false }

/-- The state with one more entry in the release queue of the running context (R118). -/
def queued (s : State) (op : RelOp) : State :=
  (s.onSlot (fun x => { x with relq := x.relq ++ [relEntry s op] })).post s.pkg.ptime (.releaseComplete s.cn s.core.cur)

/-! ## Quiet surroundings -/

/-- Every recorder ring of every core is disabled (R135, R393, R405). -/
def RingsOff (s : State) : Prop :=
  ∀ n, (s.coreOf n).dbg.note.ctl.getLsbD 0 = false ∧ (s.coreOf n).dbg.mlog.ctl.getLsbD 0 = false ∧
    (s.coreOf n).dbg.race.ctl.getLsbD 0 = false

/-- No word of memory or of the scratchpad has an uncorrected error, and none has been consumed (R49, R208). -/
def Sound (s : State) : Prop := s.bad = [] ∧ s.core.padBad = [] ∧ s.sx.ecc = none

/-- No word of memory or of any core's scratchpad has an uncorrected error, and none has been consumed by any context (R49, R208). -/
def AllSound (s : State) : Prop :=
  s.bad = [] ∧ ∀ c, c = s.core ∨ (∃ n, (n, c) ∈ s.others) → c.padBad = [] ∧ ∀ i, (c.sx i).ecc = none

/-- No key is loaded and every line, the copies that memory holds too, is under key 0 (R41, R44). -/
def OneKey (s : State) : Prop := s.pkg.keys = [] ∧ (∀ x ∈ s.lineKey, x.2 = 0) ∧ ∀ x ∈ s.hbm, x.2.key = 0

/-- The bytes of memory and of every core's scratchpad are in canonical form. -/
def MemoryForm (s : State) : Prop :=
  Memory.wf s.mem = true ∧ Memory.wf s.core.pad = true ∧ ∀ x ∈ s.others, Memory.wf x.2.pad = true

/-- No line is cached under two keys, and what memory holds is noted only of lines that a write has made dirty (R44, R274). -/
def Settled (s : State) : Prop := s.stale = [] ∧ ∀ x ∈ s.hbm, x.2.dirty = true

/-- The `n` bytes after a place are held under the place's key, whose slot is loaded (R42, R44). -/
def HeldUnder (s : State) (p : Place) (n : Nat) : Prop :=
  s.keyLoaded p.key = true ∧ p.dev = false ∧
  ∀ i, i < n → 2 ≤ p.kind ∨ mapGet s.lineKey (p.loc i / 64) = none ∨ mapGet s.lineKey (p.loc i / 64) = some p.key

/-- The keys of the `n` bytes that an access at `va` touches under the entry `e`. -/
def keysAt (e : TlbEntry) (va : Word) (n : Nat) : List Nat := (List.range n).map (e.place va.toNat).loc

/-- The ILLEGAL trap that an instruction's operands raise: its reason is OPERAND, and it records the head and the tail of the
instruction from the line being executed (R210, R237). -/
def illegalTrap (s : State) : Trap :=
  let h := fld s.ws.pc 4 0
  let w := headWords (s.slot.line.head h) (s.slot.line.tail h)
  { Trap.mk0 0x01 0x35 0 0 with fins := w.1, fins1 := w.2 }

/-- The bytes of the scratchpad that a local load at the offset `a` returns: zero in margins but for a supervisor (R58). -/
def localBytes (s : State) (a n : Nat) : List Byte :=
  (upto a n).map (fun o => if s.sup || s.core.inAlloc o then readByte s.core.pad o else 0)

end Sys2Proof.Safety
end

