-- ==== Sys2Proof/Certificates/Slice0/Obligations.lean ====
section
/-! DEFINITION. The statements for the provers. -/

open Sys2Proof Sys2Proof.Machine Sys2Proof.Safety

/-! ## Integer and capability instructions (spec/10) -/

/-- R244, R245, R247, R249, R250: a register-register integer form whose operands are ready takes the low w bits x and y of
its sources, writes the extended result to its destination alone, leaves flags, memory and every other register, and retires.
A write to s0 is discarded; last-read marks kill their registers. -/
def Obligations.IntegerRegisterForms : Prop :=
  ∀ (t : IT) (d a : SQ) (b : SReg) (la lb : Bool) (s : State), Ready s a.q? d.q? (a.regs ++ d.regs ++ [b]) →
    let x := lowBits t (s.ws.srcS a)
    let y := lowBits t (s.ws.getS b)
    let w := t.bits
    let gives := fun (i : Instr) (v : Nat) =>
      ∃ u, exec i s = .next u ∧ ScalarEffect s u d a [a.mark la, (lb, b)] (extend t v) 0 s.core.srng
    gives (.add t d a b la lb) ((x + y) % 2 ^ w) ∧
    gives (.sub t d a b la lb) ((x + 2 ^ w - y) % 2 ^ w) ∧
    gives (.and t d a b la lb) (x &&& y) ∧
    gives (.or t d a b la lb) (x ||| y) ∧
    gives (.xor t d a b la lb) (x ^^^ y) ∧
    gives (.andn t d a b la lb) (x &&& (2 ^ w - 1 - y)) ∧
    gives (.orn t d a b la lb) (x ||| (2 ^ w - 1 - y)) ∧
    gives (.min t d a b la lb) (if t.value x ≤ t.value y then x else y) ∧
    gives (.max t d a b la lb) (if t.value x ≤ t.value y then y else x) ∧
    gives (.slt t d a b la lb) (if t.value x < t.value y then 1 else 0) ∧
    gives (.seq t d a b la lb) (if x = y then 1 else 0) ∧
    gives (.sne t d a b la lb) (if x = y then 0 else 1) ∧
    gives (.mul t d a b la lb) (x * y % 2 ^ w) ∧
    gives (.mulh t d a b la lb) (t.wrap (t.value x * t.value y / 2 ^ w)) ∧
    gives (.shl t d a b la lb) (x * 2 ^ (y % w) % 2 ^ w) ∧
    gives (.shr t d a b la lb) (x / 2 ^ (y % w)) ∧
    gives (.sra t d a b la lb) (t.wrap (signExt w x / 2 ^ (y % w))) ∧
    gives (.rot t d a b la lb) (((x * 2 ^ (y % w)) ||| (x / 2 ^ (w - y % w))) % 2 ^ w)

/-- R249, R250: `div` and `rem` with a divisor that is not zero write the quotient truncated toward zero and the remainder with the
sign of a; with a zero divisor they take the precise DIVZERO trap, whose address and detail are 0.
The counts are written zero-extended whatever the type; `sext` and `zext` extend under theirs. -/
def Obligations.DivideCountForms : Prop :=
  (∀ (t : IT) (d a : SQ) (b : SReg) (la lb : Bool) (s : State), Ready s a.q? d.q? (a.regs ++ d.regs ++ [b]) →
      let x := t.value (lowBits t (s.ws.srcS a))
      let y := t.value (lowBits t (s.ws.getS b))
      (lowBits t (s.ws.getS b) ≠ 0 →
        (∃ u, exec (.div t d a b la lb) s = .next u ∧
          ScalarEffect s u d a [a.mark la, (lb, b)] (extend t (t.wrap (x.tdiv y))) 0 s.core.srng) ∧
        (∃ u, exec (.rem t d a b la lb) s = .next u ∧
          ScalarEffect s u d a [a.mark la, (lb, b)] (extend t (t.wrap (x - y * x.tdiv y))) 0 s.core.srng)) ∧
      (lowBits t (s.ws.getS b) = 0 →
        exec (.div t d a b la lb) s = .next (s.trap (Trap.mk0 0x0D 0 0 0)) ∧
        exec (.rem t d a b la lb) s = .next (s.trap (Trap.mk0 0x0D 0 0 0)))) ∧
  (∀ (t : IT) (d a : SQ) (la : Bool) (s : State), Ready s a.q? d.q? (a.regs ++ d.regs) →
      let x := lowBits t (s.ws.srcS a)
      let gives := fun (i : Instr) (v : Word) =>
        ∃ u, exec i s = .next u ∧ ScalarEffect s u d a [a.mark la] v 0 s.core.srng
      gives (.clz t d a la) (BitVec.ofNat 64 (t.bits - (if x = 0 then 0 else x.log2 + 1))) ∧
      gives (.ctz t d a la) (BitVec.ofNat 64 (((List.range t.bits).find? (fun i => x.testBit i)).getD t.bits)) ∧
      gives (.pop t d a la) (BitVec.ofNat 64 ((List.range t.bits).filter (fun i => x.testBit i)).length) ∧
      gives (.sext t d a la) (extend t x) ∧
      gives (.zext t d a la) (extend t x))

/-- R244, R247, R248, R251: the immediate forms. The immediate of `addi` to `slti` is sign-extended and truncated to w bits;
`li` sign-extends 32 bits, `lih` keeps the low half, `li` with 64 bits writes them; `bext` reads bits above 63 as zero;
`bins` writes no bit above 63. -/
def Obligations.ImmediateForms : Prop :=
  ∀ (t : IT) (d a : SReg) (imm : BitVec 16) (n pos len1 : BitVec 6) (i32 : BitVec 32) (i64 : BitVec 64) (s : State),
    let x := lowBits t (s.ws.getS a)
    let y := (imm.signExtend 64).toNat % 2 ^ t.bits
    let A := s.ws.getS a
    let D := s.ws.getS d
    let gives := fun (i : Instr) (v : Word) => ∃ u, exec i s = .next u ∧ ScalarEffect s u (.s d) (.s 0) [] v 0 s.core.srng
    (TokensFree s [a, d] →
      gives (.addi t d a imm) (extend t ((x + y) % 2 ^ t.bits)) ∧
      gives (.andi t d a imm) (extend t (x &&& y)) ∧
      gives (.ori t d a imm) (extend t (x ||| y)) ∧
      gives (.xori t d a imm) (extend t (x ^^^ y)) ∧
      gives (.slti t d a imm) (extend t (if t.value x < t.value y then 1 else 0)) ∧
      gives (.shli t d a n) (extend t (x * 2 ^ n.toNat % 2 ^ t.bits)) ∧
      gives (.shri t d a n) (extend t (x / 2 ^ n.toNat)) ∧
      gives (.srai t d a n) (extend t (t.wrap (signExt t.bits x / 2 ^ n.toNat))) ∧
      gives (.bext t d a pos len1) (
        let f := A.toNat / 2 ^ pos.toNat % 2 ^ (len1.toNat + 1)
        if t.uns then BitVec.ofNat 64 f else BitVec.ofInt 64 (signExt (len1.toNat + 1) f)) ∧
      gives (.bins t d a pos len1) (
        let m : Word := BitVec.ofNat 64 ((2 ^ (len1.toNat + 1) - 1) * 2 ^ pos.toNat)
        (D &&& ~~~m) ||| ((A <<< pos.toNat) &&& m))) ∧
    (TokensFree s [d] →
      gives (.li d i32) (i32.signExtend 64) ∧
      gives (.lih d i32) (i32 ++ D.extractLsb' 0 32) ∧
      gives (.liImm64 d i64) i64)

/-- R252: `sel` takes a when the low w bits of s[C] are not zero, else b; its C is a scalar register that may be marked, and an
encoding of major 0x06, minor 0x00, that decodes has shape OPER and RMF zero. -/
def Obligations.SelectForm : Prop :=
  (∀ (t : IT) (d a : SQ) (b c : SReg) (la lb lc : Bool) (s : State), Ready s a.q? d.q? (a.regs ++ d.regs ++ [b, c]) →
    ∃ u, exec (.sel t d a b c la lb lc) s = .next u ∧
      ScalarEffect s u d a [a.mark la, (lb, b), (lc, c)]
        (extend t (if lowBits t (s.ws.getS c) ≠ 0 then lowBits t (s.ws.srcS a) else lowBits t (s.ws.getS b))) 0 s.core.srng) ∧
  (∀ (h : Half) (l : List Half) (i : Instr), h.toNat / 1024 = 6 → decode h l = .ok i →
    (rawOf h l).tl = 2 ∧ (rawOf h l).min = 0 ∧ (rawOf h l).rmf = 0 ∧
    ∃ t d a b c la lb lc, i = .sel t d a b c la lb lc)

/-- R253 to R255: reading the fields of a capability, narrowing one, and testing one. `cnarrow` takes the CAP_BOUNDS trap for
an untagged source, an offset or a length that is no multiple of 64, a length below 128 or a range past the end, and writes
nothing but its destination otherwise. That the address of these traps is 0 is the model's reading (log 88). -/
def Obligations.CapabilityForms : Prop :=
  ∀ (d : SReg) (e a : CReg) (b c : SReg) (la lb lc : Bool) (s : State),
    let k := s.ws.getC a
    let reads := fun (i : Instr) (v : Nat) =>
      ∃ u, exec i s = .next u ∧ RetiredAt s u s.nextPc ∧ KeepsMemory s u ∧ KeepsModes s u ∧ KeepsSystem s u ∧
        KeepsVMK s u ∧ KeepsQF s u ∧ (∀ r, u.ws.getS r = if r = d ∧ r ≠ 0 then BitVec.ofNat 64 v else s.ws.getS r) ∧
        (∀ r, u.ws.getC r = if la ∧ r = a then Cap.zero else s.ws.getC r)
    (TokensFree s [d] →
      reads (.cbase d a la) k.base ∧ reads (.clen d a la) k.length ∧ reads (.cgen d a la) k.gen ∧
      reads (.crights d a la) (k.rights + bit01 k.tag * 8 + k.owner * 16 + k.tid * 32768)) ∧
    (TokensFree s [b, c, d] →
      ∃ u, exec (.ccheck d a b c la lb lc) s = .next u ∧ RetiredAt s u s.nextPc ∧ KeepsMemory s u ∧ KeepsModes s u ∧
        KeepsSystem s u ∧ KeepsVMK s u ∧ KeepsQF s u ∧
        (∀ r, u.ws.getC r = if la ∧ r = a then Cap.zero else s.ws.getC r) ∧ (∀ r, u.ws.getS r = if r = d ∧ r ≠ 0 then
          BitVec.ofNat 64 (k.check (s.ws.getS b).toNat (fld (s.ws.getS c) 31 0) (fld (s.ws.getS c) 34 32))
          else if marked [(lb, b), (lc, c)] r then 0 else s.ws.getS r)) ∧
    (TokensFree s [b, c] →
      let o := (s.ws.getS b).toNat
      let l := fld (s.ws.getS c) 22 0
      let m := fld (s.ws.getS c) 26 24
      (k.tag = false → exec (.cnarrow e a b c la lb lc) s =
        .next (s.trap (Trap.mk0 0x07 0x10 0 0))) ∧
      (k.tag = true → ¬ (o % 64 = 0 ∧ l % 64 = 0 ∧ 128 ≤ l ∧ o + l ≤ k.length) → exec (.cnarrow e a b c la lb lc) s =
        .next (s.trap (Trap.mk0 0x07 0x12 0 0))) ∧
      (k.tag = true → o % 64 = 0 ∧ l % 64 = 0 ∧ 128 ≤ l ∧ o + l ≤ k.length →
        ∃ u, exec (.cnarrow e a b c la lb lc) s = .next u ∧ RetiredAt s u s.nextPc ∧ KeepsMemory s u ∧ KeepsModes s u ∧
          KeepsSystem s u ∧ KeepsVMK s u ∧ KeepsQF s u ∧ (∀ r, u.ws.getS r = if marked [(lb, b), (lc, c)] r then 0 else s.ws.getS r) ∧
          (∀ r, u.ws.getC r = if r = e then capOf (k.base + o) l k.gen k.owner (k.rights &&& m) k.tid
            else if la ∧ r = a then Cap.zero else s.ws.getC r)))

/-! ## Control transfers (spec/09 R224, R225, spec/10 R256, R257) -/

/-- R225, R256: a branch whose condition holds goes to its target line and head, one whose condition fails to the next
instruction; `loop` writes its count less one either way; a target line outside the 55-bit space is PROT NONCANON at the
branch, whose registers stay, the count of a `loop` among them. That the trap's address is that of the target line is the model's
choice (log 123). The recording of branches is off. -/
def Obligations.BranchForms : Prop :=
  ∀ (t : IT) (a b : SReg) (tgt : Target) (s : State), TokensFree s [a, b] → TokensFree s [a, 0] →
    s.core.dbg.note.ctl.getLsbD 3 = false →
    let x := lowBits t (s.ws.getS a)
    let y := lowBits t (s.ws.getS b)
    let line : Int := Int.ofNat (s.ws.pc.toNat / 64) + tgt.lofs.toInt
    let n := (x + 2 ^ t.bits - 1) % 2 ^ t.bits
    let goes := fun (i : Instr) (c : Prop) =>
      (c → 0 ≤ line → line < 2 ^ 49 → ∃ u, exec i s = .next u ∧ (∀ r, u.ws.getS r = s.ws.getS r) ∧
        (∀ r, u.ws.getV r = s.ws.getV r) ∧ Moves s u (BitVec.ofInt 64 (line * 64 + Int.ofNat tgt.head.toNat))) ∧
      (c → line < 0 ∨ 2 ^ 49 ≤ line → exec i s = .next (s.trap (Trap.mk0 0x06 0x01 (BitVec.ofInt 64 (line * 64)) 0))) ∧
      (¬ c → ∃ u, exec i s = .next u ∧ (∀ r, u.ws.getS r = s.ws.getS r) ∧ (∀ r, u.ws.getV r = s.ws.getV r) ∧
        Moves s u s.nextPc)
    goes (.beq t a b tgt) (x = y) ∧
    goes (.bne t a b tgt) (x ≠ y) ∧
    goes (.blt t a b tgt) (t.value x < t.value y) ∧
    goes (.bge t a b tgt) (t.value y ≤ t.value x) ∧
    goes (.bz t a tgt) (x = 0) ∧
    goes (.bnz t a tgt) (x ≠ 0) ∧
    goes (.br tgt) True ∧
    ((n ≠ 0 → 0 ≤ line ∧ line < 2 ^ 49) → ∃ u, exec (.loop t a tgt) s = .next u ∧
      (∀ r, u.ws.getS r = if r = a ∧ r ≠ 0 then extend t n else s.ws.getS r) ∧ (∀ r, u.ws.getV r = s.ws.getV r) ∧
      Moves s u (if n = 0 then s.nextPc else BitVec.ofInt 64 (line * 64 + Int.ofNat tgt.head.toNat))) ∧
    (n ≠ 0 → line < 0 ∨ 2 ^ 49 ≤ line →
      exec (.loop t a tgt) s = .next (s.trap (Trap.mk0 0x06 0x01 (BitVec.ofInt 64 (line * 64)) 0)))

/-- R165, R225, R257: `jmp` and `callr` go to the pc in s[A], `ret` to that in s31; bits 63 to 55 that are not zero are PROT
NONCANON, as is a call's target line outside the 55-bit space, and then no register is written. A call writes the pc of the next
instruction to s31, after the registers that `cvm` names have died; `ret` kills them too. The address of a NONCANON trap is the
model's choice (log 123). The recording of branches is off. -/
def Obligations.JumpForms : Prop :=
  ∀ (a : SReg) (la : Bool) (tgt : Target) (s : State), TokensFree s [a] → TokensFree s [a, 31] → TokensFree s [31] →
    s.core.dbg.note.ctl.getLsbD 3 = false →
    let dest := s.ws.getS a
    let back := s.ws.getS 31
    let line : Int := Int.ofNat (s.ws.pc.toNat / 64) + tgt.lofs.toInt
    let dies := fun (r : SReg) => s.ws.cvm.getLsbD r.val
    let diesV := fun (r : VReg) => s.ws.cvm.getLsbD (32 + r.val)
    (dest.toNat < 2 ^ 55 →
      (∃ u, exec (.jmp a la) s = .next u ∧ Moves s u dest ∧ (∀ r, u.ws.getV r = s.ws.getV r) ∧
        (∀ r, u.ws.getS r = if marked [(la, a)] r then 0 else s.ws.getS r)) ∧
      (∃ u, exec (.callr a la) s = .next u ∧ Moves s u dest ∧ (∀ r, u.ws.getV r = if diesV r then 0 else s.ws.getV r) ∧
        (∀ r, u.ws.getS r = if r = 31 then s.nextPc else if marked [(la, a)] r || dies r then 0 else s.ws.getS r))) ∧
    (0 ≤ line → line < 2 ^ 49 →
      ∃ u, exec (.call tgt) s = .next u ∧ Moves s u (BitVec.ofInt 64 (line * 64 + Int.ofNat tgt.head.toNat)) ∧
        (∀ r, u.ws.getV r = if diesV r then 0 else s.ws.getV r) ∧
        (∀ r, u.ws.getS r = if r = 31 then s.nextPc else if dies r then 0 else s.ws.getS r)) ∧
    (line < 0 ∨ 2 ^ 49 ≤ line →
      exec (.call tgt) s = .next (s.trap (Trap.mk0 0x06 0x01 (BitVec.ofInt 64 (line * 64)) 0))) ∧
    (back.toNat < 2 ^ 55 →
      ∃ u, exec .ret s = .next u ∧ Moves s u back ∧ (∀ r, u.ws.getV r = if diesV r then 0 else s.ws.getV r) ∧
        (∀ r, u.ws.getS r = if dies r then 0 else s.ws.getS r)) ∧
    (2 ^ 55 ≤ dest.toNat →
      exec (.jmp a la) s = .next (s.trap (Trap.mk0 0x06 0x01 dest 0)) ∧
      exec (.callr a la) s = .next (s.trap (Trap.mk0 0x06 0x01 dest 0))) ∧
    (2 ^ 55 ≤ back.toNat → exec .ret s = .next (s.trap (Trap.mk0 0x06 0x01 back 0)))

/-! ## Scalar floating point (spec/10 R258 to R260) -/

/-- R151, R258, R259: a scalar floating-point form writes its result zero-extended and sets the sticky flags it raises; when
one of them is enabled to trap, FP is taken with those flags and lane 0 in its detail, and no register is written. -/
def Obligations.FloatForms : Prop :=
  ∀ (f : FC) (rm : RM) (d a : SQ) (b c : SReg) (p : Fin 8) (la lb lc : Bool) (s : State),
    let x := (s.ws.srcS a).toNat
    let y := (s.ws.getS b).toNat
    let z := (s.ws.getS c).toNat
    let m := (s.ws.rm rm).plain
    let gives := fun (i : Instr) (ks : List (Bool × SReg)) (r : Nat × Flags) =>
      (Quiet s r.2 → ∃ u, exec i s = .next u ∧ ScalarEffect s u d a ks (BitVec.ofNat 64 r.1) r.2 s.core.srng) ∧
      (¬ Quiet s r.2 → exec i s =
        .next ((s.onWs (fun w => w.setFlags r.2)).trap (Trap.mk0 0x0C 0 0 (BitVec.ofNat 64 (r.2.toNat + 4294967296)))))
    (Ready s a.q? d.q? (a.regs ++ d.regs ++ [b]) →
      gives (.fadd f rm d a b la lb) [a.mark la, (lb, b)] (f.lay.add m x y) ∧
      gives (.fsub f rm d a b la lb) [a.mark la, (lb, b)] (f.lay.sub m x y) ∧
      gives (.fmul f rm d a b la lb) [a.mark la, (lb, b)] (f.lay.mul m x y) ∧
      gives (.fdiv f rm d a b la lb) [a.mark la, (lb, b)] (f.lay.div m x y) ∧
      gives (.fmin f d a b la lb) [a.mark la, (lb, b)] (f.lay.minMax false x y) ∧
      gives (.fmax f d a b la lb) [a.mark la, (lb, b)] (f.lay.minMax true x y) ∧
      gives (.fcmp f d a b p la lb) [a.mark la, (lb, b)]
        (bit01 (f.lay.compare p.val x y).1, (f.lay.compare p.val x y).2)) ∧
    (Ready s a.q? d.q? (a.regs ++ d.regs ++ []) →
      gives (.fsqrt f rm d a la) [a.mark la] (f.lay.sqrt m x) ∧
      gives (.fclass f d a la) [a.mark la] (f.lay.classify x, 0)) ∧
    (Ready s a.q? d.q? (a.regs ++ d.regs ++ [b, c]) →
      gives (.fma f rm d a b c la lb lc) [a.mark la, (lb, b), (lc, c)] (f.lay.fma m false false x y z) ∧
      gives (.fms f rm d a b c la lb lc) [a.mark la, (lb, b), (lc, c)] (f.lay.fma m false true x y z))

/-- R147, R148, R259: `fcvt` converts the low bits of its source between two formats. Under STO between formats it applies to,
it takes one draw of srng and leaves the generator there; every other conversion leaves the generator. -/
def Obligations.ConvertForm : Prop :=
  ∀ (rm : RM) (d a : SQ) (b c : Fmt) (la : Bool) (s : State), Ready s a.q? d.q? (a.regs ++ d.regs) →
    let sto := decide (s.ws.rm rm = .sto) && stoApplies b c
    let m := if s.ws.rm rm = .sto ∧ stoApplies b c = false then .rne else s.ws.rm rm
    let next := srngStep s.core.srng
    let r := convertElem b c m s.ws.satf (if sto then next.toNat else 0) (s.ws.srcS a).toNat
    Quiet s r.2 → ∃ u, exec (.fcvt rm d a b c la) s = .next u ∧
      ScalarEffect s u d a [a.mark la] (cvtResult c r.1) r.2 (if sto then next else s.core.srng)

/-! ## Loads, stores, atomics and fences (spec/10 R261 to R276) -/

/-- R21, R58, R67, R116, R261 to R263, R266: a load that reaches its bytes writes them, extended by its type, to its destination and
changes no byte of memory. The address of a displacement form is base plus the sign-extended displacement, modulo 2^64; an acquire
load clears the address bits below its size, and completes when the point of its scope has the line. A local load reads zero in
margins. -/
def Obligations.LoadForms : Prop :=
  ∀ (t : IT) (d a : SReg) (imm : BitVec 16) (la : Bool) (sc : Scope) (e : TlbEntry) (s : State),
    TokensFree s [a, d] → Sound s → RingsOff s → Settled s →
    let n := t.bits / 8
    let va := s.ws.getS a + imm.signExtend 64
    let low : Word := BitVec.ofNat 64 ((s.ws.getS a).toNat / n * n)
    let p := e.place low.toNat
    let read := fun (v : Word) => extend t (ofBytes (readLocs s.mem (keysAt e v n)))
    (Reaches s .load va n e → HeldUnder s (e.place va.toNat) n →
      ∃ u, exec (.ld t d a imm) s = .next u ∧ Writes s u d [] (read va) ∧ KeepsBytes s u) ∧
    (Reaches s .load low n e → HeldUnder s p n → s.pointReady p (p.line 0) sc false = true →
      ∃ u, exec (.ldAcq sc t d a la) s = .next u ∧ Writes s u d [(la, a)] (read low) ∧ KeepsBytes s u) ∧
    (ReachesLocal s va n false →
      ∃ u, exec (.ldl t d a imm) s = .next u ∧ Writes s u d [] (extend t (ofBytes (localBytes s va.toNat n))) ∧
        KeepsBytes s u)

/-- R26, R261 to R263: a store that reaches its bytes writes the low bytes of its register there, the tags of their granules
go, and no other byte changes. Memory is in its canonical form. -/
def Obligations.StoreForms : Prop :=
  ∀ (t : IT) (d a : SReg) (imm : BitVec 16) (e : TlbEntry) (s : State), TokensFree s [a, d] → Sound s → RingsOff s →
    Settled s → Memory.wf s.mem = true → Memory.wf s.core.pad = true →
    let n := t.bits / 8
    let va := s.ws.getS a + imm.signExtend 64
    let bs := toBytes n (s.ws.getS d).toNat
    (Reaches s .store va n e → HeldUnder s (e.place va.toNat) n →
      ∃ u, exec (.st t d a imm) s = .next u ∧ Writes s u 0 [] 0 ∧ Stores s u (keysAt e va n) bs) ∧
    (ReachesLocal s va n true →
      ∃ u, exec (.stl t d a imm) s = .next u ∧ Writes s u 0 [] 0 ∧ StoresLocal s u va.toNat bs)

/-- R25 to R28, R261: a load or a store through a capability goes to its base plus the zero-extended displacement, when the
capability is tagged, gives the right, holds the bytes and is of its tile's generation. The first of these that fails gives the trap:
CAP_BOUNDS with UNTAGGED, RIGHTS or BOUNDS, or, after the translation, CAP_STALE, at that address. -/
def Obligations.CapabilityAccess : Prop :=
  ∀ (t : IT) (d : SReg) (a : CReg) (imm : BitVec 16) (e : TlbEntry) (s : State), TokensFree s [d] →
    let n := t.bits / 8
    let k := s.ws.getC a
    let va : Word := BitVec.ofNat 64 (k.base + imm.toNat)
    let bad := fun (need : Nat) => if k.tag = false then 0x10 else if need &&& k.rights ≠ need then 0x11
      else if k.length < imm.toNat + n then 0x12 else 0
    let fresh := (s.tile k.tid).gen.toNat = k.gen
    (Sound s → RingsOff s → Settled s → bad 1 = 0 → fresh → Reaches s .load va n e → HeldUnder s (e.place va.toNat) n →
      ∃ u, exec (.ldThroughCap t d a imm) s = .next u ∧
        Writes s u d [] (extend t (ofBytes (readLocs s.mem (keysAt e va n)))) ∧ KeepsBytes s u) ∧
    (Sound s → RingsOff s → Settled s → Memory.wf s.mem = true → bad 2 = 0 → fresh → Reaches s .store va n e →
      HeldUnder s (e.place va.toNat) n → ∃ u, exec (.stThroughCap t d a imm) s = .next u ∧ Writes s u 0 [] 0 ∧
        Stores s u (keysAt e va n) (toBytes n (s.ws.getS d).toNat)) ∧
    (bad 1 ≠ 0 → exec (.ldThroughCap t d a imm) s = .next (s.trap (Trap.mk0 0x07 (bad 1) va 0))) ∧
    (bad 2 ≠ 0 → exec (.stThroughCap t d a imm) s = .next (s.trap (Trap.mk0 0x07 (bad 2) va 0))) ∧
    (NoAcquire s → bad 1 = 0 → ¬ fresh → Translates s .load va n e →
      exec (.ldThroughCap t d a imm) s = .next ((viaTlb s e).trap (Trap.mk0 0x08 0x13 va 0))) ∧
    (NoAcquire s → bad 2 = 0 → ¬ fresh → Translates s .store va n e →
      exec (.stThroughCap t d a imm) s = .next ((viaTlb s e).trap (Trap.mk0 0x08 0x13 va 0)))

/-- R26, R28, R261: `ld.cap` and `st.cap` move a granule with its tag; bits 3 to 0 of the address are cleared; a granule in
host or peer memory holds no tag. -/
def Obligations.CapabilityMoves : Prop :=
  ∀ (d : CReg) (a : SReg) (imm : BitVec 16) (e : TlbEntry) (s : State), TokensFree s [a] → Sound s → RingsOff s →
    Settled s → Memory.wf s.mem = true →
    let va := (s.ws.getS a + imm.signExtend 64) &&& ~~~15
    let p := e.place va.toNat
    let g := p.loc 0 / 16
    (Reaches s .load va 16 e → HeldUnder s p 16 → ∃ u, exec (.ldCap d a imm) s = .next u ∧ KeepsBytes s u ∧
      (∀ r, u.ws.getC r = if r = d then
        Cap.mk (BitVec.ofNat 128 (ofBytes (readLocs s.mem (keysAt e va 16)))) (decide (e.kind < 2) && setHas s.tags g)
        else s.ws.getC r) ∧
      (∀ r, u.ws.getS r = s.ws.getS r) ∧ KeepsVMK s u ∧ KeepsModes s u ∧ KeepsQF s u ∧ KeepsSlots s u ∧
      RetiredAt s u s.nextPc) ∧
    (Reaches s .store va 16 e → HeldUnder s p 16 → ∃ u, exec (.stCap d a imm) s = .next u ∧ Writes s u 0 [] 0 ∧
      readLocs u.mem (keysAt e va 16) = toBytes 16 (s.ws.getC d).val.toNat ∧
      (∀ k, k ∉ keysAt e va 16 → readByte u.mem k = readByte s.mem k) ∧
      (∀ o, readByte u.core.pad o = readByte s.core.pad o) ∧ u.core.padTags = s.core.padTags ∧
      (∀ h, setHas u.tags h = if h = g then (s.ws.getC d).tag && decide (e.kind < 2) else setHas s.tags h))

/-- R67, R106, R116, R267, R268: an atomic that does not release, on memory that takes it and whose point has the line, writes the
old value to its destination and the new one to memory at the address with the bits below its size cleared; `amo.cas` that does not
match writes no byte. On a peer page, and on an uncached host page whose root port does not take it, an atomic of any order raises
ATOMIC_PATH. -/
def Obligations.AtomicForms : Prop :=
  ∀ (sc : Scope) (o : MemOrder) (t : IT) (d a b c : SReg) (la lb lc : Bool) (e : TlbEntry) (s : State),
    let n := t.bits / 8
    let va : Word := BitVec.ofNat 64 ((s.ws.getS a).toNat / n * n)
    let p := e.place va.toNat
    let old := ofBytes (readLocs s.mem (keysAt e va n))
    let x := lowBits t (s.ws.getS b)
    let sum := (amoLay t).add .rne old x
    let runs := Sound s ∧ RingsOff s ∧ Settled s ∧ Memory.wf s.mem = true ∧ (o = .rlx ∨ o = .acq) ∧
      (e.kind ≤ 1 ∨ e.kind = 2 ∧ e.cach = true) ∧ Reaches s .both va n e ∧ HeldUnder s p n ∧
      s.pointReady p (p.line 0) sc true = true
    let gives := fun (i : Instr) (ks : List (Bool × SReg)) (new : Nat) =>
      ∃ u, exec i s = .next u ∧ Writes s u d ks (extend t old) ∧ Stores s u (keysAt e va n) (toBytes n new)
    (runs → TokensFree s [a, b, 0, d] →
      gives (.amoAdd sc o t d a b la lb) [(la, a), (lb, b)] ((old + x) % 2 ^ t.bits) ∧
      gives (.amoMin sc o t d a b la lb) [(la, a), (lb, b)] (if t.value x < t.value old then x else old) ∧
      gives (.amoMax sc o t d a b la lb) [(la, a), (lb, b)] (if t.value old < t.value x then x else old) ∧
      gives (.amoAnd sc o t d a b la lb) [(la, a), (lb, b)] (old &&& x) ∧
      gives (.amoOr sc o t d a b la lb) [(la, a), (lb, b)] (old ||| x) ∧
      gives (.amoXor sc o t d a b la lb) [(la, a), (lb, b)] (old ^^^ x) ∧
      gives (.amoSwap sc o t d a b la lb) [(la, a), (lb, b)] x ∧
      (∃ u, exec (.amoFadd sc o t d a b la lb) s = .next u ∧
        Writes (s.onWs (fun w => w.setFlags sum.2)) u d [(la, a), (lb, b)] (BitVec.ofNat 64 old) ∧
        Stores s u (keysAt e va n) (toBytes n sum.1))) ∧
    (runs → TokensFree s [a, b, c, d] → ∃ u, exec (.amoCas sc o t d a b c la lb lc) s = .next u ∧
      Writes s u d [(la, a), (lb, b), (lc, c)] (extend t old) ∧
      if old = x then Stores s u (keysAt e va n) (toBytes n (lowBits t (s.ws.getS c))) else KeepsBytes s u) ∧
    (Passes s .both va n e →
      let refuses := fun (i : Instr) (op : AmoOp) => s.atomicRefused p op t = true →
        exec i s = .next ((viaTlb s e).trap (Trap.mk0 0x14 0 va 0))
      (TokensFree s [a, b, 0, d] →
        refuses (.amoAdd sc o t d a b la lb) .add ∧ refuses (.amoFadd sc o t d a b la lb) .fadd ∧
        refuses (.amoMin sc o t d a b la lb) .min ∧ refuses (.amoMax sc o t d a b la lb) .max ∧
        refuses (.amoAnd sc o t d a b la lb) .and ∧ refuses (.amoOr sc o t d a b la lb) .or ∧
        refuses (.amoXor sc o t d a b la lb) .xor ∧ refuses (.amoSwap sc o t d a b la lb) .swap) ∧
      (TokensFree s [a, b, c, d] → refuses (.amoCas sc o t d a b c la lb lc) .cas))

/-- R106, R117, R118, R120, R266, R267: a release store, an atomic that releases, and an atomic that a root port performs, with room
in the slot's queue of four, leave memory and registers but for their marks; the destination of the atomic is written later. The
operation joins the queue behind the slot's writes so far: the entry has their number, how many of them are not acknowledged and
the largest visibility time of the others. With four entries in the queue a free task waits. That an atomic of any order on an
uncached host page joins the queue is the model's choice (log 83). -/
def Obligations.ReleaseForms : Prop :=
  ∀ (sc : Scope) (o : MemOrder) (t : IT) (d a b c : SReg) (la lb lc : Bool) (e : TlbEntry) (s : State), RingsOff s → Settled s →
    let n := t.bits / 8
    let va : Word := BitVec.ofNat 64 ((s.ws.getS a).toNat / n * n)
    let p := e.place va.toNat
    let joins := fun (i : Instr) (ks : List (Bool × SReg)) (x : RelOp) =>
      (s.slot.relq.length < 4 → ∃ u, exec i s = .next u ∧ Writes s u 0 ks 0 ∧ KeepsBytes s u ∧
        u.slot.relq = s.slot.relq ++ [relEntry s x]) ∧
      (4 ≤ s.slot.relq.length → s.booked = false → exec i s = .next ((viaTlb s e).waitHere 0x26))
    (TokensFree s [a, d] → Passes s .store va n e → joins (.stRel sc t d a la) [(la, a)] (.store p sc n (s.ws.getS d))) ∧
    (Passes s .both va n e → (o = .rel ∨ o = .ar) ∨ (e.kind = 2 ∧ e.cach = false) →
      let atomic := fun (i : Instr) (ks : List (Bool × SReg)) (op : AmoOp) (y : SReg) => s.atomicRefused p op t = false →
        joins i ks (.amo p sc op t (s.ws.getS b) (s.ws.getS y) d s.core.res.wp (decide (o = .acq ∨ o = .ar)))
      (TokensFree s [a, b, 0, d] →
        atomic (.amoAdd sc o t d a b la lb) [(la, a), (lb, b)] .add 0 ∧
        atomic (.amoFadd sc o t d a b la lb) [(la, a), (lb, b)] .fadd 0 ∧
        atomic (.amoMin sc o t d a b la lb) [(la, a), (lb, b)] .min 0 ∧
        atomic (.amoMax sc o t d a b la lb) [(la, a), (lb, b)] .max 0 ∧
        atomic (.amoAnd sc o t d a b la lb) [(la, a), (lb, b)] .and 0 ∧
        atomic (.amoOr sc o t d a b la lb) [(la, a), (lb, b)] .or 0 ∧
        atomic (.amoXor sc o t d a b la lb) [(la, a), (lb, b)] .xor 0 ∧
        atomic (.amoSwap sc o t d a b la lb) [(la, a), (lb, b)] .swap 0) ∧
      (TokensFree s [a, b, c, d] → atomic (.amoCas sc o t d a b c la lb lc) [(la, a), (lb, b), (lc, c)] .cas c))

/-- R117, R119, R126, R137, R270: a fence of any scope completes when no load and no release of its slot is in flight, every write of
the slot and of the carry tracker is acknowledged, and the largest visibility time of these has come; in fabric release mode it is
the slot's counter that must be zero, and no time is waited for. `xfence` completes when the writes that its source mask names are
acknowledged and their largest visibility time has come: with bit 0 the LS writes of the slot with its queued release stores and
atomics, with bit 5 those of hosts; with bit 0 of its destination mask that time enters the slot's tracker. Both change nothing else.
Until then a free task waits with the pc at the instruction, and a booked one takes LATE with the reason of a fence; the `xfence`
notes how many host writes the package had accepted when it first waited. That a write of hosts counts only when it was accepted
before that is the model's choice (log 84). -/
def Obligations.FenceForms : Prop :=
  ∀ (sc : Scope) (src dst : BitVec 6) (s : State),
    let frm := s.frmOn
    let acked := s.slot.trk.count = 0 ∧ s.core.carry.count = 0
    let idle := s.slot.outLoads = 0 ∧ s.slot.relq = [] ∧ (if frm then s.slot.fcount = 0 else acked)
    let v := max s.slot.trk.v s.core.carry.v
    let pending := (src.getLsbD 0 = true ∧ (¬ acked ∨ ∃ e ∈ s.slot.relq, e.op.place.isSome = true)) ∨
      (src.getLsbD 5 = true ∧ ∃ w ∈ s.hostBefore, w.vt = none)
    let m := s.onSx (fun x => { x with hostMark := some s.hostMark })
    let z := s.crossV src
    let waits := fun (i : Instr) (at' : State) => (s.booked = false → exec i s = .next (at'.waitHere 0x23)) ∧
      (s.booked = true → s.timingTrap 0x0F = true → exec i s = .next (at'.trap (Trap.mk0 0x0F 0 0 8)))
    (idle → frm = true ∨ v ≤ s.releaseTime s.dn →
      ∃ u, exec (.fence sc) s = .next u ∧ Writes s u 0 [] 0 ∧ KeepsMemory s u ∧ KeepsSystem s u) ∧
    (¬ idle → waits (.fence sc) s) ∧
    (idle → frm = false → s.releaseTime s.dn < v → waits (.fence sc) (s.awaitTime v)) ∧
    (¬ pending → frm = true ∨ z ≤ s.releaseTime s.dn →
      let s' := if dst.getLsbD 0 then s.onSlot (fun x => { x with trk := { x.trk with v := max x.trk.v z } }) else s
      ∃ u, exec (.xfence sc src dst) s = .next u ∧ Writes s' u 0 [] 0 ∧ KeepsMemory s' u ∧ KeepsSystem s' u) ∧
    (pending → waits (.xfence sc src dst) m) ∧
    (¬ pending → frm = false → s.releaseTime s.dn < z → waits (.xfence sc src dst) (m.awaitTime z))

/-- R272 to R276: a prefetch retires in every state and changes no register and no byte. `flushl` changes no byte, and after it
memory holds what the line's copies held. `drop` leaves memory's content of the line: each byte of the line is as it was or as
memory held it, and no dirty copy remains; no other byte changes, and none where memory held what the copy did. On a vault, an
uncached or a tile line both change nothing. A line in M is recalled first, and the instruction issues again. -/
def Obligations.CacheForms : Prop :=
  ∀ (a : SReg) (imm : BitVec 16) (e : TlbEntry) (s : State), RingsOff s → Settled s →
    let va := s.ws.getS a + imm.signExtend 64
    let p := e.place va.toNat
    let line := p.loc 0 / 64
    let acts := e.cach = true ∧ e.kind ≠ 1 ∧ e.dev = false ∧ (s.entry line).st ≠ 3
    let may := fun (need : Need) => TokensFree s [a] ∧ Translates s need va 1 e ∧ NoAcquire s ∧
      (s.booked = true → e.kind = 1 ∨ e.dev = true) ∧ s.slot.relq.find? (fun x => x.op.meets [(p, 1)]) = none
    (∃ u, exec (.prefL1 a imm) s = .next u ∧ Writes s u 0 [] 0 ∧ KeepsBytes s u) ∧
    (∃ u, exec (.prefL2 a imm) s = .next u ∧ Writes s u 0 [] 0 ∧ KeepsBytes s u) ∧
    (may .load → (acts → (s.entry line).st ≠ 2) →
      ∃ u, exec (.flushl a imm) s = .next u ∧ Writes s u 0 [] 0 ∧ KeepsBytes s u ∧
        if acts then mapGet u.hbm line = none else u.hbm = s.hbm) ∧
    (may .store → (acts → (s.entry line).st ≠ 2) → Memory.wf s.mem = true →
      ∃ u, exec (.drop a imm) s = .next u ∧ Writes s u 0 [] 0 ∧
        (∀ k, readByte u.mem k = readByte s.mem k ∨ k / 64 = line ∧ ∃ x, mapGet s.hbm line = some x ∧
          readByte u.mem k = x.bytes.getD (k % 64) 0) ∧
        (∀ o, readByte u.core.pad o = readByte s.core.pad o) ∧
        (acts → mapGet u.hbm line = none) ∧ (¬ acts ∨ mapGet s.hbm line = none → KeepsBytes s u)) ∧
    (acts → (s.entry line).st = 2 →
      (may .load → exec (.flushl a imm) s = .next (((viaTlb s e).recall line).noteChange s.cn 2 0x20)) ∧
      (may .store → exec (.drop a imm) s = .next (((viaTlb s e).recall line).noteChange s.cn 2 0x20)))

/-! ## Vectors (spec/11 R277 to R298) -/

/-- R277 to R280, R282, R283: a floating-point vector form gives every active lane the lane operation's value and sets the
flags the active lanes raise; every other lane keeps its value. -/
def Obligations.VectorFloatForms : Prop :=
  ∀ (f : FC) (rm : RM) (d a : VQ) (b c : VReg) (la lb lc : Bool) (k : Mask) (s : State), Ready s a.q? d.q? [] →
    let w := f.bits
    let m := (s.ws.rm rm).plain
    let x := fun i => laneOf w (s.ws.srcV a) i
    let y := fun i => laneOf w (s.ws.getV b) i
    let z := fun i => laneOf w (s.ws.getV c) i
    let gives := fun (i : Instr) (vs : List (Bool × VReg)) (g : Nat → Nat × Flags) =>
      LanesQuiet s w k g → ∃ u, exec i s = .next u ∧ LaneEffect s u w k d a vs [] g
    gives (.vadd f rm d a b la lb k) [a.mark la, (lb, b)] (fun i => f.lay.add m (x i) (y i)) ∧
    gives (.vsub f rm d a b la lb k) [a.mark la, (lb, b)] (fun i => f.lay.sub m (x i) (y i)) ∧
    gives (.vmul f rm d a b la lb k) [a.mark la, (lb, b)] (fun i => f.lay.mul m (x i) (y i)) ∧
    gives (.vdiv f rm d a b la lb k) [a.mark la, (lb, b)] (fun i => f.lay.div m (x i) (y i)) ∧
    gives (.vmin f d a b la lb k) [a.mark la, (lb, b)] (fun i => f.lay.minMax false (x i) (y i)) ∧
    gives (.vmax f d a b la lb k) [a.mark la, (lb, b)] (fun i => f.lay.minMax true (x i) (y i)) ∧
    gives (.vabs f d a la k) [a.mark la] (fun i => f.lay.setSign (x i) (fun _ => false)) ∧
    gives (.vneg f d a la k) [a.mark la] (fun i => f.lay.setSign (x i) (fun n => !n)) ∧
    gives (.vsqrt f rm d a la k) [a.mark la] (fun i => f.lay.sqrt m (x i)) ∧
    gives (.vfma f rm d a b c la lb lc k) [a.mark la, (lb, b), (lc, c)] (fun i => f.lay.fma m false false (x i) (y i) (z i)) ∧
    gives (.vfms f rm d a b c la lb lc k) [a.mark la, (lb, b), (lc, c)] (fun i => f.lay.fma m false true (x i) (y i) (z i)) ∧
    gives (.vfnma f rm d a b c la lb lc k) [a.mark la, (lb, b), (lc, c)] (fun i => f.lay.fma m true false (x i) (y i) (z i))

/-- R283, R287: `vdot` and the transcendentals work on 32-bit lanes; the two products of a `vdot` lane are of the 16-bit lanes
2i and 2i + 1. -/
def Obligations.VectorWordForms : Prop :=
  ∀ (f : FC) (rm : RM) (d a : VQ) (b c : VReg) (la lb lc : Bool) (k : Mask) (s : State), Ready s a.q? d.q? [] →
    let A := s.ws.srcV a
    let B := s.ws.getV b
    let gives := fun (i : Instr) (vs : List (Bool × VReg)) (g : Nat → Nat × Flags) =>
      LanesQuiet s 32 k g → ∃ u, exec i s = .next u ∧ LaneEffect s u 32 k d a vs [] g
    gives (.vdot f rm d a b c la lb lc k) [a.mark la, (lb, b), (lc, c)] (fun i =>
      dot2 f.lay (s.ws.rm rm).plain (laneOf 16 A (2 * i)) (laneOf 16 B (2 * i)) (laneOf 16 A (2 * i + 1))
        (laneOf 16 B (2 * i + 1)) (laneOf 32 (s.ws.getV c) i)) ∧
    gives (.vexp rm d a la k) [a.mark la] (fun i => TFn.exp.eval (laneOf 32 A i)) ∧
    gives (.vlog rm d a la k) [a.mark la] (fun i => TFn.log.eval (laneOf 32 A i)) ∧
    gives (.vrcp rm d a la k) [a.mark la] (fun i => TFn.rcp.eval (laneOf 32 A i)) ∧
    gives (.vrsqrt rm d a la k) [a.mark la] (fun i => TFn.rsqrt.eval (laneOf 32 A i)) ∧
    gives (.vtanh rm d a la k) [a.mark la] (fun i => TFn.tanh.eval (laneOf 32 A i)) ∧
    gives (.vsigm rm d a la k) [a.mark la] (fun i => TFn.sigm.eval (laneOf 32 A i)) ∧
    gives (.verf rm d a la k) [a.mark la] (fun i => TFn.erf.eval (laneOf 32 A i)) ∧
    gives (.vphi rm d a la k) [a.mark la] (fun i => TFn.phi.eval (laneOf 32 A i)) ∧
    gives (.vpdf rm d a la k) [a.mark la] (fun i => TFn.pdf.eval (laneOf 32 A i))

/-- R277, R278, R284: an integer vector form gives every active lane the low w bits of the operation on the lanes; a shift
takes its count modulo w, and `vsra` fills with bit w - 1. -/
def Obligations.VectorIntegerForms : Prop :=
  ∀ (t : IT) (d a : VQ) (b : VReg) (la lb : Bool) (k : Mask) (s : State), Ready s a.q? d.q? [] →
    let w := t.bits
    let x := fun i => laneOf w (s.ws.srcV a) i
    let y := fun i => laneOf w (s.ws.getV b) i
    let gives := fun (i : Instr) (g : Nat → Nat) =>
      ∃ u, exec i s = .next u ∧ LaneEffect s u w k d a [a.mark la, (lb, b)] [] (fun j => (g j, 0))
    gives (.viadd t d a b la lb k) (fun i => x i + y i) ∧
    gives (.visub t d a b la lb k) (fun i => x i + 2 ^ w - y i) ∧
    gives (.vimul t d a b la lb k) (fun i => x i * y i) ∧
    gives (.vand t d a b la lb k) (fun i => x i &&& y i) ∧
    gives (.vor t d a b la lb k) (fun i => x i ||| y i) ∧
    gives (.vxor t d a b la lb k) (fun i => x i ^^^ y i) ∧
    gives (.vshl t d a b la lb k) (fun i => x i * 2 ^ (y i % w)) ∧
    gives (.vshr t d a b la lb k) (fun i => x i / 2 ^ (y i % w)) ∧
    gives (.vsra t d a b la lb k) (fun i => t.wrap (signExt w (x i) / 2 ^ (y i % w)))

/-- R277, R278, R286, R291, R295: the permuting forms. `vslide` reads lane i + s[B], zero outside; `vperm` takes its lane
numbers modulo the lane count; a marked mask register dies. -/
def Obligations.VectorMoveForms : Prop :=
  ∀ (e : Width) (d a : VQ) (b : VReg) (c : KReg) (r q : SReg) (la lb lc : Bool) (k : Mask) (s : State),
    let w := e.bits
    let n := 1024 / w
    let A := s.ws.srcV a
    (Ready s a.q? d.q? [] →
      (∃ u, exec (.vmovs e d a la k) s = .next u ∧ LaneEffect s u w k d a [a.mark la] [] (fun i => (laneOf w A i, 0))) ∧
      (∃ u, exec (.vperm e d a b la lb k) s = .next u ∧ LaneEffect s u w k d a [a.mark la, (lb, b)] []
        (fun i => (laneOf w A (laneOf w (s.ws.getV b) i % n), 0))) ∧
      (∃ u, exec (.vsel e d a b c la lb lc k) s = .next (u.onWs (fun x => if lc then x.killK c else x)) ∧
        LaneEffect s u w k d a [a.mark la, (lb, b)] []
          (fun i => (if (s.ws.getK c).getLsbD i then laneOf w A i else laneOf w (s.ws.getV b) i, 0)))) ∧
    (Ready s none d.q? [r] → ∃ u, exec (.vbcast e d r la k) s = .next u ∧
      LaneEffect s u w k d (.v 0) [] [(la, r)] (fun _ => ((s.ws.getS r).toNat, 0))) ∧
    (Ready s a.q? d.q? [r] → ∃ u, exec (.vslide e d a r la lb k) s = .next u ∧
      LaneEffect s u w k d a [a.mark la] [(lb, r)] (fun i =>
        let j := Int.ofNat i + (s.ws.getS r).toInt
        (if 0 ≤ j ∧ j < n then laneOf w A j.toNat else 0, 0))) ∧
    (Ready s none d.q? [r, q] → ∃ u y, exec (.vins e d r q la lb) s = .next u ∧
      VectorEffect s u d (.v 0) [] [(la, r), (lb, q)] y 0 s.core.srng ∧
      ∀ i, i < n → laneOf w y i = if i = (s.ws.getS q).toNat % n then (s.ws.getS r).toNat % 2 ^ w else laneOf w (s.oldV d).1 i) ∧
    (∀ v : VReg, ∃ u, exec (.vzero v) s = .next u ∧ VectorEffect s u (.v v) (.v 0) [] [] 0 0 s.core.srng)

/-- R285, R286: a compare writes bit i of its mask for every active lane and leaves every other bit; the whole-mask forms
write all 128 bits; `kpop` counts the active lanes of a mask. That it counts only the bits below `vl` is the model's reading
(log 57). -/
def Obligations.MaskForms : Prop :=
  ∀ (ty : CmpTy) (e : Width) (d x y : KReg) (a : VQ) (b : VReg) (p : Fin 8) (r : SReg) (la lb : Bool) (k : Mask) (s : State),
    let w := CmpTy.bits ty
    let n := 1024 / w
    let cmp := fun i => CmpTy.holds ty p.val (laneOf w (s.ws.srcV a) i) (laneOf w (s.ws.getV b) i)
    let fl := laneFlags (s.ws.active k n) n (fun i => (0, (cmp i).2))
    let gives := fun (i : Instr) (ks : List (Bool × KReg)) (v : KWord) =>
      ∃ u, exec i s = .next u ∧ (∀ z, u.ws.getK z = if z = d then v else if marked ks z then 0 else s.ws.getK z) ∧
        (∀ z, u.ws.getS z = s.ws.getS z) ∧ (∀ z, u.ws.getV z = s.ws.getV z) ∧ (∀ z, u.ws.getM z = s.ws.getM z) ∧
        (∀ z, u.ws.getC z = s.ws.getC z) ∧ KeepsModes s u ∧ KeepsQF s u ∧ KeepsMemory s u ∧ KeepsSystem s u ∧
        RetiredAt s u s.nextPc
    (Ready s a.q? none [] → Quiet s fl → ∃ u, exec (.vcmp ty d a b p la lb k) s = .next u ∧
      (∀ z, u.ws.getK z = if z = d then u.ws.getK d else s.ws.getK z) ∧
      (∀ i, i < 128 → (u.ws.getK d).getLsbD i =
        if s.ws.active k n i then (cmp i).1 else (s.ws.getK d).getLsbD i) ∧
      (∀ z, u.ws.getV z = if marked [a.mark la, (lb, b)] z then 0 else s.ws.getV z) ∧ (∀ z, u.ws.getS z = s.ws.getS z) ∧
      (∀ z, u.ws.getM z = s.ws.getM z) ∧ (∀ z, u.ws.getC z = s.ws.getC z) ∧
      (∀ z : QReg, u.ws.q[z] = if a = .q z then s.ws.q[z].take else s.ws.q[z]) ∧
      u.ws.fcsr = s.ws.fcsr ||| fl.setWidth 14 ∧ u.core.srng = s.core.srng ∧ u.core.grng = s.core.grng ∧
      KeepsModes s u ∧ KeepsMemory s u ∧ KeepsSystem s u ∧ RetiredAt s u s.nextPc) ∧
    gives (.kand d x y la lb) [(la, x), (lb, y)] (s.ws.getK x &&& s.ws.getK y) ∧
    gives (.kor d x y la lb) [(la, x), (lb, y)] (s.ws.getK x ||| s.ws.getK y) ∧
    gives (.knot d x la) [(la, x)] (~~~(s.ws.getK x)) ∧
    (TokensFree s [r] → ∃ u, exec (.kpop e r x la) s = .next u ∧
      ScalarWrite s u r [] (BitVec.ofNat 64 ((List.range (1024 / e.bits)).filter (fun i =>
        decide (i < s.ws.vl.toNat) && (s.ws.getK x).getLsbD i)).length) ∧
      (∀ z, u.ws.getK z = if la ∧ z = x then 0 else s.ws.getK z) ∧ (∀ z, u.ws.getV z = s.ws.getV z) ∧
      (∀ z, u.ws.getM z = s.ws.getM z) ∧ (∀ z, u.ws.getC z = s.ws.getC z) ∧ KeepsModes s u ∧ KeepsQF s u ∧ KeepsMemory s u ∧ KeepsSystem s u ∧ RetiredAt s u s.nextPc)

/-- R148, R288: `vcvt` converts element i of its part when active, narrowing into or widening from the part that X names;
under STO each active element takes the next draw of srng. Lanes that no element writes keep their values. -/
def Obligations.VectorConvertForm : Prop :=
  ∀ (part : Fin 8) (rm : RM) (d a : VQ) (b c : Fmt) (la : Bool) (k : Mask) (s : State),
    (Instr.vcvt part rm d a b c la k).wf = true → Ready s a.q? d.q? [] →
    let n := 1024 / max b.bits c.bits
    let si := fun i => if b.bits < c.bits then i + part.val * n else i
    let di := fun i => if c.bits < b.bits then i + part.val * n else i
    let act := s.ws.active k n
    let sto := decide (s.ws.rm rm = .sto) && stoApplies b c
    let m := if s.ws.rm rm = .sto ∧ stoApplies b c = false then .rne else s.ws.rm rm
    let draw := fun j => (srngDraws s.core.srng j).getLastD s.core.srng
    let before := fun i => ((List.range i).filter act).length
    let r := fun i => convertElem b c m s.ws.satf (if sto then (draw (before i + 1)).toNat else 0) (laneOf b.bits (s.ws.srcV a) (si i))
    Quiet s (laneFlags act n r) → ∃ u y, exec (.vcvt part rm d a b c la k) s = .next u ∧
      VectorEffect s u d a [a.mark la] [] y (laneFlags act n r) (if sto then draw (before n) else s.core.srng) ∧
      (∀ i, i < n → laneOf c.bits y (di i) =
        if act i then (r i).1 % 2 ^ c.bits else laneOf c.bits (s.oldV d).1 (di i)) ∧
      (∀ j, j < 1024 / c.bits → (∀ i, i < n → di i ≠ j) → laneOf c.bits y j = laneOf c.bits (s.oldV d).1 j)

/-- R141, R150, R155, R289, R290, R291: `vscale` packs 32 FP32 lanes into a block with a scale that it chooses or that s[B] gives, writes the
scale's code to s[B] and zeros above the block; it unpacks the elements of a block with the scale in s[B].
A reduction writes the result of its fixed tree over the active lanes, inactive ones replaced by the
identity, a sum of no lane being zero; `vext` writes the lane that s[B] names modulo the lane count, zero-extended. -/
def Obligations.BlockReduceForms : Prop :=
  (∀ (rm : RM) (d a : VQ) (b : SReg) (c : Fmt) (la lb : Bool) (s : State), Ready s a.q? d.q? [b] →
      let A := s.ws.srcV a
      let x := s.ws.getS b
      let sto := decide (s.ws.rm rm = .sto) && stoApplies .f32 c
      let m := if s.ws.rm rm = .sto ∧ stoApplies .f32 c = false then .rne else s.ws.rm rm
      let draws := if sto then srngDraws s.core.srng 32 else []
      let p := packBlock c m s.ws.satf (if x.getLsbD 8 then some (fld x 7 0) else none) (splitLanes 32 32 A.toNat) draws
      let scale := fld x 7 0
      let un := fun i => if scale = 255 then (lay32.canon, flIV) else unpackElem c scale ((splitLanes c.bits 32 A.toNat).getD i 0)
      let fl := laneFlags (fun _ => true) 32 un
      (Quiet s (Raised.all p.2.2) → ∃ v, exec (.vscalePack rm d a b c la lb) s =
          .next (v.onWs (fun w => w.setS b (BitVec.ofNat 64 p.1))) ∧
        VectorEffect s v d a [a.mark la] [(lb, b)] (BitVec.ofNat 1024 (joinLanes c.bits p.2.1)) (Raised.all p.2.2)
          (draws.getLastD s.core.srng)) ∧
      (Quiet s fl → ∃ u y, exec (.vscaleUnpack d a b c la lb) s = .next u ∧
        VectorEffect s u d a [a.mark la] [(lb, b)] y fl s.core.srng ∧
        ∀ i, i < 32 → laneOf 32 y i = (un i).1 % 2 ^ 32)) ∧
  (∀ (d b : SReg) (a : VQ) (c : Fmt) (e : Width) (la lb : Bool) (k : Mask) (s : State),
      let n := 1024 / c.bits
      let act := s.ws.active k n
      let tree := fun (o : RedOp) => reduceTree (o.apply c) n.log2
        ((List.range n).map (fun i => if act i then (laneOf c.bits (s.ws.srcV a) i, [i]) else (o.ident c, [])))
      let leaves := fun (u : State) (ss : List (Bool × SReg)) (v : Word) (fl : Flags) =>
        ScalarWrite s u d ss v ∧ (∀ r, u.ws.getV r = if marked [a.mark la] r then 0 else s.ws.getV r) ∧ KeepsMCK s u ∧
        KeepsModes s u ∧ (∀ z : QReg, u.ws.q[z] = if a = .q z then s.ws.q[z].take else s.ws.q[z]) ∧
        u.ws.fcsr = s.ws.fcsr ||| fl.setWidth 14 ∧ u.core.srng = s.core.srng ∧ u.core.grng = s.core.grng ∧
        KeepsMemory s u ∧ KeepsSystem s u ∧ RetiredAt s u s.nextPc
      let gives := fun (i : Instr) (o : RedOp) => Quiet s (Raised.all (tree o).2) → ∃ u, exec i s = .next u ∧
        leaves u [] (cvtResult c (if o = .sum ∧ (List.range n).any act = false then 0 else (tree o).1.1)) (Raised.all (tree o).2)
      (Ready s a.q? none [d] →
        gives (.vredsum d a c la k) .sum ∧ gives (.vredmax d a c la k) .most ∧ gives (.vredmin d a c la k) .least) ∧
      (Ready s a.q? none [d, b] → ∃ u, exec (.vext e d a b la lb) s = .next u ∧
        leaves u [(lb, b)] (BitVec.ofNat 64 (laneOf e.bits (s.ws.srcV a) ((s.ws.getS b).toNat % (1024 / e.bits)))) 0))

/-- R296 to R298, R295: `vsetvl` sets `vl` to the lesser of s[A] and the lane count and writes it; `vrand` gives each active
lane, in increasing order, the value of the next draw of grng, and leaves the generator at the last; C names the kind, and no flag
is raised. -/
def Obligations.VectorControlForms : Prop :=
  ∀ (e : Width) (d a : SReg) (v : VReg) (la : Bool) (k : Mask) (s : State),
    let n := min (s.ws.getS a).toNat (1024 / e.bits)
    let fills := fun (i : Instr) (w : Nat) (g : Word → Nat) =>
      let act := s.ws.active k (1024 / w)
      let draw := fun j => (grngDraws s.core.grng j).getLastD s.core.grng
      let before := fun i => ((List.range i).filter act).length
      ∃ u, exec i s = .next u ∧ u.core.grng = draw (before (1024 / w)) ∧
        (∀ r, r ≠ v → u.ws.getV r = s.ws.getV r) ∧
        (∀ j, j < 1024 / w → laneOf w (u.ws.getV v) j =
          if act j then g (draw (before j + 1)) % 2 ^ w else laneOf w (s.ws.getV v) j) ∧
        (∀ r, u.ws.getS r = s.ws.getS r) ∧ KeepsMCK s u ∧ KeepsModes s u ∧ u.ws.q = s.ws.q ∧ u.ws.fcsr = s.ws.fcsr ∧
        u.core.srng = s.core.srng ∧ KeepsMemory s u ∧ KeepsSystem s u ∧ RetiredAt s u s.nextPc
    (TokensFree s [a, d] → ∃ u, exec (.vsetvl e d a la) s = .next u ∧
      ScalarEffect (s.onWs (fun w => { w with vl := BitVec.ofNat 8 n })) u (.s d) (.s 0) [(la, a)] (BitVec.ofNat 64 n) 0
        s.core.srng) ∧
    fills (.vrandUnif e v k) e.bits (fun x => x.toNat % 2 ^ e.bits) ∧
    fills (.vrandGauss v k) 32 gaussOf ∧
    (∀ kind : Fin 32, decode (BitVec.ofNat 16 (0x8600 + 8 * v.val + e.code)) [0x0C00, BitVec.ofNat 16 (kind.val + 2048 * maskG k)] =
      if kind.val = 0 then .ok (.vrandUnif e v k)
      else if kind.val = 1 ∧ e = .b32 then .ok (.vrandGauss v k)
      else .error .operand)

/-- R262, R292 to R294: a contiguous vector load whose active lanes all reach their bytes in one page (or in the scratchpad)
gives lane i the bytes at s[A] + i × w / 8; a store writes them there, but no margin byte unless the context is a supervisor
(R58). Inactive lanes keep their values and touch no byte. -/
def Obligations.VectorMemoryForms : Prop :=
  ∀ (w : Width) (d : VReg) (a : SReg) (la : Bool) (k : Mask) (e : TlbEntry) (s : State), TokensFree s [a] → Sound s →
    RingsOff s → Settled s → Memory.wf s.mem = true → Memory.wf s.core.pad = true → NoAcquire s →
    let n := w.bits / 8
    let act := s.ws.active k (1024 / w.bits)
    let va := fun i => s.ws.getS a + BitVec.ofNat 64 (i * n)
    let loads := fun (i : Instr) (bytes : Nat → List Byte) =>
      ∃ u, exec i s = .next u ∧ (∀ r, r ≠ d → u.ws.getV r = s.ws.getV r) ∧
        (∀ j, j < 1024 / w.bits → laneOf w.bits (u.ws.getV d) j =
          if act j then ofBytes (bytes j) else laneOf w.bits (s.ws.getV d) j) ∧
        ScalarWrite s u 0 [(la, a)] 0 ∧ KeepsMCK s u ∧ KeepsModes s u ∧ KeepsQF s u ∧ KeepsSlots s u ∧ KeepsBytes s u ∧
        RetiredAt s u s.nextPc
    ((∀ j, j < 1024 / w.bits → act j = true → Reaches s .load (va j) n e ∧ HeldUnder s (e.place (va j).toNat) n) →
      loads (.vld w d a la k) (fun j => readLocs s.mem (keysAt e (va j) n))) ∧
    ((∀ j, j < 1024 / w.bits → act j = true → ReachesLocal s (va j) n false) →
      loads (.vldl w d a la k) (fun j => localBytes s (va j).toNat n)) ∧
    ((∀ j, j < 1024 / w.bits → act j = true → Reaches s .store (va j) n e ∧ HeldUnder s (e.place (va j).toNat) n) →
      ∃ u, exec (.vst w d a la k) s = .next u ∧ Writes s u 0 [(la, a)] 0 ∧
        (∀ j, j < 1024 / w.bits → act j = true → readLocs u.mem (keysAt e (va j) n) = toBytes n (laneOf w.bits (s.ws.getV d) j)) ∧
        (∀ x, (∀ j, j < 1024 / w.bits → act j = true → x ∉ keysAt e (va j) n) → readByte u.mem x = readByte s.mem x) ∧
        (∀ o, readByte u.core.pad o = readByte s.core.pad o)) ∧
    ((∀ j, j < 1024 / w.bits → act j = true → ReachesLocal s (va j) n true) →
      ∃ u, exec (.vstl w d a la k) s = .next u ∧ Writes s u 0 [(la, a)] 0 ∧
        (∀ j, j < 1024 / w.bits → act j = true → ∀ i, i < n → readByte u.core.pad ((va j).toNat + i) =
          if s.sup || s.core.inAlloc ((va j).toNat + i) then (toBytes n (laneOf w.bits (s.ws.getV d) j)).getD i 0
          else readByte s.core.pad ((va j).toNat + i)) ∧
        (∀ o, (∀ j, j < 1024 / w.bits → act j = true → o < (va j).toNat ∨ (va j).toNat + n ≤ o) →
          readByte u.core.pad o = readByte s.core.pad o) ∧
        (∀ x, readByte u.mem x = readByte s.mem x))

/-- R218, R262, R292 to R294: a strided or indexed form takes its active lanes in increasing order, lane i at s[A] + i × s[B], or at
s[A] + (index i << C) with the index sign-extended; with a valid progress word it goes on at the lane that the word names, and the
lanes below it are not accessed again. Here the lanes reach bytes of one page of any kind, cached or not, or the scratchpad, whose
margin bytes only a supervisor writes (R58); a byte that several lanes store to takes the last one's. -/
def Obligations.ListedMemoryForms : Prop :=
  ∀ (w : Width) (d b : VReg) (a q : SReg) (c : Fin 4) (la lb : Bool) (k : Mask) (e : TlbEntry) (s : State),
    TokensFree s [a] → TokensFree s [a, q] → Sound s → RingsOff s → Settled s → Memory.wf s.mem = true → Memory.wf s.core.pad = true →
    let n := w.bits / 8
    let N := 1024 / w.bits
    let act := fun i => s.ws.active k N i && decide (s.ws.prog.getLsbD 8 = true → fld s.ws.prog 7 0 ≤ i)
    let stride := fun i => s.ws.getS a + BitVec.ofNat 64 i * s.ws.getS q
    let index := fun i => s.ws.getS a + BitVec.ofInt 64 (signExt w.bits (laneOf w.bits (s.ws.getV b) i) * 2 ^ c.val)
    let frame := fun (u : State) (ss : List (Bool × SReg)) =>
      ScalarWrite s u 0 ss 0 ∧ KeepsMCK s u ∧ KeepsModes s u ∧ KeepsQF s u ∧ KeepsSlots s u ∧ RetiredAt s u s.nextPc
    let loads := fun (i : Instr) (va : Nat → Word) (vs : List (Bool × VReg)) (ss : List (Bool × SReg)) =>
      (∀ j, j < N → act j = true → Reaches s .load (va j) n e ∧ HeldUnder s (e.place (va j).toNat) n) →
      ∃ u, exec i s = .next u ∧ frame u ss ∧ KeepsBytes s u ∧
        (∀ r, r ≠ d → u.ws.getV r = if marked vs r then 0 else s.ws.getV r) ∧
        (∀ j, j < N → laneOf w.bits (u.ws.getV d) j =
          if act j then ofBytes (readLocs s.mem (keysAt e (va j) n)) else laneOf w.bits (s.ws.getV d) j)
    let stores := fun (i : Instr) (va : Nat → Word) (vs : List (Bool × VReg)) (ss : List (Bool × SReg)) =>
      (∀ j, j < N → act j = true → Reaches s .store (va j) n e ∧ HeldUnder s (e.place (va j).toNat) n) →
      ∃ u, exec i s = .next u ∧ frame u ss ∧ (∀ r, u.ws.getV r = if marked vs r then 0 else s.ws.getV r) ∧
        (∀ j, j < N → act j = true →
          (∀ m, j < m → m < N → act m = true → ∀ x ∈ keysAt e (va j) n, x ∉ keysAt e (va m) n) →
          readLocs u.mem (keysAt e (va j) n) = toBytes n (laneOf w.bits (s.ws.getV d) j)) ∧
        (∀ x, (∀ j, j < N → act j = true → x ∉ keysAt e (va j) n) → readByte u.mem x = readByte s.mem x) ∧
        (∀ o, readByte u.core.pad o = readByte s.core.pad o)
    loads (.vlds w d a q la lb k) stride [] [(la, a), (lb, q)] ∧
    loads (.vgather w d a b c la lb k) index [(lb, b)] [(la, a)] ∧
    stores (.vsts w d a q la lb k) stride [] [(la, a), (lb, q)] ∧
    stores (.vscatter w d a b c la lb k) index [(lb, b)] [(la, a)] ∧
    ((∀ j, j < N → act j = true → ReachesLocal s (index j) n false) →
      ∃ u, exec (.vgatherl w d a b c la lb k) s = .next u ∧ frame u [(la, a)] ∧ KeepsBytes s u ∧
        (∀ r, r ≠ d → u.ws.getV r = if marked [(lb, b)] r then 0 else s.ws.getV r) ∧
        (∀ j, j < N → laneOf w.bits (u.ws.getV d) j =
          if act j then ofBytes (localBytes s (index j).toNat n) else laneOf w.bits (s.ws.getV d) j)) ∧
    ((∀ j, j < N → act j = true → ReachesLocal s (index j) n true) →
      ∃ u, exec (.vscatterl w d a b c la lb k) s = .next u ∧ frame u [(la, a)] ∧
        (∀ r, u.ws.getV r = if marked [(lb, b)] r then 0 else s.ws.getV r) ∧
        (∀ j, j < N → act j = true →
          (∀ m, j < m → m < N → act m = true → (index j).toNat + n ≤ (index m).toNat ∨ (index m).toNat + n ≤ (index j).toNat) →
          ∀ i, i < n → readByte u.core.pad ((index j).toNat + i) =
            if s.sup || s.core.inAlloc ((index j).toNat + i) then (toBytes n (laneOf w.bits (s.ws.getV d) j)).getD i 0
            else readByte s.core.pad ((index j).toNat + i)) ∧
        (∀ o, (∀ j, j < N → act j = true → o < (index j).toNat ∨ (index j).toNat + n ≤ o) →
          readByte u.core.pad o = readByte s.core.pad o) ∧
        (∀ x, readByte u.mem x = readByte s.mem x))

/-! ## Moments (spec/11 R299 to R316) -/

/-- R299 to R311: a moment form takes the active lanes of its operands with variances of -0 as +0, computes each lane by its
steps under the assumption of mcr.CA, and sets the flags raised. A variance that is negative or NaN, of an operand or a
result, reads as +0 and sets mcr.NV when mcr.NVC is set. With NVC clear it takes MOMENT_NEG, whose detail holds the lanes of the first
operand that has one and that operand's place, 1 to 3; where the operands have none, the lanes of the result and place 0, with the
flags of every lane set. -/
def Obligations.MomentForms : Prop :=
  ∀ (d a b c : MReg) (r : SReg) (la lb lc : Bool) (k : Mask) (s : State),
    let w := s.ws
    let act := w.lanes k 32
    let x := w.mlane a
    let y := w.mlane b
    let gives := fun (i : Instr) (ops : List MReg) (ms : List (Bool × MReg)) (ss : List (Bool × SReg)) (f : Nat → MM MLane) =>
      let run := fun j => (do let v ← f j; pure (v.1, ← mRes v.2) : MM MLane) (MAcc.mk 0 false)
      let hit := fun (o : MReg) => act.filter (fun j => varCond (w.rawLane o j).2)
      let badIn := ops.any (fun o => act.any (fun j => varCond (w.rawLane o j).2))
      let badOut := act.any (fun j => (run j).2.neg)
      let fl := laneFlags (w.active k 32) 32 (fun j => (0, (run j).2.fl))
      (badIn = false ∧ badOut = false ∨ w.nvc = true → Quiet s fl → ∃ u, exec i s = .next u ∧
        MomentEffect s u d (w.withLanes d (act.map (fun j => (j, (run j).1)))) fl (badIn || badOut) ms ss) ∧
      (w.nvc = false → ∀ p o, ops[p]? = some o → hit o ≠ [] → (∀ q z, q < p → ops[q]? = some z → hit z = []) →
        exec i s = .next (s.trap (Trap.mk0 0x0B 0 0 (BitVec.ofNat 64 (lanesMask (hit o) + (p + 1) * 4294967296))))) ∧
      (w.nvc = false → badIn = false → badOut = true → exec i s = .next ((s.onWs (fun w => w.setFlags fl)).trap
        (Trap.mk0 0x0B 0 0 (BitVec.ofNat 64 (lanesMask (act.filter (fun j => (run j).2.neg)))))))
    let scale := fld (w.getS r) 31 0
    gives (.madd d a b la lb k) [a, b] [(la, a), (lb, b)] [] (fun j => laneAdd w.ca true (x j) (y j)) ∧
    gives (.msub d a b la lb k) [a, b] [(la, a), (lb, b)] [] (fun j => laneAdd w.ca false (x j) (y j)) ∧
    gives (.mmul d a b la lb k) [a, b] [(la, a), (lb, b)] [] (fun j => laneMul w.ca (x j) (y j)) ∧
    gives (.mmax d a b la lb k) [a, b] [(la, a), (lb, b)] [] (fun j => laneMax w.ca (x j) (y j)) ∧
    gives (.mfma d a b c la lb lc k) [a, b, c] [(la, a), (lb, b), (lc, c)] []
      (fun j => laneFma w.ca (x j) (y j) (w.mlane c j)) ∧
    gives (.mrelu d a la k) [a] [(la, a)] [] (fun j => laneRelu (x j)) ∧
    gives (.mexp d a la k) [a] [(la, a)] [] (fun j => laneExp (x j)) ∧
    gives (.msigm d a la k) [a] [(la, a)] [] (fun j => laneSigm (x j)) ∧
    gives (.mtanh d a la k) [a] [(la, a)] [] (fun j => laneTanh (x j)) ∧
    (TokensFree s [r] →
      gives (.mscale d a r la lb k) [a] [(la, a)] [(lb, r)] (fun j => do
        let m ← mMul scale (x j).1
        pure (m, ← mMul (← mMul scale scale) (x j).2)) ∧
      gives (.mshift d a r la lb k) [a] [(la, a)] [(lb, r)] (fun j => do pure (← mAdd (x j).1 scale, (x j).2)))

/-- R312 to R316: packing to and from BF16 pairs, the sum of the lanes by a fixed tree, collapsing to FP32 lanes, the mask of
lanes that hold a bad variance, and the control word, whose NV bit a write only clears. -/
def Obligations.MomentMoves : Prop :=
  ∀ (rm : RM) (d a : MReg) (v : VReg) (b r : SReg) (c : Fin 5) (la lb : Bool) (k : Mask) (s : State),
    let w := s.ws
    let act := w.lanes k 32
    let bad := act.any (fun j => varCond (w.rawLane a j).2)
    let sto := decide (w.rm rm = .sto)
    let packs := packLanes (w.rm rm) w.satf (w.mlane a) act (if sto then srngDraws s.core.srng (2 * act.length) else [])
    let gauss := if c = 4 then grngDraws s.core.grng act.length else []
    let falls := collapseLanes c.val (fld (w.getS b) 31 0) (w.mlane a) act gauss
    let tree := mredTree w.ca 5 ((List.range 32).map (fun i => if w.active k 32 i then w.mlane a i else (negZero, 0))) (MAcc.mk 0 false)
    let lanes := fun (u : State) (l : List (Nat × Nat × Flags)) => ∀ j, j < 32 → laneOf 32 (u.ws.getV v) j =
      match l.find? (fun x => x.1 == j) with
      | some x => x.2.1 % 2 ^ 32
      | none => laneOf 32 (w.getV v) j
    let frame := fun (u : State) (fl : Flags) => (∀ z, z ≠ v → u.ws.getV z = w.getV z) ∧
      (∀ z, u.ws.getM z = if la ∧ z = a then 0 else w.getM z) ∧ (∀ z, u.ws.getC z = w.getC z) ∧ (∀ z, u.ws.getK z = w.getK z) ∧
      u.ws.tsw = w.tsw ∧ u.ws.atp = w.atp ∧ u.ws.vl = w.vl ∧ u.ws.cvm = w.cvm ∧ u.ws.q = w.q ∧
      u.ws.mcr = (if bad then w.mcr ||| 8 else w.mcr) ∧ u.ws.fcsr = w.fcsr ||| fl.setWidth 14 ∧
      KeepsMemory s u ∧ KeepsSystem s u ∧ RetiredAt s u s.nextPc
    (bad = false ∨ w.nvc = true → Quiet s (Raised.all (raisedOf packs)) → ∃ u, exec (.mpack rm v a la k) s = .next u ∧
      lanes u packs ∧ frame u (Raised.all (raisedOf packs)) ∧ (∀ z, u.ws.getS z = w.getS z) ∧
      u.core.srng = (if sto then (srngDraws s.core.srng (2 * act.length)).getLastD s.core.srng else s.core.srng) ∧
      u.core.grng = s.core.grng) ∧
    (TokensFree s [b] → bad = false ∨ w.nvc = true → Quiet s (Raised.all (raisedOf falls)) →
      ∃ u, exec (.mcollapse v a b c la lb k) s = .next u ∧ lanes u falls ∧ frame u (Raised.all (raisedOf falls)) ∧
      (∀ z, u.ws.getS z = if marked [(lb, b)] z then 0 else w.getS z) ∧ u.core.srng = s.core.srng ∧
      u.core.grng = gauss.getLastD s.core.grng) ∧
    (∃ u, exec (.munpack d v la k) s = .next u ∧ (∀ z, u.ws.getV z = if la ∧ z = v then 0 else w.getV z) ∧
      (∀ z, u.ws.getM z = if z = d then w.withLanes d (act.map (fun j =>
        (j, widenHalf (laneOf 16 (w.getV v) (2 * j)), widenHalf (laneOf 16 (w.getV v) (2 * j + 1))))) else w.getM z) ∧
      (∀ z, u.ws.getS z = w.getS z) ∧ (∀ z, u.ws.getC z = w.getC z) ∧ (∀ z, u.ws.getK z = w.getK z) ∧ KeepsModes s u ∧
      KeepsQF s u ∧ KeepsMemory s u ∧ KeepsSystem s u ∧ RetiredAt s u s.nextPc) ∧
    ((bad = false ∧ tree.2.neg = false) ∨ w.nvc = true → Quiet s tree.2.fl → ∃ u, exec (.mredsum d a la k) s = .next u ∧
      MomentEffect s u d (w.withLanes d [(0, if act = [] then (0, 0) else tree.1)]) tree.2.fl (bad || tree.2.neg) [(la, a)] []) ∧
    (TokensFree s [r] → ∃ u, exec (.mcheck r a la k) s = .next u ∧
      ScalarWrite s u r [] (BitVec.ofNat 64 (lanesMask (act.filter (fun j => varCond (w.rawLane a j).2)))) ∧
      (∀ z, u.ws.getM z = if la ∧ z = a then 0 else w.getM z) ∧ (∀ z, u.ws.getV z = w.getV z) ∧
      (∀ z, u.ws.getC z = w.getC z) ∧ (∀ z, u.ws.getK z = w.getK z) ∧ KeepsModes s u ∧ KeepsQF s u ∧ KeepsMemory s u ∧
      KeepsSystem s u ∧ RetiredAt s u s.nextPc) ∧
    (TokensFree s [b, r] → ∃ u, exec (.mmode r b la k) s = .next u ∧
      ScalarEffect (s.onWs (fun x => { x with
        mcr := BitVec.ofNat 16 (fld (w.getS b) 2 0 + (if (w.getS b).getLsbD 3 then 0 else bit01 (w.mcr.getLsbD 3) * 8)) })) u
        (.s r) (.s 0) [(la, b)] (w.mcr.setWidth 64) 0 s.core.srng)

/-- R293, R294, R312: `mld` and `mldl` read the mean and the variance of active lane i from the eight bytes at s[A] + 8 i,
`mst` and `mstl` write them there, `mstl` no margin byte unless the context is a supervisor (R58); no other byte changes. -/
def Obligations.MomentMemoryForms : Prop :=
  ∀ (d : MReg) (a : SReg) (la : Bool) (k : Mask) (e : TlbEntry) (s : State), TokensFree s [a] → Sound s →
    RingsOff s → Settled s → Memory.wf s.mem = true → Memory.wf s.core.pad = true → NoAcquire s →
    let act := s.ws.active k 32
    let va := fun i => s.ws.getS a + BitVec.ofNat 64 (i * 8)
    let loads := fun (i : Instr) (bytes : Nat → List Byte) =>
      ∃ u, exec i s = .next u ∧ (∀ r, u.ws.getM r = if r = d then s.ws.withLanes d ((s.ws.lanes k 32).map (fun j =>
          (j, ofBytes (bytes j) % 2 ^ 32, ofBytes (bytes j) / 2 ^ 32))) else s.ws.getM r) ∧
        ScalarWrite s u 0 [(la, a)] 0 ∧ (∀ r, u.ws.getV r = s.ws.getV r) ∧ (∀ r, u.ws.getC r = s.ws.getC r) ∧
        (∀ r, u.ws.getK r = s.ws.getK r) ∧ KeepsModes s u ∧ KeepsQF s u ∧ KeepsSlots s u ∧ KeepsBytes s u ∧
        RetiredAt s u s.nextPc
    ((∀ j, j < 32 → act j = true → Reaches s .load (va j) 8 e ∧ HeldUnder s (e.place (va j).toNat) 8) →
      loads (.mld d a la k) (fun j => readLocs s.mem (keysAt e (va j) 8))) ∧
    ((∀ j, j < 32 → act j = true → ReachesLocal s (va j) 8 false) →
      loads (.mldl d a la k) (fun j => localBytes s (va j).toNat 8)) ∧
    ((∀ j, j < 32 → act j = true → Reaches s .store (va j) 8 e ∧ HeldUnder s (e.place (va j).toNat) 8) →
      ∃ u, exec (.mst d a la k) s = .next u ∧ Writes s u 0 [(la, a)] 0 ∧
        (∀ j, j < 32 → act j = true → readLocs u.mem (keysAt e (va j) 8) = toBytes 8 (laneOf 64 (s.ws.getM d) j)) ∧
        (∀ x, (∀ j, j < 32 → act j = true → x ∉ keysAt e (va j) 8) → readByte u.mem x = readByte s.mem x) ∧
        (∀ o, readByte u.core.pad o = readByte s.core.pad o)) ∧
    ((∀ j, j < 32 → act j = true → ReachesLocal s (va j) 8 true) →
      ∃ u, exec (.mstl d a la k) s = .next u ∧ Writes s u 0 [(la, a)] 0 ∧
        (∀ j, j < 32 → act j = true → ∀ i, i < 8 → readByte u.core.pad ((va j).toNat + i) =
          if s.sup || s.core.inAlloc ((va j).toNat + i) then (toBytes 8 (laneOf 64 (s.ws.getM d) j)).getD i 0
          else readByte s.core.pad ((va j).toNat + i)) ∧
        (∀ o, (∀ j, j < 32 → act j = true → o < (va j).toNat ∨ (va j).toNat + 8 ≤ o) →
          readByte u.core.pad o = readByte s.core.pad o) ∧
        (∀ x, readByte u.mem x = readByte s.mem x))

/-! ## Streams and copies (spec/12 R317 to R336) -/

/-- R319, R320, R323, R324, R325: `sbind` binds a sound descriptor with nothing taken or written yet, `sunbind` leaves the stream
unbound, `sstat` reports a stream; a descriptor that fails its checks leaves the stream unbound and is ILLEGAL with reason
OPERAND, and a booked task may bind only a local one. While the stream's own writes are still to be made a free task waits. A
`sunbind` observes the completions of the stream, that of a store stream's own writes among them: their largest visibility times
enter what an `xfence` of their path waits for. That a bind which is ILLEGAL leaves the stream unbound while one that a booked task
may not make leaves the old binding is the model's reading (log 71). -/
def Obligations.StreamForms : Prop :=
  ∀ (d : Fin 8) (a : Grp) (r : SReg) (la : Bool) (s : State),
    let w := fun j => s.ws.getS (grpReg a j)
    let q : Machine.Stream := { bound := true, w0 := w 0, w1 := w 1, w2 := w 2, w3 := w 3, pos := 0, done := 0, queue := [],
                                parked := false, after := true, pend := 0, vt := 0, touched := false }
    let old := s.ws.q[d]
    let free := s.unbind d
    let seen := s.streamObserved d
    let report := EngineReport.stream s.core.res.wp d
    let ended := s.slot.done.filter (fun e => e.report == report) ++
      (if old.dir then [({ path := 0, report := report, vt := old.vt } : EngineDone)] else [])
    let frame := fun (free u : State) (ks : List (Bool × SReg)) (new : Machine.Stream) =>
      ScalarWrite s u 0 ks 0 ∧ (∀ z : QReg, u.ws.q[z] = if z = d then new else s.ws.q[z]) ∧ (∀ z, u.ws.getV z = s.ws.getV z) ∧
      KeepsMCK s u ∧ KeepsModes s u ∧ u.ws.fcsr = s.ws.fcsr ∧ u.core.srng = s.core.srng ∧ u.core.grng = s.core.grng ∧
      KeepsMemory s u ∧ KeepsSystem free u ∧ RetiredAt s u s.nextPc
    ((∀ z : QReg, free.ws.q[z] = if z = d then Stream.unbound else s.ws.q[z]) ∧
      (∀ i, free.core.slot i = s.core.slot i) ∧
      (∀ p : Fin 4, seen.slot.engV[p] = (ended.filter (fun e => e.path == p)).foldl (fun m e => max m e.vt) s.slot.engV[p]) ∧
      seen.slot.done = s.slot.done.filter (fun e => e.report != report) ∧
      { seen.slot with engV := s.slot.engV, done := s.slot.done } = s.slot) ∧
    (TokensFree s (grpRegs a) → NoAcquire s → old.draining = false →
      (streamOk (w 0) (w 1) (w 2) (w 3) = true → s.booked = false ∨ (w 0).getLsbD 1 = true →
        (w 0).getLsbD 1 = false ∨ free.heldCount < 32 →
        ∃ u, exec (.sbind d a la) s = .next u ∧ frame free u [(la, grpReg a 0)] q ∧ u.core.bindPc s.core.res.wp d = s.ws.pc) ∧
      (streamOk (w 0) (w 1) (w 2) (w 3) = false → exec (.sbind d a la) s = .next (free.trap (illegalTrap s))) ∧
      (streamOk (w 0) (w 1) (w 2) (w 3) = true → s.booked = true → (w 0).getLsbD 1 = false →
        exec (.sbind d a la) s = .next (s.trap (Trap.mk0 0x11 0 0 1)))) ∧
    (old.draining = false → ∃ u, exec (.sunbind d) s = .next u ∧ frame (seen.unbind d) u [] Stream.unbound) ∧
    (old.draining = true → s.booked = false →
      exec (.sunbind d) s = .next ((s.postOnce (.streamStoreWrite s.cn d)).waitHere 0x25) ∧
      (TokensFree s (grpRegs a) → NoAcquire s →
        exec (.sbind d a la) s = .next ((s.postOnce (.streamStoreWrite s.cn d)).waitHere 0x25))) ∧
    (TokensFree s [r] → ∃ u, exec (.sstat r d) s = .next u ∧
      ScalarEffect s u (.s r) (.s 0) [] (s.ws.q[d]).word 0 s.core.srng)

/-- R61, R326, R327, R330, R331, R334, R336: a copy with room in the FIFO of 16 and among the 32 held ranges joins the core's
commands with its words, task and pc; a malformed one, or one that leaves the scratchpad, joins them ended with its reason, and with
the offset that leaves it as the address of its fault (log 114, the model's reading). A booked task needs a COPYBW claim, and for a
global endpoint an HBM claim or one on a near vault; that an endpoint in HBM without an HBM claim is refused where the translation of
its first byte shows it is the model's reading (log 100). `cpy.nb` writes 0, or 1 when the FIFO is
full, where `cpy` makes a free task wait; `cpq` reports free places, commands and orphans, which only a supervisor may clear; the
clear keeps the orphans counted in its own cycle (R7). -/
def Obligations.CopyForms : Prop :=
  ∀ (d r : SReg) (a : Grp) (la : Bool) (s : State),
    let k := s.captureCopy a
    let fault := if s.malformed k then some 0x24 else if cpyOutside k then some 0x08 else none
    let k' : CopyCmd := { k with
      fault := fault, started := fault.isSome,
      faddr := if fault = some 0x08 then (if cpySrcOutside k then k.w1 else k.w2) else 0 }
    let fits := s.core.fifo.length < 16 ∧ (cpyMode k ≠ 1 ∨ s.core.tokenPending (fin32 (cpyToken k)) = false) ∧
      (fault ≠ none ∨ s.heldCount + bit01 k.srcLocal + bit01 k.dstLocal ≤ 32)
    let joins := fun (u : State) => u.core.copies = s.core.copies ++ [k'] ∧ u.slot.outCopies = s.slot.outCopies + 1
    let allowed := NoAcquire s ∧ (s.booked = false ∨ s.holdsClaim 4 none = true ∧
      (s.holdsClaim 9 none = true ∨ s.endsInHbm k = false ∧
        (cpyGlobal k = false ∨ ∃ v ∈ nearVaults s.cn, s.holdsClaim 8 (some v) = true)))
    let unclaimed := s.trap (Trap.mk0 0x11 0 0 3)
    let word := BitVec.ofNat 64 (16 - min 16 s.core.fifo.length + min s.core.copies.length 255 * 256 + s.core.orphan * 65536)
    (TokensFree s (grpRegs a) → allowed → fits → ∃ u, exec (.cpy a la) s = .next u ∧
      Writes s u 0 [(la, grpReg a 0)] 0 ∧ KeepsBytes s u ∧ joins u) ∧
    (TokensFree s (d :: grpRegs a) → allowed → fits → ∃ u, exec (.cpyNb d a la) s = .next u ∧
      Writes s u d [(la, grpReg a 0)] 0 ∧ KeepsBytes s u ∧ joins u) ∧
    (TokensFree s (d :: grpRegs a) → allowed → 16 ≤ s.core.fifo.length → ∃ u, exec (.cpyNb d a la) s = .next u ∧
      Writes s u d [(la, grpReg a 0)] 1 ∧ KeepsBytes s u ∧ u.core.copies = s.core.copies) ∧
    (TokensFree s (grpRegs a) → NoAcquire s → s.booked = false → 16 ≤ s.core.fifo.length →
      exec (.cpy a la) s = .next (s.waitHere 0x28)) ∧
    (TokensFree s (grpRegs a) → NoAcquire s → s.booked = true → s.holdsClaim 4 none = false →
      exec (.cpy a la) s = .next unclaimed) ∧
    (TokensFree s (d :: grpRegs a) → NoAcquire s → s.booked = true → s.holdsClaim 9 none = false → s.endsInHbm k = true →
      TokensFree s (grpRegs a) → exec (.cpy a la) s = .next unclaimed ∧ exec (.cpyNb d a la) s = .next unclaimed) ∧
    (TokensFree s [r] → TokensFree s [d] → (s.ws.getS r).getLsbD 0 = false ∨ s.sup = true → ∃ u, exec (.cpq d r la) s = .next u ∧
      Writes s u d [(la, r)] word ∧ KeepsBytes s u ∧
      u.core.orphan = if (s.ws.getS r).getLsbD 0 then s.core.freshAt 0 s.pkg.ptime else s.core.orphan) ∧
    (TokensFree s [r] → (s.ws.getS r).getLsbD 0 = true → s.sup = false →
      exec (.cpq d r la) s = .next (s.trap (Trap.mk0 0x03 0 0 0)))

/-! ## Windows, puts, barriers and messages (spec/12 R350 to R355, spec/13 R357 to R371) -/

/-- R23, R24, R351, R352, R354, R355: a window is registered in the lowest free entry and its handle names core, entry, serial and
kind; the failures come in the order RANGE or alignment, page, full. `wunreg` and `wexp` act on the core's own live handles;
a live handle of any core is read by `wcnt` and `wwait`, which like `wcnt.src` first take a pending WINDOW fault; `wcnt.src` observes the
puts that CMP counts (R112). -/
def Obligations.WindowForms : Prop :=
  ∀ (d a b : SReg) (la lb : Bool) (e : TlbEntry) (s : State),
    let h := s.ws.getS a
    let x := s.ws.getS b
    let ks := [(la, a), (lb, b)]
    let mine := hOwner h = s.cn ∧ s.handleLive h = true
    let entry := s.winEntry s.cn (hIndex h)
    let set := fun (f : WinEntry → WinEntry) => s.onWin s.cn (hIndex h) f
    let len := fld x 23 0
    let fails := fun (t : State) (n : Nat) => Retires (.wreg d a b la lb) s t d ks (BitVec.ofNat 64 (0xFFFFFFFE00000000 + n))
    let aligned := h.toNat % 64 = 0 ∧ len % 64 = 0
    let registers := fun (t : State) (vault : Bool) (base : Nat) (p : Option Place) =>
      (t.core.freeWin = none → fails t 1) ∧
      ∀ i, t.core.freeWin = some i →
        let serial := (t.winEntry t.cn i).serial + 1
        Retires (.wreg d a b la lb) s
          (t.onWin t.cn i (fun _ => WinEntry.mk true vault base p len t.vfn t.core.cur serial 0 0 0 false)) d ks
          (BitVec.ofNat 64 (s.cn + i * 2048 + serial.toNat * 65536 + bit01 vault * 4294967296))
    let n := x.toNat
    let need := entry.pend + (n - min n entry.early)
    let hit := s.ws.atp.getLsbD 63 = true ∧ s.core.tlb.find? (fun y => y.covers s.ws.vfn (h.toNat / 65536)) = some e ∧
      s.leafCheck s.ws.vfn (!s.ws.sup) noNeed e = none
    let plain := e.kind = 1 ∧ e.dev = false ∧ e.rd = true ∧ e.wr = true ∧
      h.toNat - e.vbase * 65536 + len ≤ pageFrames e.size * 65536
    (TokensFree s [d, a, b] →
      (¬ aligned → fails s 3) ∧
      (aligned → x.getLsbD 24 = false → (len < 64 ∨ 196608 < len ∨ 196608 < h.toNat + len) → fails s 2) ∧
      (aligned → x.getLsbD 24 = false → ¬ (len < 64 ∨ 196608 < len ∨ 196608 < h.toNat + len) → registers s false h.toNat none) ∧
      (aligned → x.getLsbD 24 = true → len = 0 → fails s 2) ∧
      (aligned → x.getLsbD 24 = true → len ≠ 0 → 2 ^ 55 ≤ h.toNat →
        exec (.wreg d a b la lb) s = .next (s.trap (Trap.mk0 0x06 0x01 h 0))) ∧
      (aligned → x.getLsbD 24 = true → len ≠ 0 → h.toNat < 2 ^ 55 → hit →
        (¬ plain → fails (viaTlb s e) 4) ∧ (plain → registers (viaTlb s e) true 0 (some (e.place h.toNat)))) ∧
      (¬ mine → Retires (.wexp d a b la lb) s s d ks 2) ∧
      (mine → n = 0 → Retires (.wexp d a b la lb) s (set (fun y => y)) d ks 0) ∧
      (mine → n ≠ 0 → 16777215 < n ∨ 16777215 < need → Retires (.wexp d a b la lb) s s d ks 1) ∧
      (mine → n ≠ 0 → n ≤ 16777215 → need ≤ 16777215 → Retires (.wexp d a b la lb) s
        (set (fun y => { y with early := y.early - min n y.early, pend := need, epoch := (y.epoch + 1) % 16 })) d ks 0)) ∧
    (TokensFree s [d, a] →
      (mine → Retires (.wunreg d a la) s (set (fun y => { y with reg := false, serial := y.serial + 1 })) d [(la, a)] 0) ∧
      (¬ mine → Retires (.wunreg d a la) s s d [(la, a)] 1) ∧
      (s.sx.window = none →
        let y := s.winEntry (hOwner h) (hIndex h)
        Retires (.wcnt d a la) s s d [(la, a)] (if s.handleLive h then
          BitVec.ofNat 64 (y.pend + y.early * 2 ^ 24 + y.epoch * 2 ^ 48 + bit01 y.sat * 2 ^ 52 + bit01 y.reg * 2 ^ 53) else 0))) ∧
    (TokensFree s [d] → s.sx.window = none →
      Retires (.wcntSrc d) s (s.observe s.cn s.core.cur (fun e => e.report == .put)) d []
        (BitVec.ofNat 64 (s.slot.iss.toNat * 2 ^ 32 + s.slot.cmp.toNat))) ∧
    (TokensFree s [a] → s.sx.window = none →
      let waits := s.handleLive h = true ∧ (s.winEntry (hOwner h) (hIndex h)).pend ≠ 0
      (¬ waits → Retires (.wwait a la) s s 0 [(la, a)] 0) ∧
      (waits → s.booked = false → exec (.wwait a la) s = .next (s.waitHere 0x29))) ∧
    (∀ f, s.sx.window = some f →
      let t := (s.onSx (fun y => { y with window := none })).trap f.trap
      (TokensFree s [d, a] → exec (.wcnt d a la) s = .next t) ∧ (TokensFree s [d] → exec (.wcntSrc d) s = .next t) ∧
      (TokensFree s [a] → exec (.wwait a la) s = .next t))

/-- R353: a put with fewer than 64 of its slot's puts outstanding leaves with its handle, offset, length and source, and ISS counts
it; a handle that names no core, or whose reserved bits are not zero, sends nothing and leaves a WINDOW fault pending. A local
source outside the scratchpad is PROT, an immediate of more than 8 bytes is ILLEGAL; with 64 puts outstanding, or for a local source
with 32 ranges held, a free task waits. -/
def Obligations.PutForms : Prop :=
  ∀ (a b c : SReg) (la lb lc : Bool) (s : State), TokensFree s [a, b, c] → NoAcquire s →
    let h := s.ws.getS a
    let y := s.ws.getS b
    let x := s.ws.getS c
    let ks := [(la, a), (lb, b), (lc, c)]
    let len := fld y 39 24 + 1
    let put := fun (src : Option Nat) =>
      PutCmd.mk s.nextId s.core.cur s.sx.task.id h (fld y 23 0) len src x s.vfn (!s.sup) s.ws.pc
    let sends := fun (i : Instr) (src : Option Nat) =>
      (s.slot.iss - s.slot.cmp).toNat < 64 →
      (fld h 63 33 = 0 → s.corePresent (hOwner h) = true → ∃ u, exec i s = .next u ∧ Writes s u 0 ks 0 ∧ KeepsBytes s u ∧
        u.slot.iss = s.slot.iss + 1 ∧ u.core.puts = s.core.puts ++ [put src] ∧ u.sx.window = s.sx.window) ∧
      (fld h 63 33 ≠ 0 ∨ s.corePresent (hOwner h) = false → s.sx.window = none → ∃ u, exec i s = .next u ∧ Writes s u 0 ks 0 ∧
        KeepsBytes s u ∧ u.slot.iss = s.slot.iss + 1 ∧ u.core.puts = s.core.puts ∧
        u.sx.window.map (fun f => (f.cause, f.reason, f.pc)) = some (0x16, if fld h 63 33 ≠ 0 then 0x17 else 0x14, s.ws.pc))
    let waits := fun (i : Instr) => s.booked = false → exec i s = .next (s.waitHere 0x28)
    (fld x 17 0 + len ≤ 196608 → s.heldCount < 32 → sends (.put a b c la lb lc) (some (fld x 17 0))) ∧
    (fld x 17 0 + len ≤ 196608 → 64 ≤ (s.slot.iss - s.slot.cmp).toNat ∨ 32 ≤ s.heldCount → waits (.put a b c la lb lc)) ∧
    (len ≤ 8 → 64 ≤ (s.slot.iss - s.slot.cmp).toNat → waits (.putImm a b c la lb lc)) ∧
    (196608 < fld x 17 0 + len → exec (.put a b c la lb lc) s =
      .next (s.trap (Trap.mk0 0x06 0x08 (BitVec.ofNat 64 (fld x 17 0)) 0))) ∧
    (len ≤ 8 → sends (.putImm a b c la lb lc) none) ∧
    (8 < len → exec (.putImm a b c la lb lc) s = .next (s.trap (illegalTrap s)))

/-- R357 to R364: an arrival of a member that has not arrived enters the release queue and answers OK, and `barw` then waits with AP
set; the other answers are NOTMEMBER, AGAIN and FORCED, which uses SKIP up and reports the parity of the phase that was forced. A
`bwait` or `barw` that waits ends when the completion signal has reached the core, or takes TIMEOUT when one is signalled before;
joining waits until no member has arrived; leaving, time-outs and forced arrivals act as they say, the forms of `bforce` for root
only. A pending MARGIN trap with the first offset, the detail and the merged touches of its register, then a pending WINDOW fault, comes
first. In replay a TIMEOUT is taken only where it is recorded (R406). That `bforce` answers 2 for an arrival still queued or on its way,
and that forced arrivals are kept apart, is the model's reading (log 76). -/
def Obligations.BarrierForms : Prop :=
  ∀ (d a b : SReg) (la lb : Bool) (s : State),
    let x := s.ws.getS b
    let k := barOf (s.ws.getS a)
    let i := s.core.cur
    let member := s.isMember s.cn i k
    let made := s.hasArrived s.cn i k || s.slot.arrivalQueued k.val || s.pending.any (fun p => p.2 == .barrierArrival s.cn i k.val)
    let node := (s.cluster s.cl).node[k]
    let par := (s.bar s.dn k).par
    let word := fun (p : Bool) (n : Nat) => BitVec.ofNat 64 (bit01 p + n * 2)
    let ended := s.onSx (fun y => { y with timeout := none, waitBar := none })
    let unskipped := s.onNode s.cl k (fun m => { m with skip := m.skip &&& ~~~(nodeBit s.cn i) })
    let waiting := fun (t : State) (w : Bool) (n : Nat) =>
      (t.onSx (fun y => { y with waitBar := some (BarWait.mk k.val w n false) })).waitHere 0x11
    let other := fld x 12 2
    let j := fin4 (fld x 1 0)
    let known := dieOf other = s.dn ∧ s.isMember other j k = true
    let tmo := fld x 31 0
    let root := s.bar s.dn k
    let timed := s.onBar s.dn k (fun r => { r with tmo := tmo, next := 0 })
    let calm := s.sx.margin = 0 ∧ s.sx.window = none
    let free := s.booked = false ∧ s.recorded ≠ some 0x12
    let first := fun (ins : Instr) =>
      (s.sx.margin ≠ 0 → exec ins s = .next ((s.onSx (fun y => { y with margin := 0 })).trap (Imprecise.trap
        { cause := 0x0A, reason := 0, addr := BitVec.ofNat 64 (fld s.sx.margin 17 0),
          detail := s.sx.margin &&& 0x1FFFFFFFFF, pc := s.ws.pc, count := fld s.sx.margin 45 37 }))) ∧
      (s.sx.margin = 0 → ∀ f, s.sx.window = some f → exec ins s = .next ((s.onSx (fun y => { y with window := none })).trap f.trap))
    (TokensFree s [d, a] → first (.arrive d a la) ∧ first (.barw d a la) ∧ first (.bjoin d a la) ∧ first (.bjoinLeave d a la)) ∧
    (TokensFree s [d, a] → calm →
      (member = false → Retires (.arrive d a la) s s d [(la, a)] (word par 1)) ∧
      (member = true → made = true → Retires (.arrive d a la) s s d [(la, a)] (word par 2)) ∧
      (member = true → made = false → node.skip &&& nodeBit s.cn i ≠ 0 →
        Retires (.arrive d a la) s unskipped d [(la, a)] (word (if node.forced &&& nodeBit s.cn i = 0 then !par else par) 3)) ∧
      (member = true → made = false → node.skip &&& nodeBit s.cn i = 0 → s.slot.relq.length < 4 →
        Retires (.arrive d a la) s (queued s (.arrive k.val)) d [(la, a)] (word par 0)) ∧
      (∀ w, s.sx.waitBar = some w → w.signalled = true → s.sx.timeout = none →
        Retires (.barw d a la) s (ended.onWs (fun z => z.setTsw 2 2 0)) d [(la, a)] (word par w.status)) ∧
      (∀ w, s.sx.waitBar = some w → w.signalled = false → s.sx.timeout = none → free →
        exec (.barw d a la) s = .next (waiting s true w.status)) ∧
      (∀ w v, s.sx.waitBar = some w → s.sx.timeout = some v → s.timingTrap 0x12 = true →
        exec (.barw d a la) s = .next (ended.trap (Trap.mk0 0x12 0 0 v.1))) ∧
      (s.sx.waitBar = none → s.ws.ap = true →
        (made = false → Retires (.barw d a la) s (ended.onWs (fun z => z.setTsw 2 2 0)) d [(la, a)] (word par 0)) ∧
        (made = true → s.sx.timeout = none → free → exec (.barw d a la) s = .next (waiting s true 0))) ∧
      (s.sx.waitBar = none → s.ws.ap = false →
        (member = false → made = false →
          Retires (.barw d a la) s (ended.onWs (fun z => z.setTsw 2 2 0)) d [(la, a)] (word par 1)) ∧
        (member = true → made = false → node.skip &&& nodeBit s.cn i ≠ 0 → Retires (.barw d a la) s
          ((unskipped.onSx (fun y => { y with timeout := none, waitBar := none })).onWs (fun z => z.setTsw 2 2 0)) d [(la, a)]
          (word par 3)) ∧
        (member = true → made = false → node.skip &&& nodeBit s.cn i = 0 → s.slot.relq.length < 4 → s.sx.timeout = none →
          free → exec (.barw d a la) s =
            .next (waiting ((queued s (.arrive k.val)).onWs (fun z => z.setTsw 2 2 1)) true 0))) ∧
      (member = true → Retires (.bjoin d a la) s s d [(la, a)] 1) ∧
      (member = false → root.count ≠ 0 → s.booked = false → exec (.bjoin d a la) s = .next (s.waitHere 0x11)) ∧
      (member = false → root.count = 0 → Retires (.bjoin d a la) s
        ((s.onNode s.cl k (fun m => { m with member := m.member ||| nodeBit s.cn i })).onBar s.dn k
          (fun r => { r with expect := r.expect + 1 })) d [(la, a)] 0) ∧
      Retires (.bjoinLeave d a la) s (s.leaveBarrier s.cn i k) d [(la, a)] (if member then 0 else 1)) ∧
    (TokensFree s [a, b] → first (.bwait a b la lb) ∧
      (calm → s.sx.waitBar = none → (par ≠ x.getLsbD 0 → Retires (.bwait a b la lb) s ended 0 [(la, a), (lb, b)] 0) ∧
        (par = x.getLsbD 0 → s.sx.timeout = none → free → exec (.bwait a b la lb) s = .next (waiting s false 0))) ∧
      (calm → ∀ w, s.sx.waitBar = some w →
        (w.signalled = true → s.sx.timeout = none → Retires (.bwait a b la lb) s ended 0 [(la, a), (lb, b)] 0) ∧
        (w.signalled = false → s.sx.timeout = none → free → exec (.bwait a b la lb) s = .next (waiting s false 0)) ∧
        (∀ v, s.sx.timeout = some v → s.timingTrap 0x12 = true → exec (.bwait a b la lb) s = .next (ended.trap (Trap.mk0 0x12 0 0 v.1)))) ∧
      (root.count = 0 ∨ tmo = 0 → Retires (.btimeout a b la lb) s timed 0 [(la, a), (lb, b)] 0) ∧
      (root.count ≠ 0 → tmo ≠ 0 → Retires (.btimeout a b la lb) s
        (timed.armTimeout s.dn k (if tmo ≤ s.now - root.tstart then s.now + 1 else root.tstart + tmo)) 0 [(la, a), (lb, b)] 0)) ∧
    (s.root = false → exec (.bforce d a b la lb) s = .next (s.trap (Trap.mk0 0x03 0 0 0)) ∧
      exec (.bforceRemove d a b la lb) s = .next (s.trap (Trap.mk0 0x03 0 0 0))) ∧
    (s.root = true → TokensFree s [d, a, b] →
      (¬ known → Retires (.bforce d a b la lb) s s d [(la, a), (lb, b)] 1 ∧
        Retires (.bforceRemove d a b la lb) s s d [(la, a), (lb, b)] 1) ∧
      (known → s.arrivalMade other j k = true → Retires (.bforce d a b la lb) s s d [(la, a), (lb, b)] 2) ∧
      (known → s.arrivalMade other j k = false → Retires (.bforce d a b la lb) s
        ((s.onNode (clusterOf other) k (fun m => { m with
          forced := m.forced ||| nodeBit other j, skip := m.skip ||| nodeBit other j })).rootArrival s.dn k)
        d [(la, a), (lb, b)] 0) ∧
      (known → Retires (.bforceRemove d a b la lb) s (s.leaveBarrier other j k) d [(la, a), (lb, b)] 0))

/-- R118, R366, R368 to R371: a message that may be sent enters the release queue with its header's fields, or waits for room there; a
kind that may not be sent and an absent core give their status. `mrecv` takes the oldest message of an admitted kind that the context
may see, `mrecv.c` the oldest capability, `mwait` counts the matching ones; a free task waits where there is none. `wait` ends when
the counts are at or below its bounds, and a free task waits till then; it observes the completions of the copies or matrix commands
of which none is left (R112). The message log is off where a message is taken. -/
def Obligations.MessageForms : Prop :=
  ∀ (d a b : SReg) (p : Pair) (g : Grp) (c : CReg) (la lb : Bool) (w1 w2 w3 w4 : BitVec 4) (s : State),
    let t := s.ws.getS b
    let kind := fld t 15 12
    let msg := fun (k : Nat) (tag : BitVec 32) (x y entry : Word) =>
      Msg.mk k s.cn s.core.cur.val s.vfn false tag x y false entry
    let sends := fun (i : Instr) (e : SReg) (ks : List (Bool × SReg)) (target : Nat) (ok : Bool) (m : Msg) =>
      (ok = false → Retires i s s e ks 1) ∧
      (ok = true → s.corePresent target = false → Retires i s s e ks 2) ∧
      (ok = true → s.corePresent target = true → s.slot.relq.length < 4 → Retires i s (queued s (.message target m)) e ks 0) ∧
      (ok = true → s.corePresent target = true → 4 ≤ s.slot.relq.length → s.booked = false → exec i s = .next (s.waitHere 0x26))
    let free := s.booked = false ∨ s.slot.relq.any (fun e => e.refused) = false
    let mask := s.ws.getS a
    let admits := fun (k : Nat) => if fld mask 15 0 = 0 then k == 1 || k == 3 || k == 4 || k == 5 || decide (8 ≤ k)
      else mask.getLsbD k && k != 0 && k != 6 && k != 7 && k != 2
    let sees := fun (m : Msg) => s.root || (m.vfn == s.vfn && m.kind != 4)
    let header := fun (m : Msg) => BitVec.ofNat 64 (m.kind % 16 + m.src % 2048 * 2 ^ 4 + m.sctx % 4 * 2 ^ 15 + m.vfn % 64 * 2 ^ 17 +
      bit01 m.host * 2 ^ 23 + m.tag.toNat * 2 ^ 32)
    let takes := fun (i : Instr) (want : Nat → Bool) (writes : Msg → State → Prop) =>
      ((∀ x ∈ s.core.mbox, (want x.kind && sees x) = false) → s.booked = false → s.core.dbg.dctl.getLsbD 5 = false →
        exec i s = .next (s.waitHere 0x10)) ∧
      ∀ before m after, s.core.mbox = before ++ m :: after → (∀ x ∈ before, (want x.kind && sees x) = false) →
        (want m.kind && sees m) = true → ∃ u, exec i s = .next u ∧ u.core.mbox = before ++ after ∧ writes m u ∧
          (∀ r, u.ws.getV r = s.ws.getV r) ∧ (∀ r, u.ws.getM r = s.ws.getM r) ∧ (∀ r, u.ws.getK r = s.ws.getK r) ∧
          KeepsModes s u ∧ KeepsQF s u ∧ KeepsSlots s u ∧ KeepsBytes s u ∧ RetiredAt s u s.nextPc
    let x := s.slot
    let low := fun (n : Nat) (z : BitVec 4) => z = 15 ∨ n ≤ z.toNat
    let counted := low x.outLoads w1 ∧ low x.outStores w2 ∧ low x.outCopies w3 ∧ low x.outMatrix w4
    (TokensFree s [d, pairReg p 0, pairReg p 1, b] → free →
      sends (.msend d p b la lb) d [(la, pairReg p 0), (lb, b)] (fld t 10 0) (kind == 1 || kind == 5 || decide (8 ≤ kind))
        (msg kind (t.extractLsb' 32 32) (s.ws.getS (pairReg p 0)) (s.ws.getS (pairReg p 1)) 0)) ∧
    (TokensFree s (d :: grpRegs g) → free →
      sends (.amsg d g la) d [(la, grpReg g 0)] (fld (s.ws.getS (grpReg g 0)) 10 0) true
        (msg 6 0 (s.ws.getS (grpReg g 2)) (s.ws.getS (grpReg g 3)) (s.ws.getS (grpReg g 1)))) ∧
    (TokensFree s (a :: grpRegs g) → RingsOff s →
      takes (.mrecv g a la) admits (fun m u => (∀ r, u.ws.getC r = s.ws.getC r) ∧ (∀ r, u.ws.getS r =
        if r = grpReg g 0 then m.w0 else if r = grpReg g 1 then m.w1 else if r = grpReg g 2 then header m
        else if la && decide (r = a) then 0 else s.ws.getS r))) ∧
    (TokensFree s [a] → RingsOff s →
      takes (.mrecvC c a) (fun k => k == 2) (fun m u => (∀ r, u.ws.getC r = if r = c then Cap.mk (m.w1 ++ m.w0) m.captag else s.ws.getC r) ∧
        (∀ r, u.ws.getS r = if r = a ∧ r ≠ 0 then header m else s.ws.getS r))) ∧
    (TokensFree s [d, a] →
      let n := (s.core.mbox.filter (fun m => (admits m.kind || (m.kind == 2 && fld mask 15 0 != 0 && mask.getLsbD 2)) && sees m)).length
      (n ≠ 0 → Retires (.mwait d a la) s s d [(la, a)] (BitVec.ofNat 64 n)) ∧
      (n = 0 → s.booked = false → exec (.mwait d a la) s = .next (s.waitHere 0x10))) ∧
    (counted → Retires (.wait w1 w2 w3 w4) s
      (s.observe s.cn s.core.cur (fun e => (e.path == 1 && x.outCopies == 0) || (e.path == 2 && x.outMatrix == 0))) 0 [] 0) ∧
    (¬ counted → s.booked = false → exec (.wait w1 w2 w3 w4) s = .next (s.waitHere 0x21))

/-! ## The matrix array and tiles (spec/12 R337 to R349, spec/03 R91 to R102) -/

/-- R61, R337 to R342, R344 to R348, R422: a booked task needs an ARRAY claim for a sitting, and one that holds it is granted an idle
array at once; the request of a free task for one is granted in the next cycle, behind any under a claim, and till then it issues
again. A sitting for another function than the last one's marks every slot that earlier commands have loaded as cleared (log 63, the
model's reading). A palette with a tapered format is ILLEGAL while that feature is off. A counted command needs the sitting, joins the
queue with what it captured, and its sitting counts it and ends with the n-th; a bad descriptor, palette or handle is the precise MX
of its reason. Handles name slots of the context of the palette's kind, and 0 takes the lowest free ones, for which a free task
waits, as for room among the held ranges. The model's choices are that a free task's sitting begins a cycle after its request (log 5),
that handles unlike the palette are MX SLOT in `mxst`, `mxrel` and `mxzero` and that the palette says how many slots `mxzero` of 0
takes (log 64), and that `mxrel` of 0 releases nothing (log 120). -/
def Obligations.MatrixForms : Prop :=
  ∀ (rm : RM) (z : Bool) (d a b c : SReg) (i : Fin 4) (j : Fin 8) (la lb lc : Bool) (s : State),
    let x := s.ws.getS a
    let y := s.ws.getS b
    let h := s.ws.getS d
    let pal := s.sx.palette
    let arr := s.array
    let sits := arr.sits s.cn s.core.cur = true
    let n := (Min.min (Max.max x.toInt 1) 64).toNat
    let frame := fun (u : State) (e : SReg) (ks : List (Bool × SReg)) (v : Word) (g : BitVec 32) =>
      ScalarWrite s u e ks v ∧ (∀ r, u.ws.getV r = s.ws.getV r) ∧ KeepsMCK s u ∧ KeepsModes s u ∧ u.ws.q = s.ws.q ∧
      u.ws.fcsr = s.ws.fcsr ∧ u.core.srng = g ∧ u.core.grng = s.core.grng ∧ KeepsSlots s u ∧ KeepsBytes s u ∧ RetiredAt s u s.nextPc
    let command := fun (op : MxOp) =>
      MxCmd.mk s.nextId s.cn s.core.cur s.core.res.wp s.sx.task.id op pal s.vfn s.ws.atp (!s.sup) s.ws.pc false false 0 0 0 0 false none 0
    let issues := fun (k : Instr) (op : MxOp) (e : SReg) (ks : List (Bool × SReg)) (v : Word) (g : BitVec 32) (acc : List (Nat × AccSlot)) =>
      ∃ u, exec k s = .next u ∧ frame u e ks v g ∧ u.slot.outMatrix = s.slot.outMatrix + 1 ∧ u.array =
        { arr with
          queue := arr.queue ++ [command op],
          acc := acc,
          sit := (arr.sit.map (fun q => Sitting.mk q.core q.slot (q.n - 1) s.pkg.ptime)).filter (fun q => q.n != 0) }
    let mx := fun (k : Instr) (reason : Nat) => exec k s = .next (s.trap (Trap.mk0 0x15 reason 0 0))
    let room := fun (op : MxOp) => (command op).endpoints = 0 ∨ s.heldCount + (command op).endpoints ≤ 32
    let loads := fun (k : Instr) (weight : Bool) (op : MxOp) =>
      let ok := 1 ≤ fld y 8 0 ∧ fld y 8 0 ≤ 256 ∧ (weight = false → y.getLsbD 10 = false) ∧ y.getLsbD 11 = false ∧ fld y 63 48 = 0 ∧
        32 ≤ fld y 47 32 ∧ fld y 47 32 % 32 = 0 ∧ fld y 47 32 ≤ (palDepth pal).getD 0
      (¬ sits → mx k 0x40) ∧ (sits → ¬ ok → mx k 0x43) ∧
      (sits → ok → s.booked = true → y.getLsbD 9 = false → exec k s = .next (s.trap (Trap.mk0 0x11 0 0 1))) ∧
      (sits → ok → s.booked = false → ¬ room op → exec k s = .next (s.waitHere 0x28)) ∧
      (sits → ok → s.booked = false ∨ y.getLsbD 9 = true → room op →
        issues k op 0 [(la, a), (lb, b), (lc, c)] 0 s.core.srng arr.acc)
    let handle := fun (ns : List Nat) (mom int : Bool) =>
      BitVec.ofNat 64 (ns.getD 0 0 + ns.getD 1 0 * 16 + 256 + bit01 mom * 512 + bit01 int * 1024)
    let holds := fun (ns : List Nat) => ns.foldl (fun l q => mapSet l q (AccSlot.mk (some (s.cn, s.core.cur)) [] false)) arr.acc
    let named := s.handleOk h = true ∧ h.getLsbD 9 = palMom pal ∧ h.getLsbD 10 = palInt pal
    let products := fun (k : Instr) (mom : Bool) =>
      let fits := ∃ st wt, arr.slotShape true i.val = some (st, wt, pal) ∧ ∃ wn, arr.slotShape false j.val = some (wn, wt, pal)
      (¬ sits → mx k 0x40) ∧
      (sits → palMom pal ≠ mom → mx k 0x41) ∧
      (sits → palMom pal = mom → h ≠ 0 → ¬ named → mx k 0x42) ∧
      (sits → palMom pal = mom → h = 0 ∨ named → ¬ fits → mx k 0x43) ∧
      (sits → palMom pal = mom → h ≠ 0 → named → fits → issues k (.mma i.val j.val h z) d [] h s.core.srng arr.acc) ∧
      (∀ ns, sits → palMom pal = mom → h = 0 → fits → s.freeSlots (if mom then 2 else 1) = some ns →
        let v := handle ns mom (palInt pal)
        issues k (.mma i.val j.val v z) d [] v s.core.srng (holds ns)) ∧
      (sits → palMom pal = mom → h = 0 → fits → s.freeSlots (if mom then 2 else 1) = none → s.booked = false →
        exec k s = .next (s.waitHere 0x2A))
    (TokensFree s [d, a] →
      (s.booked = true → s.holdsClaim 2 none = false → exec (.sit d a la) s = .next (s.trap (Trap.mk0 0x11 0 0 3))) ∧
      (sits → s.booked = false ∨ s.holdsClaim 2 none = true → ∃ u, exec (.sit d a la) s = .next u ∧ Writes s u d [(la, a)] (BitVec.ofNat 64 n) ∧ KeepsBytes s u ∧
        u.array = { arr with sit := arr.sit.map (fun q => Sitting.mk q.core q.slot n q.last) }) ∧
      (arr.sit = none → arr.reqs = [] → s.booked = false →
        (s.askSitting n).array = { arr with reqs := [Sitting.mk s.cn s.core.cur n 0] } ∧
        exec (.sit d a la) s =
          .next (((s.askSitting n).once (s.pkg.ptime + 1) (.sittingGrant s.cl)).noteChange s.cn (causeState 0x2B) 0x2B)) ∧
      (arr.sit = none → arr.reqs = [] → s.slot.wp = s.core.res.wp → s.booked = true → s.holdsClaim 2 none = true →
        ∃ u, exec (.sit d a la) s = .next u ∧ Writes s u d [(la, a)] (BitVec.ofNat 64 n) ∧ KeepsBytes s u ∧
          u.array = { arr with
            sit := some (Sitting.mk s.cn s.core.cur n s.pkg.ptime),
            wipes := if s.vfn = arr.lastVfn then arr.wipes else arr.liveWipes ++ [s.nextId],
            lastVfn := s.vfn,
            lastPal := pal })) ∧
    (sits → Retires .unsit s ((s.onArray s.cl (fun r => { r with sit := none })).post s.pkg.ptime (.sittingGrant s.cl)) 0 [] 0) ∧
    (¬ sits → Retires .unsit s s 0 [] 0) ∧
    (TokensFree s [a] →
      let tapered := s.pkgx.enabled.getLsbD 1 = false ∧
        ∃ f ∈ [15, 16], palA (x.setWidth 11) = f ∨ palB (x.setWidth 11) = f
      (tapered → exec (.mxpal a la) s = .next (s.trap (illegalTrap s))) ∧
      (¬ tapered → fld x 63 11 = 0 → palDepth (x.setWidth 11) ≠ none →
        Retires (.mxpal a la) s (s.onSx (fun q => { q with palette := x.setWidth 11 })) 0 [(la, a)] 0) ∧
      (¬ tapered → fld x 63 11 ≠ 0 ∨ palDepth (x.setWidth 11) = none → mx (.mxpal a la) 0x41)) ∧
    (TokensFree s [a, b, c] → NoAcquire s →
      loads (.mxlda i a b c la lb lc) false (.lda i.val x y (s.ws.getS c)) ∧
      loads (.mxldb j a b c la lb lc) true (.ldb j.val x y (s.ws.getS c))) ∧
    (TokensFree s [d] →
      products (.mxmma z d i j) false ∧
      products (.mxmmaM z d i j) true ∧
      (h = 0 → Retires (.mxrel d) s s d [] 0) ∧
      (h ≠ 0 → named → Retires (.mxrel d) s
        (s.onArray s.cl (fun r => r.release (fun q _ => (hSlots h).contains q))) d [] 0) ∧
      (h ≠ 0 → ¬ named → mx (.mxrel d) 0x42) ∧
      (¬ sits → mx (.mxzero d) 0x40) ∧
      (sits → h ≠ 0 → named → issues (.mxzero d) (.zero h) d [] h s.core.srng arr.acc) ∧
      (sits → h ≠ 0 → ¬ named → mx (.mxzero d) 0x42) ∧
      (∀ ns, sits → h = 0 → s.freeSlots (if palMom pal then 2 else 1) = some ns →
        let v := handle ns (palMom pal) (palInt pal)
        issues (.mxzero d) (.zero v) d [] v s.core.srng (holds ns))) ∧
    (TokensFree s [d, a, b] → NoAcquire s →
      let mode := s.ws.cvtMode rm .f32 (Fmt.ofCode (fld y 36 32))
      let draws := if mode = .sto then
        srngDraws s.core.srng (fld y 8 0 * fld y 56 48 * (if h.getLsbD 9 then 2 else 1)) else []
      let op := MxOp.st h x y mode s.ws.satf draws
      (¬ sits → mx (.mxst rm d a b la lb) 0x40) ∧
      (sits → ¬ named → mx (.mxst rm d a b la lb) 0x42) ∧
      (sits → named → storeShapeOk h y = false → mx (.mxst rm d a b la lb) 0x43) ∧
      (sits → named → storeShapeOk h y = true → s.booked = true → y.getLsbD 9 = false →
        exec (.mxst rm d a b la lb) s = .next (s.trap (Trap.mk0 0x11 0 0 1))) ∧
      (sits → named → storeShapeOk h y = true → s.booked = false ∨ y.getLsbD 9 = true → room op →
        issues (.mxst rm d a b la lb) op 0 [(la, a), (lb, b)] 0 (draws.getLastD s.core.srng) arr.acc))

/-- R95, R99 to R102, R349: a declaration, a pass or an undeclaration that its checks refuse answers with its status; one that
starts waits, and answers once its marks, pushes or unmarks are done, a declaration with its capability. A pass starts when the
writes before it are visible; an undeclaration unmarks every line of the tile. `tacq` takes a tile passed to this core; `tstat`
reads the entry, and none of them goes past a queued atomic that acquires (R120). The wait's cause (log 38), the table of the home of
the first line (log 75) and the translation of BASE before a pass or an undeclaration (log 74) are the model's reading. -/
def Obligations.TileForms : Prop :=
  ∀ (d : SReg) (e : CReg) (a b : SReg) (f : CReg) (la lb : Bool) (g : TlbEntry) (s : State), s.booked = false →
    let va := s.ws.getS a
    let len := (s.ws.getS b).toNat
    let k := s.ws.getC f
    let base : Word := BitVec.ofNat 64 k.base
    let t := s.tile k.tid
    let t' := viaTlb s g
    let maps := fun (v : Word) (need : Need) => s.ws.atp.getLsbD 63 = true ∧
      s.core.tlb.find? (fun y => y.covers s.ws.vfn (v.toNat / 65536)) = some g ∧ s.leafCheck s.ws.vfn (!s.ws.sup) need g = none
    let off := s.pkgx.enabled.getLsbD 3 = false
    let owns := t.state = 1 ∧ t.owner = s.cn ∧ t.busy = false
    let dies := fun (u : State) => u.onWs (fun w => if la then w.killC f else w)
    let passes := k.tag = true ∧ k.rights &&& 4 = 4 ∧ t.gen.toNat = k.gen ∧ maps base noNeed
    let undeclares := k.tag = true ∧ k.rights &&& 3 = 3 ∧ t.gen.toNat = k.gen ∧ maps base .both
    let dest := fld (s.ws.getS b) 10 0
    let unmarks := fun (u : State) => (u.tile k.tid).lines.foldl (fun u l => u.post u.pkg.ptime (.tun l ⟨k.tid, s.dn⟩)) u
    (TokensFree s [a, b, d] →
      (s.tileOp = none → NoAcquire s → va.toNat < 2 ^ 55 → maps va .both →
        let status := if off then 4 else tilePlaceStatus g va.toNat len
        let spare := s.freeTile (s.lineHome ((g.place va.toNat).line 0))
        (status ≠ 0 → Retires (.tdecl e a b d la lb) s t' d [(la, a), (lb, b)] (BitVec.ofNat 64 status)) ∧
        (status = 0 → spare = none → Retires (.tdecl e a b d la lb) s t' d [(la, a), (lb, b)] 2) ∧
        (∀ tid, status = 0 → spare = some tid →
          exec (.tdecl e a b d la lb) s = .next ((t'.declare tid (g.place va.toNat) va.toNat len).waitHere 0x23))) ∧
      (∀ o, s.tileOp = some o → o.done = true →
        (o.status = 0 → Retires (.tdecl e a b d la lb) s
          (s.dropTileOp.onWs (fun w => w.setC e (capOf (s.tile o.tid).vbase (s.tile o.tid).len (s.tile o.tid).gen.toNat s.cn 7 o.tid)))
          d [(la, a), (lb, b)] 0) ∧
        (o.status ≠ 0 → Retires (.tdecl e a b d la lb) s s.dropTileOp d [(la, a), (lb, b)] (BitVec.ofNat 64 o.status)))) ∧
    (TokensFree s [d, b] →
      (s.tileOp = none → NoAcquire s → passes →
        (off → Retires (.tpass d f b la lb) s (dies t') d [(lb, b)] 4) ∧
        (¬ off → ¬ owns → Retires (.tpass d f b la lb) s (dies t') d [(lb, b)] 8) ∧
        (¬ off → owns → s.corePresent dest = false → Retires (.tpass d f b la lb) s (dies t') d [(lb, b)] 10) ∧
        (¬ off → owns → s.corePresent dest = true → s.slot.trk.count = 0 → s.core.carry.count = 0 → s.slot.relq = [] →
          s.frmOn = true ∨ s.trackV ≤ s.releaseTime s.dn →
          exec (.tpass d f b la lb) s = .next ((t'.pass k.tid dest k.rights).waitHere 0x23))) ∧
      (∀ o, s.tileOp = some o → o.done = false → exec (.tpass d f b la lb) s = .next (s.waitHere 0x23)) ∧
      (∀ o, s.tileOp = some o → o.done = true →
        Retires (.tpass d f b la lb) s (dies s.dropTileOp) d [(lb, b)] (BitVec.ofNat 64 o.status)) ∧
      (k.tag = true → NoAcquire s → Retires (.tstat d f b la lb) s (dies s) d [(lb, b)]
        (if t.vfn ≠ s.vfn ∧ s.vfn ≠ 0 then 0 else t.word (fld (s.ws.getS b) 1 0))) ∧
      (k.tag = false → exec (.tstat d f b la lb) s = .next (s.trap (Trap.mk0 0x07 0x10 base 0)))) ∧
    (TokensFree s [d] →
      (k.tag = true → t.gen.toNat = k.gen → NoAcquire s →
        (off → Retires (.tacq d f la) s (dies s) d [] 4) ∧
        (¬ off → t.state ≠ 2 → Retires (.tacq d f la) s (dies s) d [] 8) ∧
        (¬ off → t.state = 2 → t.next ≠ s.cn → Retires (.tacq d f la) s (dies s) d [] 7) ∧
        (¬ off → t.state = 2 → t.next = s.cn → t.vfn ≠ s.vfn → Retires (.tacq d f la) s (dies s) d [] 9) ∧
        (¬ off → t.state = 2 → t.next = s.cn → t.vfn = s.vfn → Retires (.tacq d f la) s
          (dies (s.onTile k.tid (fun q => { q with owner := q.next, next := 0, state := 1 }))) d [] 0)) ∧
      (s.tileOp = none → NoAcquire s → undeclares →
        (off → Retires (.tundecl d f la) s (dies t') d [] 4) ∧
        (¬ off → ¬ owns → Retires (.tundecl d f la) s (dies t') d [] 8) ∧
        (¬ off → owns → exec (.tundecl d f la) s = .next (((unmarks ((t'.onTile k.tid (fun q =>
          { q with busy := true, left := q.len / 64, vt := 0, fail := 0, slot := s.core.cur })))).addTileOp 2 k.tid).waitHere 0x23))) ∧
      (∀ o, s.tileOp = some o → o.done = true →
        Retires (.tundecl d f la) s (dies s.dropTileOp) d [] (BitVec.ofNat 64 o.status)))

/-! ## Bookings, records and tasks (spec/13 R372 to R380) -/

/-- R372, R373, R184, R193: the booking forms and their codes. `book` puts its request into the admission queue, waits, and answers
with the code when it has been served; `unbook` demotes the unit's task; `bkrel` frees the claims named, `bkext` lengthens
them all or none; the booking word carries state, start tempo and code. That `bkext` by a number outside 1 to 4,096 answers 0x12 is the
model's reading (log 45). -/
def Obligations.BookForms : Prop :=
  ∀ (d a b : SReg) (la lb : Bool) (rd n rn : Nat) (l : Launch) (s : State),
    let x := s.ws.getS a
    let r := s.record s.dn n
    let own := s.record rd rn
    let ks := [(la, a)]
    let unit := s.myUnit = some (rd, rn)
    let launched := unit ∧ s.sx.task.booked = true ∧ s.launchOf rd rn = some l
    let more := (s.ws.getS b).toNat
    let named := l.claims.filter (fun k => x.getLsbD k.idx && decide (k.idx < 16) && (k.cls != 1 || k.inst == localOf s.cn) && !k.freed)
    let bits := (named.map (fun k => 2 ^ k.idx)).foldl (fun x y => x ||| y) 0
    let freed := s.freeClaims rd rn (fun k => k.cls != 1 && named.contains k)
    let word := fun (r : Rec) (code : Nat) => BitVec.ofNat 64 (code % 256 + r.state * 256 + bit01 r.admitted * 2048 +
      (if r.admitted then r.startTempo % 2 ^ 48 * 65536 else 0))
    let asked := (s.onCluster r.cluster (fun c => { c with cal := { c.cal with queue := c.cal.queue ++
      [AdmReq.mk s.dn n r.w[6].toNat s.cn s.core.cur false s.pkg.ptime] } })).once (s.pkg.ptime + 1) (.admissionSearch r.cluster)
    let cs := s.claimsExtended l (fld x 15 0)
    let longer := fun (k : BookedClaim) => if cs.contains k then { k with fin := k.fin + more, busy := k.fin + more } else k
    (TokensFree s [d, a] →
      (recOf x = none → Retires (.book d a la) s s d ks 0x12 ∧ Retires (.unbookRec d a la) s s d ks 0x12 ∧
        Retires (.bkq d a la) s s d ks 0x12) ∧
      (recOf x = some n →
        Retires (.bkq d a la) s s d ks (if s.vfn ≠ 0 ∧ r.vfn ≠ s.vfn then 0 else word r r.reason) ∧
        (r.takenBy s = false → Retires (.book d a la) s s d ks (word r 0x10)) ∧
        (r.takenBy s = true → r.admitted = true → s.sx.answer = none → Retires (.book d a la) s s d ks (word r 0x10)) ∧
        (r.takenBy s = true → r.admitted = false → r.w[8].getLsbD 0 = false → Retires (.book d a la) s s d ks (word r 0x11)) ∧
        (∀ q code, r.takenBy s = true → r.w[8].getLsbD 0 = true → s.sx.answer = some (q, code) → q.die = s.dn → q.recNo = n →
          q.arm = false → Retires (.book d a la) s (s.onSx (fun y => { y with answer := none })) d ks (word r code)) ∧
        (r.takenBy s = true → r.admitted = false → r.w[8].getLsbD 0 = true → s.sx.answer = none →
          s.queued (s.cluster r.cluster).cal = false → (s.cluster r.cluster).cal.queue.length < 16 →
          (s.booked = true → ∀ q ∈ (s.cluster r.cluster).cal.queue, s.pkg.ptime ≤ q.time) →
          exec (.book d a la) s = .next (if s.booked then asked.noteChange s.cn (causeState 0x23) 0x23 else asked.waitHere 0x23)) ∧
        (r.takenBy s = true → r.admitted = true → Retires (.unbookRec d a la) s (s.withdraw s.dn n) d ks
          (word ((s.withdraw s.dn n).record s.dn n) 0)) ∧
        (r.takenBy s = false ∨ r.admitted = false → s.root = false → Retires (.unbookRec d a la) s s d ks (word r 0x10)) ∧
        (r.takenBy s = false ∨ r.admitted = false → s.root = true → Retires (.unbookRec d a la) s (s.unbookAll s.dn n) d ks
          (word ((s.unbookAll s.dn n).record s.dn n) 0))) ∧
      (launched →
        let t := if named.any (fun k => k.cls == 1) then freed.demote s.cn s.core.cur else freed
        Retires (.bkrel d a la) s t d ks (BitVec.ofNat 64 bits)) ∧
      (s.myUnit = none → Retires (.bkrel d a la) s s d ks 0)) ∧
    (TokensFree s [d] →
      (s.myUnit = none → Retires (.unbook d) s s d [] 0x10) ∧
      (unit → s.sx.task.booked = false → Retires (.unbook d) s s d [] (word own 0x10)) ∧
      (unit → s.sx.task.booked = true →
        let t := s.demote s.cn s.core.cur
        Retires (.unbook d) s t d [] (word (t.record rd rn) 0))) ∧
    (TokensFree s [d, a, b] →
      let ks := [(la, a), (lb, b)]
      (s.myUnit = none → Retires (.bkext d a b la lb) s s d ks 0x10) ∧
      (launched → more = 0 ∨ 4096 < more → Retires (.bkext d a b la lb) s s d ks (word own 0x12)) ∧
      (launched → 1 ≤ more → more ≤ 4096 → cs.any (fun k => decide (s.tempo s.dn + 4096 < k.fin + more)) = true →
        Retires (.bkext d a b la lb) s s d ks (word own 2)) ∧
      (launched → 1 ≤ more → more ≤ 4096 → cs.any (fun k => decide (s.tempo s.dn + 4096 < k.fin + more)) = false →
        (extendFits (s.bookedFor s.cl) more cs [] = false → Retires (.bkext d a b la lb) s s d ks (word own 4)) ∧
        (extendFits (s.bookedFor s.cl) more cs [] = true → Retires (.bkext d a b la lb) s
          ((s.onCluster s.cl (fun c => { c with cal := c.cal.onLaunch (recKey rd rn) (fun l => { l with claims := l.claims.map longer }) })).onSx
            (fun y => { y with task := { y.task with bookEnd := y.task.bookEnd + more, overrun := false } })) d ks (word own 0))))

/-- R171, R173, R203, R375: `lrpatch` takes a record of the pool and writes its word; `lrarm` arms a record taken, after its
checks and its release: one that is to be booked asks for admission, TAKEN meanwhile, and answers as its calendar has answered, with the
start tempo or with the reason; the reads and the cancels with their statuses. That the record stays TAKEN while admission is asked
(log 41) and that `lrarm` waits for the release it performs (log 53) is the model's reading. -/
def Obligations.RecordForms : Prop :=
  ∀ (w : Fin 8) (d a b : SReg) (la lb : Bool) (n : Nat) (s : State),
    let x := s.ws.getS a
    let y := s.ws.getS b
    let r := s.record s.dn n
    let ks := [(la, a), (lb, b)]
    let die := fld x 12 10
    let ctr := fld x 9 0
    let v := s.level die ctr
    let kind := (v.extractLsb' 112 3).toNat
    let owner := (v.extractLsb' 117 6).toNat
    let taken := r.takenBy s = true
    let quiet := s.slot.trk.count = 0 ∧ s.core.carry.count = 0 ∧ s.slot.relq = [] ∧
      (s.frmOn = true ∨ s.trackV ≤ s.releaseTime s.dn)
    let answered := s.armAnswered n = true
    let may := ¬ answered ∧ taken
    let frozen := r.frozen = true ∨ s.graphFrozen s.dn r = true
    let asks := r.w[8].getLsbD 0 = true ∧ r.admitted = false
    let arms := may ∧ s.armStatus s.dn r = 0 ∧ quiet ∧ ¬ frozen
    let asked := (s.onCluster r.cluster (fun c => { c with cal := { c.cal with queue := c.cal.queue ++
      [AdmReq.mk s.dn n r.w[6].toNat s.cn s.core.cur true s.pkg.ptime] } })).once (s.pkg.ptime + 1) (.admissionSearch r.cluster)
    let start : Word := BitVec.ofNat 64 (r.startTempo % 2 ^ 48 * 65536)
    let takes := fun (z : Rec) =>
      let z := z.take (s.cn * 4 + s.core.cur.val)
      if w = 0 then z else { z with w := z.w.set (fin32 w.val) y }
    let word := fun (i : SReg) => if i = 4 then BitVec.ofNat 64 (fld r.w[4] 25 0) else if i = 8 then BitVec.ofNat 64 (fld r.w[8] 35 0)
      else if i = 13 then BitVec.ofNat 64 (fld r.w[13] 23 0) else if i = 15 then BitVec.ofNat 64 (fld r.w[15] 31 0) else r.w[i]
    (TokensFree s [d, a, b] →
      (recOf x = none → Retires (.lrpatch w d a b la lb) s s d ks 9 ∧ Retires (.lrstat d a b la lb) s s d ks 9) ∧
      (recOf x = some n →
        (s.vfn ≠ 0 ∧ r.vfn ≠ s.vfn → Retires (.lrstat d a b la lb) s s d ks 0) ∧
        (¬ (s.vfn ≠ 0 ∧ r.vfn ≠ s.vfn) → Retires (.lrstat d a b la lb) s s d ks (word (fin32 (fld y 4 0)))) ∧
        (r.state ≠ 1 → r.state ≠ 2 → Retires (.lrpatch w d a b la lb) s s d ks 2) ∧
        (r.state = 1 ∨ r.state = 2 → s.vfn ≠ r.vfn → Retires (.lrpatch w d a b la lb) s s d ks 8) ∧
        (r.state = 2 → s.vfn = r.vfn → ¬ taken → Retires (.lrpatch w d a b la lb) s s d ks 1) ∧
        (r.state = 1 ∨ taken → s.vfn = r.vfn → (w = 3 ∧ fld y 63 48 ≠ 0) ∨ (w = 7 ∧ fld y 63 30 ≠ 0) →
          Retires (.lrpatch w d a b la lb) s s d ks 3) ∧
        (r.state = 1 ∨ taken → s.vfn = r.vfn → ¬ (w = 3 ∧ fld y 63 48 ≠ 0) → ¬ (w = 7 ∧ fld y 63 30 ≠ 0) →
          Retires (.lrpatch w d a b la lb) s (s.onRec s.dn n takes) d ks 0)) ∧
      Retires (.lvlcnt d a b la lb) s s d ks (if ctr = 0 ∨ (s.vfn ≠ 0 ∧ owner ≠ s.vfn) then 0
        else if y.getLsbD 0 then v.extractLsb' 64 64 else v.extractLsb' 0 64)) ∧
    (TokensFree s [d, a] →
      (recOf x = none → Retires (.lrarm d a la) s s d [(la, a)] 9 ∧ Retires (.lvlcancelRec d a la) s s d [(la, a)] 9) ∧
      (recOf x = some n →
        (r.state < 3 → Retires (.lvlcancelRec d a la) s s d [(la, a)] 2) ∧
        (3 ≤ r.state → Retires (.lvlcancelRec d a la) s ((s.onRec s.dn n (fun z => { z with cancel := true })).cancelRest s.dn n) d
          [(la, a)] 0) ∧
        (¬ answered → ¬ taken → Retires (.lrarm d a la) s s d [(la, a)] 2) ∧
        (may → s.armStatus s.dn r ≠ 0 → Retires (.lrarm d a la) s s d [(la, a)] (BitVec.ofNat 64 (s.armStatus s.dn r))) ∧
        (may → s.armStatus s.dn r = 0 → quiet → frozen →
          Retires (.lrarm d a la) s ((s.dropRequest r.cluster).armFrozen s.dn n) d [(la, a)] 10) ∧
        (arms → ¬ asks → Retires (.lrarm d a la) s (s.beginLaunch s.dn n r.admitted) d [(la, a)] (if r.admitted then start else 0)) ∧
        (arms → asks → s.sx.answer = none → s.queued (s.cluster r.cluster).cal = false →
          (s.cluster r.cluster).cal.queue.length < 16 → s.booked = false →
          exec (.lrarm d a la) s = .next (asked.waitHere 0x23)) ∧
        (∀ q code, s.sx.answer = some (q, code) → q.die = s.dn → q.recNo = n → q.arm = true →
          Retires (.lrarm d a la) s (s.onSx (fun z => { z with answer := none })) d [(la, a)]
            (if code = 0 then start else if code = frozenCode then 10
             else BitVec.ofNat 64 ((if r.w[8].getLsbD 1 then 0 else 7) + code * 256)))) ∧
      (ctr = 0 ∨ kind < 2 ∨ 4 < kind → Retires (.lvlcancel d a la) s s d [(la, a)] 2) ∧
      (ctr ≠ 0 → 2 ≤ kind → kind ≤ 4 → owner ≠ s.vfn → Retires (.lvlcancel d a la) s s d [(la, a)] 8) ∧
      (ctr ≠ 0 → 2 ≤ kind → kind ≤ 4 → owner = s.vfn → Retires (.lvlcancel d a la) s (s.cancelLevel die ctr) d [(la, a)] 0))

/-- R175, R352, R378 to R380: a task whose drain is over ends, its context FREE, its allocations and its sitting gone, its windows
unregistered with their serials raised; the registers of the core stay as they stood (log 42); `yield` makes a free context READY with its
budget reloaded, `follow` sets FW but on the leader core; `salloc`
makes an allocation of the size rounded up, `sfree` frees one that the task made and nothing holds. -/
def Obligations.TaskForms : Prop :=
  ∀ (d a : SReg) (la : Bool) (s : State),
    let n := (s.ws.getS a).toNat
    let i := s.core.cur
    let none' : Word := 0xFFFFFFFFFFFFFFFF
    let room := s.core.allocate i .made (roundUp n)
    let mine := s.core.allocs.find? (fun x => x.base == n && x.kind == .made && x.slot == i)
    let ends := fun (k : Instr) => ∃ u, exec k s = .next u ∧ u.slot.st = .free ∧ u.core.cur = i ∧ u.sx.task = Task.none ∧
      (∀ x ∈ u.core.allocs, x.slot = i → x.live = false) ∧ u.array.sits s.cn i = false ∧
      (∀ j : Fin 32, u.core.win[j] = if s.core.win[j].reg = true ∧ s.core.win[j].ctx = i then
        { s.core.win[j] with reg := false, serial := s.core.win[j].serial + 1 } else s.core.win[j]) ∧
      (∀ r, u.ws.getS r = s.ws.getS r) ∧ (∀ r, u.ws.getV r = s.ws.getV r) ∧ KeepsMCK s u
    (s.sx.margin = 0 → s.drained = true →
      exec .retire s = .next (s.endTask none) ∧ ends .retire ∧
      (TokensFree s [a] → exec (.retireFail a la) s = .next (s.endTask (some (fld (s.ws.getS a) 6 0))) ∧ ends (.retireFail a la))) ∧
    (s.sx.margin = 0 → s.drained = false → s.booked = true → exec .retire s = .next (s.noteChange s.cn (causeState 0x26) 0x26)) ∧
    (s.sx.margin = 0 → s.drained = false → s.booked = false → s.trackV ≤ s.releaseTime s.dn →
      exec .retire s = .next (s.waitHere 0x26)) ∧
    (s.booked = true → Retires .yield s s 0 [] 0) ∧
    (s.booked = false → ∃ u, exec .yield s = .next u ∧ RetiredAt s u s.nextPc ∧ u.slot.st = .ready ∧
      u.slot.tbud = setFld s.slot.tbud 31 0 s.sx.task.budget ∧ u.sx.yielded = true ∧ KeepsMemory s u ∧ KeepsVMK s u ∧
      KeepsModes s u ∧ KeepsQF s u ∧ (∀ r, u.ws.getS r = s.ws.getS r) ∧ (∀ r, u.ws.getC r = s.ws.getC r)) ∧
    Retires .follow s (if localOf s.cn = 0 then s else s.onWs (fun w => w.setTsw 3 3 1)) 0 [] 0 ∧
    Retires .unfollow s (s.onWs (fun w => w.setTsw 3 3 0)) 0 [] 0 ∧
    (TokensFree s [d, a] →
      (n = 0 ∨ 196480 < n ∨ room = none → Retires (.salloc d a la) s s d [(la, a)] none') ∧
      (∀ b c, 1 ≤ n → n ≤ 196480 → room = some (b, c) → c.allocs = s.core.allocs ++ [Alloc.mk b (roundUp n) i .made] ∧
        Retires (.salloc d a la) s (s.setCore c) d [(la, a)] (BitVec.ofNat 64 b)) ∧
      (mine = none → Retires (.sfree d a la) s s d [(la, a)] 1) ∧
      (∀ x, mine = some x → heldMeets (s.held s.cn) x.base x.len true = false → Retires (.sfree d a la) s
        ((s.setCore { s.core with allocs := s.core.allocs.erase x }).seekWork s.cn) d [(la, a)] 0) ∧
      (∀ x, mine = some x → heldMeets (s.held s.cn) x.base x.len true = true → s.booked = false →
        exec (.sfree d a la) s = .next (s.waitHere 0x24)))

/-! ## Control registers, traps and returns (spec/13 R381 to R386, spec/08 R206 to R216) -/

/-- R7, R381, R388, R401: the four forms write the old value to s[D], then the new one under the register's writable bits; a
forbidden access is PRIV and changes nothing. The values of the context's registers are read as they stand, and the read of `adjctl` is
seen before it is written; `fcsr` is accessed once the queued `amo.fadd` of this workspace have raised their flags (R146). That a
pointer in `tctl` that R22 does not allow is ILLEGAL with reason OPERAND is the model's reading (log 22). -/
def Obligations.CsrForms : Prop :=
  ∀ (d a : SReg) (n : BitVec 12) (s : State),
    let k := n.toNat
    let old := s.readCsr k
    let x := s.ws.getS a
    let calm := k = 1 → ∀ e ∈ s.slot.relq, ∀ x1 x2 x3 x4 x5 x6 q, e.op ≠ .amo x1 x2 .fadd x3 x4 x5 x6 s.core.res.wp q
    let writes := fun (i : Instr) (v : Word) =>
      (s.csrReadable k = false ∨ s.csrWritable k = false → exec i s = .next (s.trap (Trap.mk0 0x03 0 0 0))) ∧
      (s.csrReadable k = true → s.csrWritable k = true → TokensFree s [d, a] → calm →
        (k = 0x038 → wpOk (fld v 17 0) = false → exec i s = .next (s.trap (illegalTrap s))) ∧
        ((k = 0x038 → wpOk (fld v 17 0) = true) → ∃ t,
          ScalarEffect (if k = 0x850 then s.seenAdjctl else s) t (.s d) (.s 0) [] old 0 s.core.srng ∧
          exec i s = .next (t.writeCsr k v)))
    let mask := fun (o v m : Word) => (o &&& ~~~m) ||| (v &&& m)
    (s.csrReadable k = false → exec (.csrr d n) s = .next (s.trap (Trap.mk0 0x03 0 0 0))) ∧
    (s.csrReadable k = true → TokensFree s [d] → calm → ∃ t, ScalarEffect s t (.s d) (.s 0) [] old 0 s.core.srng ∧
      exec (.csrr d n) s = .next (if k = 0x850 then t.seenAdjctl else t)) ∧
    writes (.csrw d a n) x ∧ writes (.csrs d a n) (old ||| x) ∧ writes (.csrc d a n) (old &&& ~~~x) ∧
    (∀ p ∈ [(0x000, s.ws.tsw), (0x001, s.ws.fcsr.setWidth 64), (0x002, s.ws.mcr.setWidth 64), (0x003, s.ws.cvm), (0x004, s.ws.atp),
      (0x006, s.ws.vl.setWidth 64), (0x007, s.ws.prog), (0x020, s.core.srng.setWidth 64), (0x021, s.core.grng),
      (0x022, s.core.latecnt), (0x023, s.slot.tbud), (0x030, s.slot.fault.fcause), (0x031, s.slot.fault.faddr),
      (0x032, s.slot.fault.fdetail), (0x033, s.slot.fault.fpc), (0x034, s.slot.fault.fins), (0x035, s.slot.fault.fins1),
      (0x036, s.slot.fault.fwp), (0x037, s.slot.tvec), (0x038, s.slot.tctl)], s.readCsr p.1 = p.2) ∧
    (∀ v, (s.writeCsr 0x000 v).ws.tsw = mask s.ws.tsw v 0x15 ∧ (s.writeCsr 0x003 v).ws.cvm = v ∧
      (s.writeCsr 0x004 v).ws.atp = v &&& 0x80FFFFFFFFFF003F ∧ (s.writeCsr 0x007 v).ws.prog = v &&& 0x1FF ∧
      (s.writeCsr 0x037 v).slot.tvec = v &&& 0x7FFFFFFFFFFFC0 ∧ (s.writeCsr 0x038 v).slot.tctl = v &&& 0x30003FFFF ∧
      (s.writeCsr 0x036 v).slot.fault.fwp = v &&& 0x3FFFF) ∧
    (∀ m ∈ [0x005, 0x006, 0x010, 0x011, 0x012, 0x013, 0x014, 0x015, 0x016, 0x017, 0x024, 0x030, 0x031, 0x032, 0x033, 0x034, 0x035,
      0x061, 0x801], ∀ v, s.writeCsr m v = s)

/-- R206, R207, R236, R237, R382, R386: `trap c` raises a cause of the table with its immediate as the detail and the next
instruction as the saved pc, and is major 0x3D, minor 0, with c in D; in user mode any cause but SYSCALL is PRIV; `brk` raises
BREAK with unit 7; a head that is no instruction raises ILLEGAL with its reason and the words fetched. -/
def Obligations.TrapForms : Prop :=
  ∀ (c : Fin 32) (imm : BitVec 16) (why : IllegalReason) (head : Half) (tail : Word) (tail4 : Half) (s : State),
    let raise := fun (t : Trap) => Host.Outcome.next (s.trap t)
    (causeTabled c.val = true → s.sup = true ∨ c.val = 0x19 →
      exec (.trap c imm) s = raise (Trap.mk c.val 0 0 (imm.setWidth 64) true false 0 none 0 0)) ∧
    (causeTabled c.val = true → s.sup = false → c.val ≠ 0x19 → exec (.trap c imm) s = raise (Trap.mk0 0x03 0 0 0)) ∧
    (causeTabled c.val = false → exec (.trap c imm) s = raise (illegalTrap s)) ∧
    exec .brk s = raise (Trap.mk 0x17 0 0 7 true false 0 none 0 0) ∧
    exec (.illegal why head tail tail4) s = raise (Trap.mk 0x01 (match why with
      | .major => 0x30 | .minor => 0x31 | .tlen => 0x32 | .rsvd => 0x33 | .regclass => 0x34 | .operand => 0x35) 0 0 false false 0 none
      (head.setWidth 64 ||| (tail <<< 16)) (tail4.setWidth 64)) ∧
    (causeTabled c.val = true → s.sup = true ∨ c.val = 0x19 → s.core.dbg.dctl.getLsbD 5 = false →
      ¬ ((c.val = 0x17 ∨ c.val = 0x18) ∧ s.core.dbg.dctl.getLsbD 3 = true) → s.slot.tctl.getLsbD 33 = true →
      s.slot.tctl.getLsbD 32 = false → fld s.slot.tctl 17 0 ≠ s.slot.wp → RingsOff s → Memory.wf s.core.pad = true →
      s.slot.wp = s.core.res.wp → (∀ r, s.core.alt = some r → s.core.holds r (fld s.slot.tctl 17 0) = true) →
      ∃ u, exec (.trap c imm) s = .next u ∧ fld u.slot.fault.fcause 7 0 = c.val ∧ u.slot.fault.fdetail = imm.setWidth 64 ∧
        u.core.padRead (s.slot.wp + 8640) 8 = toBytes 8 s.nextPc.toNat) ∧
    decode (0xF600 + BitVec.ofNat 16 (8 * c.val)) [0, imm] =
      (if causeTabled c.val = true then .ok (.trap c imm) else .error .operand) ∧
    decode 0xF6C8 [0, imm] = .ok (.trap 0x19 imm) ∧
    (∀ (h : Half) (l : List Half), decode h l = .ok (.trap c imm) →
      h = 0xF600 + BitVec.ofNat 16 (8 * c.val) ∧ l.getD 0 0 = 0 ∧ l.getD 1 0 = imm)

/-- R210 to R213: a trap that can be taken writes the fault record, enters the handler's workspace at the vector in supervisor
mode with interrupts and AP off and the cause in the status word, and marks ACT; the trapped workspace's words 0, 1, 3 and 7 are
in its image; one that cannot be taken ends the task, and its cause is the failure code of the task's record unless an earlier unit has
given one. -/
def Obligations.TrapEntry : Prop :=
  ∀ (t : Trap) (s : State), s.core.dbg.dctl.getLsbD 5 = false →
    ¬ ((t.cause = 0x17 ∨ t.cause = 0x18) ∧ s.core.dbg.dctl.getLsbD 3 = true) →
    let tctl := s.slot.tctl
    let hwp := fld tctl 17 0
    let wp := s.slot.wp
    let u := s.trap t
    let kept := { s.ws with
      pc := if t.next then s.nextPc else s.ws.pc
      tsw := setFld (setFld s.ws.tsw 3 3 0) 15 8 t.cause }
    (tctl.getLsbD 33 = true → tctl.getLsbD 32 = false → hwp ≠ wp → RingsOff s → Memory.wf s.core.pad = true → wp = s.core.res.wp →
      u.slot.fault = FaultRec.mk
        (BitVec.ofNat 64 (t.cause + t.reason * 256 + bit01 t.imp * 65536 + bit01 s.booked * 131072 + min t.count 255 * 262144))
        t.addr t.detail (t.fpc.getD s.ws.pc) t.fins t.fins1 (BitVec.ofNat 64 wp) ∧
      u.slot.tctl = setFld tctl 32 32 1 ∧ u.slot.wp = hwp ∧ u.core.res.wp = hwp ∧ u.slot.st = .run ∧ u.core.cur = s.core.cur ∧
      u.ws.pc = BitVec.ofNat 64 (fld s.slot.tvec 54 6 * 64 + 1) ∧
      u.ws.tsw = setFld (setFld (setFld (setFld kept.tsw 0 0 1) 4 4 0) 2 2 0) 15 8 t.cause ∧ u.ws.prog = 0 ∧
      ((∀ a, s.core.alt = some a → s.core.holds a hwp = true) →
        ∀ i ∈ [92, 93, 95, 99], u.core.padRead (wp + partOffset i) 8 = kept.partBytes i)) ∧
    (tctl.getLsbD 33 = false ∨ tctl.getLsbD 32 = true ∨ hwp = wp → u.slot.st = .free ∧ u.sx.task = Task.none ∧
      ∀ rd rn j, s.sx.task.src = .unit rd rn j →
        (u.record rd rn).failCode = some ((s.record rd rn).failCode.getD t.cause))

/-- R214, R216, R225: `sret` runs the workspace at `fwp`, `wsw` the one of its operand, following no leader; one that stayed resident takes
its pc, status and progress from its image, and its other registers are as they stood. `sret` clears ACT, `wsw` merges the tracker.
Both are for supervisors; a pointer that R22 does not allow is ILLEGAL, and a resumed pc outside the 55-bit space is PROT NONCANON at
the `sret`. The model's readings are that no other word of a resident workspace's image is taken (log 9), that `tsw.B` follows the
slot's task (log 27), that the reason of ILLEGAL is OPERAND (log 22) and that the address of the trap is the resumed pc (log 123). -/
def Obligations.ReturnForms : Prop :=
  ∀ (a : SReg) (la : Bool) (s : State),
    let raise := fun (cause reason : Nat) => Host.Outcome.next (s.trap (Trap.mk0 cause reason 0 0))
    let resumes := fun (i : Instr) (wp : Nat) (extra : State → Prop) => ∀ r, s.core.alt = some r → s.core.holds r wp = true → r.mask = 0 →
      s.core.res.wp + 9216 ≤ wp ∨ wp + 9216 ≤ s.core.res.wp → Memory.wf s.core.pad = true → RingsOff s →
      s.sx.task.overrun = false →
      let word := fun (j : Nat) => BitVec.ofNat 64 (s.core.padNat (wp + 8640 + 8 * j) 8)
      ∃ u, exec i s = .next u ∧ u.slot.wp = wp ∧ u.core.res.wp = wp ∧ u.slot.icnt = s.slot.icnt + 1 ∧
        u.ws.pc = word 0 ∧
        u.ws.tsw = setFld (setFld (word 1 &&& 0xFF15) 17 16 s.core.cur.val) 1 1 (bit01 s.sx.task.booked) ∧
        u.ws.prog = word 7 &&& 0x1FF ∧
        (∀ x, u.ws.getS x = r.ws.getS x) ∧ (∀ x, u.ws.getV x = r.ws.getV x) ∧ (∀ x, u.ws.getM x = r.ws.getM x) ∧
        (∀ x, u.ws.getC x = r.ws.getC x) ∧ (∀ x, u.ws.getK x = r.ws.getK x) ∧ u.ws.atp = r.ws.atp ∧
        (∀ x, readByte u.mem x = readByte s.mem x) ∧ extra u
    let runs := fun (u : State) (wp : Nat) => u.slot.wp = wp ∧ u.core.res.wp = wp ∧ u.core.res.mask = 0 ∧
      u.slot.icnt = s.slot.icnt + 1 ∧ fld u.ws.tsw 17 16 = s.core.cur.val ∧ u.ws.tsw.getLsbD 3 = false
    let resumed := ((s.core.onWs (fun w => { w with pc := s.nextPc, prog := 0 })).switchTo s.slot.fault.fwp.toNat).res.ws.pc
    (s.sup = false → exec .sret s = raise 0x03 0 ∧ exec (.wsw a la) s = raise 0x03 0) ∧
    (s.sup = true → wpOk s.slot.fault.fwp.toNat = true → 2 ^ 55 ≤ resumed.toNat →
      exec .sret s = .next (s.trap (Trap.mk0 0x06 0x01 resumed 0))) ∧
    (s.sup = true → wpOk s.slot.fault.fwp.toNat = true → resumed.toNat < 2 ^ 55 → resumes .sret s.slot.fault.fwp.toNat (fun u =>
      u.slot.tctl = setFld s.slot.tctl 32 32 0)) ∧
    (s.sup = true → wpOk s.slot.fault.fwp.toNat = true → resumed.toNat < 2 ^ 55 →
      ∃ u, exec .sret s = .next u ∧ runs u s.slot.fault.fwp.toNat) ∧
    (TokensFree s [a] → s.sup = true → wpOk (s.ws.getS a).toNat = true →
      ∃ u, exec (.wsw a la) s = .next u ∧ runs u (s.ws.getS a).toNat) ∧
    (s.sup = true → wpOk s.slot.fault.fwp.toNat = false → exec .sret s = .next (s.trap (illegalTrap s))) ∧
    (TokensFree s [a] → s.sup = true → wpOk (s.ws.getS a).toNat = true → resumes (.wsw a la) (s.ws.getS a).toNat (fun u =>
      u.slot.trk = Tracker.mk 0 0 ∧ u.core.carry = Tracker.mk (s.core.carry.count + s.slot.trk.count) (max s.core.carry.v s.slot.trk.v))) ∧
    (TokensFree s [a] → s.sup = true → wpOk (s.ws.getS a).toNat = false →
      exec (.wsw a la) s = .next (s.trap (illegalTrap s)))

/-- R33, R39, R384 to R386: root invalidates translations once its own accesses have completed: the entries of one page range, of one
function, or all of them leave every TLB; `replayall` reissues the parked translations; `notate` writes its mark and nothing else. -/
def Obligations.ControlForms : Prop :=
  ∀ (a b c : SReg) (la lb lc : Bool) (imm : BitVec 16) (s : State),
    let vfn := fld (s.ws.getS c) 5 0
    let lo := (s.ws.getS a).toNat
    let n := (s.ws.getS b).toNat
    let quiet := s.root = true ∧ s.booked = false ∧ s.slot.outLoads = 0 ∧ s.slot.trk.count = 0 ∧ s.core.carry.count = 0 ∧
      s.slot.relq = [] ∧ (s.frmOn = true ∨ s.trackV ≤ s.releaseTime s.dn)
    let clears := fun (i : Instr) (ks : List (Bool × SReg)) (p : TlbEntry → Bool) =>
      ∃ t, Retires i s t 0 ks 0 ∧ t.ws = s.ws ∧ t.mem = s.mem ∧ (∀ k, (t.coreOf k).tlb = (s.coreOf k).tlb.filter (fun e => !p e)) ∧
        (∀ k, (t.cluster k).tlb = (s.cluster k).tlb.filter (fun e => !p e))
    (quiet → TokensFree s [a, b, c] → clears (.tlbinv a b c la lb lc) [(la, a), (lb, b), (lc, c)] (fun e =>
      e.vfn == vfn && decide (0 < n) && decide (e.vbase * 65536 < lo + n) &&
        decide (lo < (e.vbase + pageFrames e.size) * 65536))) ∧
    (quiet → TokensFree s [c] → clears (.tlbinvVf c lc) [(lc, c)] (fun e => e.vfn == vfn)) ∧
    (quiet → clears .tlbinvAll [] (fun _ => true)) ∧
    (s.root = true → Retires .replayall s (s.replayAll s.cl) 0 [] 0) ∧
    (s.root = false → ∀ i ∈ [Instr.tlbinv a b c la lb lc, .tlbinvVf c lc, .tlbinvAll, .replayall],
      exec i s = .next (s.trap (Trap.mk0 0x03 0 0 0))) ∧
    Retires (.notate imm) s (s.note s.cn 0x82 none [BitVec.ofNat 32 (imm.toNat + s.core.cur.val * 65536)]) 0 [] 0

/-! ## Events (spec/02 to spec/15) -/

/-- R7, R38, R40, R43, R47, R70, R74, R136, R389, R390, R422: an aligned 8-byte access of a VFN 0 supervisor to a device page reads a
device register, or writes it in the next cycle; such an access where no register lies stops (log entry 17). Writes of device
registers take the fields that can be written; a write that a condition rules out has no effect. The package is in fabric release mode
from a write of EN that sets it until every die has answered one that clears it. The bits of the words of templates and map windows are
the model's choice (log entry 17). -/
def Obligations.RegisterEvents : Prop :=
  ∀ (v : Word) (f k cl entry core die i w h n code : Nat) (b refused : Bool) (s : State),
    let goes := fun (i : Instr) (p : State → Prop) => ∃ u, exec i s = .next u ∧ p u
    let due := fun (u : State) (v : Event) => ∃ k, (k, v) ∈ u.pending
    let writes := fun (r : DevReg) => goes (.registerWrite r v)
    let clamp := fun (lo hi x : Nat) => max lo (min hi x)
    let dstat := (s.coreOf core).dbg.dstat
    let busy := s.pkg.frmBusy
    let dies := s.computeDies ++ upto 8 10
    let ranges := (s.fn f).ranges
    let key := k % 16 + (if b then 1000 else 0)
    let adj := s.pkg.adjctl
    (∀ (d a : SReg) (imm : BitVec 16) (e : TlbEntry), TokensFree s [a, d] → Sound s →
      let va := s.ws.getS a + imm.signExtend 64
      let pa := (e.place va.toNat).pa
      (ReachesDevice s .load va e → match Config.deviceReg pa with
        | none => exec (.ld { w := .b64, uns := false } d a imm) s = .fault (.deviceRegister pa)
        | some r => goes (.ld { w := .b64, uns := false } d a imm) (fun u =>
            Writes s u d [] (s.readDevice r).1 ∧ KeepsBytes s u)) ∧
      (ReachesDevice s .store va e → match Config.deviceReg pa with
        | none => exec (.st { w := .b64, uns := false } d a imm) s = .fault (.deviceRegister pa)
        | some r => goes (.st { w := .b64, uns := false } d a imm) (fun u =>
            Writes s u 0 [] 0 ∧ KeepsBytes s u ∧ (s.pkg.ptime + 1, .registerWrite r (s.ws.getS d)) ∈ u.pending))) ∧
    writes (.vkey f) (fun u => (u.fn f).vkey = v &&& 0x7FFFF ∧ KeepsBytes s u) ∧
    writes (.share f) (fun u => (u.fn f).share = clamp 1 256 (fld v 8 0) ∧ KeepsBytes s u) ∧
    (i < ranges.length → writes (.rangeBase f i) (fun u => (u.fn f).ranges[i]? = some (fld v 35 0, (ranges.getD i (1, 0)).2)) ∧
      writes (.rangeLimit f i) (fun u => (u.fn f).ranges[i]? = some ((ranges.getD i (1, 0)).1, fld v 35 0))) ∧
    writes .llen1 (fun u => mapGet u.pkg.lenNext 0 = some (clamp 16 65535 (fld v 15 0)) ∧ u.pkg.llen1 = s.pkg.llen1) ∧
    writes .llen2 (fun u => mapGet u.pkg.lenNext 1 = some (clamp 64 1048575 (fld v 19 0)) ∧ u.pkg.llen2 = s.pkg.llen2) ∧
    writes .gband (fun u => mapGet u.pkg.lenNext 2 = some (clamp 8 4094 (fld v 11 0 / 2 * 2)) ∧ u.pkg.gband = s.pkg.gband) ∧
    writes .lcut (fun u => mapGet u.pkg.lenNext 3 = some (fld v 19 0) ∧ u.pkg.lcut = s.pkg.lcut) ∧
    (w < 32 → w ≠ 13 → writes (.record die i w) (fun u => (u.record die (i % 512)).w[fin32 w] = v &&& recordMask w)) ∧
    writes (.record die i 13) (fun u => (u.record die (i % 512)).state =
      if (s.record die (i % 512)).state < 2 then fld v 0 0 else (s.record die (i % 512)).state) ∧
    writes (.level die i 0) (fun u => lvField (u.level die (i % 1024)) 31 0 = fld v 31 0 ∧ (u.level die (i % 1024)).getLsbD 116 = false) ∧
    (h ≠ 0 → writes (.level die i h) (fun u => lvField (u.level die (i % 1024)) 114 112 = fld v 50 48 ∧
      lvField (u.level die (i % 1024)) 122 117 = fld v 58 53)) ∧
    (∀ j ∈ [8, 9, 10, 11, 12], writes (.template die f j) (fun u =>
      (mapGet (u.die die).templates f).map (fun t => t.word j) = some (v &&& recordMask j))) ∧
    writes (.template die f 0) (fun u => (mapGet (u.die die).templates f).map (fun t => t.on) = some (v.getLsbD 0)) ∧
    writes (.mapWindow b k 0) (fun u => (mapGet u.pkgx.maps key).map (fun m => m.word 0) = some (v &&& 0xFF1F)) ∧
    writes (.mapWindow b k 1) (fun u => (mapGet u.pkgx.maps key).map (fun m => m.word 1) = some (v &&& 0xFFFFFFFF0000)) ∧
    (2 ≤ w → writes (.mapWindow b k w) (fun u => (mapGet u.pkgx.maps key).map (fun m => m.word w) = some (v &&& 0xFFFFFFFF0000 ||| 0xFFFF))) ∧
    (k = 0 ∨ 511 < k → exec (.registerWrite (.keySlot k) v) s = .next s) ∧
    (0 < k → k < 512 → writes (.keySlot k) (fun u => u.keyLoaded k = v.getLsbD 0 ∧
      ∀ j, 0 < j → j ≠ k → u.keyLoaded j = s.keyLoaded j)) ∧
    (s.pkgx.featDone = true → exec (.registerWrite (.featacc h) v) s = .next s) ∧
    (s.pkgx.featDone = false → writes (.featacc h) (fun u => halfOf u.pkgx.accept h = v)) ∧
    writes .sssel (fun u => u.pkg.sssel = v &&& 0xFFF) ∧ writes .storm (fun u => u.pkg.storm = v &&& 0xFFFF) ∧
    writes .adjctl (fun u => fld u.pkg.adjctl 9 6 = fld v 9 6 ∧
      (v.getLsbD 12 = v.getLsbD 11 → fld u.pkg.adjctl 5 0 = fld adj 5 0) ∧
      (v.getLsbD 12 = true → v.getLsbD 11 = false → u.pkg.adjctl.getLsbD 0 = true ∧ u.pkg.adjctl.getLsbD 5 = true) ∧
      (v.getLsbD 12 = false → v.getLsbD 11 = true → adj.getLsbD 0 = true → adj.getLsbD 10 = true → s.pkg.adjNow = 0 →
        fld u.pkg.adjctl 5 0 = 0)) ∧
    exec (.registerWrite .wdog v) s = exec (.wdogWrite v) s ∧
    writes .numVfs (fun u => u.pkgx.numVfs = min 63 (fld v 15 0) ∧ u.pkgx.vfEnable = v.getLsbD 16) ∧
    (v.getLsbD 63 = false → exec (.registerWrite (.kmiss cl) v) s = .next s) ∧
    (v.getLsbD 63 = true → writes (.kmiss cl) (fun u => (u.cluster cl).kmiss = 0 ∧ u.core = s.core)) ∧
    exec (.registerWrite .frmode v) s = exec (.frmodeWrite v) s ∧
    exec (.registerWrite .featstat v) s = (if v.getLsbD 1 then exec .featstatGo s else .next s) ∧
    exec (.registerWrite (.featoff h) v) s = .next s ∧ exec (.registerWrite .ssptr v) s = .next s ∧
    exec (.registerWrite (.ssdata h) v) s = .next s ∧
    (dstat.getLsbD 0 = false ∨ n < 0x800 → exec (.registerWrite (.coreReg core i n) v) s = .next s) ∧
    (dstat.getLsbD 0 = true → 0x802 ≤ n → n < 0x806 → writes (.coreReg core i n) (fun u =>
      (u.coreOf core).dbg.dbp[fin4 (n - 0x802)] = v &&& 0x7FFFFFFFFFFFFF)) ∧
    (dstat.getLsbD 0 = true → writes (.coreReg core i 0x861) (fun u => ((u.coreOf core).slot (fin4 (i % 4))).icnt = v.setWidth 48)) ∧
    (dstat.getLsbD 0 = true → 0x800 ≤ n → exec (.registerWrite (.coreReg core i n) v) s =
      .next (s.asCore core (fin4 (i % 4)) (fun t => t.writeDebug n v))) ∧
    ((s.cluster cl).fb[fin8 (entry % 8)].valid = false → exec (.fbdlvWrite cl entry) s = .next s) ∧
    ((s.cluster cl).fb[fin8 (entry % 8)].valid = true → goes (.fbdlvWrite cl entry) (fun u =>
      u = s.deliverEntry cl (fin8 (entry % 8)) ∧ (u.cluster cl).fb[fin8 (entry % 8)].valid = false)) ∧
    goes (.kmissClr cl) (fun u => (u.cluster cl).kmiss = 0 ∧ u.mem = s.mem ∧ u.core = s.core) ∧
    (dstat.getLsbD 0 = true → exec (.dctlStop core) s = .next s) ∧
    (dstat.getLsbD 0 = false → goes (.dctlStop core) (fun u => (u.coreOf core).dbg.dstat = setFld dstat 1 1 1 ∧ u.mem = s.mem)) ∧
    (dstat.getLsbD 0 = false → exec (.dctlResume core) s = .next s) ∧
    (dstat.getLsbD 0 = true → goes (.dctlResume core) (fun u => (u.coreOf core).dbg.dstat.getLsbD 0 = false ∧
      ∀ i, ((s.coreOf core).slot i).st = .stop → ((u.coreOf core).slot i).st = ((s.coreOf core).slot i).prev)) ∧
    (dstat.getLsbD 1 = false → exec (.stopTakesEffect core) s = .next s) ∧
    (dstat.getLsbD 1 = true → goes (.stopTakesEffect core) (fun u => (u.coreOf core).dbg.dstat.getLsbD 0 = true ∧
      (u.coreOf core).dbg.dstat.getLsbD 1 = false ∧ ∀ i, ((u.coreOf core).slot i).st = .stop)) ∧
    (s.pkgx.featDone = true → exec .featstatGo s = .next s) ∧
    (s.pkgx.featDone = false → goes .featstatGo (fun u => u.pkgx.enabled = s.pkgx.offer &&& s.pkgx.accept ∧ u.pkgx.featDone = true)) ∧
    (s.pkgx.enabled.getLsbD 10 = false → exec (.frmodeWrite v) s = .next s) ∧
    (s.pkgx.enabled.getLsbD 10 = true → busy = [] → goes (.frmodeWrite v) (fun u =>
      u.pkg.frmEn = v.getLsbD 0 ∧ u.frmOn = (s.frmOn || v.getLsbD 0) ∧ u.pkg.frmEntry = (v.getLsbD 0 && !s.frmOn) ∧
      u.pkg.frmBusy = dies ∧ ∀ d ∈ dies, due u (.frm d (v.getLsbD 0)))) ∧
    (s.pkgx.enabled.getLsbD 10 = true → busy ≠ [] → exec (.frmodeWrite v) s =
      .next { s with pkg := { s.pkg with frmNext := s.pkg.frmNext ++ [v.getLsbD 0] } }) ∧
    (s.pkg.frmEntry = true → goes (.frm die true) (fun u =>
      (u.die die).clk.lstat.getLsbD 0 = false ∧ u.mem = s.mem ∧ due u (.ack die 5 false))) ∧
    (s.pkg.frmEntry = false → exec (.frm die true) s = .next (s.post s.pkg.ptime (.ack die 5 false))) ∧
    (s.frmOn = false ∨ s.heldReleases die = false → exec (.frm die false) s = .next (s.post s.pkg.ptime (.ack die 5 false))) ∧
    (s.frmOn = true → s.heldReleases die = true → goes (.frm die false) (fun u => u.mem = s.mem ∧ due u (.frm die false))) ∧
    (setDel busy die ≠ [] ∨ s.pkg.frmNext = [] → goes (.ack die 5 refused) (fun u => u.pkg.frmBusy = setDel busy die ∧
      u.pkg.frmEn = s.pkg.frmEn ∧ u.frmOn = (s.frmOn && (s.pkg.frmEn || !(setDel busy die).isEmpty)))) ∧
    (∀ en rest, setDel busy die = [] → s.pkg.frmNext = en :: rest → goes (.ack die 5 refused) (fun u =>
      u.pkg.frmEn = en ∧ u.pkg.frmNext = rest ∧ u.pkg.frmBusy = dies ∧ ∀ d ∈ dies, due u (.frm d en))) ∧
    (code ≠ 3 → code ≠ 5 → exec (.ack die code refused) s = .next s) ∧
    goes (.spdmRequest code) (fun u => u.pkgx.spdm = code ∧ u.mem = s.mem ∧ u.core = s.core)

/-- R49, R393, R394, R400 to R403, R407, R423, R426: the recorders' timers, adjournment and re-arming, errors of memory, the watchdog, a
divergence, the resets and what they keep, power and temperature. A trigger that is not enabled leaves the recorders as they are. A
re-arming clears the causes but for triggers of the same cycle; a line buffer that has waited 1,024 cycles is written to the ring's
next line, and WPTR passes it once its visibility time has come. What the resets keep of memory, of the dies and of the controller's
record (log entries 81, 113), the throttle's steps of a sixteenth (log entry 110), how many retries a storm counts (log entry 109) and
the place of a ring's line (log entry 20) are the model's choices. -/
def Obligations.RecorderEvents : Prop :=
  ∀ (core die why kind want got mw deg tid addr line vt : Nat) (lcl log refused : Bool) (v : Word) (s : State),
    let goes := fun (i : Instr) (p : State → Prop) => ∃ u, exec i s = .next u ∧ p u
    let due := fun (u : State) (v : Event) => ∃ k, (k, v) ∈ u.pending
    let adj := s.pkg.adjctl
    let d := (s.coreOf core).dbg
    let ring := fun (u : State) => if log then (u.coreOf core).dbg.mlog else (u.coreOf core).dbg.note
    let late := fun (r : Ring) => r.buf ≠ [] ∧ r.first + 1024 ≤ s.pkg.ptime
    let first : List (BitVec 32) := (d.note.buf ++ List.replicate 16 0).take 16
    let place := basePlace (fld d.note.base 51 6 * 64 + d.note.idx / 16 * 64)
    let silent := d.note.ctl.getLsbD 0 = true ∧ d.note.last < s.pkg.ptime ∧ (s.pkg.ptime - d.note.last) % 4194303 = 0
    let triggers := fun (u : State) (why : Nat) => adj.getLsbD (5 + why) = true →
      u.pkg.adjctl.getLsbD 0 = true ∧ u.pkg.adjctl.getLsbD why = true
    let spared := fun (u : State) (why : Nat) => adj.getLsbD (5 + why) = false → u.pkg.adjctl = adj
    let caused := fun (u : State) (why : Nat) => triggers u why ∧ spared u why
    let rearms := fun (i : Instr) =>
      (adj.getLsbD 0 = false ∨ adj.getLsbD 10 = false → exec i s = .next s) ∧
      (adj.getLsbD 0 = true → adj.getLsbD 10 = true → goes i (fun u => u.pkg.adjctl.getLsbD 10 = false ∧
        (s.pkg.adjNow = 0 → u.pkg.adjctl = setFld (setFld adj 5 0 0) 10 10 0)))
    rearms .adjctlRearm ∧ rearms .rearm ∧
    goes .adjctlNow (fun u => u.pkg.adjctl = adj ||| 0x21) ∧
    goes (.adj why) (fun u => ∀ i, i < 5 → why.testBit i = true → i = 4 ∨ adj.getLsbD (6 + i) = true →
      u.pkg.adjctl.getLsbD 0 = true ∧ u.pkg.adjctl.getLsbD (i + 1) = true) ∧
    ((∀ i, i < 5 → why.testBit i = true → i ≠ 4 ∧ adj.getLsbD (6 + i) = false) → exec (.adj why) s = .next s) ∧
    goes (.wdogWrite v) (fun u => u.pkg.wdog = BitVec.ofNat 64 (fld v 31 0) ∧
      u.pkg.wdogStart = (if fld v 31 0 = 0 then none else some s.pkg.ptime) ∧ (fld v 31 0 ≠ 0 → due u .watchdogExpiry)) ∧
    (s.pkg.wdogStart = none → exec .watchdogExpiry s = .next s) ∧
    (∀ t, s.pkg.wdogStart = some t → s.pkg.ptime < t + fld s.pkg.wdog 31 0 * 65536 → exec .watchdogExpiry s = .next s) ∧
    (∀ t, s.pkg.wdogStart = some t → t + fld s.pkg.wdog 31 0 * 65536 ≤ s.pkg.ptime → goes .watchdogExpiry (fun u =>
      u.pkg.wdogStart = none ∧ caused u 3)) ∧
    (fld s.pkg.storm 15 0 = 0 → exec (.retryStorm die) s = .next s) ∧
    (fld s.pkg.storm 15 0 ≠ 0 → goes (.retryStorm die) (fun u => fld s.pkg.storm 15 0 ≤ (u.die die).retries ∧ caused u 4)) ∧
    goes (.eccError lcl core addr true) (fun u => KeepsBytes s u ∧ u.bad = s.bad ∧ caused u 1) ∧
    goes (.eccError true core addr false) (fun u => KeepsBytes s u ∧ setHas (u.coreOf core).padBad (addr / 8) = true ∧ caused u 1) ∧
    goes (.eccError false core addr false) (fun u => KeepsBytes s u ∧ setHas u.bad (addr / 8) = true ∧ caused u 1) ∧
    (¬ late d.note → ¬ late d.mlog → d.note.out = [] → d.mlog.out = [] → goes (.notationLineWrite core) (fun u => KeepsBytes s u ∧
      (u.coreOf core).dbg.note = d.note ∧ (u.coreOf core).dbg.mlog = d.mlog)) ∧
    (late d.note → goes (.notationLineWrite core) (fun u => (u.coreOf core).dbg.note.buf = [])) ∧
    (late d.mlog → goes (.notationLineWrite core) (fun u => (u.coreOf core).dbg.mlog.buf = [])) ∧
    (late d.note → ¬ late d.mlog → d.note.out = [] → d.mlog.out = [] → Memory.wf s.mem = true → goes (.notationLineWrite core) (fun u =>
      readLocs u.mem ((List.range 64).map place.loc) = first.flatMap (fun w => toBytes 4 w.toNat) ∧
      (u.coreOf core).dbg.note.idx = (d.note.idx / 16 + 1) % fld d.note.ctl 31 8 * 16)) ∧
    (∀ l t, ¬ late d.note → ¬ late d.mlog → d.note.out = [l] → d.mlog.out = [] → l.sent = true → l.vt = some t →
      t ≤ s.releaseTime (dieOf core) → goes (.notationLineWrite core) (fun u =>
        fld (u.coreOf core).dbg.note.ptr 31 0 = l.next % 2 ^ 32 ∧ (u.coreOf core).dbg.note.out = [])) ∧
    (∀ l, (ring s).out = [l] → l.sent = true → l.vt = none → (basePlace l.addr).line 0 = line →
      goes (.wak (.ring core log) line vt refused) (fun u => (ring u).out = [{ l with vt := some vt }] ∧
        due u (.notationLineWrite core))) ∧
    (¬ silent → exec (.notationTimeRecord core) s = .next s) ∧
    (silent → exec (.notationTimeRecord core) s = .next (s.note core 0x81 none [])) ∧
    goes (.divergence core kind want got) (fun u => (∀ i, ((u.coreOf core).slot i).st = .stop) ∧
      (u.coreOf core).dbg.dvrep = BitVec.ofNat 64 (kind + (s.coreOf core).cur.val * 16 + want * 256 + got * 65536)) ∧
    goes .coldReset (fun u => u.core = Core.reset ∧ u.others = [] ∧ u.dies = [] ∧ u.clusters = [] ∧
      u.pkg = { Pkg.reset with hsplit := s.pkg.hsplit } ∧ u.pkgx.offer = s.pkgx.offer ∧ u.pkgx.roles = s.pkgx.roles ∧
      u.pkgx.enabled = 0 ∧ (1 ∉ s.pkgx.forged → u.pkgx.boot = 2 ∧ u.pending = State.reset.pending) ∧
      (1 ∈ s.pkgx.forged → u.pkgx.boot = 1 ∧ u.pkgx.recovery = true ∧ u.pending = []) ∧ u.tags = [] ∧
      u.mem = s.mem.filter (fun c => decide (2 ^ 49 ≤ c.1))) ∧
    goes .warmReset (fun u => u.core = Core.reset ∧ u.others = [] ∧ u.mem = s.mem ∧ u.tags = s.tags ∧ u.bad = s.bad ∧
      u.lineKey = s.lineKey ∧ u.pkg.keys = s.pkg.keys ∧ u.pkg.ptime = 0 ∧ u.pending = State.reset.pending ∧
      (u.tile tid).gen = (s.tile tid).gen ∧ (u.tile tid).state = 0 ∧
      fld (u.die die).clk.lstat 15 8 = fld (s.die die).clk.lstat 15 8 ∧ u.pkg.score.length = min 4096 (s.pkg.score.length + 1)) ∧
    goes .thermalShutdown (fun u => u.mem = s.mem ∧ u.core = Core.reset ∧ u.pending = [] ∧ u.pkgx.boot = 0) ∧
    goes (.powerSample mw deg) (fun u => u.pkgx.power = mw ∧ u.pkgx.degrees = deg ∧ u.pkgx.throttle =
      (if 105 ≤ deg then 15 else if 4000000 < mw then min 15 (s.pkgx.throttle + 1) else s.pkgx.throttle - 1) ∧ u.mem = s.mem ∧
      (115 ≤ deg → due u .thermalShutdown))

/-- R79 to R90, R107, R117: the messages of the line directory, for a die's fills, cuts, ownership and recalls. A fill is granted with its
expiry and noted as a hint; a cut takes the die's copy and is answered; the last answer, or the horizon, ends it and sends the `vt`
that writes wait for; ownership is granted when no other die has the line; a recall takes the owner's copy. A write changes the
bytes of its mask, but for a tile line, which refuses it; every other message here leaves each byte as it is. An atomic changes its
bytes and returns the old value. What finds the line in M at another die waits at the home. The recorders are off, and no copy of an
older key is cached. That a fill and a recall answer change no byte, since memory holds each byte once (log entry 4), and the count of
recalls that are held (log entry 80) are the model's choices. -/
def Obligations.DirectoryEvents : Prop :=
  ∀ (line die expiry core addr n : Nat) (slot : SlotId) (mask : BitVec 64) (data : BitVec 512) (tags : BitVec 4) (fvfn : Nat)
    (x : LineFill) (y : LineRecalled) (f : AmoOp) (t : IT) (b c : Word) (d : SReg) (src : AmoSource) (vt : Nat) (refused : Bool) (s : State),
    RingsOff s → Settled s → Memory.wf s.mem = true →
    let goes := fun (i : Instr) (p : State → Prop) => ∃ u, exec i s = .next u ∧ p u
    let due := fun (u : State) (v : Event) => ∃ k, (k, v) ∈ u.pending
    let e := s.entry line
    let z := s.entry y.line
    let h := s.lineHome line
    let now := s.ptimeOf h
    let key := (mapGet s.lineKey line).getD 0
    let elsewhere := e.st = 2 ∧ e.odie ≠ die
    let plain := fun (z : DirEntry) => ∀ w ∈ z.waits, match w.req with
      | some (.amo _ _ _ _ _ _ _ _ _) => False
      | _ => True
    let left := s.answerLeft z.odie y.line
    let masked := fun (u : State) => ∀ a, readByte u.mem a =
      if a / 64 = line ∧ mask.getLsbD (a % 64) = true then data.extractLsb' (8 * (a % 64)) 8 else readByte s.mem a
    let cutOver := fun (u : State) => (u.entry line).cutting = false ∧ (u.entry line).hint = 0 ∧ (u.entry line).cuas = [] ∧
      ∀ w ∈ e.waits, w.recalls = false → w.snoop = false → w.dst ≠ .none → ∃ v, due u (.wak w.dst line v false)
    let writer := WakDst.slot core slot ((s.coreOf core).slot slot).wseq
    (plain e → plain z → ∀ i ∈ [Instr.rdl line die, .rdu line die, .gnt line die expiry, .fil x die, .own line die, .oak line die,
        .cut line die, .cuaDue line die, .cua line die, .cutCompletion line, .leaseHorizonPass line, .rcl line, .rca y, .recallHeld line],
      goes i (fun u => ∀ a, readByte u.mem a = readByte s.mem a)) ∧
    (s.lineWaits line die = true → exec (.rdl line die) s = .next ((s.askLine line die).holdReq line die (.rdl line die)) ∧
      exec (.rdu line die) s = .next ((s.askLine line die).holdReq line die (.rdu line die))) ∧
    (die < 8 → die ≠ h → hbmLine line = true → e.st < 2 → e.cutting = false → s.locked h = true →
      goes (.rdl line die) (fun u => (u.entry line).st = 1 ∧ (u.entry line).hint.getLsbD die = true ∧
        now + s.pkg.llen2 ≤ (u.entry line).hz ∧ (u.l2Any h line).isSome = true ∧ due u (.gnt line die (now + s.pkg.llen2)) ∧
        ∃ z, due u (.fil ⟨line, BitVec.allOnes 64, z⟩ die))) ∧
    (s.lineWaits line die = false → goes (.rdu line die) (fun u => due u (.gnt line die 0) ∧
      ∃ z, due u (.fil ⟨line, BitVec.allOnes 64, z⟩ die))) ∧
    (h = die ∨ s.locked die = false ∨ e.cutting = true ∨ e.hint.getLsbD die = false ∨ expiry = 0 →
      exec (.gnt line die expiry) s = .next s) ∧
    (h ≠ die → s.locked die = true → e.cutting = false → e.hint.getLsbD die = true → expiry ≠ 0 →
      goes (.gnt line die expiry) (fun u => ∃ z, u.l2Get die line key = some z ∧ z.exp = expiry)) ∧
    (s.l2Any die x.line = none → exec (.fil x die) s = .next s) ∧
    (∀ z, s.l2Any die x.line = some z → goes (.fil x die) (fun u => ∃ w, (u.l2Set die x.line).head? = some w ∧
      w.line = x.line ∧ w.key = z.key)) ∧
    (s.tileRefuses core line = true → goes (.wrq line die core slot mask ⟨data, fvfn⟩) (fun u => u.mem = s.mem ∧
      due u (.wak writer line 0 true))) ∧
    (s.tileRefuses core line = false → goes (.wrq line die core slot mask ⟨data, fvfn⟩) (fun u => masked u ∧
      ((u.coreOf core).slot slot).trk.count = ((s.coreOf core).slot slot).trk.count + 1)) ∧
    (die ∉ e.ownReq → elsewhere → goes (.own line die) (fun u => (u.entry line).ownReq = e.ownReq ∧
      (u.entry line).recalled.isSome = true ∧ ∃ w ∈ (u.entry line).waits, w.req = some (.own line die))) ∧
    (e.ownReq = [] → e.st = 0 → e.cutting = false → e.hint = 0 → hbmLine line = true → goes (.own line die) (fun u =>
      (u.entry line).ownReq = [die] ∧ due u (.oak line die))) ∧
    (e.ownReq = [] → e.st = 1 → e.cutting = false → now < e.hz + s.pkg.gband → hbmLine line = true → ∀ k ∈ hintDies e.hint, k ≠ die →
      goes (.own line die) (fun u => (u.entry line).ownReq = [die] ∧ (u.entry line).cutting = true ∧ due u (.cut line k))) ∧
    (e.ownReq ≠ [] → die ∉ e.ownReq → ¬ elsewhere → goes (.own line die) (fun u => (u.entry line).ownReq = e.ownReq ++ [die])) ∧
    (e.ownReq.head? = some die → e.st = 2 ∧ e.odie = die ∨ e.st < 2 ∧ e.lhz ≤ now → e.cutting = false →
      (∀ k ∈ hintDies e.hint, k = die) → s.hostOwns line = true → (∀ w ∈ e.waits, w.recalls = false) → (s.l2Set die line).length < 16 →
      goes (.oak line die) (fun u => (u.entry line).st = 2 ∧ (u.entry line).odie = die ∧ (u.entry line).hint = 0 ∧
        (u.entry line).ownReq = e.ownReq.drop 1 ∧ (u.l2Any die line).isSome = true)) ∧
    ((s.die die).clk.running = false → exec (.cut line die) s = .next s ∧ exec (.cuaDue line die) s = .next s) ∧
    ((s.die die).clk.running = true → goes (.cut line die) (fun u => u.l2Any die line = none ∧ due u (.cuaDue line die)) ∧
      (s.answerLeft die line = 0 → exec (.cuaDue line die) s = .next ((s.answered die line).post s.pkg.ptime (.cua line die))) ∧
      (s.answerLeft die line ≠ 0 → exec (.cuaDue line die) s =
        .next (s.once (s.pkg.ptime + s.answerLeft die line) (.cuaDue line die)))) ∧
    (e.cutting = false ∨ die ∉ e.cuas → exec (.cua line die) s = .next s) ∧
    (e.cutting = true → die ∈ e.cuas → (∃ k ∈ e.cuas, k ≠ die) → goes (.cua line die) (fun u => (u.entry line).cutting = true ∧
      (u.entry line).cuas = e.cuas.filter (fun k => k != die))) ∧
    (e.cutting = true → e.cuas = [die] → e.ownReq = [] → goes (.cua line die) cutOver) ∧
    (e.cutting = true → e.hz + s.pkg.gband ≤ s.releaseTime h → e.ownReq = [] → goes (.cutCompletion line) cutOver) ∧
    (e.st = 1 → e.cutting = false → e.hz + s.pkg.gband ≤ now → goes (.leaseHorizonPass line) (fun u =>
      (u.entry line).st = 0 ∧ (u.entry line).hint = 0 ∧ (u.entry line).hz = 0)) ∧
    (e.recalled = none → exec (.rcl line) s = .next s ∧ exec (.recallHeld line) s = .next s) ∧
    (e.recalled ≠ none → (s.die e.odie).clk.running = true → goes (.rcl line) (fun u => u.l2Any e.odie line = none ∧
      ∃ z, due u (.rca ⟨line, z⟩))) ∧
    (z.recalled = none → exec (.rca y) s = .next s) ∧
    (z.recalled ≠ none → left ≠ 0 → exec (.rca y) s = .next (s.once (s.pkg.ptime + left) (.rca y))) ∧
    (z.recalled ≠ none → left = 0 → z.ownReq = [] → z.waits = [] → z.leaves = false → goes (.rca y) (fun u =>
      (u.entry y.line).st = (if z.st = 3 then 3 else 0) ∧ (u.entry y.line).recalled = none ∧ ¬ due u (.recallHeld y.line))) ∧
    (∀ k, e.recalled = some k → k + 262144 ≤ now → goes (.recallHeld line) (fun u => (u.die h).held = (s.die h).held + 1 ∧
      ∃ z, u.pkg.score.head? = some z ∧ fld z.w1 7 0 = 3)) ∧
    (∀ k, e.recalled = some k → now < k + 262144 → exec (.recallHeld line) s =
      .next (s.once (s.pkg.ptime + (k + 262144 - now)) (.recallHeld line))) ∧
    (plain e → goes (.wbd line mask ⟨data, tags⟩) masked) ∧
    (e.st = 3 → goes (.wbd line mask ⟨data, tags⟩) (fun u => (u.entry line).st = 3 ∧ (u.entry line).held = false)) ∧
    (e.st = 2 → e.recalled = none → e.ownReq = [] → e.waits = [] → goes (.wbd line mask ⟨data, tags⟩) (fun u =>
      (u.entry line).st = 0)) ∧
    goes (.wak (.slot core slot n) line vt refused) (fun u =>
      let p := (s.coreOf core).slot slot
      let q := (u.coreOf core).slot slot
      let one := fun (z : Tracker) => Tracker.mk (z.count - 1) (max z.v vt)
      q.outStores = p.outStores - 1 ∧ q.trk = (if n < p.wbase then p.trk else one p.trk) ∧
      (u.coreOf core).carry = (if n < p.wbase then one (s.coreOf core).carry else (s.coreOf core).carry)) ∧
    (s.tileRefuses core (addr / 64) = true → exec (.amo addr f t b c src core slot d) s = .next s) ∧
    (s.tileRefuses core (addr / 64) = false → s.lineWaits (addr / 64) src.die = true → exec (.amo addr f t b c src core slot d) s =
      .next ((s.askLine (addr / 64) src.die).holdReq (addr / 64) src.die (.amo addr f t b c src core slot d))) ∧
    (addr < 2 ^ 48 → addr % (t.bits / 8) = 0 → s.bad = [] → s.tileRefuses s.cn (addr / 64) = false →
      s.lineWaits (addr / 64) src.die = false → s.keyLoaded (s.placeOfKey addr).key = true → s.slot.wp = s.core.res.wp →
      let k := t.bits / 8
      let old := ofBytes (readLocs s.mem (upto addr k))
      let new := (amoNew f t old (lowBits t b) (lowBits t c)).1
      let done := fun (u : State) => readLocs u.mem (upto addr k) = toBytes k (new.getD old) ∧
        (∀ a, a < addr ∨ addr + k ≤ a → readByte u.mem a = readByte s.mem a) ∧
        ∀ r, u.ws.getS r = if r = d ∧ r ≠ 0 then amoResult f t old else s.ws.getS r
      goes (.amo addr f t b c src s.cn s.core.cur d) done ∧ goes (.vaultAccess addr f t b c s.cn s.core.cur d) done)

/-- R31, R71 to R73, R83, R88, R89, R104 to R106, R118, R119, R137: the clocks, releases, hosts and walks. A beacon takes the lease lengths
written and is noted; a loss of lock retires the epoch; a release at the head of a queue is performed once the writes before it are
acknowledged and time has reached it, in fabric release mode by the router; a host's accesses act on their line while their
port is open, and do nothing before; a walk's result reaches the cluster's TLB. When a port is open (log entry 105) and the list of a
host's writes (log entry 84) are the model's choices. -/
def Obligations.ClockEvents : Prop :=
  ∀ (die time core cl vfn vpn line port seq : Nat) (slot : SlotId) (mask : BitVec 64) (data : BitVec 512) (cacheable : Bool) (d : SReg) (t : IT)
    (old : Word) (x : HostRead) (s : State),
    let goes := fun (i : Instr) (p : State → Prop) => ∃ u, exec i s = .next u ∧ p u
    let due := fun (u : State) (v : Event) => ∃ k, (k, v) ∈ u.pending
    let clk := (s.die die).clk
    let epoch := fun (u : State) => fld (u.die die).clk.lstat 15 8 = (fld clk.lstat 15 8 + 1) % 256 ∧
      (u.die die).clk.lstat.getLsbD 0 = false
    let frm := s.frmOn
    let head := (s.coreOf core).readyRelease slot frm
    let time' := s.releaseTime (dieOf core)
    let e := s.entry line
    let at' := CxlAccess.mk line port
    let cxl := s.cxlOpen port
    goes (.bcn die time) (fun u => u.pkg.lenNext = [] ∧ u.pkg.gband = (mapGet s.pkg.lenNext 2).getD s.pkg.gband ∧
      u.pkg.llen1 = (mapGet s.pkg.lenNext 0).getD s.pkg.llen1 ∧ u.pkg.llen2 = (mapGet s.pkg.lenNext 1).getD s.pkg.llen2 ∧
      (u.die die).clk.lastBeacon = max clk.lastBeacon time ∧ due u (.beaconLoss die)) ∧
    (s.locked die = false ∨ s.pkg.ptime < clk.lastBeacon + 4096 → exec (.beaconLoss die) s = .next s) ∧
    (s.locked die = true → clk.lastBeacon + 4096 ≤ s.pkg.ptime → goes (.beaconLoss die) epoch) ∧
    goes (.clockStop die) (fun u => epoch u ∧ (u.die die).clk.running = false) ∧
    (clk.running = true → exec (.clockResume die) s = .next s) ∧
    (clk.running = false → goes (.clockResume die) (fun u => epoch u ∧ (u.die die).clk.running = true)) ∧
    (head = none → exec (.releaseComplete core slot) s = .next s ∧ exec (.fabricReleaseForward core slot) s = .next s) ∧
    (∀ r, head = some r →
      (frm = false → r.v ≤ time' → exec (.releaseComplete core slot) s = .next (s.performRelease core slot r)) ∧
      (frm = false → time' < r.v → exec (.releaseComplete core slot) s =
        .next (s.postAt (s.pkg.ptime + (r.v - time')) (.releaseComplete core slot))) ∧
      (frm = true → exec (.releaseComplete core slot) s = .next (s.postOnce (.fabricReleaseForward core slot))) ∧
      (frm = true → exec (.fabricReleaseForward core slot) s = .next (s.performRelease core slot r)) ∧
      (frm = false → exec (.fabricReleaseForward core slot) s = .next (s.postOnce (.releaseComplete core slot)))) ∧
    (∀ p sc n bs seq bases v left r rest, s.slot.relq = RelEntry.mk (.store p sc n bs) seq bases 0 v left false r :: rest → frm = false →
      core = s.cn → slot = s.core.cur → v ≤ time' → p.pa % 8 + n ≤ 8 → p.kind ≤ 1 → HeldUnder s p n →
      s.pointReady p (p.line 0) sc false = true → s.relRefused s.cn (.store p sc n bs) = false →
      RingsOff s → Settled s → Memory.wf s.mem = true → goes (.releaseComplete core slot) (fun u =>
        Stores s u ((List.range n).map p.loc) (toBytes n bs.toNat) ∧ u.slot.relq = rest)) ∧
    goes (.visibilityTimeReached core slot) (fun u => u.mem = s.mem ∧ ((u.coreOf core).sx slot).look = true) ∧
    (((s.coreOf core).slot slot).relq = [] → exec (.atomicopCompletion core slot d t old) s = .next s) ∧
    (∀ p sc op t' b c d' wp acq seq bases n v left r rest, ((s.coreOf core).slot slot).relq =
        RelEntry.mk (.amo p sc op t' b c d' wp acq) seq bases n v left true r :: rest →
      goes (.atomicopCompletion core slot d t old) (fun u => ((u.coreOf core).slot slot).relq = rest ∧
        (core = s.cn → wp = s.core.res.wp → ∀ k, u.ws.getS k = if k = d ∧ k ≠ 0 then amoResult op t old.toNat else s.ws.getS k))) ∧
    (s.pkgx.boot < 6 ∨ s.pkgx.enabled.getLsbD 8 = false ∨ mapGet s.pkgx.roles port = none → cxl = false) ∧
    (6 ≤ s.pkgx.boot → s.pkgx.enabled.getLsbD 8 = true → mapGet s.pkgx.roles port = some 0 → cxl = true) ∧
    (cxl = false → exec (.cxlMemRead at' cacheable) s = .next s ∧ exec (.cxlMemWrite at' mask data) s = .next s) ∧
    (cxl = true → e.st < 2 → s.hostHeld line = true → goes (.cxlMemRead at' cacheable) (fun u =>
      (u.entry line).host = (cacheable || e.host))) ∧
    (cxl = true → e.st = 2 → e.odie ≠ 8 → goes (.cxlMemRead at' cacheable) (fun u => (u.entry line).recalled.isSome = true ∧
      ∃ w ∈ (u.entry line).waits, w.req = some (.cxlMemRead at' cacheable))) ∧
    (cxl = true → e.st ≠ 3 → RingsOff s → Settled s → Memory.wf s.mem = true → goes (.cxlMemWrite at' mask data) (fun u =>
      (∀ a, readByte u.mem a = if a / 64 = line ∧ mask.getLsbD (a % 64) = true then data.extractLsb' (8 * (a % 64)) 8
        else readByte s.mem a) ∧ u.pkgx.hostSeq = s.pkgx.hostSeq + 1 ∧
      u.pkgx.hostWrites = s.pkgx.hostWrites ++ [HostWrite.mk s.pkgx.hostSeq line none])) ∧
    (cxl = true → e.st = 3 → goes (.cxlMemWrite at' mask data) (fun u => u.mem = s.mem ∧
      u.pkgx.cxlErrors = s.pkgx.cxlErrors ++ [(port, line)] ∧ ∃ k, u.pkg.score.head? = some k ∧ fld k.w1 7 0 = 4)) ∧
    (e.snoop = false → exec (.birsp line) s = .next s) ∧
    (e.snoop = true → goes (.birsp line) (fun u => (u.entry line).host = false ∧ (u.entry line).snoop = false)) ∧
    (e.st ≠ 2 → e.cutting = false → e.hint = 0 → goes (.hostSnoop line) (fun u =>
      setHas u.pkgx.hostLines line = false ∧ setHas u.pkgx.hostOwned line = false)) ∧
    (e.st = 2 → goes (.hostSnoop line) (fun u => (u.entry line).hostAsks = true ∧ (u.entry line).recalled.isSome = true)) ∧
    (e.st = 1 → e.cutting = false → e.hint ≠ 0 → s.ptimeOf (s.lineHome line) < e.hz + s.pkg.gband → goes (.hostSnoop line) (fun u =>
      (u.entry line).hostAsks = true ∧ (u.entry line).cutting = true)) ∧
    (s.portCaches x.line = false → exec (.cxlCacheResponse x) s = .next s) ∧
    (s.portCaches x.line = true → (s.entry x.line).hostAsks = false → goes (.cxlCacheResponse x) (fun u =>
      setHas u.pkgx.hostLines x.line = true ∧ (x.own = true → setHas u.pkgx.hostOwned x.line = true))) ∧
    goes (.wak (.host seq) line time false) (fun u => u.pkgx.hostWrites =
      s.pkgx.hostWrites.map (fun w => if w.seq = seq then HostWrite.mk w.seq w.line (some time) else w)) ∧
    goes (.tokenRefill core) (fun u => (u.coreOf core).tokens.map (·.1) = s.tenants ∧ u.mem = s.mem) ∧
    ((s.cluster cl).missq = [] → exec (.walkStart cl) s = .next s) ∧
    (∀ w rest, (s.cluster cl).missq = w :: rest → (s.cluster cl).walks.length < 16 → goes (.walkStart cl) (fun u =>
      (u.cluster cl).walks = (s.cluster cl).walks ++ [w] ∧ (u.cluster cl).missq = rest ∧ due u (.walkCompletion cl w.vfn w.vpn))) ∧
    ((s.cluster cl).walks.any (fun w => w.vfn == vfn && w.vpn == vpn) = false → exec (.walkCompletion cl vfn vpn) s = .next s) ∧
    (∀ w k, (s.cluster cl).walks = [w] → w.vfn = vfn → w.vpn = vpn → (s.walk cl w.atp vpn).1 = .ok k →
      goes (.walkCompletion cl vfn vpn) (fun u => (u.cluster cl).walks = [] ∧ k ∈ (u.cluster cl).tlb))

/-- R95, R99, R101, R112, R130, R320, R321, R331, R339, R340, R346, R426: the engines and the tiles. A stream, copy, put or matrix command that
is not there or may not go on leaves the machine as it is; one that may go on fetches or writes its element, moves its line, starts, or
completes and leaves its queue, a matrix command later while the throttle gates issue (in which cycles is the model's choice, log
entry 110); a put that its window takes is counted there and acknowledged; a sitting goes to the next request, at the
latest when the one in progress has gone 4,096 cycles without a command (counted from when is the model's choice, log entry 118). A
tile's mark puts its line in T, its unmark takes it out, a push brings the bytes to the consumer's die, and the last of them ends the
declaration, the undeclaration or the pass, by the time of the tile's home (log entry 111). A line goes to the command under a COPYBW
claim, while its cluster's engine has moved fewer than eight in the cycle. -/
def Obligations.EngineEvents : Prop :=
  ∀ (core cl id line die tid base len op vt : Nat) (n : QReg) (slot : SlotId) (x : LinePush) (s : State),
    let goes := fun (i : Instr) (p : State → Prop) => ∃ u, exec i s = .next u ∧ p u
    let due := fun (u : State) (v : Event) => ∃ k, (k, v) ∈ u.pending
    let c := s.coreOf core
    let arr := (s.cluster cl).arr
    let e := s.entry line
    let te := s.tile tid
    let now := s.ptimeOf (tid / 8192)
    ((∀ r ∈ c.streamRefs n, r.canFetch = false) → exec (.streamFetch core n) s = .next s) ∧
    (∀ r, c.streamRefs n = [r] → r.canFetch = true → r.st.after = false →
      exec (.streamFetch core n) s = .next (s.fetchElem core r n) ∧
      (let a := r.st.addr r.st.done
       r.st.isLocal = true → localFits a r.st.eb = true → s.streamHeld core r n a false = false → c.padBad = [] → r.user = false →
        goes (.streamFetch core n) (fun u => ((u.coreOf core).res.ws.q[n]).queue = r.st.queue ++
          [Elem.mk (BitVec.ofNat 1024 (ofBytes ((upto a.toNat r.st.eb).map (readByte c.pad)))) a 0 0]))) ∧
    ((∀ r ∈ c.streamRefs n, r.canWrite = false) → exec (.streamStoreWrite core n) s = .next s) ∧
    (∀ r v q, c.streamRefs n = [r] → r.canWrite = true → r.st.queue = v :: q →
      exec (.streamStoreWrite core n) s = .next (s.storeElem core r n v) ∧
      (r.st.isLocal = true → localFits v.addr r.st.eb = true → s.streamHeld core r n v.addr true = false → r.user = false →
        Memory.wf c.pad = true → goes (.streamStoreWrite core n) (fun u => ((u.coreOf core).res.ws.q[n]).queue = q ∧
          readLocs (u.coreOf core).pad (upto v.addr.toNat r.st.eb) = toBytes r.st.eb v.val.toNat))) ∧
    (c.fifo = [] ∨ 4 ≤ (c.copies.filter (fun k => k.started)).length → exec (.copyStart core) s = .next s) ∧
    (∀ k rest, c.fifo = k :: rest →
      ((c.slot k.slot).relq.any (fun r => r.op.writes) = true → exec (.copyStart core) s = .next s) ∧
      ((c.copies.filter (fun k => k.started)).length < 4 → (c.slot k.slot).relq.any (fun r => r.op.writes) = false →
        goes (.copyStart core) (fun u => (∀ q ∈ (u.coreOf core).copies, q.id = k.id → q.started = true) ∧
          due u (.copyLineMove core k.id)))) ∧
    (c.copies.any (fun k => k.id == id) = false → exec (.copyLineMove core id) s = .next s ∧ exec (.copyCompletion core id) s = .next s) ∧
    (∀ k, c.copies.find? (fun k => k.id == id) = some k →
      (let y := s.lineTaken core k
       let (src, dst, m) := y.chunk
       (s.lineClaimed core k = true → y = k) ∧
       (y.started = false ∨ y.parked = true ∨ y.fault ≠ none ∨ y.total ≤ y.pos → exec (.copyLineMove core id) s = .next (s.nextLine core id)) ∧
       (s.copyReady core y = true → s.linesSpent core = true →
        exec (.copyLineMove core id) s = .next (s.once (s.pkg.ptime + 1) (.copyLineMove core y.id))) ∧
       (s.copyReady core y = true → s.linesSpent core = false →
        y.srcLocal = true → y.dstLocal = true → y.user = false → c.padBad = [] → Memory.wf c.pad = true →
        goes (.copyLineMove core id) (fun u =>
          (∀ q ∈ (u.coreOf core).copies, q.id = y.id → ∃ p ∈ c.copies, p.id = y.id ∧ q.pos = p.pos + m) ∧
          readLocs (u.coreOf core).pad (upto dst.toNat m) = readLocs c.pad (upto src.toNat m)))) ∧
      (k.pend ≠ 0 ∨ (k.fault = none ∧ k.pos < k.total) → exec (.copyCompletion core id) s = .next s) ∧
      (k.pend = 0 → k.fault ≠ none ∨ k.total ≤ k.pos → 2 ≤ cpyMode k → s.releaseTime (dieOf core) < k.vt →
        goes (.copyCompletion core id) (fun u => u.mem = s.mem ∧ due u (.copyCompletion core id))) ∧
      (k.pend = 0 → k.fault ≠ none ∨ k.total ≤ k.pos → cpyMode k < 2 ∨ k.vt ≤ s.releaseTime (dieOf core) →
        goes (.copyCompletion core id) (fun u => (u.coreOf core).copies = c.copies.filter (fun q => q.id != id)))) ∧
    goes (.wak (.copy core id) line vt false) (fun u => (u.coreOf core).copies =
      c.copies.map (fun k => if k.id = id then { k with pend := k.pend - 1, vt := max k.vt vt } else k)) ∧
    (c.puts.any (fun p => p.id == id) = false → exec (.putArrival core id) s = .next s) ∧
    (∀ p, c.puts.find? (fun p => p.id == id) = some p →
      let w := s.winEntry (hOwner p.handle) (hIndex p.handle)
      goes (.putArrival core id) (fun u => (u.coreOf core).puts = c.puts.filter (fun q => q.id != id) ∧ due u (.putAck core p.slot) ∧
        (s.putBad core p = false → w.refuses (some (hSerial p.handle)) p.off p.len p.vfn = 0 →
          u.winEntry (hOwner p.handle) (hIndex p.handle) = w.arrive))) ∧
    goes (.putAck core slot) (fun u => ((u.coreOf core).slot slot).cmp = (c.slot slot).cmp + 1 ∧ u.mem = s.mem) ∧
    (arr.sit ≠ none ∨ arr.reqs = [] → exec (.sittingGrant cl) s = .next s) ∧
    (∀ r, arr.sit = none → s.nextSitting cl = some r → goes (.sittingGrant cl) (fun u =>
      (u.cluster cl).arr.sit = some (Sitting.mk r.core r.slot r.n s.pkg.ptime) ∧
      (u.cluster cl).arr.reqs = arr.reqs.filter (fun x => x != r))) ∧
    (arr.sit = none ∨ arr.reqs = [] → exec (.sittingExpiry cl) s = .next s) ∧
    (∀ x, arr.sit = some x → arr.reqs ≠ [] → x.last + 4096 ≤ s.pkg.ptime → goes (.sittingExpiry cl) (fun u =>
      (u.cluster cl).arr.sit = none ∧ due u (.sittingGrant cl))) ∧
    (arr.queue.all (fun k => k.started) = true → exec (.matrixCommandStart cl id) s = .next s) ∧
    (∀ k, arr.queue.find? (fun k => !k.started) = some k → k.id = id → arr.behind id = false →
      arr.queue.any (fun e => e.started && k.op.after e.op) = false → 0 < s.gatedFor →
      goes (.matrixCommandStart cl id) (fun u => (u.cluster cl).arr = arr ∧ due u (.matrixCommandStart cl id))) ∧
    (∀ k, arr.queue.find? (fun k => !k.started) = some k → k.id = id → arr.behind id = false →
      arr.queue.any (fun e => e.started && k.op.after e.op) = false → s.gatedFor = 0 → goes (.matrixCommandStart cl id) (fun u =>
        (∀ q ∈ (u.cluster cl).arr.queue, q.id = id → q.started = true) ∧ due u (.matrixCommandComplete cl id))) ∧
    (arr.queue.any (fun k => k.id == id) = false → exec (.matrixCommandComplete cl id) s = .next s) ∧
    (∀ k, arr.queue.find? (fun k => k.id == id) = some k →
      (k.started = false ∨ k.parked = true ∨ k.ended ≠ none ∨ arr.behind id = true → exec (.matrixCommandComplete cl id) s = .next s) ∧
      (∀ h, k.started = true → k.parked = false → k.ended = none → k.pend = 0 → arr.behind id = false → k.op = .zero h →
        goes (.matrixCommandComplete cl id) (fun u => (∀ q ∈ (u.cluster cl).arr.queue, q.id ≠ id) ∧
          ∀ m ∈ hSlots h, ∀ i, ((u.cluster cl).arr.accOf m).cell i = 0))) ∧
    (e.st = 3 → e.tid = tid → exec (.tmk line tid die) s = .next s) ∧
    (e.st = 3 → e.tid ≠ tid → goes (.tmk line tid die) (fun u => (u.tile tid).left = te.left - 1 ∧ (u.entry line).tid = e.tid)) ∧
    (∀ k, te.decl = some k → e.st < 2 → hbmLine line = true → s.sliceTiles line < 8192 → goes (.tmk line tid die) (fun u =>
      (u.entry line).st = 3 ∧ (u.entry line).tid = tid ∧ (u.entry line).odie = dieOf k.owner ∧ (u.entry line).held = false)) ∧
    (e.st ≠ 3 ∨ e.tid ≠ tid → exec (.tun line ⟨tid, die⟩) s = .next s) ∧
    (e.st = 3 → e.tid = tid → te.decl = none → e.cutting = false → hbmLine line = true → goes (.tun line ⟨tid, die⟩) (fun u =>
      (u.entry line).st = 0 ∧ (u.entry line).tid = 0)) ∧
    goes (.wak (.tile tid) line vt false) (fun u => (u.tile tid).left = te.left - 1 ∧ (u.tile tid).vt = max te.vt vt) ∧
    (Settled s → goes (.swp die base len 0) (fun u => u.mem = s.mem ∧ ∀ k ∈ (u.die die).l2, ∀ y ∈ k.2,
      s.lineX y.line < base / 64 ∨ (base + len) / 64 ≤ s.lineX y.line ∨ s.lineHome y.line = die)) ∧
    (op ≠ 0 → 0 < len → (base + len - 1) / 65536 = base / 65536 → goes (.swp die base len op) (fun u =>
      let i := filterIndex (base / 65536 * 65536)
      mapGet (u.die die).filter i = some (filterStep op ((mapGet (s.die die).filter i).getD 0)))) ∧
    ((s.entry x.line).st ≠ 3 → exec (.psh x die) s = .next s) ∧
    ((s.entry x.line).st = 3 → Settled s → Memory.wf s.mem = true → goes (.psh x die) (fun u =>
      (∀ a, readByte u.mem a = if a / 64 = x.line ∧ x.mask.getLsbD (a % 64) = true then x.data.bytes.extractLsb' (8 * (a % 64)) 8
        else readByte s.mem a) ∧ (u.entry x.line).odie = die ∧ (u.entry x.line).held = true ∧
      (u.tile (s.entry x.line).tid).left = (s.tile (s.entry x.line).tid).left - 1)) ∧
    (te.decl = none ∨ te.left ≠ 0 → exec (.declarationComplete tid) s = .next s) ∧
    (∀ k, te.decl = some k → te.left = 0 →
      (now < te.vt → exec (.declarationComplete tid) s = .next (s.post (s.pkg.ptime + (te.vt - now)) (.declarationComplete tid))) ∧
      (te.vt ≤ now → goes (.declarationComplete tid) (fun u => u.tile tid = { te with
        busy := false, decl := none, state := 1, vbase := k.vbase, len := k.len, owner := k.owner, next := 0,
        place := some k.place, vfn := k.vfn }))) ∧
    (te.busy = false ∨ te.state ≠ 1 ∨ te.left ≠ 0 → exec (.undeclarationComplete tid) s = .next s) ∧
    (te.busy = true → te.state = 1 → te.left = 0 → te.vt ≤ now → goes (.undeclarationComplete tid) (fun u =>
      u.tile tid = { te with busy := false, state := 0, gen := te.gen + 1 })) ∧
    (te.busy = false ∨ te.state ≠ 2 → exec (.passMessageSend tid) s = .next s) ∧
    (te.busy = true → te.state = 2 → goes (.passMessageSend tid) (fun u => (u.tile tid).busy = false ∧
      let v := (capOf te.vbase te.len te.gen.toNat te.next te.rights tid).val
      due u (.messageArrival te.next { hwMsg 2 te.owner te.vfn (v.extractLsb' 0 64) (v.extractLsb' 64 64) with
        captag := true, sctx := te.slot.val })))

/-- R174, R176, R184, R189, R199, R203, R208, R358, R360, R361, R363, R366: barriers, messages, starts and the boundaries of a
core's contexts. An arrival counts once, or is used up by SKIP; a phase completes, a time-out signals those that wait; a message
finds a place in the mailbox, in the overflow, or is refused as busy; a unit or an active message that is due starts in a FREE
context; a request is answered; a resign token freezes the records of its graph. An event whose condition does not hold leaves
the machine as it is. The order of free units on two dies (log entry 44), and that a request whose record its asker no longer holds is
answered without effect (log entry 41), are the model's choices. -/
def Obligations.ContextEvents : Prop :=
  ∀ (core die cl b rec graph target : Nat) (slot : SlotId) (m : Msg) (s : State),
    let goes := fun (i : Instr) (p : State → Prop) => ∃ u, exec i s = .next u ∧ p u
    let due := fun (u : State) (v : Event) => ∃ k, (k, v) ∈ u.pending
    let k := fin16 (b % 16)
    let c := s.coreOf core
    let r := s.bar die k
    let q := (s.cluster cl).cal.queue
    let x := c.sx c.cur
    let n := (s.cluster (clusterOf core)).node[k]
    let box := (s.coreOf target).mbox
    let over' := (s.cluster (clusterOf target)).overflow
    let here := s.corePresent target = true
    let stands := m.kind = 6 → s.templateOn target m.vfn = true
    let replays := (s.coreOf target).dbg.dctl.getLsbD 5
    let roomy := box.length < 64 ∧ s.overflowed target = false
    (s.isMember core slot k = false ∨ s.hasArrived core slot k = true → exec (.barrierArrival core slot b) s = .next s) ∧
    (s.isMember core slot k = true → s.hasArrived core slot k = false →
      (n.skip &&& nodeBit core slot ≠ 0 → goes (.barrierArrival core slot b) (fun u =>
        u.bar (dieOf core) k = s.bar (dieOf core) k ∧ ((u.cluster (clusterOf core)).node[k]).skip &&& nodeBit core slot = 0)) ∧
      (n.skip &&& nodeBit core slot = 0 → goes (.barrierArrival core slot b) (fun u =>
        u.hasArrived core slot k = true ∧ (u.bar (dieOf core) k).count = (s.bar (dieOf core) k).count + 1 ∧
        ((s.bar (dieOf core) k).count = 0 → (u.bar (dieOf core) k).tstart = s.ptimeOf (dieOf core)) ∧
        ((s.bar (dieOf core) k).expect = (s.bar (dieOf core) k).count + 1 → due u (.phaseCompletion (dieOf core) k.val))))) ∧
    (r.expect = 0 ∨ r.count ≠ r.expect → exec (.phaseCompletion die b) s = .next s) ∧
    (r.expect ≠ 0 → r.count = r.expect → goes (.phaseCompletion die b) (fun u =>
      (u.bar die k).par = !r.par ∧ (u.bar die k).count = 0 ∧ ∀ j ∈ s.cores, dieOf j = die → due u (.completionSignalArrival j b))) ∧
    goes (.completionSignalArrival core b) (fun u => u.mem = s.mem ∧ ∀ i w, (c.sx i).waitBar = some w →
      ((u.coreOf core).sx i).waitBar = some (if w.bar = b then { w with signalled := true } else w)) ∧
    (r.count = 0 ∨ r.tmo = 0 ∨ r.next = 0 ∨ r.count = r.expect → exec (.timeout die b) s = .next s) ∧
    (r.count ≠ 0 → r.tmo ≠ 0 → r.next ≠ 0 → r.count ≠ r.expect → s.ptimeOf die < r.next → exec (.timeout die b) s =
      .next (s.once (s.pkg.ptime + (r.next - s.ptimeOf die)) (.timeout die b))) ∧
    (r.count ≠ 0 → r.tmo ≠ 0 → r.next ≠ 0 → r.next ≤ s.ptimeOf die → r.count ≠ r.expect → goes (.timeout die b) (fun u =>
      (u.bar die k).next = r.next + r.tmo ∧ (u.bar die k).count = r.count ∧
      ∀ j i w, j ∈ s.cores → dieOf j = die → ((s.coreOf j).sx i).waitBar = some w → w.bar = b →
        ((u.coreOf j).sx i).timeout = some (s.timeoutWord die k, s.pkg.ptime))) ∧
    (s.corePresent target = false → exec (.messageArrival target m) s = .next s) ∧
    (here → m.kind = 6 → s.templateOn target m.vfn = false → goes (.messageArrival target m) (fun u =>
      (u.coreOf target).mbox = box ∧ (u.cluster (clusterOf target)).overflow = over')) ∧
    (here → stands → replays = false → roomy → goes (.messageArrival target m) (fun u =>
      (u.coreOf target).mbox = box ++ [m] ∧ (m.kind = 6 → due u (.activeMessageStart target)))) ∧
    (here → stands → replays = false → ¬ roomy → over'.length < 256 → goes (.messageArrival target m) (fun u =>
      (u.coreOf target).mbox = box ∧ (u.cluster (clusterOf target)).overflow = over' ++ [(target, m)])) ∧
    (here → stands → replays = true ∨ (¬ roomy ∧ 256 ≤ over'.length) → goes (.messageArrival target m) (fun u =>
      (u.coreOf target).mbox = box ∧ (m.host = false → m.kind = 2 → due u (.messageArrival target m)) ∧
      (m.host = false → m.kind = 1 → due u (.busyRetry m.src (fin4 (m.sctx % 4)))))) ∧
    ((s.cluster cl).overflow.all (fun e => decide (64 ≤ (s.coreOf e.1).mbox.length) || (s.coreOf e.1).dbg.dctl.getLsbD 5) = true →
      exec (.overflowMove cl) s = .next s) ∧
    (∀ rest, (s.cluster cl).overflow = (target, m) :: rest → box.length < 64 → replays = false → goes (.overflowMove cl) (fun u =>
      (u.cluster cl).overflow = rest ∧ (u.coreOf target).mbox = box ++ [m])) ∧
    ((c.slot slot).relq = [] → exec (.busyRetry core slot) s = .next s) ∧
    (∀ rest seq bases n v fleft, (c.slot slot).relq = RelEntry.mk (.message target m) seq bases n v fleft true true :: rest →
      exec (.busyRetry core slot) s = .next (s.sendMsg target m)) ∧
    (c.freeSlot = none ∨ s.pkgx.featDone = false → exec (.freeUnitStart core) s = .next s ∧ exec (.activeMessageStart core) s = .next s) ∧
    (∀ i d rn j claim l wp top c', c.freeSlot = some i → s.pkgx.featDone = true → s.corePresent core = true →
      s.dueUnits core = (d, rn, j, claim) :: l → c.convertReserved i d rn j (s.record d rn).w[8] = some (wp, top, c') →
      goes (.freeUnitStart core) (fun u => ((u.coreOf core).slot i).st = .ready ∧ ((u.coreOf core).slot i).wp = wp ∧
        ((u.coreOf core).sx i).task.src = .unit d rn j ∧ ((u.coreOf core).sx i).task.booked = true ∧
        ((u.coreOf core).sx i).task.bookEnd = claim.fin)) ∧
    (∀ i y wp top c', c.freeSlot = some i → s.pkgx.featDone = true → s.corePresent core = true → s.dueUnits core = [] →
      firstBy Candidate.before ((s.candidates core).filter (fun y => decide (y.release ≤ s.ptimeOf (dieOf core)))) = some y →
      c.allocTask i (s.record y.die y.recNo).w[8] = some (wp, top, c') →
      goes (.freeUnitStart core) (fun u => ((u.coreOf core).slot i).st = .ready ∧ ((u.coreOf core).slot i).wp = wp ∧
        ((u.coreOf core).sx i).task.src = .unit y.die y.recNo y.unit ∧ ((u.coreOf core).sx i).task.booked = false)) ∧
    (c.mbox.any (fun m => m.kind == 6) = false → exec (.activeMessageStart core) s = .next s) ∧
    (∀ i rest t wp top c', c.freeSlot = some i → s.pkgx.featDone = true → c.mbox = m :: rest → m.kind = 6 → s.dueUnits core = [] →
      (s.candidates core).any (fun y => decide (y.release ≤ s.ptimeOf (dieOf core))) = false →
      mapGet (s.die (dieOf core)).templates m.vfn = some t → c.allocTask i t.w8 = some (wp, top, c') →
      goes (.activeMessageStart core) (fun u => ((u.coreOf core).slot i).st = .ready ∧ ((u.coreOf core).slot i).wp = wp ∧
        ((u.coreOf core).sx i).task.src = .message m.vfn ∧ (u.coreOf core).mbox = rest)) ∧
    (q = [] → exec (.admissionSearch cl) s = .next s ∧ exec (.dieCalendarRequest die cl rec) s = .next s) ∧
    (∀ y, (s.cluster cl).cal.head = some y →
      let answers := fun (i : Instr) => goes i (fun u => (u.cluster cl).cal.queue = q.erase y ∧
        ((u.coreOf y.core).sx y.slot).answer = some (y, (s.settleRequest y).1))
      let early := s.boundaryAhead (cl / 32)
      let rec' := s.record y.die y.recNo
      let asks := rec'.state = 2 ∧ fld rec'.w[13] 15 3 = y.core * 4 + y.slot.val
      (early = true → exec (.admissionSearch cl) s = .next (s.post s.pkg.ptime (.admissionSearch cl)) ∧
        exec (.dieCalendarRequest die cl rec) s = .next (s.post s.pkg.ptime (.dieCalendarRequest die cl rec))) ∧
      (early = false → rec'.claimsHbm = true → goes (.admissionSearch cl) (fun u => (u.cluster cl).cal.queue = q ∧
        due u (.dieCalendarRequest (cl / 32) cl (recKey y.die y.recNo)))) ∧
      (early = false → rec'.claimsHbm = false → answers (.admissionSearch cl)) ∧
      (early = false → recKey y.die y.recNo = rec → answers (.dieCalendarRequest die cl rec)) ∧
      (early = false → recKey y.die y.recNo ≠ rec → exec (.dieCalendarRequest die cl rec) s = .next s) ∧
      (¬ asks → s.settleRequest y = (0, s)) ∧
      (asks → y.arm = false → s.settleRequest y = s.admitLaunch y.die y.recNo) ∧
      (asks → y.arm = true → rec'.frozen = false → s.graphFrozen y.die rec' = false →
        (s.settleRequest y).1 = (s.admitLaunch y.die y.recNo).1)) ∧
    goes (.tempoBoundary cl) (fun u => u.mem = s.mem ∧
      ((∀ j, j / 32 = cl / 32 → j ≠ cl → (s.cluster j).cal.launches = []) →
        ∀ l ∈ (u.cluster cl).cal.launches, l.done = false ∧ ∀ y ∈ l.claims, y.busy = y.fin)) ∧
    (x.task.booked = false ∨ x.task.overrun = true ∨ (c.slot c.cur).st ≠ .run ∨ s.tempo (dieOf core) < x.task.bookEnd →
      exec (.overrun core) s = .next s) ∧
    (core = s.cn → x.task.booked = true → x.task.overrun = false → (c.slot c.cur).st = .run → x.task.bookEnd ≤ s.tempo (dieOf core) →
      s.timingTrap 0x0F = true → exec (.overrun core) s = .next ((s.onSx (fun y => { y with task := { y.task with overrun := true, nest := 0 } })).trap
        (Trap.mk0 0x0F 0 0 0x0B))) ∧
    (graph = 0 → exec (.resignToken die graph) s = .next s) ∧
    (graph ≠ 0 → goes (.resignToken die graph) (fun u => (u.level die graph).getLsbD 116 = true ∧
      ∀ rn e, mapGet (s.die die).recs rn = some e → e.graph = graph → 2 ≤ e.state → (u.record die rn).frozen = true ∧
        (e.state = 4 → (u.record die rn).restSettled = true))) ∧
    (c.dbg.dctl.getLsbD 5 = false ∨ 64 ≤ c.mbox.length → exec (.replayMessageInject core) s = .next s) ∧
    (∀ e, c.dbg.dctl.getLsbD 5 = true → c.mbox.length < 64 → c.dbg.rplMsgs = [e] →
      (c.slot (fin4 (fld (e.getD 3 0) 49 48))).icnt.toNat = fld (e.getD 3 0) 47 0 → goes (.replayMessageInject core) (fun u =>
        (u.coreOf core).mbox.length = c.mbox.length + 1 ∧ (u.coreOf core).dbg.rplMsgs = [])) ∧
    (s.nextSlot core ≠ some slot → exec (.contextSwitch core slot) s = .next s) ∧
    (s.nextSlot core = some slot → goes (.contextSwitch core slot) (fun u => (u.coreOf core).cur = slot ∧
      ((u.coreOf core).slot slot).st = .run ∧ (u.coreOf core).res.wp = (c.slot slot).wp)) ∧
    (s.yieldDue core = false → exec (.yieldAfterWait core) s = .next s) ∧
    (s.yieldDue core = true → goes (.yieldAfterWait core) (fun u => ((u.coreOf core).slot c.cur).st = .ready ∧
      ((u.coreOf core).sx c.cur).yielded = true)) ∧
    (core = s.cn → s.budgetDue = false → exec (.budgetExpiry core) s = .next s) ∧
    (core = s.cn → s.budgetDue = true → exec (.budgetExpiry core) s = .next (s.trap (Trap.mk0 0x0E 0 0 0))) ∧
    (core = s.cn → s.imprecise = none → s.budgetDue = false → exec (.impreciseTrapDelivery core) s = .next s) ∧
    (core = s.cn → s.imprecise = none → s.budgetDue = true → exec (.impreciseTrapDelivery core) s = .next (s.trap (Trap.mk0 0x0E 0 0 0))) ∧
    (∀ t, core = s.cn → s.imprecise = some t → exec (.impreciseTrapDelivery core) s = .next t)

/-- R409 to R411, R413 to R418, R423: discovery, links and the memory ports. A probe and its answer go by their route from die to die; a
probe with no hops left is answered with the die's type and features; an answer accepted is recorded with its route and the die's own
ports are probed, a port without one goes down, a die reached under two numbers or with other features is refused; once every probe has
ended, the table goes to each die found; TOPO gives a die its identifier and its routes, and the last one acknowledged ends the third
and fourth stage of boot, or stops it at the stage that does not verify, or, with S not 0, for a die that is missing. Credits that
return never go beyond the grant. A memory port reads and writes the line of its address under its key. The features of each die (log
entry 82), STATUS of a line in error (log entry 109), that MRS and MDT change nothing, since memory holds each byte once (log entry 4),
and which images verify (log entry 113) are the model's choices. -/
def Obligations.LinkEvents : Prop :=
  ∀ (hops die port here ty feat ident addr : Nat) (route back nbr hop credits : List Nat) (slot : BitVec 128) (data : LineData)
    (booked refused : Bool) (y : PortAnswer) (s : State),
    let goes := fun (i : Instr) (p : State → Prop) => ∃ u, exec i s = .next u ∧ p u
    let due := fun (u : State) (v : Event) => ∃ k, (k, v) ∈ u.pending
    let line := (die * 2 ^ 37 + addr) / 64
    let key := (mapGet s.lineKey line).getD 0
    let above := (mapGet s.hbm line).isSome = true ∨ s.inTags line = true
    let still := s.pending.any (fun p => Event.discovers p.2)
    let ends := fun (u : State) => ∀ d ∈ u.foundDies, ∀ p rest n q, (mapGet u.pkgx.routes d).getD [] = p :: rest →
      wired 16 p = some (n, q) → ∃ nbr hop, due u (.topo n ⟨d, rest.length, rest⟩ nbr hop)
    let old := mapGet s.pkgx.numbers die
    let answer := Instr.idack die ty feat ⟨port, here, 0, route, back⟩
    let out := fun (u : State) => mapGet u.pkgx.found die = none ∧ setHas u.pkgx.refused die = true ∧
      setHas (u.die die).down port = true ∧ (still = false → ends u)
    (∀ p rest, hops = 0 → back = p :: rest → ∀ n q, wired die p = some (n, q) → exec (.ident hops route die ⟨port, back⟩) s =
      .next (s.post s.pkg.ptime (.idack die (if die < 8 then 1 else if die < 16 then 2 else 3) (dieFeat die)
        ⟨port, n, rest.length, rest, [q]⟩))) ∧
    (∀ n p, hops ≠ 0 → wired die (route.headD 15) = some (n, p) → exec (.ident hops route die ⟨port, back⟩) s =
      .next (s.post s.pkg.ptime (.ident (hops - 1) route.tail n ⟨p, p :: back⟩))) ∧
    (hops ≠ 0 → wired die (route.headD 15) = none → exec (.ident hops route die ⟨port, back⟩) s = .next s) ∧
    (∀ n p, hops ≠ 0 → wired here (route.headD 15) = some (n, p) → exec (.idack die ty feat ⟨port, here, hops, route, back⟩) s =
      .next (s.post s.pkg.ptime (.idack die ty feat ⟨port, n, hops - 1, route.tail, p :: back⟩))) ∧
    (s.pkgx.refused.contains die = true ∨ numberAt back = none ∨ old = numberAt back →
      (still = true → exec answer s = .next s) ∧
      (still = false → goes answer (fun u => u.pkgx.found = s.pkgx.found ∧ ends u))) ∧
    (∀ n, s.pkgx.refused.contains die = false → numberAt back = some n →
      (∀ m, old = some m → m ≠ n → goes answer out) ∧
      (old = none → featOk die ty feat = false → goes answer out) ∧
      (old = none → featOk die ty feat = true → goes answer (fun u => mapGet u.pkgx.found die = some ty ∧
        mapGet u.pkgx.numbers die = some n ∧ mapGet u.pkgx.routes die = some back ∧
        ∀ b rest m q, back = b :: rest → wired 16 b = some (m, q) → ∀ p ∈ diePorts die, wired die p ≠ none →
          (s.die die).down.contains p = false → due u (.ident (rest.length + 1) (rest ++ [p]) m ⟨q, [q]⟩)))) ∧
    goes (.identTimeout die port) (fun u => setHas (u.die die).down port = true ∧ u.mem = s.mem ∧ (still = false → ends u)) ∧
    goes (.topo die ⟨ident, 0, route⟩ nbr hop) (fun u => (u.die die).ident = ident ∧ (u.die die).nbr = nbr ∧ (u.die die).hop = hop ∧
      (ident < 8 → setHas u.pkgx.present ident = true) ∧ due u (.ack die 3 false)) ∧
    (∀ n p, hops ≠ 0 → wired die (route.headD 15) = some (n, p) → exec (.topo die ⟨ident, hops, route⟩ nbr hop) s =
      .next (s.post s.pkg.ptime (.topo n ⟨ident, hops - 1, route.tail⟩ nbr hop))) ∧
    (refused = true → goes (.ack die 3 refused) (fun u => setHas u.pkgx.present die = false)) ∧
    (refused = false → goes (.ack die 3 refused) (fun u => u.pkgx.present = s.pkgx.present ∧ (s.pkgx.boot = 2 →
      s.pending.any (fun p => Event.numbers p.2) = false →
        let stop := s.pkg.hsplit ≠ 0 ∧ (List.range 16).all (fun d => s.foundDies.contains d) = false
        u.pkgx.boot = (if 3 ∈ s.pkgx.forged ∨ stop then 3 else if 4 ∈ s.pkgx.forged then 4 else 5) ∧
        (u.pkgx.boot ≠ 5 → u.pkgx.recovery = true) ∧
        u.pkgx.measured = s.pkgx.measured ++ (if 3 ∈ s.pkgx.forged ∨ stop then [3] else [3, 4])))) ∧
    goes (.crd die port credits) (fun u => mapGet (u.die die).credits port = some credits ∧ setHas (u.die die).down port = false) ∧
    goes (.creditReturn die port credits) (fun u => ∃ l, mapGet (u.die die).credits port = some l ∧ l.length = 7 ∧
      ∀ i, i < 7 → l.getD i 0 = min ([96, 64, 192, 32, 8, 2, 8].getD i 0)
        (((mapGet (s.die die).credits port).getD []).getD i 0 + credits.getD i 0)) ∧
    (slotRefused slot = false → exec (.protocolError die ⟨port, slot⟩) s = .next s) ∧
    (slotRefused slot = true → goes (.protocolError die ⟨port, slot⟩) (fun u => setHas (u.die die).down port = true ∧
      setHas u.pkgx.refused die = true)) ∧
    goes (.mrd die ⟨addr, booked⟩) (fun u => KeepsBytes s u ∧
      due u (.mrs die ⟨addr, if (upto (line * 8) 8).any (setHas s.bad) then 1 else 0⟩) ∧
      ∃ tags, due u (.mdt die addr ⟨if s.keyLoaded (s.hbmOf line key).key then BitVec.ofNat 512 (ofBytes (s.hbmOf line key).bytes)
        else 0, tags⟩)) ∧
    (s.keyLoaded key = false → goes (.mwr die addr data) (fun u => KeepsBytes s u ∧ u.hbm = s.hbm)) ∧
    (s.keyLoaded key = true → ¬ above → Memory.wf s.mem = true → goes (.mwr die addr data) (fun u =>
      readLocs u.mem (upto (line * 64) 64) = toBytes 64 data.bytes.toNat ∧
      (∀ a, a / 64 ≠ line → readByte u.mem a = readByte s.mem a) ∧
      ∀ g, g / 4 = line → setHas u.tags g = data.tags.getLsbD (g % 4))) ∧
    (s.keyLoaded key = true → above → goes (.mwr die addr data) (fun u => KeepsBytes s u ∧
      (mapGet u.hbm line).map (fun x => (x.bytes, x.key)) = some (toBytes 64 data.bytes.toNat, key))) ∧
    goes (.mwr die addr data) (fun u => ∀ w, w / 8 = line → setHas u.bad w = false) ∧
    exec (.mrs die y) s = .next s ∧ exec (.mdt die addr data) s = .next s

/-! ## The machine as a whole (spec/06 R161 to R177, spec/08 R209, spec/09 R219 to R237) -/

/-- R209: a step of a package with no event due, whose current core runs a context at an instruction boundary with nothing
pending and its line entered, runs the instruction that the line's bytes at the pc decode to; around it the step counts the
head, takes STEP, and passes the turn on. Bytes that decode to no instruction, or to one that needs a feature not enabled, raise
ILLEGAL in the same way, a head of a major that is off before it is decoded (R422); a breakpoint raises BREAK instead. A context that
goes on after a stall is first noted as running again
if its instruction now retires. -/
def Obligations.StepRunsDecoded : Prop :=
  ∀ (s : State), s.takeDue = none → (s.die s.dn).clk.running = true →
    s.core.dbg.dstat.getLsbD 1 = false → s.core.dbg.dstat.getLsbD 0 = false → s.core.quiescing = false →
    s.core.dbg.dctl.getLsbD 5 = false → (∀ i, (s.core.slot i).st = .wait → (s.core.sx i).look = false) →
    (s.sx.task.booked = true ∨ s.bookedDue s.cn = false) → s.yieldDue s.cn = false → s.nextSlot s.cn = none →
    s.running = true → s.imprecise = none → s.sx.walkFault = none →
    s.slot.line.valid = true → s.slot.line.addr = s.ws.pc.toNat / 64 * 64 →
    s.slot.line.refuse (fld s.ws.pc 4 0) (s.ws.pc.getLsbD 5) = none →
    s.sx.ecc = none → s.budgetDue = false → s.overrunDue = false →
    let head := s.slot.line.head (fld s.ws.pc 4 0)
    let tail := s.slot.line.tail (fld s.ws.pc 4 0)
    let half := fun (i : Nat) => (tail.getD i 0).toNat
    let bad := fun (r : IllegalReason) =>
      exec (.illegal r head (BitVec.ofNat 64 (half 0 + half 1 * 2 ^ 16 + half 2 * 2 ^ 32)) (tail.getD 3 0))
    let stalled : Prop := s.core.dbg.noteState = 1 ∨ s.core.dbg.noteState = 2
    let run := fun (f : State → Host.Outcome State Fault Refusal) (t : State) => andThen (f t)
      (afterHead t.headAt)
    let runs := fun (f : State → Host.Outcome State Fault Refusal) =>
      (¬ stalled → step s = andThen (run f s) State.endTurn) ∧
      (stalled → ∀ u, run f (s.noteChange s.cn 0 0x01) = .next u → step s =
        andThen (if (u.core.slot s.core.cur).icnt ≠ s.slot.icnt then .next u else run f s) State.endTurn)
    let off := majorOff s.pkgx.enabled (head.toNat / 1024)
    (∀ i, off = false → decode head tail = .ok i → featureRefuses s.pkgx.enabled i = false → s.breaks i = none → runs (exec i)) ∧
    (∀ i n, off = false → decode head tail = .ok i → featureRefuses s.pkgx.enabled i = false → s.breaks i = some n →
      runs (fun t => .next (t.trap (breakTrap n)))) ∧
    (off = true → runs (bad .major)) ∧
    (∀ i, off = false → decode head tail = .ok i → featureRefuses s.pkgx.enabled i = true → runs (bad .operand)) ∧
    (∀ r, off = false → decode head tail = .error r → runs (bad r))

/-- Words of the encodings that the spec gives (R371, R381 to R386, spec/09, spec/11, spec/12, spec/13) decode to the instructions
they stand for. -/
def Obligations.DecodeWords : Prop :=
  decode 0x0543 [0x0109] = .ok (.add { w := .b64, uns := false } (.s 8) (.s 8) 9 false false) ∧
  decode 0x0643 [0x0109, 0x0040] = .ok (.add { w := .b64, uns := false } (.s 8) (.s 8) 9 false true) ∧
  decode 0x2203 [0x1520, 0x0003] = .ok (.bnz { w := .b64, uns := false } 9 { lofs := 0, head := 3 }) ∧
  decode 0x9218 [0x0022, 0x0000] = .ok (.madd 3 1 2 false false none) ∧
  decode 0xCA00 [0x0885, 0x0006] = .ok (.put 4 5 6 false false false) ∧
  decode 0xE241 [0x012A, 0x0000] = .ok (.lrpatch 1 8 9 10 false false) ∧
  decode 0xF228 [0x0000, 0x0000] = .ok (.csrr 5 0) ∧
  decode 0xE400 [] = .ok .retire ∧ decode 0xE500 [0x0800] = .ok .follow ∧ decode 0xF401 [] = .ok .sret ∧
  decode 0xF500 [0x0880] = .ok (.wsw 4 false) ∧ decode 0xF800 [] = .ok .brk ∧
  decode 0xBE60 [0x0800, 0x0000] = .ok (.mxmma false 12 0 0) ∧
  decode 0xD900 [0x0FFF] = .ok (.wait 15 15 15 0) ∧ decode 0xF6C8 [0x0000, 0x1234] = .ok (.trap 0x19 0x1234) ∧
  decode 0xF600 [0x0D2A, 0x002B] = .ok (.tlbinv 9 10 11 true false false) ∧
  decode 0xF404 [] = .ok .replayall ∧ decode 0xFA00 [0x0400, 0x0007] = .ok (.notate 7)

/-- R221 to R236: decoding the words of a well-formed instruction gives it back, with every operand; and what decodes is a
well-formed instruction that has words. -/
def Obligations.EncodingRoundTrip : Prop :=
  (∀ i : Instr, i.wf = true → encode i ≠ [] → ∃ h l, encode i = h :: l ∧ decode h l = .ok i) ∧
  (∀ h l i, decode h l = .ok i → i.wf = true ∧ encode i ≠ [])

/-- Memory and every core's scratchpad keep their canonical form through every step: addresses strictly rising, no byte listed that
reads as an unlisted one. The form is the model's own way of holding the bytes of spec/01 and spec/02 (log entry 2). -/
def Obligations.MemoryKept : Prop := ∀ s t : State, MemoryForm s → step s = .next t → MemoryForm t

/-- R49: where no word of memory or of a scratchpad has an uncorrected error and none has been consumed, none has after a step, unless
the event that is due is such an error. -/
def Obligations.SoundnessKept : Prop :=
  ∀ s t : State, AllSound s → step s = .next t →
    (∀ e rest, s.takeDue = some (e, rest) → ∀ lcl core addr, e ≠ .eccError lcl core addr false) → AllSound t

/-- R44, R274: while no key is loaded and every line is held under key 0, so that no line is written under a second key, a step caches no
line twice and notes what memory holds only of lines that a write has made dirty; a write of a memory port is left out, which may
change memory below a clean copy (log entry 12). -/
def Obligations.SettledKept : Prop :=
  ∀ s t : State, Settled s → OneKey s → step s = .next t →
    (∀ e rest, s.takeDue = some (e, rest) → ∀ die addr data, e ≠ .mwr die addr data) → Settled t

/-- The machine right after reset, as R38, R74, R148, R159, R167, R296, R401, R409, R422 and R423 say it: nothing stored, every context
FREE, the generators 1, `vl` 32, the lease lengths and bands, parking and the adjournment triggers enabled, discovery begun with a probe
from each port of I/O die A. That memory and scratchpads list no byte (log entry 2), the empty TLBs and mailboxes (log entry 1), and that
the first probes are already on their way (log entry 7) are the model's choices. -/
def Obligations.ResetValues : Prop :=
  Memory.wf State.reset.mem = true ∧ State.reset.mem = [] ∧ State.reset.core.pad = [] ∧
  (∀ n i, ((State.reset.coreOf n).slot i).st = .free) ∧
  (∀ n, (State.reset.coreOf n).srng = 1 ∧ (State.reset.coreOf n).grng = 1 ∧ (State.reset.coreOf n).tlb = [] ∧
    (State.reset.coreOf n).mbox = [] ∧ (State.reset.coreOf n).dbg.dctl = 0) ∧
  State.reset.ws.vl = 32 ∧
  (∀ cl, (State.reset.cluster cl).fbctl = 1) ∧
  State.reset.pkg.llen1 = 256 ∧ State.reset.pkg.llen2 = 8192 ∧ State.reset.pkg.gband = 64 ∧ State.reset.pkg.lcut = 1024 ∧
  fld State.reset.pkg.adjctl 9 6 = 0xF ∧ State.reset.pkg.storm = 256 ∧ State.reset.pkg.ptime = 0 ∧
  State.reset.pkgx.enabled = 0 ∧ (∀ d, (State.reset.die d).ident = 31) ∧ State.reset.pkgx.boot = 2 ∧ State.reset.pkgx.found = [] ∧
  (∀ p n q, p ∈ diePorts 16 → wired 16 p = some (n, q) → ∃ k, (k, Event.ident 0 [] n ⟨q, [q]⟩) ∈ State.reset.pending)
end

