-- ==== Sys2Proof/Laws/State.lean ====
section
/-! SUPPORT. One lemma for each field and each update of the state: what the update leaves, and what it sets. -/
namespace Sys2Proof.Machine

/-! ## Updates of State -/

@[simp] theorem State.setCore_cn (s : State) (c : Core) : (s.setCore c).cn = s.cn := rfl
@[simp] theorem State.setCore_core (s : State) (c : Core) : (s.setCore c).core = c := rfl
@[simp] theorem State.setCore_others (s : State) (c : Core) : (s.setCore c).others = s.others := rfl
@[simp] theorem State.setCore_mem (s : State) (c : Core) : (s.setCore c).mem = s.mem := rfl
@[simp] theorem State.setCore_tags (s : State) (c : Core) : (s.setCore c).tags = s.tags := rfl
@[simp] theorem State.setCore_lineKey (s : State) (c : Core) : (s.setCore c).lineKey = s.lineKey := rfl
@[simp] theorem State.setCore_hbm (s : State) (c : Core) : (s.setCore c).hbm = s.hbm := rfl
@[simp] theorem State.setCore_stale (s : State) (c : Core) : (s.setCore c).stale = s.stale := rfl
@[simp] theorem State.setCore_vgran (s : State) (c : Core) : (s.setCore c).vgran = s.vgran := rfl
@[simp] theorem State.setCore_bad (s : State) (c : Core) : (s.setCore c).bad = s.bad := rfl
@[simp] theorem State.setCore_clusters (s : State) (c : Core) : (s.setCore c).clusters = s.clusters := rfl
@[simp] theorem State.setCore_dies (s : State) (c : Core) : (s.setCore c).dies = s.dies := rfl
@[simp] theorem State.setCore_pkg (s : State) (c : Core) : (s.setCore c).pkg = s.pkg := rfl
@[simp] theorem State.setCore_pkgx (s : State) (c : Core) : (s.setCore c).pkgx = s.pkgx := rfl
@[simp] theorem State.setCore_pending (s : State) (c : Core) : (s.setCore c).pending = s.pending := rfl
@[simp] theorem State.setCore_free (s : State) (c : Core) : (s.setCore c).free = s.free := rfl
@[simp] theorem State.setCore_nextId (s : State) (c : Core) : (s.setCore c).nextId = s.nextId := rfl
@[simp] theorem State.onWs_cn (s : State) (f : Ws → Ws) : (s.onWs f).cn = s.cn := rfl
@[simp] theorem State.onWs_core (s : State) (f : Ws → Ws) : (s.onWs f).core = s.core.onWs f := rfl
@[simp] theorem State.onWs_others (s : State) (f : Ws → Ws) : (s.onWs f).others = s.others := rfl
@[simp] theorem State.onWs_mem (s : State) (f : Ws → Ws) : (s.onWs f).mem = s.mem := rfl
@[simp] theorem State.onWs_tags (s : State) (f : Ws → Ws) : (s.onWs f).tags = s.tags := rfl
@[simp] theorem State.onWs_lineKey (s : State) (f : Ws → Ws) : (s.onWs f).lineKey = s.lineKey := rfl
@[simp] theorem State.onWs_hbm (s : State) (f : Ws → Ws) : (s.onWs f).hbm = s.hbm := rfl
@[simp] theorem State.onWs_stale (s : State) (f : Ws → Ws) : (s.onWs f).stale = s.stale := rfl
@[simp] theorem State.onWs_vgran (s : State) (f : Ws → Ws) : (s.onWs f).vgran = s.vgran := rfl
@[simp] theorem State.onWs_bad (s : State) (f : Ws → Ws) : (s.onWs f).bad = s.bad := rfl
@[simp] theorem State.onWs_clusters (s : State) (f : Ws → Ws) : (s.onWs f).clusters = s.clusters := rfl
@[simp] theorem State.onWs_dies (s : State) (f : Ws → Ws) : (s.onWs f).dies = s.dies := rfl
@[simp] theorem State.onWs_pkg (s : State) (f : Ws → Ws) : (s.onWs f).pkg = s.pkg := rfl
@[simp] theorem State.onWs_pkgx (s : State) (f : Ws → Ws) : (s.onWs f).pkgx = s.pkgx := rfl
@[simp] theorem State.onWs_pending (s : State) (f : Ws → Ws) : (s.onWs f).pending = s.pending := rfl
@[simp] theorem State.onWs_free (s : State) (f : Ws → Ws) : (s.onWs f).free = s.free := rfl
@[simp] theorem State.onWs_nextId (s : State) (f : Ws → Ws) : (s.onWs f).nextId = s.nextId := rfl
@[simp] theorem State.onSlot_cn (s : State) (f : Slot → Slot) : (s.onSlot f).cn = s.cn := rfl
@[simp] theorem State.onSlot_core (s : State) (f : Slot → Slot) : (s.onSlot f).core = s.core.onSlot s.core.cur f := rfl
@[simp] theorem State.onSlot_others (s : State) (f : Slot → Slot) : (s.onSlot f).others = s.others := rfl
@[simp] theorem State.onSlot_mem (s : State) (f : Slot → Slot) : (s.onSlot f).mem = s.mem := rfl
@[simp] theorem State.onSlot_tags (s : State) (f : Slot → Slot) : (s.onSlot f).tags = s.tags := rfl
@[simp] theorem State.onSlot_lineKey (s : State) (f : Slot → Slot) : (s.onSlot f).lineKey = s.lineKey := rfl
@[simp] theorem State.onSlot_hbm (s : State) (f : Slot → Slot) : (s.onSlot f).hbm = s.hbm := rfl
@[simp] theorem State.onSlot_stale (s : State) (f : Slot → Slot) : (s.onSlot f).stale = s.stale := rfl
@[simp] theorem State.onSlot_vgran (s : State) (f : Slot → Slot) : (s.onSlot f).vgran = s.vgran := rfl
@[simp] theorem State.onSlot_bad (s : State) (f : Slot → Slot) : (s.onSlot f).bad = s.bad := rfl
@[simp] theorem State.onSlot_clusters (s : State) (f : Slot → Slot) : (s.onSlot f).clusters = s.clusters := rfl
@[simp] theorem State.onSlot_dies (s : State) (f : Slot → Slot) : (s.onSlot f).dies = s.dies := rfl
@[simp] theorem State.onSlot_pkg (s : State) (f : Slot → Slot) : (s.onSlot f).pkg = s.pkg := rfl
@[simp] theorem State.onSlot_pkgx (s : State) (f : Slot → Slot) : (s.onSlot f).pkgx = s.pkgx := rfl
@[simp] theorem State.onSlot_pending (s : State) (f : Slot → Slot) : (s.onSlot f).pending = s.pending := rfl
@[simp] theorem State.onSlot_free (s : State) (f : Slot → Slot) : (s.onSlot f).free = s.free := rfl
@[simp] theorem State.onSlot_nextId (s : State) (f : Slot → Slot) : (s.onSlot f).nextId = s.nextId := rfl
@[simp] theorem State.onSx_cn (s : State) (f : SlotX → SlotX) : (s.onSx f).cn = s.cn := rfl
@[simp] theorem State.onSx_core (s : State) (f : SlotX → SlotX) : (s.onSx f).core = s.core.onSx s.core.cur f := rfl
@[simp] theorem State.onSx_others (s : State) (f : SlotX → SlotX) : (s.onSx f).others = s.others := rfl
@[simp] theorem State.onSx_mem (s : State) (f : SlotX → SlotX) : (s.onSx f).mem = s.mem := rfl
@[simp] theorem State.onSx_tags (s : State) (f : SlotX → SlotX) : (s.onSx f).tags = s.tags := rfl
@[simp] theorem State.onSx_lineKey (s : State) (f : SlotX → SlotX) : (s.onSx f).lineKey = s.lineKey := rfl
@[simp] theorem State.onSx_hbm (s : State) (f : SlotX → SlotX) : (s.onSx f).hbm = s.hbm := rfl
@[simp] theorem State.onSx_stale (s : State) (f : SlotX → SlotX) : (s.onSx f).stale = s.stale := rfl
@[simp] theorem State.onSx_vgran (s : State) (f : SlotX → SlotX) : (s.onSx f).vgran = s.vgran := rfl
@[simp] theorem State.onSx_bad (s : State) (f : SlotX → SlotX) : (s.onSx f).bad = s.bad := rfl
@[simp] theorem State.onSx_clusters (s : State) (f : SlotX → SlotX) : (s.onSx f).clusters = s.clusters := rfl
@[simp] theorem State.onSx_dies (s : State) (f : SlotX → SlotX) : (s.onSx f).dies = s.dies := rfl
@[simp] theorem State.onSx_pkg (s : State) (f : SlotX → SlotX) : (s.onSx f).pkg = s.pkg := rfl
@[simp] theorem State.onSx_pkgx (s : State) (f : SlotX → SlotX) : (s.onSx f).pkgx = s.pkgx := rfl
@[simp] theorem State.onSx_pending (s : State) (f : SlotX → SlotX) : (s.onSx f).pending = s.pending := rfl
@[simp] theorem State.onSx_free (s : State) (f : SlotX → SlotX) : (s.onSx f).free = s.free := rfl
@[simp] theorem State.onSx_nextId (s : State) (f : SlotX → SlotX) : (s.onSx f).nextId = s.nextId := rfl
@[simp] theorem State.onDbg_cn (s : State) (f : Debug → Debug) : (s.onDbg f).cn = s.cn := rfl
@[simp] theorem State.onDbg_core (s : State) (f : Debug → Debug) : (s.onDbg f).core = { s.core with dbg := f s.core.dbg } := rfl
@[simp] theorem State.onDbg_others (s : State) (f : Debug → Debug) : (s.onDbg f).others = s.others := rfl
@[simp] theorem State.onDbg_mem (s : State) (f : Debug → Debug) : (s.onDbg f).mem = s.mem := rfl
@[simp] theorem State.onDbg_tags (s : State) (f : Debug → Debug) : (s.onDbg f).tags = s.tags := rfl
@[simp] theorem State.onDbg_lineKey (s : State) (f : Debug → Debug) : (s.onDbg f).lineKey = s.lineKey := rfl
@[simp] theorem State.onDbg_hbm (s : State) (f : Debug → Debug) : (s.onDbg f).hbm = s.hbm := rfl
@[simp] theorem State.onDbg_stale (s : State) (f : Debug → Debug) : (s.onDbg f).stale = s.stale := rfl
@[simp] theorem State.onDbg_vgran (s : State) (f : Debug → Debug) : (s.onDbg f).vgran = s.vgran := rfl
@[simp] theorem State.onDbg_bad (s : State) (f : Debug → Debug) : (s.onDbg f).bad = s.bad := rfl
@[simp] theorem State.onDbg_clusters (s : State) (f : Debug → Debug) : (s.onDbg f).clusters = s.clusters := rfl
@[simp] theorem State.onDbg_dies (s : State) (f : Debug → Debug) : (s.onDbg f).dies = s.dies := rfl
@[simp] theorem State.onDbg_pkg (s : State) (f : Debug → Debug) : (s.onDbg f).pkg = s.pkg := rfl
@[simp] theorem State.onDbg_pkgx (s : State) (f : Debug → Debug) : (s.onDbg f).pkgx = s.pkgx := rfl
@[simp] theorem State.onDbg_pending (s : State) (f : Debug → Debug) : (s.onDbg f).pending = s.pending := rfl
@[simp] theorem State.onDbg_free (s : State) (f : Debug → Debug) : (s.onDbg f).free = s.free := rfl
@[simp] theorem State.onDbg_nextId (s : State) (f : Debug → Debug) : (s.onDbg f).nextId = s.nextId := rfl
@[simp] theorem State.onCluster_cn (s : State) (n : Nat) (f : Cluster → Cluster) : (s.onCluster n f).cn = s.cn := rfl
@[simp] theorem State.onCluster_core (s : State) (n : Nat) (f : Cluster → Cluster) : (s.onCluster n f).core = s.core := rfl
@[simp] theorem State.onCluster_others (s : State) (n : Nat) (f : Cluster → Cluster) : (s.onCluster n f).others = s.others := rfl
@[simp] theorem State.onCluster_mem (s : State) (n : Nat) (f : Cluster → Cluster) : (s.onCluster n f).mem = s.mem := rfl
@[simp] theorem State.onCluster_tags (s : State) (n : Nat) (f : Cluster → Cluster) : (s.onCluster n f).tags = s.tags := rfl
@[simp] theorem State.onCluster_lineKey (s : State) (n : Nat) (f : Cluster → Cluster) : (s.onCluster n f).lineKey = s.lineKey := rfl
@[simp] theorem State.onCluster_hbm (s : State) (n : Nat) (f : Cluster → Cluster) : (s.onCluster n f).hbm = s.hbm := rfl
@[simp] theorem State.onCluster_stale (s : State) (n : Nat) (f : Cluster → Cluster) : (s.onCluster n f).stale = s.stale := rfl
@[simp] theorem State.onCluster_vgran (s : State) (n : Nat) (f : Cluster → Cluster) : (s.onCluster n f).vgran = s.vgran := rfl
@[simp] theorem State.onCluster_bad (s : State) (n : Nat) (f : Cluster → Cluster) : (s.onCluster n f).bad = s.bad := rfl
@[simp] theorem State.onCluster_clusters (s : State) (n : Nat) (f : Cluster → Cluster) : (s.onCluster n f).clusters = mapSet s.clusters n (f (s.cluster n)) := rfl
@[simp] theorem State.onCluster_dies (s : State) (n : Nat) (f : Cluster → Cluster) : (s.onCluster n f).dies = s.dies := rfl
@[simp] theorem State.onCluster_pkg (s : State) (n : Nat) (f : Cluster → Cluster) : (s.onCluster n f).pkg = s.pkg := rfl
@[simp] theorem State.onCluster_pkgx (s : State) (n : Nat) (f : Cluster → Cluster) : (s.onCluster n f).pkgx = s.pkgx := rfl
@[simp] theorem State.onCluster_pending (s : State) (n : Nat) (f : Cluster → Cluster) : (s.onCluster n f).pending = s.pending := rfl
@[simp] theorem State.onCluster_free (s : State) (n : Nat) (f : Cluster → Cluster) : (s.onCluster n f).free = s.free := rfl
@[simp] theorem State.onCluster_nextId (s : State) (n : Nat) (f : Cluster → Cluster) : (s.onCluster n f).nextId = s.nextId := rfl
@[simp] theorem State.onDie_cn (s : State) (n : Nat) (f : Die → Die) : (s.onDie n f).cn = s.cn := rfl
@[simp] theorem State.onDie_core (s : State) (n : Nat) (f : Die → Die) : (s.onDie n f).core = s.core := rfl
@[simp] theorem State.onDie_others (s : State) (n : Nat) (f : Die → Die) : (s.onDie n f).others = s.others := rfl
@[simp] theorem State.onDie_mem (s : State) (n : Nat) (f : Die → Die) : (s.onDie n f).mem = s.mem := rfl
@[simp] theorem State.onDie_tags (s : State) (n : Nat) (f : Die → Die) : (s.onDie n f).tags = s.tags := rfl
@[simp] theorem State.onDie_lineKey (s : State) (n : Nat) (f : Die → Die) : (s.onDie n f).lineKey = s.lineKey := rfl
@[simp] theorem State.onDie_hbm (s : State) (n : Nat) (f : Die → Die) : (s.onDie n f).hbm = s.hbm := rfl
@[simp] theorem State.onDie_stale (s : State) (n : Nat) (f : Die → Die) : (s.onDie n f).stale = s.stale := rfl
@[simp] theorem State.onDie_vgran (s : State) (n : Nat) (f : Die → Die) : (s.onDie n f).vgran = s.vgran := rfl
@[simp] theorem State.onDie_bad (s : State) (n : Nat) (f : Die → Die) : (s.onDie n f).bad = s.bad := rfl
@[simp] theorem State.onDie_clusters (s : State) (n : Nat) (f : Die → Die) : (s.onDie n f).clusters = s.clusters := rfl
@[simp] theorem State.onDie_dies (s : State) (n : Nat) (f : Die → Die) : (s.onDie n f).dies = mapSet s.dies n (f (s.die n)) := rfl
@[simp] theorem State.onDie_pkg (s : State) (n : Nat) (f : Die → Die) : (s.onDie n f).pkg = s.pkg := rfl
@[simp] theorem State.onDie_pkgx (s : State) (n : Nat) (f : Die → Die) : (s.onDie n f).pkgx = s.pkgx := rfl
@[simp] theorem State.onDie_pending (s : State) (n : Nat) (f : Die → Die) : (s.onDie n f).pending = s.pending := rfl
@[simp] theorem State.onDie_free (s : State) (n : Nat) (f : Die → Die) : (s.onDie n f).free = s.free := rfl
@[simp] theorem State.onDie_nextId (s : State) (n : Nat) (f : Die → Die) : (s.onDie n f).nextId = s.nextId := rfl
@[simp] theorem State.post_cn (s : State) (t : Nat) (e : Event) : (s.post t e).cn = s.cn := rfl
@[simp] theorem State.post_core (s : State) (t : Nat) (e : Event) : (s.post t e).core = s.core := rfl
@[simp] theorem State.post_others (s : State) (t : Nat) (e : Event) : (s.post t e).others = s.others := rfl
@[simp] theorem State.post_mem (s : State) (t : Nat) (e : Event) : (s.post t e).mem = s.mem := rfl
@[simp] theorem State.post_tags (s : State) (t : Nat) (e : Event) : (s.post t e).tags = s.tags := rfl
@[simp] theorem State.post_lineKey (s : State) (t : Nat) (e : Event) : (s.post t e).lineKey = s.lineKey := rfl
@[simp] theorem State.post_hbm (s : State) (t : Nat) (e : Event) : (s.post t e).hbm = s.hbm := rfl
@[simp] theorem State.post_stale (s : State) (t : Nat) (e : Event) : (s.post t e).stale = s.stale := rfl
@[simp] theorem State.post_vgran (s : State) (t : Nat) (e : Event) : (s.post t e).vgran = s.vgran := rfl
@[simp] theorem State.post_bad (s : State) (t : Nat) (e : Event) : (s.post t e).bad = s.bad := rfl
@[simp] theorem State.post_clusters (s : State) (t : Nat) (e : Event) : (s.post t e).clusters = s.clusters := rfl
@[simp] theorem State.post_dies (s : State) (t : Nat) (e : Event) : (s.post t e).dies = s.dies := rfl
@[simp] theorem State.post_pkg (s : State) (t : Nat) (e : Event) : (s.post t e).pkg = s.pkg := rfl
@[simp] theorem State.post_pkgx (s : State) (t : Nat) (e : Event) : (s.post t e).pkgx = s.pkgx := rfl
@[simp] theorem State.post_pending (s : State) (t : Nat) (e : Event) : (s.post t e).pending = s.pending ++ [(t, e)] := rfl
@[simp] theorem State.post_free (s : State) (t : Nat) (e : Event) : (s.post t e).free = s.free := rfl
@[simp] theorem State.post_nextId (s : State) (t : Nat) (e : Event) : (s.post t e).nextId = s.nextId := rfl
@[simp] theorem State.drawFree_cn (s : State) : (s.drawFree.2).cn = s.cn := rfl
@[simp] theorem State.drawFree_core (s : State) : (s.drawFree.2).core = s.core := rfl
@[simp] theorem State.drawFree_others (s : State) : (s.drawFree.2).others = s.others := rfl
@[simp] theorem State.drawFree_mem (s : State) : (s.drawFree.2).mem = s.mem := rfl
@[simp] theorem State.drawFree_tags (s : State) : (s.drawFree.2).tags = s.tags := rfl
@[simp] theorem State.drawFree_lineKey (s : State) : (s.drawFree.2).lineKey = s.lineKey := rfl
@[simp] theorem State.drawFree_hbm (s : State) : (s.drawFree.2).hbm = s.hbm := rfl
@[simp] theorem State.drawFree_stale (s : State) : (s.drawFree.2).stale = s.stale := rfl
@[simp] theorem State.drawFree_vgran (s : State) : (s.drawFree.2).vgran = s.vgran := rfl
@[simp] theorem State.drawFree_bad (s : State) : (s.drawFree.2).bad = s.bad := rfl
@[simp] theorem State.drawFree_clusters (s : State) : (s.drawFree.2).clusters = s.clusters := rfl
@[simp] theorem State.drawFree_dies (s : State) : (s.drawFree.2).dies = s.dies := rfl
@[simp] theorem State.drawFree_pkg (s : State) : (s.drawFree.2).pkg = s.pkg := rfl
@[simp] theorem State.drawFree_pkgx (s : State) : (s.drawFree.2).pkgx = s.pkgx := rfl
@[simp] theorem State.drawFree_pending (s : State) : (s.drawFree.2).pending = s.pending := rfl
@[simp] theorem State.drawFree_free (s : State) : (s.drawFree.2).free = s.free + 1 := rfl
@[simp] theorem State.drawFree_nextId (s : State) : (s.drawFree.2).nextId = s.nextId := rfl
@[simp] theorem State.ws_onWs (s : State) (f : Ws → Ws) : (s.onWs f).ws = f s.ws := rfl
@[simp] theorem State.ws_onSlot (s : State) (f : Slot → Slot) : (s.onSlot f).ws = s.ws := rfl
@[simp] theorem State.ws_onSx (s : State) (f : SlotX → SlotX) : (s.onSx f).ws = s.ws := rfl
@[simp] theorem State.ws_onDbg (s : State) (f : Debug → Debug) : (s.onDbg f).ws = s.ws := rfl
@[simp] theorem State.slot_onWs (s : State) (f : Ws → Ws) : (s.onWs f).slot = s.slot := rfl
@[simp] theorem State.slot_onSx (s : State) (f : SlotX → SlotX) : (s.onSx f).slot = s.slot := rfl
@[simp] theorem State.slot_onDbg (s : State) (f : Debug → Debug) : (s.onDbg f).slot = s.slot := rfl
@[simp] theorem State.sx_onWs (s : State) (f : Ws → Ws) : (s.onWs f).sx = s.sx := rfl
@[simp] theorem State.sx_onSlot (s : State) (f : Slot → Slot) : (s.onSlot f).sx = s.sx := rfl
@[simp] theorem State.sx_onDbg (s : State) (f : Debug → Debug) : (s.onDbg f).sx = s.sx := rfl
@[simp] theorem State.slot_onSlot (s : State) (f : Slot → Slot) : (s.onSlot f).slot = f s.slot := by
  simp [State.slot, State.onSlot, Core.slot, Core.onSlot]
@[simp] theorem State.sx_onSx (s : State) (f : SlotX → SlotX) : (s.onSx f).sx = f s.sx := by
  simp [State.sx, State.onSx, Core.sx, Core.onSx]

/-! ## Updates of a core -/

@[simp] theorem Core.onSlot_res (c : Core) (i : SlotId) (f : Slot → Slot) : (c.onSlot i f).res = c.res := rfl
@[simp] theorem Core.onSlot_alt (c : Core) (i : SlotId) (f : Slot → Slot) : (c.onSlot i f).alt = c.alt := rfl
@[simp] theorem Core.onSlot_cur (c : Core) (i : SlotId) (f : Slot → Slot) : (c.onSlot i f).cur = c.cur := rfl
@[simp] theorem Core.onSlot_slots (c : Core) (i : SlotId) (f : Slot → Slot) : (c.onSlot i f).slots = c.slots.set i (f c.slots[i]) := rfl
@[simp] theorem Core.onSlot_slotx (c : Core) (i : SlotId) (f : Slot → Slot) : (c.onSlot i f).slotx = c.slotx := rfl
@[simp] theorem Core.onSlot_pad (c : Core) (i : SlotId) (f : Slot → Slot) : (c.onSlot i f).pad = c.pad := rfl
@[simp] theorem Core.onSlot_padTags (c : Core) (i : SlotId) (f : Slot → Slot) : (c.onSlot i f).padTags = c.padTags := rfl
@[simp] theorem Core.onSlot_gran (c : Core) (i : SlotId) (f : Slot → Slot) : (c.onSlot i f).gran = c.gran := rfl
@[simp] theorem Core.onSlot_tlb (c : Core) (i : SlotId) (f : Slot → Slot) : (c.onSlot i f).tlb = c.tlb := rfl
@[simp] theorem Core.onSlot_win (c : Core) (i : SlotId) (f : Slot → Slot) : (c.onSlot i f).win = c.win := rfl
@[simp] theorem Core.onSlot_mbox (c : Core) (i : SlotId) (f : Slot → Slot) : (c.onSlot i f).mbox = c.mbox := rfl
@[simp] theorem Core.onSlot_carry (c : Core) (i : SlotId) (f : Slot → Slot) : (c.onSlot i f).carry = c.carry := rfl
@[simp] theorem Core.onSlot_copies (c : Core) (i : SlotId) (f : Slot → Slot) : (c.onSlot i f).copies = c.copies := rfl
@[simp] theorem Core.onSlot_puts (c : Core) (i : SlotId) (f : Slot → Slot) : (c.onSlot i f).puts = c.puts := rfl
@[simp] theorem Core.onSlot_orphan (c : Core) (i : SlotId) (f : Slot → Slot) : (c.onSlot i f).orphan = c.orphan := rfl
@[simp] theorem Core.onSlot_allocs (c : Core) (i : SlotId) (f : Slot → Slot) : (c.onSlot i f).allocs = c.allocs := rfl
@[simp] theorem Core.onSlot_srng (c : Core) (i : SlotId) (f : Slot → Slot) : (c.onSlot i f).srng = c.srng := rfl
@[simp] theorem Core.onSlot_grng (c : Core) (i : SlotId) (f : Slot → Slot) : (c.onSlot i f).grng = c.grng := rfl
@[simp] theorem Core.onSlot_latecnt (c : Core) (i : SlotId) (f : Slot → Slot) : (c.onSlot i f).latecnt = c.latecnt := rfl
@[simp] theorem Core.onSlot_bsel (c : Core) (i : SlotId) (f : Slot → Slot) : (c.onSlot i f).bsel = c.bsel := rfl
@[simp] theorem Core.onSlot_dbg (c : Core) (i : SlotId) (f : Slot → Slot) : (c.onSlot i f).dbg = c.dbg := rfl
@[simp] theorem Core.onSlot_tokens (c : Core) (i : SlotId) (f : Slot → Slot) : (c.onSlot i f).tokens = c.tokens := rfl
@[simp] theorem Core.onSlot_debt (c : Core) (i : SlotId) (f : Slot → Slot) : (c.onSlot i f).debt = c.debt := rfl
@[simp] theorem Core.onSlot_active (c : Core) (i : SlotId) (f : Slot → Slot) : (c.onSlot i f).active = c.active := rfl
@[simp] theorem Core.onSlot_l1d (c : Core) (i : SlotId) (f : Slot → Slot) : (c.onSlot i f).l1d = c.l1d := rfl
@[simp] theorem Core.onSlot_l1i (c : Core) (i : SlotId) (f : Slot → Slot) : (c.onSlot i f).l1i = c.l1i := rfl
@[simp] theorem Core.onSlot_drains (c : Core) (i : SlotId) (f : Slot → Slot) : (c.onSlot i f).drains = c.drains := rfl
@[simp] theorem Core.onSlot_padBad (c : Core) (i : SlotId) (f : Slot → Slot) : (c.onSlot i f).padBad = c.padBad := rfl
@[simp] theorem Core.onSlot_bindPcs (c : Core) (i : SlotId) (f : Slot → Slot) : (c.onSlot i f).bindPcs = c.bindPcs := rfl
@[simp] theorem Core.onSlot_trail (c : Core) (i : SlotId) (f : Slot → Slot) : (c.onSlot i f).trail = c.trail := rfl
@[simp] theorem Core.onSx_res (c : Core) (i : SlotId) (f : SlotX → SlotX) : (c.onSx i f).res = c.res := rfl
@[simp] theorem Core.onSx_alt (c : Core) (i : SlotId) (f : SlotX → SlotX) : (c.onSx i f).alt = c.alt := rfl
@[simp] theorem Core.onSx_cur (c : Core) (i : SlotId) (f : SlotX → SlotX) : (c.onSx i f).cur = c.cur := rfl
@[simp] theorem Core.onSx_slots (c : Core) (i : SlotId) (f : SlotX → SlotX) : (c.onSx i f).slots = c.slots := rfl
@[simp] theorem Core.onSx_slotx (c : Core) (i : SlotId) (f : SlotX → SlotX) : (c.onSx i f).slotx = c.slotx.set i (f c.slotx[i]) := rfl
@[simp] theorem Core.onSx_pad (c : Core) (i : SlotId) (f : SlotX → SlotX) : (c.onSx i f).pad = c.pad := rfl
@[simp] theorem Core.onSx_padTags (c : Core) (i : SlotId) (f : SlotX → SlotX) : (c.onSx i f).padTags = c.padTags := rfl
@[simp] theorem Core.onSx_gran (c : Core) (i : SlotId) (f : SlotX → SlotX) : (c.onSx i f).gran = c.gran := rfl
@[simp] theorem Core.onSx_tlb (c : Core) (i : SlotId) (f : SlotX → SlotX) : (c.onSx i f).tlb = c.tlb := rfl
@[simp] theorem Core.onSx_win (c : Core) (i : SlotId) (f : SlotX → SlotX) : (c.onSx i f).win = c.win := rfl
@[simp] theorem Core.onSx_mbox (c : Core) (i : SlotId) (f : SlotX → SlotX) : (c.onSx i f).mbox = c.mbox := rfl
@[simp] theorem Core.onSx_carry (c : Core) (i : SlotId) (f : SlotX → SlotX) : (c.onSx i f).carry = c.carry := rfl
@[simp] theorem Core.onSx_copies (c : Core) (i : SlotId) (f : SlotX → SlotX) : (c.onSx i f).copies = c.copies := rfl
@[simp] theorem Core.onSx_puts (c : Core) (i : SlotId) (f : SlotX → SlotX) : (c.onSx i f).puts = c.puts := rfl
@[simp] theorem Core.onSx_orphan (c : Core) (i : SlotId) (f : SlotX → SlotX) : (c.onSx i f).orphan = c.orphan := rfl
@[simp] theorem Core.onSx_allocs (c : Core) (i : SlotId) (f : SlotX → SlotX) : (c.onSx i f).allocs = c.allocs := rfl
@[simp] theorem Core.onSx_srng (c : Core) (i : SlotId) (f : SlotX → SlotX) : (c.onSx i f).srng = c.srng := rfl
@[simp] theorem Core.onSx_grng (c : Core) (i : SlotId) (f : SlotX → SlotX) : (c.onSx i f).grng = c.grng := rfl
@[simp] theorem Core.onSx_latecnt (c : Core) (i : SlotId) (f : SlotX → SlotX) : (c.onSx i f).latecnt = c.latecnt := rfl
@[simp] theorem Core.onSx_bsel (c : Core) (i : SlotId) (f : SlotX → SlotX) : (c.onSx i f).bsel = c.bsel := rfl
@[simp] theorem Core.onSx_dbg (c : Core) (i : SlotId) (f : SlotX → SlotX) : (c.onSx i f).dbg = c.dbg := rfl
@[simp] theorem Core.onSx_tokens (c : Core) (i : SlotId) (f : SlotX → SlotX) : (c.onSx i f).tokens = c.tokens := rfl
@[simp] theorem Core.onSx_debt (c : Core) (i : SlotId) (f : SlotX → SlotX) : (c.onSx i f).debt = c.debt := rfl
@[simp] theorem Core.onSx_active (c : Core) (i : SlotId) (f : SlotX → SlotX) : (c.onSx i f).active = c.active := rfl
@[simp] theorem Core.onSx_l1d (c : Core) (i : SlotId) (f : SlotX → SlotX) : (c.onSx i f).l1d = c.l1d := rfl
@[simp] theorem Core.onSx_l1i (c : Core) (i : SlotId) (f : SlotX → SlotX) : (c.onSx i f).l1i = c.l1i := rfl
@[simp] theorem Core.onSx_drains (c : Core) (i : SlotId) (f : SlotX → SlotX) : (c.onSx i f).drains = c.drains := rfl
@[simp] theorem Core.onSx_padBad (c : Core) (i : SlotId) (f : SlotX → SlotX) : (c.onSx i f).padBad = c.padBad := rfl
@[simp] theorem Core.onSx_bindPcs (c : Core) (i : SlotId) (f : SlotX → SlotX) : (c.onSx i f).bindPcs = c.bindPcs := rfl
@[simp] theorem Core.onSx_trail (c : Core) (i : SlotId) (f : SlotX → SlotX) : (c.onSx i f).trail = c.trail := rfl
@[simp] theorem Core.onWs_res (c : Core) (f : Ws → Ws) : (c.onWs f).res = { c.res with ws := f c.res.ws } := rfl
@[simp] theorem Core.onWs_alt (c : Core) (f : Ws → Ws) : (c.onWs f).alt = c.alt := rfl
@[simp] theorem Core.onWs_cur (c : Core) (f : Ws → Ws) : (c.onWs f).cur = c.cur := rfl
@[simp] theorem Core.onWs_slots (c : Core) (f : Ws → Ws) : (c.onWs f).slots = c.slots := rfl
@[simp] theorem Core.onWs_slotx (c : Core) (f : Ws → Ws) : (c.onWs f).slotx = c.slotx := rfl
@[simp] theorem Core.onWs_pad (c : Core) (f : Ws → Ws) : (c.onWs f).pad = c.pad := rfl
@[simp] theorem Core.onWs_padTags (c : Core) (f : Ws → Ws) : (c.onWs f).padTags = c.padTags := rfl
@[simp] theorem Core.onWs_gran (c : Core) (f : Ws → Ws) : (c.onWs f).gran = c.gran := rfl
@[simp] theorem Core.onWs_tlb (c : Core) (f : Ws → Ws) : (c.onWs f).tlb = c.tlb := rfl
@[simp] theorem Core.onWs_win (c : Core) (f : Ws → Ws) : (c.onWs f).win = c.win := rfl
@[simp] theorem Core.onWs_mbox (c : Core) (f : Ws → Ws) : (c.onWs f).mbox = c.mbox := rfl
@[simp] theorem Core.onWs_carry (c : Core) (f : Ws → Ws) : (c.onWs f).carry = c.carry := rfl
@[simp] theorem Core.onWs_copies (c : Core) (f : Ws → Ws) : (c.onWs f).copies = c.copies := rfl
@[simp] theorem Core.onWs_puts (c : Core) (f : Ws → Ws) : (c.onWs f).puts = c.puts := rfl
@[simp] theorem Core.onWs_orphan (c : Core) (f : Ws → Ws) : (c.onWs f).orphan = c.orphan := rfl
@[simp] theorem Core.onWs_allocs (c : Core) (f : Ws → Ws) : (c.onWs f).allocs = c.allocs := rfl
@[simp] theorem Core.onWs_srng (c : Core) (f : Ws → Ws) : (c.onWs f).srng = c.srng := rfl
@[simp] theorem Core.onWs_grng (c : Core) (f : Ws → Ws) : (c.onWs f).grng = c.grng := rfl
@[simp] theorem Core.onWs_latecnt (c : Core) (f : Ws → Ws) : (c.onWs f).latecnt = c.latecnt := rfl
@[simp] theorem Core.onWs_bsel (c : Core) (f : Ws → Ws) : (c.onWs f).bsel = c.bsel := rfl
@[simp] theorem Core.onWs_dbg (c : Core) (f : Ws → Ws) : (c.onWs f).dbg = c.dbg := rfl
@[simp] theorem Core.onWs_tokens (c : Core) (f : Ws → Ws) : (c.onWs f).tokens = c.tokens := rfl
@[simp] theorem Core.onWs_debt (c : Core) (f : Ws → Ws) : (c.onWs f).debt = c.debt := rfl
@[simp] theorem Core.onWs_active (c : Core) (f : Ws → Ws) : (c.onWs f).active = c.active := rfl
@[simp] theorem Core.onWs_l1d (c : Core) (f : Ws → Ws) : (c.onWs f).l1d = c.l1d := rfl
@[simp] theorem Core.onWs_l1i (c : Core) (f : Ws → Ws) : (c.onWs f).l1i = c.l1i := rfl
@[simp] theorem Core.onWs_drains (c : Core) (f : Ws → Ws) : (c.onWs f).drains = c.drains := rfl
@[simp] theorem Core.onWs_padBad (c : Core) (f : Ws → Ws) : (c.onWs f).padBad = c.padBad := rfl
@[simp] theorem Core.onWs_bindPcs (c : Core) (f : Ws → Ws) : (c.onWs f).bindPcs = c.bindPcs := rfl
@[simp] theorem Core.onWs_trail (c : Core) (f : Ws → Ws) : (c.onWs f).trail = c.trail := rfl

/-! ## Registers and their live masks -/

@[simp] theorem Ws.setS_v (w : Ws) (r : SReg) (x : Word) : (w.setS r x).v = w.v := by unfold Ws.setS; split <;> rfl
@[simp] theorem Ws.setS_m (w : Ws) (r : SReg) (x : Word) : (w.setS r x).m = w.m := by unfold Ws.setS; split <;> rfl
@[simp] theorem Ws.setS_c (w : Ws) (r : SReg) (x : Word) : (w.setS r x).c = w.c := by unfold Ws.setS; split <;> rfl
@[simp] theorem Ws.setS_k (w : Ws) (r : SReg) (x : Word) : (w.setS r x).k = w.k := by unfold Ws.setS; split <;> rfl
@[simp] theorem Ws.setS_liveV (w : Ws) (r : SReg) (x : Word) : (w.setS r x).liveV = w.liveV := by unfold Ws.setS; split <;> rfl
@[simp] theorem Ws.setS_liveM (w : Ws) (r : SReg) (x : Word) : (w.setS r x).liveM = w.liveM := by unfold Ws.setS; split <;> rfl
@[simp] theorem Ws.setS_liveC (w : Ws) (r : SReg) (x : Word) : (w.setS r x).liveC = w.liveC := by unfold Ws.setS; split <;> rfl
@[simp] theorem Ws.setS_liveK (w : Ws) (r : SReg) (x : Word) : (w.setS r x).liveK = w.liveK := by unfold Ws.setS; split <;> rfl
@[simp] theorem Ws.setS_pc (w : Ws) (r : SReg) (x : Word) : (w.setS r x).pc = w.pc := by unfold Ws.setS; split <;> rfl
@[simp] theorem Ws.setS_tsw (w : Ws) (r : SReg) (x : Word) : (w.setS r x).tsw = w.tsw := by unfold Ws.setS; split <;> rfl
@[simp] theorem Ws.setS_atp (w : Ws) (r : SReg) (x : Word) : (w.setS r x).atp = w.atp := by unfold Ws.setS; split <;> rfl
@[simp] theorem Ws.setS_fcsr (w : Ws) (r : SReg) (x : Word) : (w.setS r x).fcsr = w.fcsr := by unfold Ws.setS; split <;> rfl
@[simp] theorem Ws.setS_vl (w : Ws) (r : SReg) (x : Word) : (w.setS r x).vl = w.vl := by unfold Ws.setS; split <;> rfl
@[simp] theorem Ws.setS_mcr (w : Ws) (r : SReg) (x : Word) : (w.setS r x).mcr = w.mcr := by unfold Ws.setS; split <;> rfl
@[simp] theorem Ws.setS_cvm (w : Ws) (r : SReg) (x : Word) : (w.setS r x).cvm = w.cvm := by unfold Ws.setS; split <;> rfl
@[simp] theorem Ws.setS_prog (w : Ws) (r : SReg) (x : Word) : (w.setS r x).prog = w.prog := by unfold Ws.setS; split <;> rfl
@[simp] theorem Ws.setS_q (w : Ws) (r : SReg) (x : Word) : (w.setS r x).q = w.q := by unfold Ws.setS; split <;> rfl
@[simp] theorem Ws.killS_s (w : Ws) (r : SReg) : (w.killS r).s = w.s := rfl
@[simp] theorem Ws.killS_v (w : Ws) (r : SReg) : (w.killS r).v = w.v := rfl
@[simp] theorem Ws.killS_m (w : Ws) (r : SReg) : (w.killS r).m = w.m := rfl
@[simp] theorem Ws.killS_c (w : Ws) (r : SReg) : (w.killS r).c = w.c := rfl
@[simp] theorem Ws.killS_k (w : Ws) (r : SReg) : (w.killS r).k = w.k := rfl
@[simp] theorem Ws.killS_liveV (w : Ws) (r : SReg) : (w.killS r).liveV = w.liveV := rfl
@[simp] theorem Ws.killS_liveM (w : Ws) (r : SReg) : (w.killS r).liveM = w.liveM := rfl
@[simp] theorem Ws.killS_liveC (w : Ws) (r : SReg) : (w.killS r).liveC = w.liveC := rfl
@[simp] theorem Ws.killS_liveK (w : Ws) (r : SReg) : (w.killS r).liveK = w.liveK := rfl
@[simp] theorem Ws.killS_pc (w : Ws) (r : SReg) : (w.killS r).pc = w.pc := rfl
@[simp] theorem Ws.killS_tsw (w : Ws) (r : SReg) : (w.killS r).tsw = w.tsw := rfl
@[simp] theorem Ws.killS_atp (w : Ws) (r : SReg) : (w.killS r).atp = w.atp := rfl
@[simp] theorem Ws.killS_fcsr (w : Ws) (r : SReg) : (w.killS r).fcsr = w.fcsr := rfl
@[simp] theorem Ws.killS_vl (w : Ws) (r : SReg) : (w.killS r).vl = w.vl := rfl
@[simp] theorem Ws.killS_mcr (w : Ws) (r : SReg) : (w.killS r).mcr = w.mcr := rfl
@[simp] theorem Ws.killS_cvm (w : Ws) (r : SReg) : (w.killS r).cvm = w.cvm := rfl
@[simp] theorem Ws.killS_prog (w : Ws) (r : SReg) : (w.killS r).prog = w.prog := rfl
@[simp] theorem Ws.killS_q (w : Ws) (r : SReg) : (w.killS r).q = w.q := rfl
@[simp] theorem Ws.setV_s (w : Ws) (r : VReg) (x : VWord) : (w.setV r x).s = w.s := rfl
@[simp] theorem Ws.setV_m (w : Ws) (r : VReg) (x : VWord) : (w.setV r x).m = w.m := rfl
@[simp] theorem Ws.setV_c (w : Ws) (r : VReg) (x : VWord) : (w.setV r x).c = w.c := rfl
@[simp] theorem Ws.setV_k (w : Ws) (r : VReg) (x : VWord) : (w.setV r x).k = w.k := rfl
@[simp] theorem Ws.setV_liveS (w : Ws) (r : VReg) (x : VWord) : (w.setV r x).liveS = w.liveS := rfl
@[simp] theorem Ws.setV_liveM (w : Ws) (r : VReg) (x : VWord) : (w.setV r x).liveM = w.liveM := rfl
@[simp] theorem Ws.setV_liveC (w : Ws) (r : VReg) (x : VWord) : (w.setV r x).liveC = w.liveC := rfl
@[simp] theorem Ws.setV_liveK (w : Ws) (r : VReg) (x : VWord) : (w.setV r x).liveK = w.liveK := rfl
@[simp] theorem Ws.setV_pc (w : Ws) (r : VReg) (x : VWord) : (w.setV r x).pc = w.pc := rfl
@[simp] theorem Ws.setV_tsw (w : Ws) (r : VReg) (x : VWord) : (w.setV r x).tsw = w.tsw := rfl
@[simp] theorem Ws.setV_atp (w : Ws) (r : VReg) (x : VWord) : (w.setV r x).atp = w.atp := rfl
@[simp] theorem Ws.setV_fcsr (w : Ws) (r : VReg) (x : VWord) : (w.setV r x).fcsr = w.fcsr := rfl
@[simp] theorem Ws.setV_vl (w : Ws) (r : VReg) (x : VWord) : (w.setV r x).vl = w.vl := rfl
@[simp] theorem Ws.setV_mcr (w : Ws) (r : VReg) (x : VWord) : (w.setV r x).mcr = w.mcr := rfl
@[simp] theorem Ws.setV_cvm (w : Ws) (r : VReg) (x : VWord) : (w.setV r x).cvm = w.cvm := rfl
@[simp] theorem Ws.setV_prog (w : Ws) (r : VReg) (x : VWord) : (w.setV r x).prog = w.prog := rfl
@[simp] theorem Ws.setV_q (w : Ws) (r : VReg) (x : VWord) : (w.setV r x).q = w.q := rfl
@[simp] theorem Ws.killV_s (w : Ws) (r : VReg) : (w.killV r).s = w.s := rfl
@[simp] theorem Ws.killV_v (w : Ws) (r : VReg) : (w.killV r).v = w.v := rfl
@[simp] theorem Ws.killV_m (w : Ws) (r : VReg) : (w.killV r).m = w.m := rfl
@[simp] theorem Ws.killV_c (w : Ws) (r : VReg) : (w.killV r).c = w.c := rfl
@[simp] theorem Ws.killV_k (w : Ws) (r : VReg) : (w.killV r).k = w.k := rfl
@[simp] theorem Ws.killV_liveS (w : Ws) (r : VReg) : (w.killV r).liveS = w.liveS := rfl
@[simp] theorem Ws.killV_liveM (w : Ws) (r : VReg) : (w.killV r).liveM = w.liveM := rfl
@[simp] theorem Ws.killV_liveC (w : Ws) (r : VReg) : (w.killV r).liveC = w.liveC := rfl
@[simp] theorem Ws.killV_liveK (w : Ws) (r : VReg) : (w.killV r).liveK = w.liveK := rfl
@[simp] theorem Ws.killV_pc (w : Ws) (r : VReg) : (w.killV r).pc = w.pc := rfl
@[simp] theorem Ws.killV_tsw (w : Ws) (r : VReg) : (w.killV r).tsw = w.tsw := rfl
@[simp] theorem Ws.killV_atp (w : Ws) (r : VReg) : (w.killV r).atp = w.atp := rfl
@[simp] theorem Ws.killV_fcsr (w : Ws) (r : VReg) : (w.killV r).fcsr = w.fcsr := rfl
@[simp] theorem Ws.killV_vl (w : Ws) (r : VReg) : (w.killV r).vl = w.vl := rfl
@[simp] theorem Ws.killV_mcr (w : Ws) (r : VReg) : (w.killV r).mcr = w.mcr := rfl
@[simp] theorem Ws.killV_cvm (w : Ws) (r : VReg) : (w.killV r).cvm = w.cvm := rfl
@[simp] theorem Ws.killV_prog (w : Ws) (r : VReg) : (w.killV r).prog = w.prog := rfl
@[simp] theorem Ws.killV_q (w : Ws) (r : VReg) : (w.killV r).q = w.q := rfl
@[simp] theorem Ws.setM_s (w : Ws) (r : MReg) (x : MWord) : (w.setM r x).s = w.s := rfl
@[simp] theorem Ws.setM_v (w : Ws) (r : MReg) (x : MWord) : (w.setM r x).v = w.v := rfl
@[simp] theorem Ws.setM_c (w : Ws) (r : MReg) (x : MWord) : (w.setM r x).c = w.c := rfl
@[simp] theorem Ws.setM_k (w : Ws) (r : MReg) (x : MWord) : (w.setM r x).k = w.k := rfl
@[simp] theorem Ws.setM_liveS (w : Ws) (r : MReg) (x : MWord) : (w.setM r x).liveS = w.liveS := rfl
@[simp] theorem Ws.setM_liveV (w : Ws) (r : MReg) (x : MWord) : (w.setM r x).liveV = w.liveV := rfl
@[simp] theorem Ws.setM_liveC (w : Ws) (r : MReg) (x : MWord) : (w.setM r x).liveC = w.liveC := rfl
@[simp] theorem Ws.setM_liveK (w : Ws) (r : MReg) (x : MWord) : (w.setM r x).liveK = w.liveK := rfl
@[simp] theorem Ws.setM_pc (w : Ws) (r : MReg) (x : MWord) : (w.setM r x).pc = w.pc := rfl
@[simp] theorem Ws.setM_tsw (w : Ws) (r : MReg) (x : MWord) : (w.setM r x).tsw = w.tsw := rfl
@[simp] theorem Ws.setM_atp (w : Ws) (r : MReg) (x : MWord) : (w.setM r x).atp = w.atp := rfl
@[simp] theorem Ws.setM_fcsr (w : Ws) (r : MReg) (x : MWord) : (w.setM r x).fcsr = w.fcsr := rfl
@[simp] theorem Ws.setM_vl (w : Ws) (r : MReg) (x : MWord) : (w.setM r x).vl = w.vl := rfl
@[simp] theorem Ws.setM_mcr (w : Ws) (r : MReg) (x : MWord) : (w.setM r x).mcr = w.mcr := rfl
@[simp] theorem Ws.setM_cvm (w : Ws) (r : MReg) (x : MWord) : (w.setM r x).cvm = w.cvm := rfl
@[simp] theorem Ws.setM_prog (w : Ws) (r : MReg) (x : MWord) : (w.setM r x).prog = w.prog := rfl
@[simp] theorem Ws.setM_q (w : Ws) (r : MReg) (x : MWord) : (w.setM r x).q = w.q := rfl
@[simp] theorem Ws.killM_s (w : Ws) (r : MReg) : (w.killM r).s = w.s := rfl
@[simp] theorem Ws.killM_v (w : Ws) (r : MReg) : (w.killM r).v = w.v := rfl
@[simp] theorem Ws.killM_m (w : Ws) (r : MReg) : (w.killM r).m = w.m := rfl
@[simp] theorem Ws.killM_c (w : Ws) (r : MReg) : (w.killM r).c = w.c := rfl
@[simp] theorem Ws.killM_k (w : Ws) (r : MReg) : (w.killM r).k = w.k := rfl
@[simp] theorem Ws.killM_liveS (w : Ws) (r : MReg) : (w.killM r).liveS = w.liveS := rfl
@[simp] theorem Ws.killM_liveV (w : Ws) (r : MReg) : (w.killM r).liveV = w.liveV := rfl
@[simp] theorem Ws.killM_liveC (w : Ws) (r : MReg) : (w.killM r).liveC = w.liveC := rfl
@[simp] theorem Ws.killM_liveK (w : Ws) (r : MReg) : (w.killM r).liveK = w.liveK := rfl
@[simp] theorem Ws.killM_pc (w : Ws) (r : MReg) : (w.killM r).pc = w.pc := rfl
@[simp] theorem Ws.killM_tsw (w : Ws) (r : MReg) : (w.killM r).tsw = w.tsw := rfl
@[simp] theorem Ws.killM_atp (w : Ws) (r : MReg) : (w.killM r).atp = w.atp := rfl
@[simp] theorem Ws.killM_fcsr (w : Ws) (r : MReg) : (w.killM r).fcsr = w.fcsr := rfl
@[simp] theorem Ws.killM_vl (w : Ws) (r : MReg) : (w.killM r).vl = w.vl := rfl
@[simp] theorem Ws.killM_mcr (w : Ws) (r : MReg) : (w.killM r).mcr = w.mcr := rfl
@[simp] theorem Ws.killM_cvm (w : Ws) (r : MReg) : (w.killM r).cvm = w.cvm := rfl
@[simp] theorem Ws.killM_prog (w : Ws) (r : MReg) : (w.killM r).prog = w.prog := rfl
@[simp] theorem Ws.killM_q (w : Ws) (r : MReg) : (w.killM r).q = w.q := rfl
@[simp] theorem Ws.setC_s (w : Ws) (r : CReg) (x : Cap) : (w.setC r x).s = w.s := rfl
@[simp] theorem Ws.setC_v (w : Ws) (r : CReg) (x : Cap) : (w.setC r x).v = w.v := rfl
@[simp] theorem Ws.setC_m (w : Ws) (r : CReg) (x : Cap) : (w.setC r x).m = w.m := rfl
@[simp] theorem Ws.setC_k (w : Ws) (r : CReg) (x : Cap) : (w.setC r x).k = w.k := rfl
@[simp] theorem Ws.setC_liveS (w : Ws) (r : CReg) (x : Cap) : (w.setC r x).liveS = w.liveS := rfl
@[simp] theorem Ws.setC_liveV (w : Ws) (r : CReg) (x : Cap) : (w.setC r x).liveV = w.liveV := rfl
@[simp] theorem Ws.setC_liveM (w : Ws) (r : CReg) (x : Cap) : (w.setC r x).liveM = w.liveM := rfl
@[simp] theorem Ws.setC_liveK (w : Ws) (r : CReg) (x : Cap) : (w.setC r x).liveK = w.liveK := rfl
@[simp] theorem Ws.setC_pc (w : Ws) (r : CReg) (x : Cap) : (w.setC r x).pc = w.pc := rfl
@[simp] theorem Ws.setC_tsw (w : Ws) (r : CReg) (x : Cap) : (w.setC r x).tsw = w.tsw := rfl
@[simp] theorem Ws.setC_atp (w : Ws) (r : CReg) (x : Cap) : (w.setC r x).atp = w.atp := rfl
@[simp] theorem Ws.setC_fcsr (w : Ws) (r : CReg) (x : Cap) : (w.setC r x).fcsr = w.fcsr := rfl
@[simp] theorem Ws.setC_vl (w : Ws) (r : CReg) (x : Cap) : (w.setC r x).vl = w.vl := rfl
@[simp] theorem Ws.setC_mcr (w : Ws) (r : CReg) (x : Cap) : (w.setC r x).mcr = w.mcr := rfl
@[simp] theorem Ws.setC_cvm (w : Ws) (r : CReg) (x : Cap) : (w.setC r x).cvm = w.cvm := rfl
@[simp] theorem Ws.setC_prog (w : Ws) (r : CReg) (x : Cap) : (w.setC r x).prog = w.prog := rfl
@[simp] theorem Ws.setC_q (w : Ws) (r : CReg) (x : Cap) : (w.setC r x).q = w.q := rfl
@[simp] theorem Ws.killC_s (w : Ws) (r : CReg) : (w.killC r).s = w.s := rfl
@[simp] theorem Ws.killC_v (w : Ws) (r : CReg) : (w.killC r).v = w.v := rfl
@[simp] theorem Ws.killC_m (w : Ws) (r : CReg) : (w.killC r).m = w.m := rfl
@[simp] theorem Ws.killC_c (w : Ws) (r : CReg) : (w.killC r).c = w.c := rfl
@[simp] theorem Ws.killC_k (w : Ws) (r : CReg) : (w.killC r).k = w.k := rfl
@[simp] theorem Ws.killC_liveS (w : Ws) (r : CReg) : (w.killC r).liveS = w.liveS := rfl
@[simp] theorem Ws.killC_liveV (w : Ws) (r : CReg) : (w.killC r).liveV = w.liveV := rfl
@[simp] theorem Ws.killC_liveM (w : Ws) (r : CReg) : (w.killC r).liveM = w.liveM := rfl
@[simp] theorem Ws.killC_liveK (w : Ws) (r : CReg) : (w.killC r).liveK = w.liveK := rfl
@[simp] theorem Ws.killC_pc (w : Ws) (r : CReg) : (w.killC r).pc = w.pc := rfl
@[simp] theorem Ws.killC_tsw (w : Ws) (r : CReg) : (w.killC r).tsw = w.tsw := rfl
@[simp] theorem Ws.killC_atp (w : Ws) (r : CReg) : (w.killC r).atp = w.atp := rfl
@[simp] theorem Ws.killC_fcsr (w : Ws) (r : CReg) : (w.killC r).fcsr = w.fcsr := rfl
@[simp] theorem Ws.killC_vl (w : Ws) (r : CReg) : (w.killC r).vl = w.vl := rfl
@[simp] theorem Ws.killC_mcr (w : Ws) (r : CReg) : (w.killC r).mcr = w.mcr := rfl
@[simp] theorem Ws.killC_cvm (w : Ws) (r : CReg) : (w.killC r).cvm = w.cvm := rfl
@[simp] theorem Ws.killC_prog (w : Ws) (r : CReg) : (w.killC r).prog = w.prog := rfl
@[simp] theorem Ws.killC_q (w : Ws) (r : CReg) : (w.killC r).q = w.q := rfl
@[simp] theorem Ws.setK_s (w : Ws) (r : KReg) (x : KWord) : (w.setK r x).s = w.s := rfl
@[simp] theorem Ws.setK_v (w : Ws) (r : KReg) (x : KWord) : (w.setK r x).v = w.v := rfl
@[simp] theorem Ws.setK_m (w : Ws) (r : KReg) (x : KWord) : (w.setK r x).m = w.m := rfl
@[simp] theorem Ws.setK_c (w : Ws) (r : KReg) (x : KWord) : (w.setK r x).c = w.c := rfl
@[simp] theorem Ws.setK_liveS (w : Ws) (r : KReg) (x : KWord) : (w.setK r x).liveS = w.liveS := rfl
@[simp] theorem Ws.setK_liveV (w : Ws) (r : KReg) (x : KWord) : (w.setK r x).liveV = w.liveV := rfl
@[simp] theorem Ws.setK_liveM (w : Ws) (r : KReg) (x : KWord) : (w.setK r x).liveM = w.liveM := rfl
@[simp] theorem Ws.setK_liveC (w : Ws) (r : KReg) (x : KWord) : (w.setK r x).liveC = w.liveC := rfl
@[simp] theorem Ws.setK_pc (w : Ws) (r : KReg) (x : KWord) : (w.setK r x).pc = w.pc := rfl
@[simp] theorem Ws.setK_tsw (w : Ws) (r : KReg) (x : KWord) : (w.setK r x).tsw = w.tsw := rfl
@[simp] theorem Ws.setK_atp (w : Ws) (r : KReg) (x : KWord) : (w.setK r x).atp = w.atp := rfl
@[simp] theorem Ws.setK_fcsr (w : Ws) (r : KReg) (x : KWord) : (w.setK r x).fcsr = w.fcsr := rfl
@[simp] theorem Ws.setK_vl (w : Ws) (r : KReg) (x : KWord) : (w.setK r x).vl = w.vl := rfl
@[simp] theorem Ws.setK_mcr (w : Ws) (r : KReg) (x : KWord) : (w.setK r x).mcr = w.mcr := rfl
@[simp] theorem Ws.setK_cvm (w : Ws) (r : KReg) (x : KWord) : (w.setK r x).cvm = w.cvm := rfl
@[simp] theorem Ws.setK_prog (w : Ws) (r : KReg) (x : KWord) : (w.setK r x).prog = w.prog := rfl
@[simp] theorem Ws.setK_q (w : Ws) (r : KReg) (x : KWord) : (w.setK r x).q = w.q := rfl
@[simp] theorem Ws.killK_s (w : Ws) (r : KReg) : (w.killK r).s = w.s := rfl
@[simp] theorem Ws.killK_v (w : Ws) (r : KReg) : (w.killK r).v = w.v := rfl
@[simp] theorem Ws.killK_m (w : Ws) (r : KReg) : (w.killK r).m = w.m := rfl
@[simp] theorem Ws.killK_c (w : Ws) (r : KReg) : (w.killK r).c = w.c := rfl
@[simp] theorem Ws.killK_k (w : Ws) (r : KReg) : (w.killK r).k = w.k := rfl
@[simp] theorem Ws.killK_liveS (w : Ws) (r : KReg) : (w.killK r).liveS = w.liveS := rfl
@[simp] theorem Ws.killK_liveV (w : Ws) (r : KReg) : (w.killK r).liveV = w.liveV := rfl
@[simp] theorem Ws.killK_liveM (w : Ws) (r : KReg) : (w.killK r).liveM = w.liveM := rfl
@[simp] theorem Ws.killK_liveC (w : Ws) (r : KReg) : (w.killK r).liveC = w.liveC := rfl
@[simp] theorem Ws.killK_pc (w : Ws) (r : KReg) : (w.killK r).pc = w.pc := rfl
@[simp] theorem Ws.killK_tsw (w : Ws) (r : KReg) : (w.killK r).tsw = w.tsw := rfl
@[simp] theorem Ws.killK_atp (w : Ws) (r : KReg) : (w.killK r).atp = w.atp := rfl
@[simp] theorem Ws.killK_fcsr (w : Ws) (r : KReg) : (w.killK r).fcsr = w.fcsr := rfl
@[simp] theorem Ws.killK_vl (w : Ws) (r : KReg) : (w.killK r).vl = w.vl := rfl
@[simp] theorem Ws.killK_mcr (w : Ws) (r : KReg) : (w.killK r).mcr = w.mcr := rfl
@[simp] theorem Ws.killK_cvm (w : Ws) (r : KReg) : (w.killK r).cvm = w.cvm := rfl
@[simp] theorem Ws.killK_prog (w : Ws) (r : KReg) : (w.killK r).prog = w.prog := rfl
@[simp] theorem Ws.killK_q (w : Ws) (r : KReg) : (w.killK r).q = w.q := rfl

theorem bit_set {n : Nat} (m : BitVec n) (i j : Fin n) : (m ||| BitVec.twoPow n i.val)[j] = (m[j] || decide (i = j)) := by
  simp [BitVec.getElem_twoPow, Fin.ext_iff, eq_comm]
theorem bit_clear {n : Nat} (m : BitVec n) (i j : Fin n) : (m &&& ~~~(BitVec.twoPow n i.val))[j] = (m[j] && !decide (i = j)) := by
  simp [BitVec.getElem_twoPow, Fin.ext_iff, eq_comm]


/-- s0 reads zero (R158). -/
@[simp] theorem Ws.getS_zero (w : Ws) : w.getS 0 = 0 := by simp [Ws.getS]
/-- A dead scalar register reads zero (R164). -/
theorem Ws.getS_dead (w : Ws) (r : SReg) (h : w.liveS[r] = false) : w.getS r = 0 := by simp [Ws.getS, h]
theorem Ws.getS_setS (w : Ws) (r p : SReg) (x : Word) : (w.setS r x).getS p = if p = r ∧ r ≠ 0 then x else w.getS p := by
  unfold Ws.setS
  by_cases hr : r = 0
  · simp [hr]
  · rw [if_neg hr]
    unfold Ws.getS
    dsimp only
    rw [bit_set]
    by_cases h : r = p
    · subst h; simp [hr]
    · have h' : ¬ p = r := fun e => h e.symm
      have hv : r.val ≠ p.val := fun e => h (Fin.ext e)
      simp only [h, h', hv, Fin.getElem_fin, ne_eq, not_false_eq_true, Vector.getElem_set_ne, decide_false, Bool.or_false, false_and, if_false]
theorem Ws.getS_killS (w : Ws) (r p : SReg) : (w.killS r).getS p = if p = r then 0 else w.getS p := by
  unfold Ws.killS Ws.getS
  dsimp only
  rw [bit_clear]
  by_cases h : r = p
  · subst h; simp
  · have h' : ¬ p = r := fun e => h e.symm
    simp only [h, h', decide_false, Bool.not_false, Bool.and_true, if_false]

theorem Ws.getV_setV (w : Ws) (r p : VReg) (x : VWord) : (w.setV r x).getV p = if p = r then x else w.getV p := by
  unfold Ws.setV Ws.getV
  dsimp only
  rw [bit_set]
  by_cases h : r = p
  · subst h; simp only [decide_true, Bool.or_true, if_true, Fin.getElem_fin, Vector.getElem_set_self]
  · have h' : ¬ p = r := fun e => h e.symm
    have hv : r.val ≠ p.val := fun e => h (Fin.ext e)
    simp only [h, h', hv, Fin.getElem_fin, ne_eq, not_false_eq_true, Vector.getElem_set_ne, decide_false, Bool.or_false, if_false]
theorem Ws.getV_killV (w : Ws) (r p : VReg) : (w.killV r).getV p = if p = r then 0 else w.getV p := by
  unfold Ws.killV Ws.getV
  dsimp only
  rw [bit_clear]
  by_cases h : r = p
  · subst h; simp only [decide_true, Bool.not_true, Bool.and_false, if_true, Bool.false_eq_true, if_false]
  · have h' : ¬ p = r := fun e => h e.symm
    simp only [h, h', decide_false, Bool.not_false, Bool.and_true, if_false]

theorem Ws.getM_setM (w : Ws) (r p : MReg) (x : MWord) : (w.setM r x).getM p = if p = r then x else w.getM p := by
  unfold Ws.setM Ws.getM
  dsimp only
  rw [bit_set]
  by_cases h : r = p
  · subst h; simp only [decide_true, Bool.or_true, if_true, Fin.getElem_fin, Vector.getElem_set_self]
  · have h' : ¬ p = r := fun e => h e.symm
    have hv : r.val ≠ p.val := fun e => h (Fin.ext e)
    simp only [h, h', hv, Fin.getElem_fin, ne_eq, not_false_eq_true, Vector.getElem_set_ne, decide_false, Bool.or_false, if_false]
theorem Ws.getM_killM (w : Ws) (r p : MReg) : (w.killM r).getM p = if p = r then 0 else w.getM p := by
  unfold Ws.killM Ws.getM
  dsimp only
  rw [bit_clear]
  by_cases h : r = p
  · subst h; simp only [decide_true, Bool.not_true, Bool.and_false, if_true, Bool.false_eq_true, if_false]
  · have h' : ¬ p = r := fun e => h e.symm
    simp only [h, h', decide_false, Bool.not_false, Bool.and_true, if_false]

theorem Ws.getC_setC (w : Ws) (r p : CReg) (x : Cap) : (w.setC r x).getC p = if p = r then x else w.getC p := by
  unfold Ws.setC Ws.getC
  dsimp only
  rw [bit_set]
  by_cases h : r = p
  · subst h; simp only [decide_true, Bool.or_true, if_true, Fin.getElem_fin, Vector.getElem_set_self]
  · have h' : ¬ p = r := fun e => h e.symm
    have hv : r.val ≠ p.val := fun e => h (Fin.ext e)
    simp only [h, h', hv, Fin.getElem_fin, ne_eq, not_false_eq_true, Vector.getElem_set_ne, decide_false, Bool.or_false, if_false]
theorem Ws.getC_killC (w : Ws) (r p : CReg) : (w.killC r).getC p = if p = r then Cap.zero else w.getC p := by
  unfold Ws.killC Ws.getC
  dsimp only
  rw [bit_clear]
  by_cases h : r = p
  · subst h; simp only [decide_true, Bool.not_true, Bool.and_false, if_true, Bool.false_eq_true, if_false]
  · have h' : ¬ p = r := fun e => h e.symm
    simp only [h, h', decide_false, Bool.not_false, Bool.and_true, if_false]

theorem Ws.getK_setK (w : Ws) (r p : KReg) (x : KWord) : (w.setK r x).getK p = if p = r then x else w.getK p := by
  unfold Ws.setK Ws.getK
  dsimp only
  rw [bit_set]
  by_cases h : r = p
  · subst h; simp only [decide_true, Bool.or_true, if_true, Fin.getElem_fin, Vector.getElem_set_self]
  · have h' : ¬ p = r := fun e => h e.symm
    have hv : r.val ≠ p.val := fun e => h (Fin.ext e)
    simp only [h, h', hv, Fin.getElem_fin, ne_eq, not_false_eq_true, Vector.getElem_set_ne, decide_false, Bool.or_false, if_false]
theorem Ws.getK_killK (w : Ws) (r p : KReg) : (w.killK r).getK p = if p = r then 0 else w.getK p := by
  unfold Ws.killK Ws.getK
  dsimp only
  rw [bit_clear]
  by_cases h : r = p
  · subst h; simp only [decide_true, Bool.not_true, Bool.and_false, if_true, Bool.false_eq_true, if_false]
  · have h' : ¬ p = r := fun e => h e.symm
    simp only [h, h', decide_false, Bool.not_false, Bool.and_true, if_false]

/-! Writing a register of one class leaves the registers of the others. -/

@[simp] theorem Ws.getV_setS (w : Ws) (r : SReg) (x : Word) (p : VReg) : (w.setS r x).getV p = w.getV p := by unfold Ws.setS; split <;> rfl
@[simp] theorem Ws.getV_killS (w : Ws) (r : SReg) (p : VReg) : (w.killS r).getV p = w.getV p := rfl
@[simp] theorem Ws.getM_setS (w : Ws) (r : SReg) (x : Word) (p : MReg) : (w.setS r x).getM p = w.getM p := by unfold Ws.setS; split <;> rfl
@[simp] theorem Ws.getM_killS (w : Ws) (r : SReg) (p : MReg) : (w.killS r).getM p = w.getM p := rfl
@[simp] theorem Ws.getC_setS (w : Ws) (r : SReg) (x : Word) (p : CReg) : (w.setS r x).getC p = w.getC p := by unfold Ws.setS; split <;> rfl
@[simp] theorem Ws.getC_killS (w : Ws) (r : SReg) (p : CReg) : (w.killS r).getC p = w.getC p := rfl
@[simp] theorem Ws.getK_setS (w : Ws) (r : SReg) (x : Word) (p : KReg) : (w.setS r x).getK p = w.getK p := by unfold Ws.setS; split <;> rfl
@[simp] theorem Ws.getK_killS (w : Ws) (r : SReg) (p : KReg) : (w.killS r).getK p = w.getK p := rfl
@[simp] theorem Ws.getS_setV (w : Ws) (r : VReg) (x : VWord) (p : SReg) : (w.setV r x).getS p = w.getS p := rfl
@[simp] theorem Ws.getS_killV (w : Ws) (r : VReg) (p : SReg) : (w.killV r).getS p = w.getS p := rfl
@[simp] theorem Ws.getM_setV (w : Ws) (r : VReg) (x : VWord) (p : MReg) : (w.setV r x).getM p = w.getM p := rfl
@[simp] theorem Ws.getM_killV (w : Ws) (r : VReg) (p : MReg) : (w.killV r).getM p = w.getM p := rfl
@[simp] theorem Ws.getC_setV (w : Ws) (r : VReg) (x : VWord) (p : CReg) : (w.setV r x).getC p = w.getC p := rfl
@[simp] theorem Ws.getC_killV (w : Ws) (r : VReg) (p : CReg) : (w.killV r).getC p = w.getC p := rfl
@[simp] theorem Ws.getK_setV (w : Ws) (r : VReg) (x : VWord) (p : KReg) : (w.setV r x).getK p = w.getK p := rfl
@[simp] theorem Ws.getK_killV (w : Ws) (r : VReg) (p : KReg) : (w.killV r).getK p = w.getK p := rfl
@[simp] theorem Ws.getS_setM (w : Ws) (r : MReg) (x : MWord) (p : SReg) : (w.setM r x).getS p = w.getS p := rfl
@[simp] theorem Ws.getS_killM (w : Ws) (r : MReg) (p : SReg) : (w.killM r).getS p = w.getS p := rfl
@[simp] theorem Ws.getV_setM (w : Ws) (r : MReg) (x : MWord) (p : VReg) : (w.setM r x).getV p = w.getV p := rfl
@[simp] theorem Ws.getV_killM (w : Ws) (r : MReg) (p : VReg) : (w.killM r).getV p = w.getV p := rfl
@[simp] theorem Ws.getC_setM (w : Ws) (r : MReg) (x : MWord) (p : CReg) : (w.setM r x).getC p = w.getC p := rfl
@[simp] theorem Ws.getC_killM (w : Ws) (r : MReg) (p : CReg) : (w.killM r).getC p = w.getC p := rfl
@[simp] theorem Ws.getK_setM (w : Ws) (r : MReg) (x : MWord) (p : KReg) : (w.setM r x).getK p = w.getK p := rfl
@[simp] theorem Ws.getK_killM (w : Ws) (r : MReg) (p : KReg) : (w.killM r).getK p = w.getK p := rfl
@[simp] theorem Ws.getS_setC (w : Ws) (r : CReg) (x : Cap) (p : SReg) : (w.setC r x).getS p = w.getS p := rfl
@[simp] theorem Ws.getS_killC (w : Ws) (r : CReg) (p : SReg) : (w.killC r).getS p = w.getS p := rfl
@[simp] theorem Ws.getV_setC (w : Ws) (r : CReg) (x : Cap) (p : VReg) : (w.setC r x).getV p = w.getV p := rfl
@[simp] theorem Ws.getV_killC (w : Ws) (r : CReg) (p : VReg) : (w.killC r).getV p = w.getV p := rfl
@[simp] theorem Ws.getM_setC (w : Ws) (r : CReg) (x : Cap) (p : MReg) : (w.setC r x).getM p = w.getM p := rfl
@[simp] theorem Ws.getM_killC (w : Ws) (r : CReg) (p : MReg) : (w.killC r).getM p = w.getM p := rfl
@[simp] theorem Ws.getK_setC (w : Ws) (r : CReg) (x : Cap) (p : KReg) : (w.setC r x).getK p = w.getK p := rfl
@[simp] theorem Ws.getK_killC (w : Ws) (r : CReg) (p : KReg) : (w.killC r).getK p = w.getK p := rfl
@[simp] theorem Ws.getS_setK (w : Ws) (r : KReg) (x : KWord) (p : SReg) : (w.setK r x).getS p = w.getS p := rfl
@[simp] theorem Ws.getS_killK (w : Ws) (r : KReg) (p : SReg) : (w.killK r).getS p = w.getS p := rfl
@[simp] theorem Ws.getV_setK (w : Ws) (r : KReg) (x : KWord) (p : VReg) : (w.setK r x).getV p = w.getV p := rfl
@[simp] theorem Ws.getV_killK (w : Ws) (r : KReg) (p : VReg) : (w.killK r).getV p = w.getV p := rfl
@[simp] theorem Ws.getM_setK (w : Ws) (r : KReg) (x : KWord) (p : MReg) : (w.setK r x).getM p = w.getM p := rfl
@[simp] theorem Ws.getM_killK (w : Ws) (r : KReg) (p : MReg) : (w.killK r).getM p = w.getM p := rfl
@[simp] theorem Ws.getC_setK (w : Ws) (r : KReg) (x : KWord) (p : CReg) : (w.setK r x).getC p = w.getC p := rfl
@[simp] theorem Ws.getC_killK (w : Ws) (r : KReg) (p : CReg) : (w.killK r).getC p = w.getC p := rfl

end Sys2Proof.Machine
end

