-- ==== Sys2Proof/Laws/Effects.lean ====
section
/-! SUPPORT. The shared operations of the meanings: when their checks let an instruction through, and the whole effect of
completing one. -/
namespace Sys2Proof.Machine

open Sys2Proof.Safety

/-! ## Computations that may end an instruction -/

@[simp] theorem ok_bind {α β : Type} (x : α) (f : α → M β) : (Except.ok x : M α) >>= f = f x := rfl
@[simp] theorem error_bind {α β : Type} (e : Stop) (f : α → M β) : (Except.error e : M α) >>= f = .error e := rfl
@[simp] theorem finish_ok (s : State) : finish (.ok s) = .next s := rfl
@[simp] theorem finish_st (s : State) : finish (.error (.st s)) = .next s := rfl
@[simp] theorem finish_fault (f : Fault) : finish (.error (.fault f)) = .fault f := rfl

/-! ## Operands that are ready -/

theorem tokensReady_ok {s : State} {rs : List SReg} (h : TokensFree s rs) : tokensReady s rs = .ok () := by
  have h1 : rs.find? s.core.tokenPending = none := by
    rw [List.find?_eq_none]
    intro x hx
    simp [h.1 x hx]
  simp [tokensReady, h1, h.2]

theorem bindingOk_of {s : State} {src dst : Option QReg} (h1 : SourceReady s src) (h2 : DestReady s dst) :
    bindingOk s src dst = true := by
  unfold bindingOk
  cases src <;> cases dst <;> simp_all [SourceReady, DestReady]

theorem queuesReady_ok {s : State} {src dst : Option QReg} (h1 : SourceReady s src) (h2 : DestReady s dst) :
    queuesReady s src dst = .ok () := by
  unfold queuesReady
  cases src with
  | none =>
    cases dst with
    | none => rfl
    | some m =>
      have hd : ¬ 8 ≤ s.ws.q[m].queue.length := by have := (h2 m rfl).2.2; omega
      simp only [hd, if_false]; rfl
  | some n =>
    obtain ⟨_, _, e, l, he, hc⟩ := h1 n rfl
    cases dst with
    | none => simp only [he, hc, ne_eq, not_true_eq_false, if_false]; rfl
    | some m =>
      have hd : ¬ 8 ≤ s.ws.q[m].queue.length := by have := (h2 m rfl).2.2; omega
      simp only [he, hc, hd, if_false, ne_eq, not_true_eq_false]; rfl

/-- An instruction whose operands are ready goes on (R157, R209, R331). -/
theorem ready_ok {s : State} {src dst : Option QReg} {rs : List SReg} (h : Ready s src dst rs) : ready s src dst rs = .ok () := by
  unfold ready
  rw [bindingOk_of h.1 h.2.1, tokensReady_ok h.2.2, queuesReady_ok h.1 h.2.1]
  rfl

theorem Ready.mono {s : State} {src dst : Option QReg} {rs rs' : List SReg} (h : Ready s src dst rs) (hs : ∀ r ∈ rs', r ∈ rs)
    (ha : s.atomicInto rs' = none) : Ready s src dst rs' :=
  ⟨h.1, h.2.1, fun r hr => h.2.2.1 r (hs r hr), ha⟩

/-! ## Flags -/

theorem Ws.ten_setFlags (w : Ws) (f : Flags) : (w.setFlags f).ten = w.ten := by
  unfold Ws.setFlags Ws.ten
  apply BitVec.eq_of_getLsbD_eq
  intro i hi
  have hf : f.getLsbD (9 + i) = false := BitVec.getLsbD_of_ge f _ (by omega)
  simp [hi, hf]

/-- Flags that are not enabled to trap are set, and the instruction goes on (R151). -/
theorem raiseFlags_ok {s : State} {n : Nat} {l : Raised} (h : Quiet s (Raised.all l)) :
    raiseFlags s n l = .ok (s.onWs (fun w => w.setFlags (Raised.all l))) := by
  unfold Quiet at h
  simp [raiseFlags, State.ws_onWs, Ws.ten_setFlags, h]

/-! ## Last-read marks and streams -/

theorem Ws.killSs_keeps (ks : List (Bool × SReg)) (w : Ws) :
    (w.killSs ks).v = w.v ∧ (w.killSs ks).liveV = w.liveV ∧ (w.killSs ks).m = w.m ∧ (w.killSs ks).liveM = w.liveM ∧
    (w.killSs ks).c = w.c ∧ (w.killSs ks).liveC = w.liveC ∧ (w.killSs ks).k = w.k ∧ (w.killSs ks).liveK = w.liveK ∧
    (w.killSs ks).pc = w.pc ∧ (w.killSs ks).tsw = w.tsw ∧ (w.killSs ks).atp = w.atp ∧ (w.killSs ks).fcsr = w.fcsr ∧
    (w.killSs ks).vl = w.vl ∧ (w.killSs ks).mcr = w.mcr ∧ (w.killSs ks).cvm = w.cvm ∧ (w.killSs ks).prog = w.prog ∧
    (w.killSs ks).q = w.q := by
  induction ks generalizing w with
  | nil => simp [Ws.killSs]
  | cons k ks ih =>
    have e : w.killSs (k :: ks) = (if k.1 then w.killS k.2 else w).killSs ks := rfl
    rw [e]
    have := ih (if k.1 then w.killS k.2 else w)
    split at this <;> simp_all [Ws.killS]

theorem Ws.killVs_keeps (ks : List (Bool × VReg)) (w : Ws) :
    (w.killVs ks).s = w.s ∧ (w.killVs ks).liveS = w.liveS ∧ (w.killVs ks).m = w.m ∧ (w.killVs ks).liveM = w.liveM ∧
    (w.killVs ks).c = w.c ∧ (w.killVs ks).liveC = w.liveC ∧ (w.killVs ks).k = w.k ∧ (w.killVs ks).liveK = w.liveK ∧
    (w.killVs ks).pc = w.pc ∧ (w.killVs ks).tsw = w.tsw ∧ (w.killVs ks).atp = w.atp ∧ (w.killVs ks).fcsr = w.fcsr ∧
    (w.killVs ks).vl = w.vl ∧ (w.killVs ks).mcr = w.mcr ∧ (w.killVs ks).cvm = w.cvm ∧ (w.killVs ks).prog = w.prog ∧
    (w.killVs ks).q = w.q := by
  induction ks generalizing w with
  | nil => simp [Ws.killVs]
  | cons k ks ih =>
    have e : w.killVs (k :: ks) = (if k.1 then w.killV k.2 else w).killVs ks := rfl
    rw [e]
    have := ih (if k.1 then w.killV k.2 else w)
    split at this <;> simp_all [Ws.killV]

theorem Ws.getS_killSs (ks : List (Bool × SReg)) (w : Ws) (r : SReg) :
    (w.killSs ks).getS r = if marked ks r then 0 else w.getS r := by
  induction ks generalizing w with
  | nil => simp [Ws.killSs, marked]
  | cons k ks ih =>
    have e : w.killSs (k :: ks) = (if k.1 then w.killS k.2 else w).killSs ks := rfl
    rw [e, ih]
    have hm : marked (k :: ks) r = (k.1 && decide (k.2 = r) || marked ks r) := rfl
    rw [hm]
    by_cases h : marked ks r = true
    · simp [h]
    · by_cases hk : k.1 = true
      · by_cases hr : k.2 = r
        · subst hr; simp [hk, Ws.getS_killS]
        · have hr' : ¬ r = k.2 := fun e => hr e.symm
          simp [hk, hr, hr', Ws.getS_killS]
      · simp [hk]

theorem Ws.getV_killVs (ks : List (Bool × VReg)) (w : Ws) (r : VReg) :
    (w.killVs ks).getV r = if marked ks r then 0 else w.getV r := by
  induction ks generalizing w with
  | nil => simp only [Ws.killVs, marked, List.foldl_nil, List.any_nil, Bool.false_eq_true, if_false]
  | cons k ks ih =>
    have e : w.killVs (k :: ks) = (if k.1 then w.killV k.2 else w).killVs ks := rfl
    rw [e, ih]
    have hm : marked (k :: ks) r = (k.1 && decide (k.2 = r) || marked ks r) := rfl
    rw [hm]
    by_cases h : marked ks r = true
    · simp only [h, if_true, Bool.or_true]
    · by_cases hk : k.1 = true
      · by_cases hr : k.2 = r
        · subst hr; simp only [hk, if_true, Ws.getV_killV, decide_true, Bool.and_true, Bool.true_or, ite_self]
        · have hr' : ¬ r = k.2 := fun e => hr e.symm
          simp only [hk, hr, hr', if_true, Ws.getV_killV, decide_false, Bool.and_false, Bool.false_or, if_false]
      · simp only [hk, Bool.false_eq_true, if_false, Bool.false_and, Bool.false_or]

/-- What the stream engines are told of a stream changes only the pending events. -/
theorem State.kick_keeps (s : State) (n : QReg) : ∃ p, s.kick n = { s with pending := p } := by
  unfold State.kick State.postOnce State.post
  split <;> split <;> exact ⟨_, rfl⟩

/-! ## Completing an instruction -/

/-- `t` differs from `s` at most in its workspace, which is `w`, in its generator, which is at `g`, in its pending events
and in its count of free values. -/
def SameBut (s t : State) (w : Ws) (g : BitVec 32) : Prop :=
  ∃ p n, t = { s with core := { s.core with res := { s.core.res with ws := w }, srng := g }, pending := p, free := n }

theorem SameBut.refl (s : State) : SameBut s s s.ws s.core.srng := ⟨s.pending, s.free, rfl⟩
theorem SameBut.draw {s t : State} {w : Ws} {g : BitVec 32} (h : SameBut s t w g) : SameBut s t.drawFree.2 w g := by
  obtain ⟨p, n, rfl⟩ := h
  exact ⟨p, n + 1, rfl⟩
theorem SameBut.onWs {s t : State} {w : Ws} {g : BitVec 32} (h : SameBut s t w g) (f : Ws → Ws) :
    SameBut s (t.onWs f) (f w) g := by
  obtain ⟨p, n, rfl⟩ := h
  exact ⟨p, n, rfl⟩
theorem SameBut.afterS {s t : State} {w : Ws} {g : BitVec 32} (h : SameBut s t w g) (ds : List (BitVec 32)) :
    SameBut s (t.afterS ds) w (ds.getLastD g) := by
  obtain ⟨p, n, rfl⟩ := h
  exact ⟨p, n, rfl⟩
theorem SameBut.kick {s t : State} {w : Ws} {g : BitVec 32} (h : SameBut s t w g) (n : QReg) : SameBut s (t.kick n) w g := by
  obtain ⟨p, m, rfl⟩ := h
  obtain ⟨p', e⟩ := State.kick_keeps
    ({ s with core := { s.core with res := { s.core.res with ws := w }, srng := g }, pending := p, free := m } : State) n
  exact ⟨p', m, by rw [e]⟩

/-- The streams after a source element is taken. -/
def Ws.took (w : Ws) (src : Option QReg) : Ws :=
  match src with
  | some n => w.onQ n Stream.take
  | none => w

theorem SameBut.takeQ {s t : State} {w : Ws} {g : BitVec 32} (h : SameBut s t w g) (src : Option QReg) :
    SameBut s (t.takeQ src) (w.took src) g := by
  cases src with
  | none => exact h
  | some n => exact (h.onWs (fun w => w.onQ n Stream.take)).kick n

theorem SameBut.appendQ {s t : State} {w : Ws} {g : BitVec 32} (h : SameBut s t w g) (n : QReg) (x : VWord) :
    SameBut s (t.appendQ n x) (w.onQ n (fun q => q.append x)) g := (h.onWs _).kick n

/-- Retiring clears the notes about the instruction in progress and nothing else of a slot. -/
theorem Core.sx_retired (c : Core) (i j : SlotId) :
    ({ (c.onSx i (fun x => { x with touched := false, asking := false, hostMark := none })).sx j with
      touched := (c.sx j).touched, asking := (c.sx j).asking, hostMark := (c.sx j).hostMark } : SlotX) = c.sx j := by
  unfold Core.onSx Core.sx
  by_cases h : i = j
  · subst h; simp
  · have hv : i.val ≠ j.val := fun e => h (Fin.ext e)
    simp [hv]

/-- What a state that retires keeps, and what it has changed. -/
theorem SameBut.retire {s t : State} {w : Ws} {g : BitVec 32} (h : SameBut s t w g) (hp : w.pc = s.ws.pc) :
    KeepsMemory s t.retire ∧ KeepsSystem s t.retire ∧ RetiredAt s t.retire s.nextPc ∧
    t.retire.ws = { w with pc := s.nextPc, prog := 0 } ∧ t.retire.core.srng = g ∧
    t.retire.core.grng = s.core.grng := by
  obtain ⟨p, m, rfl⟩ := h
  have hn : ({ s with core := { s.core with res := { s.core.res with ws := w }, srng := g }, pending := p, free := m } :
      State).nextPc = s.nextPc := by
    have e : ({ s with core := { s.core with res := { s.core.res with ws := w }, srng := g }, pending := p, free := m } :
        State).ws.pc = s.ws.pc := hp
    unfold State.nextPc
    rw [e]
    rfl
  unfold State.retire
  rw [hn]
  unfold State.retireTo
  have hsx := Core.sx_retired s.core s.core.cur
  have hsl : ∀ i : SlotId, ({ (s.core.onSlot s.core.cur (fun x => { x with icnt := x.icnt + 1 })).slot i with
      icnt := (s.core.slot i).icnt } : Slot) = s.core.slot i := by
    intro i
    unfold Core.onSlot Core.slot
    by_cases hi : s.core.cur = i
    · subst hi; simp
    · have hv : s.core.cur.val ≠ i.val := fun e => hi (Fin.ext e)
      simp [hv]
  have hcnt : ∀ c : Core, (c.onSlot c.cur (fun x => { x with icnt := x.icnt + 1 })).slot c.cur =
      { c.slot c.cur with icnt := (c.slot c.cur).icnt + 1 } := by
    intro c; simp [Core.onSlot, Core.slot]
  dsimp only
  split
  · refine ⟨⟨fun _ => rfl, fun _ => rfl, rfl, rfl, rfl, rfl, rfl⟩, ⟨hsl, hsx, rfl, rfl, rfl, rfl, rfl, rfl, rfl, rfl, rfl, rfl, rfl,
      rfl, rfl, rfl, rfl, rfl, rfl, rfl, rfl⟩, ⟨rfl, rfl, ?_⟩, rfl, rfl, rfl⟩
    exact congrArg Slot.icnt (hcnt s.core)
  · refine ⟨⟨fun _ => rfl, fun _ => rfl, rfl, rfl, rfl, rfl, rfl⟩, ⟨hsl, hsx, rfl, rfl, rfl, rfl, rfl, rfl, rfl, rfl, rfl, rfl, rfl,
      rfl, rfl, rfl, rfl, rfl, rfl, rfl, rfl⟩, ⟨rfl, rfl, ?_⟩, rfl, rfl, rfl⟩
    exact congrArg Slot.icnt (hcnt s.core)

/-- Retiring at a pc changes nothing else (R218, R404). -/
theorem State.retireTo_moves (s : State) (pc : Word) : Moves s (s.retireTo pc) pc ∧
    (∀ r, (s.retireTo pc).ws.getS r = s.ws.getS r) ∧ (∀ r, (s.retireTo pc).ws.getV r = s.ws.getV r) := by
  have hsx := Core.sx_retired s.core s.core.cur
  have hsl : ∀ i : SlotId, ({ (s.core.onSlot s.core.cur (fun x => { x with icnt := x.icnt + 1 })).slot i with
      icnt := (s.core.slot i).icnt } : Slot) = s.core.slot i := by
    intro i
    unfold Core.onSlot Core.slot
    by_cases hi : s.core.cur = i
    · subst hi; simp
    · have hv : s.core.cur.val ≠ i.val := fun e => hi (Fin.ext e)
      simp [hv]
  have hcnt : (s.core.onSlot s.core.cur (fun x => { x with icnt := x.icnt + 1 })).slot s.core.cur =
      { s.core.slot s.core.cur with icnt := (s.core.slot s.core.cur).icnt + 1 } := by
    simp [Core.onSlot, Core.slot]
  unfold State.retireTo
  dsimp only
  split
  · exact ⟨⟨⟨rfl, rfl, congrArg Slot.icnt hcnt⟩, ⟨fun _ => rfl, fun _ => rfl, rfl, rfl, rfl, rfl, rfl⟩, ⟨rfl, rfl, rfl, rfl, rfl⟩,
      ⟨hsl, hsx, rfl, rfl, rfl, rfl, rfl, rfl, rfl, rfl, rfl, rfl, rfl, rfl, rfl, rfl, rfl, rfl, rfl, rfl, rfl⟩,
      ⟨fun _ => rfl, fun _ => rfl, fun _ => rfl⟩, ⟨rfl, rfl, rfl, rfl⟩⟩, fun _ => rfl, fun _ => rfl⟩
  · exact ⟨⟨⟨rfl, rfl, congrArg Slot.icnt hcnt⟩, ⟨fun _ => rfl, fun _ => rfl, rfl, rfl, rfl, rfl, rfl⟩, ⟨rfl, rfl, rfl, rfl, rfl⟩,
      ⟨hsl, hsx, rfl, rfl, rfl, rfl, rfl, rfl, rfl, rfl, rfl, rfl, rfl, rfl, rfl, rfl, rfl, rfl, rfl, rfl, rfl⟩,
      ⟨fun _ => rfl, fun _ => rfl, fun _ => rfl⟩, ⟨rfl, rfl, rfl, rfl⟩⟩, fun _ => rfl, fun _ => rfl⟩

theorem Ws.took_keeps (w : Ws) (src : Option QReg) :
    (w.took src).s = w.s ∧ (w.took src).liveS = w.liveS ∧ (w.took src).v = w.v ∧ (w.took src).liveV = w.liveV ∧
    (w.took src).m = w.m ∧ (w.took src).liveM = w.liveM ∧ (w.took src).c = w.c ∧ (w.took src).liveC = w.liveC ∧
    (w.took src).k = w.k ∧ (w.took src).liveK = w.liveK ∧ (w.took src).pc = w.pc ∧ (w.took src).tsw = w.tsw ∧
    (w.took src).atp = w.atp ∧ (w.took src).fcsr = w.fcsr ∧ (w.took src).vl = w.vl ∧ (w.took src).mcr = w.mcr ∧
    (w.took src).cvm = w.cvm := by
  cases src <;> simp [Ws.took, Ws.onQ]

theorem Ws.onQ_q (w : Ws) (n p : QReg) (f : Stream → Stream) : (w.onQ n f).q[p] = if p = n then f w.q[n] else w.q[p] := by
  unfold Ws.onQ
  by_cases h : n = p
  · subst h; simp
  · have h' : ¬ p = n := fun e => h e.symm
    have hv : n.val ≠ p.val := fun e => h (Fin.ext e)
    simp [h', hv]

/-- The whole effect of `doneSQ` after flags and draws. -/
theorem doneSQ_effect {s t : State} {fl : Flags} {g : BitVec 32}
    (h : SameBut s t { s.ws with fcsr := s.ws.fcsr ||| fl.setWidth 14 } g) (d a : SQ) (ks : List (Bool × SReg)) (y : Word) :
    ScalarEffect s (t.doneSQ d a ks y) d a ks y fl g := by
  have h1 := (h.takeQ a.q?).onWs (fun w => w.killSs ks)
  generalize hw : ({ s.ws with fcsr := s.ws.fcsr ||| fl.setWidth 14 } : Ws) = w at h1
  have k1 := Ws.killSs_keeps ks (w.took a.q?)
  have k2 := Ws.took_keeps w a.q?
  have hq : ∀ n : QReg, (w.took a.q?).q[n] = if a = .q n then s.ws.q[n].take else s.ws.q[n] := by
    intro n
    subst hw
    cases a with
    | s r => simp [Ws.took, SQ.q?]
    | q m =>
      simp only [Ws.took, SQ.q?, Ws.onQ_q, SQ.q.injEq]
      by_cases e : n = m
      · subst e; simp
      · have e' : ¬ m = n := fun x => e x.symm
        simp [e, e']
  have hs : ∀ r : SReg, (w.took a.q?).getS r = s.ws.getS r := by
    intro r; subst hw; unfold Ws.getS; rw [k2.1, k2.2.1]
  cases d with
  | s r =>
    have h2 := h1.onWs (fun w => w.setS r y)
    obtain ⟨m1, m2, m3, m4, m5, m6⟩ := h2.retire (by rw [Ws.setS_pc, k1.2.2.2.2.2.2.2.2.1, k2.2.2.2.2.2.2.2.2.2.2.1]; subst hw; rfl)
    unfold State.doneSQ State.putS
    refine ⟨?_, ?_, ?_, ⟨?_, ?_, ?_⟩, ⟨?_, ?_, ?_, ?_, ?_⟩, ?_, m5, m6, m1, m2, m3⟩
    · intro p
      rw [m4]
      show (((w.took a.q?).killSs ks).setS r y).getS p = _
      rw [Ws.getS_setS, Ws.getS_killSs, hs]
      simp only [SQ.s.injEq]
      by_cases e : p = r
      · subst e; simp
      · have e' : ¬ r = p := fun x => e x.symm
        simp [e, e']
    · intro n
      rw [m4]
      show (((w.took a.q?).killSs ks).setS r y).q[n] = _
      simp only [Ws.setS_q, k1.2.2.2.2.2.2.2.2.2.2.2.2.2.2.2.2, hq, reduceCtorEq, if_false]
    · intro p
      rw [m4]
      show (((w.took a.q?).killSs ks).setS r y).getV p = _
      rw [Ws.getV_setS]; unfold Ws.getV; rw [k1.1, k1.2.1, k2.2.2.1, k2.2.2.2.1]; subst hw; rfl
    · intro p
      rw [m4]
      show (((w.took a.q?).killSs ks).setS r y).getM p = _
      rw [Ws.getM_setS]; unfold Ws.getM; rw [k1.2.2.1, k1.2.2.2.1, k2.2.2.2.2.1, k2.2.2.2.2.2.1]; subst hw; rfl
    · intro p
      rw [m4]
      show (((w.took a.q?).killSs ks).setS r y).getC p = _
      rw [Ws.getC_setS]; unfold Ws.getC
      rw [k1.2.2.2.2.1, k1.2.2.2.2.2.1, k2.2.2.2.2.2.2.1, k2.2.2.2.2.2.2.2.1]; subst hw; rfl
    · intro p
      rw [m4]
      show (((w.took a.q?).killSs ks).setS r y).getK p = _
      rw [Ws.getK_setS]; unfold Ws.getK
      rw [k1.2.2.2.2.2.2.1, k1.2.2.2.2.2.2.2.1, k2.2.2.2.2.2.2.2.2.1, k2.2.2.2.2.2.2.2.2.2.1]; subst hw; rfl
    all_goals rw [m4]; subst hw; simp_all
  | q n' =>
    have h2 := h1.appendQ n' (y.setWidth 1024)
    obtain ⟨m1, m2, m3, m4, m5, m6⟩ := h2.retire (by
      show ((w.took a.q?).killSs ks).pc = _
      rw [k1.2.2.2.2.2.2.2.2.1, k2.2.2.2.2.2.2.2.2.2.2.1]; subst hw; rfl)
    unfold State.doneSQ State.putS
    refine ⟨?_, ?_, ?_, ⟨?_, ?_, ?_⟩, ⟨?_, ?_, ?_, ?_, ?_⟩, ?_, m5, m6, m1, m2, m3⟩
    · intro p
      rw [m4]
      show ((w.took a.q?).killSs ks).getS p = _
      rw [Ws.getS_killSs, hs]; simp
    · intro n
      rw [m4]
      show (((w.took a.q?).killSs ks).onQ n' (fun q => q.append (y.setWidth 1024))).q[n] = _
      rw [Ws.onQ_q]
      simp only [k1.2.2.2.2.2.2.2.2.2.2.2.2.2.2.2.2, hq, SQ.q.injEq]
      by_cases e : n = n'
      · subst e; simp
      · have e' : ¬ n' = n := fun x => e x.symm
        simp [e, e']
    · intro p
      rw [m4]
      show ((w.took a.q?).killSs ks).getV p = _
      unfold Ws.getV; rw [k1.1, k1.2.1, k2.2.2.1, k2.2.2.2.1]; subst hw; rfl
    · intro p
      rw [m4]
      show ((w.took a.q?).killSs ks).getM p = _
      unfold Ws.getM; rw [k1.2.2.1, k1.2.2.2.1, k2.2.2.2.2.1, k2.2.2.2.2.2.1]; subst hw; rfl
    · intro p
      rw [m4]
      show ((w.took a.q?).killSs ks).getC p = _
      unfold Ws.getC
      rw [k1.2.2.2.2.1, k1.2.2.2.2.2.1, k2.2.2.2.2.2.2.1, k2.2.2.2.2.2.2.2.1]; subst hw; rfl
    · intro p
      rw [m4]
      show ((w.took a.q?).killSs ks).getK p = _
      unfold Ws.getK
      rw [k1.2.2.2.2.2.2.1, k1.2.2.2.2.2.2.2.1, k2.2.2.2.2.2.2.2.2.1, k2.2.2.2.2.2.2.2.2.2.1]; subst hw; rfl
    all_goals rw [m4]; subst hw; simp_all [Ws.onQ]

theorem doneS_eq (s : State) (d : SReg) (ks : List (Bool × SReg)) (y : Word) :
    s.doneS d ks y = s.doneSQ (.s d) (.s 0) ks y := rfl
theorem done_eq (s : State) (ks : List (Bool × SReg)) : s.done ks = s.doneSQ (.s 0) (.s 0) ks 0 := by
  have e : ∀ w : Ws, w.setS 0 0 = w := fun w => if_pos rfl
  show _ = ((s.onWs (fun w => w.killSs ks)).onWs (fun w => w.setS 0 0)).retire
  have e2 : (fun w : Ws => w.setS 0 0) = id := funext e
  rw [e2]
  rfl

/-- The state itself, no flag raised. -/
theorem SameBut.self (s : State) :
    SameBut s s { s.ws with fcsr := s.ws.fcsr ||| (0 : Flags).setWidth 14 } s.core.srng := by
  have e : ({ s.ws with fcsr := s.ws.fcsr ||| (0 : Flags).setWidth 14 } : Ws) = s.ws := by simp
  rw [e]
  exact SameBut.refl s
/-- The state with flags set. -/
theorem SameBut.flags (s : State) (fl : Flags) : SameBut s (s.onWs (fun w => w.setFlags fl))
    { s.ws with fcsr := s.ws.fcsr ||| fl.setWidth 14 } s.core.srng := (SameBut.refl s).onWs _

/-- An instruction with a scalar destination and no flags (R244, R245). -/
theorem doneSQ_plain (s : State) (d a : SQ) (ks : List (Bool × SReg)) (y : Word) :
    ScalarEffect s (s.doneSQ d a ks y) d a ks y 0 s.core.srng := doneSQ_effect (SameBut.self s) d a ks y

/-- The same for a destination and sources that are registers. -/
theorem doneS_plain (s : State) (d : SReg) (ks : List (Bool × SReg)) (y : Word) :
    ScalarEffect s (s.doneS d ks y) (.s d) (.s 0) ks y 0 s.core.srng := by
  rw [doneS_eq]; exact doneSQ_plain s _ _ ks y
/-- The same for an instruction without a destination. -/
theorem done_plain (s : State) (ks : List (Bool × SReg)) :
    ScalarEffect s (s.done ks) (.s 0) (.s 0) ks 0 0 s.core.srng := by
  rw [done_eq]; exact doneSQ_plain s _ _ ks 0

/-- The whole effect of `doneVQ` after flags and draws. -/
theorem doneVQ_effect {s t : State} {fl : Flags} {g : BitVec 32}
    (h : SameBut s t { s.ws with fcsr := s.ws.fcsr ||| fl.setWidth 14 } g) (d a : VQ) (vs : List (Bool × VReg))
    (ss : List (Bool × SReg)) (y : VWord) : VectorEffect s (t.doneVQ d a vs ss y) d a vs ss y fl g := by
  have h1 := (h.takeQ a.q?).onWs (fun w => (w.killVs vs).killSs ss)
  generalize hw : ({ s.ws with fcsr := s.ws.fcsr ||| fl.setWidth 14 } : Ws) = w at h1
  have k0 := Ws.killVs_keeps vs (w.took a.q?)
  have k1 := Ws.killSs_keeps ss ((w.took a.q?).killVs vs)
  have k2 := Ws.took_keeps w a.q?
  have hq : ∀ n : QReg, (((w.took a.q?).killVs vs).killSs ss).q[n] = if a = .q n then s.ws.q[n].take else s.ws.q[n] := by
    intro n
    rw [k1.2.2.2.2.2.2.2.2.2.2.2.2.2.2.2.2, k0.2.2.2.2.2.2.2.2.2.2.2.2.2.2.2.2]
    subst hw
    cases a with
    | v r => simp [Ws.took, VQ.q?]
    | q m =>
      simp only [Ws.took, VQ.q?, Ws.onQ_q, VQ.q.injEq]
      by_cases e : n = m
      · subst e; simp only [if_true]
      · have e' : ¬ m = n := fun x => e x.symm
        simp only [e, e', if_false]
  have hs : ∀ r : SReg, (((w.took a.q?).killVs vs).killSs ss).getS r = if marked ss r then 0 else s.ws.getS r := by
    intro r; rw [Ws.getS_killSs]; unfold Ws.getS; rw [k0.1, k0.2.1, k2.1, k2.2.1]; subst hw; rfl
  have hv : ∀ r : VReg, (((w.took a.q?).killVs vs).killSs ss).getV r = if marked vs r then 0 else s.ws.getV r := by
    intro r
    have e : (((w.took a.q?).killVs vs).killSs ss).getV r = ((w.took a.q?).killVs vs).getV r := by
      unfold Ws.getV; rw [k1.1, k1.2.1]
    have e2 : (w.took a.q?).getV r = s.ws.getV r := by
      unfold Ws.getV; rw [k2.2.2.1, k2.2.2.2.1]; subst hw; rfl
    rw [e, Ws.getV_killVs, e2]
  have hm : ∀ r : MReg, (((w.took a.q?).killVs vs).killSs ss).getM r = s.ws.getM r := by
    intro r; unfold Ws.getM
    rw [k1.2.2.1, k1.2.2.2.1, k0.2.2.1, k0.2.2.2.1, k2.2.2.2.2.1, k2.2.2.2.2.2.1]; subst hw; rfl
  have hc : ∀ r : CReg, (((w.took a.q?).killVs vs).killSs ss).getC r = s.ws.getC r := by
    intro r; unfold Ws.getC
    rw [k1.2.2.2.2.1, k1.2.2.2.2.2.1, k0.2.2.2.2.1, k0.2.2.2.2.2.1, k2.2.2.2.2.2.2.1, k2.2.2.2.2.2.2.2.1]; subst hw; rfl
  have hk : ∀ r : KReg, (((w.took a.q?).killVs vs).killSs ss).getK r = s.ws.getK r := by
    intro r; unfold Ws.getK
    rw [k1.2.2.2.2.2.2.1, k1.2.2.2.2.2.2.2.1, k0.2.2.2.2.2.2.1, k0.2.2.2.2.2.2.2.1, k2.2.2.2.2.2.2.2.2.1,
      k2.2.2.2.2.2.2.2.2.2.1]; subst hw; rfl
  have hpc : (((w.took a.q?).killVs vs).killSs ss).pc = s.ws.pc := by
    rw [k1.2.2.2.2.2.2.2.2.1, k0.2.2.2.2.2.2.2.2.1, k2.2.2.2.2.2.2.2.2.2.2.1]; subst hw; rfl
  have hr : (((w.took a.q?).killVs vs).killSs ss).tsw = s.ws.tsw ∧ (((w.took a.q?).killVs vs).killSs ss).atp = s.ws.atp ∧
      (((w.took a.q?).killVs vs).killSs ss).vl = s.ws.vl ∧ (((w.took a.q?).killVs vs).killSs ss).mcr = s.ws.mcr ∧
      (((w.took a.q?).killVs vs).killSs ss).cvm = s.ws.cvm ∧
      (((w.took a.q?).killVs vs).killSs ss).fcsr = s.ws.fcsr ||| fl.setWidth 14 := by
    obtain ⟨-, -, -, -, -, -, -, -, -, a1, a2, a3, a4, a5, a6, -, -⟩ := k1
    obtain ⟨-, -, -, -, -, -, -, -, -, b1, b2, b3, b4, b5, b6, -, -⟩ := k0
    obtain ⟨-, -, -, -, -, -, -, -, -, -, -, c1, c2, c3, c4, c5, c6⟩ := k2
    rw [a1, a2, a3, a4, a5, a6, b1, b2, b3, b4, b5, b6, c1, c2, c3, c4, c5, c6]
    subst hw
    exact ⟨rfl, rfl, rfl, rfl, rfl, rfl⟩
  clear k0 k1 k2 hw
  generalize ((w.took a.q?).killVs vs).killSs ss = u at h1 hq hs hv hm hc hk hpc hr
  unfold State.doneVQ State.putV
  cases d with
  | v r =>
    obtain ⟨m1, m2, m3, m4, m5, m6⟩ := (h1.onWs (fun w => w.setV r y)).retire hpc
    refine ⟨?_, ?_, ?_, ⟨?_, ?_, ?_⟩, ⟨?_, ?_, ?_, ?_, ?_⟩, ?_, m5, m6, m1, m2, m3⟩
    · intro p
      rw [m4]
      show (u.setV r y).getV p = _
      rw [Ws.getV_setV, hv]
      by_cases e : p = r
      · subst e; simp only [if_true]
      · have e' : ¬ VQ.v r = VQ.v p := fun x => e (VQ.v.inj x).symm
        simp only [e, e', if_false]
    · intro n; rw [m4]; show u.q[n] = _; rw [hq]; simp only [reduceCtorEq, if_false]
    · intro p; rw [m4]; exact hs p
    · intro p; rw [m4]; exact hm p
    · intro p; rw [m4]; exact hc p
    · intro p; rw [m4]; exact hk p
    all_goals rw [m4]
    · exact hr.1
    · exact hr.2.1
    · exact hr.2.2.1
    · exact hr.2.2.2.1
    · exact hr.2.2.2.2.1
    · exact hr.2.2.2.2.2
  | q n' =>
    obtain ⟨m1, m2, m3, m4, m5, m6⟩ := (h1.appendQ n' y).retire hpc
    refine ⟨?_, ?_, ?_, ⟨?_, ?_, ?_⟩, ⟨?_, ?_, ?_, ?_, ?_⟩, ?_, m5, m6, m1, m2, m3⟩
    · intro p; rw [m4]; show u.getV p = _; rw [hv]; simp only [reduceCtorEq, if_false]
    · intro n
      rw [m4]
      show (u.onQ n' (fun q => q.append y)).q[n] = _
      rw [Ws.onQ_q]
      simp only [hq, VQ.q.injEq]
      by_cases e : n = n'
      · subst e; simp only [if_true]
      · have e' : ¬ n' = n := fun x => e x.symm
        simp only [e, e', if_false]
    · intro p; rw [m4]; exact hs p
    · intro p; rw [m4]; exact hm p
    · intro p; rw [m4]; exact hc p
    · intro p; rw [m4]; exact hk p
    all_goals rw [m4]
    · exact hr.1
    · exact hr.2.1
    · exact hr.2.2.1
    · exact hr.2.2.2.1
    · exact hr.2.2.2.2.1
    · exact hr.2.2.2.2.2

theorem doneVQ_plain (s : State) (d a : VQ) (vs : List (Bool × VReg)) (ss : List (Bool × SReg)) (y : VWord) :
    VectorEffect s (s.doneVQ d a vs ss y) d a vs ss y 0 s.core.srng := doneVQ_effect (SameBut.self s) d a vs ss y

end Sys2Proof.Machine
end

