-- ==== Sys2Proof/Laws/Access.lean ====
section
/-! SUPPORT. When the checks of a memory access let it through, and where it then lies. -/
namespace Sys2Proof.Machine

open Sys2Proof.Safety

theorem State.onCore_cn (s : State) (f : Core → Core) : s.onCore s.cn f = { s with core := f s.core } := by
  simp [State.onCore]
theorem State.coreOf_cn (s : State) : s.coreOf s.cn = s.core := by simp [State.coreOf]

theorem State.tlbFind_hit {s : State} {vfn vpn : Nat} {e : TlbEntry}
    (h : s.core.tlb.find? (fun x => x.covers vfn vpn) = some e) : s.tlbFind s.cn vfn vpn = some (e, viaTlb s e) := by
  unfold State.tlbFind
  rw [State.coreOf_cn, h]
  simp [State.onCore_cn, viaTlb]

theorem accessReady_ok {s : State} (h : NoAcquire s) : accessReady s = .ok () := by
  unfold accessReady
  split
  · rename_i e he
    have h1 := List.find?_some he
    have h2 := h e (List.mem_of_find?_eq_some he)
    revert h1 h2
    cases e.op <;> simp_all [acquires]
  · rfl

theorem viaTlb_holdsClaim (s : State) (e : TlbEntry) (c : Nat) (i : Option Nat) :
    (viaTlb s e).holdsClaim c i = s.holdsClaim c i := by
  have h1 : (viaTlb s e).coreOf (viaTlb s e).cn = (viaTlb s e).core := State.coreOf_cn _
  have h2 : s.coreOf s.cn = s.core := State.coreOf_cn s
  unfold State.holdsClaim State.claimAt
  rw [h1, h2]
  rfl

theorem viaTlb_ws (s : State) (e : TlbEntry) : (viaTlb s e).ws = s.ws := rfl
theorem viaTlb_slot (s : State) (e : TlbEntry) : (viaTlb s e).slot = s.slot := rfl

/-- The checks before the order with the release queue pass: the access lies in the page that the entry maps. -/
theorem globalChecks_ok {s : State} {need : Need} {va : Word} {n : Nat} {e : TlbEntry} (h : Passes s need va n e) (lane : Nat) :
    globalChecks s need va n lane = .ok ([(e.place va.toNat, n)], viaTlb s e) := by
  obtain ⟨⟨h0, hp, hv, ha, ht, hl⟩, hn, hw, hd, hu, htl, hb⟩ := h
  have h1 : accessReady s = .ok () := accessReady_ok hn
  have h2 : translate s need va n = .ok ([(e.place va.toNat, n)], viaTlb s e) := by
    have hmin : min n (65536 - va.toNat % 65536) = n := by omega
    have hnot : ¬ 2 ^ 55 < va.toNat + n := by omega
    unfold translate
    rw [if_neg hnot]
    have hpc : pieces va.toNat n = [(va.toNat, n)] := by simp [pieces, hmin]
    have htp : translatePage s need va (va.toNat / 65536) = .ok (e, viaTlb s e) := by
      unfold translatePage
      simp only [ha, Bool.true_eq_false, if_false, State.tlbFind_hit ht]
      have : (viaTlb s e).leafCheck s.ws.vfn (!s.ws.sup) need e = none := hl
      rw [this]
    rw [hpc]
    simp [List.foldlM, htp]
  have h3 : bookedLimit (viaTlb s e) [(e.place va.toNat, n)] = .ok () := by
    unfold bookedLimit
    by_cases hbk : s.booked = true
    · obtain ⟨b1, b2, b3⟩ := hb hbk
      have e1 : (viaTlb s e).booked = true := hbk
      have e2 : (e.place va.toNat).kind = 1 := b1
      have e3 : nearVault (viaTlb s e).cn (e.place va.toNat) = true := b2
      have e4 : (viaTlb s e).holdsClaim 8 (some (e.place va.toNat).vault) = true := by rw [viaTlb_holdsClaim]; exact b3
      simp [e1, e2, e3, e4]
    · have e1 : (viaTlb s e).booked = false := Bool.eq_false_iff.mpr hbk
      simp [e1]
  have h4 : watch (viaTlb s e) false va.toNat n need.rd need.wr lane = .ok () := by
    unfold watch
    have : (viaTlb s e).core.dbg.watchHit false va.toNat n need.rd need.wr = none := hw
    rw [this]
  have h5 : deviceGate [(e.place va.toNat, n)] = .ok () := by
    have : (e.place va.toNat).dev = false := hd
    simp [deviceGate, this]
  have h6 : hostGate (viaTlb s e) [(e.place va.toNat, n)] va = .ok () := by
    have : (viaTlb s e).unmapped (e.place va.toNat) = false := hu
    simp [hostGate, this]
  have h7 : (if need.wr = true then tileGate (viaTlb s e) [(e.place va.toNat, n)] va else pure ()) = .ok () := by
    by_cases hwr : need.wr = true
    · have h8 := htl hwr
      have h9 : (Span.lines [(e.place va.toNat, n)]).any
          (fun l => l.2.coherent && (viaTlb s e).tileRefuses (viaTlb s e).cn l.1) = false := by
        rw [List.any_eq_false]
        intro l hl2
        have := List.all_eq_true.mp h8 l hl2
        show ¬ (l.2.coherent && s.tileRefuses s.cn l.1) = true
        rw [Bool.not_eq_true'] at this
        rw [this]; decide
      simp only [hwr, if_true, tileGate, h9, Bool.false_eq_true, if_false]
    · simp only [hwr, Bool.false_eq_true, if_false]; rfl
  unfold globalChecks
  simp only [h1, h2, h3, h4, h5, h6, ok_bind]
  by_cases hwr : need.wr = true
  · simp only [hwr, if_true] at h7 ⊢
    rw [h7]
    rfl
  · simp only [hwr, Bool.false_eq_true, if_false]

/-- A global access that nothing holds back or stops is made at its place. -/
theorem globalGate_ok {s : State} {need : Need} {va : Word} {n : Nat} {e : TlbEntry} (h : Reaches s need va n e) (lane : Nat) :
    globalGate s need va n lane = .ok ([(e.place va.toNat, n)], viaTlb s e) := by
  have ho := h.2.1
  unfold globalGate
  rw [globalChecks_ok h.1 lane]
  have : orderGate (viaTlb s e) [(e.place va.toNat, n)] = .ok () := by
    unfold orderGate
    have : (viaTlb s e).slot.relq.find? (fun x => x.op.meets [(e.place va.toNat, n)]) = none := ho
    rw [this]
  have h2 : lineGate (viaTlb s e) need [(e.place va.toNat, n)] = .ok () := by
    have ha := h.2.2
    unfold lineGate
    split
    · rename_i hc
      rw [Bool.and_eq_true] at hc
      have : s.away s.cn [(e.place va.toNat, n)] = true := hc.2
      rw [ha hc.1] at this; cases this
    · rfl
  simp only [this, h2, ok_bind]

/-! ## Local accesses -/

theorem State.held_onSx (s : State) (i : SlotId) (f : SlotX → SlotX) :
    (s.setCore (s.core.onSx i f)).held s.cn = s.held s.cn := by
  unfold State.held State.heldBut
  have e1 : (s.setCore (s.core.onSx i f)).coreOf s.cn = s.core.onSx i f := by simp [State.coreOf, State.setCore]
  have e2 : s.coreOf s.cn = s.core := State.coreOf_cn s
  rw [e1, e2]
  rfl

theorem State.held_noteMargin (s : State) (x : Option Nat) (wr : Bool) : (s.noteMargin x wr).held s.cn = s.held s.cn := by
  unfold State.noteMargin
  cases x with
  | none => rfl
  | some o =>
    dsimp only
    split
    · rfl
    · exact State.held_onSx s _ _

theorem State.noteMargin_cn (s : State) (x : Option Nat) (wr : Bool) : (s.noteMargin x wr).cn = s.cn := by
  unfold State.noteMargin
  cases x with
  | none => rfl
  | some o => dsimp only; split <;> rfl

/-- A local access that nothing holds back or stops is made at its offset. -/
theorem localEnter_ok {s : State} {a : Word} {n : Nat} {wr : Bool} (h : ReachesLocal s a n wr) (lane : Nat) :
    localEnter s a n wr lane = .ok (a.toNat, viaLocal s a n wr) := by
  obtain ⟨hr, hn, hw, hh⟩ := h
  have h1 : accessReady s = .ok () := accessReady_ok hn
  have h2 : localOfs s a n = .ok a.toNat := by simp [localOfs, hr]
  have h3 : watch s true a.toNat n (!wr) wr lane = .ok () := by unfold watch; rw [hw]
  have h4 : localGate s a.toNat n wr = .ok (viaLocal s a n wr) := by
    unfold localGate holdGate
    dsimp only
    rw [State.noteMargin_cn, State.held_noteMargin, hh]
    rfl
  unfold localEnter
  simp [h1, h2, h3, h4]

end Sys2Proof.Machine
end

