-- ==== Sys2Proof/Laws/Memory.lean ====
section
/-! SUPPORT. Byte memory: reading after writing, the canonical form, little-endian numbers, and finite maps. -/
namespace Sys2Proof.Machine

/-! ## Reading after writing -/

theorem memWfFrom_mono {lo lo' : Option Nat} {m : List Host.Cell} (h : memWfFrom lo m = true)
    (hl : ∀ l', lo' = some l' → ∃ l, lo = some l ∧ l' ≤ l) : memWfFrom lo' m = true := by
  cases m with
  | nil => rfl
  | cons c t =>
    obtain ⟨k, b⟩ := c
    simp only [memWfFrom, Bool.and_eq_true] at h ⊢
    refine ⟨⟨?_, h.1.2⟩, h.2⟩
    cases lo' with
    | none => rfl
    | some l' =>
      obtain ⟨l, rfl, hle⟩ := hl l' rfl
      simp only [decide_eq_true_eq] at h ⊢
      omega

theorem memWfFrom_none {lo : Option Nat} {m : List Host.Cell} (h : memWfFrom lo m = true) : memWfFrom none m = true :=
  memWfFrom_mono h (fun _ e => nomatch e)

/-- A key that is not above the bound of a canonical list is not in it. -/
theorem readByte_below {lo a : Nat} {m : List Host.Cell} (h : memWfFrom (some lo) m = true) (ha : a ≤ lo) : readByte m a = 0 := by
  induction m generalizing lo with
  | nil => rfl
  | cons c t ih =>
    obtain ⟨k, b⟩ := c
    simp only [memWfFrom, Bool.and_eq_true, decide_eq_true_eq] at h
    have hk : ¬ k = a := by omega
    simp only [readByte, hk, if_false]
    exact ih h.2 (by omega)

/-- Reading after a write to a canonical memory gives the byte written there and the old bytes elsewhere. -/
theorem readByte_writeByte {m : List Host.Cell} {lo : Option Nat} (h : memWfFrom lo m = true) (a b : Nat) (v : Byte) :
    readByte (writeByte m a v) b = if b = a then v else readByte m b := by
  induction m generalizing lo with
  | nil =>
    unfold writeByte
    by_cases hv : v = 0
    · simp [hv, readByte]
    · rw [if_neg hv]
      by_cases hb : b = a
      · simp [readByte, hb]
      · have hb' : ¬ a = b := fun e => hb e.symm
        simp [readByte, hb, hb']
  | cons c t ih =>
    obtain ⟨k, x⟩ := c
    simp only [memWfFrom, Bool.and_eq_true] at h
    unfold writeByte
    by_cases h1 : a < k
    · rw [if_pos h1]
      by_cases hv : v = 0
      · rw [if_pos hv]
        by_cases hb : b = a
        · have hk : ¬ k = b := by omega
          rw [if_pos hb, hv, readByte, if_neg hk]
          exact readByte_below h.2 (by omega)
        · rw [if_neg hb]
      · rw [if_neg hv]
        by_cases hb : b = a
        · simp [readByte, hb]
        · have hb' : ¬ a = b := fun e => hb e.symm
          rw [if_neg hb, readByte, if_neg hb']
    · rw [if_neg h1]
      by_cases h2 : a = k
      · subst h2
        rw [if_pos rfl]
        by_cases hv : v = 0
        · rw [if_pos hv]
          by_cases hb : b = a
          · rw [if_pos hb, hv]
            exact readByte_below h.2 (by omega)
          · have hb' : ¬ a = b := fun e => hb e.symm
            rw [if_neg hb]
            conv => rhs; rw [readByte, if_neg hb']
        · rw [if_neg hv]
          by_cases hb : b = a
          · simp [readByte, hb]
          · have hb' : ¬ a = b := fun e => hb e.symm
            rw [if_neg hb, readByte, if_neg hb', readByte, if_neg hb']
      · rw [if_neg h2]
        by_cases hk : k = b
        · have hb : ¬ b = a := by omega
          simp [readByte, hk, hb]
        · simp only [readByte, hk, if_false]
          exact ih h.2

/-! ## The canonical form is kept -/

theorem memWfFrom_writeByte {m : List Host.Cell} {lo : Option Nat} (h : memWfFrom lo m = true) (a : Nat) (v : Byte)
    (ha : ∀ l, lo = some l → l < a) : memWfFrom lo (writeByte m a v) = true := by
  induction m generalizing lo with
  | nil =>
    unfold writeByte
    by_cases hv : v = 0
    · simp [hv, memWfFrom]
    · rw [if_neg hv]
      have hv' : ¬ v = 0#8 := hv
      cases lo with
      | none => simp [hv', memWfFrom]
      | some l => simp [hv', memWfFrom, ha l rfl]
  | cons c t ih =>
    obtain ⟨k, x⟩ := c
    have h0 := h
    simp only [memWfFrom, Bool.and_eq_true] at h
    unfold writeByte
    by_cases h1 : a < k
    · rw [if_pos h1]
      by_cases hv : v = 0
      · rw [if_pos hv]; exact h0
      · rw [if_neg hv]
        have hx := h.1.2
        have ht := h.2
        cases lo with
        | none => simp_all [memWfFrom]
        | some l => simp_all [memWfFrom, ha l rfl]
    · rw [if_neg h1]
      by_cases h2 : a = k
      · subst h2
        rw [if_pos rfl]
        by_cases hv : v = 0
        · rw [if_pos hv]
          exact memWfFrom_mono h.2 (fun l e => ⟨a, rfl, Nat.le_of_lt (ha l e)⟩)
        · rw [if_neg hv]
          have ht := h.2
          cases lo with
          | none => simp_all [memWfFrom]
          | some l => simp_all [memWfFrom, ha l rfl]
      · rw [if_neg h2]
        simp only [memWfFrom, Bool.and_eq_true]
        refine ⟨h.1, ih h.2 ?_⟩
        intro l e
        cases e
        omega

/-- Writing one byte keeps the canonical form. -/
theorem Memory.wf_writeByte {m : List Host.Cell} (h : Memory.wf m = true) (a : Nat) (v : Byte) :
    Memory.wf (writeByte m a v) = true := memWfFrom_writeByte h a v (fun _ e => nomatch e)

/-- Writing bytes keeps the canonical form. -/
theorem Memory.wf_writeLocs {m : List Host.Cell} (h : Memory.wf m = true) (ls : List Nat) (bs : List Byte) :
    Memory.wf (writeLocs m ls bs) = true := by
  induction ls generalizing m bs with
  | nil => exact h
  | cons l ls ih =>
    cases bs with
    | nil => exact h
    | cons b bs => exact ih (Memory.wf_writeByte h l b) bs

/-- Dropping entries keeps the canonical form. -/
theorem memWfFrom_filter {m : List Host.Cell} {lo : Option Nat} (h : memWfFrom lo m = true) (p : Host.Cell → Bool) :
    memWfFrom lo (m.filter p) = true := by
  induction m generalizing lo with
  | nil => rfl
  | cons c t ih =>
    obtain ⟨k, b⟩ := c
    simp only [memWfFrom, Bool.and_eq_true] at h
    rw [List.filter_cons]
    split
    · simp only [memWfFrom, Bool.and_eq_true]
      exact ⟨h.1, ih h.2⟩
    · refine memWfFrom_mono (ih h.2) ?_
      intro l e
      subst e
      exact ⟨k, rfl, Nat.le_of_lt (by simpa using h.1.1)⟩

theorem Memory.wf_filter {m : List Host.Cell} (h : Memory.wf m = true) (p : Host.Cell → Bool) :
    Memory.wf (m.filter p) = true := memWfFrom_filter h p

/-- The memory after reset is canonical. -/
theorem Memory.wf_reset : Memory.wf State.reset.mem = true := rfl

/-- The byte at a key after a write that does not name it. -/
theorem readByte_writeLocs {m : List Host.Cell} (h : Memory.wf m = true) (ls : List Nat) (bs : List Byte) (b : Nat)
    (hb : b ∉ ls) : readByte (writeLocs m ls bs) b = readByte m b := by
  induction ls generalizing m bs with
  | nil => rfl
  | cons l ls ih =>
    cases bs with
    | nil => rfl
    | cons x xs =>
      rw [List.mem_cons, not_or] at hb
      rw [writeLocs, ih (Memory.wf_writeByte h l x) xs hb.2, readByte_writeByte h, if_neg hb.1]

/-- The bytes at distinct keys after they are written. -/
theorem readLocs_writeLocs {m : List Host.Cell} (h : Memory.wf m = true) (ls : List Nat) (bs : List Byte)
    (hn : ls.Nodup) (hl : bs.length = ls.length) : readLocs (writeLocs m ls bs) ls = bs := by
  induction ls generalizing m bs with
  | nil => cases bs <;> simp_all [readLocs]
  | cons l ls ih =>
    cases bs with
    | nil => simp at hl
    | cons x xs =>
      rw [List.nodup_cons] at hn
      have hw := Memory.wf_writeByte h l x
      simp only [writeLocs, readLocs, List.map_cons]
      have := ih hw xs hn.2 (by simpa using hl)
      rw [readLocs] at this
      rw [this, readByte_writeLocs hw ls xs l hn.1, readByte_writeByte h, if_pos rfl]

/-! ## Little-endian numbers (R6) -/

@[simp] theorem toBytes_length (n x : Nat) : (toBytes n x).length = n := by
  induction n generalizing x with
  | zero => rfl
  | succ n ih => simp [toBytes, ih]

/-- The bytes of a number read back as the number modulo 2^(8n). -/
theorem ofBytes_toBytes (n x : Nat) : ofBytes (toBytes n x) = x % 2 ^ (8 * n) := by
  induction n generalizing x with
  | zero => simp [toBytes, ofBytes, Nat.mod_one]
  | succ n ih =>
    have e : 2 ^ (8 * (n + 1)) = 256 * 2 ^ (8 * n) := by rw [Nat.mul_add, Nat.pow_add, Nat.mul_comm]
    rw [toBytes, ofBytes, ih, e, Nat.mod_mul]
    simp

/-! ## Finite maps -/

theorem mapGet_mapSet_self {α : Type} (m : List (Nat × α)) (k : Nat) (v : α) : mapGet (mapSet m k v) k = some v := by
  induction m with
  | nil => simp [mapSet, mapGet]
  | cons c t ih =>
    obtain ⟨a, w⟩ := c
    unfold mapSet
    by_cases h1 : k < a
    · simp [h1, mapGet]
    · by_cases h2 : k = a
      · simp [h2, mapGet]
      · have h3 : ¬ a = k := fun e => h2 e.symm
        simp [h1, h2, h3, mapGet, ih]

theorem mapGet_mapSet_other {α : Type} (m : List (Nat × α)) (k n : Nat) (v : α) (h : n ≠ k) :
    mapGet (mapSet m k v) n = mapGet m n := by
  have hk : ¬ k = n := fun e => h e.symm
  induction m with
  | nil => simp [mapSet, mapGet, hk]
  | cons c t ih =>
    obtain ⟨a, w⟩ := c
    unfold mapSet
    by_cases h1 : k < a
    · simp [h1, mapGet, hk]
    · by_cases h2 : k = a
      · subst h2; simp [mapGet, hk]
      · by_cases h3 : a = n
        · rw [if_neg h1, if_neg h2]; simp [mapGet, h3]
        · simp [h1, h2, h3, mapGet, ih]

@[simp] theorem State.die_onDie (s : State) (n : Nat) (f : Die → Die) : (s.onDie n f).die n = f (s.die n) := by
  simp [State.die, State.onDie, mapGet_mapSet_self]
@[simp] theorem State.cluster_onCluster (s : State) (n : Nat) (f : Cluster → Cluster) :
    (s.onCluster n f).cluster n = f (s.cluster n) := by
  simp [State.cluster, State.onCluster, mapGet_mapSet_self]

end Sys2Proof.Machine
end

