-- ==== Sys2Proof/Laws/Coherence.lean ====
section
/-! SUPPORT. What the directory's part of an access leaves: every byte and tag, every register of the running context. -/
namespace Sys2Proof.Machine

open Sys2Proof.Safety

/-- `t` differs from `s` only aside from what an instruction sees of its own context and of memory, while no recorder ring is
enabled and no line is cached under two keys: in the caches, the directories, the clusters, the counters, the pending events,
the tokens of the cores, and in the slots' trackers. -/
structure AsideTo (s t : State) : Prop where
  mem : t.mem = s.mem
  tags : t.tags = s.tags
  lineKey : t.lineKey = s.lineKey
  bad : t.bad = s.bad
  free : t.free = s.free
  cn : t.cn = s.cn
  res : t.core.res = s.core.res
  cur : t.core.cur = s.core.cur
  pad : t.core.pad = s.core.pad
  padTags : t.core.padTags = s.core.padTags
  padBad : t.core.padBad = s.core.padBad
  slotx : t.core.slotx = s.core.slotx
  slots : ∀ i, ∃ k m a b, t.core.slot i = { s.core.slot i with trk := k, wseq := m, outStores := a, fcount := b }
  srng : t.core.srng = s.core.srng
  grng : t.core.grng = s.core.grng
  pkg : ∃ m, t.pkg = { s.pkg with marks := m }
  pkgx : t.pkgx = s.pkgx
  rings : RingsOff t
  settled : Settled t

def Aside (s t : State) : Prop := RingsOff s → Settled s → AsideTo s t

theorem Aside.refl (s : State) : Aside s s := fun h g =>
  { mem := rfl, tags := rfl, lineKey := rfl, bad := rfl, free := rfl, cn := rfl, res := rfl, cur := rfl, pad := rfl,
    padTags := rfl, padBad := rfl, slotx := rfl, slots := fun _ => ⟨_, _, _, _, rfl⟩, srng := rfl, grng := rfl,
    pkg := ⟨_, rfl⟩, pkgx := rfl, rings := h, settled := g }

theorem AsideTo.trans {s t u : State} (a : AsideTo s t) (b : AsideTo t u) : AsideTo s u :=
  { mem := b.mem.trans a.mem, tags := b.tags.trans a.tags, lineKey := b.lineKey.trans a.lineKey,
    bad := b.bad.trans a.bad, free := b.free.trans a.free, cn := b.cn.trans a.cn, res := b.res.trans a.res,
    cur := b.cur.trans a.cur, pad := b.pad.trans a.pad, padTags := b.padTags.trans a.padTags,
    padBad := b.padBad.trans a.padBad, slotx := b.slotx.trans a.slotx,
    slots := fun i => by
      obtain ⟨_, _, _, _, h1⟩ := a.slots i
      obtain ⟨_, _, _, _, h2⟩ := b.slots i
      rw [h1] at h2
      exact ⟨_, _, _, _, h2⟩,
    srng := b.srng.trans a.srng, grng := b.grng.trans a.grng,
    pkg := by
      obtain ⟨_, h1⟩ := a.pkg
      obtain ⟨_, h2⟩ := b.pkg
      rw [h1] at h2
      exact ⟨_, h2⟩,
    pkgx := b.pkgx.trans a.pkgx, rings := b.rings, settled := b.settled }
theorem Aside.trans {s t u : State} (h1 : Aside s t) (h2 : Aside t u) : Aside s u := fun h g =>
  (h1 h g).trans (h2 (h1 h g).rings (h1 h g).settled)

/-- A state whose core and memory are the same, and whose lines are settled when the other's are. -/
theorem Aside.of_core' {s t : State} (hc : t.core = s.core) (ho : t.others = s.others) (hn : t.cn = s.cn) (hm : t.mem = s.mem)
    (ht : t.tags = s.tags) (hl : t.lineKey = s.lineKey) (hb : t.bad = s.bad) (hf : t.free = s.free)
    (hp : ∃ m, t.pkg = { s.pkg with marks := m }) (hx : t.pkgx = s.pkgx) (hs : Settled s → Settled t) : Aside s t := fun h g =>
  { mem := hm, tags := ht, lineKey := hl, bad := hb, free := hf, cn := hn, res := by rw [hc], cur := by rw [hc],
    pad := by rw [hc], padTags := by rw [hc], padBad := by rw [hc], slotx := by rw [hc],
    slots := fun i => ⟨_, _, _, _, by rw [hc]⟩, srng := by rw [hc], grng := by rw [hc], pkg := hp, pkgx := hx,
    rings := fun n => by
      have e : t.coreOf n = s.coreOf n := by unfold State.coreOf; rw [hc, ho, hn]
      rw [e]; exact h n,
    settled := hs g }

/-- A state whose core, memory and configuration are the same. -/
theorem Aside.of_core {s t : State} (hc : t.core = s.core) (ho : t.others = s.others) (hn : t.cn = s.cn) (hm : t.mem = s.mem)
    (ht : t.tags = s.tags) (hl : t.lineKey = s.lineKey) (hb : t.bad = s.bad) (hf : t.free = s.free)
    (hp : ∃ m, t.pkg = { s.pkg with marks := m }) (hx : t.pkgx = s.pkgx) (hs : t.stale = s.stale) (hh : t.hbm = s.hbm) : Aside s t :=
  Aside.of_core' hc ho hn hm ht hl hb hf hp hx (fun g => by unfold Settled; rw [hs, hh]; exact g)

theorem Aside.onDie (s : State) (n : Nat) (f : Die → Die) : Aside s (s.onDie n f) :=
  Aside.of_core rfl rfl rfl rfl rfl rfl rfl rfl ⟨_, rfl⟩ rfl rfl rfl
theorem Aside.onCluster (s : State) (n : Nat) (f : Cluster → Cluster) : Aside s (s.onCluster n f) :=
  Aside.of_core rfl rfl rfl rfl rfl rfl rfl rfl ⟨_, rfl⟩ rfl rfl rfl
theorem Aside.post (s : State) (t : Nat) (e : Event) : Aside s (s.post t e) :=
  Aside.of_core rfl rfl rfl rfl rfl rfl rfl rfl ⟨_, rfl⟩ rfl rfl rfl
theorem Aside.once (s : State) (t : Nat) (e : Event) : Aside s (s.once t e) := by
  unfold State.once; split
  · exact Aside.refl s
  · exact Aside.post s _ _
theorem Aside.postOnce (s : State) (e : Event) : Aside s (s.postOnce e) := by
  unfold State.postOnce; split
  · exact Aside.refl s
  · exact Aside.post s _ _
theorem Aside.setMark (s : State) (m : CtrMark) : Aside s (s.setMark m) :=
  Aside.of_core rfl rfl rfl rfl rfl rfl rfl rfl ⟨_, rfl⟩ rfl rfl rfl

/-- A fold of operations that each go aside. -/
theorem Aside.foldl {α : Type} (f : State → α → State) (hf : ∀ s x, Aside s (f s x)) (l : List α) (s : State) :
    Aside s (l.foldl f s) := by
  induction l generalizing s with
  | nil => exact Aside.refl s
  | cons x l ih => exact (hf s x).trans (ih _)

/-- A choice of two operations that each go aside. -/
theorem Aside.ite {s t u : State} {c : Prop} [Decidable c] (h1 : Aside s t) (h2 : Aside s u) : Aside s (if c then t else u) := by
  split <;> assumption

/-- A change of a core that keeps its registers, scratchpad and slots, and does not enable a ring. -/
theorem Aside.onCore (s : State) (n : Nat) (f : Core → Core)
    (hf : ∀ c, (f c).res = c.res ∧ (f c).cur = c.cur ∧ (f c).pad = c.pad ∧ (f c).padTags = c.padTags ∧
      (f c).padBad = c.padBad ∧ (f c).slotx = c.slotx ∧ (f c).slots = c.slots ∧ (f c).srng = c.srng ∧ (f c).grng = c.grng ∧
      (f c).dbg.note.ctl = c.dbg.note.ctl ∧ (f c).dbg.mlog.ctl = c.dbg.mlog.ctl ∧ (f c).dbg.race.ctl = c.dbg.race.ctl) :
    Aside s (s.onCore n f) := by
  intro h g
  have hr : RingsOff (s.onCore n f) := by
    intro m
    have e : (s.onCore n f).coreOf m = if m = n then f (s.coreOf n) else s.coreOf m := by
      unfold State.onCore State.coreOf
      by_cases h1 : n = s.cn
      · subst h1
        by_cases h2 : m = s.cn
        · simp [h2]
        · simp [h2]
      · simp only [h1, if_false]
        by_cases h2 : m = s.cn
        · have : ¬ m = n := fun e => h1 (e ▸ h2)
          have h3 : ¬ s.cn = n := fun e => h1 e.symm
          simp [h2, h3]
        · by_cases h3 : m = n
          · subst h3; simp [h2, mapGet_mapSet_self]
          · simp [h2, h3, mapGet_mapSet_other _ _ _ _ h3]
    rw [e]
    split
    · obtain ⟨-, -, -, -, -, -, -, -, -, a, b, c⟩ := hf (s.coreOf n)
      rw [a, b, c]; exact h n
    · exact h m
  unfold State.onCore at hr ⊢
  split at hr
  · rename_i he
    simp only [he, if_true]
    obtain ⟨a1, a2, a3, a4, a5, a6, a7, a8, a9, -, -, -⟩ := hf s.core
    exact { mem := rfl, tags := rfl, lineKey := rfl, bad := rfl, free := rfl, cn := rfl, res := a1, cur := a2, pad := a3,
            padTags := a4, padBad := a5, slotx := a6,
            slots := fun i => ⟨_, _, _, _, by unfold Core.slot; rw [a7]⟩, srng := a8, grng := a9, pkg := ⟨_, rfl⟩, pkgx := rfl,
            rings := hr, settled := g }
  · rename_i he
    simp only [he, if_false]
    exact { mem := rfl, tags := rfl, lineKey := rfl, bad := rfl, free := rfl, cn := rfl, res := rfl, cur := rfl, pad := rfl,
            padTags := rfl, padBad := rfl, slotx := rfl, slots := fun i => ⟨_, _, _, _, rfl⟩, srng := rfl, grng := rfl,
            pkg := ⟨_, rfl⟩, pkgx := rfl, rings := hr, settled := g }

/-- The same, of the current core. -/
theorem Aside.setCore (s : State) (f : Core → Core)
    (hf : ∀ c, (f c).res = c.res ∧ (f c).cur = c.cur ∧ (f c).pad = c.pad ∧ (f c).padTags = c.padTags ∧
      (f c).padBad = c.padBad ∧ (f c).slotx = c.slotx ∧ (f c).slots = c.slots ∧ (f c).srng = c.srng ∧ (f c).grng = c.grng ∧
      (f c).dbg.note.ctl = c.dbg.note.ctl ∧ (f c).dbg.mlog.ctl = c.dbg.mlog.ctl ∧ (f c).dbg.race.ctl = c.dbg.race.ctl) :
    Aside s (s.setCore (f s.core)) := by
  have e : s.setCore (f s.core) = s.onCore s.cn f := by simp [State.onCore, State.setCore]
  rw [e]; exact Aside.onCore s _ f hf

/-! ## Counters and records -/

theorem Aside.note (s : State) (core cause : Nat) (st : Option Nat) (p : List (BitVec 32)) : Aside s (s.note core cause st p) := by
  intro h
  have e : s.note core cause st p = s := by unfold State.note; rw [if_pos (Or.inl (h core).1)]
  rw [e]; exact Aside.refl s h

theorem Aside.wrapped {n : Nat} (s : State) (scope place core : Nat) (sels : Vector Word n) (l : List (Fin n)) :
    Aside s (s.wrapped scope place core sels l) := Aside.foldl _ (fun s _ => Aside.setMark s _) _ _

theorem Aside.countCore (s : State) (core code vfn : Nat) : Aside s (s.countCore core code vfn) := by
  unfold State.countCore
  dsimp only
  split
  · exact Aside.refl s
  · refine (Aside.wrapped s 0 core core _ _).trans (Aside.onCore _ core _ ?_)
    intro c; exact ⟨rfl, rfl, rfl, rfl, rfl, rfl, rfl, rfl, rfl, rfl, rfl, rfl⟩
theorem Aside.countCluster (s : State) (cl core code vfn : Nat) : Aside s (s.countCluster cl core code vfn) := by
  unfold State.countCluster
  dsimp only
  split
  · exact Aside.refl s
  · exact (Aside.wrapped s 1 cl core _ _).trans (Aside.onCluster _ cl _)
theorem Aside.countDie (s : State) (die code vfn : Nat) : Aside s (s.countDie die code vfn) := by
  unfold State.countDie
  dsimp only
  split
  · exact (Aside.wrapped s 2 die 0 _ _).trans (Aside.onDie _ _ _)
  · exact Aside.refl s
theorem Aside.count (s : State) (core code vfn : Nat) : Aside s (s.count core code vfn) := by
  unfold State.count
  split
  · exact Aside.countCore s _ _ _
  · split
    · exact Aside.countCluster s _ _ _ _
    · exact Aside.countDie s _ _ _

/-! ## The caches (R50 to R52, R63, R80, R85) -/

theorem Aside.onL2 (s : State) (d line : Nat) (f : L2Line → L2Line) : Aside s (s.onL2 d line f) :=
  Aside.ite (Aside.onDie s _ _) (Aside.refl s)
theorem Aside.giveUpL1 (s : State) (core line : Nat) : Aside s (s.giveUpL1 core line) :=
  Aside.trans (t := s.onCore core (fun k => { k with l1d := k.l1d.filter (fun y => y.line != line) }))
    (Aside.onCore s core _ (fun _ => ⟨rfl, rfl, rfl, rfl, rfl, rfl, rfl, rfl, rfl, rfl, rfl, rfl⟩)) (Aside.onL2 _ _ _ _)
theorem Aside.recallL1 (s : State) (but line : Nat) : Aside s (s.recallL1 but line) :=
  Aside.foldl _ (fun s _ => Aside.ite (Aside.giveUpL1 s _ _) (Aside.refl s)) _ _
theorem Aside.recallCluster (s : State) (d line : Nat) : Aside s (s.recallCluster d line) :=
  Aside.ite (Aside.onL2 s _ _ _) (Aside.refl s)
theorem Aside.putEntry (s : State) (line : Nat) (e : DirEntry) : Aside s (s.putEntry line e) := Aside.onDie s _ _
theorem Aside.dropEntry (s : State) (line : Nat) : Aside s (s.dropEntry line) := by
  unfold State.dropEntry; exact Aside.onDie s _ _
theorem Aside.recall (s : State) (line : Nat) : Aside s (s.recall line) := by
  unfold State.recall; dsimp only
  exact Aside.ite (Aside.refl s) (((Aside.putEntry s _ _).trans (Aside.post _ _ _)).trans (Aside.post _ _ _))
theorem Aside.storeCheck (s : State) (line : Nat) : Aside s (s.storeCheck line) := by
  unfold State.storeCheck; dsimp only
  refine Aside.ite (Aside.refl s) (Aside.ite (Aside.refl s) ?_)
  split
  · exact Aside.ite ((Aside.putEntry s _ _).trans (Aside.recall _ _)) (Aside.dropEntry s _)
  · exact Aside.refl s
theorem Aside.useEntry (s : State) (line : Nat) (e : DirEntry) : Aside s (s.useEntry line e).2 :=
  Aside.onDie s (s.lineHome line) (fun d => { d with uses := (s.die (s.lineHome line)).uses + 1 })
theorem Aside.setEntry (s : State) (line : Nat) (e : DirEntry) : Aside s (s.setEntry line e) := by
  have h : Aside s (if e.used = 0 then s.useEntry line e else (e, s)).2 := by
    split
    · exact Aside.useEntry s line e
    · exact Aside.refl s
  exact (h.trans (Aside.putEntry _ _ _)).trans (Aside.storeCheck _ _)
theorem Aside.onEntry (s : State) (line : Nat) (f : DirEntry → DirEntry) : Aside s (s.onEntry line f) := Aside.setEntry s _ _

theorem mapGet_mem {α : Type} {m : List (Nat × α)} {k : Nat} {v : α} (h : mapGet m k = some v) : (k, v) ∈ m := by
  induction m with
  | nil => cases h
  | cons c t ih =>
    obtain ⟨a, w⟩ := c
    unfold mapGet at h
    split at h
    · rename_i e; subst e; cases h; exact List.mem_cons_self ..
    · exact List.mem_cons_of_mem _ (ih h)
theorem mapGet_mapDel_self {α : Type} (m : List (Nat × α)) (k : Nat) : mapGet (mapDel m k) k = none := by
  induction m with
  | nil => rfl
  | cons c t ih =>
    obtain ⟨a, w⟩ := c
    by_cases h : a = k
    · subst h; simpa [mapDel] using ih
    · have e : mapDel ((a, w) :: t) k = (a, w) :: mapDel t k := by simp [mapDel, h]
      rw [e, mapGet, if_neg h]; exact ih

/-- Where no line is cached under two keys, a line that leaves the caches has at most been written back: its latest bytes
stay what memory reads as (R44, R274). -/
theorem State.evictCopy_settled {s : State} (h : Settled s) (line key : Nat) :
    ∃ m, s.evictCopy line key = { s with hbm := m } ∧ ∀ x ∈ m, x ∈ s.hbm := by
  obtain ⟨h1, h2⟩ := h
  have hw : s.writeBack line key =
      if (s.hbmOf line key).dirty = true ∧ (mapGet s.lineKey line).getD key = key then { s with hbm := mapDel s.hbm line } else s := by
    unfold State.writeBack; rw [h1]; rfl
  have hd : ∀ x ∈ mapDel s.hbm line, x ∈ s.hbm := fun x hx => (List.mem_filter.mp hx).1
  have hr : ∀ t : State, mapGet t.hbm line = none → t.refetch line = t := by
    intro t ht; unfold State.refetch; rw [ht]
  cases hg : mapGet s.hbm line with
  | none =>
    have e : (s.hbmOf line key).dirty = false := by unfold State.hbmOf; rw [hg]; rfl
    have hw' : s.writeBack line key = s := by rw [hw, if_neg (fun c => by rw [e] at c; cases c.1)]
    unfold State.evictCopy
    rw [hw']
    dsimp only
    split
    · rw [hr s hg]; exact ⟨_, rfl, fun _ hx => hx⟩
    · exact ⟨_, rfl, fun _ hx => hx⟩
  | some x =>
    have e : (s.hbmOf line key).dirty = true := by unfold State.hbmOf; rw [hg]; exact h2 _ (mapGet_mem hg)
    by_cases hk : (mapGet s.lineKey line).getD key = key
    · have hw' : s.writeBack line key = { s with hbm := mapDel s.hbm line } := by rw [hw, if_pos ⟨e, hk⟩]
      unfold State.evictCopy
      rw [hw']
      exact ⟨_, (if_pos hk).trans (hr { s with hbm := mapDel s.hbm line } (mapGet_mapDel_self _ _)), hd⟩
    · have hw' : s.writeBack line key = s := by rw [hw, if_neg (fun c => hk c.2)]
      unfold State.evictCopy
      rw [hw', if_neg hk]
      exact ⟨_, rfl, fun _ hx => hx⟩
theorem Aside.evictCopy (s : State) (line key : Nat) : Aside s (s.evictCopy line key) := fun hr hs => by
  obtain ⟨m, e, hm⟩ := State.evictCopy_settled hs line key
  rw [e]
  exact Aside.of_core' rfl rfl rfl rfl rfl rfl rfl rfl ⟨_, rfl⟩ rfl (fun g => ⟨g.1, fun x hx => g.2 x (hm x hx)⟩) hr hs

theorem Aside.evictL2 (s : State) (d : Nat) (y : L2Line) : Aside s (s.evictL2 d y) := by
  unfold State.evictL2
  dsimp only
  refine Aside.trans (t := (s.cn :: s.others.map (·.1)).foldl (fun s c =>
    if dieOf c = d ∧ (s.coreOf c).ownsLine y.line then s.giveUpL1 c y.line else s) s)
    (Aside.foldl _ (fun s _ => Aside.ite (Aside.giveUpL1 s _ _) (Aside.refl s)) _ _) ?_
  generalize (s.cn :: s.others.map (·.1)).foldl _ s = t
  have hd := Aside.onDie t d (fun x => { x with
    l1floor := mapSet x.l1floor (t.slice y.line) (max ((mapGet x.l1floor (t.slice y.line)).getD 0) y.l1hz) })
  refine Aside.ite ?_ (hd.trans ?_)
  · have h1 := Aside.ite (c := (t.entry y.line).st = 3 ∧ (t.entry y.line).held = true ∧ (t.entry y.line).odie = d)
      (Aside.putEntry t y.line { t.entry y.line with held := false }) (Aside.refl t)
    have h := h1.trans (Aside.ite (c := (t.entry y.line).st = 2 ∨ (t.entry y.line).st = 3 ∧ (t.entry y.line).held = true ∧
      (t.entry y.line).odie ≠ d) (Aside.refl _) (Aside.evictCopy _ y.line y.key))
    exact Aside.ite (h.trans (Aside.storeCheck _ _)) h
  · exact Aside.ite (Aside.refl _) (Aside.ite (Aside.putEntry _ _ _) (Aside.ite (Aside.putEntry _ _ _) (Aside.refl _)))
theorem Aside.fillL2 (s : State) (d : Nat) (x : L2Line) : Aside s (s.fillL2 d x) :=
  (Aside.onDie s _ _).trans (Aside.foldl _ (fun s y => Aside.evictL2 s d y) _ _)
theorem Aside.fillL1 (s : State) (core : Nat) (code : Bool) (x : L1Line) : Aside s (s.fillL1 core code x) := by
  unfold State.fillL1
  dsimp only
  refine Aside.ite (Aside.onCore s _ _ (fun c => ⟨rfl, rfl, rfl, rfl, rfl, rfl, rfl, rfl, rfl, rfl, rfl, rfl⟩)) ?_
  have h := (Aside.onCore s core (fun c => { c with l1d := l1Put 8 (s.ptimeOf (dieOf core)) (s.coreOf core).l1d x })
    (fun c => ⟨rfl, rfl, rfl, rfl, rfl, rfl, rfl, rfl, rfl, rfl, rfl, rfl⟩)).trans
    (Aside.foldl (fun s y => s.onL2 (dieOf core) y.line (fun z => { z with core := none })) (fun s y => Aside.onL2 s _ y.line _)
      ((s.coreOf core).l1d.filter (fun y => y.owned &&
        !(l1Put 8 (s.ptimeOf (dieOf core)) (s.coreOf core).l1d x).any (fun z => z.line == y.line))) _)
  exact Aside.ite (h.trans (Aside.onL2 _ _ _ _)) h
theorem Aside.ownL1 (s : State) (core line : Nat) (p : Place) : Aside s (s.ownL1 core line p) := by
  unfold State.ownL1
  exact (Aside.fillL2 s _ _).trans (Aside.fillL1 _ _ _ _)

/-! ## The directory (R76 to R90) -/

theorem Aside.visit (s : State) (line : Nat) : Aside s (s.visit line) := by
  unfold State.visit; dsimp only; split
  · exact Aside.refl s
  · exact Aside.ite ((Aside.onDie s _ _).trans (Aside.putEntry _ _ _)) ((Aside.onDie s _ _).trans (Aside.putEntry _ _ _))
theorem Aside.askHost (s : State) (line : Nat) (own : Bool) : Aside s (s.askHost line own) :=
  Aside.ite (Aside.postOnce s _) (Aside.refl s)
theorem Aside.grant (s : State) (line d : Nat) : Aside s (s.grant line d).2 := by
  have hv := Aside.visit s line
  unfold State.grant
  dsimp only
  split
  · exact hv.trans (Aside.askHost _ _ _)
  · split
    · exact hv
    · split
      · exact hv.trans (Aside.setEntry _ _ _)
      · exact hv.trans (Aside.setEntry _ _ _)
theorem Aside.countL2 (s : State) (d line vfn : Nat) : Aside s (s.countL2 d line vfn) := Aside.count s _ _ _
theorem Aside.homeSlice (s : State) (line key vfn : Nat) : Aside s (s.homeSlice line key vfn) := by
  unfold State.homeSlice; dsimp only
  split
  · exact Aside.refl s
  · split
    · exact Aside.fillL2 s _ _
    · exact (Aside.countL2 s _ _ _).trans (Aside.fillL2 _ _ _)
theorem Aside.fillSlice (s : State) (d line key vfn : Nat) : Aside s (s.fillSlice d line key vfn).2 := by
  have hg : ∀ t : State, Aside t (if t.locked d = true then t.grant line d else (0, t.visit line)).2 := fun t => by
    split
    · exact Aside.grant t _ _
    · exact Aside.visit t _
  unfold State.fillSlice
  dsimp only
  split
  · split
    · exact Aside.fillL2 s _ _
    · split
      · exact Aside.fillL2 s _ _
      · have h := ((Aside.countL2 s d line vfn).trans (Aside.homeSlice _ line key vfn)).trans (hg _)
        exact Aside.ite h (h.trans (Aside.fillL2 _ _ _))
  · split
    · exact (Aside.countL2 s d line vfn).trans (Aside.fillL2 _ _ _)
    · have h := ((Aside.countL2 s d line vfn).trans (Aside.homeSlice _ line key vfn)).trans (hg _)
      exact Aside.ite h (h.trans (Aside.fillL2 _ _ _))
theorem Aside.readLine (s : State) (core line key vfn : Nat) (code : Bool) : Aside s (s.readLine core line key vfn code) := by
  unfold State.readLine
  dsimp only
  refine Aside.ite ?_ ?_
  · refine Aside.onCore s _ _ (fun c => ?_)
    cases code <;> exact ⟨rfl, rfl, rfl, rfl, rfl, rfl, rfl, rfl, rfl, rfl, rfl, rfl⟩
  · have h := (Aside.count s core (if code = true then 4 else 3) vfn).trans (Aside.fillSlice _ (dieOf core) line key vfn)
    refine Aside.ite ?_ (Aside.ite h ((h.trans (Aside.onL2 _ _ _ _)).trans (Aside.fillL1 _ _ _ _)))
    have h2 := h.trans (Aside.grant _ line (dieOf core))
    exact Aside.ite h2 (h2.trans (Aside.fillL1 _ _ _ _))
theorem Aside.sendCuts (s : State) (line keep vfn : Nat) : Aside s (s.sendCuts line keep vfn) := by
  unfold State.sendCuts
  dsimp only
  refine ((Aside.setEntry s line _).trans (Aside.foldl _ (fun s d => ?_) _ _)).trans (Aside.post _ _ _)
  exact (Aside.post s _ _).trans (Aside.count _ _ _ _)
theorem Aside.wak (s : State) (w : WakDst) (line vt : Nat) : Aside s (s.wak w line vt) := by
  unfold State.wak; split
  · exact Aside.refl s
  · exact Aside.post s _ _
theorem Aside.settle (s : State) (line d : Nat) (dst : WakDst) (vt : Nat) (cut : Bool) : Aside s (s.settle line d dst vt cut) :=
  Aside.ite (Aside.setEntry s _ _) (Aside.wak s _ _ _)
theorem Aside.snoopHost (s : State) (line : Nat) : Aside s (s.snoopHost line) :=
  Aside.ite ((Aside.setEntry s _ _).trans (Aside.post _ _ _)) (Aside.refl s)
theorem Aside.markLine (s : State) (line : Nat) (dst : WakDst) : Aside s (s.markLine line dst) := by
  unfold State.markLine; split
  · split
    · exact Aside.onEntry s _ _
    · exact Aside.refl s
  · exact Aside.refl s
theorem Aside.perform (s : State) (line d : Nat) (force : Bool) (dst : WakDst) : Aside s (s.perform line d force dst) := by
  unfold State.perform
  dsimp only
  have hv := (Aside.visit s line).trans (Aside.ite (c := WakDst.isHost dst = true) (Aside.refl (s.visit line)) (Aside.snoopHost _ line))
  refine Aside.ite (hv.trans (Aside.post _ _ _)) (Aside.ite ((hv.trans (Aside.recall _ _)).trans (Aside.onEntry _ _ _))
    (Aside.ite (hv.trans (Aside.settle _ _ _ _ _ _)) (Aside.ite ((hv.trans (Aside.askHost _ _ _)).trans (Aside.onEntry _ _ _))
      (hv.trans (Aside.trans ?_ (Aside.markLine _ _ _))))))
  exact Aside.ite (Aside.settle _ _ _ _ _ _)
    (Aside.ite ((Aside.sendCuts _ _ _ _).trans (Aside.settle _ _ _ _ _ _)) (Aside.settle _ _ _ _ _ _))
theorem Aside.serveOwn (s : State) (line : Nat) : Aside s (s.serveOwn line) := by
  unfold State.serveOwn
  dsimp only
  split
  · exact Aside.refl s
  · exact Aside.ite (Aside.setEntry s _ _) (Aside.ite (Aside.recall s _) (Aside.ite (Aside.postOnce s _)
      (Aside.ite (Aside.askHost s _ _) (Aside.ite (Aside.refl s) (Aside.ite (Aside.sendCuts s _ _ _) (Aside.once s _ _))))))
theorem Aside.holdReq (s : State) (line d : Nat) (ev : Event) : Aside s (s.holdReq line d ev) := by
  unfold State.holdReq; dsimp only
  exact Aside.ite (Aside.refl s) (Aside.setEntry s _ _)
theorem Aside.requestOwn (s : State) (line d : Nat) : Aside s (s.requestOwn line d) := by
  have hv := (Aside.visit s line).trans (Aside.ite (c := d = (s.visit line).lineHome line ∨ ((s.visit line).entry line).st = 2)
    (Aside.refl (s.visit line)) ((Aside.recallL1 _ 2048 line).trans (Aside.recallCluster _ ((s.visit line).lineHome line) line)))
  unfold State.requestOwn
  dsimp only
  exact Aside.ite hv (Aside.ite ((hv.trans (Aside.recall _ _)).trans (Aside.holdReq _ _ _ _))
    (Aside.ite ((hv.trans (Aside.setEntry _ _ _)).trans (Aside.serveOwn _ _)) (hv.trans (Aside.setEntry _ _ _))))

/-! ## A context's reads and writes -/

theorem Aside.onSlotTrk (s : State) (f : Slot → Slot)
    (hf : ∀ x, ∃ k m a b, f x = { x with trk := k, wseq := m, outStores := a, fcount := b }) : Aside s (s.onSlot f) := by
  intro h g
  have hr : RingsOff (s.onSlot f) := by
    intro n
    have e : ((s.onSlot f).coreOf n).dbg = (s.coreOf n).dbg := by
      unfold State.coreOf State.onSlot Core.onSlot
      dsimp only
      split <;> rfl
    rw [e]; exact h n
  refine { mem := rfl, tags := rfl, lineKey := rfl, bad := rfl, free := rfl, cn := rfl, res := rfl, cur := rfl, pad := rfl,
           padTags := rfl, padBad := rfl, slotx := rfl, slots := fun i => ?_, srng := rfl, grng := rfl, pkg := ⟨_, rfl⟩,
           pkgx := rfl, rings := hr, settled := g }
  unfold State.onSlot Core.onSlot Core.slot
  by_cases hi : s.core.cur = i
  · subst hi
    obtain ⟨k, m, a, b, e⟩ := hf s.core.slots[s.core.cur]
    exact ⟨k, m, a, b, by simpa using e⟩
  · have hv : s.core.cur.val ≠ i.val := fun e => hi (Fin.ext e)
    exact ⟨s.core.slots[i].trk, s.core.slots[i].wseq, s.core.slots[i].outStores, s.core.slots[i].fcount, by simp [hv]⟩

theorem Aside.newWrite (s : State) : Aside s s.newWrite.2 := Aside.onSlotTrk s _ (fun _ => ⟨_, _, _, _, rfl⟩)
theorem Aside.trackNow (s : State) (t : Nat) : Aside s (s.trackNow t) := Aside.onSlotTrk s _ (fun _ => ⟨_, _, _, _, rfl⟩)

theorem Aside.l1Use (s : State) (line : Nat) : Aside s (s.setCore { s.core with l1d := l1Use s.core.l1d line }) :=
  Aside.setCore s (fun c => { c with l1d := Machine.l1Use c.l1d line })
    (fun _ => ⟨rfl, rfl, rfl, rfl, rfl, rfl, rfl, rfl, rfl, rfl, rfl, rfl⟩)
theorem Aside.lineTouched (s : State) (core d line : Nat) : Aside s (s.lineTouched core d line) :=
  Aside.ite (Aside.refl s) (((Aside.recallL1 s _ _).trans (Aside.recallCluster _ _ _)).trans (Aside.recallCluster _ _ _))
theorem Aside.ownedWrite (s : State) (line : Nat) (w : WakDst) (e : Nat) : Aside s (s.ownedWrite line w e) :=
  (Aside.snoopHost s _).trans (Aside.settle _ _ _ _ _ _)
theorem Aside.writeSlice (s : State) (d line : Nat) (p : Place) : Aside s (s.writeSlice d line p) :=
  Aside.ite (Aside.fillSlice s _ _ _ _) (Aside.ite (Aside.refl s) (Aside.homeSlice s _ _ _))
theorem Aside.lineWrite (s : State) (line : Nat) (p : Place) (sc : Option Scope) (w : WakDst) : Aside s (s.lineWrite line p sc w) := by
  unfold State.lineWrite
  dsimp only
  refine Aside.ite (Aside.wak s _ _ _) (Aside.ite ((Aside.ownL1 s _ _ _).trans (Aside.wak _ _ _ _))
    (Aside.ite ((Aside.l1Use s line).trans (Aside.ownedWrite _ _ _ _)) ?_))
  split
  · exact Aside.ownedWrite s _ _ _
  · exact (((Aside.l1Use s line).trans (Aside.lineTouched _ _ _ _)).trans (Aside.writeSlice _ _ _ _)).trans (Aside.perform _ _ _ _ _)
theorem Aside.contextWrite (s : State) (sp : Span) (sc : Option Scope) : Aside s (s.contextWrite sp sc) := by
  unfold State.contextWrite
  refine Aside.foldl _ (fun s l => ?_) _ _
  have h := (Aside.newWrite s).trans (Aside.setCore s.newWrite.2 (fun c => { c with l1i := c.l1i.filter (fun y => y.line != l.1) })
    (fun _ => ⟨rfl, rfl, rfl, rfl, rfl, rfl, rfl, rfl, rfl, rfl, rfl, rfl⟩))
  exact h.trans (Aside.lineWrite _ _ _ _ _)
theorem Aside.contextRead (s : State) (sp : Span) (code : Bool) : Aside s (s.contextRead sp code) := by
  unfold State.contextRead
  refine Aside.foldl _ (fun s l => ?_) _ _
  exact Aside.ite (Aside.refl s) (Aside.ite (Aside.l1Use s _) (Aside.ite (Aside.ite (Aside.ownL1 s _ _ _) (Aside.refl s))
    ((Aside.ite (Aside.refl s) (Aside.lineTouched s _ _ _)).trans (Aside.readLine _ _ _ _ _ _))))
theorem Aside.countKmisses (s : State) (core : Nat) (sp : Span) : Aside s (s.countKmisses core sp) := by
  unfold State.countKmisses
  refine Aside.foldl _ (fun s e => ?_) _ _
  split
  · exact Aside.refl s
  · unfold State.countKmiss; exact (Aside.onCluster s _ _).trans (Aside.count _ _ _ _)
theorem Core.pay_keeps (c : Core) (v n : Nat) : (c.pay v n).res = c.res ∧ (c.pay v n).cur = c.cur ∧ (c.pay v n).pad = c.pad ∧
    (c.pay v n).padTags = c.padTags ∧ (c.pay v n).padBad = c.padBad ∧ (c.pay v n).slotx = c.slotx ∧
    (c.pay v n).slots = c.slots ∧ (c.pay v n).srng = c.srng ∧ (c.pay v n).grng = c.grng ∧
    (c.pay v n).dbg.note.ctl = c.dbg.note.ctl ∧ (c.pay v n).dbg.mlog.ctl = c.dbg.mlog.ctl ∧
    (c.pay v n).dbg.race.ctl = c.dbg.race.ctl := by
  unfold Core.pay; split <;> exact ⟨rfl, rfl, rfl, rfl, rfl, rfl, rfl, rfl, rfl, rfl, rfl, rfl⟩
theorem Aside.payLines (s : State) (sp : Span) (wr code : Bool) : Aside s (s.payLines sp wr code) :=
  Aside.ite (Aside.refl s) (Aside.setCore s (fun c => c.pay s.vfn (s.portLines s.cn sp wr code)) (fun c => Core.pay_keeps c _ _))
theorem Aside.viaTlb (s : State) (e : TlbEntry) : Aside s (viaTlb s e) :=
  Aside.setCore s (fun c => c.tlbUse e) (fun _ => ⟨rfl, rfl, rfl, rfl, rfl, rfl, rfl, rfl, rfl, rfl, rfl, rfl⟩)
theorem Aside.askLine (s : State) (line d : Nat) : Aside s (s.askLine line d) :=
  Aside.ite (Aside.recall s _) (Aside.askHost s _ _)
theorem Aside.askPoint (s : State) (p : Place) (line : Nat) (sc : Scope) (amo : Bool) : Aside s (s.askPoint p line sc amo) := by
  have hv := Aside.visit s line
  unfold State.askPoint
  dsimp only
  refine Aside.ite (hv.trans (Aside.askLine _ _ _)) ?_
  exact Aside.ite (Aside.ite (hv.trans (Aside.recall _ _)) (Aside.ite hv (hv.trans (Aside.sendCuts _ _ _ _))))
    (hv.trans (Aside.requestOwn _ _ _))
theorem Aside.takePoint (s : State) (p : Place) (line : Nat) (sc : Scope) : Aside s (s.takePoint p line sc) := by
  unfold State.takePoint
  dsimp only
  refine Aside.ite (Aside.refl s) (Aside.ite (Aside.lineTouched s _ _ _) ?_)
  split
  · exact Aside.ite (Aside.refl s) (((Aside.lineTouched s _ _ _).trans (Aside.fillSlice _ _ _ _ _)).trans (Aside.ownL1 _ _ _ _))
  · exact Aside.ite (Aside.refl s) (((Aside.lineTouched s _ _ _).trans (Aside.fillSlice _ _ _ _ _)).trans (Aside.onL2 _ _ _ _))
  · exact Aside.lineTouched s _ _ _
theorem Aside.acquireDrops (s : State) (line : Nat) (sc : Scope) : Aside s (s.acquireDrops line sc) :=
  Aside.ite (Aside.refl s) (Aside.setCore s (fun c => { c with l1d := c.l1d.filter (fun y => y.line != line || y.owned) })
    (fun _ => ⟨rfl, rfl, rfl, rfl, rfl, rfl, rfl, rfl, rfl, rfl, rfl, rfl⟩))

/-- An access to a page that is no device page reaches no device register. -/
theorem deviceOf_none {p : Place} {n : Nat} (h : p.dev = false) : deviceOf [(p, n)] = none := by
  simp [deviceOf, h]

/-- A global read of memory without an uncorrected error goes aside. -/
theorem Aside.getSpan (s : State) (sp : Span) (hd : deviceOf sp = none) (hb : s.bad = []) (hr : RingsOff s) (hs : Settled s) :
    Aside s (s.getSpan sp).2 := by
  have h1 := (Aside.contextRead s sp false).trans (Aside.countKmisses _ s.cn sp)
  unfold State.getSpan
  rw [hd]
  dsimp only
  have h2 : ((s.contextRead sp false).countKmisses s.cn sp).bad = [] := by rw [(h1 hr hs).bad, hb]
  have e : ((s.contextRead sp false).countKmisses s.cn sp).spanConsumed sp = (s.contextRead sp false).countKmisses s.cn sp := by
    unfold State.spanConsumed State.spanFault
    rw [h2]; rfl
  rw [e]; exact h1

/-! ## Completing an access -/

/-- The running context is the same but for its slots' trackers. -/
structure SameContext (s t : State) : Prop where
  ws : t.ws = s.ws
  cur : t.core.cur = s.core.cur
  slots : ∀ i, ∃ k m a b, t.core.slot i = { s.core.slot i with trk := k, wseq := m, outStores := a, fcount := b }
  srng : t.core.srng = s.core.srng
  grng : t.core.grng = s.core.grng

theorem AsideTo.context {s t : State} (h : AsideTo s t) : SameContext s t :=
  { ws := by unfold State.ws; rw [h.res], cur := h.cur, slots := h.slots, srng := h.srng, grng := h.grng }

theorem SameContext.nextPc {s t : State} (h : SameContext s t) : t.nextPc = s.nextPc := by
  have e : t.slot.line = s.slot.line := by
    unfold State.slot
    obtain ⟨_, _, _, _, hs⟩ := h.slots t.core.cur
    rw [hs, h.cur]
  unfold State.nextPc
  rw [h.ws, e]

theorem SameContext.icnt {s t : State} (h : SameContext s t) : t.slot.icnt = s.slot.icnt := by
  unfold State.slot
  obtain ⟨_, _, _, _, hs⟩ := h.slots t.core.cur
  rw [hs, h.cur]

/-- An access that has gone aside completes with its scalar destination (R244, R245, R261). -/
theorem SameContext.writes {s t : State} (h : SameContext s t) (d : SReg) (ks : List (Bool × SReg)) (y : Word) :
    Writes s (t.doneS d ks y) d ks y := by
  obtain ⟨e1, e2, e3, ⟨e4, e5, e6⟩, ⟨e7, e8, e9, e10, e11⟩, e12, e13, e14, -, e16, e17⟩ := doneS_plain t d ks y
  have hf : t.ws.fcsr ||| (0 : Flags).setWidth 14 = t.ws.fcsr := by simp
  refine ⟨?_, ⟨?_, ⟨?_, ?_, ?_⟩, ⟨?_, ?_, ?_, ?_, ?_⟩, ⟨?_, ?_, ?_, ?_⟩, ?_⟩, ?_, ?_, ?_⟩
  · intro r; rw [e1, h.ws]; simp only [SQ.s.injEq, eq_comm]
  · intro r; rw [e3, h.ws]
  · intro r; rw [e4, h.ws]
  · intro r; rw [e5, h.ws]
  · intro r; rw [e6, h.ws]
  · rw [e7, h.ws]
  · rw [e8, h.ws]
  · rw [e9, h.ws]
  · rw [e10, h.ws]
  · rw [e11, h.ws]
  · apply Vector.ext
    intro i hi
    have := e2 ⟨i, hi⟩
    simp only [reduceCtorEq, if_false] at this
    rw [h.ws] at this
    exact this
  · rw [e12, hf, h.ws]
  · rw [e13, h.srng]
  · rw [e14, h.grng]
  · intro i
    have hi := e16.1 i
    obtain ⟨_, _, _, _, hs⟩ := h.slots i
    rw [hs] at hi
    have g := fun {α : Type} (f : Slot → α) => congrArg f hi
    exact ⟨g Slot.fault, g Slot.tvec, g Slot.tctl, g Slot.tbud, g Slot.st, g Slot.wp⟩
  · rw [e17.1, h.nextPc]
  · exact e17.2.1
  · rw [e17.2.2, h.icnt]

theorem keepsBytes_doneS (t : State) (d : SReg) (ks : List (Bool × SReg)) (y : Word) : KeepsBytes t (t.doneS d ks y) := by
  obtain ⟨-, -, -, -, -, -, -, -, ⟨a, b, c, d, -, -⟩, -, -⟩ := doneS_plain t d ks y
  exact ⟨a, b, c, d⟩

theorem AsideTo.bytes {s t : State} (h : AsideTo s t) : KeepsBytes s t :=
  ⟨fun a => by rw [h.mem], fun o => by rw [h.pad], h.tags, h.padTags⟩
theorem KeepsBytes.trans {s t u : State} (h1 : KeepsBytes s t) (h2 : KeepsBytes t u) : KeepsBytes s u :=
  ⟨fun a => (h2.1 a).trans (h1.1 a), fun o => (h2.2.1 o).trans (h1.2.1 o), h2.2.2.1.trans h1.2.2.1, h2.2.2.2.trans h1.2.2.2⟩

end Sys2Proof.Machine
end

