-- ==== Sys2Proof/Laws/Encoding.lean ====
section
/-! SUPPORT. Lemmas about the encoder and the decoder: codes read back, the fields of the tail halfwords, a raw form read
back from its halfwords, and what the decoder answers for a raw form that passes every check. -/
namespace Sys2Proof

/-! ## Codes and fields -/

@[simp] theorem Width.ofCode_code (w : Width) : Width.ofCode w.code = w := by cases w <;> rfl
theorem Width.code_lt (w : Width) : w.code < 4 := by cases w <;> decide
@[simp] theorem IT.ofCode_code (t : IT) : IT.ofCode t.code = t := by rcases t with ⟨w, u⟩; cases w <;> cases u <;> rfl
theorem IT.code_lt (t : IT) : t.code < 8 := by rcases t with ⟨w, u⟩; cases w <;> cases u <;> decide
@[simp] theorem FC.ofCode_code (t : FC) : FC.ofCode t.code = t := by cases t <;> rfl
theorem FC.code_lt (t : FC) : t.code < 4 := by cases t <;> decide
@[simp] theorem Scope.ofCode_code (t : Scope) : Scope.ofCode t.code = t := by cases t <;> rfl
theorem Scope.code_lt (t : Scope) : t.code < 5 := by cases t <;> decide
@[simp] theorem RM.ofCode_code (t : RM) : RM.ofCode t.code = t := by cases t <;> rfl
theorem RM.code_lt (t : RM) : t.code < 8 := by cases t <;> decide
theorem RM.code_ne (t : RM) : t.code ≠ 5 ∧ t.code ≠ 6 := by cases t <;> decide
@[simp] theorem MemOrder.ofCode_code (t : MemOrder) : MemOrder.ofCode t.code = t := by cases t <;> rfl
theorem MemOrder.code_lt (t : MemOrder) : t.code < 4 := by cases t <;> decide
@[simp] theorem Fmt.ofCode_code (t : Fmt) : Fmt.ofCode t.code = t := by cases t <;> rfl
theorem Fmt.code_lt (t : Fmt) : t.code < 17 := by cases t <;> decide
theorem SQ.code_lt (a : SQ) : a.code < 32 := by cases a with | s r => exact r.isLt | q n => exact Nat.lt_trans n.isLt (by decide)
theorem VQ.code_lt (a : VQ) : a.code < 32 := by cases a with | v r => exact r.isLt | q n => exact Nat.lt_trans n.isLt (by decide)
theorem tail1_min {m a b : Nat} (ha : a < 32) (hb : b < 32) : tail1 m a b / 1024 = m := by unfold tail1; omega
theorem tail1_a {m a b : Nat} (ha : a < 32) (hb : b < 32) : tail1 m a b / 32 % 32 = a := by unfold tail1; omega
theorem tail1_b {m a b : Nat} (hb : b < 32) : tail1 m a b % 32 = b := by unfold tail1; omega
theorem tail1_lt {m a b : Nat} (hm : m < 64) (ha : a < 32) (hb : b < 32) : tail1 m a b < 65536 := by unfold tail1; omega
theorem oh_c {c : Nat} {la lb lc : Bool} {rmf g : Nat} (hc : c < 32) : operandHalf c la lb lc rmf g % 32 = c := by
  unfold operandHalf; cases la <;> cases lb <;> cases lc <;> simp <;> omega
theorem oh_la {c : Nat} {la lb lc : Bool} {rmf g : Nat} (hc : c < 32) : (operandHalf c la lb lc rmf g / 32 % 2 == 1) = la := by
  unfold operandHalf; cases la <;> cases lb <;> cases lc <;> simp <;> omega
theorem oh_lb {c : Nat} {la lb lc : Bool} {rmf g : Nat} (hc : c < 32) : (operandHalf c la lb lc rmf g / 64 % 2 == 1) = lb := by
  unfold operandHalf; cases la <;> cases lb <;> cases lc <;> simp <;> omega
theorem oh_lc {c : Nat} {la lb lc : Bool} {rmf g : Nat} (hc : c < 32) : (operandHalf c la lb lc rmf g / 128 % 2 == 1) = lc := by
  unfold operandHalf; cases la <;> cases lb <;> cases lc <;> simp <;> omega
theorem oh_rmf {c : Nat} {la lb lc : Bool} {rmf g : Nat} (hc : c < 32) (hr : rmf < 8) : operandHalf c la lb lc rmf g / 256 % 8 = rmf := by
  unfold operandHalf; cases la <;> cases lb <;> cases lc <;> simp <;> omega
theorem oh_g {c : Nat} {la lb lc : Bool} {rmf g : Nat} (hc : c < 32) (hr : rmf < 8) : operandHalf c la lb lc rmf g / 2048 = g := by
  unfold operandHalf; cases la <;> cases lb <;> cases lc <;> simp <;> omega
theorem oh_lt {c : Nat} {la lb lc : Bool} {rmf g : Nat} (hc : c < 32) (hr : rmf < 8) (hg : g < 32) : operandHalf c la lb lc rmf g < 65536 := by
  unfold operandHalf; cases la <;> cases lb <;> cases lc <;> simp <;> omega
theorem encReg_eq (maj d x t1 t2 : Nat) : encReg maj d x t1 t2 = encTL (if t2 = 0 then 1 else 2) maj d x t1 t2 0 0 := by
  unfold encReg enc2; split <;> simp_all
@[simp] theorem fin32_val (r : Fin 32) : fin32 r.val = r := by unfold fin32; ext; simp [Nat.mod_eq_of_lt r.isLt]
@[simp] theorem fin16_val (r : Fin 16) : fin16 r.val = r := by unfold fin16; ext; simp [Nat.mod_eq_of_lt r.isLt]
@[simp] theorem fin8_val (r : Fin 8) : fin8 r.val = r := by unfold fin8; ext; simp [Nat.mod_eq_of_lt r.isLt]
@[simp] theorem fin4_val (r : Fin 4) : fin4 r.val = r := by unfold fin4; ext; simp [Nat.mod_eq_of_lt r.isLt]
theorem qs_lt (a d : Bool) : b2 a + 2 * b2 d < 4 := by cases a <;> cases d <;> decide
theorem qs_qa (a d : Bool) : ((b2 a + 2 * b2 d) % 2 == 1) = a := by cases a <;> cases d <;> decide
theorem qs_qd (a d : Bool) : ((b2 a + 2 * b2 d) / 2 % 2 == 1) = d := by cases a <;> cases d <;> decide
theorem SQ.back (a : SQ) : (if a.isQ = true then SQ.q (fin8 a.code) else SQ.s (fin32 a.code)) = a := by cases a <;> simp [SQ.isQ, SQ.code]
theorem VQ.back (a : VQ) : (if a.isQ = true then VQ.q (fin8 a.code) else VQ.v (fin32 a.code)) = a := by cases a <;> simp [VQ.isQ, VQ.code]

theorem b2_lt (b : Bool) : b2 b < 2 := by cases b <;> decide
theorem maskG_lt (k : Mask) : maskG k = 0 ∨ (16 ≤ maskG k ∧ maskG k < 29 ∧ maskG k % 4 = 0) := by
  cases k with
  | none => exact .inl rfl
  | some n => right; have := n.isLt; unfold maskG; simp; omega
theorem Grp.base_lt (g : Grp) : g.base % 4 = 0 ∧ 4 ≤ g.base ∧ g.base < 32 := by have := g.isLt; unfold Grp.base; omega
theorem Pair.base_lt (p : Pair) : p.base % 2 = 0 ∧ 2 ≤ p.base ∧ p.base < 32 := by have := p.isLt; unfold Pair.base; omega
@[simp] theorem grpOf_base (g : Grp) : grpOf g.base = g := by
  have := g.isLt; ext; unfold grpOf Grp.base; dsimp; omega
@[simp] theorem pairOf_base (p : Pair) : pairOf p.base = p := by
  have := p.isLt; ext; unfold pairOf Pair.base; dsimp; omega
theorem CmpTy.x_lt (t : CmpTy) : t.x < 8 := by
  cases t with
  | flt f => exact Nat.lt_trans f.code_lt (by decide)
  | int t => exact t.code_lt
theorem CmpTy.c_lt (t : CmpTy) : t.c = 0 ∨ t.c = 8 := by cases t <;> simp [CmpTy.c]
theorem widthCodeOf_lt (n : Nat) : widthCodeOf n < 4 := by unfold widthCodeOf; split <;> omega

/-! ## Raw forms and their halfwords -/

/-- The fields of a raw form fit their bits, and the tail halfwords past its TL are zero (R221, R222). -/
def Raw.fits (r : Raw) : Prop :=
  (r.maj < 64 ∧ r.tl < 4 ∧ r.d < 32 ∧ r.x < 8) ∧ (r.t1 < 65536 ∧ r.t2 < 65536 ∧ r.t3 < 65536 ∧ r.t4 < 65536) ∧
  (r.tl = 0 → r.t1 = 0) ∧ (r.tl < 2 → r.t2 = 0) ∧ (r.tl < 3 → r.t3 = 0 ∧ r.t4 = 0)

/-- A raw form that fits is read back from its own halfwords (R221, R222). -/
theorem Raw.rawOf_halves (r : Raw) (h : r.fits) : rawOf r.head r.halves.tail = r := by
  obtain ⟨maj, tl, d, x, t1, t2, t3, t4⟩ := r
  obtain ⟨⟨hm, ht, hd, hx⟩, ⟨h1, h2, h3, h4⟩, z0, z1, z2⟩ := h
  simp only at *
  have hh : (maj * 1024 + tl * 256 + d * 8 + x) % 65536 = maj * 1024 + tl * 256 + d * 8 + x := by omega
  obtain rfl | rfl | rfl | rfl : tl = 0 ∨ tl = 1 ∨ tl = 2 ∨ tl = 3 := by omega
  all_goals simp [rawOf, Raw.head, Raw.halves, tailLen, hh, Nat.mod_eq_of_lt h1, Nat.mod_eq_of_lt h2, Nat.mod_eq_of_lt h3, Nat.mod_eq_of_lt h4]
  all_goals omega

theorem Raw.decode_halves (r : Raw) (h : r.fits) : decode r.head r.halves.tail = decodeRaw r := by
  rw [decode, r.rawOf_halves h]

theorem encode_eq (i : Instr) (r : Raw) (h : encodeRaw i = some r) : encode i = r.head :: r.halves.tail := by
  simp [encode, h, Raw.halves]

theorem enc2_fits {maj d x t1 t2 : Nat} (hm : maj < 64) (hd : d < 32) (hx : x < 8) (h1 : t1 < 65536) (h2 : t2 < 65536) :
    (enc2 maj d x t1 t2).fits := by
  refine ⟨⟨hm, by simp [enc2, encTL], hd, hx⟩, ⟨h1, h2, by simp [enc2, encTL], by simp [enc2, encTL]⟩, ?_, ?_, ?_⟩ <;> simp [enc2, encTL]
theorem encReg_fits {maj d x t1 t2 : Nat} (hm : maj < 64) (hd : d < 32) (hx : x < 8) (h1 : t1 < 65536) (h2 : t2 < 65536) :
    (encReg maj d x t1 t2).fits := by
  rw [encReg_eq]
  refine ⟨⟨hm, ?_, hd, hx⟩, ⟨h1, h2, by simp [encTL], by simp [encTL]⟩, ?_, ?_, ?_⟩ <;> simp [encTL] <;> split <;> simp_all
theorem encHead_fits {maj min : Nat} (hm : maj < 64) (hn : min < 8) : (encHead maj min).fits := by
  simp [encHead, encTL, Raw.fits, hm, hn]
theorem encTL_fits {tl maj d x t1 t2 t3 t4 : Nat} (ht : tl < 4) (hm : maj < 64) (hd : d < 32) (hx : x < 8) (h1 : t1 < 65536)
    (h2 : t2 < 65536) (h3 : t3 < 65536) (h4 : t4 < 65536) (z0 : tl = 0 → t1 = 0) (z1 : tl < 2 → t2 = 0)
    (z2 : tl < 3 → t3 = 0 ∧ t4 = 0) : (encTL tl maj d x t1 t2 t3 t4).fits :=
  ⟨⟨hm, ht, hd, hx⟩, ⟨h1, h2, h3, h4⟩, z0, z1, z2⟩
theorem encJump_fits {maj d x t1 : Nat} {g : Target} (hm : maj < 64) (hd : d < 32) (hx : x < 8) (h1 : t1 < 65536) :
    (encJump maj d x t1 g).fits := by
  have hh := g.head.isLt
  have hl := g.lofs.isLt
  unfold encJump
  split
  · exact enc2_fits hm hd hx h1 (by omega)
  · exact encTL_fits (by decide) hm hd hx h1 (by omega) (by omega) (by decide) (by simp) (by omega) (by omega)

/-! ## The decoder on a raw form that passes its checks (R236) -/

/-- The checks of R236 in their order let a raw form through to the instruction that its form builds. -/
theorem decodeRaw_ok {r : Raw} {fs : List Form} {f : Form} {i : Instr} (hf : formsOf r.maj = some fs)
    (hm : findForm fs r = some f) (ht : f.tlOk r = true) (hr : f.rsvdOk r = true) (hc : f.classOk r = true)
    (ho : f.operandOk r = true) (hb : f.build r = i) (hw : i.wf = true) : decodeRaw r = .ok i := by
  subst hb
  simp only [Instr.wf, Bool.and_eq_true] at hw
  simp [decodeRaw, hf, hm, ht, hr, hc, ho, hw.1, hw.2]

/-- A decoded instruction is well formed. -/
theorem decodeRaw_wf {r : Raw} {i : Instr} (h : decodeRaw r = .ok i) : i.wf = true := by
  unfold decodeRaw at h
  split at h
  · cases h
  · split at h
    · cases h
    · split at h
      · cases h
      · dsimp only at h
        split at h
        · cases h
        · split at h
          · cases h
          · split at h
            · cases h
            · rename_i h1 _ h2
              cases h
              simp only [Bool.not_eq_true, Bool.not_eq_false', Bool.and_eq_true] at h1 h2
              simp [Instr.wf, h1.2, h2.2]

theorem decode_wf {h : Half} {t : List Half} {i : Instr} (hd : decode h t = .ok i) : i.wf = true := decodeRaw_wf hd

/-! ## Targets (R225) -/

/-- A short target is read back. -/
theorem short_target (g : Target) (h : (g.lofs.setWidth 11).signExtend 27 = g.lofs) :
    (BitVec.ofNat 11 ((g.head.toNat + 32 * (g.lofs.toNat % 2048)) / 32)).signExtend 27 = g.lofs := by
  have : (g.head.toNat + 32 * (g.lofs.toNat % 2048)) / 32 = g.lofs.toNat % 2048 := by have := g.head.isLt; omega
  rw [this]
  conv => rhs; rw [← h]
  congr 1
  apply BitVec.eq_of_toNat_eq
  simp
theorem long_target (g : Target) :
    BitVec.ofNat 27 ((g.head.toNat + 32 * (g.lofs.toNat % 2048)) / 32 + g.lofs.toNat / 2048 * 2048) = g.lofs := by
  have h1 := g.head.isLt
  have h2 := g.lofs.isLt
  apply BitVec.eq_of_toNat_eq
  rw [BitVec.toNat_ofNat]
  omega
theorem head_target (g : Target) (k : Nat) : BitVec.ofNat 5 (g.head.toNat + 32 * k) = g.head := by
  have h1 := g.head.isLt
  apply BitVec.eq_of_toNat_eq
  rw [BitVec.toNat_ofNat]
  omega

end Sys2Proof
end

