-- ==== Sys2Proof/Laws/Lanes.lean ====
section
/-! SUPPORT. Lanes of vector values (R277, R278), and the whole effect of a lane-by-lane form. -/
namespace Sys2Proof.Machine

open Sys2Proof.Safety

theorem laneOf_eq (w : Nat) {n : Nat} (x : BitVec n) (i : Nat) : laneOf w x i = x.toNat / 2 ^ (i * w) % 2 ^ w := by
  unfold laneOf
  rw [BitVec.extractLsb'_toNat, Nat.shiftRight_eq_div_pow]

theorem splitLanes_length (w n x : Nat) : (splitLanes w n x).length = n := by
  induction n generalizing x with
  | zero => rfl
  | succ n ih => simp [splitLanes, ih]

theorem splitLanes_get (w n x i : Nat) (h : i < n) : (splitLanes w n x).getD i 0 = x / 2 ^ (i * w) % 2 ^ w := by
  induction n generalizing x i with
  | zero => omega
  | succ n ih =>
    cases i with
    | zero => simp [splitLanes]
    | succ i =>
      rw [splitLanes, List.getD_cons_succ, ih _ _ (by omega), Nat.div_div_eq_div_mul, ← Nat.pow_add]
      congr 3
      rw [Nat.add_mul, Nat.one_mul, Nat.add_comm]

theorem joinLanes_lt (w : Nat) (l : List Nat) : joinLanes w l < 2 ^ (l.length * w) := by
  induction l with
  | nil => simp [joinLanes]
  | cons x l ih =>
    have e : joinLanes w (x :: l) = x % 2 ^ w + joinLanes w l * 2 ^ w := rfl
    rw [e, List.length_cons, Nat.add_mul, Nat.one_mul, Nat.pow_add]
    have h1 : x % 2 ^ w < 2 ^ w := Nat.mod_lt _ (Nat.two_pow_pos w)
    calc x % 2 ^ w + joinLanes w l * 2 ^ w < 2 ^ w + joinLanes w l * 2 ^ w := by omega
      _ = (joinLanes w l + 1) * 2 ^ w := by rw [Nat.add_mul, Nat.one_mul, Nat.add_comm]
      _ ≤ 2 ^ (l.length * w) * 2 ^ w := Nat.mul_le_mul_right _ ih

theorem joinLanes_get (w : Nat) (l : List Nat) (i : Nat) (h : i < l.length) :
    joinLanes w l / 2 ^ (i * w) % 2 ^ w = l.getD i 0 % 2 ^ w := by
  induction l generalizing i with
  | nil => simp at h
  | cons x l ih =>
    have e : joinLanes w (x :: l) = x % 2 ^ w + joinLanes w l * 2 ^ w := rfl
    rw [e]
    cases i with
    | zero => simp
    | succ i =>
      rw [List.getD_cons_succ, ← ih i (by simpa using h), Nat.add_mul, Nat.one_mul, Nat.add_comm (i * w) w, Nat.pow_add,
        ← Nat.div_div_eq_div_mul]
      congr 2
      rw [Nat.add_mul_div_right _ _ (Nat.two_pow_pos w), Nat.div_eq_of_lt (Nat.mod_lt _ (Nat.two_pow_pos w)), Nat.zero_add]

/-- A lane of a value joined from lanes. -/
theorem laneOf_join (w : Nat) (l : List Nat) (hl : l.length * w ≤ 1024) (i : Nat) (h : i < l.length) :
    laneOf w (BitVec.ofNat 1024 (joinLanes w l)) i = l.getD i 0 % 2 ^ w := by
  have hb : joinLanes w l < 2 ^ 1024 := Nat.lt_of_lt_of_le (joinLanes_lt w l) (Nat.pow_le_pow_right (by decide) hl)
  rw [laneOf_eq, BitVec.toNat_ofNat, Nat.mod_eq_of_lt hb, joinLanes_get w l i h]

theorem laneOf_split (w n : Nat) (x : VWord) (i : Nat) (h : i < n) : (splitLanes w n x.toNat).getD i 0 = laneOf w x i := by
  rw [splitLanes_get w n _ i h, laneOf_eq]

theorem mapLanes_length (act : Nat → Bool) (old : List Nat) (f : Nat → Nat × Flags) (k : Nat) :
    (mapLanes act old f k).1.length = old.length := by
  induction old generalizing k with
  | nil => rfl
  | cons o t ih => rw [mapLanes]; dsimp only; split <;> simp [ih]

/-- A lane that `mapLanes` computes. -/
theorem mapLanes_get (act : Nat → Bool) (old : List Nat) (f : Nat → Nat × Flags) (k i : Nat) (h : i < old.length) :
    (mapLanes act old f k).1.getD i 0 = if act (k + i) then (f (k + i)).1 else old.getD i 0 := by
  induction old generalizing k i with
  | nil => simp at h
  | cons o t ih =>
    rw [mapLanes]
    dsimp only
    cases i with
    | zero => split <;> simp_all
    | succ i =>
      have := ih (k + 1) i (by simpa using h)
      have e : k + 1 + i = k + (i + 1) := by omega
      rw [e] at this
      split <;> simp only [List.getD_cons_succ, this]

theorem orAll_acc (l : Raised) (z : Flags) : l.foldl (fun f x => f ||| x.2) z = z ||| Raised.all l := by
  unfold Raised.all
  induction l generalizing z with
  | nil => simp
  | cons x l ih =>
    rw [List.foldl_cons, ih, List.foldl_cons, ih (0 ||| x.2)]
    simp [BitVec.or_assoc]
theorem Raised.all_cons (x : Nat × Flags) (l : Raised) : Raised.all (x :: l) = x.2 ||| Raised.all l := by
  show List.foldl _ _ _ = _
  rw [List.foldl_cons, orAll_acc]; simp

theorem orLanes_acc (f : Nat → Nat × Flags) (l : List Nat) (z : Flags) :
    l.foldl (fun x i => x ||| (f i).2) z = z ||| l.foldl (fun x i => x ||| (f i).2) 0 := by
  induction l generalizing z with
  | nil => simp
  | cons a l ih => rw [List.foldl_cons, ih, List.foldl_cons, ih (0 ||| (f a).2)]; simp [BitVec.or_assoc]

/-- The flags that `mapLanes` collects are those of the active lanes. -/
theorem mapLanes_flags (act : Nat → Bool) (old : List Nat) (f : Nat → Nat × Flags) (k : Nat) :
    Raised.all (mapLanes act old f k).2 = (((upto k old.length).filter act).foldl (fun x i => x ||| (f i).2) 0) := by
  induction old generalizing k with
  | nil => simp [mapLanes, Raised.all, upto]
  | cons o t ih =>
    have hu : upto k (o :: t).length = k :: upto (k + 1) t.length := by
      unfold upto
      rw [List.length_cons, List.range_succ_eq_map, List.map_cons, List.map_map]
      congr 1
      apply List.map_congr_left
      intro a _
      simp only [Function.comp]
      omega
    rw [mapLanes, hu]
    dsimp only
    by_cases ha : act k = true
    · rw [if_pos ha, List.filter_cons_of_pos ha, List.foldl_cons, orLanes_acc, ← ih]
      dsimp only
      split
      · rename_i h0; rw [h0]; simp
      · rw [Raised.all_cons]; simp
    · rw [if_neg ha, List.filter_cons_of_neg ha, ih]

/-- What `mapLanes` raises over all lanes. -/
theorem mapLanes_laneFlags (act : Nat → Bool) (w n : Nat) (x : VWord) (f : Nat → Nat × Flags) :
    Raised.all (mapLanes act (splitLanes w n x.toNat) f 0).2 = laneFlags act n f := by
  rw [mapLanes_flags, splitLanes_length]
  unfold laneFlags upto
  congr 2
  simp

theorem SameBut.oldV (s : State) (d : VQ) : SameBut s (s.oldV d).2 s.ws s.core.srng := by
  cases d with
  | v r => exact SameBut.refl s
  | q n => exact (SameBut.refl s).draw

/-- A lane-by-lane form whose operands are ready completes with its whole effect (R277 to R280). -/
theorem vectorOp_ok {s : State} {w : Nat} {k : Mask} {d a : VQ} {rs : List SReg} {vs : List (Bool × VReg)}
    {ss : List (Bool × SReg)} {f : Ws → Nat → Nat × Flags} (hw : 1024 / w * w ≤ 1024) (h : Ready s a.q? d.q? rs)
    (hq : LanesQuiet s w k (f s.ws)) :
    ∃ u, vectorOp s w k d a rs vs ss f = .ok u ∧ LaneEffect s u w k d a vs ss (f s.ws) := by
  unfold vectorOp
  rw [ready_ok h, ok_bind]
  dsimp only
  have ho := SameBut.oldV s d
  generalize hold : s.oldV d = o at ho
  obtain ⟨old, s'⟩ := o
  dsimp only at ho ⊢
  have hf := mapLanes_laneFlags (s.ws.active k (1024 / w)) w (1024 / w) old (f s.ws)
  have hws : s'.ws = s.ws := by obtain ⟨p, m, rfl⟩ := ho; rfl
  have hq' : Quiet s' (Raised.all (mapLanes (s.ws.active k (1024 / w)) (splitLanes w (1024 / w) old.toNat) (f s.ws) 0).2) := by
    rw [hf]; unfold Quiet; rw [hws]; exact hq
  rw [raiseFlags_ok hq', ok_bind, hf]
  have hb := ho.onWs (fun w' => w'.setFlags (laneFlags (s.ws.active k (1024 / w)) (1024 / w) (f s.ws)))
  refine ⟨_, rfl, _, doneVQ_effect hb d a vs ss _, ?_⟩
  intro i hi
  have hlen : (mapLanes (s.ws.active k (1024 / w)) (splitLanes w (1024 / w) old.toNat) (f s.ws) 0).1.length = 1024 / w := by
    rw [mapLanes_length, splitLanes_length]
  rw [laneOf_join _ _ (by rw [hlen]; exact hw) i (by rw [hlen]; exact hi),
    mapLanes_get _ _ _ _ _ (by rw [splitLanes_length]; exact hi), Nat.zero_add, laneOf_split _ _ _ _ hi, hold]
  split
  · rfl
  · exact Nat.mod_eq_of_lt (by rw [laneOf_eq]; exact Nat.mod_lt _ (Nat.two_pow_pos w))

end Sys2Proof.Machine
end

