-- ==== Sys2Proof/Laws/PerInstr.lean ====
section
/-! SUPPORT. One lemma for every constructor of Instr: the fields of its encoding fit (spec/09 R221, R222). -/
namespace Sys2Proof.Laws.Fits

/-- The raw form that the encoder gives an instruction fits its fields; an event has none. -/
def Statement (i : Instr) : Prop := ∀ r, encodeRaw i = some r → r.fits

theorem add (t : IT) (d : SQ) (a : SQ) (b : SReg) (la : Bool) (lb : Bool) : Statement (.add t d a b la lb) := fun _ h => by
  cases h; exact encReg_fits (by decide) (by have := d.code_lt; omega) (by have := t.code_lt; omega) (tail1_lt (by decide) (by have := a.code_lt; omega) (by have := b.isLt; omega)) (oh_lt (by decide) (by decide) (by have := b2_lt a.isQ; have := b2_lt d.isQ; omega))
theorem sub (t : IT) (d : SQ) (a : SQ) (b : SReg) (la : Bool) (lb : Bool) : Statement (.sub t d a b la lb) := fun _ h => by
  cases h; exact encReg_fits (by decide) (by have := d.code_lt; omega) (by have := t.code_lt; omega) (tail1_lt (by decide) (by have := a.code_lt; omega) (by have := b.isLt; omega)) (oh_lt (by decide) (by decide) (by have := b2_lt a.isQ; have := b2_lt d.isQ; omega))
theorem and (t : IT) (d : SQ) (a : SQ) (b : SReg) (la : Bool) (lb : Bool) : Statement (.and t d a b la lb) := fun _ h => by
  cases h; exact encReg_fits (by decide) (by have := d.code_lt; omega) (by have := t.code_lt; omega) (tail1_lt (by decide) (by have := a.code_lt; omega) (by have := b.isLt; omega)) (oh_lt (by decide) (by decide) (by have := b2_lt a.isQ; have := b2_lt d.isQ; omega))
theorem or (t : IT) (d : SQ) (a : SQ) (b : SReg) (la : Bool) (lb : Bool) : Statement (.or t d a b la lb) := fun _ h => by
  cases h; exact encReg_fits (by decide) (by have := d.code_lt; omega) (by have := t.code_lt; omega) (tail1_lt (by decide) (by have := a.code_lt; omega) (by have := b.isLt; omega)) (oh_lt (by decide) (by decide) (by have := b2_lt a.isQ; have := b2_lt d.isQ; omega))
theorem xor (t : IT) (d : SQ) (a : SQ) (b : SReg) (la : Bool) (lb : Bool) : Statement (.xor t d a b la lb) := fun _ h => by
  cases h; exact encReg_fits (by decide) (by have := d.code_lt; omega) (by have := t.code_lt; omega) (tail1_lt (by decide) (by have := a.code_lt; omega) (by have := b.isLt; omega)) (oh_lt (by decide) (by decide) (by have := b2_lt a.isQ; have := b2_lt d.isQ; omega))
theorem andn (t : IT) (d : SQ) (a : SQ) (b : SReg) (la : Bool) (lb : Bool) : Statement (.andn t d a b la lb) := fun _ h => by
  cases h; exact encReg_fits (by decide) (by have := d.code_lt; omega) (by have := t.code_lt; omega) (tail1_lt (by decide) (by have := a.code_lt; omega) (by have := b.isLt; omega)) (oh_lt (by decide) (by decide) (by have := b2_lt a.isQ; have := b2_lt d.isQ; omega))
theorem orn (t : IT) (d : SQ) (a : SQ) (b : SReg) (la : Bool) (lb : Bool) : Statement (.orn t d a b la lb) := fun _ h => by
  cases h; exact encReg_fits (by decide) (by have := d.code_lt; omega) (by have := t.code_lt; omega) (tail1_lt (by decide) (by have := a.code_lt; omega) (by have := b.isLt; omega)) (oh_lt (by decide) (by decide) (by have := b2_lt a.isQ; have := b2_lt d.isQ; omega))
theorem min (t : IT) (d : SQ) (a : SQ) (b : SReg) (la : Bool) (lb : Bool) : Statement (.min t d a b la lb) := fun _ h => by
  cases h; exact encReg_fits (by decide) (by have := d.code_lt; omega) (by have := t.code_lt; omega) (tail1_lt (by decide) (by have := a.code_lt; omega) (by have := b.isLt; omega)) (oh_lt (by decide) (by decide) (by have := b2_lt a.isQ; have := b2_lt d.isQ; omega))
theorem max (t : IT) (d : SQ) (a : SQ) (b : SReg) (la : Bool) (lb : Bool) : Statement (.max t d a b la lb) := fun _ h => by
  cases h; exact encReg_fits (by decide) (by have := d.code_lt; omega) (by have := t.code_lt; omega) (tail1_lt (by decide) (by have := a.code_lt; omega) (by have := b.isLt; omega)) (oh_lt (by decide) (by decide) (by have := b2_lt a.isQ; have := b2_lt d.isQ; omega))
theorem slt (t : IT) (d : SQ) (a : SQ) (b : SReg) (la : Bool) (lb : Bool) : Statement (.slt t d a b la lb) := fun _ h => by
  cases h; exact encReg_fits (by decide) (by have := d.code_lt; omega) (by have := t.code_lt; omega) (tail1_lt (by decide) (by have := a.code_lt; omega) (by have := b.isLt; omega)) (oh_lt (by decide) (by decide) (by have := b2_lt a.isQ; have := b2_lt d.isQ; omega))
theorem seq (t : IT) (d : SQ) (a : SQ) (b : SReg) (la : Bool) (lb : Bool) : Statement (.seq t d a b la lb) := fun _ h => by
  cases h; exact encReg_fits (by decide) (by have := d.code_lt; omega) (by have := t.code_lt; omega) (tail1_lt (by decide) (by have := a.code_lt; omega) (by have := b.isLt; omega)) (oh_lt (by decide) (by decide) (by have := b2_lt a.isQ; have := b2_lt d.isQ; omega))
theorem sne (t : IT) (d : SQ) (a : SQ) (b : SReg) (la : Bool) (lb : Bool) : Statement (.sne t d a b la lb) := fun _ h => by
  cases h; exact encReg_fits (by decide) (by have := d.code_lt; omega) (by have := t.code_lt; omega) (tail1_lt (by decide) (by have := a.code_lt; omega) (by have := b.isLt; omega)) (oh_lt (by decide) (by decide) (by have := b2_lt a.isQ; have := b2_lt d.isQ; omega))
theorem addi (t : IT) (d : SReg) (a : SReg) (imm : BitVec 16) : Statement (.addi t d a imm) := fun _ h => by
  cases h; exact enc2_fits (by decide) (by have := d.isLt; omega) (by have := t.code_lt; omega) (tail1_lt (by decide) (by have := a.isLt; omega) (by decide)) (by have := imm.isLt; omega)
theorem andi (t : IT) (d : SReg) (a : SReg) (imm : BitVec 16) : Statement (.andi t d a imm) := fun _ h => by
  cases h; exact enc2_fits (by decide) (by have := d.isLt; omega) (by have := t.code_lt; omega) (tail1_lt (by decide) (by have := a.isLt; omega) (by decide)) (by have := imm.isLt; omega)
theorem ori (t : IT) (d : SReg) (a : SReg) (imm : BitVec 16) : Statement (.ori t d a imm) := fun _ h => by
  cases h; exact enc2_fits (by decide) (by have := d.isLt; omega) (by have := t.code_lt; omega) (tail1_lt (by decide) (by have := a.isLt; omega) (by decide)) (by have := imm.isLt; omega)
theorem xori (t : IT) (d : SReg) (a : SReg) (imm : BitVec 16) : Statement (.xori t d a imm) := fun _ h => by
  cases h; exact enc2_fits (by decide) (by have := d.isLt; omega) (by have := t.code_lt; omega) (tail1_lt (by decide) (by have := a.isLt; omega) (by decide)) (by have := imm.isLt; omega)
theorem slti (t : IT) (d : SReg) (a : SReg) (imm : BitVec 16) : Statement (.slti t d a imm) := fun _ h => by
  cases h; exact enc2_fits (by decide) (by have := d.isLt; omega) (by have := t.code_lt; omega) (tail1_lt (by decide) (by have := a.isLt; omega) (by decide)) (by have := imm.isLt; omega)
theorem shli (t : IT) (d : SReg) (a : SReg) (n : BitVec 6) : Statement (.shli t d a n) := fun _ h => by
  cases h; exact enc2_fits (by decide) (by have := d.isLt; omega) (by have := t.code_lt; omega) (tail1_lt (by decide) (by have := a.isLt; omega) (by decide)) (by have := n.isLt; omega)
theorem shri (t : IT) (d : SReg) (a : SReg) (n : BitVec 6) : Statement (.shri t d a n) := fun _ h => by
  cases h; exact enc2_fits (by decide) (by have := d.isLt; omega) (by have := t.code_lt; omega) (tail1_lt (by decide) (by have := a.isLt; omega) (by decide)) (by have := n.isLt; omega)
theorem srai (t : IT) (d : SReg) (a : SReg) (n : BitVec 6) : Statement (.srai t d a n) := fun _ h => by
  cases h; exact enc2_fits (by decide) (by have := d.isLt; omega) (by have := t.code_lt; omega) (tail1_lt (by decide) (by have := a.isLt; omega) (by decide)) (by have := n.isLt; omega)
theorem li (d : SReg) (imm : BitVec 32) : Statement (.li d imm) := fun _ h => by
  cases h; exact encTL_fits (by decide) (by decide) (by have := d.isLt; omega) (by decide) (by have := imm.isLt; omega) (by have := imm.isLt; omega) (by decide) (by decide) (by simp) (by simp) (by simp)
theorem lih (d : SReg) (imm : BitVec 32) : Statement (.lih d imm) := fun _ h => by
  cases h; exact encTL_fits (by decide) (by decide) (by have := d.isLt; omega) (by decide) (by have := imm.isLt; omega) (by have := imm.isLt; omega) (by decide) (by decide) (by simp) (by simp) (by simp)
theorem liImm64 (d : SReg) (imm : BitVec 64) : Statement (.liImm64 d imm) := fun _ h => by
  cases h; exact encTL_fits (by decide) (by decide) (by have := d.isLt; omega) (by decide) (by have := imm.isLt; omega) (by have := imm.isLt; omega) (by have := imm.isLt; omega) (by have := imm.isLt; omega) (by simp) (by simp) (by simp)
theorem mul (t : IT) (d : SQ) (a : SQ) (b : SReg) (la : Bool) (lb : Bool) : Statement (.mul t d a b la lb) := fun _ h => by
  cases h; exact encReg_fits (by decide) (by have := d.code_lt; omega) (by have := t.code_lt; omega) (tail1_lt (by decide) (by have := a.code_lt; omega) (by have := b.isLt; omega)) (oh_lt (by decide) (by decide) (by have := b2_lt a.isQ; have := b2_lt d.isQ; omega))
theorem mulh (t : IT) (d : SQ) (a : SQ) (b : SReg) (la : Bool) (lb : Bool) : Statement (.mulh t d a b la lb) := fun _ h => by
  cases h; exact encReg_fits (by decide) (by have := d.code_lt; omega) (by have := t.code_lt; omega) (tail1_lt (by decide) (by have := a.code_lt; omega) (by have := b.isLt; omega)) (oh_lt (by decide) (by decide) (by have := b2_lt a.isQ; have := b2_lt d.isQ; omega))
theorem div (t : IT) (d : SQ) (a : SQ) (b : SReg) (la : Bool) (lb : Bool) : Statement (.div t d a b la lb) := fun _ h => by
  cases h; exact encReg_fits (by decide) (by have := d.code_lt; omega) (by have := t.code_lt; omega) (tail1_lt (by decide) (by have := a.code_lt; omega) (by have := b.isLt; omega)) (oh_lt (by decide) (by decide) (by have := b2_lt a.isQ; have := b2_lt d.isQ; omega))
theorem rem (t : IT) (d : SQ) (a : SQ) (b : SReg) (la : Bool) (lb : Bool) : Statement (.rem t d a b la lb) := fun _ h => by
  cases h; exact encReg_fits (by decide) (by have := d.code_lt; omega) (by have := t.code_lt; omega) (tail1_lt (by decide) (by have := a.code_lt; omega) (by have := b.isLt; omega)) (oh_lt (by decide) (by decide) (by have := b2_lt a.isQ; have := b2_lt d.isQ; omega))
theorem shl (t : IT) (d : SQ) (a : SQ) (b : SReg) (la : Bool) (lb : Bool) : Statement (.shl t d a b la lb) := fun _ h => by
  cases h; exact encReg_fits (by decide) (by have := d.code_lt; omega) (by have := t.code_lt; omega) (tail1_lt (by decide) (by have := a.code_lt; omega) (by have := b.isLt; omega)) (oh_lt (by decide) (by decide) (by have := b2_lt a.isQ; have := b2_lt d.isQ; omega))
theorem shr (t : IT) (d : SQ) (a : SQ) (b : SReg) (la : Bool) (lb : Bool) : Statement (.shr t d a b la lb) := fun _ h => by
  cases h; exact encReg_fits (by decide) (by have := d.code_lt; omega) (by have := t.code_lt; omega) (tail1_lt (by decide) (by have := a.code_lt; omega) (by have := b.isLt; omega)) (oh_lt (by decide) (by decide) (by have := b2_lt a.isQ; have := b2_lt d.isQ; omega))
theorem sra (t : IT) (d : SQ) (a : SQ) (b : SReg) (la : Bool) (lb : Bool) : Statement (.sra t d a b la lb) := fun _ h => by
  cases h; exact encReg_fits (by decide) (by have := d.code_lt; omega) (by have := t.code_lt; omega) (tail1_lt (by decide) (by have := a.code_lt; omega) (by have := b.isLt; omega)) (oh_lt (by decide) (by decide) (by have := b2_lt a.isQ; have := b2_lt d.isQ; omega))
theorem rot (t : IT) (d : SQ) (a : SQ) (b : SReg) (la : Bool) (lb : Bool) : Statement (.rot t d a b la lb) := fun _ h => by
  cases h; exact encReg_fits (by decide) (by have := d.code_lt; omega) (by have := t.code_lt; omega) (tail1_lt (by decide) (by have := a.code_lt; omega) (by have := b.isLt; omega)) (oh_lt (by decide) (by decide) (by have := b2_lt a.isQ; have := b2_lt d.isQ; omega))
theorem clz (t : IT) (d : SQ) (a : SQ) (la : Bool) : Statement (.clz t d a la) := fun _ h => by
  cases h; exact encReg_fits (by decide) (by have := d.code_lt; omega) (by have := t.code_lt; omega) (tail1_lt (by decide) (by have := a.code_lt; omega) (by decide)) (oh_lt (by decide) (by decide) (by have := b2_lt a.isQ; have := b2_lt d.isQ; omega))
theorem ctz (t : IT) (d : SQ) (a : SQ) (la : Bool) : Statement (.ctz t d a la) := fun _ h => by
  cases h; exact encReg_fits (by decide) (by have := d.code_lt; omega) (by have := t.code_lt; omega) (tail1_lt (by decide) (by have := a.code_lt; omega) (by decide)) (oh_lt (by decide) (by decide) (by have := b2_lt a.isQ; have := b2_lt d.isQ; omega))
theorem pop (t : IT) (d : SQ) (a : SQ) (la : Bool) : Statement (.pop t d a la) := fun _ h => by
  cases h; exact encReg_fits (by decide) (by have := d.code_lt; omega) (by have := t.code_lt; omega) (tail1_lt (by decide) (by have := a.code_lt; omega) (by decide)) (oh_lt (by decide) (by decide) (by have := b2_lt a.isQ; have := b2_lt d.isQ; omega))
theorem sext (t : IT) (d : SQ) (a : SQ) (la : Bool) : Statement (.sext t d a la) := fun _ h => by
  cases h; exact encReg_fits (by decide) (by have := d.code_lt; omega) (by have := t.code_lt; omega) (tail1_lt (by decide) (by have := a.code_lt; omega) (by decide)) (oh_lt (by decide) (by decide) (by have := b2_lt a.isQ; have := b2_lt d.isQ; omega))
theorem zext (t : IT) (d : SQ) (a : SQ) (la : Bool) : Statement (.zext t d a la) := fun _ h => by
  cases h; exact encReg_fits (by decide) (by have := d.code_lt; omega) (by have := t.code_lt; omega) (tail1_lt (by decide) (by have := a.code_lt; omega) (by decide)) (oh_lt (by decide) (by decide) (by have := b2_lt a.isQ; have := b2_lt d.isQ; omega))
theorem bext (t : IT) (d : SReg) (a : SReg) (pos : BitVec 6) (len1 : BitVec 6) : Statement (.bext t d a pos len1) := fun _ h => by
  cases h; exact enc2_fits (by decide) (by have := d.isLt; omega) (by have := t.code_lt; omega) (tail1_lt (by decide) (by have := a.isLt; omega) (by decide)) (by have := len1.isLt; have := pos.isLt; omega)
theorem bins (t : IT) (d : SReg) (a : SReg) (pos : BitVec 6) (len1 : BitVec 6) : Statement (.bins t d a pos len1) := fun _ h => by
  cases h; exact enc2_fits (by decide) (by have := d.isLt; omega) (by have := t.code_lt; omega) (tail1_lt (by decide) (by have := a.isLt; omega) (by decide)) (by have := len1.isLt; have := pos.isLt; omega)
theorem sel (t : IT) (d : SQ) (a : SQ) (b : SReg) (c : SReg) (la : Bool) (lb : Bool) (lc : Bool) : Statement (.sel t d a b c la lb lc) := fun _ h => by
  cases h; exact enc2_fits (by decide) (by have := d.code_lt; omega) (by have := t.code_lt; omega) (tail1_lt (by decide) (by have := a.code_lt; omega) (by have := b.isLt; omega)) (oh_lt (by have := c.isLt; omega) (by decide) (by have := b2_lt a.isQ; have := b2_lt d.isQ; omega))
theorem cbase (d : SReg) (a : CReg) (la : Bool) : Statement (.cbase d a la) := fun _ h => by
  cases h; exact enc2_fits (by decide) (by have := d.isLt; omega) (by decide) (tail1_lt (by decide) (by have := a.isLt; omega) (by decide)) (oh_lt (by decide) (by decide) (by decide))
theorem clen (d : SReg) (a : CReg) (la : Bool) : Statement (.clen d a la) := fun _ h => by
  cases h; exact enc2_fits (by decide) (by have := d.isLt; omega) (by decide) (tail1_lt (by decide) (by have := a.isLt; omega) (by decide)) (oh_lt (by decide) (by decide) (by decide))
theorem cgen (d : SReg) (a : CReg) (la : Bool) : Statement (.cgen d a la) := fun _ h => by
  cases h; exact enc2_fits (by decide) (by have := d.isLt; omega) (by decide) (tail1_lt (by decide) (by have := a.isLt; omega) (by decide)) (oh_lt (by decide) (by decide) (by decide))
theorem crights (d : SReg) (a : CReg) (la : Bool) : Statement (.crights d a la) := fun _ h => by
  cases h; exact enc2_fits (by decide) (by have := d.isLt; omega) (by decide) (tail1_lt (by decide) (by have := a.isLt; omega) (by decide)) (oh_lt (by decide) (by decide) (by decide))
theorem cnarrow (d : CReg) (a : CReg) (b : SReg) (c : SReg) (la : Bool) (lb : Bool) (lc : Bool) : Statement (.cnarrow d a b c la lb lc) := fun _ h => by
  cases h; exact enc2_fits (by decide) (by have := d.isLt; omega) (by decide) (tail1_lt (by decide) (by have := a.isLt; omega) (by have := b.isLt; omega)) (oh_lt (by have := c.isLt; omega) (by decide) (by decide))
theorem ccheck (d : SReg) (a : CReg) (b : SReg) (c : SReg) (la : Bool) (lb : Bool) (lc : Bool) : Statement (.ccheck d a b c la lb lc) := fun _ h => by
  cases h; exact enc2_fits (by decide) (by have := d.isLt; omega) (by decide) (tail1_lt (by decide) (by have := a.isLt; omega) (by have := b.isLt; omega)) (oh_lt (by have := c.isLt; omega) (by decide) (by decide))
theorem beq (t : IT) (a : SReg) (b : SReg) (tgt : Target) : Statement (.beq t a b tgt) := fun _ h => by
  cases h; exact encJump_fits (by decide) (by decide) (by have := t.code_lt; omega) (tail1_lt (by decide) (by have := a.isLt; omega) (by have := b.isLt; omega))
theorem bne (t : IT) (a : SReg) (b : SReg) (tgt : Target) : Statement (.bne t a b tgt) := fun _ h => by
  cases h; exact encJump_fits (by decide) (by decide) (by have := t.code_lt; omega) (tail1_lt (by decide) (by have := a.isLt; omega) (by have := b.isLt; omega))
theorem blt (t : IT) (a : SReg) (b : SReg) (tgt : Target) : Statement (.blt t a b tgt) := fun _ h => by
  cases h; exact encJump_fits (by decide) (by decide) (by have := t.code_lt; omega) (tail1_lt (by decide) (by have := a.isLt; omega) (by have := b.isLt; omega))
theorem bge (t : IT) (a : SReg) (b : SReg) (tgt : Target) : Statement (.bge t a b tgt) := fun _ h => by
  cases h; exact encJump_fits (by decide) (by decide) (by have := t.code_lt; omega) (tail1_lt (by decide) (by have := a.isLt; omega) (by have := b.isLt; omega))
theorem bz (t : IT) (a : SReg) (tgt : Target) : Statement (.bz t a tgt) := fun _ h => by
  cases h; exact encJump_fits (by decide) (by decide) (by have := t.code_lt; omega) (tail1_lt (by decide) (by have := a.isLt; omega) (by decide))
theorem bnz (t : IT) (a : SReg) (tgt : Target) : Statement (.bnz t a tgt) := fun _ h => by
  cases h; exact encJump_fits (by decide) (by decide) (by have := t.code_lt; omega) (tail1_lt (by decide) (by have := a.isLt; omega) (by decide))
theorem loop (t : IT) (d : SReg) (tgt : Target) : Statement (.loop t d tgt) := fun _ h => by
  cases h; exact encJump_fits (by decide) (by have := d.isLt; omega) (by have := t.code_lt; omega) (tail1_lt (by decide) (by decide) (by decide))
theorem br (tgt : Target) : Statement (.br tgt) := fun _ h => by
  cases h; exact encJump_fits (by decide) (by decide) (by decide) (tail1_lt (by decide) (by decide) (by decide))
theorem jmp (a : SReg) (la : Bool) : Statement (.jmp a la) := fun _ h => by
  cases h; exact encReg_fits (by decide) (by decide) (by decide) (tail1_lt (by decide) (by have := a.isLt; omega) (by decide)) (oh_lt (by decide) (by decide) (by decide))
theorem call (tgt : Target) : Statement (.call tgt) := fun _ h => by
  cases h; exact encJump_fits (by decide) (by decide) (by decide) (tail1_lt (by decide) (by decide) (by decide))
theorem callr (a : SReg) (la : Bool) : Statement (.callr a la) := fun _ h => by
  cases h; exact encReg_fits (by decide) (by decide) (by decide) (tail1_lt (by decide) (by have := a.isLt; omega) (by decide)) (oh_lt (by decide) (by decide) (by decide))
theorem fadd (f : FC) (rm : RM) (d : SQ) (a : SQ) (b : SReg) (la : Bool) (lb : Bool) : Statement (.fadd f rm d a b la lb) := fun _ h => by
  cases h; exact enc2_fits (by decide) (by have := d.code_lt; omega) (by have := f.code_lt; omega) (tail1_lt (by decide) (by have := a.code_lt; omega) (by have := b.isLt; omega)) (oh_lt (by decide) (by have := rm.code_lt; omega) (by have := b2_lt a.isQ; have := b2_lt d.isQ; omega))
theorem fsub (f : FC) (rm : RM) (d : SQ) (a : SQ) (b : SReg) (la : Bool) (lb : Bool) : Statement (.fsub f rm d a b la lb) := fun _ h => by
  cases h; exact enc2_fits (by decide) (by have := d.code_lt; omega) (by have := f.code_lt; omega) (tail1_lt (by decide) (by have := a.code_lt; omega) (by have := b.isLt; omega)) (oh_lt (by decide) (by have := rm.code_lt; omega) (by have := b2_lt a.isQ; have := b2_lt d.isQ; omega))
theorem fmul (f : FC) (rm : RM) (d : SQ) (a : SQ) (b : SReg) (la : Bool) (lb : Bool) : Statement (.fmul f rm d a b la lb) := fun _ h => by
  cases h; exact enc2_fits (by decide) (by have := d.code_lt; omega) (by have := f.code_lt; omega) (tail1_lt (by decide) (by have := a.code_lt; omega) (by have := b.isLt; omega)) (oh_lt (by decide) (by have := rm.code_lt; omega) (by have := b2_lt a.isQ; have := b2_lt d.isQ; omega))
theorem fdiv (f : FC) (rm : RM) (d : SQ) (a : SQ) (b : SReg) (la : Bool) (lb : Bool) : Statement (.fdiv f rm d a b la lb) := fun _ h => by
  cases h; exact enc2_fits (by decide) (by have := d.code_lt; omega) (by have := f.code_lt; omega) (tail1_lt (by decide) (by have := a.code_lt; omega) (by have := b.isLt; omega)) (oh_lt (by decide) (by have := rm.code_lt; omega) (by have := b2_lt a.isQ; have := b2_lt d.isQ; omega))
theorem fsqrt (f : FC) (rm : RM) (d : SQ) (a : SQ) (la : Bool) : Statement (.fsqrt f rm d a la) := fun _ h => by
  cases h; exact enc2_fits (by decide) (by have := d.code_lt; omega) (by have := f.code_lt; omega) (tail1_lt (by decide) (by have := a.code_lt; omega) (by decide)) (oh_lt (by decide) (by have := rm.code_lt; omega) (by have := b2_lt a.isQ; have := b2_lt d.isQ; omega))
theorem fmin (f : FC) (d : SQ) (a : SQ) (b : SReg) (la : Bool) (lb : Bool) : Statement (.fmin f d a b la lb) := fun _ h => by
  cases h; exact enc2_fits (by decide) (by have := d.code_lt; omega) (by have := f.code_lt; omega) (tail1_lt (by decide) (by have := a.code_lt; omega) (by have := b.isLt; omega)) (oh_lt (by decide) (by decide) (by have := b2_lt a.isQ; have := b2_lt d.isQ; omega))
theorem fmax (f : FC) (d : SQ) (a : SQ) (b : SReg) (la : Bool) (lb : Bool) : Statement (.fmax f d a b la lb) := fun _ h => by
  cases h; exact enc2_fits (by decide) (by have := d.code_lt; omega) (by have := f.code_lt; omega) (tail1_lt (by decide) (by have := a.code_lt; omega) (by have := b.isLt; omega)) (oh_lt (by decide) (by decide) (by have := b2_lt a.isQ; have := b2_lt d.isQ; omega))
theorem fcmp (f : FC) (d : SQ) (a : SQ) (b : SReg) (c : Fin 8) (la : Bool) (lb : Bool) : Statement (.fcmp f d a b c la lb) := fun _ h => by
  cases h; exact enc2_fits (by decide) (by have := d.code_lt; omega) (by have := f.code_lt; omega) (tail1_lt (by decide) (by have := a.code_lt; omega) (by have := b.isLt; omega)) (oh_lt (by have := c.isLt; omega) (by decide) (by have := b2_lt a.isQ; have := b2_lt d.isQ; omega))
theorem fclass (f : FC) (d : SQ) (a : SQ) (la : Bool) : Statement (.fclass f d a la) := fun _ h => by
  cases h; exact enc2_fits (by decide) (by have := d.code_lt; omega) (by have := f.code_lt; omega) (tail1_lt (by decide) (by have := a.code_lt; omega) (by decide)) (oh_lt (by decide) (by decide) (by have := b2_lt a.isQ; have := b2_lt d.isQ; omega))
theorem fma (f : FC) (rm : RM) (d : SQ) (a : SQ) (b : SReg) (c : SReg) (la : Bool) (lb : Bool) (lc : Bool) : Statement (.fma f rm d a b c la lb lc) := fun _ h => by
  cases h; exact enc2_fits (by decide) (by have := d.code_lt; omega) (by have := f.code_lt; omega) (tail1_lt (by decide) (by have := a.code_lt; omega) (by have := b.isLt; omega)) (oh_lt (by have := c.isLt; omega) (by have := rm.code_lt; omega) (by have := b2_lt a.isQ; have := b2_lt d.isQ; omega))
theorem fms (f : FC) (rm : RM) (d : SQ) (a : SQ) (b : SReg) (c : SReg) (la : Bool) (lb : Bool) (lc : Bool) : Statement (.fms f rm d a b c la lb lc) := fun _ h => by
  cases h; exact enc2_fits (by decide) (by have := d.code_lt; omega) (by have := f.code_lt; omega) (tail1_lt (by decide) (by have := a.code_lt; omega) (by have := b.isLt; omega)) (oh_lt (by have := c.isLt; omega) (by have := rm.code_lt; omega) (by have := b2_lt a.isQ; have := b2_lt d.isQ; omega))
theorem fcvt (rm : RM) (d : SQ) (a : SQ) (b : Fmt) (c : Fmt) (la : Bool) : Statement (.fcvt rm d a b c la) := fun _ h => by
  cases h; exact enc2_fits (by decide) (by have := d.code_lt; omega) (by decide) (tail1_lt (by decide) (by have := a.code_lt; omega) (by have := b.code_lt; omega)) (oh_lt (by have := c.code_lt; omega) (by have := rm.code_lt; omega) (by have := b2_lt a.isQ; have := b2_lt d.isQ; omega))
theorem ld (t : IT) (d : SReg) (a : SReg) (imm : BitVec 16) : Statement (.ld t d a imm) := fun _ h => by
  cases h; exact enc2_fits (by decide) (by have := d.isLt; omega) (by have := t.code_lt; omega) (tail1_lt (by decide) (by have := a.isLt; omega) (by decide)) (by have := imm.isLt; omega)
theorem ldThroughCap (t : IT) (d : SReg) (a : CReg) (imm : BitVec 16) : Statement (.ldThroughCap t d a imm) := fun _ h => by
  cases h; exact enc2_fits (by decide) (by have := d.isLt; omega) (by have := t.code_lt; omega) (tail1_lt (by decide) (by have := a.isLt; omega) (by decide)) (by have := imm.isLt; omega)
theorem ldCap (d : CReg) (a : SReg) (imm : BitVec 16) : Statement (.ldCap d a imm) := fun _ h => by
  cases h; exact enc2_fits (by decide) (by have := d.isLt; omega) (by decide) (tail1_lt (by decide) (by have := a.isLt; omega) (by decide)) (by have := imm.isLt; omega)
theorem st (t : IT) (d : SReg) (a : SReg) (imm : BitVec 16) : Statement (.st t d a imm) := fun _ h => by
  cases h; exact enc2_fits (by decide) (by have := d.isLt; omega) (by have := t.code_lt; omega) (tail1_lt (by decide) (by have := a.isLt; omega) (by decide)) (by have := imm.isLt; omega)
theorem stThroughCap (t : IT) (d : SReg) (a : CReg) (imm : BitVec 16) : Statement (.stThroughCap t d a imm) := fun _ h => by
  cases h; exact enc2_fits (by decide) (by have := d.isLt; omega) (by have := t.code_lt; omega) (tail1_lt (by decide) (by have := a.isLt; omega) (by decide)) (by have := imm.isLt; omega)
theorem stCap (d : CReg) (a : SReg) (imm : BitVec 16) : Statement (.stCap d a imm) := fun _ h => by
  cases h; exact enc2_fits (by decide) (by have := d.isLt; omega) (by decide) (tail1_lt (by decide) (by have := a.isLt; omega) (by decide)) (by have := imm.isLt; omega)
theorem ldl (t : IT) (d : SReg) (a : SReg) (imm : BitVec 16) : Statement (.ldl t d a imm) := fun _ h => by
  cases h; exact enc2_fits (by decide) (by have := d.isLt; omega) (by have := t.code_lt; omega) (tail1_lt (by decide) (by have := a.isLt; omega) (by decide)) (by have := imm.isLt; omega)
theorem stl (t : IT) (d : SReg) (a : SReg) (imm : BitVec 16) : Statement (.stl t d a imm) := fun _ h => by
  cases h; exact enc2_fits (by decide) (by have := d.isLt; omega) (by have := t.code_lt; omega) (tail1_lt (by decide) (by have := a.isLt; omega) (by decide)) (by have := imm.isLt; omega)
theorem ldAcq (sc : Scope) (t : IT) (d : SReg) (a : SReg) (la : Bool) : Statement (.ldAcq sc t d a la) := fun _ h => by
  cases h; exact enc2_fits (by decide) (by have := d.isLt; omega) (by have := sc.code_lt; omega) (tail1_lt (by decide) (by have := a.isLt; omega) (by decide)) (oh_lt (by decide) (by decide) (by have := t.code_lt; omega))
theorem stRel (sc : Scope) (t : IT) (d : SReg) (a : SReg) (la : Bool) : Statement (.stRel sc t d a la) := fun _ h => by
  cases h; exact enc2_fits (by decide) (by have := d.isLt; omega) (by have := sc.code_lt; omega) (tail1_lt (by decide) (by have := a.isLt; omega) (by decide)) (oh_lt (by decide) (by decide) (by have := t.code_lt; omega))
theorem amoAdd (sc : Scope) (o : MemOrder) (t : IT) (d : SReg) (a : SReg) (b : SReg) (la : Bool) (lb : Bool) : Statement (.amoAdd sc o t d a b la lb) := fun _ h => by
  cases h; exact enc2_fits (by decide) (by have := d.isLt; omega) (by have := sc.code_lt; omega) (tail1_lt (by decide) (by have := a.isLt; omega) (by have := b.isLt; omega)) (oh_lt (by decide) (by decide) (by have := o.code_lt; have := t.code_lt; omega))
theorem amoFadd (sc : Scope) (o : MemOrder) (t : IT) (d : SReg) (a : SReg) (b : SReg) (la : Bool) (lb : Bool) : Statement (.amoFadd sc o t d a b la lb) := fun _ h => by
  cases h; exact enc2_fits (by decide) (by have := d.isLt; omega) (by have := sc.code_lt; omega) (tail1_lt (by decide) (by have := a.isLt; omega) (by have := b.isLt; omega)) (oh_lt (by decide) (by decide) (by have := o.code_lt; have := t.code_lt; omega))
theorem amoMin (sc : Scope) (o : MemOrder) (t : IT) (d : SReg) (a : SReg) (b : SReg) (la : Bool) (lb : Bool) : Statement (.amoMin sc o t d a b la lb) := fun _ h => by
  cases h; exact enc2_fits (by decide) (by have := d.isLt; omega) (by have := sc.code_lt; omega) (tail1_lt (by decide) (by have := a.isLt; omega) (by have := b.isLt; omega)) (oh_lt (by decide) (by decide) (by have := o.code_lt; have := t.code_lt; omega))
theorem amoMax (sc : Scope) (o : MemOrder) (t : IT) (d : SReg) (a : SReg) (b : SReg) (la : Bool) (lb : Bool) : Statement (.amoMax sc o t d a b la lb) := fun _ h => by
  cases h; exact enc2_fits (by decide) (by have := d.isLt; omega) (by have := sc.code_lt; omega) (tail1_lt (by decide) (by have := a.isLt; omega) (by have := b.isLt; omega)) (oh_lt (by decide) (by decide) (by have := o.code_lt; have := t.code_lt; omega))
theorem amoAnd (sc : Scope) (o : MemOrder) (t : IT) (d : SReg) (a : SReg) (b : SReg) (la : Bool) (lb : Bool) : Statement (.amoAnd sc o t d a b la lb) := fun _ h => by
  cases h; exact enc2_fits (by decide) (by have := d.isLt; omega) (by have := sc.code_lt; omega) (tail1_lt (by decide) (by have := a.isLt; omega) (by have := b.isLt; omega)) (oh_lt (by decide) (by decide) (by have := o.code_lt; have := t.code_lt; omega))
theorem amoOr (sc : Scope) (o : MemOrder) (t : IT) (d : SReg) (a : SReg) (b : SReg) (la : Bool) (lb : Bool) : Statement (.amoOr sc o t d a b la lb) := fun _ h => by
  cases h; exact enc2_fits (by decide) (by have := d.isLt; omega) (by have := sc.code_lt; omega) (tail1_lt (by decide) (by have := a.isLt; omega) (by have := b.isLt; omega)) (oh_lt (by decide) (by decide) (by have := o.code_lt; have := t.code_lt; omega))
theorem amoXor (sc : Scope) (o : MemOrder) (t : IT) (d : SReg) (a : SReg) (b : SReg) (la : Bool) (lb : Bool) : Statement (.amoXor sc o t d a b la lb) := fun _ h => by
  cases h; exact enc2_fits (by decide) (by have := d.isLt; omega) (by have := sc.code_lt; omega) (tail1_lt (by decide) (by have := a.isLt; omega) (by have := b.isLt; omega)) (oh_lt (by decide) (by decide) (by have := o.code_lt; have := t.code_lt; omega))
theorem amoSwap (sc : Scope) (o : MemOrder) (t : IT) (d : SReg) (a : SReg) (b : SReg) (la : Bool) (lb : Bool) : Statement (.amoSwap sc o t d a b la lb) := fun _ h => by
  cases h; exact enc2_fits (by decide) (by have := d.isLt; omega) (by have := sc.code_lt; omega) (tail1_lt (by decide) (by have := a.isLt; omega) (by have := b.isLt; omega)) (oh_lt (by decide) (by decide) (by have := o.code_lt; have := t.code_lt; omega))
theorem amoCas (sc : Scope) (o : MemOrder) (t : IT) (d : SReg) (a : SReg) (b : SReg) (c : SReg) (la : Bool) (lb : Bool) (lc : Bool) : Statement (.amoCas sc o t d a b c la lb lc) := fun _ h => by
  cases h; exact enc2_fits (by decide) (by have := d.isLt; omega) (by have := sc.code_lt; omega) (tail1_lt (by decide) (by have := a.isLt; omega) (by have := b.isLt; omega)) (oh_lt (by have := c.isLt; omega) (by decide) (by have := o.code_lt; have := t.code_lt; omega))
theorem fence (sc : Scope) : Statement (.fence sc) := fun _ h => by
  cases h; exact encReg_fits (by decide) (by decide) (by have := sc.code_lt; omega) (tail1_lt (by decide) (by decide) (by decide)) (oh_lt (by decide) (by decide) (by decide))
theorem xfence (sc : Scope) (src : BitVec 6) (dst : BitVec 6) : Statement (.xfence sc src dst) := fun _ h => by
  cases h; exact enc2_fits (by decide) (by decide) (by have := sc.code_lt; omega) (tail1_lt (by decide) (by decide) (by decide)) (by have := dst.isLt; have := src.isLt; omega)
theorem prefL1 (a : SReg) (imm : BitVec 16) : Statement (.prefL1 a imm) := fun _ h => by
  cases h; exact enc2_fits (by decide) (by decide) (by decide) (tail1_lt (by decide) (by have := a.isLt; omega) (by decide)) (by have := imm.isLt; omega)
theorem prefL2 (a : SReg) (imm : BitVec 16) : Statement (.prefL2 a imm) := fun _ h => by
  cases h; exact enc2_fits (by decide) (by decide) (by decide) (tail1_lt (by decide) (by have := a.isLt; omega) (by decide)) (by have := imm.isLt; omega)
theorem flushl (a : SReg) (imm : BitVec 16) : Statement (.flushl a imm) := fun _ h => by
  cases h; exact enc2_fits (by decide) (by decide) (by decide) (tail1_lt (by decide) (by have := a.isLt; omega) (by decide)) (by have := imm.isLt; omega)
theorem drop (a : SReg) (imm : BitVec 16) : Statement (.drop a imm) := fun _ h => by
  cases h; exact enc2_fits (by decide) (by decide) (by decide) (tail1_lt (by decide) (by have := a.isLt; omega) (by decide)) (by have := imm.isLt; omega)
theorem vadd (f : FC) (rm : RM) (d : VQ) (a : VQ) (b : VReg) (la : Bool) (lb : Bool) (k : Mask) : Statement (.vadd f rm d a b la lb k) := fun _ h => by
  cases h; exact enc2_fits (by decide) (by have := d.code_lt; omega) (by have := f.code_lt; omega) (tail1_lt (by decide) (by have := a.code_lt; omega) (by have := b.isLt; omega)) (oh_lt (by decide) (by have := rm.code_lt; omega) (by have := maskG_lt k; have := b2_lt a.isQ; have := b2_lt d.isQ; omega))
theorem vsub (f : FC) (rm : RM) (d : VQ) (a : VQ) (b : VReg) (la : Bool) (lb : Bool) (k : Mask) : Statement (.vsub f rm d a b la lb k) := fun _ h => by
  cases h; exact enc2_fits (by decide) (by have := d.code_lt; omega) (by have := f.code_lt; omega) (tail1_lt (by decide) (by have := a.code_lt; omega) (by have := b.isLt; omega)) (oh_lt (by decide) (by have := rm.code_lt; omega) (by have := maskG_lt k; have := b2_lt a.isQ; have := b2_lt d.isQ; omega))
theorem vmul (f : FC) (rm : RM) (d : VQ) (a : VQ) (b : VReg) (la : Bool) (lb : Bool) (k : Mask) : Statement (.vmul f rm d a b la lb k) := fun _ h => by
  cases h; exact enc2_fits (by decide) (by have := d.code_lt; omega) (by have := f.code_lt; omega) (tail1_lt (by decide) (by have := a.code_lt; omega) (by have := b.isLt; omega)) (oh_lt (by decide) (by have := rm.code_lt; omega) (by have := maskG_lt k; have := b2_lt a.isQ; have := b2_lt d.isQ; omega))
theorem vdiv (f : FC) (rm : RM) (d : VQ) (a : VQ) (b : VReg) (la : Bool) (lb : Bool) (k : Mask) : Statement (.vdiv f rm d a b la lb k) := fun _ h => by
  cases h; exact enc2_fits (by decide) (by have := d.code_lt; omega) (by have := f.code_lt; omega) (tail1_lt (by decide) (by have := a.code_lt; omega) (by have := b.isLt; omega)) (oh_lt (by decide) (by have := rm.code_lt; omega) (by have := maskG_lt k; have := b2_lt a.isQ; have := b2_lt d.isQ; omega))
theorem vmin (f : FC) (d : VQ) (a : VQ) (b : VReg) (la : Bool) (lb : Bool) (k : Mask) : Statement (.vmin f d a b la lb k) := fun _ h => by
  cases h; exact enc2_fits (by decide) (by have := d.code_lt; omega) (by have := f.code_lt; omega) (tail1_lt (by decide) (by have := a.code_lt; omega) (by have := b.isLt; omega)) (oh_lt (by decide) (by decide) (by have := maskG_lt k; have := b2_lt a.isQ; have := b2_lt d.isQ; omega))
theorem vmax (f : FC) (d : VQ) (a : VQ) (b : VReg) (la : Bool) (lb : Bool) (k : Mask) : Statement (.vmax f d a b la lb k) := fun _ h => by
  cases h; exact enc2_fits (by decide) (by have := d.code_lt; omega) (by have := f.code_lt; omega) (tail1_lt (by decide) (by have := a.code_lt; omega) (by have := b.isLt; omega)) (oh_lt (by decide) (by decide) (by have := maskG_lt k; have := b2_lt a.isQ; have := b2_lt d.isQ; omega))
theorem vabs (f : FC) (d : VQ) (a : VQ) (la : Bool) (k : Mask) : Statement (.vabs f d a la k) := fun _ h => by
  cases h; exact enc2_fits (by decide) (by have := d.code_lt; omega) (by have := f.code_lt; omega) (tail1_lt (by decide) (by have := a.code_lt; omega) (by decide)) (oh_lt (by decide) (by decide) (by have := maskG_lt k; have := b2_lt a.isQ; have := b2_lt d.isQ; omega))
theorem vneg (f : FC) (d : VQ) (a : VQ) (la : Bool) (k : Mask) : Statement (.vneg f d a la k) := fun _ h => by
  cases h; exact enc2_fits (by decide) (by have := d.code_lt; omega) (by have := f.code_lt; omega) (tail1_lt (by decide) (by have := a.code_lt; omega) (by decide)) (oh_lt (by decide) (by decide) (by have := maskG_lt k; have := b2_lt a.isQ; have := b2_lt d.isQ; omega))
theorem vsqrt (f : FC) (rm : RM) (d : VQ) (a : VQ) (la : Bool) (k : Mask) : Statement (.vsqrt f rm d a la k) := fun _ h => by
  cases h; exact enc2_fits (by decide) (by have := d.code_lt; omega) (by have := f.code_lt; omega) (tail1_lt (by decide) (by have := a.code_lt; omega) (by decide)) (oh_lt (by decide) (by have := rm.code_lt; omega) (by have := maskG_lt k; have := b2_lt a.isQ; have := b2_lt d.isQ; omega))
theorem vfma (f : FC) (rm : RM) (d : VQ) (a : VQ) (b : VReg) (c : VReg) (la : Bool) (lb : Bool) (lc : Bool) (k : Mask) : Statement (.vfma f rm d a b c la lb lc k) := fun _ h => by
  cases h; exact enc2_fits (by decide) (by have := d.code_lt; omega) (by have := f.code_lt; omega) (tail1_lt (by decide) (by have := a.code_lt; omega) (by have := b.isLt; omega)) (oh_lt (by have := c.isLt; omega) (by have := rm.code_lt; omega) (by have := maskG_lt k; have := b2_lt a.isQ; have := b2_lt d.isQ; omega))
theorem vfms (f : FC) (rm : RM) (d : VQ) (a : VQ) (b : VReg) (c : VReg) (la : Bool) (lb : Bool) (lc : Bool) (k : Mask) : Statement (.vfms f rm d a b c la lb lc k) := fun _ h => by
  cases h; exact enc2_fits (by decide) (by have := d.code_lt; omega) (by have := f.code_lt; omega) (tail1_lt (by decide) (by have := a.code_lt; omega) (by have := b.isLt; omega)) (oh_lt (by have := c.isLt; omega) (by have := rm.code_lt; omega) (by have := maskG_lt k; have := b2_lt a.isQ; have := b2_lt d.isQ; omega))
theorem vfnma (f : FC) (rm : RM) (d : VQ) (a : VQ) (b : VReg) (c : VReg) (la : Bool) (lb : Bool) (lc : Bool) (k : Mask) : Statement (.vfnma f rm d a b c la lb lc k) := fun _ h => by
  cases h; exact enc2_fits (by decide) (by have := d.code_lt; omega) (by have := f.code_lt; omega) (tail1_lt (by decide) (by have := a.code_lt; omega) (by have := b.isLt; omega)) (oh_lt (by have := c.isLt; omega) (by have := rm.code_lt; omega) (by have := maskG_lt k; have := b2_lt a.isQ; have := b2_lt d.isQ; omega))
theorem vdot (f : FC) (rm : RM) (d : VQ) (a : VQ) (b : VReg) (c : VReg) (la : Bool) (lb : Bool) (lc : Bool) (k : Mask) : Statement (.vdot f rm d a b c la lb lc k) := fun _ h => by
  cases h; exact enc2_fits (by decide) (by have := d.code_lt; omega) (by have := f.code_lt; omega) (tail1_lt (by decide) (by have := a.code_lt; omega) (by have := b.isLt; omega)) (oh_lt (by have := c.isLt; omega) (by have := rm.code_lt; omega) (by have := maskG_lt k; have := b2_lt a.isQ; have := b2_lt d.isQ; omega))
theorem viadd (t : IT) (d : VQ) (a : VQ) (b : VReg) (la : Bool) (lb : Bool) (k : Mask) : Statement (.viadd t d a b la lb k) := fun _ h => by
  cases h; exact enc2_fits (by decide) (by have := d.code_lt; omega) (by have := t.code_lt; omega) (tail1_lt (by decide) (by have := a.code_lt; omega) (by have := b.isLt; omega)) (oh_lt (by decide) (by decide) (by have := maskG_lt k; have := b2_lt a.isQ; have := b2_lt d.isQ; omega))
theorem visub (t : IT) (d : VQ) (a : VQ) (b : VReg) (la : Bool) (lb : Bool) (k : Mask) : Statement (.visub t d a b la lb k) := fun _ h => by
  cases h; exact enc2_fits (by decide) (by have := d.code_lt; omega) (by have := t.code_lt; omega) (tail1_lt (by decide) (by have := a.code_lt; omega) (by have := b.isLt; omega)) (oh_lt (by decide) (by decide) (by have := maskG_lt k; have := b2_lt a.isQ; have := b2_lt d.isQ; omega))
theorem vimul (t : IT) (d : VQ) (a : VQ) (b : VReg) (la : Bool) (lb : Bool) (k : Mask) : Statement (.vimul t d a b la lb k) := fun _ h => by
  cases h; exact enc2_fits (by decide) (by have := d.code_lt; omega) (by have := t.code_lt; omega) (tail1_lt (by decide) (by have := a.code_lt; omega) (by have := b.isLt; omega)) (oh_lt (by decide) (by decide) (by have := maskG_lt k; have := b2_lt a.isQ; have := b2_lt d.isQ; omega))
theorem vand (t : IT) (d : VQ) (a : VQ) (b : VReg) (la : Bool) (lb : Bool) (k : Mask) : Statement (.vand t d a b la lb k) := fun _ h => by
  cases h; exact enc2_fits (by decide) (by have := d.code_lt; omega) (by have := t.code_lt; omega) (tail1_lt (by decide) (by have := a.code_lt; omega) (by have := b.isLt; omega)) (oh_lt (by decide) (by decide) (by have := maskG_lt k; have := b2_lt a.isQ; have := b2_lt d.isQ; omega))
theorem vor (t : IT) (d : VQ) (a : VQ) (b : VReg) (la : Bool) (lb : Bool) (k : Mask) : Statement (.vor t d a b la lb k) := fun _ h => by
  cases h; exact enc2_fits (by decide) (by have := d.code_lt; omega) (by have := t.code_lt; omega) (tail1_lt (by decide) (by have := a.code_lt; omega) (by have := b.isLt; omega)) (oh_lt (by decide) (by decide) (by have := maskG_lt k; have := b2_lt a.isQ; have := b2_lt d.isQ; omega))
theorem vxor (t : IT) (d : VQ) (a : VQ) (b : VReg) (la : Bool) (lb : Bool) (k : Mask) : Statement (.vxor t d a b la lb k) := fun _ h => by
  cases h; exact enc2_fits (by decide) (by have := d.code_lt; omega) (by have := t.code_lt; omega) (tail1_lt (by decide) (by have := a.code_lt; omega) (by have := b.isLt; omega)) (oh_lt (by decide) (by decide) (by have := maskG_lt k; have := b2_lt a.isQ; have := b2_lt d.isQ; omega))
theorem vshl (t : IT) (d : VQ) (a : VQ) (b : VReg) (la : Bool) (lb : Bool) (k : Mask) : Statement (.vshl t d a b la lb k) := fun _ h => by
  cases h; exact enc2_fits (by decide) (by have := d.code_lt; omega) (by have := t.code_lt; omega) (tail1_lt (by decide) (by have := a.code_lt; omega) (by have := b.isLt; omega)) (oh_lt (by decide) (by decide) (by have := maskG_lt k; have := b2_lt a.isQ; have := b2_lt d.isQ; omega))
theorem vshr (t : IT) (d : VQ) (a : VQ) (b : VReg) (la : Bool) (lb : Bool) (k : Mask) : Statement (.vshr t d a b la lb k) := fun _ h => by
  cases h; exact enc2_fits (by decide) (by have := d.code_lt; omega) (by have := t.code_lt; omega) (tail1_lt (by decide) (by have := a.code_lt; omega) (by have := b.isLt; omega)) (oh_lt (by decide) (by decide) (by have := maskG_lt k; have := b2_lt a.isQ; have := b2_lt d.isQ; omega))
theorem vsra (t : IT) (d : VQ) (a : VQ) (b : VReg) (la : Bool) (lb : Bool) (k : Mask) : Statement (.vsra t d a b la lb k) := fun _ h => by
  cases h; exact enc2_fits (by decide) (by have := d.code_lt; omega) (by have := t.code_lt; omega) (tail1_lt (by decide) (by have := a.code_lt; omega) (by have := b.isLt; omega)) (oh_lt (by decide) (by decide) (by have := maskG_lt k; have := b2_lt a.isQ; have := b2_lt d.isQ; omega))
theorem vcmp (ty : CmpTy) (d : KReg) (a : VQ) (b : VReg) (p : Fin 8) (la : Bool) (lb : Bool) (k : Mask) : Statement (.vcmp ty d a b p la lb k) := fun _ h => by
  cases h; exact enc2_fits (by decide) (by have := d.isLt; omega) (by have := ty.x_lt; omega) (tail1_lt (by decide) (by have := a.code_lt; omega) (by have := b.isLt; omega)) (oh_lt (by have := p.isLt; have := ty.c_lt; omega) (by decide) (by have := maskG_lt k; have := b2_lt a.isQ; omega))
theorem vsel (e : Width) (d : VQ) (a : VQ) (b : VReg) (c : KReg) (la : Bool) (lb : Bool) (lc : Bool) (k : Mask) : Statement (.vsel e d a b c la lb lc k) := fun _ h => by
  cases h; exact enc2_fits (by decide) (by have := d.code_lt; omega) (by have := e.code_lt; omega) (tail1_lt (by decide) (by have := a.code_lt; omega) (by have := b.isLt; omega)) (oh_lt (by have := c.isLt; omega) (by decide) (by have := maskG_lt k; have := b2_lt a.isQ; have := b2_lt d.isQ; omega))
theorem kand (d : KReg) (a : KReg) (b : KReg) (la : Bool) (lb : Bool) : Statement (.kand d a b la lb) := fun _ h => by
  cases h; exact enc2_fits (by decide) (by have := d.isLt; omega) (by decide) (tail1_lt (by decide) (by have := a.isLt; omega) (by have := b.isLt; omega)) (oh_lt (by decide) (by decide) (by decide))
theorem kor (d : KReg) (a : KReg) (b : KReg) (la : Bool) (lb : Bool) : Statement (.kor d a b la lb) := fun _ h => by
  cases h; exact enc2_fits (by decide) (by have := d.isLt; omega) (by decide) (tail1_lt (by decide) (by have := a.isLt; omega) (by have := b.isLt; omega)) (oh_lt (by decide) (by decide) (by decide))
theorem knot (d : KReg) (a : KReg) (la : Bool) : Statement (.knot d a la) := fun _ h => by
  cases h; exact enc2_fits (by decide) (by have := d.isLt; omega) (by decide) (tail1_lt (by decide) (by have := a.isLt; omega) (by decide)) (oh_lt (by decide) (by decide) (by decide))
theorem kpop (e : Width) (d : SReg) (a : KReg) (la : Bool) : Statement (.kpop e d a la) := fun _ h => by
  cases h; exact enc2_fits (by decide) (by have := d.isLt; omega) (by have := e.code_lt; omega) (tail1_lt (by decide) (by have := a.isLt; omega) (by decide)) (oh_lt (by decide) (by decide) (by decide))
theorem vexp (rm : RM) (d : VQ) (a : VQ) (la : Bool) (k : Mask) : Statement (.vexp rm d a la k) := fun _ h => by
  cases h; exact enc2_fits (by decide) (by have := d.code_lt; omega) (by decide) (tail1_lt (by decide) (by have := a.code_lt; omega) (by decide)) (oh_lt (by decide) (by have := rm.code_lt; omega) (by have := maskG_lt k; have := b2_lt a.isQ; have := b2_lt d.isQ; omega))
theorem vlog (rm : RM) (d : VQ) (a : VQ) (la : Bool) (k : Mask) : Statement (.vlog rm d a la k) := fun _ h => by
  cases h; exact enc2_fits (by decide) (by have := d.code_lt; omega) (by decide) (tail1_lt (by decide) (by have := a.code_lt; omega) (by decide)) (oh_lt (by decide) (by have := rm.code_lt; omega) (by have := maskG_lt k; have := b2_lt a.isQ; have := b2_lt d.isQ; omega))
theorem vrcp (rm : RM) (d : VQ) (a : VQ) (la : Bool) (k : Mask) : Statement (.vrcp rm d a la k) := fun _ h => by
  cases h; exact enc2_fits (by decide) (by have := d.code_lt; omega) (by decide) (tail1_lt (by decide) (by have := a.code_lt; omega) (by decide)) (oh_lt (by decide) (by have := rm.code_lt; omega) (by have := maskG_lt k; have := b2_lt a.isQ; have := b2_lt d.isQ; omega))
theorem vrsqrt (rm : RM) (d : VQ) (a : VQ) (la : Bool) (k : Mask) : Statement (.vrsqrt rm d a la k) := fun _ h => by
  cases h; exact enc2_fits (by decide) (by have := d.code_lt; omega) (by decide) (tail1_lt (by decide) (by have := a.code_lt; omega) (by decide)) (oh_lt (by decide) (by have := rm.code_lt; omega) (by have := maskG_lt k; have := b2_lt a.isQ; have := b2_lt d.isQ; omega))
theorem vtanh (rm : RM) (d : VQ) (a : VQ) (la : Bool) (k : Mask) : Statement (.vtanh rm d a la k) := fun _ h => by
  cases h; exact enc2_fits (by decide) (by have := d.code_lt; omega) (by decide) (tail1_lt (by decide) (by have := a.code_lt; omega) (by decide)) (oh_lt (by decide) (by have := rm.code_lt; omega) (by have := maskG_lt k; have := b2_lt a.isQ; have := b2_lt d.isQ; omega))
theorem vsigm (rm : RM) (d : VQ) (a : VQ) (la : Bool) (k : Mask) : Statement (.vsigm rm d a la k) := fun _ h => by
  cases h; exact enc2_fits (by decide) (by have := d.code_lt; omega) (by decide) (tail1_lt (by decide) (by have := a.code_lt; omega) (by decide)) (oh_lt (by decide) (by have := rm.code_lt; omega) (by have := maskG_lt k; have := b2_lt a.isQ; have := b2_lt d.isQ; omega))
theorem verf (rm : RM) (d : VQ) (a : VQ) (la : Bool) (k : Mask) : Statement (.verf rm d a la k) := fun _ h => by
  cases h; exact enc2_fits (by decide) (by have := d.code_lt; omega) (by decide) (tail1_lt (by decide) (by have := a.code_lt; omega) (by decide)) (oh_lt (by decide) (by have := rm.code_lt; omega) (by have := maskG_lt k; have := b2_lt a.isQ; have := b2_lt d.isQ; omega))
theorem vphi (rm : RM) (d : VQ) (a : VQ) (la : Bool) (k : Mask) : Statement (.vphi rm d a la k) := fun _ h => by
  cases h; exact enc2_fits (by decide) (by have := d.code_lt; omega) (by decide) (tail1_lt (by decide) (by have := a.code_lt; omega) (by decide)) (oh_lt (by decide) (by have := rm.code_lt; omega) (by have := maskG_lt k; have := b2_lt a.isQ; have := b2_lt d.isQ; omega))
theorem vpdf (rm : RM) (d : VQ) (a : VQ) (la : Bool) (k : Mask) : Statement (.vpdf rm d a la k) := fun _ h => by
  cases h; exact enc2_fits (by decide) (by have := d.code_lt; omega) (by decide) (tail1_lt (by decide) (by have := a.code_lt; omega) (by decide)) (oh_lt (by decide) (by have := rm.code_lt; omega) (by have := maskG_lt k; have := b2_lt a.isQ; have := b2_lt d.isQ; omega))
theorem vcvt (part : Fin 8) (rm : RM) (d : VQ) (a : VQ) (b : Fmt) (c : Fmt) (la : Bool) (k : Mask) : Statement (.vcvt part rm d a b c la k) := fun _ h => by
  cases h; exact enc2_fits (by decide) (by have := d.code_lt; omega) (by have := part.isLt; omega) (tail1_lt (by decide) (by have := a.code_lt; omega) (by have := b.code_lt; omega)) (oh_lt (by have := c.code_lt; omega) (by have := rm.code_lt; omega) (by have := maskG_lt k; have := b2_lt a.isQ; have := b2_lt d.isQ; omega))
theorem vscalePack (rm : RM) (d : VQ) (a : VQ) (b : SReg) (c : Fmt) (la : Bool) (lb : Bool) : Statement (.vscalePack rm d a b c la lb) := fun _ h => by
  cases h; exact enc2_fits (by decide) (by have := d.code_lt; omega) (by decide) (tail1_lt (by decide) (by have := a.code_lt; omega) (by have := b.isLt; omega)) (oh_lt (by have := c.code_lt; omega) (by have := rm.code_lt; omega) (by have := b2_lt a.isQ; have := b2_lt d.isQ; omega))
theorem vscaleUnpack (d : VQ) (a : VQ) (b : SReg) (c : Fmt) (la : Bool) (lb : Bool) : Statement (.vscaleUnpack d a b c la lb) := fun _ h => by
  cases h; exact enc2_fits (by decide) (by have := d.code_lt; omega) (by decide) (tail1_lt (by decide) (by have := a.code_lt; omega) (by have := b.isLt; omega)) (oh_lt (by have := c.code_lt; omega) (by decide) (by have := b2_lt a.isQ; have := b2_lt d.isQ; omega))
theorem vredsum (d : SReg) (a : VQ) (c : Fmt) (la : Bool) (k : Mask) : Statement (.vredsum d a c la k) := fun _ h => by
  cases h; exact enc2_fits (by decide) (by have := d.isLt; omega) (by have := widthCodeOf_lt c.bits; omega) (tail1_lt (by decide) (by have := a.code_lt; omega) (by decide)) (oh_lt (by have := c.code_lt; omega) (by decide) (by have := maskG_lt k; have := b2_lt a.isQ; omega))
theorem vredmax (d : SReg) (a : VQ) (c : Fmt) (la : Bool) (k : Mask) : Statement (.vredmax d a c la k) := fun _ h => by
  cases h; exact enc2_fits (by decide) (by have := d.isLt; omega) (by have := widthCodeOf_lt c.bits; omega) (tail1_lt (by decide) (by have := a.code_lt; omega) (by decide)) (oh_lt (by have := c.code_lt; omega) (by decide) (by have := maskG_lt k; have := b2_lt a.isQ; omega))
theorem vredmin (d : SReg) (a : VQ) (c : Fmt) (la : Bool) (k : Mask) : Statement (.vredmin d a c la k) := fun _ h => by
  cases h; exact enc2_fits (by decide) (by have := d.isLt; omega) (by have := widthCodeOf_lt c.bits; omega) (tail1_lt (by decide) (by have := a.code_lt; omega) (by decide)) (oh_lt (by have := c.code_lt; omega) (by decide) (by have := maskG_lt k; have := b2_lt a.isQ; omega))
theorem vperm (e : Width) (d : VQ) (a : VQ) (b : VReg) (la : Bool) (lb : Bool) (k : Mask) : Statement (.vperm e d a b la lb k) := fun _ h => by
  cases h; exact enc2_fits (by decide) (by have := d.code_lt; omega) (by have := e.code_lt; omega) (tail1_lt (by decide) (by have := a.code_lt; omega) (by have := b.isLt; omega)) (oh_lt (by decide) (by decide) (by have := maskG_lt k; have := b2_lt a.isQ; have := b2_lt d.isQ; omega))
theorem vbcast (e : Width) (d : VQ) (a : SReg) (la : Bool) (k : Mask) : Statement (.vbcast e d a la k) := fun _ h => by
  cases h; exact enc2_fits (by decide) (by have := d.code_lt; omega) (by have := e.code_lt; omega) (tail1_lt (by decide) (by have := a.isLt; omega) (by decide)) (oh_lt (by decide) (by decide) (by have := maskG_lt k; have := b2_lt d.isQ; omega))
theorem vslide (e : Width) (d : VQ) (a : VQ) (b : SReg) (la : Bool) (lb : Bool) (k : Mask) : Statement (.vslide e d a b la lb k) := fun _ h => by
  cases h; exact enc2_fits (by decide) (by have := d.code_lt; omega) (by have := e.code_lt; omega) (tail1_lt (by decide) (by have := a.code_lt; omega) (by have := b.isLt; omega)) (oh_lt (by decide) (by decide) (by have := maskG_lt k; have := b2_lt a.isQ; have := b2_lt d.isQ; omega))
theorem vext (e : Width) (d : SReg) (a : VQ) (b : SReg) (la : Bool) (lb : Bool) : Statement (.vext e d a b la lb) := fun _ h => by
  cases h; exact enc2_fits (by decide) (by have := d.isLt; omega) (by have := e.code_lt; omega) (tail1_lt (by decide) (by have := a.code_lt; omega) (by have := b.isLt; omega)) (oh_lt (by decide) (by decide) (by have := b2_lt a.isQ; omega))
theorem vins (e : Width) (d : VQ) (a : SReg) (b : SReg) (la : Bool) (lb : Bool) : Statement (.vins e d a b la lb) := fun _ h => by
  cases h; exact enc2_fits (by decide) (by have := d.code_lt; omega) (by have := e.code_lt; omega) (tail1_lt (by decide) (by have := a.isLt; omega) (by have := b.isLt; omega)) (oh_lt (by decide) (by decide) (by have := b2_lt d.isQ; omega))
theorem vld (e : Width) (d : VReg) (a : SReg) (la : Bool) (k : Mask) : Statement (.vld e d a la k) := fun _ h => by
  cases h; exact enc2_fits (by decide) (by have := d.isLt; omega) (by have := e.code_lt; omega) (tail1_lt (by decide) (by have := a.isLt; omega) (by decide)) (oh_lt (by decide) (by decide) (by have := maskG_lt k; omega))
theorem vst (e : Width) (d : VReg) (a : SReg) (la : Bool) (k : Mask) : Statement (.vst e d a la k) := fun _ h => by
  cases h; exact enc2_fits (by decide) (by have := d.isLt; omega) (by have := e.code_lt; omega) (tail1_lt (by decide) (by have := a.isLt; omega) (by decide)) (oh_lt (by decide) (by decide) (by have := maskG_lt k; omega))
theorem vlds (e : Width) (d : VReg) (a : SReg) (b : SReg) (la : Bool) (lb : Bool) (k : Mask) : Statement (.vlds e d a b la lb k) := fun _ h => by
  cases h; exact enc2_fits (by decide) (by have := d.isLt; omega) (by have := e.code_lt; omega) (tail1_lt (by decide) (by have := a.isLt; omega) (by have := b.isLt; omega)) (oh_lt (by decide) (by decide) (by have := maskG_lt k; omega))
theorem vsts (e : Width) (d : VReg) (a : SReg) (b : SReg) (la : Bool) (lb : Bool) (k : Mask) : Statement (.vsts e d a b la lb k) := fun _ h => by
  cases h; exact enc2_fits (by decide) (by have := d.isLt; omega) (by have := e.code_lt; omega) (tail1_lt (by decide) (by have := a.isLt; omega) (by have := b.isLt; omega)) (oh_lt (by decide) (by decide) (by have := maskG_lt k; omega))
theorem vgather (e : Width) (d : VReg) (a : SReg) (b : VReg) (c : Fin 4) (la : Bool) (lb : Bool) (k : Mask) : Statement (.vgather e d a b c la lb k) := fun _ h => by
  cases h; exact enc2_fits (by decide) (by have := d.isLt; omega) (by have := e.code_lt; omega) (tail1_lt (by decide) (by have := a.isLt; omega) (by have := b.isLt; omega)) (oh_lt (by have := c.isLt; omega) (by decide) (by have := maskG_lt k; omega))
theorem vscatter (e : Width) (d : VReg) (a : SReg) (b : VReg) (c : Fin 4) (la : Bool) (lb : Bool) (k : Mask) : Statement (.vscatter e d a b c la lb k) := fun _ h => by
  cases h; exact enc2_fits (by decide) (by have := d.isLt; omega) (by have := e.code_lt; omega) (tail1_lt (by decide) (by have := a.isLt; omega) (by have := b.isLt; omega)) (oh_lt (by have := c.isLt; omega) (by decide) (by have := maskG_lt k; omega))
theorem vldl (e : Width) (d : VReg) (a : SReg) (la : Bool) (k : Mask) : Statement (.vldl e d a la k) := fun _ h => by
  cases h; exact enc2_fits (by decide) (by have := d.isLt; omega) (by have := e.code_lt; omega) (tail1_lt (by decide) (by have := a.isLt; omega) (by decide)) (oh_lt (by decide) (by decide) (by have := maskG_lt k; omega))
theorem vstl (e : Width) (d : VReg) (a : SReg) (la : Bool) (k : Mask) : Statement (.vstl e d a la k) := fun _ h => by
  cases h; exact enc2_fits (by decide) (by have := d.isLt; omega) (by have := e.code_lt; omega) (tail1_lt (by decide) (by have := a.isLt; omega) (by decide)) (oh_lt (by decide) (by decide) (by have := maskG_lt k; omega))
theorem vgatherl (e : Width) (d : VReg) (a : SReg) (b : VReg) (c : Fin 4) (la : Bool) (lb : Bool) (k : Mask) : Statement (.vgatherl e d a b c la lb k) := fun _ h => by
  cases h; exact enc2_fits (by decide) (by have := d.isLt; omega) (by have := e.code_lt; omega) (tail1_lt (by decide) (by have := a.isLt; omega) (by have := b.isLt; omega)) (oh_lt (by have := c.isLt; omega) (by decide) (by have := maskG_lt k; omega))
theorem vscatterl (e : Width) (d : VReg) (a : SReg) (b : VReg) (c : Fin 4) (la : Bool) (lb : Bool) (k : Mask) : Statement (.vscatterl e d a b c la lb k) := fun _ h => by
  cases h; exact enc2_fits (by decide) (by have := d.isLt; omega) (by have := e.code_lt; omega) (tail1_lt (by decide) (by have := a.isLt; omega) (by have := b.isLt; omega)) (oh_lt (by have := c.isLt; omega) (by decide) (by have := maskG_lt k; omega))
theorem vsetvl (e : Width) (d : SReg) (a : SReg) (la : Bool) : Statement (.vsetvl e d a la) := fun _ h => by
  cases h; exact enc2_fits (by decide) (by have := d.isLt; omega) (by have := e.code_lt; omega) (tail1_lt (by decide) (by have := a.isLt; omega) (by decide)) (oh_lt (by decide) (by decide) (by decide))
theorem vmovs (e : Width) (d : VQ) (a : VQ) (la : Bool) (k : Mask) : Statement (.vmovs e d a la k) := fun _ h => by
  cases h; exact enc2_fits (by decide) (by have := d.code_lt; omega) (by have := e.code_lt; omega) (tail1_lt (by decide) (by have := a.code_lt; omega) (by decide)) (oh_lt (by decide) (by decide) (by have := maskG_lt k; have := b2_lt a.isQ; have := b2_lt d.isQ; omega))
theorem vzero (d : VReg) : Statement (.vzero d) := fun _ h => by
  cases h; exact enc2_fits (by decide) (by have := d.isLt; omega) (by decide) (tail1_lt (by decide) (by decide) (by decide)) (oh_lt (by decide) (by decide) (by decide))
theorem vrandUnif (e : Width) (d : VReg) (k : Mask) : Statement (.vrandUnif e d k) := fun _ h => by
  cases h; exact enc2_fits (by decide) (by have := d.isLt; omega) (by have := e.code_lt; omega) (tail1_lt (by decide) (by decide) (by decide)) (oh_lt (by decide) (by decide) (by have := maskG_lt k; omega))
theorem vrandGauss (d : VReg) (k : Mask) : Statement (.vrandGauss d k) := fun _ h => by
  cases h; exact enc2_fits (by decide) (by have := d.isLt; omega) (by decide) (tail1_lt (by decide) (by decide) (by decide)) (oh_lt (by decide) (by decide) (by have := maskG_lt k; omega))
theorem madd (d : MReg) (a : MReg) (b : MReg) (la : Bool) (lb : Bool) (k : Mask) : Statement (.madd d a b la lb k) := fun _ h => by
  cases h; exact enc2_fits (by decide) (by have := d.isLt; omega) (by decide) (tail1_lt (by decide) (by have := a.isLt; omega) (by have := b.isLt; omega)) (oh_lt (by decide) (by decide) (by have := maskG_lt k; omega))
theorem msub (d : MReg) (a : MReg) (b : MReg) (la : Bool) (lb : Bool) (k : Mask) : Statement (.msub d a b la lb k) := fun _ h => by
  cases h; exact enc2_fits (by decide) (by have := d.isLt; omega) (by decide) (tail1_lt (by decide) (by have := a.isLt; omega) (by have := b.isLt; omega)) (oh_lt (by decide) (by decide) (by have := maskG_lt k; omega))
theorem mmul (d : MReg) (a : MReg) (b : MReg) (la : Bool) (lb : Bool) (k : Mask) : Statement (.mmul d a b la lb k) := fun _ h => by
  cases h; exact enc2_fits (by decide) (by have := d.isLt; omega) (by decide) (tail1_lt (by decide) (by have := a.isLt; omega) (by have := b.isLt; omega)) (oh_lt (by decide) (by decide) (by have := maskG_lt k; omega))
theorem mfma (d : MReg) (a : MReg) (b : MReg) (c : MReg) (la : Bool) (lb : Bool) (lc : Bool) (k : Mask) : Statement (.mfma d a b c la lb lc k) := fun _ h => by
  cases h; exact enc2_fits (by decide) (by have := d.isLt; omega) (by decide) (tail1_lt (by decide) (by have := a.isLt; omega) (by have := b.isLt; omega)) (oh_lt (by have := c.isLt; omega) (by decide) (by have := maskG_lt k; omega))
theorem mscale (d : MReg) (a : MReg) (b : SReg) (la : Bool) (lb : Bool) (k : Mask) : Statement (.mscale d a b la lb k) := fun _ h => by
  cases h; exact enc2_fits (by decide) (by have := d.isLt; omega) (by decide) (tail1_lt (by decide) (by have := a.isLt; omega) (by have := b.isLt; omega)) (oh_lt (by decide) (by decide) (by have := maskG_lt k; omega))
theorem mshift (d : MReg) (a : MReg) (b : SReg) (la : Bool) (lb : Bool) (k : Mask) : Statement (.mshift d a b la lb k) := fun _ h => by
  cases h; exact enc2_fits (by decide) (by have := d.isLt; omega) (by decide) (tail1_lt (by decide) (by have := a.isLt; omega) (by have := b.isLt; omega)) (oh_lt (by decide) (by decide) (by have := maskG_lt k; omega))
theorem mrelu (d : MReg) (a : MReg) (la : Bool) (k : Mask) : Statement (.mrelu d a la k) := fun _ h => by
  cases h; exact enc2_fits (by decide) (by have := d.isLt; omega) (by decide) (tail1_lt (by decide) (by have := a.isLt; omega) (by decide)) (oh_lt (by decide) (by decide) (by have := maskG_lt k; omega))
theorem mexp (d : MReg) (a : MReg) (la : Bool) (k : Mask) : Statement (.mexp d a la k) := fun _ h => by
  cases h; exact enc2_fits (by decide) (by have := d.isLt; omega) (by decide) (tail1_lt (by decide) (by have := a.isLt; omega) (by decide)) (oh_lt (by decide) (by decide) (by have := maskG_lt k; omega))
theorem msigm (d : MReg) (a : MReg) (la : Bool) (k : Mask) : Statement (.msigm d a la k) := fun _ h => by
  cases h; exact enc2_fits (by decide) (by have := d.isLt; omega) (by decide) (tail1_lt (by decide) (by have := a.isLt; omega) (by decide)) (oh_lt (by decide) (by decide) (by have := maskG_lt k; omega))
theorem mtanh (d : MReg) (a : MReg) (la : Bool) (k : Mask) : Statement (.mtanh d a la k) := fun _ h => by
  cases h; exact enc2_fits (by decide) (by have := d.isLt; omega) (by decide) (tail1_lt (by decide) (by have := a.isLt; omega) (by decide)) (oh_lt (by decide) (by decide) (by have := maskG_lt k; omega))
theorem mmax (d : MReg) (a : MReg) (b : MReg) (la : Bool) (lb : Bool) (k : Mask) : Statement (.mmax d a b la lb k) := fun _ h => by
  cases h; exact enc2_fits (by decide) (by have := d.isLt; omega) (by decide) (tail1_lt (by decide) (by have := a.isLt; omega) (by have := b.isLt; omega)) (oh_lt (by decide) (by decide) (by have := maskG_lt k; omega))
theorem mld (d : MReg) (a : SReg) (la : Bool) (k : Mask) : Statement (.mld d a la k) := fun _ h => by
  cases h; exact enc2_fits (by decide) (by have := d.isLt; omega) (by decide) (tail1_lt (by decide) (by have := a.isLt; omega) (by decide)) (oh_lt (by decide) (by decide) (by have := maskG_lt k; omega))
theorem mst (d : MReg) (a : SReg) (la : Bool) (k : Mask) : Statement (.mst d a la k) := fun _ h => by
  cases h; exact enc2_fits (by decide) (by have := d.isLt; omega) (by decide) (tail1_lt (by decide) (by have := a.isLt; omega) (by decide)) (oh_lt (by decide) (by decide) (by have := maskG_lt k; omega))
theorem mldl (d : MReg) (a : SReg) (la : Bool) (k : Mask) : Statement (.mldl d a la k) := fun _ h => by
  cases h; exact enc2_fits (by decide) (by have := d.isLt; omega) (by decide) (tail1_lt (by decide) (by have := a.isLt; omega) (by decide)) (oh_lt (by decide) (by decide) (by have := maskG_lt k; omega))
theorem mstl (d : MReg) (a : SReg) (la : Bool) (k : Mask) : Statement (.mstl d a la k) := fun _ h => by
  cases h; exact enc2_fits (by decide) (by have := d.isLt; omega) (by decide) (tail1_lt (by decide) (by have := a.isLt; omega) (by decide)) (oh_lt (by decide) (by decide) (by have := maskG_lt k; omega))
theorem mpack (rm : RM) (d : VReg) (a : MReg) (la : Bool) (k : Mask) : Statement (.mpack rm d a la k) := fun _ h => by
  cases h; exact enc2_fits (by decide) (by have := d.isLt; omega) (by decide) (tail1_lt (by decide) (by have := a.isLt; omega) (by decide)) (oh_lt (by decide) (by have := rm.code_lt; omega) (by have := maskG_lt k; omega))
theorem munpack (d : MReg) (a : VReg) (la : Bool) (k : Mask) : Statement (.munpack d a la k) := fun _ h => by
  cases h; exact enc2_fits (by decide) (by have := d.isLt; omega) (by decide) (tail1_lt (by decide) (by have := a.isLt; omega) (by decide)) (oh_lt (by decide) (by decide) (by have := maskG_lt k; omega))
theorem mredsum (d : MReg) (a : MReg) (la : Bool) (k : Mask) : Statement (.mredsum d a la k) := fun _ h => by
  cases h; exact enc2_fits (by decide) (by have := d.isLt; omega) (by decide) (tail1_lt (by decide) (by have := a.isLt; omega) (by decide)) (oh_lt (by decide) (by decide) (by have := maskG_lt k; omega))
theorem mcollapse (d : VReg) (a : MReg) (b : SReg) (c : Fin 5) (la : Bool) (lb : Bool) (k : Mask) : Statement (.mcollapse d a b c la lb k) := fun _ h => by
  cases h; exact enc2_fits (by decide) (by have := d.isLt; omega) (by decide) (tail1_lt (by decide) (by have := a.isLt; omega) (by have := b.isLt; omega)) (oh_lt (by have := c.isLt; omega) (by decide) (by have := maskG_lt k; omega))
theorem mcheck (d : SReg) (a : MReg) (la : Bool) (k : Mask) : Statement (.mcheck d a la k) := fun _ h => by
  cases h; exact enc2_fits (by decide) (by have := d.isLt; omega) (by decide) (tail1_lt (by decide) (by have := a.isLt; omega) (by decide)) (oh_lt (by decide) (by decide) (by have := maskG_lt k; omega))
theorem mmode (d : SReg) (a : SReg) (la : Bool) (k : Mask) : Statement (.mmode d a la k) := fun _ h => by
  cases h; exact enc2_fits (by decide) (by have := d.isLt; omega) (by decide) (tail1_lt (by decide) (by have := a.isLt; omega) (by decide)) (oh_lt (by decide) (by decide) (by have := maskG_lt k; omega))
theorem sbind (d : Fin 8) (a : Grp) (la : Bool) : Statement (.sbind d a la) := fun _ h => by
  cases h; exact enc2_fits (by decide) (by have := d.isLt; omega) (by decide) (tail1_lt (by decide) (by have := Grp.base_lt a; omega) (by decide)) (oh_lt (by decide) (by decide) (by decide))
theorem sunbind (d : Fin 8) : Statement (.sunbind d) := fun _ h => by
  cases h; exact enc2_fits (by decide) (by have := d.isLt; omega) (by decide) (tail1_lt (by decide) (by decide) (by decide)) (oh_lt (by decide) (by decide) (by decide))
theorem sstat (d : SReg) (a : Fin 8) : Statement (.sstat d a) := fun _ h => by
  cases h; exact enc2_fits (by decide) (by have := d.isLt; omega) (by decide) (tail1_lt (by decide) (by have := a.isLt; omega) (by decide)) (oh_lt (by decide) (by decide) (by decide))
theorem cpy (a : Grp) (la : Bool) : Statement (.cpy a la) := fun _ h => by
  cases h; exact enc2_fits (by decide) (by decide) (by decide) (tail1_lt (by decide) (by have := Grp.base_lt a; omega) (by decide)) (oh_lt (by decide) (by decide) (by decide))
theorem cpyNb (d : SReg) (a : Grp) (la : Bool) : Statement (.cpyNb d a la) := fun _ h => by
  cases h; exact enc2_fits (by decide) (by have := d.isLt; omega) (by decide) (tail1_lt (by decide) (by have := Grp.base_lt a; omega) (by decide)) (oh_lt (by decide) (by decide) (by decide))
theorem cpq (d : SReg) (a : SReg) (la : Bool) : Statement (.cpq d a la) := fun _ h => by
  cases h; exact enc2_fits (by decide) (by have := d.isLt; omega) (by decide) (tail1_lt (by decide) (by have := a.isLt; omega) (by decide)) (oh_lt (by decide) (by decide) (by decide))
theorem sit (d : SReg) (a : SReg) (la : Bool) : Statement (.sit d a la) := fun _ h => by
  cases h; exact enc2_fits (by decide) (by have := d.isLt; omega) (by decide) (tail1_lt (by decide) (by have := a.isLt; omega) (by decide)) (oh_lt (by decide) (by decide) (by decide))
theorem mxpal (a : SReg) (la : Bool) : Statement (.mxpal a la) := fun _ h => by
  cases h; exact enc2_fits (by decide) (by decide) (by decide) (tail1_lt (by decide) (by have := a.isLt; omega) (by decide)) (oh_lt (by decide) (by decide) (by decide))
theorem mxlda (d : Fin 4) (a : SReg) (b : SReg) (c : SReg) (la : Bool) (lb : Bool) (lc : Bool) : Statement (.mxlda d a b c la lb lc) := fun _ h => by
  cases h; exact enc2_fits (by decide) (by have := d.isLt; omega) (by decide) (tail1_lt (by decide) (by have := a.isLt; omega) (by have := b.isLt; omega)) (oh_lt (by have := c.isLt; omega) (by decide) (by decide))
theorem mxldb (d : Fin 8) (a : SReg) (b : SReg) (c : SReg) (la : Bool) (lb : Bool) (lc : Bool) : Statement (.mxldb d a b c la lb lc) := fun _ h => by
  cases h; exact enc2_fits (by decide) (by have := d.isLt; omega) (by decide) (tail1_lt (by decide) (by have := a.isLt; omega) (by have := b.isLt; omega)) (oh_lt (by have := c.isLt; omega) (by decide) (by decide))
theorem mxmma (z : Bool) (d : SReg) (a : Fin 4) (b : Fin 8) : Statement (.mxmma z d a b) := fun _ h => by
  cases h; exact enc2_fits (by decide) (by have := d.isLt; omega) (by have := b2_lt z; omega) (tail1_lt (by decide) (by have := a.isLt; omega) (by have := b.isLt; omega)) (oh_lt (by decide) (by decide) (by decide))
theorem mxmmaM (z : Bool) (d : SReg) (a : Fin 4) (b : Fin 8) : Statement (.mxmmaM z d a b) := fun _ h => by
  cases h; exact enc2_fits (by decide) (by have := d.isLt; omega) (by have := b2_lt z; omega) (tail1_lt (by decide) (by have := a.isLt; omega) (by have := b.isLt; omega)) (oh_lt (by decide) (by decide) (by decide))
theorem mxst (rm : RM) (d : SReg) (a : SReg) (b : SReg) (la : Bool) (lb : Bool) : Statement (.mxst rm d a b la lb) := fun _ h => by
  cases h; exact enc2_fits (by decide) (by have := d.isLt; omega) (by decide) (tail1_lt (by decide) (by have := a.isLt; omega) (by have := b.isLt; omega)) (oh_lt (by decide) (by have := rm.code_lt; omega) (by decide))
theorem mxrel (d : SReg) : Statement (.mxrel d) := fun _ h => by
  cases h; exact enc2_fits (by decide) (by have := d.isLt; omega) (by decide) (tail1_lt (by decide) (by decide) (by decide)) (oh_lt (by decide) (by decide) (by decide))
theorem mxzero (d : SReg) : Statement (.mxzero d) := fun _ h => by
  cases h; exact enc2_fits (by decide) (by have := d.isLt; omega) (by decide) (tail1_lt (by decide) (by decide) (by decide)) (oh_lt (by decide) (by decide) (by decide))
theorem tdecl (d : CReg) (a : SReg) (b : SReg) (c : SReg) (la : Bool) (lb : Bool) : Statement (.tdecl d a b c la lb) := fun _ h => by
  cases h; exact enc2_fits (by decide) (by have := d.isLt; omega) (by decide) (tail1_lt (by decide) (by have := a.isLt; omega) (by have := b.isLt; omega)) (oh_lt (by have := c.isLt; omega) (by decide) (by decide))
theorem tpass (d : SReg) (a : CReg) (b : SReg) (la : Bool) (lb : Bool) : Statement (.tpass d a b la lb) := fun _ h => by
  cases h; exact enc2_fits (by decide) (by have := d.isLt; omega) (by decide) (tail1_lt (by decide) (by have := a.isLt; omega) (by have := b.isLt; omega)) (oh_lt (by decide) (by decide) (by decide))
theorem tacq (d : SReg) (a : CReg) (la : Bool) : Statement (.tacq d a la) := fun _ h => by
  cases h; exact enc2_fits (by decide) (by have := d.isLt; omega) (by decide) (tail1_lt (by decide) (by have := a.isLt; omega) (by decide)) (oh_lt (by decide) (by decide) (by decide))
theorem tundecl (d : SReg) (a : CReg) (la : Bool) : Statement (.tundecl d a la) := fun _ h => by
  cases h; exact enc2_fits (by decide) (by have := d.isLt; omega) (by decide) (tail1_lt (by decide) (by have := a.isLt; omega) (by decide)) (oh_lt (by decide) (by decide) (by decide))
theorem tstat (d : SReg) (a : CReg) (b : SReg) (la : Bool) (lb : Bool) : Statement (.tstat d a b la lb) := fun _ h => by
  cases h; exact enc2_fits (by decide) (by have := d.isLt; omega) (by decide) (tail1_lt (by decide) (by have := a.isLt; omega) (by have := b.isLt; omega)) (oh_lt (by decide) (by decide) (by decide))
theorem wreg (d : SReg) (a : SReg) (b : SReg) (la : Bool) (lb : Bool) : Statement (.wreg d a b la lb) := fun _ h => by
  cases h; exact enc2_fits (by decide) (by have := d.isLt; omega) (by decide) (tail1_lt (by decide) (by have := a.isLt; omega) (by have := b.isLt; omega)) (oh_lt (by decide) (by decide) (by decide))
theorem wunreg (d : SReg) (a : SReg) (la : Bool) : Statement (.wunreg d a la) := fun _ h => by
  cases h; exact enc2_fits (by decide) (by have := d.isLt; omega) (by decide) (tail1_lt (by decide) (by have := a.isLt; omega) (by decide)) (oh_lt (by decide) (by decide) (by decide))
theorem put (a : SReg) (b : SReg) (c : SReg) (la : Bool) (lb : Bool) (lc : Bool) : Statement (.put a b c la lb lc) := fun _ h => by
  cases h; exact enc2_fits (by decide) (by decide) (by decide) (tail1_lt (by decide) (by have := a.isLt; omega) (by have := b.isLt; omega)) (oh_lt (by have := c.isLt; omega) (by decide) (by decide))
theorem putImm (a : SReg) (b : SReg) (c : SReg) (la : Bool) (lb : Bool) (lc : Bool) : Statement (.putImm a b c la lb lc) := fun _ h => by
  cases h; exact enc2_fits (by decide) (by decide) (by decide) (tail1_lt (by decide) (by have := a.isLt; omega) (by have := b.isLt; omega)) (oh_lt (by have := c.isLt; omega) (by decide) (by decide))
theorem wexp (d : SReg) (a : SReg) (b : SReg) (la : Bool) (lb : Bool) : Statement (.wexp d a b la lb) := fun _ h => by
  cases h; exact enc2_fits (by decide) (by have := d.isLt; omega) (by decide) (tail1_lt (by decide) (by have := a.isLt; omega) (by have := b.isLt; omega)) (oh_lt (by decide) (by decide) (by decide))
theorem wcnt (d : SReg) (a : SReg) (la : Bool) : Statement (.wcnt d a la) := fun _ h => by
  cases h; exact enc2_fits (by decide) (by have := d.isLt; omega) (by decide) (tail1_lt (by decide) (by have := a.isLt; omega) (by decide)) (oh_lt (by decide) (by decide) (by decide))
theorem wcntSrc (d : SReg) : Statement (.wcntSrc d) := fun _ h => by
  cases h; exact enc2_fits (by decide) (by have := d.isLt; omega) (by decide) (tail1_lt (by decide) (by decide) (by decide)) (oh_lt (by decide) (by decide) (by decide))
theorem wwait (a : SReg) (la : Bool) : Statement (.wwait a la) := fun _ h => by
  cases h; exact enc2_fits (by decide) (by decide) (by decide) (tail1_lt (by decide) (by have := a.isLt; omega) (by decide)) (oh_lt (by decide) (by decide) (by decide))
theorem arrive (d : SReg) (a : SReg) (la : Bool) : Statement (.arrive d a la) := fun _ h => by
  cases h; exact enc2_fits (by decide) (by have := d.isLt; omega) (by decide) (tail1_lt (by decide) (by have := a.isLt; omega) (by decide)) (oh_lt (by decide) (by decide) (by decide))
theorem bwait (a : SReg) (b : SReg) (la : Bool) (lb : Bool) : Statement (.bwait a b la lb) := fun _ h => by
  cases h; exact enc2_fits (by decide) (by decide) (by decide) (tail1_lt (by decide) (by have := a.isLt; omega) (by have := b.isLt; omega)) (oh_lt (by decide) (by decide) (by decide))
theorem barw (d : SReg) (a : SReg) (la : Bool) : Statement (.barw d a la) := fun _ h => by
  cases h; exact enc2_fits (by decide) (by have := d.isLt; omega) (by decide) (tail1_lt (by decide) (by have := a.isLt; omega) (by decide)) (oh_lt (by decide) (by decide) (by decide))
theorem bjoin (d : SReg) (a : SReg) (la : Bool) : Statement (.bjoin d a la) := fun _ h => by
  cases h; exact enc2_fits (by decide) (by have := d.isLt; omega) (by decide) (tail1_lt (by decide) (by have := a.isLt; omega) (by decide)) (oh_lt (by decide) (by decide) (by decide))
theorem bjoinLeave (d : SReg) (a : SReg) (la : Bool) : Statement (.bjoinLeave d a la) := fun _ h => by
  cases h; exact enc2_fits (by decide) (by have := d.isLt; omega) (by decide) (tail1_lt (by decide) (by have := a.isLt; omega) (by decide)) (oh_lt (by decide) (by decide) (by decide))
theorem btimeout (a : SReg) (b : SReg) (la : Bool) (lb : Bool) : Statement (.btimeout a b la lb) := fun _ h => by
  cases h; exact enc2_fits (by decide) (by decide) (by decide) (tail1_lt (by decide) (by have := a.isLt; omega) (by have := b.isLt; omega)) (oh_lt (by decide) (by decide) (by decide))
theorem bforce (d : SReg) (a : SReg) (b : SReg) (la : Bool) (lb : Bool) : Statement (.bforce d a b la lb) := fun _ h => by
  cases h; exact enc2_fits (by decide) (by have := d.isLt; omega) (by decide) (tail1_lt (by decide) (by have := a.isLt; omega) (by have := b.isLt; omega)) (oh_lt (by decide) (by decide) (by decide))
theorem bforceRemove (d : SReg) (a : SReg) (b : SReg) (la : Bool) (lb : Bool) : Statement (.bforceRemove d a b la lb) := fun _ h => by
  cases h; exact enc2_fits (by decide) (by have := d.isLt; omega) (by decide) (tail1_lt (by decide) (by have := a.isLt; omega) (by have := b.isLt; omega)) (oh_lt (by decide) (by decide) (by decide))
theorem msend (d : SReg) (a : Pair) (b : SReg) (la : Bool) (lb : Bool) : Statement (.msend d a b la lb) := fun _ h => by
  cases h; exact enc2_fits (by decide) (by have := d.isLt; omega) (by decide) (tail1_lt (by decide) (by have := Pair.base_lt a; omega) (by have := b.isLt; omega)) (oh_lt (by decide) (by decide) (by decide))
theorem mrecv (d : Grp) (a : SReg) (la : Bool) : Statement (.mrecv d a la) := fun _ h => by
  cases h; exact enc2_fits (by decide) (by have := Grp.base_lt d; omega) (by decide) (tail1_lt (by decide) (by have := a.isLt; omega) (by decide)) (oh_lt (by decide) (by decide) (by decide))
theorem mrecvC (d : CReg) (a : SReg) : Statement (.mrecvC d a) := fun _ h => by
  cases h; exact enc2_fits (by decide) (by have := d.isLt; omega) (by decide) (tail1_lt (by decide) (by have := a.isLt; omega) (by decide)) (oh_lt (by decide) (by decide) (by decide))
theorem mwait (d : SReg) (a : SReg) (la : Bool) : Statement (.mwait d a la) := fun _ h => by
  cases h; exact enc2_fits (by decide) (by have := d.isLt; omega) (by decide) (tail1_lt (by decide) (by have := a.isLt; omega) (by decide)) (oh_lt (by decide) (by decide) (by decide))
theorem amsg (d : SReg) (a : Grp) (la : Bool) : Statement (.amsg d a la) := fun _ h => by
  cases h; exact enc2_fits (by decide) (by have := d.isLt; omega) (by decide) (tail1_lt (by decide) (by have := Grp.base_lt a; omega) (by decide)) (oh_lt (by decide) (by decide) (by decide))
theorem wait (loads : BitVec 4) (stores : BitVec 4) (copies : BitVec 4) (matrix : BitVec 4) : Statement (.wait loads stores copies matrix) := fun _ h => by
  cases h; exact encTL_fits (by decide) (by decide) (by decide) (by decide) (by have := copies.isLt; have := loads.isLt; have := matrix.isLt; have := stores.isLt; omega) (by decide) (by decide) (by decide) (by simp) (by simp) (by simp)
theorem book (d : SReg) (a : SReg) (la : Bool) : Statement (.book d a la) := fun _ h => by
  cases h; exact enc2_fits (by decide) (by have := d.isLt; omega) (by decide) (tail1_lt (by decide) (by have := a.isLt; omega) (by decide)) (oh_lt (by decide) (by decide) (by decide))
theorem unbook (d : SReg) : Statement (.unbook d) := fun _ h => by
  cases h; exact enc2_fits (by decide) (by have := d.isLt; omega) (by decide) (tail1_lt (by decide) (by decide) (by decide)) (oh_lt (by decide) (by decide) (by decide))
theorem unbookRec (d : SReg) (a : SReg) (la : Bool) : Statement (.unbookRec d a la) := fun _ h => by
  cases h; exact enc2_fits (by decide) (by have := d.isLt; omega) (by decide) (tail1_lt (by decide) (by have := a.isLt; omega) (by decide)) (oh_lt (by decide) (by decide) (by decide))
theorem bkrel (d : SReg) (a : SReg) (la : Bool) : Statement (.bkrel d a la) := fun _ h => by
  cases h; exact enc2_fits (by decide) (by have := d.isLt; omega) (by decide) (tail1_lt (by decide) (by have := a.isLt; omega) (by decide)) (oh_lt (by decide) (by decide) (by decide))
theorem bkext (d : SReg) (a : SReg) (b : SReg) (la : Bool) (lb : Bool) : Statement (.bkext d a b la lb) := fun _ h => by
  cases h; exact enc2_fits (by decide) (by have := d.isLt; omega) (by decide) (tail1_lt (by decide) (by have := a.isLt; omega) (by have := b.isLt; omega)) (oh_lt (by decide) (by decide) (by decide))
theorem bkq (d : SReg) (a : SReg) (la : Bool) : Statement (.bkq d a la) := fun _ h => by
  cases h; exact enc2_fits (by decide) (by have := d.isLt; omega) (by decide) (tail1_lt (by decide) (by have := a.isLt; omega) (by decide)) (oh_lt (by decide) (by decide) (by decide))
theorem lrpatch (w : Fin 8) (d : SReg) (a : SReg) (b : SReg) (la : Bool) (lb : Bool) : Statement (.lrpatch w d a b la lb) := fun _ h => by
  cases h; exact enc2_fits (by decide) (by have := d.isLt; omega) (by have := w.isLt; omega) (tail1_lt (by decide) (by have := a.isLt; omega) (by have := b.isLt; omega)) (oh_lt (by decide) (by decide) (by decide))
theorem lrarm (d : SReg) (a : SReg) (la : Bool) : Statement (.lrarm d a la) := fun _ h => by
  cases h; exact enc2_fits (by decide) (by have := d.isLt; omega) (by decide) (tail1_lt (by decide) (by have := a.isLt; omega) (by decide)) (oh_lt (by decide) (by decide) (by decide))
theorem lrstat (d : SReg) (a : SReg) (b : SReg) (la : Bool) (lb : Bool) : Statement (.lrstat d a b la lb) := fun _ h => by
  cases h; exact enc2_fits (by decide) (by have := d.isLt; omega) (by decide) (tail1_lt (by decide) (by have := a.isLt; omega) (by have := b.isLt; omega)) (oh_lt (by decide) (by decide) (by decide))
theorem lvlcnt (d : SReg) (a : SReg) (b : SReg) (la : Bool) (lb : Bool) : Statement (.lvlcnt d a b la lb) := fun _ h => by
  cases h; exact enc2_fits (by decide) (by have := d.isLt; omega) (by decide) (tail1_lt (by decide) (by have := a.isLt; omega) (by have := b.isLt; omega)) (oh_lt (by decide) (by decide) (by decide))
theorem lvlcancel (d : SReg) (a : SReg) (la : Bool) : Statement (.lvlcancel d a la) := fun _ h => by
  cases h; exact enc2_fits (by decide) (by have := d.isLt; omega) (by decide) (tail1_lt (by decide) (by have := a.isLt; omega) (by decide)) (oh_lt (by decide) (by decide) (by decide))
theorem lvlcancelRec (d : SReg) (a : SReg) (la : Bool) : Statement (.lvlcancelRec d a la) := fun _ h => by
  cases h; exact enc2_fits (by decide) (by have := d.isLt; omega) (by decide) (tail1_lt (by decide) (by have := a.isLt; omega) (by decide)) (oh_lt (by decide) (by decide) (by decide))
theorem retireFail (a : SReg) (la : Bool) : Statement (.retireFail a la) := fun _ h => by
  cases h; exact encReg_fits (by decide) (by decide) (by decide) (tail1_lt (by decide) (by have := a.isLt; omega) (by decide)) (oh_lt (by decide) (by decide) (by decide))
theorem salloc (d : SReg) (a : SReg) (la : Bool) : Statement (.salloc d a la) := fun _ h => by
  cases h; exact enc2_fits (by decide) (by have := d.isLt; omega) (by decide) (tail1_lt (by decide) (by have := a.isLt; omega) (by decide)) (oh_lt (by decide) (by decide) (by decide))
theorem sfree (d : SReg) (a : SReg) (la : Bool) : Statement (.sfree d a la) := fun _ h => by
  cases h; exact enc2_fits (by decide) (by have := d.isLt; omega) (by decide) (tail1_lt (by decide) (by have := a.isLt; omega) (by decide)) (oh_lt (by decide) (by decide) (by decide))
theorem csrr (d : SReg) (n : BitVec 12) : Statement (.csrr d n) := fun _ h => by
  cases h; exact enc2_fits (by decide) (by have := d.isLt; omega) (by decide) (tail1_lt (by decide) (by decide) (by decide)) (by have := n.isLt; omega)
theorem csrw (d : SReg) (a : SReg) (n : BitVec 12) : Statement (.csrw d a n) := fun _ h => by
  cases h; exact enc2_fits (by decide) (by have := d.isLt; omega) (by decide) (tail1_lt (by decide) (by have := a.isLt; omega) (by decide)) (by have := n.isLt; omega)
theorem csrs (d : SReg) (a : SReg) (n : BitVec 12) : Statement (.csrs d a n) := fun _ h => by
  cases h; exact enc2_fits (by decide) (by have := d.isLt; omega) (by decide) (tail1_lt (by decide) (by have := a.isLt; omega) (by decide)) (by have := n.isLt; omega)
theorem csrc (d : SReg) (a : SReg) (n : BitVec 12) : Statement (.csrc d a n) := fun _ h => by
  cases h; exact enc2_fits (by decide) (by have := d.isLt; omega) (by decide) (tail1_lt (by decide) (by have := a.isLt; omega) (by decide)) (by have := n.isLt; omega)
theorem trap (d : Fin 32) (imm : BitVec 16) : Statement (.trap d imm) := fun _ h => by
  cases h; exact enc2_fits (by decide) (by have := d.isLt; omega) (by decide) (tail1_lt (by decide) (by decide) (by decide)) (by have := imm.isLt; omega)
theorem wsw (a : SReg) (la : Bool) : Statement (.wsw a la) := fun _ h => by
  cases h; exact encReg_fits (by decide) (by decide) (by decide) (tail1_lt (by decide) (by have := a.isLt; omega) (by decide)) (oh_lt (by decide) (by decide) (by decide))
theorem tlbinv (a : SReg) (b : SReg) (c : SReg) (la : Bool) (lb : Bool) (lc : Bool) : Statement (.tlbinv a b c la lb lc) := fun _ h => by
  cases h; exact enc2_fits (by decide) (by decide) (by decide) (tail1_lt (by decide) (by have := a.isLt; omega) (by have := b.isLt; omega)) (oh_lt (by have := c.isLt; omega) (by decide) (by decide))
theorem tlbinvVf (c : SReg) (lc : Bool) : Statement (.tlbinvVf c lc) := fun _ h => by
  cases h; exact enc2_fits (by decide) (by decide) (by decide) (tail1_lt (by decide) (by decide) (by decide)) (oh_lt (by have := c.isLt; omega) (by decide) (by decide))
theorem notate (imm : BitVec 16) : Statement (.notate imm) := fun _ h => by
  cases h; exact enc2_fits (by decide) (by decide) (by decide) (tail1_lt (by decide) (by decide) (by decide)) (by have := imm.isLt; omega)
theorem ret : Statement (.ret) := fun _ h => by
  cases h; exact encHead_fits (by decide) (by decide)
theorem unsit : Statement (.unsit) := fun _ h => by
  cases h; exact enc2_fits (by decide) (by decide) (by decide) (tail1_lt (by decide) (by decide) (by decide)) (oh_lt (by decide) (by decide) (by decide))
theorem retire : Statement (.retire) := fun _ h => by
  cases h; exact encHead_fits (by decide) (by decide)
theorem yield : Statement (.yield) := fun _ h => by
  cases h; exact encHead_fits (by decide) (by decide)
theorem follow : Statement (.follow) := fun _ h => by
  cases h; exact encReg_fits (by decide) (by decide) (by decide) (tail1_lt (by decide) (by decide) (by decide)) (oh_lt (by decide) (by decide) (by decide))
theorem unfollow : Statement (.unfollow) := fun _ h => by
  cases h; exact encHead_fits (by decide) (by decide)
theorem sret : Statement (.sret) := fun _ h => by
  cases h; exact encHead_fits (by decide) (by decide)
theorem tlbinvAll : Statement (.tlbinvAll) := fun _ h => by
  cases h; exact enc2_fits (by decide) (by decide) (by decide) (tail1_lt (by decide) (by decide) (by decide)) (oh_lt (by decide) (by decide) (by decide))
theorem replayall : Statement (.replayall) := fun _ h => by
  cases h; exact encHead_fits (by decide) (by decide)
theorem brk : Statement (.brk) := fun _ h => by
  cases h; exact encHead_fits (by decide) (by decide)
theorem registerWrite (x1 : DevReg) (x2 : Word) : Statement (.registerWrite x1 x2) := fun _ h => nomatch h
theorem fbdlvWrite (x1 : Nat) (x2 : Nat) : Statement (.fbdlvWrite x1 x2) := fun _ h => nomatch h
theorem kmissClr (x1 : Nat) : Statement (.kmissClr x1) := fun _ h => nomatch h
theorem dctlStop (x1 : Nat) : Statement (.dctlStop x1) := fun _ h => nomatch h
theorem dctlResume (x1 : Nat) : Statement (.dctlResume x1) := fun _ h => nomatch h
theorem adjctlRearm : Statement (.adjctlRearm) := fun _ h => nomatch h
theorem adjctlNow : Statement (.adjctlNow) := fun _ h => nomatch h
theorem wdogWrite (x1 : Word) : Statement (.wdogWrite x1) := fun _ h => nomatch h
theorem featstatGo : Statement (.featstatGo) := fun _ h => nomatch h
theorem frmodeWrite (x1 : Word) : Statement (.frmodeWrite x1) := fun _ h => nomatch h
theorem stopTakesEffect (x1 : Nat) : Statement (.stopTakesEffect x1) := fun _ h => nomatch h
theorem contextSwitch (x1 : Nat) (x2 : SlotId) : Statement (.contextSwitch x1 x2) := fun _ h => nomatch h
theorem yieldAfterWait (x1 : Nat) : Statement (.yieldAfterWait x1) := fun _ h => nomatch h
theorem impreciseTrapDelivery (x1 : Nat) : Statement (.impreciseTrapDelivery x1) := fun _ h => nomatch h
theorem budgetExpiry (x1 : Nat) : Statement (.budgetExpiry x1) := fun _ h => nomatch h
theorem walkStart (x1 : Nat) : Statement (.walkStart x1) := fun _ h => nomatch h
theorem walkCompletion (x1 : Nat) (x2 : Nat) (x3 : Nat) : Statement (.walkCompletion x1 x2 x3) := fun _ h => nomatch h
theorem rdl (x1 : Nat) (x2 : Nat) : Statement (.rdl x1 x2) := fun _ h => nomatch h
theorem rdu (x1 : Nat) (x2 : Nat) : Statement (.rdu x1 x2) := fun _ h => nomatch h
theorem wrq (x1 : Nat) (x2 : Nat) (x3 : Nat) (x4 : SlotId) (x5 : BitVec 64) (x6 : StoreData) : Statement (.wrq x1 x2 x3 x4 x5 x6) := fun _ h => nomatch h
theorem amo (x1 : Nat) (x2 : AmoOp) (x3 : IT) (x4 : Word) (x5 : Word) (x6 : AmoSource) (x7 : Nat) (x8 : SlotId) (x9 : SReg) : Statement (.amo x1 x2 x3 x4 x5 x6 x7 x8 x9) := fun _ h => nomatch h
theorem own (x1 : Nat) (x2 : Nat) : Statement (.own x1 x2) := fun _ h => nomatch h
theorem tmk (x1 : Nat) (x2 : Nat) (x3 : Nat) : Statement (.tmk x1 x2 x3) := fun _ h => nomatch h
theorem tun (x1 : Nat) (x2 : TileUnmark) : Statement (.tun x1 x2) := fun _ h => nomatch h
theorem mrd (x1 : Nat) (x2 : PortRead) : Statement (.mrd x1 x2) := fun _ h => nomatch h
theorem mwr (x1 : Nat) (x2 : Nat) (x3 : LineData) : Statement (.mwr x1 x2 x3) := fun _ h => nomatch h
theorem gnt (x1 : Nat) (x2 : Nat) (x3 : Nat) : Statement (.gnt x1 x2 x3) := fun _ h => nomatch h
theorem wak (x1 : WakDst) (x2 : Nat) (x3 : Nat) (x4 : Bool) : Statement (.wak x1 x2 x3 x4) := fun _ h => nomatch h
theorem oak (x1 : Nat) (x2 : Nat) : Statement (.oak x1 x2) := fun _ h => nomatch h
theorem cua (x1 : Nat) (x2 : Nat) : Statement (.cua x1 x2) := fun _ h => nomatch h
theorem rca (x1 : LineRecalled) : Statement (.rca x1) := fun _ h => nomatch h
theorem mrs (x1 : Nat) (x2 : PortAnswer) : Statement (.mrs x1 x2) := fun _ h => nomatch h
theorem fil (x1 : LineFill) (x2 : Nat) : Statement (.fil x1 x2) := fun _ h => nomatch h
theorem wbd (x1 : Nat) (x2 : BitVec 64) (x3 : LineData) : Statement (.wbd x1 x2 x3) := fun _ h => nomatch h
theorem psh (x1 : LinePush) (x2 : Nat) : Statement (.psh x1 x2) := fun _ h => nomatch h
theorem mdt (x1 : Nat) (x2 : Nat) (x3 : LineData) : Statement (.mdt x1 x2 x3) := fun _ h => nomatch h
theorem cut (x1 : Nat) (x2 : Nat) : Statement (.cut x1 x2) := fun _ h => nomatch h
theorem cuaDue (x1 : Nat) (x2 : Nat) : Statement (.cuaDue x1 x2) := fun _ h => nomatch h
theorem cutCompletion (x1 : Nat) : Statement (.cutCompletion x1) := fun _ h => nomatch h
theorem leaseHorizonPass (x1 : Nat) : Statement (.leaseHorizonPass x1) := fun _ h => nomatch h
theorem rcl (x1 : Nat) : Statement (.rcl x1) := fun _ h => nomatch h
theorem recallHeld (x1 : Nat) : Statement (.recallHeld x1) := fun _ h => nomatch h
theorem swp (x1 : Nat) (x2 : Nat) (x3 : Nat) (x4 : Nat) : Statement (.swp x1 x2 x3 x4) := fun _ h => nomatch h
theorem bcn (x1 : Nat) (x2 : Nat) : Statement (.bcn x1 x2) := fun _ h => nomatch h
theorem beaconLoss (x1 : Nat) : Statement (.beaconLoss x1) := fun _ h => nomatch h
theorem clockStop (x1 : Nat) : Statement (.clockStop x1) := fun _ h => nomatch h
theorem clockResume (x1 : Nat) : Statement (.clockResume x1) := fun _ h => nomatch h
theorem releaseComplete (x1 : Nat) (x2 : SlotId) : Statement (.releaseComplete x1 x2) := fun _ h => nomatch h
theorem fabricReleaseForward (x1 : Nat) (x2 : SlotId) : Statement (.fabricReleaseForward x1 x2) := fun _ h => nomatch h
theorem declarationComplete (x1 : Nat) : Statement (.declarationComplete x1) := fun _ h => nomatch h
theorem passMessageSend (x1 : Nat) : Statement (.passMessageSend x1) := fun _ h => nomatch h
theorem undeclarationComplete (x1 : Nat) : Statement (.undeclarationComplete x1) := fun _ h => nomatch h
theorem cxlMemRead (x1 : CxlAccess) (x2 : Bool) : Statement (.cxlMemRead x1 x2) := fun _ h => nomatch h
theorem cxlMemWrite (x1 : CxlAccess) (x2 : BitVec 64) (x3 : BitVec 512) : Statement (.cxlMemWrite x1 x2 x3) := fun _ h => nomatch h
theorem birsp (x1 : Nat) : Statement (.birsp x1) := fun _ h => nomatch h
theorem hostSnoop (x1 : Nat) : Statement (.hostSnoop x1) := fun _ h => nomatch h
theorem tokenRefill (x1 : Nat) : Statement (.tokenRefill x1) := fun _ h => nomatch h
theorem streamFetch (x1 : Nat) (x2 : QReg) : Statement (.streamFetch x1 x2) := fun _ h => nomatch h
theorem streamStoreWrite (x1 : Nat) (x2 : QReg) : Statement (.streamStoreWrite x1 x2) := fun _ h => nomatch h
theorem copyStart (x1 : Nat) : Statement (.copyStart x1) := fun _ h => nomatch h
theorem copyLineMove (x1 : Nat) (x2 : Nat) : Statement (.copyLineMove x1 x2) := fun _ h => nomatch h
theorem copyCompletion (x1 : Nat) (x2 : Nat) : Statement (.copyCompletion x1 x2) := fun _ h => nomatch h
theorem putArrival (x1 : Nat) (x2 : Nat) : Statement (.putArrival x1 x2) := fun _ h => nomatch h
theorem putAck (x1 : Nat) (x2 : SlotId) : Statement (.putAck x1 x2) := fun _ h => nomatch h
theorem sittingGrant (x1 : Nat) : Statement (.sittingGrant x1) := fun _ h => nomatch h
theorem sittingExpiry (x1 : Nat) : Statement (.sittingExpiry x1) := fun _ h => nomatch h
theorem matrixCommandStart (x1 : Nat) (x2 : Nat) : Statement (.matrixCommandStart x1 x2) := fun _ h => nomatch h
theorem matrixCommandComplete (x1 : Nat) (x2 : Nat) : Statement (.matrixCommandComplete x1 x2) := fun _ h => nomatch h
theorem barrierArrival (x1 : Nat) (x2 : SlotId) (x3 : Nat) : Statement (.barrierArrival x1 x2 x3) := fun _ h => nomatch h
theorem phaseCompletion (x1 : Nat) (x2 : Nat) : Statement (.phaseCompletion x1 x2) := fun _ h => nomatch h
theorem completionSignalArrival (x1 : Nat) (x2 : Nat) : Statement (.completionSignalArrival x1 x2) := fun _ h => nomatch h
theorem timeout (x1 : Nat) (x2 : Nat) : Statement (.timeout x1 x2) := fun _ h => nomatch h
theorem messageArrival (x1 : Nat) (x2 : Msg) : Statement (.messageArrival x1 x2) := fun _ h => nomatch h
theorem overflowMove (x1 : Nat) : Statement (.overflowMove x1) := fun _ h => nomatch h
theorem busyRetry (x1 : Nat) (x2 : SlotId) : Statement (.busyRetry x1 x2) := fun _ h => nomatch h
theorem activeMessageStart (x1 : Nat) : Statement (.activeMessageStart x1) := fun _ h => nomatch h
theorem freeUnitStart (x1 : Nat) : Statement (.freeUnitStart x1) := fun _ h => nomatch h
theorem admissionSearch (x1 : Nat) : Statement (.admissionSearch x1) := fun _ h => nomatch h
theorem dieCalendarRequest (x1 : Nat) (x2 : Nat) (x3 : Nat) : Statement (.dieCalendarRequest x1 x2 x3) := fun _ h => nomatch h
theorem tempoBoundary (x1 : Nat) : Statement (.tempoBoundary x1) := fun _ h => nomatch h
theorem overrun (x1 : Nat) : Statement (.overrun x1) := fun _ h => nomatch h
theorem resignToken (x1 : Nat) (x2 : Nat) : Statement (.resignToken x1 x2) := fun _ h => nomatch h
theorem replayMessageInject (x1 : Nat) : Statement (.replayMessageInject x1) := fun _ h => nomatch h
theorem divergence (x1 : Nat) (x2 : Nat) (x3 : Nat) (x4 : Nat) : Statement (.divergence x1 x2 x3 x4) := fun _ h => nomatch h
theorem notationLineWrite (x1 : Nat) : Statement (.notationLineWrite x1) := fun _ h => nomatch h
theorem watchdogExpiry : Statement (.watchdogExpiry) := fun _ h => nomatch h
theorem retryStorm (x1 : Nat) : Statement (.retryStorm x1) := fun _ h => nomatch h
theorem adj (x1 : Nat) : Statement (.adj x1) := fun _ h => nomatch h
theorem rearm : Statement (.rearm) := fun _ h => nomatch h
theorem coldReset : Statement (.coldReset) := fun _ h => nomatch h
theorem warmReset : Statement (.warmReset) := fun _ h => nomatch h
theorem crd (x1 : Nat) (x2 : Nat) (x3 : List Nat) : Statement (.crd x1 x2 x3) := fun _ h => nomatch h
theorem ident (x1 : Nat) (x2 : List Nat) (x3 : Nat) (x4 : PortPath) : Statement (.ident x1 x2 x3 x4) := fun _ h => nomatch h
theorem idack (x1 : Nat) (x2 : Nat) (x3 : Nat) (x4 : IdPath) : Statement (.idack x1 x2 x3 x4) := fun _ h => nomatch h
theorem identTimeout (x1 : Nat) (x2 : Nat) : Statement (.identTimeout x1 x2) := fun _ h => nomatch h
theorem topo (x1 : Nat) (x2 : TopoPath) (x3 : List Nat) (x4 : List Nat) : Statement (.topo x1 x2 x3 x4) := fun _ h => nomatch h
theorem frm (x1 : Nat) (x2 : Bool) : Statement (.frm x1 x2) := fun _ h => nomatch h
theorem ack (x1 : Nat) (x2 : Nat) (x3 : Bool) : Statement (.ack x1 x2 x3) := fun _ h => nomatch h
theorem powerSample (x1 : Nat) (x2 : Nat) : Statement (.powerSample x1 x2) := fun _ h => nomatch h
theorem thermalShutdown : Statement (.thermalShutdown) := fun _ h => nomatch h
theorem visibilityTimeReached (x1 : Nat) (x2 : SlotId) : Statement (.visibilityTimeReached x1 x2) := fun _ h => nomatch h
theorem notationTimeRecord (x1 : Nat) : Statement (.notationTimeRecord x1) := fun _ h => nomatch h
theorem vaultAccess (x1 : Nat) (x2 : AmoOp) (x3 : IT) (x4 : Word) (x5 : Word) (x6 : Nat) (x7 : SlotId) (x8 : SReg) : Statement (.vaultAccess x1 x2 x3 x4 x5 x6 x7 x8) := fun _ h => nomatch h
theorem cxlCacheResponse (x1 : HostRead) : Statement (.cxlCacheResponse x1) := fun _ h => nomatch h
theorem atomicopCompletion (x1 : Nat) (x2 : SlotId) (x3 : SReg) (x4 : IT) (x5 : Word) : Statement (.atomicopCompletion x1 x2 x3 x4 x5) := fun _ h => nomatch h
theorem creditReturn (x1 : Nat) (x2 : Nat) (x3 : List Nat) : Statement (.creditReturn x1 x2 x3) := fun _ h => nomatch h
theorem protocolError (x1 : Nat) (x2 : PortSlot) : Statement (.protocolError x1 x2) := fun _ h => nomatch h
theorem eccError (x1 : Bool) (x2 : Nat) (x3 : Nat) (x4 : Bool) : Statement (.eccError x1 x2 x3 x4) := fun _ h => nomatch h
theorem illegal (x1 : IllegalReason) (x2 : Half) (x3 : Word) (x4 : Half) : Statement (.illegal x1 x2 x3 x4) := fun _ h => nomatch h
theorem spdmRequest (x1 : Nat) : Statement (.spdmRequest x1) := fun _ h => nomatch h

end Sys2Proof.Laws.Fits
end

