-- ==== Sys2Proof/Laws/Spans.lean ====
section
/-! SUPPORT. Global accesses to one page: the bytes that a load reads, and the whole effect of a store on memory. -/
namespace Sys2Proof.Machine

open Sys2Proof.Safety

/-! ## Keys -/

/-- Bytes of one 64 KiB page have distinct keys. -/
theorem Place.loc_inj (p : Place) (n : Nat) (hn : n ≤ 4096) {i j : Nat} (hi : i < n) (hj : j < n) (h : p.loc i = p.loc j) :
    i = j := by
  unfold Place.loc at h
  dsimp only at h
  repeat' split at h
  all_goals omega

theorem keysAt_nodup (e : TlbEntry) (va : Word) (n : Nat) (hn : n ≤ 4096) : (keysAt e va n).Nodup := by
  unfold keysAt
  unfold List.Nodup
  rw [List.pairwise_map]
  refine List.Pairwise.imp_of_mem ?_ List.nodup_range
  intro i j hi hj hne h
  exact hne (Place.loc_inj _ n hn (List.mem_range.mp hi) (List.mem_range.mp hj) h)

/-- The lines of an access hold its bytes. -/
theorem Span.lines_mem {p : Place} {n : Nat} (hn : 0 < n) {l : Nat × Place} (h : l ∈ Span.lines [(p, n)]) :
    ∃ o, o < n ∧ l = (p.loc o / 64, { p with pa := p.pa + o }) := by
  unfold Span.lines at h
  have key : ∀ (xs acc : List (Nat × Place)), l ∈ xs.foldl (fun acc x => if acc.any (fun y => y.1 == x.1) then acc else acc ++ [x]) acc →
      l ∈ acc ∨ l ∈ xs := by
    intro xs
    induction xs with
    | nil => intro acc h; exact Or.inl h
    | cons x xs ih =>
      intro acc h
      rw [List.foldl_cons] at h
      rcases ih _ h with h1 | h1
      · split at h1
        · exact Or.inl h1
        · rcases List.mem_append.mp h1 with h2 | h2
          · exact Or.inl h2
          · rw [List.mem_singleton] at h2; subst h2; exact Or.inr (List.mem_cons_self ..)
      · exact Or.inr (List.mem_cons_of_mem _ h1)
  rcases key _ _ h with h1 | h1
  · cases h1
  · simp only [List.flatMap_cons, List.flatMap_nil, List.append_nil, List.mem_map, List.mem_range] at h1
    obtain ⟨j, hj, rfl⟩ := h1
    refine ⟨if j = 0 then 0 else 64 * j - p.pa % 64, ?_, rfl⟩
    split <;> omega

/-! ## Loads -/

theorem readSpan_one {s : State} {p : Place} {n : Nat} (h : HeldUnder s p n) :
    s.readSpan [(p, n)] = readLocs s.mem ((List.range n).map p.loc) := by
  unfold State.readSpan Span.bytes readLocs
  simp only [List.flatMap_cons, List.flatMap_nil, List.append_nil, List.map_map]
  apply List.map_congr_left
  intro i hi
  obtain ⟨h1, h2, h3⟩ := h
  have := h3 i (List.mem_range.mp hi)
  simp only [Function.comp, State.byteUnder, h1, h2]
  rcases this with h | h | h
  · simp [h]
  · rw [h]; simp
  · rw [h]; simp

theorem HeldUnder.aside {s t : State} {p : Place} {n : Nat} (h : HeldUnder s p n) (a : AsideTo s t) : HeldUnder t p n := by
  obtain ⟨h1, h2, h3⟩ := h
  obtain ⟨m, hp⟩ := a.pkg
  refine ⟨?_, h2, ?_⟩
  · unfold State.keyLoaded; rw [hp]; exact h1
  · rw [a.lineKey]; exact h3

/-- A load of bytes of one page under their key reads them and goes aside (R42, R262). -/
theorem getSpan_one {s t : State} {p : Place} {n : Nat} (hb : s.bad = []) (a : AsideTo s t) (h : HeldUnder s p n) :
    (t.getSpan [(p, n)]).1 = ofBytes (readLocs s.mem ((List.range n).map p.loc)) ∧ AsideTo s (t.getSpan [(p, n)]).2 := by
  have hd := deviceOf_none (n := n) h.2.1
  have a2 := a.trans (Aside.getSpan t [(p, n)] hd (by rw [a.bad, hb]) a.rings a.settled a.rings a.settled)
  refine ⟨?_, a2⟩
  have e : (t.getSpan [(p, n)]).1 = ofBytes ((t.getSpan [(p, n)]).2.readSpan [(p, n)]) := by unfold State.getSpan; rw [hd]
  rw [e, readSpan_one (HeldUnder.aside h a2), a2.mem]

/-- A global load that reaches its bytes (R261, R262). -/
theorem globalLoad_ok {s : State} {va : Word} {n : Nat} {e : TlbEntry} (hs : Sound s) (hr : RingsOff s) (hk : Settled s)
    (h : Reaches s .load va n e) (hh : HeldUnder s (e.place va.toNat) n) :
    ∃ u, globalLoad s va n = .ok (ofBytes (readLocs s.mem (keysAt e va n)), u) ∧ AsideTo s u := by
  unfold globalLoad
  rw [globalGate_ok h, ok_bind]
  dsimp only
  have a1 := ((Aside.viaTlb s e).trans (Aside.payLines (viaTlb s e) [(e.place va.toNat, n)] false false)) hr hk
  obtain ⟨e1, e2⟩ := getSpan_one hs.1 a1 hh
  exact ⟨_, by rw [show keysAt e va n = (List.range n).map (e.place va.toNat).loc from rfl, ← e1], e2⟩

theorem AsideTo.sx {s u : State} (h : AsideTo s u) : u.sx = s.sx := by
  unfold State.sx Core.sx; rw [h.slotx, h.cur]
/-- Retiring leaves the pending ECC of the slot as it is (R208). -/
theorem State.ecc_doneS (s : State) (d : SReg) (ks : List (Bool × SReg)) (y : Word) : (s.doneS d ks y).sx.ecc = s.sx.ecc := by
  have e : (s.doneS d ks y).core.slotx = (s.core.onSx s.core.cur (fun x => { x with touched := false, asking := false, hostMark := none })).slotx ∧
      (s.doneS d ks y).core.cur = s.core.cur := by
    unfold State.doneS State.retire State.retireTo; dsimp only; split <;> exact ⟨rfl, rfl⟩
  unfold State.sx Core.sx
  rw [e.1, e.2]
  simp [Core.onSx]
theorem State.lostS_none {s : State} (d : SReg) (h : s.sx.ecc = none) : s.lostS d = s := by
  unfold State.lostS; rw [h]; rfl

/-! ## Stores -/

theorem setHas_setDel (m : List Nat) (k g : Nat) : setHas (setDel m k) g = (setHas m g && !(k == g)) := by
  unfold setHas setDel
  rw [Bool.eq_iff_iff]
  simp only [List.any_filter, List.any_eq_true, Bool.and_eq_true, bne_iff_ne, beq_iff_eq, Bool.not_eq_true',
    beq_eq_false_iff_ne]
  constructor
  · rintro ⟨x, hx, h1, rfl⟩; exact ⟨⟨x, hx, rfl⟩, fun e => h1 e.symm⟩
  · rintro ⟨⟨x, hx, rfl⟩, h⟩; exact ⟨x, hx, fun e => h e.symm, rfl⟩

theorem setHas_foldl_setDel (ls : List Nat) (f : Nat → Nat) (m : List Nat) (g : Nat) :
    setHas (ls.foldl (fun t l => setDel t (f l)) m) g = (setHas m g && !ls.any (fun l => f l == g)) := by
  induction ls generalizing m with
  | nil => simp
  | cons l ls ih =>
    rw [List.foldl_cons, ih, setHas_setDel, List.any_cons]
    cases setHas m g <;> cases (f l == g) <;> simp

theorem mem_mapSet {α : Type} {m : List (Nat × α)} {k : Nat} {v : α} {x : Nat × α} (h : x ∈ mapSet m k v) : x ∈ m ∨ x = (k, v) := by
  induction m with
  | nil => exact Or.inr (List.mem_singleton.mp h)
  | cons c t ih =>
    obtain ⟨a, w⟩ := c
    unfold mapSet at h
    split at h
    · rcases List.mem_cons.mp h with h | h
      · exact Or.inr h
      · exact Or.inl h
    · split at h
      · rcases List.mem_cons.mp h with h | h
        · exact Or.inr h
        · exact Or.inl (List.mem_cons_of_mem _ h)
      · rcases List.mem_cons.mp h with h | h
        · exact Or.inl (h ▸ List.mem_cons_self ..)
        · exact (ih h).imp (List.mem_cons_of_mem _) id

/-- What a store's first part does to the lines: their keys and dirty marks, no byte (R44, R274). -/
theorem rekey_fold {s : State} {p : Place} {n : Nat} (hd : p.dev = false) (ls : List (Nat × Place))
    (hl : ∀ l ∈ ls, ∃ o, o < n ∧ l = (p.loc o / 64, { p with pa := p.pa + o })) (t : State)
    (hc : t.core = s.core) (hm : t.mem = s.mem) (h : HeldUnder t p n) (ht : t.tags = s.tags) (hb : t.bad = s.bad) (hs : Settled t) :
    let u := ls.foldl (fun s l => if s.keyLoaded l.2.key && !l.2.dev then (s.rekey l.2 l.1).noteDirty l.2 l.1 else s) t
    u.mem = s.mem ∧ u.tags = s.tags ∧ u.bad = s.bad ∧ u.core = s.core ∧ u.cn = t.cn ∧ u.others = t.others ∧ u.pkg = t.pkg ∧
      u.pkgx = t.pkgx ∧ u.free = t.free ∧ Settled u := by
  induction ls generalizing t with
  | nil => exact ⟨hm, ht, hb, hc, rfl, rfl, rfl, rfl, rfl, hs⟩
  | cons l ls ih =>
    obtain ⟨o, ho, rfl⟩ := hl l (List.mem_cons_self ..)
    obtain ⟨h1, -, h3⟩ := h
    dsimp only [List.foldl_cons]
    have hif : (t.keyLoaded p.key && !p.dev) = true := by rw [h1, hd]; rfl
    have key : ∃ k d, ((t.rekey { p with pa := p.pa + o } (p.loc o / 64)).noteDirty { p with pa := p.pa + o } (p.loc o / 64)) =
        { t with lineKey := k, hbm := d } ∧ (∀ x ∈ d, x.2.dirty = true) ∧
        (∀ x, mapGet k x = mapGet t.lineKey x ∨ mapGet k x = some p.key) := by
      have hr : ∃ k, t.rekey { p with pa := p.pa + o } (p.loc o / 64) = { t with lineKey := k } ∧
          (∀ x, mapGet k x = mapGet t.lineKey x ∨ mapGet k x = some p.key) := by
        unfold State.rekey
        dsimp only
        split
        · exact ⟨t.lineKey, rfl, fun x => Or.inl rfl⟩
        · rename_i hk
          have fin : ∀ x, mapGet (mapSet t.lineKey (p.loc o / 64) p.key) x = mapGet t.lineKey x ∨
              mapGet (mapSet t.lineKey (p.loc o / 64) p.key) x = some p.key := by
            intro x
            by_cases hx : x = p.loc o / 64
            · subst hx; exact Or.inr (mapGet_mapSet_self _ _ _)
            · exact Or.inl (mapGet_mapSet_other _ _ _ _ hx)
          rcases h3 o ho with h4 | h4 | h4
          · exact absurd h4 hk
          · simp only [h4]; exact ⟨_, rfl, fin⟩
          · simp only [h4, if_true]; exact ⟨_, rfl, fin⟩
      obtain ⟨k, e1, e2⟩ := hr
      rw [e1]
      unfold State.noteDirty
      split
      · refine ⟨k, _, rfl, fun x hx => ?_, e2⟩
        rcases mem_mapSet hx with h | h
        · exact hs.2 x h
        · rw [h]
      · exact ⟨k, t.hbm, rfl, hs.2, e2⟩
    obtain ⟨k, d, e1, e3, e2⟩ := key
    rw [if_pos hif, e1]
    refine ih (fun l hl' => hl l (List.mem_cons_of_mem _ hl')) _ hc hm ⟨h1, hd, fun i hi => ?_⟩ ht hb ⟨hs.1, e3⟩
    rcases e2 (p.loc i / 64) with h5 | h5
    · have := h3 i hi; rw [← h5] at this; exact this
    · exact Or.inr (Or.inr h5)

/-- The bytes and tags that a store under its place's key writes (R26, R42, R262). -/
theorem writeSpan_one {s : State} {p : Place} {n : Nat} (hn : 0 < n) (h : HeldUnder s p n) (bs : List Byte) (hl : bs.length = n)
    (hb : s.bad = []) (hs : Settled s) :
    let u := s.writeSpan [(p, n)] bs
    let ls := (List.range n).map p.loc
    u.mem = writeLocs s.mem ls bs ∧ u.tags = ls.foldl (fun t l => setDel t (l / 16)) s.tags ∧ u.bad = [] ∧
      u.core = s.core ∧ u.cn = s.cn ∧ u.others = s.others ∧ u.pkg = s.pkg ∧ u.pkgx = s.pkgx ∧ u.free = s.free ∧ Settled u := by
  unfold State.writeSpan
  have hf := rekey_fold (s := s) h.2.1 (Span.lines [(p, n)]) (fun l hl => Span.lines_mem hn hl) s rfl rfl h rfl rfl hs
  dsimp only at hf ⊢
  generalize (Span.lines [(p, n)]).foldl
    (fun s l => if s.keyLoaded l.2.key && !l.2.dev then (s.rekey l.2 l.1).noteDirty l.2 l.1 else s) s = t at hf
  obtain ⟨e1, e2, e3, e4, e5, e6, e7, e8, e9, e10⟩ := hf
  have hk : t.keyLoaded p.key = true := by unfold State.keyLoaded; rw [e7]; exact h.1
  have hc : (Span.bytes [(p, n)]).zip bs = (((List.range n).map p.loc).zip bs).map (fun x => ((p, x.1), x.2)) := by
    unfold Span.bytes
    simp only [List.flatMap_cons, List.flatMap_nil, List.append_nil]
    have e : (List.range n).map (fun i => (p, p.loc i)) = ((List.range n).map p.loc).map (fun l => (p, l)) := by
      rw [List.map_map]; rfl
    rw [e, List.zip_map_left]
    rfl
  have hfil : ((Span.bytes [(p, n)]).zip bs).filter (fun x => t.keyLoaded x.1.1.key && !x.1.1.dev) =
      (Span.bytes [(p, n)]).zip bs := by
    rw [List.filter_eq_self]
    intro x hx
    rw [hc] at hx
    obtain ⟨y, -, rfl⟩ := List.mem_map.mp hx
    simp [hk, h.2.1]
  rw [hfil, hc]
  have hlen : ((List.range n).map p.loc).length = bs.length := by simp [hl]
  have m1 : ((((List.range n).map p.loc).zip bs).map (fun x => ((p, x.1), x.2))).map (fun x => x.1.2) = (List.range n).map p.loc := by
    rw [List.map_map]
    exact List.map_fst_zip (by omega)
  have m2 : ((((List.range n).map p.loc).zip bs).map (fun x => ((p, x.1), x.2))).map (fun x => x.2) = bs := by
    rw [List.map_map]
    exact List.map_snd_zip (by omega)
  refine ⟨?_, ?_, ?_, e4, e5, e6, e7, e8, e9, e10⟩
  · rw [m1, m2, e1]
  · rw [← e2]
    have m3 := congrArg (fun l => l.foldl (fun t l => setDel t (l / 16)) t.tags) m1
    rw [List.foldl_map] at m3
    exact m3
  · rw [e3, hb]; rfl

theorem Aside.logRace (s : State) (core src prev idx : Nat) (vault : Bool) (off len : Nat) :
    Aside s (s.logRace core src prev idx vault off len) := by
  intro h
  have e : s.logRace core src prev idx vault off len = s := by
    unfold State.logRace
    dsimp only
    split
    · rfl
    · rw [if_pos (Or.inl (h core).2.2)]
  rw [e]; exact Aside.refl s h
theorem Aside.granuleWrite (s : State) (owner src idx : Nat) (e : WinEntry) (g off len : Nat) :
    Aside s (s.granuleWrite owner src idx e g off len) := by
  have h2 : ∀ t : State, Aside t (if e.vault then { t with vgran := mapSet t.vgran g (src, e.epoch) }
      else t.onCore owner (fun c => { c with gran := mapSet c.gran g (src, e.epoch) })) := by
    intro t
    split
    · exact Aside.of_core rfl rfl rfl rfl rfl rfl rfl rfl ⟨_, rfl⟩ rfl rfl rfl
    · exact Aside.onCore t _ _ (fun _ => ⟨rfl, rfl, rfl, rfl, rfl, rfl, rfl, rfl, rfl, rfl, rfl, rfl⟩)
  unfold State.granuleWrite
  dsimp only
  refine Aside.trans ?_ (h2 _)
  split
  · split
    · exact Aside.logRace s _ _ _ _ _ _ _
    · exact Aside.refl s
  · exact Aside.refl s
theorem Aside.windowWrite (s : State) (owner src a n : Nat) (vault : Bool) (base : WinEntry → Option Nat) :
    Aside s (s.windowWrite owner src a n vault base) := by
  unfold State.windowWrite
  refine Aside.foldl _ (fun s i => ?_) _ _
  dsimp only
  split
  · exact Aside.ite (Aside.foldl _ (fun s g => Aside.granuleWrite s _ _ _ _ _ _ _) _ _) (Aside.refl s)
  · exact Aside.refl s
theorem Aside.ownVault (s : State) (src : Nat) (p : Place) (n : Nat) : Aside s (s.ownVault src p n) :=
  Aside.ite (Aside.foldl _ (fun s _ => Aside.windowWrite s _ _ _ _ _ _) _ _) (Aside.refl s)

theorem SameContext.trans {s t u : State} (a : SameContext s t) (b : SameContext t u) : SameContext s u :=
  { ws := b.ws.trans a.ws, cur := b.cur.trans a.cur,
    slots := fun i => by
      obtain ⟨_, _, _, _, h1⟩ := a.slots i
      obtain ⟨_, _, _, _, h2⟩ := b.slots i
      rw [h1] at h2
      exact ⟨_, _, _, _, h2⟩,
    srng := b.srng.trans a.srng, grng := b.grng.trans a.grng }

/-- A store of bytes of one page under their key writes them and nothing else (R26, R262). -/
theorem putSpan_one {s t : State} {e : TlbEntry} {va : Word} {n : Nat} (hn : 0 < n) (hn2 : n ≤ 4096) (hw : Memory.wf s.mem = true)
    (hb : s.bad = []) (a : AsideTo s t) (h : HeldUnder s (e.place va.toNat) n) (bs : List Byte) (hl : bs.length = n) :
    SameContext s (t.putSpan [(e.place va.toNat, n)] bs) ∧ Stores s (t.putSpan [(e.place va.toNat, n)] bs) (keysAt e va n) bs ∧
      (t.putSpan [(e.place va.toNat, n)] bs).core.slotx = s.core.slotx := by
  have a1 := a.trans (((Aside.countKmisses t t.cn [(e.place va.toNat, n)]).trans (Aside.contextWrite _ [(e.place va.toNat, n)] none))
    a.rings a.settled)
  unfold State.putSpan State.putScoped
  rw [deviceOf_none h.2.1]
  dsimp only
  generalize (t.countKmisses t.cn [(e.place va.toNat, n)]).contextWrite [(e.place va.toNat, n)] none = t1 at a1
  obtain ⟨w1, w2, w3, w4, w5, w6, w7, w8, w9, w10⟩ :=
    writeSpan_one hn (HeldUnder.aside h a1) bs hl (by rw [a1.bad, hb]) a1.settled
  generalize t1.writeSpan [(e.place va.toNat, n)] bs = t2 at *
  have r2 : RingsOff t2 := by
    intro k
    have e' : t2.coreOf k = t1.coreOf k := by unfold State.coreOf; rw [w4, w5, w6]
    rw [e']; exact a1.rings k
  have a2 : AsideTo t2 ([(e.place va.toNat, n)].foldl (fun s' e' => s'.ownVault s'.cn e'.1 e'.2) t2) :=
    Aside.foldl _ (fun s x => Aside.ownVault s _ _ _) _ _ r2 w10
  have c1 : SameContext t1 t2 := by
    refine { ws := by unfold State.ws; rw [w4], cur := by rw [w4], slots := fun i => ⟨_, _, _, _, by rw [w4]⟩, srng := by rw [w4], grng := by rw [w4] }
  refine ⟨(a1.context.trans c1).trans a2.context, ⟨?_, ?_, ?_, ?_, ?_⟩, ?_⟩
  · rw [a2.mem, w1, a1.mem]
    exact readLocs_writeLocs hw _ _ (keysAt_nodup e va n hn2) (by simp [hl])
  · intro k hk
    rw [a2.mem, w1, a1.mem]
    exact readByte_writeLocs hw _ _ _ hk
  · intro g
    rw [a2.tags, w2, a1.tags]
    exact setHas_foldl_setDel _ (fun l => l / 16) _ g
  · intro o; rw [a2.pad, w4, a1.pad]
  · rw [a2.padTags, w4, a1.padTags]
  · rw [a2.slotx, w4, a1.slotx]

/-- A global store that reaches its bytes (R261, R262). -/
theorem globalStore_ok {s : State} {va : Word} {bs : List Byte} {e : TlbEntry} (hs : Sound s) (hr : RingsOff s) (hk : Settled s)
    (hw : Memory.wf s.mem = true) (hl : bs.length ≤ 4096) (h : Reaches s .store va bs.length e)
    (hh : HeldUnder s (e.place va.toNat) bs.length) :
    ∃ u, globalStore s va bs = .ok u ∧ SameContext s u ∧ Stores s u (keysAt e va bs.length) bs ∧ u.core.slotx = s.core.slotx := by
  unfold globalStore
  rw [globalGate_ok h, ok_bind]
  dsimp only
  have a1 := ((Aside.viaTlb s e).trans (Aside.payLines (viaTlb s e) [(e.place va.toNat, bs.length)] true false)) hr hk
  exact ⟨_, rfl, putSpan_one h.1.1.1 hl hw hs.1 a1 hh bs rfl⟩

end Sys2Proof.Machine
end

