-- ==== Sys2Proof/Tests/Slice0.lean ====
section
/-! SUPPORT. Tests: ill-formed terms that the checks refuse, words written out from the encodings of spec/09 to spec/13,
single steps with results from the spec's own rules and examples, and a witness for the hypotheses of every statement. -/
namespace Sys2Proof.Tests

open Sys2Proof Sys2Proof.Machine Sys2Proof.Safety
-- one test at a time: each waits for the kernel, and many at once would hold a thread each
set_option Elab.async false

/-! ## Ill-formed terms, one for each check (R236, R247, R251, R259, R267, R288 to R290, R315, R375, R381, R382) -/

theorem test_wf_shift_count : Instr.wf (.shli ⟨.b32, true⟩ 8 9 32) = false ∧ Instr.wf (.shri ⟨.b8, false⟩ 8 9 8) = false ∧
    Instr.wf (.srai ⟨.b16, false⟩ 8 9 63) = false ∧ Instr.wf (.srai ⟨.b64, false⟩ 8 9 63) = true := ⟨rfl, rfl, rfl, rfl⟩
theorem test_wf_unused_operand : Instr.wf (.mcollapse 1 2 3 4 false false none) = false ∧
    Instr.wf (.mcollapse 1 2 0 4 false true none) = false ∧ Instr.wf (.lrpatch 0 8 9 10 false false) = false ∧
    Instr.wf (.lrpatch 0 8 9 0 false true) = false := ⟨rfl, rfl, rfl, rfl⟩
theorem test_wf_integer_type : Instr.wf (.sext ⟨.b8, true⟩ (.s 8) (.s 9) false) = false ∧
    Instr.wf (.zext ⟨.b8, false⟩ (.s 8) (.s 9) false) = false ∧ Instr.wf (.bext ⟨.b32, true⟩ 8 9 0 0) = false ∧
    Instr.wf (.bins ⟨.b16, true⟩ 8 9 0 0) = false := ⟨rfl, rfl, rfl, rfl⟩
theorem test_wf_formats : Instr.wf (.fcvt .rne (.s 8) (.s 9) .mxfp4 .f32 false) = false ∧
    Instr.wf (.fcvt .rne (.s 8) (.s 9) .f32 .t6 false) = false ∧ Instr.wf (.vcvt 0 .rne (.v 8) (.v 9) .t8 .f32 false none) = false ∧
    Instr.wf (.vcvt 0 .rne (.v 8) (.v 9) .f32 .t8 false none) = false ∧
    Instr.wf (.vcvt 2 .rne (.v 8) (.v 9) .f32 .f16 false none) = false ∧
    Instr.wf (.vscalePack .rne (.v 8) (.v 9) 10 .f32 false false) = false ∧
    Instr.wf (.vscaleUnpack (.v 8) (.v 9) 10 .e4m3 false false) = false ∧
    Instr.wf (.vredsum 8 (.v 9) .e5m2 false none) = false ∧ Instr.wf (.vredmax 8 (.v 9) .t8 false none) = false ∧
    Instr.wf (.vredmin 8 (.v 9) .e4m3 false none) = false ∧
    Instr.wf (.vdot .f32 .rne (.v 8) (.v 9) 10 11 false false false none) = false ∧
    Instr.wf (.vcmp (.int ⟨.b8, true⟩) 1 (.v 9) 10 6 false false none) = false :=
  ⟨rfl, rfl, rfl, rfl, rfl, rfl, rfl, rfl, rfl, rfl, rfl, rfl⟩
theorem test_wf_atomics : Instr.wf (.amoAdd .die .rlx ⟨.b16, true⟩ 8 9 10 false false) = false ∧
    Instr.wf (.amoMin .die .rlx ⟨.b8, true⟩ 8 9 10 false false) = false ∧
    Instr.wf (.amoMax .die .rlx ⟨.b8, true⟩ 8 9 10 false false) = false ∧
    Instr.wf (.amoAnd .die .rlx ⟨.b8, true⟩ 8 9 10 false false) = false ∧
    Instr.wf (.amoOr .die .rlx ⟨.b8, true⟩ 8 9 10 false false) = false ∧
    Instr.wf (.amoXor .die .rlx ⟨.b8, true⟩ 8 9 10 false false) = false ∧
    Instr.wf (.amoSwap .die .rlx ⟨.b16, true⟩ 8 9 10 false false) = false ∧
    Instr.wf (.amoCas .die .rlx ⟨.b16, true⟩ 8 9 10 11 false false false) = false ∧
    Instr.wf (.amoFadd .die .rlx ⟨.b32, true⟩ 8 9 10 false false) = false ∧ Instr.wf (.xfence .die 0 1) = false ∧
    Instr.wf (.xfence .die 1 0) = false := ⟨rfl, rfl, rfl, rfl, rfl, rfl, rfl, rfl, rfl, rfl, rfl⟩
theorem test_wf_codes : Instr.wf (.csrr 8 0x008) = false ∧ Instr.wf (.csrw 8 9 0x851) = false ∧ Instr.wf (.csrs 8 9 0x860) = false ∧
    Instr.wf (.csrc 8 9 0xFFF) = false ∧ Instr.wf (.trap 0x04 1) = false ∧ Instr.wf (.trap 0x1A 1) = false ∧
    Instr.wf (.lrpatch 4 8 9 10 false false) = false := ⟨rfl, rfl, rfl, rfl, rfl, rfl, rfl⟩

/-! ## Words written out from the encodings: head as major, TL, D, X; tail as minor, A, B; operand halfword as G, RMF, LC, LB,
LA, C (R221, R225, R228, R229) -/

/-- Every head with its tail decodes to the instruction beside it. -/
def decodes (l : List (Half × List Half × Instr)) : Bool :=
  l.all fun x => match decode x.1 x.2.1 with
    | .ok i => decide (i = x.2.2)
    | .error _ => false

theorem test_decode_integer : decodes [
  (0b000001_10_01000_110, [0b000000_01001_01010, 0b00000_000_0_0_1_00000], .add ⟨.b32, true⟩ (.s 8) (.s 9) 10 true false),
  (0b000001_10_01000_110, [0b000001_01001_01010, 0b00000_000_0_0_1_00000], .sub ⟨.b32, true⟩ (.s 8) (.s 9) 10 true false),
  (0b000001_10_01000_110, [0b000010_01001_01010, 0b00000_000_0_0_1_00000], .and ⟨.b32, true⟩ (.s 8) (.s 9) 10 true false),
  (0b000001_10_01000_110, [0b000011_01001_01010, 0b00000_000_0_0_1_00000], .or ⟨.b32, true⟩ (.s 8) (.s 9) 10 true false),
  (0b000001_10_01000_110, [0b000100_01001_01010, 0b00000_000_0_0_1_00000], .xor ⟨.b32, true⟩ (.s 8) (.s 9) 10 true false),
  (0b000001_10_01000_110, [0b000101_01001_01010, 0b00000_000_0_0_1_00000], .andn ⟨.b32, true⟩ (.s 8) (.s 9) 10 true false),
  (0b000001_10_01000_110, [0b000110_01001_01010, 0b00000_000_0_0_1_00000], .orn ⟨.b32, true⟩ (.s 8) (.s 9) 10 true false),
  (0b000001_10_01000_110, [0b000111_01001_01010, 0b00000_000_0_0_1_00000], .min ⟨.b32, true⟩ (.s 8) (.s 9) 10 true false),
  (0b000001_10_01000_110, [0b001000_01001_01010, 0b00000_000_0_0_1_00000], .max ⟨.b32, true⟩ (.s 8) (.s 9) 10 true false),
  (0b000001_10_01000_110, [0b001001_01001_01010, 0b00000_000_0_0_1_00000], .slt ⟨.b32, true⟩ (.s 8) (.s 9) 10 true false),
  (0b000001_10_01000_110, [0b001010_01001_01010, 0b00000_000_0_0_1_00000], .seq ⟨.b32, true⟩ (.s 8) (.s 9) 10 true false),
  (0b000001_10_01000_110, [0b001011_01001_01010, 0b00000_000_0_0_1_00000], .sne ⟨.b32, true⟩ (.s 8) (.s 9) 10 true false),
  (0b000010_10_01000_110, [0b000000_01001_00000, 0x8765], .addi ⟨.b32, true⟩ 8 9 0x8765),
  (0b000010_10_01000_110, [0b000001_01001_00000, 0x8765], .andi ⟨.b32, true⟩ 8 9 0x8765)] = true ∧ decodes [
  (0b000010_10_01000_110, [0b000010_01001_00000, 0x8765], .ori ⟨.b32, true⟩ 8 9 0x8765),
  (0b000010_10_01000_110, [0b000011_01001_00000, 0x8765], .xori ⟨.b32, true⟩ 8 9 0x8765),
  (0b000010_10_01000_110, [0b000100_01001_00000, 0x8765], .slti ⟨.b32, true⟩ 8 9 0x8765),
  (0b000010_10_01000_110, [0b000101_01001_00000, 0b00000000000_10001], .shli ⟨.b32, true⟩ 8 9 17),
  (0b000010_10_01000_110, [0b000110_01001_00000, 0b00000000000_10001], .shri ⟨.b32, true⟩ 8 9 17),
  (0b000010_10_01000_110, [0b000111_01001_00000, 0b00000000000_10001], .srai ⟨.b32, true⟩ 8 9 17),
  (0b000011_10_01000_000, [0x5678, 0x1234], .li 8 0x12345678),
  (0b000011_10_01000_001, [0x5678, 0x1234], .lih 8 0x12345678),
  (0b000011_11_01000_010, [0x5678, 0x1234, 0xDEF0, 0x9ABC], .liImm64 8 0x9ABCDEF012345678),
  (0b000100_10_01000_110, [0b000000_01001_01010, 0b00000_000_0_0_1_00000], .mul ⟨.b32, true⟩ (.s 8) (.s 9) 10 true false),
  (0b000100_10_01000_110, [0b000001_01001_01010, 0b00000_000_0_0_1_00000], .mulh ⟨.b32, true⟩ (.s 8) (.s 9) 10 true false),
  (0b000100_10_01000_110, [0b000010_01001_01010, 0b00000_000_0_0_1_00000], .div ⟨.b32, true⟩ (.s 8) (.s 9) 10 true false),
  (0b000100_10_01000_110, [0b000011_01001_01010, 0b00000_000_0_0_1_00000], .rem ⟨.b32, true⟩ (.s 8) (.s 9) 10 true false),
  (0b000101_10_01000_110, [0b000000_01001_01010, 0b00000_000_0_0_1_00000], .shl ⟨.b32, true⟩ (.s 8) (.s 9) 10 true false)] = true ∧ decodes [
  (0b000101_10_01000_110, [0b000001_01001_01010, 0b00000_000_0_0_1_00000], .shr ⟨.b32, true⟩ (.s 8) (.s 9) 10 true false),
  (0b000101_10_01000_110, [0b000010_01001_01010, 0b00000_000_0_0_1_00000], .sra ⟨.b32, true⟩ (.s 8) (.s 9) 10 true false),
  (0b000101_10_01000_110, [0b000011_01001_01010, 0b00000_000_0_0_1_00000], .rot ⟨.b32, true⟩ (.s 8) (.s 9) 10 true false),
  (0b000101_10_01000_110, [0b000100_01001_00000, 0b00000_000_0_0_1_00000], .clz ⟨.b32, true⟩ (.s 8) (.s 9) true),
  (0b000101_10_01000_110, [0b000101_01001_00000, 0b00000_000_0_0_1_00000], .ctz ⟨.b32, true⟩ (.s 8) (.s 9) true),
  (0b000101_10_01000_110, [0b000110_01001_00000, 0b00000_000_0_0_1_00000], .pop ⟨.b32, true⟩ (.s 8) (.s 9) true),
  (0b000101_10_01000_010, [0b001001_01001_00000, 0b00000_000_0_0_1_00000], .sext ⟨.b32, false⟩ (.s 8) (.s 9) true),
  (0b000101_10_01000_110, [0b001010_01001_00000, 0b00000_000_0_0_1_00000], .zext ⟨.b32, true⟩ (.s 8) (.s 9) true),
  (0b000101_10_01000_111, [0b000111_01001_00000, 0b0000_001010_000101], .bext ⟨.b64, true⟩ 8 9 5 10),
  (0b000101_10_01000_111, [0b001000_01001_00000, 0b0000_001010_000101], .bins ⟨.b64, true⟩ 8 9 5 10),
  (0b000110_10_01000_110, [0b000000_01001_01010, 0b00000_000_0_0_1_01011], .sel ⟨.b32, true⟩ (.s 8) (.s 9) 10 11 true false false),
  (0b000111_10_01000_000, [0b000000_00011_00000, 0b00000_000_0_0_1_00000], .cbase 8 3 true),
  (0b000111_10_01000_000, [0b000001_00011_00000, 0b00000_000_0_0_1_00000], .clen 8 3 true),
  (0b000111_10_01000_000, [0b000010_00011_00000, 0b00000_000_0_0_1_00000], .cgen 8 3 true)] = true ∧ decodes [
  (0b000111_10_01000_000, [0b000011_00011_00000, 0b00000_000_0_0_1_00000], .crights 8 3 true),
  (0b000111_10_00101_000, [0b000100_00011_01010, 0b00000_000_0_0_1_01011], .cnarrow 5 3 10 11 true false false),
  (0b000111_10_01000_000, [0b000101_00011_01010, 0b00000_000_0_0_1_01011], .ccheck 8 3 10 11 true false false)] = true := by decide +kernel

theorem test_decode_control : decodes [
  (0b001000_10_00000_110, [0b000000_01001_01010, 0b11111111101_00111], .beq ⟨.b32, true⟩ 9 10 ⟨-3, 7⟩),
  (0b001000_10_00000_110, [0b000001_01001_01010, 0b11111111101_00111], .bne ⟨.b32, true⟩ 9 10 ⟨-3, 7⟩),
  (0b001000_10_00000_110, [0b000010_01001_01010, 0b11111111101_00111], .blt ⟨.b32, true⟩ 9 10 ⟨-3, 7⟩),
  (0b001000_10_00000_110, [0b000011_01001_01010, 0b11111111101_00111], .bge ⟨.b32, true⟩ 9 10 ⟨-3, 7⟩),
  (0b001000_10_00000_110, [0b000100_01001_00000, 0b11111111101_00111], .bz ⟨.b32, true⟩ 9 ⟨-3, 7⟩),
  (0b001000_10_00000_110, [0b000101_01001_00000, 0b11111111101_00111], .bnz ⟨.b32, true⟩ 9 ⟨-3, 7⟩),
  (0b001000_10_01000_110, [0b000110_00000_00000, 0b11111111101_00111], .loop ⟨.b32, true⟩ 8 ⟨-3, 7⟩),
  (0b001001_10_00000_000, [0b000000_00000_00000, 0b11111111101_00111], .br ⟨-3, 7⟩),
  (0b001001_10_00000_000, [0b000001_01001_00000, 0b00000_000_0_0_1_00000], .jmp 9 true),
  (0b001001_10_00000_000, [0b000010_00000_00000, 0b11111111101_00111], .call ⟨-3, 7⟩),
  (0b001001_10_00000_000, [0b000011_01001_00000, 0b00000_000_0_0_1_00000], .callr 9 true),
  (0b001001_00_00000_100, [], .ret)] = true := by decide +kernel

theorem test_decode_scalar_float : decodes [
  (0b001011_10_01000_001, [0b000000_01001_01010, 0b00000_001_0_0_1_00000], .fadd .f32 .rtz (.s 8) (.s 9) 10 true false),
  (0b001011_10_01000_001, [0b000001_01001_01010, 0b00000_001_0_0_1_00000], .fsub .f32 .rtz (.s 8) (.s 9) 10 true false),
  (0b001011_10_01000_001, [0b000010_01001_01010, 0b00000_001_0_0_1_00000], .fmul .f32 .rtz (.s 8) (.s 9) 10 true false),
  (0b001011_10_01000_001, [0b000011_01001_01010, 0b00000_001_0_0_1_00000], .fdiv .f32 .rtz (.s 8) (.s 9) 10 true false),
  (0b001011_10_01000_001, [0b000100_01001_00000, 0b00000_001_0_0_1_00000], .fsqrt .f32 .rtz (.s 8) (.s 9) true),
  (0b001011_10_01000_001, [0b000101_01001_01010, 0b00000_000_0_0_1_00000], .fmin .f32 (.s 8) (.s 9) 10 true false),
  (0b001011_10_01000_001, [0b000110_01001_01010, 0b00000_000_0_0_1_00000], .fmax .f32 (.s 8) (.s 9) 10 true false),
  (0b001011_10_01000_001, [0b000111_01001_01010, 0b00000_000_0_0_1_00101], .fcmp .f32 (.s 8) (.s 9) 10 5 true false),
  (0b001011_10_01000_001, [0b001000_01001_00000, 0b00000_000_0_0_1_00000], .fclass .f32 (.s 8) (.s 9) true),
  (0b001100_10_01000_001, [0b000000_01001_01010, 0b00000_001_0_0_1_01011], .fma .f32 .rtz (.s 8) (.s 9) 10 11 true false false),
  (0b001100_10_01000_001, [0b000001_01001_01010, 0b00000_001_0_0_1_01011], .fms .f32 .rtz (.s 8) (.s 9) 10 11 true false false),
  (0b001100_10_01000_000, [0b000010_01001_01001, 0b00000_001_0_0_1_01011], .fcvt .rtz (.s 8) (.s 9) .f32 .bf16 true)] = true := by decide +kernel

theorem test_decode_memory : decodes [
  (0b010000_10_01000_110, [0b000000_01001_00000, 0x8765], .ld ⟨.b32, true⟩ 8 9 0x8765),
  (0b010000_10_01000_110, [0b000001_00011_00000, 0x8765], .ldThroughCap ⟨.b32, true⟩ 8 3 0x8765),
  (0b010000_10_00101_011, [0b000010_01001_00000, 0x8765], .ldCap 5 9 0x8765),
  (0b010001_10_01000_110, [0b000000_01001_00000, 0x8765], .st ⟨.b32, true⟩ 8 9 0x8765),
  (0b010001_10_01000_110, [0b000001_00011_00000, 0x8765], .stThroughCap ⟨.b32, true⟩ 8 3 0x8765),
  (0b010001_10_00101_011, [0b000010_01001_00000, 0x8765], .stCap 5 9 0x8765),
  (0b010010_10_01000_110, [0b000000_01001_00000, 0x8765], .ldl ⟨.b32, true⟩ 8 9 0x8765),
  (0b010010_10_01000_110, [0b000001_01001_00000, 0x8765], .stl ⟨.b32, true⟩ 8 9 0x8765),
  (0b010011_10_01000_010, [0b000000_01001_00000, 0b11000_000_0_0_1_00000], .ldAcq .die ⟨.b32, true⟩ 8 9 true),
  (0b010011_10_01000_010, [0b000001_01001_00000, 0b11000_000_0_0_1_00000], .stRel .die ⟨.b32, true⟩ 8 9 true)] = true := by decide +kernel

theorem test_decode_atomic : decodes [
  (0b010100_10_01000_010, [0b000000_01001_01010, 0b11001_000_0_0_1_00000], .amoAdd .die .acq ⟨.b32, true⟩ 8 9 10 true false),
  (0b010100_10_01000_010, [0b000001_01001_01010, 0b01001_000_0_0_1_00000], .amoFadd .die .acq ⟨.b32, false⟩ 8 9 10 true false),
  (0b010100_10_01000_010, [0b000010_01001_01010, 0b11001_000_0_0_1_00000], .amoMin .die .acq ⟨.b32, true⟩ 8 9 10 true false),
  (0b010100_10_01000_010, [0b000011_01001_01010, 0b11001_000_0_0_1_00000], .amoMax .die .acq ⟨.b32, true⟩ 8 9 10 true false),
  (0b010100_10_01000_010, [0b000100_01001_01010, 0b11001_000_0_0_1_00000], .amoAnd .die .acq ⟨.b32, true⟩ 8 9 10 true false),
  (0b010100_10_01000_010, [0b000101_01001_01010, 0b11001_000_0_0_1_00000], .amoOr .die .acq ⟨.b32, true⟩ 8 9 10 true false),
  (0b010100_10_01000_010, [0b000110_01001_01010, 0b11001_000_0_0_1_00000], .amoXor .die .acq ⟨.b32, true⟩ 8 9 10 true false),
  (0b010100_10_01000_010, [0b000111_01001_01010, 0b11001_000_0_0_1_00000], .amoSwap .die .acq ⟨.b32, true⟩ 8 9 10 true false),
  (0b010100_10_01000_010, [0b001000_01001_01010, 0b11001_000_0_0_1_01011], .amoCas .die .acq ⟨.b32, true⟩ 8 9 10 11 true false false),
  (0b010101_01_00000_010, [0b000000_00000_00000], .fence .die),
  (0b010101_10_00000_010, [0b000001_00000_00000, 0b0000_000001_001000], .xfence .die 8 1),
  (0b010110_10_00000_000, [0b000000_01001_00000, 0x8765], .prefL1 9 0x8765),
  (0b010110_10_00000_001, [0b000000_01001_00000, 0x8765], .prefL2 9 0x8765),
  (0b010110_10_00000_000, [0b000001_01001_00000, 0x8765], .flushl 9 0x8765)] = true ∧ decodes [
  (0b010110_10_00000_000, [0b000010_01001_00000, 0x8765], .drop 9 0x8765)] = true := by decide +kernel

theorem test_decode_vector_float : decodes [
  (0b011000_10_01000_001, [0b000000_01001_01010, 0b10100_001_0_0_1_00000], .vadd .f32 .rtz (.v 8) (.v 9) 10 true false (some 1)),
  (0b011000_10_01000_001, [0b000001_01001_01010, 0b10100_001_0_0_1_00000], .vsub .f32 .rtz (.v 8) (.v 9) 10 true false (some 1)),
  (0b011000_10_01000_001, [0b000010_01001_01010, 0b10100_001_0_0_1_00000], .vmul .f32 .rtz (.v 8) (.v 9) 10 true false (some 1)),
  (0b011000_10_01000_001, [0b000011_01001_01010, 0b10100_001_0_0_1_00000], .vdiv .f32 .rtz (.v 8) (.v 9) 10 true false (some 1)),
  (0b011000_10_01000_001, [0b000100_01001_01010, 0b10100_000_0_0_1_00000], .vmin .f32 (.v 8) (.v 9) 10 true false (some 1)),
  (0b011000_10_01000_001, [0b000101_01001_01010, 0b10100_000_0_0_1_00000], .vmax .f32 (.v 8) (.v 9) 10 true false (some 1)),
  (0b011000_10_01000_001, [0b000110_01001_00000, 0b10100_000_0_0_1_00000], .vabs .f32 (.v 8) (.v 9) true (some 1)),
  (0b011000_10_01000_001, [0b000111_01001_00000, 0b10100_000_0_0_1_00000], .vneg .f32 (.v 8) (.v 9) true (some 1)),
  (0b011000_10_01000_001, [0b001000_01001_00000, 0b10100_001_0_0_1_00000], .vsqrt .f32 .rtz (.v 8) (.v 9) true (some 1)),
  (0b011001_10_01000_001, [0b000000_01001_01010, 0b10100_001_0_0_1_01011], .vfma .f32 .rtz (.v 8) (.v 9) 10 11 true false false (some 1)),
  (0b011001_10_01000_001, [0b000001_01001_01010, 0b10100_001_0_0_1_01011], .vfms .f32 .rtz (.v 8) (.v 9) 10 11 true false false (some 1)),
  (0b011001_10_01000_001, [0b000010_01001_01010, 0b10100_001_0_0_1_01011], .vfnma .f32 .rtz (.v 8) (.v 9) 10 11 true false false (some 1)),
  (0b011001_10_01000_010, [0b000011_01001_01010, 0b10100_001_0_0_1_01011], .vdot .f16 .rtz (.v 8) (.v 9) 10 11 true false false (some 1)),
  (0b011100_10_01000_001, [0b000000_01001_00000, 0b10100_001_0_0_1_00000], .vexp .rtz (.v 8) (.v 9) true (some 1))] = true ∧ decodes [
  (0b011100_10_01000_001, [0b000001_01001_00000, 0b10100_001_0_0_1_00000], .vlog .rtz (.v 8) (.v 9) true (some 1)),
  (0b011100_10_01000_001, [0b000010_01001_00000, 0b10100_001_0_0_1_00000], .vrcp .rtz (.v 8) (.v 9) true (some 1)),
  (0b011100_10_01000_001, [0b000011_01001_00000, 0b10100_001_0_0_1_00000], .vrsqrt .rtz (.v 8) (.v 9) true (some 1)),
  (0b011100_10_01000_001, [0b000100_01001_00000, 0b10100_001_0_0_1_00000], .vtanh .rtz (.v 8) (.v 9) true (some 1)),
  (0b011100_10_01000_001, [0b000101_01001_00000, 0b10100_001_0_0_1_00000], .vsigm .rtz (.v 8) (.v 9) true (some 1)),
  (0b011100_10_01000_001, [0b000110_01001_00000, 0b10100_001_0_0_1_00000], .verf .rtz (.v 8) (.v 9) true (some 1)),
  (0b011100_10_01000_001, [0b000111_01001_00000, 0b10100_001_0_0_1_00000], .vphi .rtz (.v 8) (.v 9) true (some 1)),
  (0b011100_10_01000_001, [0b001000_01001_00000, 0b10100_001_0_0_1_00000], .vpdf .rtz (.v 8) (.v 9) true (some 1))] = true := by decide +kernel

theorem test_decode_vector_integer : decodes [
  (0b011010_10_01000_110, [0b000000_01001_01010, 0b10100_000_0_0_1_00000], .viadd ⟨.b32, true⟩ (.v 8) (.v 9) 10 true false (some 1)),
  (0b011010_10_01000_110, [0b000001_01001_01010, 0b10100_000_0_0_1_00000], .visub ⟨.b32, true⟩ (.v 8) (.v 9) 10 true false (some 1)),
  (0b011010_10_01000_110, [0b000010_01001_01010, 0b10100_000_0_0_1_00000], .vimul ⟨.b32, true⟩ (.v 8) (.v 9) 10 true false (some 1)),
  (0b011010_10_01000_110, [0b000011_01001_01010, 0b10100_000_0_0_1_00000], .vand ⟨.b32, true⟩ (.v 8) (.v 9) 10 true false (some 1)),
  (0b011010_10_01000_110, [0b000100_01001_01010, 0b10100_000_0_0_1_00000], .vor ⟨.b32, true⟩ (.v 8) (.v 9) 10 true false (some 1)),
  (0b011010_10_01000_110, [0b000101_01001_01010, 0b10100_000_0_0_1_00000], .vxor ⟨.b32, true⟩ (.v 8) (.v 9) 10 true false (some 1)),
  (0b011010_10_01000_110, [0b000110_01001_01010, 0b10100_000_0_0_1_00000], .vshl ⟨.b32, true⟩ (.v 8) (.v 9) 10 true false (some 1)),
  (0b011010_10_01000_110, [0b000111_01001_01010, 0b10100_000_0_0_1_00000], .vshr ⟨.b32, true⟩ (.v 8) (.v 9) 10 true false (some 1)),
  (0b011010_10_01000_110, [0b001000_01001_01010, 0b10100_000_0_0_1_00000], .vsra ⟨.b32, true⟩ (.v 8) (.v 9) 10 true false (some 1)),
  (0b011011_10_00001_110, [0b000000_01001_01010, 0b10100_000_0_0_1_01011], .vcmp (.int ⟨.b32, true⟩) 1 (.v 9) 10 3 true false (some 1)),
  (0b011011_10_01000_010, [0b000001_01001_01010, 0b10100_000_0_0_1_00010], .vsel .b32 (.v 8) (.v 9) 10 2 true false false (some 1)),
  (0b011011_10_00001_000, [0b000010_00010_00011, 0b00000_000_0_0_1_00000], .kand 1 2 3 true false),
  (0b011011_10_00001_000, [0b000011_00010_00011, 0b00000_000_0_0_1_00000], .kor 1 2 3 true false),
  (0b011011_10_00001_000, [0b000100_00010_00000, 0b00000_000_0_0_1_00000], .knot 1 2 true)] = true ∧ decodes [
  (0b011011_10_01000_010, [0b000101_00010_00000, 0b00000_000_0_0_1_00000], .kpop .b32 8 2 true)] = true := by decide +kernel

theorem test_decode_vector_convert : decodes [
  (0b011101_10_01000_001, [0b000000_01001_01001, 0b10100_001_0_0_1_01011], .vcvt 1 .rtz (.v 8) (.v 9) .f32 .bf16 true (some 1)),
  (0b011101_10_01000_000, [0b000001_01001_01010, 0b00000_001_0_0_1_01111], .vscalePack .rtz (.v 8) (.v 9) 10 .t8 true false),
  (0b011101_10_01000_001, [0b000001_01001_01010, 0b00000_000_0_0_1_01111], .vscaleUnpack (.v 8) (.v 9) 10 .t8 true false),
  (0b011110_10_01000_010, [0b000000_01001_00000, 0b10100_000_0_0_1_00110], .vredsum 8 (.v 9) .n32 true (some 1)),
  (0b011110_10_01000_010, [0b000001_01001_00000, 0b10100_000_0_0_1_00110], .vredmax 8 (.v 9) .n32 true (some 1)),
  (0b011110_10_01000_010, [0b000010_01001_00000, 0b10100_000_0_0_1_00110], .vredmin 8 (.v 9) .n32 true (some 1)),
  (0b011110_10_01000_010, [0b000011_01001_01010, 0b10100_000_0_0_1_00000], .vperm .b32 (.v 8) (.v 9) 10 true false (some 1)),
  (0b011110_10_01000_010, [0b000100_01001_00000, 0b10100_000_0_0_1_00000], .vbcast .b32 (.v 8) 9 true (some 1)),
  (0b011110_10_01000_010, [0b000101_01001_01010, 0b10100_000_0_0_1_00000], .vslide .b32 (.v 8) (.v 9) 10 true false (some 1)),
  (0b011110_10_01000_010, [0b000110_01001_01010, 0b00000_000_0_0_1_00000], .vext .b32 8 (.v 9) 10 true false),
  (0b011110_10_01000_010, [0b000111_01001_01010, 0b00000_000_0_0_1_00000], .vins .b32 (.v 8) 9 10 true false)] = true := by decide +kernel

theorem test_decode_vector_memory : decodes [
  (0b011111_10_01000_010, [0b000000_01001_00000, 0b10100_000_0_0_1_00000], .vld .b32 8 9 true (some 1)),
  (0b011111_10_01000_010, [0b000001_01001_00000, 0b10100_000_0_0_1_00000], .vst .b32 8 9 true (some 1)),
  (0b011111_10_01000_010, [0b000010_01001_01010, 0b10100_000_0_0_1_00000], .vlds .b32 8 9 10 true false (some 1)),
  (0b011111_10_01000_010, [0b000011_01001_01010, 0b10100_000_0_0_1_00000], .vsts .b32 8 9 10 true false (some 1)),
  (0b011111_10_01000_010, [0b000100_01001_01010, 0b10100_000_0_0_1_00011], .vgather .b32 8 9 10 3 true false (some 1)),
  (0b011111_10_01000_010, [0b000101_01001_01010, 0b10100_000_0_0_1_00011], .vscatter .b32 8 9 10 3 true false (some 1)),
  (0b100000_10_01000_010, [0b000000_01001_00000, 0b10100_000_0_0_1_00000], .vldl .b32 8 9 true (some 1)),
  (0b100000_10_01000_010, [0b000001_01001_00000, 0b10100_000_0_0_1_00000], .vstl .b32 8 9 true (some 1)),
  (0b100000_10_01000_010, [0b000010_01001_01010, 0b10100_000_0_0_1_00011], .vgatherl .b32 8 9 10 3 true false (some 1)),
  (0b100000_10_01000_010, [0b000011_01001_01010, 0b10100_000_0_0_1_00011], .vscatterl .b32 8 9 10 3 true false (some 1)),
  (0b100001_10_01000_010, [0b000000_01001_00000, 0b00000_000_0_0_1_00000], .vsetvl .b32 8 9 true),
  (0b100001_10_01000_010, [0b000001_01001_00000, 0b10100_000_0_0_1_00000], .vmovs .b32 (.v 8) (.v 9) true (some 1)),
  (0b100001_10_01000_000, [0b000010_00000_00000, 0b00000_000_0_0_0_00000], .vzero 8),
  (0b100001_10_01000_010, [0b000011_00000_00000, 0b10100_000_0_0_0_00000], .vrandUnif .b32 8 (some 1))] = true ∧ decodes [
  (0b100001_10_01000_010, [0b000011_00000_00000, 0b10100_000_0_0_0_00001], .vrandGauss 8 (some 1))] = true := by decide +kernel

theorem test_decode_moment : decodes [
  (0b100100_10_01000_000, [0b000000_01001_01010, 0b10100_000_0_0_1_00000], .madd 8 9 10 true false (some 1)),
  (0b100100_10_01000_000, [0b000001_01001_01010, 0b10100_000_0_0_1_00000], .msub 8 9 10 true false (some 1)),
  (0b100100_10_01000_000, [0b000010_01001_01010, 0b10100_000_0_0_1_00000], .mmul 8 9 10 true false (some 1)),
  (0b100100_10_01000_000, [0b000011_01001_01010, 0b10100_000_0_0_1_01011], .mfma 8 9 10 11 true false false (some 1)),
  (0b100100_10_01000_000, [0b000100_01001_01010, 0b10100_000_0_0_1_00000], .mscale 8 9 10 true false (some 1)),
  (0b100100_10_01000_000, [0b000101_01001_01010, 0b10100_000_0_0_1_00000], .mshift 8 9 10 true false (some 1)),
  (0b100101_10_01000_000, [0b000000_01001_00000, 0b10100_000_0_0_1_00000], .mrelu 8 9 true (some 1)),
  (0b100101_10_01000_000, [0b000001_01001_00000, 0b10100_000_0_0_1_00000], .mexp 8 9 true (some 1)),
  (0b100101_10_01000_000, [0b000010_01001_00000, 0b10100_000_0_0_1_00000], .msigm 8 9 true (some 1)),
  (0b100101_10_01000_000, [0b000011_01001_00000, 0b10100_000_0_0_1_00000], .mtanh 8 9 true (some 1)),
  (0b100101_10_01000_000, [0b000100_01001_01010, 0b10100_000_0_0_1_00000], .mmax 8 9 10 true false (some 1)),
  (0b100110_10_01000_000, [0b000000_01001_00000, 0b10100_000_0_0_1_00000], .mld 8 9 true (some 1)),
  (0b100110_10_01000_000, [0b000001_01001_00000, 0b10100_000_0_0_1_00000], .mst 8 9 true (some 1)),
  (0b100110_10_01000_000, [0b000010_01001_00000, 0b10100_000_0_0_1_00000], .mldl 8 9 true (some 1))] = true ∧ decodes [
  (0b100110_10_01000_000, [0b000011_01001_00000, 0b10100_000_0_0_1_00000], .mstl 8 9 true (some 1)),
  (0b100110_10_01000_000, [0b000100_01001_00000, 0b10100_001_0_0_1_00000], .mpack .rtz 8 9 true (some 1)),
  (0b100110_10_01000_000, [0b000101_01001_00000, 0b10100_000_0_0_1_00000], .munpack 8 9 true (some 1)),
  (0b100111_10_01000_000, [0b000000_01001_00000, 0b10100_000_0_0_1_00000], .mredsum 8 9 true (some 1)),
  (0b100111_10_01000_000, [0b000001_01001_01010, 0b10100_000_0_0_1_00011], .mcollapse 8 9 10 3 true false (some 1)),
  (0b100111_10_01000_000, [0b000010_01001_00000, 0b10100_000_0_0_1_00000], .mcheck 8 9 true (some 1)),
  (0b100111_10_01000_000, [0b000011_01001_00000, 0b10100_000_0_0_1_00000], .mmode 8 9 true (some 1))] = true := by decide +kernel

theorem test_decode_stream_copy : decodes [
  (0b101100_10_00101_000, [0b000000_10000_00000, 0b00000_000_0_0_1_00000], .sbind 5 3 true),
  (0b101100_10_00101_000, [0b000001_00000_00000, 0b00000_000_0_0_0_00000], .sunbind 5),
  (0b101100_10_01000_000, [0b000010_00101_00000, 0b00000_000_0_0_0_00000], .sstat 8 5),
  (0b101101_10_00000_000, [0b000000_10000_00000, 0b00000_000_0_0_1_00000], .cpy 3 true),
  (0b101101_10_01000_000, [0b000001_10000_00000, 0b00000_000_0_0_1_00000], .cpyNb 8 3 true),
  (0b101101_10_01000_000, [0b000010_01001_00000, 0b00000_000_0_0_1_00000], .cpq 8 9 true)] = true := by decide +kernel

theorem test_decode_matrix : decodes [
  (0b101110_10_01000_000, [0b000000_01001_00000, 0b00000_000_0_0_1_00000], .sit 8 9 true),
  (0b101110_10_00000_000, [0b000001_00000_00000, 0b00000_000_0_0_0_00000], .unsit),
  (0b101110_10_00000_000, [0b000010_01001_00000, 0b00000_000_0_0_1_00000], .mxpal 9 true),
  (0b101111_10_00011_000, [0b000000_01001_01010, 0b00000_000_0_0_1_01011], .mxlda 3 9 10 11 true false false),
  (0b101111_10_00101_000, [0b000001_01001_01010, 0b00000_000_0_0_1_01011], .mxldb 5 9 10 11 true false false),
  (0b101111_10_01000_001, [0b000010_00011_00101, 0b00000_000_0_0_0_00000], .mxmma true 8 3 5),
  (0b101111_10_01000_001, [0b000011_00011_00101, 0b00000_000_0_0_0_00000], .mxmmaM true 8 3 5),
  (0b110000_10_01000_000, [0b000000_01001_01010, 0b00000_001_0_0_1_00000], .mxst .rtz 8 9 10 true false),
  (0b110000_10_01000_000, [0b000001_00000_00000, 0b00000_000_0_0_0_00000], .mxrel 8),
  (0b110000_10_01000_000, [0b000010_00000_00000, 0b00000_000_0_0_0_00000], .mxzero 8)] = true := by decide +kernel

theorem test_decode_tile_window : decodes [
  (0b110001_10_00101_000, [0b000000_01001_01010, 0b00000_000_0_0_1_01011], .tdecl 5 9 10 11 true false),
  (0b110001_10_01000_000, [0b000001_00011_01010, 0b00000_000_0_0_1_00000], .tpass 8 3 10 true false),
  (0b110001_10_01000_000, [0b000010_00011_00000, 0b00000_000_0_0_1_00000], .tacq 8 3 true),
  (0b110001_10_01000_000, [0b000011_00011_00000, 0b00000_000_0_0_1_00000], .tundecl 8 3 true),
  (0b110001_10_01000_000, [0b000100_00011_01010, 0b00000_000_0_0_1_00000], .tstat 8 3 10 true false),
  (0b110010_10_01000_000, [0b000000_01001_01010, 0b00000_000_0_0_1_00000], .wreg 8 9 10 true false),
  (0b110010_10_01000_000, [0b000001_01001_00000, 0b00000_000_0_0_1_00000], .wunreg 8 9 true),
  (0b110010_10_00000_000, [0b000010_01001_01010, 0b00000_000_0_0_1_01011], .put 9 10 11 true false false),
  (0b110010_10_00000_001, [0b000010_01001_01010, 0b00000_000_0_0_1_01011], .putImm 9 10 11 true false false),
  (0b110010_10_01000_000, [0b000011_01001_01010, 0b00000_000_0_0_1_00000], .wexp 8 9 10 true false),
  (0b110010_10_01000_000, [0b000100_01001_00000, 0b00000_000_0_0_1_00000], .wcnt 8 9 true),
  (0b110010_10_01000_001, [0b000100_00000_00000, 0b00000_000_0_0_0_00000], .wcntSrc 8),
  (0b110010_10_00000_000, [0b000101_01001_00000, 0b00000_000_0_0_1_00000], .wwait 9 true)] = true := by decide +kernel

theorem test_decode_barrier_message : decodes [
  (0b110100_10_01000_000, [0b000000_01001_00000, 0b00000_000_0_0_1_00000], .arrive 8 9 true),
  (0b110100_10_00000_000, [0b000001_01001_01010, 0b00000_000_0_0_1_00000], .bwait 9 10 true false),
  (0b110100_10_01000_000, [0b000010_01001_00000, 0b00000_000_0_0_1_00000], .barw 8 9 true),
  (0b110100_10_01000_000, [0b000011_01001_00000, 0b00000_000_0_0_1_00000], .bjoin 8 9 true),
  (0b110100_10_01000_001, [0b000011_01001_00000, 0b00000_000_0_0_1_00000], .bjoinLeave 8 9 true),
  (0b110100_10_00000_000, [0b000100_01001_01010, 0b00000_000_0_0_1_00000], .btimeout 9 10 true false),
  (0b110100_10_01000_000, [0b000101_01001_01010, 0b00000_000_0_0_1_00000], .bforce 8 9 10 true false),
  (0b110100_10_01000_001, [0b000101_01001_01010, 0b00000_000_0_0_1_00000], .bforceRemove 8 9 10 true false),
  (0b110101_10_01000_000, [0b000000_01110_01010, 0b00000_000_0_0_1_00000], .msend 8 6 10 true false),
  (0b110101_10_01100_000, [0b000001_01001_00000, 0b00000_000_0_0_1_00000], .mrecv 2 9 true),
  (0b110101_10_00101_000, [0b000010_01001_00000, 0b00000_000_0_0_0_00000], .mrecvC 5 9),
  (0b110101_10_01000_000, [0b000011_01001_00000, 0b00000_000_0_0_1_00000], .mwait 8 9 true),
  (0b110101_10_01000_000, [0b000100_10000_00000, 0b00000_000_0_0_1_00000], .amsg 8 3 true),
  (0b110110_01_00000_000, [0b0100_0011_0010_0001], .wait 1 2 3 4)] = true := by decide +kernel

theorem test_decode_booking : decodes [
  (0b110111_10_01000_000, [0b000000_01001_00000, 0b00000_000_0_0_1_00000], .book 8 9 true),
  (0b110111_10_01000_000, [0b000001_00000_00000, 0b00000_000_0_0_0_00000], .unbook 8),
  (0b110111_10_01000_001, [0b000001_01001_00000, 0b00000_000_0_0_1_00000], .unbookRec 8 9 true),
  (0b110111_10_01000_000, [0b000010_01001_00000, 0b00000_000_0_0_1_00000], .bkrel 8 9 true),
  (0b110111_10_01000_000, [0b000011_01001_01010, 0b00000_000_0_0_1_00000], .bkext 8 9 10 true false),
  (0b110111_10_01000_000, [0b000100_01001_00000, 0b00000_000_0_0_1_00000], .bkq 8 9 true),
  (0b111000_10_01000_010, [0b000000_01001_01010, 0b00000_000_0_0_1_00000], .lrpatch 2 8 9 10 true false),
  (0b111000_10_01000_000, [0b000001_01001_00000, 0b00000_000_0_0_1_00000], .lrarm 8 9 true),
  (0b111000_10_01000_000, [0b000010_01001_01010, 0b00000_000_0_0_1_00000], .lrstat 8 9 10 true false),
  (0b111000_10_01000_000, [0b000011_01001_01010, 0b00000_000_0_0_1_00000], .lvlcnt 8 9 10 true false),
  (0b111000_10_01000_000, [0b000100_01001_00000, 0b00000_000_0_0_1_00000], .lvlcancel 8 9 true),
  (0b111000_10_01000_001, [0b000100_01001_00000, 0b00000_000_0_0_1_00000], .lvlcancelRec 8 9 true)] = true := by decide +kernel

theorem test_decode_system : decodes [
  (0b111001_00_00000_000, [], .retire),
  (0b111001_10_00000_000, [0b000110_01001_00000, 0b00000_000_0_0_1_00000], .retireFail 9 true),
  (0b111001_00_00000_001, [], .yield),
  (0b111001_01_00000_000, [0b000010_00000_00000], .follow),
  (0b111001_00_00000_011, [], .unfollow),
  (0b111001_10_01000_000, [0b000100_01001_00000, 0b00000_000_0_0_1_00000], .salloc 8 9 true),
  (0b111001_10_01000_000, [0b000101_01001_00000, 0b00000_000_0_0_1_00000], .sfree 8 9 true),
  (0b111100_10_01000_000, [0b000000_00000_00000, 0b0000_000000010011], .csrr 8 0x013),
  (0b111100_10_01000_000, [0b000001_01001_00000, 0b0000_000000010011], .csrw 8 9 0x013),
  (0b111100_10_01000_000, [0b000010_01001_00000, 0b0000_000000010011], .csrs 8 9 0x013),
  (0b111100_10_01000_000, [0b000011_01001_00000, 0b0000_000000010011], .csrc 8 9 0x013),
  (0b111101_10_11001_000, [0b000000_00000_00000, 0x8765], .trap 0x19 0x8765),
  (0b111101_00_00000_001, [], .sret),
  (0b111101_10_00000_000, [0b000010_01001_00000, 0b00000_000_0_0_1_00000], .wsw 9 true)] = true ∧ decodes [
  (0b111101_10_00000_000, [0b000011_01001_01010, 0b00000_000_0_0_1_01011], .tlbinv 9 10 11 true false false),
  (0b111101_10_00000_001, [0b000011_00000_00000, 0b00000_000_1_0_0_01011], .tlbinvVf 11 true),
  (0b111101_10_00000_010, [0b000011_00000_00000, 0b00000_000_0_0_0_00000], .tlbinvAll),
  (0b111101_00_00000_100, [], .replayall),
  (0b111110_00_00000_000, [], .brk),
  (0b111110_10_00000_000, [0b000001_00000_00000, 0x8765], .notate 0x8765)] = true := by decide +kernel

/-! ## States for the tests -/

/-- A page of all rights at address 0: HBM, coherent. -/
def page : TlbEntry := ⟨0, 0, 0, 0, true, true, true, true, 0, 0, true, 0, true, false⟩
/-- A page of all rights of vault memory at address 0. -/
def vaultPage : TlbEntry := { page with kind := 1 }
/-- Core 0 runs slot 0 as a supervisor with translation on and the page `e` in its TLB. -/
def baseOf (e : TlbEntry) : State :=
  let s := State.reset.withFetchWord 16 0xE400
  let s := s.onWs (fun w => { w with tsw := 1, atp := 0x8000000000000000 })
  { s with core := { s.core with tlb := [e] } }
def base : State := baseOf page
/-- The base state in user mode. -/
def user : State := base.onWs (fun w => { w with tsw := 0 })
/-- Register `r` holds `v`. -/
def reg (s : State) (r : SReg) (v : Word) : State := s.onWs (fun w => w.setS r v)
/-- The vector register `r` holds `v`. -/
def vreg (s : State) (r : VReg) (v : VWord) : State := s.onWs (fun w => w.setV r v)
/-- q0 is bound for loading with one element queued, q1 for storing. -/
def streams : State :=
  let q0 : Stream := ⟨true, 0, 0, 0, 0, 0, 1, [Elem.mk 5 0 0 0], false, false, 0, 0, false⟩
  let q1 : Stream := ⟨true, 1, 0, 0, 0, 0, 0, [], false, false, 0, 0, false⟩
  base.onWs (fun w => { w with q := (w.q.set 0 q0).set 1 q1 })

theorem ringsOff_of (s : State) (ho : s.others = []) (hd : s.core.dbg = Debug.reset) : RingsOff s := by
  intro n
  have h : (s.coreOf n).dbg = Debug.reset := by
    unfold State.coreOf
    split
    · exact hd
    · rw [ho]; rfl
  rw [h]
  exact ⟨rfl, rfl, rfl⟩

theorem base_quiet : RingsOff base ∧ Sound base ∧ Memory.wf base.mem = true ∧ Memory.wf base.core.pad = true ∧ NoAcquire base :=
  ⟨ringsOff_of _ rfl rfl, ⟨rfl, rfl, rfl⟩, rfl, rfl, by intro e h; cases h⟩

/-! ## One step: the instruction at the pc runs, with the results that the spec gives -/

/-- What a test looks at in the state after one step. -/
def after {α : Type} (s : State) (f : State → α) : Option α :=
  match step s with
  | .next t => some (f t)
  | .fault _ => none
  | .refused _ => none
/-- The state whose next step runs the head and tail given, in the base state with registers set. -/
def at' (s : State) (head : Half) (tail : List Half) : State :=
  let n := tail.length
  let line : LineBuf := ⟨true, false, fld s.ws.pc 54 6 * 64, [0x0800, head] ++ List.replicate (30 - n) 0 ++ tail⟩
  s.onSlot (fun x => { x with line := line })

/-- What a test looks at after an instruction. -/
def ran {α : Type} (s : State) (i : Instr) (f : State → α) : Option α :=
  match exec i s with
  | .next t => some (f t)
  | .fault _ => none
  | .refused _ => none
def sreg (r : SReg) (s : State) : Nat := (s.ws.getS r).toNat

-- R244, R247: w = 8: 0x7F + 1 = 0x80, extended from bit 7
theorem test_add_wraps : ran (reg (reg base 9 0x7F) 10 1) (.add ⟨.b8, false⟩ (.s 8) (.s 9) 10 false false) (sreg 8) =
    some 0xFFFFFFFFFFFFFF80 := by decide +kernel
-- R247's own example: slti.n32 with -1 compares with 0xFFFF_FFFF as an unsigned value
theorem test_slti_unsigned : ran (reg base 9 0xFFFFFFFE) (.slti ⟨.b32, true⟩ 8 9 0xFFFF) (sreg 8) = some 1 ∧
    ran (reg base 9 0xFFFFFFFF) (.slti ⟨.b32, true⟩ 8 9 0xFFFF) (sreg 8) = some 0 := by decide +kernel
-- R158: a write to s0 is discarded; R166: a marked source dies
theorem test_sub_marks : ran (reg (reg base 9 5) 10 3) (.sub ⟨.b64, false⟩ (.s 0) (.s 9) 10 false true)
    (fun t => (sreg 0 t, sreg 9 t, sreg 10 t)) = some (0, 5, 0) := by decide +kernel
-- R249: truncation toward zero, and the chapter's own example of the least i32 by -1
theorem test_div_truncates : ran (reg (reg base 9 (-7)) 10 2) (.div ⟨.b64, false⟩ (.s 8) (.s 9) 10 false false) (sreg 8) =
      some (2 ^ 64 - 3) ∧
    ran (reg (reg base 9 (-7)) 10 2) (.rem ⟨.b64, false⟩ (.s 8) (.s 9) 10 false false) (sreg 8) = some (2 ^ 64 - 1) ∧
    ran (reg (reg base 9 0xFFFFFFFF80000000) 10 (-1)) (.div ⟨.b32, false⟩ (.s 8) (.s 9) 10 false false) (sreg 8) =
      some 0xFFFFFFFF80000000 := by decide +kernel
-- R250: the count is modulo w = 32: 33 shifts by 1
theorem test_shl_modulo : ran (reg (reg base 9 0x80000001) 10 33) (.shl ⟨.b32, true⟩ (.s 8) (.s 9) 10 false false) (sreg 8) = some 2 := by
  decide +kernel
-- R251: bext of 8 bits at 60 reads the bits above 63 as zero; bins at 60 writes no bit above 63
theorem test_bit_fields : ran (reg base 9 0xF000000000000000) (.bext ⟨.b64, true⟩ 8 9 60 7) (sreg 8) = some 0xF ∧
    ran (reg (reg base 9 0xFF) 8 1) (.bins ⟨.b64, false⟩ 8 9 60 7) (sreg 8) = some 0xF000000000000001 := by decide +kernel
-- R225, R257: two lines on from line 0, head 7
theorem test_branch_target : ran base (.br ⟨2, 7⟩) (fun t => t.ws.pc.toNat) = some 135 := by decide +kernel
-- R224, R257: the line of the call has one head, so the next pc, written to s31, is head 1 of the next line
theorem test_call_links : ran base (.call ⟨1, 3⟩) (fun t => (t.ws.pc.toNat, sreg 31 t)) = some (67, 65) := by decide +kernel
-- IEEE 754: 1.0 + 2.0 = 3.0 in FP32; 0 / 0 is the canonical NaN with IV (R143, R258)
theorem test_fadd : ran (reg (reg base 9 0x3F800000) 10 0x40000000) (.fadd .f32 .rne (.s 8) (.s 9) 10 false false) (sreg 8) =
    some 0x40400000 := by decide +kernel
-- R259: -1 in i32 saturates to 0 in n8
theorem test_fcvt_saturates : ran (reg base 9 0xFFFFFFFF) (.fcvt .rne (.s 8) (.s 9) .i32 .n8 false) (sreg 8) = some 0 := by
  decide +kernel
-- R261, R6: bytes are little-endian: the word stored at 64 reads back a byte at a time
theorem test_store_load : (ran (reg (reg base 8 0x11223344) 9 64) (.st ⟨.b32, true⟩ 8 9 0) (fun t => ran t (.ld ⟨.b8, true⟩ 11 9 1) (sreg 11))) =
    some (some 0x33) := by decide +kernel
-- R267: amo.add returns the old value and leaves the sum
theorem test_amo_add : ran (reg (reg base 9 64) 10 3) (.amoAdd .die .rlx ⟨.b32, true⟩ 8 9 10 false false)
    (fun t => (sreg 8 t, readLocs t.mem [64, 65])) = some (0, [3, 0]) := by decide +kernel
-- R277: with vl 2, only lanes 0 and 1 of a 32-bit form are active
theorem test_viadd_lanes : ran (vreg (vreg (base.onWs (fun w => { w with vl := 2 })) 9 0x000000030000000200000001) 10 0x000000010000000100000001)
    (.viadd ⟨.b32, true⟩ (.v 8) (.v 9) 10 false false none) (fun t => (t.ws.getV 8).toNat) = some 0x0000000300000002 := by decide +kernel
-- R296, R297: the first draw of a generator at 1, by hand: x xor x << 13, xor x >> 7, xor x << 17
theorem test_grng : (grngDraws 1 1).map (·.toNat) = [1082269761] := by decide +kernel
-- R213: no handler is set, so the trap cannot be taken: the task ends and its slot is FREE
theorem test_trap_untaken : ran base (.trap 0x19 5) (fun t => t.slot.st) = some .free := by decide +kernel
-- R379, R386: a notation changes nothing but the pc and icnt
theorem test_notate : ran base (.notate 7) (fun t => (t.ws.pc.toNat, t.slot.icnt.toNat, t.mem)) = some (65, 1, []) := by decide +kernel
-- R209: one step runs the line's head and the turn ends
theorem test_step_runs : after (at' (reg (reg base 9 2) 8 1) 0x0543 [0x0109]) (fun t => (t.coreOf 0).res.ws.pc.toNat) = some 65 := by
  decide +kernel

/-! ## The hypotheses of the statements can be met: one witness for each statement, or one for each of its clauses -/

theorem tokens_of (s : State) (rs : List SReg) (hc : s.core.copies = []) (hr : s.slot.relq = []) : TokensFree s rs := by
  constructor
  · intro r _
    unfold Core.tokenPending
    rw [hc]; rfl
  · unfold State.atomicInto
    rw [hr]; rfl
theorem no_acquire_of (s : State) (hr : s.slot.relq = []) : NoAcquire s := by
  intro e h; rw [hr] at h; cases h
theorem base_free (rs : List SReg) : TokensFree base rs := tokens_of base rs rfl rfl
theorem ready_base (rs : List SReg) : Ready base none none rs :=
  ⟨fun _ h => (by cases h), fun _ h => (by cases h), base_free rs⟩
/-- A stream as the first source and one as the destination are ready at once. -/
theorem ready_streams (rs : List SReg) : Ready streams (some 0) (some 1) rs := by
  refine ⟨?_, ?_, tokens_of streams rs rfl rfl⟩
  · intro n h; cases h; exact ⟨rfl, rfl, _, _, rfl, rfl⟩
  · intro n h; cases h; exact ⟨rfl, rfl, by decide⟩

theorem hyp_IntegerRegisterForms : Ready base (SQ.q? (.s 9)) (SQ.q? (.s 0)) [9, 0, 10] ∧
    Ready streams (SQ.q? (.q 0)) (SQ.q? (.q 1)) [10] := ⟨ready_base _, ready_streams _⟩
/-- A divisor whose low 8 bits are zero, and one whose are not. -/
theorem hyp_DivideCountForms : (Ready base none none [9, 8, 10] ∧ lowBits ⟨.b8, false⟩ (base.ws.getS 10) = 0) ∧
    (Ready (reg base 10 0xFF) none none [9, 8, 10] ∧ lowBits ⟨.b8, false⟩ ((reg base 10 0xFF).ws.getS 10) ≠ 0) :=
  ⟨⟨ready_base _, rfl⟩, ⟨fun _ h => (by cases h), fun _ h => (by cases h), tokens_of _ _ rfl rfl⟩, by decide +kernel⟩
theorem hyp_ImmediateForms : TokensFree base [9, 8] ∧ TokensFree base [0] := ⟨base_free _, base_free _⟩
theorem hyp_DivideCountForms_counts : Ready base none none [9, 8] ∧ Ready streams (some 0) (some 1) [] := ⟨ready_base _, ready_streams _⟩
theorem hyp_SelectForm : Ready base none none [9, 8, 10, 11] ∧ (0x1A43 : Half).toNat / 1024 = 6 ∧
    decode 0x1A43 [0x012A, 0x000B] = .ok (.sel ⟨.b64, false⟩ (.s 8) (.s 9) 10 11 false false false) :=
  ⟨ready_base _, by decide, rfl⟩

/-- The base state with a capability in c3: tile 2, 256 bytes at 64, all rights, generation 0. -/
def withCap (s : State) (tag : Bool) (gen rights : Nat) : State :=
  s.onWs (fun w => w.setC 3 { capOf 64 256 gen 0 rights 2 with tag := tag })
/-- Each clause of `cnarrow`: no tag; a bad offset and a bad length; the least length at the end of the range. -/
theorem hyp_CapabilityForms :
    ((withCap base false 0 7).ws.getC 3).tag = false ∧ ((withCap base true 0 7).ws.getC 3).tag = true ∧
    ¬ ((1 : Nat) % 64 = 0 ∧ 128 % 64 = 0 ∧ 128 ≤ 128 ∧ 1 + 128 ≤ ((withCap base true 0 7).ws.getC 3).length) ∧
    ((128 : Nat) % 64 = 0 ∧ 128 % 64 = 0 ∧ 128 ≤ 128 ∧ 128 + 128 ≤ ((withCap base true 0 7).ws.getC 3).length) ∧
    TokensFree (withCap base true 0 7) [10, 11, 8] := by
  refine ⟨by decide +kernel, by decide +kernel, by decide +kernel, by decide +kernel, tokens_of _ _ rfl rfl⟩
/-- A branch from line 1 to line 0, the least target; one line further back is outside the space. -/
theorem hyp_BranchForms : TokensFree base [9, 10] ∧ TokensFree base [9, 0] ∧ base.core.dbg.note.ctl.getLsbD 3 = false ∧
    Int.ofNat (base.ws.pc.toNat / 64) + (0 : BitVec 27).toInt = 0 ∧ Int.ofNat (base.ws.pc.toNat / 64) + (-1 : BitVec 27).toInt < 0 ∧
    (base.ws.getS 9 = base.ws.getS 10) ∧ lowBits ⟨.b64, true⟩ ((reg base 9 1).ws.getS 9) ≠ lowBits ⟨.b64, true⟩ ((reg base 9 1).ws.getS 10) := by
  refine ⟨base_free _, base_free _, rfl, by decide +kernel, by decide +kernel, rfl, by decide +kernel⟩
/-- The greatest pc below 2^55, and the least that is not canonical. -/
theorem hyp_JumpForms : TokensFree base [9, 31] ∧ base.core.dbg.note.ctl.getLsbD 3 = false ∧
    ((reg base 9 0x007FFFFFFFFFFFFF).ws.getS 9).toNat < 2 ^ 55 ∧ 2 ^ 55 ≤ ((reg base 9 0x0080000000000000).ws.getS 9).toNat := by
  refine ⟨base_free _, rfl, by decide +kernel, by decide +kernel⟩
/-- No flag is enabled in the base state; with every flag enabled, a division by zero is not quiet. -/
theorem hyp_FloatForms : Ready base none none [9, 8, 10, 11] ∧ Quiet base flDZ ∧
    ¬ Quiet (base.onWs (fun w => { w with fcsr := BitVec.allOnes 14 })) flDZ := by
  refine ⟨ready_base _, by unfold Quiet; decide +kernel, by unfold Quiet; decide +kernel⟩
/-- A conversion under STO, and one under RNE. -/
theorem hyp_ConvertForm : Ready base none none [9, 8] ∧ base.ws.rm .sto = .sto ∧ stoApplies .f32 .bf16 = true ∧
    Quiet base (convertElem .f32 .bf16 .sto false (srngStep 1).toNat 0x3F800000).2 := by
  refine ⟨ready_base _, rfl, rfl, by unfold Quiet; decide +kernel⟩

theorem settled_of (s : State) (h1 : s.stale = []) (h2 : s.hbm = []) : Settled s :=
  ⟨h1, fun x h => by rw [h2] at h; cases h⟩
theorem base_settled : Settled base := settled_of _ rfl rfl
/-- No read of a line of HBM, or of a page that is not coherent, waits in a state in which no die owns a line. -/
theorem base_away (s : State) (hs : ∀ l, s.ownedElsewhere l (dieOf s.cn) = false) (p : Place) (n : Nat) (hn : 0 < n)
    (hp : p.coherent = false ∨ ∀ o, o < n → hbmLine (p.loc o / 64) = true) : s.away s.cn [(p, n)] = false := by
  apply List.any_eq_false.mpr
  intro l h
  obtain ⟨o, ho, rfl⟩ := Span.lines_mem hn h
  rcases hp with hp | hp
  · have : ({ p with pa := p.pa + o } : Place).coherent = p.coherent := rfl
    simp [this, hp]
  · simp [State.lineWaits, hs, State.hostHeld, State.portCaches, hp o ho]
/-- The lines of the page at address 0 are lines of HBM. -/
theorem page_lines (va o : Nat) (h : va + o < 65536) : hbmLine ((page.place va).loc o / 64) = true := by
  have h1 : va / 65536 = 0 := by omega
  have h2 : va % 65536 = va := by omega
  have : (page.place va).loc o = va + o := by
    unfold Place.loc TlbEntry.place
    rw [h1, h2]
    simp [page]
  rw [this]
  exact decide_eq_true (by omega)
/-- Every access of the base state to the line at 64 passes, and may be made at once. -/
theorem passes_base (need : Need) (hn : need = .load ∨ need = .store ∨ need = .both) (n : Nat) (h0 : 0 < n) (h1 : n ≤ 64) :
    Passes base need 64 n page := by
  refine ⟨⟨h0, ?_, ?_, rfl, rfl, ?_⟩, no_acquire_of _ rfl, ?_, rfl, rfl, ?_, ?_⟩
  · show 64 + n ≤ 65536; omega
  · show 64 + n ≤ 2 ^ 55; omega
  · rcases hn with rfl | rfl | rfl <;> rfl
  · rcases hn with rfl | rfl | rfl <;> rfl
  · intro _
    have : ∀ l ∈ Span.lines [(page.place 64, n)], (!(l.2.coherent && base.tileRefuses base.cn l.1)) = true := by
      intro l _
      have hf : base.tileRefuses base.cn l.1 = false := rfl
      rw [hf, Bool.and_false]; rfl
    exact List.all_eq_true.mpr this
  · intro h; cases h
theorem reach_base (need : Need) (hn : need = .load ∨ need = .store ∨ need = .both) (n : Nat) (h0 : 0 < n) (h1 : n ≤ 64) :
    Reaches base need 64 n page :=
  ⟨passes_base need hn n h0 h1, rfl, fun _ => base_away base (fun _ => rfl) _ _ h0 (.inr (fun o ho => page_lines 64 o (by omega)))⟩
theorem held_base (va : Word) (n : Nat) : HeldUnder base (page.place va.toNat) n := ⟨rfl, rfl, fun _ _ => .inr (.inl rfl)⟩
theorem reach_local (wr : Bool) : ReachesLocal base 196600 8 wr := by
  refine ⟨by decide, no_acquire_of _ rfl, ?_, ?_⟩
  · cases wr <;> rfl
  · cases wr <;> decide +kernel
/-- The last eight bytes of the scratchpad, and eight bytes of memory; the point of every scope is ready for a line that no slice of
the die holds owned: at package scope with the line at its home, at core scope once the core's L1 owns it. -/
theorem hyp_LoadForms : TokensFree base [9, 8] ∧ Sound base ∧ RingsOff base ∧ Settled base ∧
    (base.ws.getS 9 + (64 : BitVec 16).signExtend 64 = 64 ∧ Reaches base .load 64 8 page ∧ HeldUnder base (page.place 64) 8) ∧
    (base.pointReady (page.place 64) ((page.place 64).line 0) .package false = true ∧
      base.pointReady (page.place 64) ((page.place 64).line 0) .die false = true) ∧
    ReachesLocal base 196600 8 false :=
  ⟨base_free _, base_quiet.2.1, base_quiet.1, base_settled, ⟨rfl, reach_base _ (.inl rfl) 8 (by omega) (by omega), held_base 64 8⟩,
    by decide +kernel, reach_local _⟩
theorem hyp_StoreForms : TokensFree base [9, 8] ∧ Sound base ∧ RingsOff base ∧ Settled base ∧ Memory.wf base.mem = true ∧
    Reaches base .store 64 8 page ∧ ReachesLocal base 196600 8 true ∧ Memory.wf base.core.pad = true :=
  ⟨base_free _, base_quiet.2.1, base_quiet.1, base_settled, rfl, reach_base _ (.inr (.inl rfl)) 8 (by omega) (by omega), reach_local _, rfl⟩
/-- The capability of c3 at its first and last eight bytes, past its end, without its tag, without the right, and of an old
generation. -/
theorem hyp_CapabilityAccess : let k := (withCap base true 0 7).ws.getC 3
    let bad := fun (k : Cap) (need ofs : Nat) => if k.tag = false then 0x10 else if need &&& k.rights ≠ need then 0x11
      else if k.length < ofs + 8 then 0x12 else 0
    k.base = 64 ∧ bad k 1 0 = 0 ∧ bad k 2 248 = 0 ∧ bad k 1 249 = 0x12 ∧ bad ((withCap base false 0 7).ws.getC 3) 1 0 = 0x10 ∧
    bad ((withCap base true 0 1).ws.getC 3) 2 0 = 0x11 ∧ (base.tile k.tid).gen.toNat = k.gen ∧
    (base.tile 2).gen.toNat ≠ ((withCap base true 1 7).ws.getC 3).gen := by decide +kernel
theorem hyp_CapabilityMoves : ((base.ws.getS 9 + (79 : BitVec 16).signExtend 64) &&& ~~~15 : Word) = 64 ∧
    Reaches base .load 64 16 page ∧ Reaches base .store 64 16 page ∧ HeldUnder base (page.place 64) 16 :=
  ⟨by decide +kernel, reach_base _ (.inl rfl) 16 (by omega) (by omega), reach_base _ (.inr (.inl rfl)) 16 (by omega) (by omega), held_base 64 16⟩
/-- An address with low bits set; an atomic at every point that is ready; a peer page, whose atomic is refused. -/
theorem hyp_AtomicForms : (Sound base ∧ RingsOff base ∧ Settled base ∧ Memory.wf base.mem = true ∧ page.kind ≤ 1 ∧
      Reaches base .both 64 8 page ∧ HeldUnder base (page.place 64) 8) ∧
    base.pointReady (page.place 64) ((page.place 64).line 0) .package true = true ∧
    ((reg base 9 71).ws.getS 9).toNat / 8 * 8 = 64 ∧ Passes base .both 64 8 page ∧
    base.atomicRefused ({ page with kind := 3 }.place 64) .add ⟨.b64, false⟩ = true ∧
    base.atomicRefused (page.place 64) .add ⟨.b64, false⟩ = false :=
  ⟨⟨base_quiet.2.1, base_quiet.1, base_settled, rfl, by decide, reach_base _ (.inr (.inr rfl)) 8 (by omega) (by omega), held_base 64 8⟩,
    by decide +kernel, by decide +kernel, passes_base _ (.inr (.inr rfl)) 8 (by omega) (by omega), by decide +kernel, by decide +kernel⟩
/-- Three entries queued leave room for one more, four do not; the access of each passes, and its atomic is not refused. -/
theorem hyp_ReleaseForms : RingsOff base ∧ Settled base ∧ base.slot.relq.length < 4 ∧
    (queued (queued (queued base (.arrive 1)) (.arrive 2)) (.arrive 3)).slot.relq.length = 3 ∧
    (4 ≤ (queued (queued (queued (queued base (.arrive 1)) (.arrive 2)) (.arrive 3)) (.arrive 4)).slot.relq.length ∧ base.booked = false) ∧
    Passes base .store 64 8 page ∧ Passes base .both 64 8 page ∧ base.atomicRefused (page.place 64) .add ⟨.b64, false⟩ = false :=
  ⟨base_quiet.1, base_settled, by decide, by decide +kernel, ⟨by decide +kernel, rfl⟩, passes_base _ (.inr (.inl rfl)) 8 (by omega) (by omega),
    passes_base _ (.inr (.inr rfl)) 8 (by omega) (by omega), by decide +kernel⟩
/-- A slot with nothing in flight whose time has come, in either mode; one with a write in flight, one with a release queued, one whose
time has not come; a source mask with nothing pending, one with a queued store. -/
theorem hyp_FenceForms : (base.slot.outLoads = 0 ∧ base.slot.trk.count = 0 ∧ base.core.carry.count = 0 ∧ base.slot.relq = [] ∧
      base.slot.fcount = 0 ∧ base.frmOn = false) ∧
    ({ base with pkg := { base.pkg with frmMode := true } } : State).frmOn = true ∧
    max base.slot.trk.v base.core.carry.v ≤ base.releaseTime base.dn ∧ base.crossV 63 ≤ base.releaseTime base.dn ∧
    base.booked = false ∧ (base.onSlot (fun x => { x with trk := ⟨1, 0⟩ })).slot.trk.count ≠ 0 ∧
    (queued base (.arrive 1)).slot.relq ≠ [] ∧ base.releaseTime base.dn < (base.onSlot (fun x => { x with trk := ⟨0, 5⟩ })).slot.trk.v ∧
    base.releaseTime base.dn < (base.onSlot (fun x => { x with trk := ⟨0, 5⟩ })).crossV 63 ∧ base.hostBefore = [] ∧
    (queued base (.store (page.place 64) .die 8 5)).slot.relq.any (fun e => e.op.place.isSome) = true ∧
    (queued base (.arrive 1)).slot.relq.any (fun e => e.op.place.isSome) = false := by
  decide +kernel
/-- The entry of a line changed. -/
def lineIn (l : Nat) (f : DirEntry → DirEntry) : State := base.onEntry l f
/-- A line that no die owns, one in M at another die, one of a tile; a copy that differs from memory; a vault line. -/
theorem hyp_CacheForms : RingsOff base ∧ Settled base ∧ TokensFree base [9] ∧ NoAcquire base ∧
    (∀ need, need = .load ∨ need = .store → Translates base need 64 1 page) ∧ base.booked = false ∧
    (page.cach = true ∧ page.kind ≠ 1 ∧ page.dev = false ∧ (base.entry 1).st ≠ 3 ∧ (base.entry 1).st ≠ 2) ∧
    ((lineIn 1 (fun e => { e with st := 2, odie := 3 })).entry 1).st = 2 ∧ ((lineIn 1 (fun e => { e with st := 3 })).entry 1).st = 3 ∧
    mapGet base.hbm 1 = none ∧ vaultPage.kind = 1 := by
  refine ⟨base_quiet.1, base_settled, base_free _, base_quiet.2.2.2.2, ?_, rfl, ?_⟩
  · intro need h
    rcases h with rfl | rfl
    · exact (passes_base _ (.inl rfl) 1 (by omega) (by omega)).1
    · exact (passes_base _ (.inr (.inl rfl)) 1 (by omega) (by omega)).1
  · decide +kernel

theorem hyp_VectorFloatForms : Ready base none none [] ∧ Ready streams (some 0) (some 1) [] ∧
    LanesQuiet base 64 none (fun i => FC.f64.lay.add .rne (laneOf 64 (base.ws.srcV (.v 9)) i) (laneOf 64 (base.ws.getV 10) i)) :=
  ⟨ready_base _, ready_streams _, by unfold LanesQuiet Quiet; decide +kernel⟩
theorem hyp_VectorWordForms : Ready base none none [] ∧
    LanesQuiet base 32 none (fun i => TFn.exp.eval (laneOf 32 (base.ws.srcV (.v 9)) i)) :=
  ⟨ready_base _, by unfold LanesQuiet Quiet; decide +kernel⟩
theorem hyp_VectorIntegerForms : Ready base (VQ.q? (.v 9)) (VQ.q? (.v 8)) [] ∧ Ready streams (VQ.q? (.q 0)) (VQ.q? (.q 1)) [] :=
  ⟨ready_base _, ready_streams _⟩
/-- The slide by -1 reads lane -1 at i = 0, which is outside; by 0 it reads lane 0. -/
theorem hyp_VectorMoveForms : Ready base none none [9, 10] ∧ Ready base none none [9] ∧ Ready streams (some 0) (some 1) [9] ∧
    (Int.ofNat 0 + ((reg base 9 (-1)).ws.getS 9).toInt < 0) ∧ (Int.ofNat 0 + (base.ws.getS 9).toInt = 0) :=
  ⟨ready_base _, ready_base _, ready_streams _, by decide +kernel, by decide +kernel⟩
theorem hyp_MaskForms : Ready base none none [] ∧ TokensFree base [8] ∧
    Quiet base (laneFlags (base.ws.active none 32) 32 (fun i => (0, (CmpTy.holds (.int ⟨.b32, true⟩) 0 (laneOf 32 (base.ws.srcV (.v 9)) i)
      (laneOf 32 (base.ws.getV 10) i)).2))) :=
  ⟨ready_base _, base_free _, by unfold Quiet; decide +kernel⟩
/-- The upper part of a narrowing to 16 bits, under STO. -/
theorem hyp_VectorConvertForm : Instr.wf (.vcvt 1 .sto (.v 8) (.v 9) .f32 .bf16 false none) = true ∧ Ready base none none [] ∧
    Quiet base (laneFlags (base.ws.active none 32) 32 (fun i => convertElem .f32 .bf16 .sto base.ws.satf 1 (laneOf 32 (base.ws.srcV (.v 9)) i))) :=
  ⟨rfl, ready_base _, by unfold Quiet; decide +kernel⟩
theorem hyp_BlockReduceForms : Ready base none none [10] ∧
    Quiet base (Raised.all (packBlock .t8 .rne base.ws.satf none (splitLanes 32 32 (base.ws.srcV (.v 9)).toNat) []).2.2) ∧
    Quiet base (laneFlags (fun _ => true) 32 (fun i => unpackElem .mxfp4 127 ((splitLanes 4 32 (base.ws.srcV (.v 9)).toNat).getD i 0))) ∧
    fld ((reg base 10 0xFF).ws.getS 10) 7 0 = 255 :=
  ⟨ready_base _, by unfold Quiet; decide +kernel, by unfold Quiet; decide +kernel, by decide +kernel⟩
/-- A reduction of every lane, and one of no lane. -/
theorem hyp_BlockReduceForms_reductions : Ready base none none [8] ∧ Ready base none none [8, 10] ∧
    Quiet base (Raised.all (reduceTree (RedOp.sum.apply .f32) 5 ((List.range 32).map (fun i => (0, [i])))).2) ∧
    (List.range 32).any ((base.onWs (fun w => { w with vl := 0 })).ws.active none 32) = false :=
  ⟨ready_base _, ready_base _, by unfold Quiet; decide +kernel, by decide +kernel⟩
theorem hyp_VectorControlForms : TokensFree base [9, 8] := base_free _

theorem local_base (wr : Bool) (o : Nat) (n : Nat) (h : o + n ≤ 256) (e : TlbEntry) (he : e = page ∨ e = vaultPage) : ReachesLocal (baseOf e) (BitVec.ofNat 64 o) n wr := by
  have ho : (BitVec.ofNat 64 o).toNat = o := by rw [BitVec.toNat_ofNat]; omega
  refine ⟨by rw [ho]; omega, no_acquire_of _ rfl, ?_, ?_⟩
  · rcases he with rfl | rfl <;> cases wr <;> rfl
  · have : (baseOf e).held (baseOf e).cn = [] := by rcases he with rfl | rfl <;> decide +kernel
    rw [this]; rfl
/-- The page reached from address 0 to 1023 by accesses of the base state. -/
theorem reach_low (need : Need) (hn : need = .load ∨ need = .store) (va : Word) (n : Nat) (h0 : 0 < n) (h1 : va.toNat + n ≤ 1024) (e : TlbEntry)
    (s : State) (he : e = page ∧ s = base ∨ e = vaultPage ∧ s = baseOf vaultPage) : Reaches s need va n e := by
  have hd : va.toNat / 65536 = 0 := by omega
  rcases he with ⟨rfl, rfl⟩ | ⟨rfl, rfl⟩ <;>
  · refine ⟨⟨⟨h0, by omega, by omega, rfl, ?_, ?_⟩, no_acquire_of _ rfl, ?_, rfl, rfl, ?_, fun h => (by cases h)⟩, rfl,
      fun _ => base_away _ (fun _ => rfl) _ _ h0 (by
        first
        | exact .inl rfl
        | exact .inr (fun o ho => page_lines _ o (by omega)))⟩
    · rw [hd]; rfl
    · rcases hn with rfl | rfl <;> rfl
    · rcases hn with rfl | rfl <;> rfl
    · intro _
      apply List.all_eq_true.mpr
      intro l _
      rw [show State.tileRefuses _ _ l.1 = false from rfl, Bool.and_false]; rfl
/-- Every lane of 32 bits from address 0 reaches its bytes. -/
theorem hyp_VectorMemoryForms : TokensFree base [9] ∧ Sound base ∧ RingsOff base ∧ NoAcquire base ∧ base.sup = true ∧
    (∀ j, j < 32 → Reaches base .load (base.ws.getS 9 + BitVec.ofNat 64 (j * 4)) 4 page ∧
      HeldUnder base (page.place (base.ws.getS 9 + BitVec.ofNat 64 (j * 4)).toNat) 4) ∧
    (∀ j, j < 32 → Reaches base .store (base.ws.getS 9 + BitVec.ofNat 64 (j * 4)) 4 page) ∧
    (∀ j, j < 32 → ∀ wr, ReachesLocal base (base.ws.getS 9 + BitVec.ofNat 64 (j * 4)) 4 wr) := by
  have hz : ∀ j, base.ws.getS 9 + BitVec.ofNat 64 (j * 4) = BitVec.ofNat 64 (j * 4) := fun j => BitVec.zero_add _
  have hv : ∀ j, j < 32 → (BitVec.ofNat 64 (j * 4)).toNat = j * 4 := by intro j hj; rw [BitVec.toNat_ofNat]; omega
  refine ⟨base_free _, base_quiet.2.1, base_quiet.1, base_quiet.2.2.2.2, rfl, ?_, ?_, ?_⟩
  · intro j hj
    rw [hz]
    exact ⟨reach_low _ (.inl rfl) _ 4 (by omega) (by rw [hv j hj]; omega) _ _ (.inl ⟨rfl, rfl⟩), held_base _ _⟩
  · intro j hj
    rw [hz]
    exact reach_low _ (.inr rfl) _ 4 (by omega) (by rw [hv j hj]; omega) _ _ (.inl ⟨rfl, rfl⟩)
  · intro j hj wr
    rw [hz]
    exact local_base wr (j * 4) 4 (by omega) page (.inl rfl)
/-- In vault memory, with no progress, every lane of 32 bits is at the address of s[A]; two lanes may meet. -/
theorem hyp_ListedMemoryForms : (baseOf vaultPage).ws.prog.getLsbD 8 = false ∧ vaultPage.kind = 1 ∧ TokensFree (baseOf vaultPage) [9, 10] ∧
    RingsOff (baseOf vaultPage) ∧ Sound (baseOf vaultPage) ∧
    (∀ need, need = .load ∨ need = .store → Reaches (baseOf vaultPage) need 64 4 vaultPage) ∧
    HeldUnder (baseOf vaultPage) (vaultPage.place 64) 4 ∧ (∀ wr, ReachesLocal (baseOf vaultPage) 64 4 wr) :=
  ⟨rfl, rfl, tokens_of _ _ rfl rfl, ringsOff_of _ rfl rfl, ⟨rfl, rfl, rfl⟩,
    fun _ h => reach_low _ h _ 4 (by omega) (by decide) _ _ (.inr ⟨rfl, rfl⟩), ⟨rfl, rfl, fun _ _ => .inr (.inl rfl)⟩,
    fun wr => local_base wr 64 4 (by omega) _ (.inr rfl)⟩

/-- The base state with the variance `v` in lane 0 of m9. -/
def moment (s : State) (v : Nat) : State := s.onWs (fun w => w.setM 9 (BitVec.ofNat 2048 (v * 2 ^ 32)))
/-- A variance of +0, of -0 and of the least negative number below it, with mcr.NVC set and clear. -/
theorem hyp_MomentForms : TokensFree base [10] ∧ varCond ((moment base 0x80000000).ws.rawLane 9 0).2 = false ∧
    ((moment base 0x80000001).ws.lanes none 32).any (fun j => varCond ((moment base 0x80000001).ws.rawLane 9 j).2) = true ∧
    base.ws.nvc = false ∧ (base.onWs (fun w => { w with mcr := 4 })).ws.nvc = true ∧
    Quiet base (laneFlags (base.ws.active none 32) 32 (fun j => (0, (laneRelu (base.ws.mlane 9 j) (MAcc.mk 0 false)).2.fl))) := by
  refine ⟨base_free _, by decide +kernel, by decide +kernel, rfl, by decide +kernel, by unfold Quiet; decide +kernel⟩
theorem hyp_MomentMoves : TokensFree base [10] ∧ TokensFree base [10, 8] ∧
    (base.ws.lanes none 32).any (fun j => varCond (base.ws.rawLane 9 j).2) = false ∧
    Quiet base (Raised.all (raisedOf (packLanes .rne base.ws.satf (base.ws.mlane 9) (base.ws.lanes none 32) []))) ∧
    Quiet base (Raised.all (raisedOf (collapseLanes 0 0 (base.ws.mlane 9) (base.ws.lanes none 32) []))) ∧
    (mredTree base.ws.ca 5 ((List.range 32).map (base.ws.mlane 9)) (MAcc.mk 0 false)).2.neg = false ∧
    Quiet base (mredTree base.ws.ca 5 ((List.range 32).map (base.ws.mlane 9)) (MAcc.mk 0 false)).2.fl := by
  refine ⟨base_free _, base_free _, by decide +kernel, by unfold Quiet; decide +kernel, by unfold Quiet; decide +kernel,
    by decide +kernel, by unfold Quiet; decide +kernel⟩
theorem hyp_MomentMemoryForms : TokensFree base [9] ∧ NoAcquire base ∧ base.sup = true ∧
    (∀ j, j < 32 → ∀ need, need = .load ∨ need = .store → Reaches base need (base.ws.getS 9 + BitVec.ofNat 64 (j * 8)) 8 page) ∧
    (∀ j, j < 32 → ∀ wr, ReachesLocal base (base.ws.getS 9 + BitVec.ofNat 64 (j * 8)) 8 wr) := by
  have hz : ∀ j, base.ws.getS 9 + BitVec.ofNat 64 (j * 8) = BitVec.ofNat 64 (j * 8) := fun j => BitVec.zero_add _
  refine ⟨base_free _, base_quiet.2.2.2.2, rfl, ?_, ?_⟩
  · intro j hj need hn
    rw [hz]
    refine reach_low _ hn _ 8 (by omega) ?_ _ _ (.inl ⟨rfl, rfl⟩)
    rw [BitVec.toNat_ofNat]; omega
  · intro j hj wr
    rw [hz]
    exact local_base wr (j * 8) 8 (by omega) page (.inl rfl)

/-- Four words in the group s16 to s19. -/
def words (s : State) (a b c d : Word) : State := reg (reg (reg (reg s 16 a) 17 b) 18 c) 19 d
/-- The base state with the stream q0 as given. -/
def strm (q : Machine.Stream) : State := base.onWs (fun w => { w with q := w.q.set 0 q })
/-- A local load stream of one element of 8 bytes in one row, a descriptor with no element, a global one; a stream that has nothing
left to write, one with an element queued, one whose write is not acknowledged; a booked task. -/
theorem hyp_StreamForms : (TokensFree base (grpRegs 3) ∧ TokensFree base [8] ∧ NoAcquire base) ∧
    base.ws.q[(0 : QReg)].draining = false ∧ base.booked = false ∧ (base.unbind 0).heldCount < 32 ∧
    (base.onWs (fun w => { w with tsw := 3 })).booked = true ∧ (12 : Word).getLsbD 1 = false ∧ (14 : Word).getLsbD 1 = true ∧
    streamOk 12 0 0x000100010001 0 = true ∧ streamOk 14 0 0x000100010001 0 = true ∧ streamOk 12 0 0 0 = false ∧
    (words base 12 0 0x000100010001 0).ws.getS (grpReg 3 2) = 0x000100010001 ∧
    (strm ⟨true, 1, 0, 0x100010001, 0, 0, 0, [Elem.mk 5 0 0 0], false, false, 0, 0, false⟩).ws.q[(0 : QReg)].draining = true ∧
    (strm ⟨true, 1, 0, 0x100010001, 0, 1, 1, [], false, false, 1, 0, false⟩).ws.q[(0 : QReg)].draining = true :=
  ⟨⟨base_free _, base_free _, base_quiet.2.2.2.2⟩, by decide +kernel⟩
/-- A command of one line, HBM to scratchpad, with no report. -/
def aCopy : CopyCmd := (words base 0 0 0 0x100000040).captureCopy 3
/-- The FIFO with room for one more, and full. -/
def fifo (n : Nat) : State := { base with core := { base.core with copies := List.replicate n aCopy } }
theorem fifo_free (n : Nat) (rs : List SReg) : TokensFree (fifo n) rs := by
  refine ⟨fun r _ => ?_, rfl⟩
  show (List.replicate n aCopy).any _ = false
  rw [List.any_eq_false]
  intro k h
  rw [List.eq_of_mem_replicate h]
  rw [show (fld aCopy.w0 21 20 == 1) = false by decide +kernel]
  simp only [Bool.and_false, Bool.false_and, Bool.false_eq_true, not_false_eq_true]
theorem hyp_CopyForms : (∀ rs, TokensFree (fifo 15) rs) ∧ (∀ n, NoAcquire (fifo n)) ∧
    ((fifo 15).onWs (fun w => { w with tsw := 3 })).booked = true ∧ ((fifo 15).onWs (fun w => { w with tsw := 3 })).holdsClaim 4 none = false ∧ (fifo 15).booked = false ∧ (fifo 15).core.fifo.length = 15 ∧
    (fifo 16).core.fifo.length = 16 ∧ (∀ rs, TokensFree (fifo 16) rs) ∧ cpyMode aCopy ≠ 1 ∧
    (fifo 15).heldCount + bit01 aCopy.srcLocal + bit01 aCopy.dstLocal ≤ 32 ∧ ((reg base 10 1).ws.getS 10).getLsbD 0 = true ∧
    (reg base 10 1).sup = true ∧ (reg user 10 1).sup = false ∧ TokensFree user [8, 10] :=
  ⟨fifo_free 15, fun _ => no_acquire_of _ rfl, by decide +kernel, by decide +kernel, rfl, by decide +kernel, by decide +kernel, fifo_free 16, by decide +kernel, by decide +kernel, by decide +kernel, rfl, rfl,
    tokens_of _ _ rfl rfl⟩

/-- A window of core 0 at entry 2 with serial 5 and one delivery still to come. -/
def window : State := base.onWin 0 2 (fun _ => WinEntry.mk true false 0 none 4096 0 0 5 1 0 0 false)
/-- The handle of that window, and one of an older serial. -/
def handle : Word := 0x00051000
theorem hyp_WindowForms : TokensFree window [8, 9, 10] ∧ window.sx.window = none ∧ window.booked = false ∧
    (hOwner handle = window.cn ∧ window.handleLive handle = true) ∧ window.handleLive 0x00041000 = false ∧
    (window.winEntry (hOwner handle) (hIndex handle)).pend ≠ 0 ∧ ((window.onWin 0 2 (fun y => { y with pend := 0 })).winEntry 0 2).pend = 0 ∧
    window.core.freeWin = some 0 ∧
    (window.onSx (fun y => { y with window := some ⟨0x16, 0x14, 0, 0, 64, 0⟩ })).sx.window = some ⟨0x16, 0x14, 0, 0, 64, 0⟩ ∧
    ({ base.core with win := Vector.replicate 32 (window.winEntry 0 2) } : Core).freeWin = none := by
  refine ⟨tokens_of _ _ rfl rfl, rfl, rfl, by decide +kernel, by decide +kernel, by decide +kernel, by decide +kernel, by decide +kernel,
    by decide +kernel, by decide +kernel⟩
/-- The lengths where `wreg` changes its answer: 63 is not aligned, 64 is the least, 196,608 the greatest, past which RANGE; for a
vault page the greatest handle address, a page of vault memory and one of HBM; the counts where `wexp` overflows. -/
theorem hyp_WindowForms_bounds :
    ¬ (0 % 64 = 0 ∧ fld (63 : Word) 23 0 % 64 = 0) ∧ (fld (64 : Word) 23 0 % 64 = 0 ∧ ¬ fld (64 : Word) 23 0 < 64) ∧
    fld (0 : Word) 23 0 < 64 ∧ ¬ 196608 < 0 + fld (196608 : Word) 23 0 ∧ 196608 < 64 + fld (196608 : Word) 23 0 ∧
    (fld (0x1000000 : Word) 23 0 = 0 ∧ (0x1000000 : Word).getLsbD 24 = true) ∧ (0x007FFFFFFFFFFFC0 : Word).toNat < 2 ^ 55 ∧
    2 ^ 55 ≤ (0x0080000000000000 : Word).toNat ∧
    ((baseOf vaultPage).ws.atp.getLsbD 63 = true ∧ (baseOf vaultPage).core.tlb.find? (fun y => y.covers 0 0) = some vaultPage ∧
      (baseOf vaultPage).leafCheck 0 false noNeed vaultPage = none) ∧
    (vaultPage.kind = 1 ∧ 0 - vaultPage.vbase * 65536 + 65536 ≤ pageFrames vaultPage.size * 65536) ∧ page.kind ≠ 1 ∧
    (1 : Nat) + (16777214 - min 16777214 0) ≤ 16777215 ∧ 16777215 < 1 + (16777215 - min 16777215 0) := by
  decide +kernel
/-- 63 puts outstanding leave room for one; a handle of core 0, one with a reserved bit, and one of a core that is absent; the last
local source of one byte, and the first outside; immediates of 8 bytes and of 9. -/
theorem hyp_PutForms : TokensFree base [9, 10, 11] ∧ NoAcquire base ∧
    64 ≤ ((base.onSlot (fun x => { x with iss := 64 })).slot.iss - base.slot.cmp).toNat ∧
    32 ≤ ({ base with core := { base.core with copies := List.replicate 32 aCopy } } : State).heldCount ∧ base.sx.window = none ∧ base.heldCount < 32 ∧
    (((base.onSlot (fun x => { x with iss := 63 })).slot.iss - base.slot.cmp).toNat < 64) ∧
    (fld handle 63 33 = 0 ∧ base.corePresent (hOwner handle) = true) ∧ fld (0x200000000 : Word) 63 33 ≠ 0 ∧
    ({ base with pkgx := { base.pkgx with present := [1] } } : State).corePresent 0 = false ∧
    fld (196607 : Word) 17 0 + (fld (0 : Word) 39 24 + 1) ≤ 196608 ∧ 196608 < fld (196608 : Word) 17 0 + (fld (0 : Word) 39 24 + 1) ∧
    fld (0x07000000 : Word) 39 24 + 1 ≤ 8 ∧ 8 < fld (0x08000000 : Word) 39 24 + 1 := by
  refine ⟨base_free _, base_quiet.2.2.2.2, by decide +kernel, by decide +kernel, rfl, by decide +kernel, by decide +kernel, by decide +kernel,
    by decide +kernel, by decide +kernel, by decide +kernel, by decide +kernel, by decide +kernel, by decide +kernel⟩
/-- Slot 0 of core 0 is a member of barrier 3, whose phase expects `e` arrivals and has `c`. -/
def barrier (e c : Nat) : State :=
  (base.onNode 0 3 (fun m => { m with member := nodeBit 0 0 })).onBar 0 3 (fun r => { r with expect := e, count := c })
theorem hyp_BarrierForms : TokensFree (barrier 2 1) [8, 9, 10] ∧ (barrier 2 1).sx.margin = 0 ∧ (barrier 2 1).sx.window = none ∧
    (barrier 2 1).isMember 0 0 3 = true ∧ base.isMember 0 0 3 = false ∧ (barrier 2 1).hasArrived 0 0 3 = false ∧
    (barrier 2 1).slot.arrivalQueued 3 = false ∧ ((barrier 2 1).pending.any (fun p => p.2 == .barrierArrival 0 0 3)) = false ∧
    ((barrier 2 1).onNode 0 3 (fun m => { m with arrived := nodeBit 0 0 })).hasArrived 0 0 3 = true ∧
    (((barrier 2 1).cluster 0).node[3]).skip &&& nodeBit 0 0 = 0 ∧
    ((((barrier 2 1).onNode 0 3 (fun m => { m with skip := nodeBit 0 0 })).cluster 0).node[3]).skip &&& nodeBit 0 0 ≠ 0 ∧
    (barrier 2 1).slot.relq.length < 4 ∧ (barrier 2 1).sx.waitBar = none ∧ (barrier 2 1).ws.ap = false := by
  refine ⟨tokens_of _ _ rfl rfl, rfl, rfl, ?_⟩
  decide +kernel
/-- The other clauses: a count of 0 and of 1; the parity equal and not; no time-out; root and not; the member named known and not. -/
theorem hyp_BarrierForms_waits : ((barrier 2 0).bar 0 3).count = 0 ∧ ((barrier 2 1).bar 0 3).count ≠ 0 ∧
    ((barrier 2 1).bar 0 3).par = (0 : Word).getLsbD 0 ∧ ((barrier 2 1).bar 0 3).par ≠ (1 : Word).getLsbD 0 ∧
    (barrier 2 1).sx.timeout = none ∧ (barrier 2 1).booked = false ∧
    (∀ w ∈ [BarWait.mk 3 true 0 false, BarWait.mk 3 true 0 true, BarWait.mk 3 false 0 true],
      ((barrier 2 1).onSx (fun y => { y with waitBar := some w })).sx.waitBar = some w) ∧
    ((barrier 2 1).onSx (fun y => { y with timeout := some (5, 0) })).sx.timeout = some (5, 0) ∧
    ((barrier 2 1).onSx (fun y => { y with margin := 0x1000000000000040 })).sx.margin ≠ 0 ∧
    ((barrier 2 1).onSx (fun y => { y with window := some ⟨0x16, 0x14, 0, 0, 64, 0⟩ })).sx.window = some ⟨0x16, 0x14, 0, 0, 64, 0⟩ ∧
    ((barrier 2 1).onWs (fun w => w.setTsw 2 2 1)).ws.ap = true ∧
    ((((barrier 2 1).onNode 0 3 (fun m => { m with forced := nodeBit 0 0 })).cluster 0).node[3]).forced &&& nodeBit 0 0 ≠ 0 ∧
    (barrier 2 1).root = true ∧ user.root = false ∧ (dieOf 0 = (barrier 2 1).dn ∧ (barrier 2 1).isMember 0 0 3 = true) ∧
    (barrier 2 1).isMember 0 1 3 = false ∧ (barrier 2 1).arrivalMade 0 0 3 = false ∧
    ((barrier 2 1).onNode 0 3 (fun m => { m with arrived := nodeBit 0 0 })).arrivalMade 0 0 3 = true := by
  decide +kernel
/-- A message of kind 8 behind a capability in the mailbox. -/
def mail : State :=
  { base with core := { base.core with mbox := [Msg.mk 2 1 0 0 false 0 5 6 true 0, Msg.mk 8 1 0 0 false 7 8 9 false 0] } }
theorem hyp_MessageForms : TokensFree mail [8, pairReg 6 0, pairReg 6 1, 10] ∧ TokensFree mail (8 :: grpRegs 3) ∧ RingsOff mail ∧
    mail.booked = false ∧ mail.slot.relq.length < 4 ∧ mail.core.dbg.dctl.getLsbD 5 = false ∧ base.core.mbox = [] ∧
    4 ≤ (queued (queued (queued (queued base (.arrive 1)) (.arrive 2)) (.arrive 3)) (.arrive 4)).slot.relq.length ∧
    ((fld (0x8000 : Word) 15 12 == 1 || fld (0x8000 : Word) 15 12 == 5 || decide (8 ≤ fld (0x8000 : Word) 15 12)) = true) ∧
    ((fld (0x7000 : Word) 15 12 == 1 || fld (0x7000 : Word) 15 12 == 5 || decide (8 ≤ fld (0x7000 : Word) 15 12)) = false) ∧
    mail.corePresent 0 = true ∧ ({ base with pkgx := { base.pkgx with present := [] } } : State).corePresent 0 = false ∧
    mail.core.mbox = [Msg.mk 2 1 0 0 false 0 5 6 true 0] ++ Msg.mk 8 1 0 0 false 7 8 9 false 0 :: [] ∧ mail.root = true ∧
    (mail.slot.outLoads ≤ (0 : BitVec 4).toNat ∧ mail.slot.outStores ≤ (0 : BitVec 4).toNat) ∧
    ¬ (base.onSlot (fun x => { x with outLoads := 1 })).slot.outLoads ≤ (0 : BitVec 4).toNat := by
  refine ⟨tokens_of _ _ rfl rfl, tokens_of _ _ rfl rfl, ringsOff_of _ rfl rfl, ?_⟩
  decide +kernel

/-- Slot 0 of core 0 holds the sitting, with stage slot 1 and weight slot 2 loaded under the palette of FP16 (R338), 16 by 32,
and accumulator slot 0 its own. -/
def sitting : State :=
  let o : OpSlot := ⟨true, 16, 32, 0x14A, [], [], 0⟩
  (base.onArray 0 (fun r => { r with sit := some ⟨0, 0, 4, 0⟩, stage := [(1, o)], weight := [(2, o)], acc := [(0, ⟨some (0, 0), [], false⟩)] })).onSx
    (fun x => { x with palette := 0x14A })
/-- Every clause: with the sitting and without; a descriptor of 16 by 32 and bad ones; a handle of the context, one of another's slot;
slots loaded and not; the palette of the form and of the other. -/
theorem hyp_MatrixForms : sitting.array.sits 0 0 = true ∧ base.array.sits 0 0 = false ∧ base.array.sit = none ∧ base.array.reqs = [] ∧
    (base.slot.wp ≠ base.core.res.wp → False) ∧
    (1 ≤ fld (0x0000002000000010 : Word) 8 0 ∧ fld (0x0000002000000010 : Word) 8 0 ≤ 256 ∧ fld (0x0000002000000010 : Word) 63 48 = 0 ∧
      (0x0000002000000010 : Word).getLsbD 11 = false ∧ 32 ≤ fld (0x0000002000000010 : Word) 47 32 ∧
      fld (0x0000002000000010 : Word) 47 32 % 32 = 0 ∧ fld (0x0000002000000010 : Word) 47 32 ≤ (palDepth 0x14A).getD 0) ∧
    ¬ 1 ≤ fld (0x0000002000000000 : Word) 8 0 ∧ ¬ fld (0x0000002000000101 : Word) 8 0 ≤ 256 ∧
    (sitting.heldCount + 2 ≤ 32) ∧
    sitting.array.slotShape true 1 = some (16, 32, 0x14A) ∧ sitting.array.slotShape false 2 = some (16, 32, 0x14A) ∧
    sitting.array.slotShape true 3 = none ∧ palMom 0x14A = false ∧ palMom 0x56B = true ∧
    (sitting.handleOk 0x100 = true ∧ (0x100 : Word).getLsbD 9 = false ∧ (0x100 : Word).getLsbD 10 = palInt 0x14A) ∧
    sitting.handleOk 0x101 = false ∧ sitting.freeSlots 1 = some [1] ∧ sitting.freeSlots 2 = some [1, 2] ∧
    palDepth ((0x14A : Word).setWidth 11) ≠ none ∧ fld (0x14A : Word) 63 11 = 0 ∧ fld (0x800 : Word) 63 11 ≠ 0 ∧ palDepth 0x011 = none ∧
    storeShapeOk 0x100 0x0010000900000010 = true ∧ storeShapeOk 0x100 0x0010000000000010 = false ∧
    (let s := sitting.onWs (fun w => { w with tsw := 3 })
     s.booked = true ∧ s.holdsClaim 2 none = false ∧ (0x0000002000000210 : Word).getLsbD 9 = true) ∧
    ¬ ({ sitting with core := { sitting.core with copies := List.replicate 32 aCopy } } : State).heldCount + 1 ≤ 32 ∧
    (let a := (List.range 16).map (fun q => (q, AccSlot.mk (some (0, 1)) [] false))
     (sitting.onArray 0 (fun r => { r with acc := a })).freeSlots 1 = none) := by
  decide +kernel
theorem hyp_MatrixForms_ready (rs : List SReg) : TokensFree sitting rs ∧ TokensFree base rs := ⟨tokens_of _ _ rfl rfl, base_free _⟩

/-- A capability of tile 2 in c3, generation 0, on the page at 0, with the tile entry `e`; every feature is enabled. -/
def tiled (e : TileEntry) : State := (withCap base true 0 7).onTile 2 (fun _ => e)
def owned : TileEntry := ⟨64, 256, 0, 0, 0, 1, some (page.place 64), 0, 0, false, none, 0, 0, 0, 7⟩
/-- Page and checks; tiles owned, free, passed to this core and to another; the statuses of a placement at their bounds: 64 bytes are
too few, 128 and 4 MiB are the ends, 64 more too many; a page that does not hold it; vault memory. -/
theorem hyp_TileForms : (∀ e rs, TokensFree (tiled e) rs) ∧ (tiled owned).booked = false ∧ (tiled owned).tileOp = none ∧
    ((tiled owned).ws.getC 3).tag = true ∧ ((tiled owned).ws.getC 3).rights &&& 4 = 4 ∧
    ((tiled owned).tile 2).gen.toNat = ((tiled owned).ws.getC 3).gen ∧
    (page.covers 0 0 = true ∧ base.leafCheck 0 false .both page = none ∧ base.leafCheck 0 false noNeed page = none) ∧
    ((tiled owned).pkgx.enabled.getLsbD 3 = true) ∧ ({ base.pkgx with enabled := 0 } : PkgX).enabled.getLsbD 3 = false ∧
    ((tiled owned).tile 2).state = 1 ∧ ((tiled TileEntry.reset).tile 2).state = 0 ∧
    ((tiled { owned with state := 2, next := 0 }).tile 2).next = 0 ∧ ((tiled { owned with state := 2, next := 5 }).tile 2).next = 5 ∧
    (tiled owned).corePresent 0 = true ∧ (tiled owned).trackV ≤ (tiled owned).releaseTime (tiled owned).dn ∧
    tilePlaceStatus page 0 64 = 5 ∧ tilePlaceStatus page 0 128 = 0 ∧ tilePlaceStatus { page with size := 4 } 0 4194304 ≠ 5 ∧
    tilePlaceStatus page 0 4194368 = 5 ∧ tilePlaceStatus page 0 131072 = 3 ∧ tilePlaceStatus vaultPage 0 128 = 4 := by
  refine ⟨fun e rs => tokens_of _ _ rfl rfl, ?_⟩
  decide +kernel
/-- Die 0 with the tile entries numbered in `l` taken. -/
def taken (l : List Nat) : State := { base with dies := [(0, { Die.reset with tiles := l.map (fun i => (i, owned)) })] }
theorem taken_get (l : List Nat) (n : Nat) (h : n ∈ l) : mapGet (l.map (fun i => (i, owned))) n = some owned := by
  induction l with
  | nil => cases h
  | cons a t ih =>
    by_cases ha : a = n
    · simp only [List.map_cons, mapGet, ha, if_true]
    · simp only [List.map_cons, mapGet, ha, if_false]
      exact ih ((List.mem_cons.mp h).resolve_left (fun e => ha e.symm))
theorem taken_tile (l : List Nat) (i : Nat) (h : i ∈ l) (hi : i < 8192) : (taken l).tile (0 * 8192 + i) = owned := by
  unfold State.tile
  rw [show (0 * 8192 + i) / 8192 = 0 by omega, show (0 * 8192 + i) % 8192 = i by omega]
  exact congrArg (·.getD TileEntry.reset) (taken_get l i h)
/-- A free entry, an operation that is done, and a die whose 8,192 entries are all taken. -/
theorem hyp_TileForms_entries : base.freeTile 0 = some 0 ∧
    ((base.onSx (fun x => { x with tileOps := [⟨0, 0, 0, base.ws.pc, true, 0⟩] })).tileOp = some ⟨0, 0, 0, base.ws.pc, true, 0⟩) ∧
    (taken (List.range 8192)).freeTile 0 = none := by
  refine ⟨by decide +kernel, by decide +kernel, ?_⟩
  unfold State.freeTile
  rw [Option.map_eq_none_iff, List.find?_eq_none]
  intro i hi
  rw [taken_tile _ i hi (List.mem_range.mp hi)]
  decide

/-- Record 5 of die 0 in state `st`, placed on core 0 of die 0 with one unit, taken by slot 0 of core 0, bookable when `bk` is 1. -/
def recorded (st bk : Nat) (admitted : Bool) : State :=
  base.onRec 0 5 (fun r => { r with
    w := (((r.w.set 3 0x000100010001).set 4 1).set 8 (BitVec.ofNat 64 bk)).set 13 (BitVec.ofNat 64 st)
    admitted := admitted })
/-- A booked unit of that record with a CORE claim and a launch claim of four tempi. -/
def bookedUnit : State :=
  let l : Launch := ⟨recKey 0 5, 0, 0, [⟨0, 1, 0, 1, 0, 4, 4, false⟩, ⟨1, 6, 0, 1, 0, 4, 4, false⟩], true, true, false⟩
  ((recorded 4 1 true).onCluster 0 (fun c => { c with cal := { c.cal with launches := [l] } })).onSx
    (fun x => { x with task := ⟨.unit 0 5 0, 1, true, 0, 4, 0, false, 0⟩ })
/-- The record numbers 511 and 512; a record idle, taken, bookable, admitted; answers; units booked, free and none; extensions of 1, of
4,092 past which RANGE of the horizon, of 4,096 and 4,097. -/
theorem hyp_BookForms : recOf 511 = some 511 ∧ recOf 512 = none ∧ recOf 5 = some 5 ∧
    ((recorded 0 1 false).record 0 5).takenBy base = false ∧ ((recorded 2 1 false).record 0 5).takenBy base = true ∧
    ((recorded 2 1 false).record 0 5).w[8].getLsbD 0 = true ∧ ((recorded 2 0 false).record 0 5).w[8].getLsbD 0 = false ∧
    ((recorded 2 1 true).record 0 5).admitted = true ∧ base.sx.answer = none ∧
    (base.onSx (fun y => { y with answer := some (⟨0, 5, 0, 0, 0, false, 0⟩, 0) })).sx.answer = some (⟨0, 5, 0, 0, 0, false, 0⟩, 0) ∧
    (base.cluster ((recorded 2 1 false).record 0 5).cluster).cal.queue = [] ∧ base.root = true ∧ user.root = false ∧
    base.myUnit = none ∧ bookedUnit.myUnit = some (0, 5) ∧ bookedUnit.sx.task.booked = true ∧ (bookedUnit.launchOf 0 5).isSome = true ∧
    (base.onWs (fun w => { w with tsw := 3 })).booked = true ∧ base.queued (base.cluster 0).cal = false := by
  decide +kernel
theorem hyp_BookForms_extend : (∃ l, bookedUnit.launchOf 0 5 = some l ∧ (bookedUnit.claimsExtended l 2).length = 2 ∧
    (bookedUnit.claimsExtended l 2).any (fun k => decide (bookedUnit.tempo bookedUnit.dn + 4096 < k.fin + 4092)) = false ∧
    (bookedUnit.claimsExtended l 2).any (fun k => decide (bookedUnit.tempo bookedUnit.dn + 4096 < k.fin + 4093)) = true ∧
    extendFits (bookedUnit.bookedFor bookedUnit.cl) 1 (bookedUnit.claimsExtended l 2) [] = true ∧
    extendFits (fun _ _ => [⟨0, 1, 0, 1, 4, 5, 5, false⟩]) 1 (bookedUnit.claimsExtended l 2) [] = false) ∧
    (1 ≤ 4096 ∧ 4096 < 4097) := by
  refine ⟨⟨⟨recKey 0 5, 0, 0, [⟨0, 1, 0, 1, 0, 4, 4, false⟩, ⟨1, 6, 0, 1, 0, 4, 4, false⟩], true, true, false⟩, ?_⟩, by decide⟩
  decide +kernel
/-- Records pooled, taken by this context, taken by another, armed; words 3 and 7 in range and out; checks passed and failed. -/
theorem hyp_RecordForms : ((recorded 1 0 false).record 0 5).state = 1 ∧ ((recorded 2 0 false).record 0 5).state = 2 ∧
    ((recorded 2 0 false).record 0 5).takenBy base = true ∧ ((recorded 10 0 false).record 0 5).takenBy base = false ∧
    ((recorded 4 0 false).record 0 5).state = 4 ∧ ((recorded 2 0 false).record 0 5).vfn = base.vfn ∧
    fld (0x0000FFFFFFFFFFFF : Word) 63 48 = 0 ∧ fld (0x0001000000000000 : Word) 63 48 ≠ 0 ∧ fld (0x3FFFFFFF : Word) 63 30 = 0 ∧
    fld (0x40000000 : Word) 63 30 ≠ 0 ∧ (recorded 2 0 false).armStatus 0 ((recorded 2 0 false).record 0 5) = 0 ∧
    base.armStatus 0 (base.record 0 5) = 4 ∧ (recorded 2 0 false).graphFrozen 0 ((recorded 2 0 false).record 0 5) = false ∧
    (base.trackV ≤ base.releaseTime base.dn ∧ base.slot.trk.count = 0 ∧ base.core.carry.count = 0 ∧ base.slot.relq = []) ∧
    ((recorded 2 1 false).record 0 5).w[8].getLsbD 0 = true ∧
    ((recorded 2 0 false).record 0 5).w[8].getLsbD 0 = false ∧ ((recorded 2 3 false).record 0 5).w[8].getLsbD 1 = true ∧
    (recorded 2 1 false).armStatus 0 ((recorded 2 1 false).record 0 5) = 0 ∧
    (recorded 2 1 false).queued ((recorded 2 1 false).cluster ((recorded 2 1 false).record 0 5).cluster).cal = false ∧
    (let s := (recorded 2 1 false).onSx (fun y => { y with answer := some (⟨0, 5, 0, 0, 0, true, 0⟩, 4) })
     s.sx.answer = some (⟨0, 5, 0, 0, 0, true, 0⟩, 4) ∧ s.armAnswered 5 = true) ∧ (recorded 2 1 false).armAnswered 5 = false ∧
    ((base.onRec 0 5 (fun r => { r with frozen := true })).record 0 5).frozen = true := by
  decide +kernel
/-- A level counter of kind 2 owned by VFN 0, one of kind 5, and one of VFN 1; a frozen graph of a record in it. -/
theorem hyp_RecordForms_levels : ((base.setLevel 0 7 (2 <<< 112)).level 0 7).extractLsb' 112 3 = 2 ∧
    ((base.setLevel 0 7 (5 <<< 112)).level 0 7).extractLsb' 112 3 = 5 ∧
    ((base.setLevel 0 7 ((2 <<< 112) + (1 <<< 117))).level 0 7).extractLsb' 117 6 = 1 ∧ base.level 0 0 = 0 ∧
    (((base.setLevel 0 7 (1 <<< 116))).graphFrozen 0 { Rec.reset with w := Rec.reset.w.set 7 7 }) = true := by
  decide +kernel
/-- A task with nothing to drain and one with a write in flight; allocations of 1 byte and of 196,480, with room and without, of
196,481; one made by the task, one not, and one in use. -/
theorem hyp_TaskForms : base.sx.margin = 0 ∧ base.drained = true ∧ (base.onSlot (fun x => { x with outLoads := 1 })).drained = false ∧
    base.booked = false ∧ (base.onWs (fun w => { w with tsw := 3 })).booked = true ∧
    ((base.onWs (fun w => { w with tsw := 3 })).onSlot (fun x => { x with outLoads := 1 })).drained = false ∧
    base.trackV ≤ base.releaseTime base.dn ∧
    (∃ p, base.core.allocate 0 .made (roundUp 1) = some p) ∧ (∃ p, base.core.allocate 0 .made (roundUp 196480) = some p) ∧
    ({ base.core with allocs := [⟨0, 196608, 0, .declared⟩] } : Core).allocate 0 .made 64 = none ∧
    ([Alloc.mk 64 128 0 .made].find? (fun x => x.base == 64 && x.kind == .made && x.slot == 0)) = some ⟨64, 128, 0, .made⟩ ∧
    (base.core.allocs.find? (fun x => x.base == 64 && x.kind == .made && x.slot == 0)) = none ∧
    heldMeets (base.held 0) 64 128 true = false ∧ heldMeets ((fifo 1).held 0) 0 128 true = true := by
  refine ⟨by decide +kernel, by decide +kernel, by decide +kernel, by decide +kernel, by decide +kernel, by decide +kernel,
    by decide +kernel, ⟨_, rfl⟩, ⟨_, rfl⟩, ?_⟩
  decide +kernel
/-- A register that anyone reads and writes, one for supervisors, one for root, each allowed and forbidden; a handler workspace that
R22 allows, at the last place, and one past it. -/
theorem hyp_CsrForms : base.csrReadable 0x001 = true ∧ base.csrWritable 0x001 = true ∧ user.csrReadable 0x030 = false ∧
    base.csrReadable 0x030 = true ∧ user.csrWritable 0x000 = false ∧ base.csrWritable 0x850 = true ∧ user.csrWritable 0x850 = false ∧
    base.csrReadable 0x850 = true ∧ wpOk (fld (187392 : Word) 17 0) = true ∧ wpOk (fld (187456 : Word) 17 0) = false ∧
    TokensFree base [8, 9] ∧ base.slot.relq = [] := by
  refine ⟨?_, ?_, ?_, ?_, ?_, ?_, ?_, ?_, ?_, ?_, base_free _, rfl⟩ <;> decide +kernel
/-- A handler at workspace 9,216, not in use, no workspace besides the trapped one being resident. -/
def handled : State := base.onSlot (fun x => { x with tctl := 0x200002400, tvec := 0x1000 })
theorem hyp_TrapForms : causeTabled 0x19 = true ∧ causeTabled 0x1A = false ∧ causeTabled 0x1B = true ∧ handled.sup = true ∧ user.sup = false ∧
    (0xF6C8 : Half) = 0xF600 + BitVec.ofNat 16 (8 * 0x19) := by decide +kernel
theorem hyp_TrapEntry : handled.core.dbg.dctl.getLsbD 5 = false ∧ handled.core.dbg.dctl.getLsbD 3 = false ∧
    handled.slot.tctl.getLsbD 33 = true ∧ handled.slot.tctl.getLsbD 32 = false ∧ fld handled.slot.tctl 17 0 ≠ handled.slot.wp ∧
    RingsOff handled ∧ Memory.wf handled.core.pad = true ∧ handled.slot.wp = handled.core.res.wp ∧ handled.core.alt = none ∧
    base.slot.tctl.getLsbD 33 = false :=
  ⟨rfl, rfl, rfl, rfl, by decide +kernel, ringsOff_of _ rfl rfl, rfl, rfl, rfl, rfl⟩
-- R213, R382: SYSCALL with immediate 5: cause, detail, the vector's first head, supervisor with the cause, and the saved pc
theorem test_syscall : ran handled (.trap 0x19 5) (fun t => (fld t.slot.fault.fcause 7 0, t.slot.fault.fdetail.toNat, t.ws.pc.toNat,
    fld t.ws.tsw 15 8, t.slot.wp)) = some (0x19, 5, 0x1001, 0x19, 9216) ∧
    ran handled (.trap 0x19 5) (fun t => t.core.padRead 8640 8) = some (toBytes 8 65) := by decide +kernel
/-- The trapped workspace at 0 is resident beside the handler's at 9,216, none of its parts stored since. -/
def returning : State :=
  let c := { handled.core with alt := some ⟨0, Ws.reset, 0⟩, res := { handled.core.res with wp := 9216 } }
  ({ handled with core := c } : State).onSlot (fun x => { x with wp := 9216 })
theorem hyp_ReturnForms : returning.sup = true ∧ user.sup = false ∧ wpOk returning.slot.fault.fwp.toNat = true ∧
    (∃ r, returning.core.alt = some r ∧ r.wp = returning.slot.fault.fwp.toNat ∧ r.mask = 0 ∧ r.wp + 9216 ≤ returning.core.res.wp) ∧
    wpOk ((reg returning 9 187392).ws.getS 9).toNat = true ∧ wpOk ((reg returning 9 187393).ws.getS 9).toNat = false ∧
    RingsOff returning ∧ returning.sx.task.overrun = false ∧ TokensFree returning [9] := by
  refine ⟨by decide +kernel, by decide +kernel, by decide +kernel, ⟨_, rfl, by decide +kernel, by decide +kernel, by decide +kernel⟩,
    by decide +kernel, by decide +kernel, ringsOff_of _ rfl rfl, by decide +kernel, tokens_of _ _ rfl rfl⟩

/-- The base state with the package registers changed, with core 0 changed, with die 0 as given. -/
def pkged (f : Pkg → Pkg) : State := { base with pkg := f base.pkg }
def cored (f : Core → Core) : State := { base with core := f base.core }
def bugged (f : Debug → Debug) : State := cored (fun c => { c with dbg := f c.dbg })
def died (f : Die → Die) : State := { base with dies := [(0, f Die.reset)] }
def clocked (f : DieClock → DieClock) : State := died (fun d => { d with clk := f d.clk })
def slotted (i : SlotId) (f : Slot → Slot) : State := cored (fun c => c.onSlot i f)
def clustered (f : Cluster → Cluster) : State := base.onCluster 0 f
def arrayed (f : MxArray → MxArray) : State := base.onArray 0 f
/-- Line 5 of die 0 with the entry given. -/
def lined (f : DirEntry → DirEntry) : State := died (fun d => { d with dir := [(5, f (DirEntry.absent 0))] })

/-- Root with nothing in flight; a user. -/
theorem hyp_ControlForms : (base.root = true ∧ base.booked = false ∧ base.slot.outLoads = 0 ∧ base.slot.trk.count = 0 ∧
    base.core.carry.count = 0 ∧ base.slot.relq = [] ∧ base.frmOn = false ∧ base.trackV ≤ base.releaseTime base.dn) ∧ user.root = false ∧
    TokensFree base [9, 10, 11] := by
  refine ⟨by decide +kernel, by decide +kernel, base_free _⟩
/-- A core stopped, stopping and running; an entry of the fault buffer; the features settled or not, with release mode or without; dies
that have not answered; releases held; the first and the last key. -/
theorem hyp_RegisterEvents :
    ((bugged (fun d => { d with dstat := 1 })).coreOf 0).dbg.dstat.getLsbD 0 = true ∧ (base.coreOf 0).dbg.dstat.getLsbD 0 = false ∧
    ((bugged (fun d => { d with dstat := 2 })).coreOf 0).dbg.dstat.getLsbD 1 = true ∧ (base.coreOf 0).dbg.dstat.getLsbD 1 = false ∧
    ((slotted 1 (fun x => { x with st := .stop, prev := .ready })).coreOf 0).slot 1 =
      { Slot.reset with st := .stop, prev := .ready } ∧
    (base.cluster 0).fb[fin8 (511 % 8)].valid = false ∧
    ((clustered (fun c => { c with fb := c.fb.set 7 ⟨true, 3, 0, 1, 0, [⟨.ctx 0 0, 1, 0, 3, 0⟩], 1⟩ })).cluster 0).fb[fin8 (15 % 8)].valid = true ∧
    base.pkgx.featDone = true ∧ State.reset.pkgx.featDone = false ∧ base.pkgx.enabled.getLsbD 10 = true ∧
    State.reset.pkgx.enabled.getLsbD 10 = false ∧ base.pkg.frmBusy = [] ∧ (pkged (fun p => { p with frmBusy := [0, 1] })).pkg.frmBusy ≠ [] ∧
    setDel (pkged (fun p => { p with frmBusy := [0, 1] })).pkg.frmBusy 0 ≠ [] ∧ base.heldReleases 0 = false ∧
    (slotted 0 (fun x => { x with relq := [⟨.arrive 1, 0, [0, 0, 0, 0], 0, 0, 0, false, false⟩] })).heldReleases 0 = true ∧
    ((0 : Nat) < 1 ∧ 1 < 512) ∧ ((0 : Nat) < 511 ∧ 511 < 512) ∧ (4 ≠ 3 ∧ 4 ≠ 5) ∧
    (let s := pkged (fun p => { p with frmBusy := [8], frmNext := [true] })
     setDel s.pkg.frmBusy 8 = [] ∧ s.pkg.frmNext = true :: []) ∧ base.pkg.frmNext = [] ∧
    (base.fn 0).ranges.length = 4 ∧ base.pkg.adjNow = 0 ∧ (0x8000000000000000 : Word).getLsbD 63 = true ∧ (0 : Word).getLsbD 63 = false := by
  decide +kernel
/-- A page of device registers at address 0, which a supervisor of VFN 0 reads and writes at a multiple of 8, and no user does. -/
def devicePage : TlbEntry := { page with dev := true, user := false }
theorem hyp_RegisterEvents_access : (∀ need, need = .load ∨ need = .store → ReachesDevice (baseOf devicePage) need 64 devicePage) ∧
    TokensFree (baseOf devicePage) [9, 8] ∧ Sound (baseOf devicePage) ∧ (devicePage.place 64).pa = 64 := by
  refine ⟨?_, tokens_of _ _ rfl rfl, ⟨rfl, rfl, rfl⟩, rfl⟩
  intro need h
  rcases h with rfl | rfl <;>
  exact ⟨⟨by decide, by decide, by decide, rfl, rfl, by decide +kernel⟩, no_acquire_of _ rfl, by decide +kernel, rfl, rfl, by decide +kernel,
    rfl⟩
/-- An adjournment to re-arm; the watchdog off, one cycle short and just expired; lines of the recorders one cycle young and just late;
the last cycle without a time record and the first with one. -/
theorem hyp_RecorderEvents :
    let r : Nat → Ring := fun t => ⟨1, 0, 0, [5], t, 0, 0, []⟩
    let l : Option Nat → RingLine := fun v => ⟨64, [5], 16, true, v⟩
    let o : Option Nat → Ring := fun v => { r 0 with buf := [], out := [l v] }
    ((base.coreOf 0).dbg.note.out = [] ∧ (base.coreOf 0).dbg.mlog.out = [] ∧ base.pkg.adjNow = 0) ∧
    (let s := bugged (fun d => { d with note := o (some 0) })
     (s.coreOf 0).dbg.note.out = [l (some 0)] ∧ 0 ≤ s.releaseTime (dieOf 0) ∧ (s.coreOf 0).dbg.note.buf = []) ∧
    ((bugged (fun d => { d with note := o none })).coreOf 0).dbg.note.out = [l none] ∧
    ((bugged (fun d => { d with mlog := o none })).coreOf 0).dbg.mlog.out = [l none] ∧
    (basePlace (l none).addr).line 0 = 1 ∧
    ((pkged (fun p => { p with adjctl := 0x401 })).pkg.adjctl.getLsbD 0 = true ∧ (0x401 : Word).getLsbD 10 = true) ∧
    base.pkg.adjctl.getLsbD 0 = false ∧ (Nat.testBit 1 0 = true ∧ base.pkg.adjctl.getLsbD (6 + 0) = true) ∧ base.pkg.adjctl.getLsbD 8 = true ∧
    base.pkg.adjctl.getLsbD 9 = true ∧ base.pkg.wdogStart = none ∧
    (let s := pkged (fun p => { p with wdog := 1, wdogStart := some 4, ptime := 65539 })
     s.pkg.wdogStart = some 4 ∧ s.pkg.ptime < 4 + fld s.pkg.wdog 31 0 * 65536) ∧
    (let s := pkged (fun p => { p with wdog := 1, wdogStart := some 4, ptime := 65540 })
     s.pkg.wdogStart = some 4 ∧ 4 + fld s.pkg.wdog 31 0 * 65536 ≤ s.pkg.ptime) ∧
    (fld base.pkg.storm 15 0 ≠ 0 ∧ fld (pkged (fun p => { p with storm := 0 })).pkg.storm 15 0 = 0) ∧
    ((r 8).buf ≠ [] ∧ (r 8).first + 1024 ≤ (pkged (fun p => { p with ptime := 1032 })).pkg.ptime ∧
      ¬ (r 9).first + 1024 ≤ (pkged (fun p => { p with ptime := 1032 })).pkg.ptime ∧ (base.coreOf 0).dbg.mlog.buf = []) ∧
    (let s := { bugged (fun d => { d with note := r 0 }) with pkg := { base.pkg with ptime := 4194303 } }
     (s.coreOf 0).dbg.note.ctl.getLsbD 0 = true ∧ (s.coreOf 0).dbg.note.last + 4194303 ≤ s.pkg.ptime ∧
       ({ s with pkg := { base.pkg with ptime := 4194302 } } : State).pkg.ptime < (s.coreOf 0).dbg.note.last + 4194303) := by
  decide +kernel
/-- The line state with its clock locked, at the time `t`. -/
def placed (t : Nat) (f : DirEntry → DirEntry) : State :=
  { lined f with
    dies := [(0, { Die.reset with clk := { DieClock.reset with lstat := 1 }, dir := [(5, f (DirEntry.absent 0))] })]
    pkg := { base.pkg with ptime := t } }
theorem settled_base : RingsOff base ∧ Settled base ∧ Memory.wf base.mem = true := ⟨base_quiet.1, base_settled, rfl⟩
theorem settled_lined (f : DirEntry → DirEntry) : RingsOff (lined f) ∧ Settled (lined f) ∧ Memory.wf (lined f).mem = true :=
  ⟨ringsOff_of _ rfl rfl, settled_of _ rfl rfl, rfl⟩
theorem settled_placed (t : Nat) (f : DirEntry → DirEntry) :
    RingsOff (placed t f) ∧ Settled (placed t f) ∧ Memory.wf (placed t f).mem = true :=
  ⟨ringsOff_of _ rfl rfl, settled_of _ rfl rfl, rfl⟩
/-- Line 5 of HBM, whose home is die 0, for die 3: absent, in L with a hint of it and of die 4 before and past its horizon, being cut,
in M at it and at another, of a tile; ownership asked for by nobody, by it, by another; its slice with the line and without; a recall
sent, answered, held for 262,144 cycles; clocks running and stopped; a word of that line for the atomics. -/
theorem hyp_DirectoryEvents :
    let l := fun (st hint : Nat) => placed 0 (fun e => { e with st := st, hint := BitVec.ofNat 8 hint, hz := 9 })
    let m := fun (die : Nat) => placed 0 (fun e => { e with st := 2, odie := die })
    let cut := fun (cuas : List Nat) => placed 0 (fun e => { e with st := 1, cutting := true, cuas := cuas })
    let tile := (placed 0 (fun e => { e with st := 3, tid := 2 }))
    let back := fun (t : Nat) => placed t (fun e => { e with st := 2, odie := 3, recalled := some 0 })
    let kept := { base with dies := [(3, { Die.reset with l2 := [(5 % (192 * 768), [⟨5, 0, 0, 0, 0, none, 0, none⟩])] })] }
    (base.lineHome 5 = 0 ∧ hbmLine 5 = true ∧ (l 0 0).locked 0 = true ∧ (l 0 0).ptimeOf 0 < 9 + (l 0 0).pkg.gband) ∧
    ((m 4).entry 5).st = 2 ∧ ((m 4).entry 5).odie ≠ 3 ∧ ((m 3).entry 5).odie = 3 ∧ ((l 1 8).entry 5).st = 1 ∧
    ((l 1 8).entry 5).hint.getLsbD 3 = true ∧ ((l 1 8).entry 5).cutting = false ∧ base.locked 3 = false ∧
    ({ base with dies := [(3, { Die.reset with clk := { DieClock.reset with lstat := 1 } })] } : State).locked 3 = true ∧
    base.l2Any 3 5 = none ∧ (kept.l2Any 3 5).isSome = true ∧
    (tile.tileRefuses 0 5 = true ∧ (tile.onTile 2 (fun _ => owned)).tileRefuses 0 5 = false ∧ base.tileRefuses 0 5 = false) ∧
    ((base.entry 5).ownReq = [] ∧ (base.entry 5).hint = 0 ∧ (base.entry 5).st = 0) ∧
    ((placed 0 (fun e => { e with ownReq := [3] })).entry 5).ownReq.head? = some 3 ∧
    ((placed 0 (fun e => { e with ownReq := [3] })).entry 5).lhz ≤ 0 ∧ base.hostOwns 5 = true ∧ (base.l2Set 3 5).length < 16 ∧
    (3 ∉ ((placed 0 (fun e => { e with ownReq := [4] })).entry 5).ownReq) ∧ hintDies ((l 1 16).entry 5).hint = [4] ∧
    ((clocked (fun c => { c with running := false })).die 0).clk.running = false ∧ (base.die 0).clk.running = true ∧
    ((cut [3, 4]).entry 5).cutting = true ∧ ((cut [3, 4]).entry 5).cuas = [3, 4] ∧ ((cut [3]).entry 5).cuas = [3] ∧
    ((cut [3]).entry 5).hz + base.pkg.gband ≤ ({ cut [3] with pkg := { base.pkg with ptime := 64 } } : State).releaseTime 0 ∧
    (let s := placed 73 (fun e => { e with st := 1, hint := 8, hz := 9 })
     (s.entry 5).cutting = false ∧ (s.entry 5).hz + s.pkg.gband ≤ s.ptimeOf (s.lineHome 5)) ∧
    (base.entry 5).recalled = none ∧ ((back 0).entry 5).recalled = some 0 ∧ ((back 0).die 3).clk.running = true ∧
    ((back 0).entry 5).ownReq = [] ∧ ((back 0).entry 5).waits = [] ∧ ((back 0).entry 5).leaves = false ∧
    0 + 262144 ≤ (back 262144).ptimeOf ((back 262144).lineHome 5) ∧ (tile.entry 5).st = 3 ∧
    (320 < 2 ^ 48 ∧ 320 % ((⟨.b64, false⟩ : IT).bits / 8) = 0 ∧ 327 % ((⟨.b8, false⟩ : IT).bits / 8) = 0 ∧ base.bad = [] ∧
      base.ownedElsewhere (320 / 64) 0 = false ∧ base.keyLoaded (base.placeOfKey 320).key = true ∧ base.slot.wp = base.core.res.wp) := by
  decide +kernel
/-- A table whose first entry points to itself and whose second is a leaf of 32 MiB that can be read: the page 8,192 is there. -/
def tabled : State := { base with mem := [(0, 0x81), (8, 0x43)] }
/-- A die locked whose last beacon is 4,095 and 4,096 cycles old; a clock stopped; releases that may go, must wait for their time, for a
write, for the router; a store whose point is ready; an atomic at a port; the host's feature off and on, a line in M, of a tile, snooped;
15 walks and a miss, a walk that finds its page. -/
theorem hyp_ClockEvents :
    let lk : State := clocked (fun c => { c with lstat := 1, lastBeacon := 1 })
    let q : RelOp → Nat → Nat → State := fun o n v => slotted 0 (fun x => { x with relq := [⟨o, 1, [0, 0, 0, 0], n, v, n, false, false⟩] })
    let am : RelEntry := ⟨.amo (page.place 0) .system .add ⟨.b64, false⟩ 1 0 9 0 false, 1, [0, 0, 0, 0], 0, 0, 0, true, false⟩
    let w : Walk := ⟨0, 8192, 0x8000000000000000, [(.ctx 0 0, 1)]⟩
    (lk.locked 0 = true ∧ ({ lk with pkg := { lk.pkg with ptime := 4096 } } : State).pkg.ptime < (lk.die 0).clk.lastBeacon + 4096 ∧
      (lk.die 0).clk.lastBeacon + 4096 ≤ ({ lk with pkg := { lk.pkg with ptime := 4097 } } : State).pkg.ptime) ∧
    base.locked 0 = false ∧ ((clocked (fun c => { c with running := false })).die 0).clk.running = false ∧ (base.die 0).clk.running = true ∧
    (base.coreOf 0).readyRelease 0 false = none ∧ ((q (.arrive 1) 1 0).coreOf 0).readyRelease 0 false = none ∧
    ((q (.arrive 1) 0 0).coreOf 0).readyRelease 0 false = some ⟨.arrive 1, 1, [0, 0, 0, 0], 0, 0, 0, false, false⟩ ∧
    ((q (.arrive 1) 0 9).coreOf 0).readyRelease 0 true = some ⟨.arrive 1, 1, [0, 0, 0, 0], 0, 9, 0, false, false⟩ ∧
    base.frmOn = false ∧ (pkged (fun p => { p with frmMode := true })).frmOn = true ∧ 0 ≤ base.releaseTime (dieOf 0) ∧
    base.releaseTime (dieOf 0) < 9 ∧ base.pointReady (page.place 64) ((page.place 64).line 0) .die false = true ∧
    base.relRefused base.cn (.store (page.place 64) .die 8 5) = false ∧ (page.place 64).pa % 8 + 8 ≤ 8 ∧ (page.place 64).kind ≤ 1 ∧
    ((base.coreOf 0).slot 0).relq = [] ∧
    (((slotted 0 (fun x => { x with relq := [am] })).coreOf 0).slot 0).relq = am :: [] ∧
    State.reset.pkgx.enabled.getLsbD 8 = false ∧ base.pkgx.enabled.getLsbD 8 = true ∧
    ((base.entry 5).st = 0 ∧ ((lined (fun e => { e with st := 2 })).entry 5).st = 2 ∧ ((lined (fun e => { e with st := 3 })).entry 5).st = 3) ∧
    ((base.entry 5).snoop = false ∧ ((lined (fun e => { e with snoop := true })).entry 5).snoop = true) ∧
    (let s := lined (fun e => { e with st := 1, hint := 8 })
     (s.entry 5).hint ≠ 0 ∧ (s.entry 5).cutting = false ∧ s.ptimeOf (s.lineHome 5) < (s.entry 5).hz + s.pkg.gband) ∧
    base.portCaches 5 = false ∧ base.portCaches (3 * 2 ^ 42) = true ∧ (base.entry (3 * 2 ^ 42)).hostAsks = false ∧
    (base.cluster 0).missq = [] ∧
    (let s := clustered (fun c => { c with missq := [w], walks := List.replicate 15 { w with vpn := 1 } })
     (s.cluster 0).missq = w :: [] ∧ (s.cluster 0).walks.length < 16) ∧
    (base.cluster 0).walks.any (fun w => w.vfn == 0 && w.vpn == 8192) = false ∧
    (let s := { tabled with clusters := [(0, { Cluster.reset with walks := [w] })] }
     (s.cluster 0).walks = [w] ∧ w.vfn = 0 ∧ w.vpn = 8192 ∧
       (s.walk 0 w.atp 8192).1 = .ok ⟨0, 0, 2, 0, true, false, false, false, 0, 0, false, 0, false, false⟩) := by
  decide +kernel
/-- The store of the release above: its page, its bytes and its surroundings. -/
theorem hyp_ClockEvents_store : RingsOff base ∧ Settled base ∧ Memory.wf base.mem = true ∧ HeldUnder base (page.place 64) 8 :=
  ⟨base_quiet.1, base_settled, rfl, held_base 64 8⟩
/-- A local load stream of one element that may fetch, with others that may not; a local store stream with an element; FIFOs with three and
four copies under way, and one behind a release; a local copy that has moved its bytes, waits for a write or for its time, or has bytes to
move; a put that its window takes. -/
theorem hyp_EngineEvents :
    let q : Nat → Bool → Machine.Stream := fun n p => ⟨true, 2, 0, 0x100010001, 0, 0, n, [], p, false, 0, 0, false⟩
    let st : Machine.Stream := ⟨true, 3, 0, 0x100010001, 0, 0, 0, [Elem.mk 5 64 0 0], false, false, 0, 0, false⟩
    let ref : Machine.Stream → StreamRef := fun x => ⟨0, 0, 0, 0x8000000000000000, false, x⟩
    let lcl : CopyCmd := { aCopy with w0 := 3, w1 := 64, w2 := 128, id := 9, started := true }
    let go : CopyCmd := { aCopy with started := true, id := 9 }
    let cp : Nat → State := fun n => { base with core := { base.core with copies := aCopy :: List.replicate n go } }
    let one : CopyCmd → State := fun k => { base with core := { base.core with copies := [k] } }
    let found : CopyCmd → Prop := fun k => ((one k).coreOf 0).copies.find? (fun k => k.id == 9) = some k
    let p : PutCmd := ⟨9, 0, 1, handle, 0, 8, none, 5, 0, false, 1⟩
    (((strm (q 0 false)).coreOf 0).streamRefs 0 = [ref (q 0 false)] ∧ (ref (q 0 false)).canFetch = true ∧ (q 0 false).after = false ∧
      (q 0 false).isLocal = true ∧ localFits ((q 0 false).addr 0) (q 0 false).eb = true ∧
      (strm (q 0 false)).streamHeld 0 (ref (q 0 false)) 0 ((q 0 false).addr 0) false = false ∧ base.core.padBad = []) ∧
    (ref (q 1 false)).canFetch = false ∧ (ref (q 0 true)).canFetch = false ∧
    (((strm st).coreOf 0).streamRefs 0 = [ref st] ∧ (ref st).canWrite = true ∧ st.queue = Elem.mk 5 64 0 0 :: [] ∧
      st.isLocal = true ∧ localFits 64 st.eb = true ∧ (strm st).streamHeld 0 (ref st) 0 64 true = false) ∧
    (ref (q 0 false)).canWrite = false ∧ (base.coreOf 0).fifo = [] ∧
    (((cp 3).coreOf 0).fifo = aCopy :: [] ∧ (((cp 3).coreOf 0).copies.filter (fun x => x.started)).length < 4 ∧
      (((cp 3).coreOf 0).slot aCopy.slot).relq.any (fun r => r.op.writes) = false) ∧
    (queued (cp 3) (.store (page.place 64) .die 8 5)).slot.relq.any (fun r => r.op.writes) = true ∧
    4 ≤ (((cp 4).coreOf 0).copies.filter (fun x => x.started)).length ∧ (base.coreOf 0).copies.any (fun k => k.id == 9) = false ∧
    (found lcl ∧ lcl.fault = none ∧ lcl.pos < lcl.total ∧ lcl.parked = false ∧ (one lcl).copyReady 0 lcl = true ∧ (one lcl).linesSpent 0 = false ∧ (one lcl).lineTaken 0 lcl = lcl ∧ lcl.srcLocal = true ∧
      lcl.dstLocal = true ∧ lcl.user = false) ∧
    (let e : CopyCmd := { go with pos := go.total }
     found e ∧ e.total ≤ e.pos ∧ e.pend = 0 ∧ cpyMode e < 2 ∧ found { e with pend := 1 } ∧
       found { e with w3 := e.w3 ||| 0x20000000, vt := 9 } ∧ base.releaseTime (dieOf 0) < 9) ∧
    (base.coreOf 0).puts.any (fun p => p.id == 9) = false ∧
    (let s := { window with core := { window.core with puts := [p] } }
     (s.coreOf 0).puts.find? (fun p => p.id == 9) = some p ∧ s.putBad 0 p = false ∧
       (s.winEntry (hOwner p.handle) (hIndex p.handle)).refuses (some (hSerial p.handle)) p.off p.len p.vfn = 0) := by
  decide +kernel
/-- Sittings asked for, held for 4,095 and 4,096 cycles; matrix commands that wait for one before them, may start, have started, have
ended. -/
theorem hyp_EngineEvents_arrays :
    let sit : Nat → State := fun t => { arrayed (fun a => { a with sit := some ⟨0, 0, 1, 0⟩, reqs := [⟨1, 2, 1, 0⟩] }) with pkg := { base.pkg with ptime := t } }
    let cmd : Bool → Bool → Option (Option Nat × Nat) → MxCmd := fun s k e => ⟨4, 0, 0, 0, 1, .zero 1, 0, 0, 0, false, 1, s, k, 0, 0, 0, 0, false, e, 0⟩
    let mx : List MxCmd → State := fun l => arrayed (fun a => { a with queue := l })
    (base.cluster 0).arr.sit = none ∧ (base.cluster 0).arr.reqs = [] ∧
    (let s := arrayed (fun a => { a with reqs := [⟨1, 2, 1, 0⟩] })
     (s.cluster 0).arr.sit = none ∧ s.nextSitting 0 = some ⟨1, 2, 1, 0⟩) ∧
    (((sit 4096).cluster 0).arr.sit = some ⟨0, 0, 1, 0⟩ ∧ ((sit 4096).cluster 0).arr.reqs ≠ [] ∧ 0 + 4096 ≤ (sit 4096).pkg.ptime ∧
      (sit 4095).pkg.ptime < 0 + 4096) ∧
    (base.cluster 0).arr.queue.all (fun k => k.started) = true ∧
    (let s := mx [cmd false false none]
     (s.cluster 0).arr.queue.find? (fun k => !k.started) = some (cmd false false none) ∧ (s.cluster 0).arr.behind 4 = false ∧
     (s.cluster 0).arr.queue.any (fun e => e.started && (MxOp.zero 1).after e.op) = false ∧
     (s.cluster 0).arr.queue.any (fun k => k.id == 5) = false) ∧
    (∀ k ∈ [cmd true false none, cmd true true none, cmd true false (some (none, 0))],
      ((mx [k]).cluster 0).arr.queue.find? (fun k => k.id == 4) = some k) := by
  decide +kernel
/-- Matrix issue that the throttle does not gate, and that it gates. -/
theorem hyp_EngineEvents_gate : base.gatedFor = 0 ∧ ({ base with pkgx := { base.pkgx with throttle := 15 } } : State).gatedFor = 15 := by
  decide +kernel
/-- The tile entries: one being declared with lines to mark, with none, before its time and after; one passed; one undeclared; a line of the
tile, of another, of none. -/
theorem hyp_EngineEvents_tiles :
    let dcl : Nat → Nat → TileEntry := fun n v => { owned with
      busy := true, state := 0, decl := some ⟨64, 256, 0, page.place 64, 0⟩, left := n, vt := v }
    let tl : TileEntry → State := fun e => tiled e
    (lined (fun e => { e with st := 3, tid := 2 })).entry 5 = { DirEntry.absent 0 with st := 3, tid := 2 } ∧
    ((base.entry 5).st < 2 ∧ (base.entry 5).cutting = false ∧ hbmLine 5 = true ∧ base.sliceTiles 5 < 8192) ∧
    ((tl (dcl 4 0)).tile 2).decl.isSome = true ∧ ((tl (dcl 4 0)).tile 2).left ≠ 0 ∧
    (((tl (dcl 0 9)).tile 2).left = 0 ∧ (tl (dcl 0 9)).ptimeOf (2 / 8192) < ((tl (dcl 0 9)).tile 2).vt) ∧
    ((tl (dcl 0 0)).tile 2).vt ≤ (tl (dcl 0 0)).ptimeOf (2 / 8192) ∧ (base.tile 2).decl = none ∧
    (let e := (tl { owned with busy := true }).tile 2
     e.busy = true ∧ e.state = 1 ∧ e.left = 0 ∧ e.decl = none) ∧
    (let e := (tl { owned with busy := true, state := 2, next := 5 }).tile 2
     e.busy = true ∧ e.state = 2) ∧ ((base.tile 2).busy = false ∧ (base.tile 2).state ≠ 1) ∧
    (0 < 65536 ∧ (131072 + 65536 - 1) / 65536 = 131072 / 65536 ∧ (131072 + 1 - 1) / 65536 = 131072 / 65536) := by
  decide +kernel

/-- A member that has not arrived, one that has, one that skips; counts below and at EXPECT; TIMEOUT due and not. -/
theorem hyp_ContextEvents_barriers :
    let nd : (NodeMask → NodeMask) → State := fun f => clustered (fun c => c.onNode 3 f)
    let bit := nodeBit 0 1
    let bar : Barrier → State := fun b => died (fun d => d.onBar 3 (fun _ => b))
    fin16 (19 % 16) = 3 ∧ base.isMember 0 1 3 = false ∧ (nd (fun n => { n with member := bit })).isMember 0 1 3 = true ∧
    (nd (fun n => { n with member := bit })).hasArrived 0 1 3 = false ∧ (nd (fun n => { n with member := bit, arrived := bit })).hasArrived 0 1 3 = true ∧
    (((nd (fun n => { n with member := bit, skip := bit })).cluster (clusterOf 0)).node[3]).skip &&& bit ≠ 0 ∧
    (((nd (fun n => { n with member := bit })).cluster (clusterOf 0)).node[3]).skip &&& bit = 0 ∧
    (base.bar 0 3).expect = 0 ∧ (let b := (bar ⟨2, 2, false, 0, 0, 0⟩).bar 0 3; b.expect ≠ 0 ∧ b.count = b.expect) ∧
    (let b := (bar ⟨2, 1, false, 0, 0, 0⟩).bar 0 3; b.count ≠ b.expect) ∧
    (let s := { bar ⟨2, 1, false, 100, 0, 100⟩ with pkg := { base.pkg with ptime := 100 } }
     (s.bar 0 3).count ≠ 0 ∧ (s.bar 0 3).tmo ≠ 0 ∧ (s.bar 0 3).next ≠ 0 ∧ (s.bar 0 3).next ≤ s.ptimeOf 0 ∧ (s.bar 0 3).count ≠ (s.bar 0 3).expect ∧
       ({ s with pkg := { base.pkg with ptime := 99 } } : State).ptimeOf 0 < (s.bar 0 3).next) ∧
    ((base.onSx (fun y => { y with waitBar := some ⟨3, true, 0, false⟩ })).coreOf 0).sx 0 =
      { base.sx with waitBar := some ⟨3, true, 0, false⟩ } ∧ (0 ∈ base.cores ∧ dieOf 0 = 0) := by
  decide +kernel
/-- A message kind that is queued and one that starts a task; a mailbox with 63 messages and one with 64; an overflow; a release of a message
that was refused; a template; a message of a replay at the instruction count that it names. -/
def message (kind : Nat) : Msg := ⟨kind, 1, 0, 0, false, 7, 8, 9, false, 65⟩
theorem hyp_ContextEvents_messages :
    let box : Nat → State := fun n => cored (fun c => { c with mbox := List.replicate n (message 0) })
    let am : State := { cored (fun c => { c with mbox := [message 6] }) with dies := [(0, { Die.reset with templates := [(0, ⟨true, 0, 0, 0, 0, 0⟩)] })] }
    (message 0).kind ≠ 6 ∧ (message 6).kind = 6 ∧ ((box 63).coreOf 0).mbox.length < 64 ∧ 64 ≤ ((box 64).coreOf 0).mbox.length ∧
    (base.coreOf 0).dbg.dctl.getLsbD 5 = false ∧ base.overflowed 0 = false ∧ base.templateOn 0 (message 6).vfn = false ∧ am.templateOn 0 0 = true ∧
    (base.cluster 0).overflow = [] ∧ ((clustered (fun c => { c with overflow := [(0, message 0)] })).cluster 0).overflow = (0, message 0) :: [] ∧
    (((slotted 0 (fun x => { x with relq := [⟨.message 1 (message 0), 1, [0, 0, 0, 0], 0, 0, 0, true, true⟩] })).coreOf 0).slot 0).relq =
      RelEntry.mk (.message 1 (message 0)) 1 [0, 0, 0, 0] 0 0 0 true true :: [] ∧
    base.corePresent 0 = true ∧ ({ base with pkgx := { base.pkgx with present := [] } } : State).corePresent 0 = false ∧
    (base.cluster (clusterOf 0)).overflow.length < 256 ∧
    256 ≤ ((clustered (fun c => { c with overflow := List.replicate 256 (0, message 0) })).cluster (clusterOf 0)).overflow.length ∧
    ((clustered (fun c => { c with overflow := [(0, message 0)] })).overflowed 0 = true) ∧
    (base.cluster 0).overflow.all (fun e => decide (64 ≤ (base.coreOf e.1).mbox.length)) = true ∧ ((base.coreOf 0).slot 0).relq = [] ∧
    (base.coreOf 0).mbox.any (fun m => m.kind == 6) = false ∧
    (am.coreOf 0).freeSlot = some 1 ∧ am.pkgx.featDone = true ∧ (am.coreOf 0).mbox = message 6 :: [] ∧ am.dueUnits 0 = [] ∧
    (am.candidates 0).any (fun y => decide (y.release ≤ am.ptimeOf (dieOf 0))) = false ∧
    mapGet (am.die (dieOf 0)).templates (message 6).vfn = some ⟨true, 0, 0, 0, 0, 0⟩ ∧ ((am.coreOf 0).allocTask 1 0).isSome = true ∧
    (let c := (bugged (fun d => { d with dctl := 0x20, rplMsgs := [[0, 0, 0, 0]] })).coreOf 0
     c.dbg.dctl.getLsbD 5 = true ∧ c.mbox.length < 64 ∧ c.dbg.rplMsgs = [[0, 0, 0, 0]] ∧
       (c.slot (fin4 (fld (([0, 0, 0, 0] : List Word).getD 3 0) 49 48))).icnt.toNat = fld (([0, 0, 0, 0] : List Word).getD 3 0) 47 0) := by
  decide +kernel
/-- A unit that is due with a FREE slot, no FREE slot, the features not settled; a request at the head of the queue; a booked unit at its
end and before; tokens and graphs; READY slots for a switch and a yield; a budget used up; an imprecise trap. -/
theorem hyp_ContextEvents_boundaries :
    let y : AdmReq := ⟨0, 5, 0, 0, 0, true, 0⟩
    let imp : Imprecise := ⟨0x0B, 0x50, 64, 0, 1, 0⟩
    let late : Nat → State := fun t => { bookedUnit with pkg := { bookedUnit.pkg with ptime := t } }
    let rdy : SlotState → Nat → State := fun st t =>
      { (slotted 1 (fun x => { x with st := .ready })).onSlot (fun x => { x with st := st }) with pkg := { base.pkg with ptime := t } }
    (bookedUnit.coreOf 0).freeSlot = some 1 ∧ bookedUnit.pkgx.featDone = true ∧ bookedUnit.corePresent 0 = true ∧
    (bookedUnit.dueUnits 0 = [(0, 5, 0, ⟨0, 1, 0, 1, 0, 4, 4, false⟩)]) ∧ State.reset.pkgx.featDone = false ∧
    ((cored (fun c => { c with slots := c.slots.map (fun x => { x with st := .wait }) })).coreOf 0).freeSlot = none ∧
    (base.cluster 0).cal.queue = [] ∧ ((clustered (fun c => { c with cal := { c.cal with queue := [y] } })).cluster 0).cal.head = some y ∧
    ((recorded 4 1 true).record 0 5).claimsHbm = false ∧ recKey 0 5 = 5 ∧
    ((base.onRec 0 5 (fun r => { r with w := r.w.set 16 (BitVec.ofNat 64 (9 + 2 ^ 28)) })).record 0 5).claimsHbm = true ∧
    ((bookedUnit.coreOf 0).convertReserved 1 0 5 0 (bookedUnit.record 0 5).w[8]).isSome = true ∧
    (let s := recorded 4 0 false
     (firstBy Candidate.before ((s.candidates 0).filter (fun y => decide (y.release ≤ s.ptimeOf (dieOf 0))))) = some ⟨0, 5, 0, 0, 0⟩ ∧
       s.dueUnits 0 = [] ∧ (s.coreOf 0).freeSlot = some 1 ∧ ((s.coreOf 0).allocTask 1 (s.record 0 5).w[8]).isSome = true) ∧
    (∀ j, j / 32 = 0 → j ≠ 0 → (base.cluster j).cal.launches = []) ∧
    (let s := base.onRec 0 5 (fun r => { r with w := (r.w.set 7 7).set 13 4 })
     (s.record 0 5).graph = 7 ∧ (s.record 0 5).state = 4 ∧ (mapGet (s.die 0).recs 5).isSome = true) ∧
    (base.sx.task.booked = false ∧ bookedUnit.sx.task.booked = true ∧ bookedUnit.sx.task.overrun = false ∧ bookedUnit.slot.st = .run ∧
      bookedUnit.sx.task.bookEnd ≤ (late 256).tempo (dieOf 0) ∧ (late 255).tempo (dieOf 0) < bookedUnit.sx.task.bookEnd ∧
      (late 256).timingTrap 0x0F = true ∧ (0 : Nat) = bookedUnit.cn) ∧
    (∀ e ∈ (base.die 0).recs, e.2.graph ≠ 7) ∧ base.nextSlot 0 ≠ some 1 ∧ (rdy .wait 0).nextSlot 0 = some 1 ∧
    base.yieldDue 0 = false ∧ (rdy .run 4096).yieldDue 0 = true ∧ (rdy .run 4095).yieldDue 0 = false ∧
    base.budgetDue = false ∧ ((at' base 0x0543 [0x0109]).onSlot (fun x => { x with tbud := 0x100000000 })).budgetDue = true ∧ base.imprecise = none ∧
    (base.onSx (fun x => { x with ecc := some imp })).imprecise.isSome = true := by
  intro y imp late rdy
  have hj : ∀ j, j / 32 = 0 → j ≠ 0 → (base.cluster j).cal.launches = [] := fun _ _ _ => rfl
  refine ⟨?_, ?_, ?_, ?_, ?_, ?_, ?_, ?_, ?_, ?_, ?_, ?_, ?_, hj, ?_, ?_⟩ <;> decide +kernel
/-- A probe with and without hops left; the ports of a die at the edge of the mesh; features as required and not; a die found, refused,
neither; the last probe and one of several; the two acknowledgements of numbering; a line held in a cache and one that is not. -/
theorem hyp_LinkEvents : ((1 : Nat) ≠ 0 ∧ wired 0 ([1] : List Nat).head! = some (1, 0) ∧ wired 0 (([] : List Nat).headD 15) = none) ∧
    wired 0 (([1] : List Nat).headD 15) = some (1, 0) ∧ featOk 8 2 0x1F = true ∧ featOk 8 2 0x0F = false ∧ base.foundDies.contains 8 = false ∧
    base.pkgx.refused.contains 8 = false ∧
    ({ base with pkgx := { base.pkgx with found := [(8, 2)] } } : State).foundDies.contains 8 = true ∧
    ({ base with pkgx := { base.pkgx with refused := [8] } } : State).pkgx.refused.contains 8 = true ∧
    State.reset.pending.any (fun p => Event.discovers p.2) = true ∧ base.pending.any (fun p => Event.discovers p.2) = false ∧
    State.reset.pkgx.boot = 2 ∧ base.pending.any (fun p => Event.numbers p.2) = false ∧
    (base.hbm = [] ∧ base.inTags 5 = false) ∧
    (mapGet ({ base with hbm := [(5, ⟨List.replicate 64 0, 0, [], true⟩)] } : State).hbm 5).isSome = true := by
  decide +kernel

/-- The base state is at a boundary with nothing due, its line entered, and `retire` at the pc, running or stalled; an instruction of a
feature that is not enabled, one at a breakpoint; the head 0x0000 decodes to nothing. -/
theorem hyp_StepRunsDecoded :
    let s := base
    let bad := at' base 0 []
    let brk := bugged (fun d => { d with dbp := d.dbp.set 0 (s.ws.pc ||| 0x20) })
    (s.takeDue = none ∧ (s.die s.dn).clk.running = true ∧ s.core.dbg.dstat.getLsbD 1 = false ∧
      s.core.dbg.dstat.getLsbD 0 = false ∧ s.core.quiescing = false ∧ s.core.dbg.dctl.getLsbD 5 = false ∧
      (∀ i, (s.core.slot i).st = .wait → (s.core.sx i).look = false) ∧ s.bookedDue s.cn = false ∧ s.yieldDue s.cn = false ∧
      s.nextSlot s.cn = none ∧ s.running = true ∧ s.imprecise = none ∧ s.sx.walkFault = none ∧ s.slot.line.valid = true ∧
      s.slot.line.addr = s.ws.pc.toNat / 64 * 64 ∧ s.slot.line.refuse (fld s.ws.pc 4 0) (s.ws.pc.getLsbD 5) = none ∧
      s.sx.ecc = none ∧ s.budgetDue = false ∧ s.overrunDue = false) ∧
    s.core.dbg.noteState = 3 ∧ (bugged (fun d => { d with noteState := 1 })).core.dbg.noteState = 1 ∧
    decodes [(s.slot.line.head 1, s.slot.line.tail 1, .retire)] = true ∧ featureRefuses s.pkgx.enabled .retire = false ∧
    s.breaks .retire = none ∧ bad.slot.line.valid = true ∧ bad.slot.line.refuse 1 (bad.ws.pc.getLsbD 5) = none ∧
    (decode (bad.slot.line.head 1) (bad.slot.line.tail 1)).toOption = none ∧
    (decodes [(0x9218, [0x0022, 0x0000], .madd 3 1 2 false false none)] = true ∧
      majorOff 0 ((0x9218 : Half).toNat / 1024) = true ∧ majorOff s.pkgx.enabled ((0x9218 : Half).toNat / 1024) = false ∧
      featureRefuses 0 (.fadd .f32 .sto (.s 8) (.s 9) 10 false false) = true) ∧ brk.breaks .retire = some 0 := by
  decide +kernel
/-- A well-formed instruction with words, and words that decode. -/
theorem hyp_EncodingRoundTrip : Instr.wf .retire = true ∧ encode .retire ≠ [] ∧ decode 0xE400 [] = .ok .retire :=
  ⟨rfl, by decide +kernel, rfl⟩
/-- A step of a state that is in form, sound, settled, without keys, and in which no event is due. -/
theorem hyp_MemoryKept : MemoryForm base ∧ (after base (fun t => t.mem)).isSome = true :=
  ⟨⟨rfl, rfl, by intro x h; cases h⟩, by decide +kernel⟩
theorem hyp_SoundnessKept : AllSound base ∧ base.takeDue = none :=
  ⟨⟨rfl, by
    rintro c (rfl | ⟨n, h⟩)
    · exact ⟨rfl, by decide +kernel⟩
    · cases h⟩, by decide +kernel⟩
theorem hyp_SettledKept : Settled base ∧ OneKey base :=
  ⟨base_settled, rfl, fun _ h => (by cases h), fun _ h => (by cases h)⟩
/-- The two ports of I/O die A that lead to dies 0 and 4. -/
theorem hyp_ResetValues : (0 ∈ diePorts 16 ∧ wired 16 0 = some (0, 0)) ∧ (1 ∈ diePorts 16 ∧ wired 16 1 = some (4, 0)) := by decide +kernel

/-! ## Witnesses for further clauses of the statements -/

/-- A loop that is taken, from line 1; a pc in the last line of the space, from which the next is outside. -/
theorem hyp_BranchForms_loop :
    (lowBits ⟨.b64, true⟩ ((reg base 9 2).ws.getS 9) + 2 ^ 64 - 1) % 2 ^ 64 ≠ 0 ∧ (lowBits ⟨.b64, true⟩ ((reg base 9 1).ws.getS 9) + 2 ^ 64 - 1) % 2 ^ 64 = 0 ∧
    (let w := (base.onWs (fun w => { w with pc := 0x7FFFFFFFFFFFC1 })).ws
     Int.ofNat (w.pc.toNat / 64) + (0 : BitVec 27).toInt < 2 ^ 49 ∧ 2 ^ 49 ≤ Int.ofNat (w.pc.toNat / 64) + (1 : BitVec 27).toInt) := by
  decide +kernel
/-- Ordinary cached memory, without progress and with lanes 0 to 4 done, lane 5 being the first that is taken again. -/
theorem hyp_ListedMemoryForms_cached : page.cach = true ∧ page.kind = 0 ∧ base.ws.prog.getLsbD 8 = false ∧
    (let w := (base.onWs (fun w => { w with prog := 0x105 })).ws
     w.prog.getLsbD 8 = true ∧ ¬ fld w.prog 7 0 ≤ 4 ∧ fld w.prog 7 0 ≤ 5) ∧
    (∀ need, need = .load ∨ need = .store → Reaches base need 64 4 page) ∧ HeldUnder base (page.place 64) 4 :=
  ⟨rfl, rfl, rfl, by decide +kernel, fun _ h => reach_low _ h _ 4 (by omega) (by decide) _ _ (.inl ⟨rfl, rfl⟩), held_base 64 4⟩
/-- The first operand good and the second bad, lane 0 of m9; a result variance of infinity times +0. -/
theorem hyp_MomentForms_traps :
    (let w := (moment base 0x80000001).ws
     (w.lanes none 32).filter (fun j => varCond (w.rawLane 8 j).2) = [] ∧ (w.lanes none 32).filter (fun j => varCond (w.rawLane 9 j).2) = [0] ∧
       ([8, 9] : List MReg)[1]? = some 9) ∧
    (let run := (do
       let v ← (do let m ← mMul 0x7F800000 (base.ws.mlane 9 0).1; pure (m, ← mMul (← mMul 0x7F800000 0x7F800000) (base.ws.mlane 9 0).2))
       pure (v.1, ← mRes v.2) : MM MLane) (MAcc.mk 0 false)
     run.2.neg = true) := by
  decide +kernel
/-- A local store stream whose writes are over, unobserved by its context, beside the report of an earlier command. -/
theorem hyp_StreamForms_observed :
    let s := (strm ⟨true, 3, 0, 0x100010001, 0, 1, 1, [], false, false, 0, 7, false⟩).onSlot (fun x => { x with done := [⟨1, .count, 5⟩] })
    (s.ws.q[(0 : QReg)]).dir = true ∧ (s.ws.q[(0 : QReg)]).draining = false ∧ (s.streamObserved 0).slot.engV[0] = 7 ∧
      (s.streamObserved 0).slot.done = [⟨1, .count, 5⟩] := by
  decide +kernel
/-- A booked task with a COPYBW claim, whose copy begins in HBM, without an HBM claim. -/
theorem hyp_CopyForms_hbm :
    let s := words base 0 0 0 0x100000040
    s.endsInHbm (s.captureCopy 3) = true ∧ s.holdsClaim 9 none = false ∧ (∀ rs, TokensFree s rs) ∧
    (s.onWs (fun w => { w with tsw := 3 })).booked = true := by
  refine ⟨by decide +kernel, by decide +kernel, fun rs => tokens_of _ _ rfl rfl, by decide +kernel⟩
/-- Replay, with a TIMEOUT of the running slot recorded at its instruction count and without. -/
theorem hyp_BarrierForms_replay :
    let s : List (Nat × Nat × Nat) → State := fun l => bugged (fun d => { d with dctl := 0x20, rplTraps := l })
    base.recorded = none ∧ base.timingTrap 0x12 = true ∧ (s []).recorded = none ∧ (s []).timingTrap 0x12 = false ∧
    (s [(0, 0x12, 0)]).recorded = some 0x12 ∧ (s [(0, 0x12, 0)]).timingTrap 0x12 = true := by
  decide +kernel
/-- An idle array asked by a free task and by a booked one; the tapered formats off, with a palette that names one and one that does not. -/
theorem hyp_MatrixForms_features :
    let off : State := { base with pkgx := { base.pkgx with enabled := 0 } }
    (base.array.sit = none ∧ base.array.reqs = [] ∧ base.booked = false) ∧
    (let s := bookedUnit.onWs (fun w => { w with tsw := 3 })
     s.booked = true ∧ s.slot.wp = s.core.res.wp ∧ s.array.sit = none) ∧
    base.pkgx.enabled.getLsbD 1 = true ∧ off.pkgx.enabled.getLsbD 1 = false ∧ (∃ f ∈ [15, 16], palA 0x00F = f ∨ palB 0x00F = f) ∧
    ¬ (∃ f ∈ [15, 16], palA 0x14A = f ∨ palB 0x14A = f) := by
  decide +kernel
/-- Answers to `lrarm`: admitted, turned away by a frozen graph, refused with a code; FALLBACK clear and set; no answer yet. -/
theorem hyp_RecordForms_answers : frozenCode = 16 ∧
    (∀ code ∈ [0, frozenCode, 4], ((recorded 2 1 false).onSx (fun y => { y with answer := some (⟨0, 5, 0, 0, 0, true, 0⟩, code) })).sx.answer =
      some (⟨0, 5, 0, 0, 0, true, 0⟩, code)) ∧
    ((recorded 2 1 false).record 0 5).w[8].getLsbD 1 = false ∧ ((recorded 2 3 false).record 0 5).w[8].getLsbD 1 = true ∧
    (recorded 2 1 false).sx.answer = none := by
  decide +kernel
/-- A task of a unit whose record has no failure code, and one whose has; windows of the task and of another. -/
theorem hyp_TaskForms_unit :
    bookedUnit.sx.task.src = .unit 0 5 0 ∧ (bookedUnit.record 0 5).failCode = none ∧
    ((bookedUnit.onRec 0 5 (fun r => { r with failCode := some 0x0C })).record 0 5).failCode = some 0x0C ∧
    (window.core.win[2].reg = true ∧ window.core.win[2].ctx = 0) ∧ window.core.win[3].reg = false := by
  decide +kernel
/-- A saved pc inside the space, and one outside. -/
theorem hyp_ReturnForms_pc :
    let back : Word → State := fun v => { returning with core := returning.core.padWrite 8640 (toBytes 8 v.toNat) }
    let resumed := fun (s : State) => ((s.core.onWs (fun w => { w with pc := s.nextPc, prog := 0 })).switchTo s.slot.fault.fwp.toNat).res.ws.pc
    (resumed (back 65)).toNat < 2 ^ 55 ∧ 2 ^ 55 ≤ (resumed (back 0x0080000000000001)).toNat := by
  decide +kernel
/-- A trigger that is not enabled and the one that always is; images that verify and one that does not; the cycle with a time record and the
one before it. -/
theorem hyp_RecorderEvents_silence :
    let s : Nat → State := fun t => { bugged (fun d => { d with note := ⟨1, 0, 0, [5], 0, 0, 0, []⟩ }) with pkg := { base.pkg with ptime := t } }
    let at' : State → Prop := fun s => (s.coreOf 0).dbg.note.last < s.pkg.ptime ∧ (s.pkg.ptime - (s.coreOf 0).dbg.note.last) % 4194303 = 0
    (at' (s 4194303) ∧ ¬ at' (s 4194302) ∧ ¬ at' (s 0) ∧ at' (s 8388606)) ∧
    (pkged (fun p => { p with adjctl := 0 })).pkg.adjctl.getLsbD (5 + 3) = false ∧ base.pkg.adjctl.getLsbD (5 + 3) = true ∧
    ((∀ i, i < 5 → (8 : Nat).testBit i = true → i ≠ 4 ∧ (pkged (fun p => { p with adjctl := 0 })).pkg.adjctl.getLsbD (6 + i) = false)) ∧
    1 ∉ base.pkgx.forged ∧ 1 ∈ ({ base.pkgx with forged := [1] } : PkgX).forged := by
  decide +kernel
/-- A line that a request waits for and one that is there; an atomic among what waits, and a fill; a die that still owes its answer, and one
that may give it. -/
theorem hyp_DirectoryEvents_waits :
    let m : State := placed 0 (fun e => { e with st := 2, odie := 4 })
    let w : Event → LineWait := fun v => ⟨.none, 0, false, false, false, false, 3, some v⟩
    let owes : Nat → State := fun t => { base with
      dies := [(3, { Die.reset with clk := { DieClock.reset with lstat := 1 }, due := [(5, 100)] })], pkg := { base.pkg with ptime := t } }
    let back := fun (t : Nat) => placed t (fun e => { e with st := 2, odie := 3, recalled := some 0 })
    m.lineWaits 5 3 = true ∧ base.lineWaits 5 3 = false ∧ base.lineWaits (320 / 64) 0 = false ∧ base.lineWaits (3 * 2 ^ 42) 3 = true ∧
    (∀ x ∈ ({ (DirEntry.absent 0) with waits := [w (.own 5 3)] } : DirEntry).waits, (match x.req with
      | some (.amo _ _ _ _ _ _ _ _ _) => False
      | _ => True)) ∧
    (∀ x ∈ ({ (DirEntry.absent 0) with waits := [w (.own 5 3)] } : DirEntry).waits, x.recalls = false) ∧
    (owes 99).answerLeft 3 5 = 1 ∧ (owes 100).answerLeft 3 5 = 0 ∧ base.answerLeft 3 5 = 0 ∧
    ((back 262143).ptimeOf ((back 262143).lineHome 5) < 0 + 262144) := by
  refine ⟨by decide +kernel, by decide +kernel, by decide +kernel, by decide +kernel, ?_, by decide +kernel, by decide +kernel, by decide +kernel,
    by decide +kernel, by decide +kernel⟩
  intro x h
  rw [List.mem_singleton.mp h]
  trivial
/-- A port that is open, and ports closed by the stage of boot, by the feature and for want of a role; a line that the port holds; one in M
at a die; a host's write that is numbered. -/
theorem hyp_ClockEvents_ports :
    let at' : (PkgX → PkgX) → State := fun f => { base with pkgx := f { base.pkgx with boot := 6, roles := [(5, 0)] } }
    (at' id).cxlOpen 5 = true ∧ (at' (fun x => { x with boot := 5 })).cxlOpen 5 = false ∧ (at' (fun x => { x with enabled := 0 })).cxlOpen 5 = false ∧
    (at' id).cxlOpen 6 = false ∧ base.hostHeld 5 = true ∧
    (let s := { at' id with dies := [(0, { Die.reset with dir := [(5, { (DirEntry.absent 0) with st := 2, odie := 3 })] })] }
     (s.entry 5).st = 2 ∧ (s.entry 5).odie ≠ 8 ∧ s.cxlOpen 5 = true) ∧
    (at' (fun x => { x with hostWrites := [⟨4, 5, none⟩] })).pkgx.hostWrites = [HostWrite.mk 4 5 none] := by
  decide +kernel
/-- A cluster's engine that has moved seven lines in this cycle, and eight; a command under a COPYBW claim, and one without. -/
theorem hyp_EngineEvents_lines :
    let at' : Nat → State := fun n => clustered (fun c => { c with copied := (base.pkg.ptime, n) })
    let k : CopyCmd := { aCopy with src := .unit 0 5 0, booked := true }
    let claimed : State := (recorded 4 1 true).onCluster 0 (fun c => { c with cal := { c.cal with launches :=
      [⟨recKey 0 5, 0, 0, [⟨0, 4, 0, 1, 0, 4, 4, false⟩], true, true, false⟩] } })
    (at' 7).linesSpent 0 = false ∧ (at' 8).linesSpent 0 = true ∧ claimed.lineClaimed 0 k = true ∧ claimed.lineClaimed 0 aCopy = false := by
  decide +kernel
/-- R331: 512 bytes in a cycle for one FIFO with a line due; two share them. -/
theorem test_fifoShare :
    base.fifoShare (coreAt 0 0) false = 8 ∧
    { base with pending := [(base.pkg.ptime, .copyLineMove (coreAt 0 1) 7)] }.fifoShare (coreAt 0 0) false = 4 := by
  decide +kernel
/-- A boundary of the die that is due and not yet taken; a request of the holder of a TAKEN record, and one of a record that is not TAKEN; a
time-out before its time; an overflow for a core in replay. -/
theorem hyp_ContextEvents_requests :
    let y : AdmReq := ⟨0, 5, 0, 0, 0, true, 0⟩
    let asks : State → Prop := fun s => (s.record y.die y.recNo).state = 2 ∧ fld (s.record y.die y.recNo).w[13] 15 3 = y.core * 4 + y.slot.val
    base.boundaryAhead 0 = false ∧ ({ base with pending := [(base.pkg.ptime, .tempoBoundary 3)] } : State).boundaryAhead 0 = true ∧
    asks (recorded 2 1 false) ∧ ¬ asks (recorded 3 1 false) ∧ ((recorded 2 1 false).record 0 5).frozen = false ∧
    (recorded 2 1 false).graphFrozen 0 ((recorded 2 1 false).record 0 5) = false ∧
    (let c := (bugged (fun d => { d with dctl := 0x20 })).coreOf 0
     c.dbg.dctl.getLsbD 5 = true) := by
  decide +kernel
/-- Routes that end at a die and one that leaves the mesh; a die reached for the first time, again and under another number; an answer with
hops left; a slot in error and one that is not; a key that is loaded and one that is not; images that do not verify. -/
theorem hyp_LinkEvents_routes :
    numberAt [0] = some 0 ∧ numberAt [0, 4] = some 8 ∧ numberAt [0, 2] = none ∧ wired 16 0 = some (0, 0) ∧
    mapGet base.pkgx.numbers 8 = none ∧ mapGet ({ base.pkgx with numbers := [(8, 8)] } : PkgX).numbers 8 = numberAt [0, 4] ∧
    mapGet ({ base.pkgx with numbers := [(8, 9)] } : PkgX).numbers 8 ≠ numberAt [0, 4] ∧
    ((1 : Nat) ≠ 0 ∧ wired 8 (([0] : List Nat).headD 15) = some (0, 4)) ∧ (4 ∈ diePorts 0 ∧ wired 0 4 ≠ none ∧ (base.die 0).down.contains 4 = false) ∧
    base.keyLoaded 0 = true ∧ base.keyLoaded 1 = false ∧
    (3 ∈ ({ base.pkgx with forged := [3] } : PkgX).forged ∧ 3 ∉ ({ base.pkgx with forged := [4] } : PkgX).forged) ∧
    base.pkg.hsplit ≠ 0 ∧ (pkged (fun p => { p with hsplit := 0 })).pkg.hsplit = 0 := by
  decide +kernel

/-! ## The wire form (R413 to R415) -/

/-- R415's example of a WAK slot, both ways. -/
theorem test_wire_wak :
    let h : WireHead := { cls := .rsp, op := 2, src := 4, dst := 2, txn := 0x5A, line := 0xE970515, arg := argAnswer 100420 0 }
    h.slot = 0x000000001884400003A5C14541684412 ∧ WireHead.ofSlot h.slot = some h := by
  decide +kernel
/-- An empty slot is no error, one of class 0 with a bit set and an unassigned OP are (R413). -/
theorem test_wire_refused : slotRefused 0 = false ∧ slotRefused 8 = true ∧ slotRefused 0x3A = true ∧ slotRefused 0x12 = false := by
  decide +kernel
/-- TIME names the nearest congruent value (R413), past a wrap of its 48 bits and before one. -/
theorem test_wire_time :
    timeNear 0x1000000000010 0xFFFFFFFFFFF0 = 0xFFFFFFFFFFF0 ∧ timeNear 0xFFFFFFFFFFF0 0x10 = 0x1000000000010 := by
  decide +kernel

end Sys2Proof.Tests
end

section
/-! PROOFS. Bit fields of words and of level counters: what replacing one leaves, and what it holds (spec/00 R6). -/
namespace Sys2Proof.Machine

/-! ## Replacing a field -/

/-- A word of `n` bits with the field [hi:lo] replaced: what `setFld` and `lvSet` are at 64 and 128 bits. -/
def replaceField {n : Nat} (w : BitVec n) (hi lo x : Nat) : BitVec n :=
  (w &&& ~~~(BitVec.ofNat n ((2 ^ (hi + 1 - lo) - 1) * 2 ^ lo))) ||| BitVec.ofNat n (x % 2 ^ (hi + 1 - lo) * 2 ^ lo)

theorem setFld_eq_replaceField (w : Word) (hi lo x : Nat) : setFld w hi lo x = replaceField w hi lo x := rfl
theorem lvSet_eq_replaceField (v : BitVec 128) (hi lo x : Nat) : lvSet v hi lo x = replaceField v hi lo x := rfl

theorem getLsbD_replaceField {n : Nat} (w : BitVec n) (hi lo x i : Nat) (hn : i < n) :
    (replaceField w hi lo x).getLsbD i = if lo ≤ i ∧ i ≤ hi then x.testBit (i - lo) else w.getLsbD i := by
  unfold replaceField
  simp only [BitVec.getLsbD_or, BitVec.getLsbD_and, BitVec.getLsbD_not, BitVec.getLsbD_ofNat, hn, decide_true, Bool.true_and,
    Nat.testBit_mul_two_pow, Nat.testBit_two_pow_sub_one, Nat.testBit_mod_two_pow]
  by_cases h1 : lo ≤ i
  · by_cases h2 : i ≤ hi
    · have h3 : i - lo < hi + 1 - lo := by omega
      simp [h1, h2, h3]
    · have h3 : ¬ i - lo < hi + 1 - lo := by omega
      simp [h1, h2, h3]
  · simp [h1]

theorem testBit_bitsOf (x hi lo i : Nat) : (bitsOf x hi lo).testBit i = (decide (i < hi + 1 - lo) && x.testBit (lo + i)) := by
  unfold bitsOf
  rw [Nat.testBit_mod_two_pow, Nat.testBit_shiftRight]

theorem bitsOf_replaceField_other {n : Nat} (w : BitVec n) {hi lo a b : Nat} (x : Nat) (ha : a < n) (h : hi < b ∨ a < lo) :
    bitsOf (replaceField w hi lo x).toNat a b = bitsOf w.toNat a b := by
  apply Nat.eq_of_testBit_eq
  intro i
  rw [testBit_bitsOf, testBit_bitsOf]
  by_cases hi' : i < a + 1 - b
  · rw [BitVec.testBit_toNat, BitVec.testBit_toNat, getLsbD_replaceField w hi lo x _ (by omega), if_neg (by omega)]
  · simp [hi']

theorem bitsOf_replaceField_same {n : Nat} (w : BitVec n) {hi lo : Nat} (x : Nat) (hn : hi < n) :
    bitsOf (replaceField w hi lo x).toNat hi lo = x % 2 ^ (hi + 1 - lo) := by
  apply Nat.eq_of_testBit_eq
  intro i
  rw [testBit_bitsOf, Nat.testBit_mod_two_pow]
  by_cases hi' : i < hi + 1 - lo
  · rw [BitVec.testBit_toNat, getLsbD_replaceField w hi lo x _ (by omega), if_pos (by omega), Nat.add_sub_cancel_left]
  · simp [hi']

theorem getLsbD_setFld (w : Word) (hi lo x i : Nat) (h : i < 64) :
    (setFld w hi lo x).getLsbD i = if lo ≤ i ∧ i ≤ hi then x.testBit (i - lo) else w.getLsbD i :=
  getLsbD_replaceField w hi lo x i h
theorem fld_setFld_other (w : Word) {hi lo a b : Nat} (x : Nat) (ha : a < 64) (h : hi < b ∨ a < lo) :
    fld (setFld w hi lo x) a b = fld w a b := bitsOf_replaceField_other w x ha h
theorem fld_setFld_same (w : Word) {hi lo : Nat} (x : Nat) (h : hi < 64) : fld (setFld w hi lo x) hi lo = x % 2 ^ (hi + 1 - lo) :=
  bitsOf_replaceField_same w x h
theorem getLsbD_lvSet (v : BitVec 128) (hi lo x i : Nat) (h : i < 128) :
    (lvSet v hi lo x).getLsbD i = if lo ≤ i ∧ i ≤ hi then x.testBit (i - lo) else v.getLsbD i :=
  getLsbD_replaceField v hi lo x i h
theorem lvField_lvSet_other (v : BitVec 128) {hi lo a b : Nat} (x : Nat) (ha : a < 128) (h : hi < b ∨ a < lo) :
    lvField (lvSet v hi lo x) a b = lvField v a b := bitsOf_replaceField_other v x ha h
theorem lvField_lvSet_same (v : BitVec 128) {hi lo : Nat} (x : Nat) (h : hi < 128) :
    lvField (lvSet v hi lo x) hi lo = x % 2 ^ (hi + 1 - lo) := bitsOf_replaceField_same v x h

theorem fld_lt (w : Word) (hi lo : Nat) : fld w hi lo < 2 ^ (hi + 1 - lo) := Nat.mod_lt _ (Nat.two_pow_pos _)
/-- A field written from a field of the same width holds it whole. -/
theorem fld_mod (w : Word) (hi lo : Nat) : fld w hi lo % 2 ^ (hi + 1 - lo) = fld w hi lo := Nat.mod_eq_of_lt (fld_lt w hi lo)

/-- A field is decided by its bits. -/
theorem fld_congr {v w : Word} {hi lo : Nat} (h : ∀ i, lo ≤ i → i ≤ hi → v.getLsbD i = w.getLsbD i) : fld v hi lo = fld w hi lo := by
  apply Nat.eq_of_testBit_eq
  intro i
  unfold fld
  rw [testBit_bitsOf, testBit_bitsOf]
  by_cases hi' : i < hi + 1 - lo
  · rw [BitVec.testBit_toNat, BitVec.testBit_toNat, h _ (by omega) (by omega)]
  · simp [hi']

/-! ## Words put together from fields -/

/-- A field put back at its place is the word under the field's mask. -/
theorem natWord_fld (v : Word) (hi lo : Nat) :
    natWord (fld v hi lo * 2 ^ lo) = v &&& BitVec.ofNat 64 ((2 ^ (hi + 1 - lo) - 1) * 2 ^ lo) := by
  apply BitVec.eq_of_getLsbD_eq
  intro i hi64
  unfold natWord fld
  simp only [BitVec.getLsbD_and, BitVec.getLsbD_ofNat, hi64, decide_true, Bool.true_and, Nat.testBit_mul_two_pow,
    Nat.testBit_two_pow_sub_one, testBit_bitsOf, BitVec.testBit_toNat]
  by_cases h : lo ≤ i
  · rw [Nat.add_sub_cancel' h]
    simp only [h, decide_true, Bool.true_and, Bool.and_comm]
  · simp [h]

theorem natWord_add (a b : Nat) : natWord (a + b) = natWord a + natWord b := BitVec.ofNat_add ..

theorem and_add_and_disjoint (v m n : Word) (h : m &&& n = 0) : (v &&& m) + (v &&& n) = v &&& (m ||| n) := by
  rw [BitVec.add_eq_or_of_and_eq_zero, ← BitVec.and_or_distrib_left]
  rw [show v &&& m &&& (v &&& n) = v &&& (m &&& n) by ac_nf, h]
  exact BitVec.and_zero

theorem bit01_getLsbD_zero (v : Word) : bit01 (v.getLsbD 0) = fld v 0 0 * 2 ^ 0 := by
  have h : fld v 0 0 < 2 := fld_lt v 0 0
  have hb : (fld v 0 0).testBit 0 = v.getLsbD 0 := by unfold fld; rw [testBit_bitsOf]; rfl
  rw [← hb]
  have h01 : fld v 0 0 = 0 ∨ fld v 0 0 = 1 := by omega
  rcases h01 with h | h <;> rw [h] <;> rfl

theorem natWord_toNat {w : Nat} (x : BitVec w) : natWord x.toNat = x.setWidth 64 := BitVec.ofNat_toNat ..

end Sys2Proof.Machine
end

section
/-! PROOFS. Control registers (spec/13 R381, R388): what the checks of an access answer, and the four forms. -/
namespace Sys2Proof.Machine

open Sys2Proof.Safety

/-! ## The checks of an access -/

theorem needPriv_held {s : State} {ok : Bool} (h : ok = true) : needPriv s ok = .ok () := by simp [needPriv, h]
theorem needPriv_refused {s : State} {ok : Bool} (h : ok = false) :
    needPriv s ok = .error (.st (s.trap (Trap.mk0 0x03 0 0 0))) := by simp [needPriv, h, privNow, trapNow]

/-- An access to `fcsr` finds no `amo.fadd` of this workspace queued (R146). -/
def FaddsDone (s : State) (k : Nat) : Prop :=
  k = 1 → ∀ e ∈ s.slot.relq, ∀ x1 x2 x3 x4 x5 x6 q, e.op ≠ .amo x1 x2 .fadd x3 x4 x5 x6 s.core.res.wp q

theorem flagsReady_ok {s : State} {k : Nat} (h : FaddsDone s k) : flagsReady s k = .ok () := by
  unfold flagsReady
  by_cases hk : k = 1
  · rw [if_neg (not_not_intro hk)]
    split
    · rename_i e he
      have hop := h hk e (List.mem_of_find?_eq_some he)
      have hfadd := List.find?_some he
      split at hfadd
      · rename_i heq
        rw [beq_iff_eq] at hfadd
        subst hfadd
        exact absurd heq (hop _ _ _ _ _ _ _)
      · exact absurd hfadd Bool.false_ne_true
    · rfl
  · rw [if_pos hk]

theorem tctlGate_ok {s : State} {k : Nat} {v : Word} (h : k = 0x038 → wpOk (fld v 17 0) = true) : tctlGate s k v = .ok () := by
  unfold tctlGate
  rw [if_neg]
  rintro ⟨hk, hw⟩
  rw [h hk] at hw
  exact Bool.false_ne_true hw
theorem tctlGate_refused {s : State} {k : Nat} {v : Word} (hk : k = 0x038) (h : wpOk (fld v 17 0) = false) :
    tctlGate s k v = .error (.st (s.trap (illegalTrap s))) := by
  unfold tctlGate
  rw [if_pos ⟨hk, by rw [h]; rfl⟩]
  rfl

/-! ## The forms -/

theorem State.seenAdjctl_core (s : State) : s.seenAdjctl.core = s.core := by unfold State.seenAdjctl; split <;> rfl

/-- The state that a form writes its control register in: the read of `adjctl` has been seen (R401). -/
def csrSeen (s : State) (k : Nat) : State := if k = 0x850 then s.seenAdjctl else s

theorem csrSeen_srng (s : State) (k : Nat) : (csrSeen s k).core.srng = s.core.srng := by
  unfold csrSeen; split
  · rw [State.seenAdjctl_core]
  · rfl

theorem csrOp_refused {s : State} {d a : SReg} {n : BitVec 12} {f : Word → Word → Word}
    (h : s.csrReadable n.toNat = false ∨ s.csrWritable n.toNat = false) :
    csrOp d a n f s = .error (.st (s.trap (Trap.mk0 0x03 0 0 0))) := by
  unfold csrOp
  dsimp only
  rw [needPriv_refused (Bool.and_eq_false_iff.mpr h)]
  rfl

/-- What a permitted access with its operands ready does: the check of `tctl`, then the two writes. -/
theorem csrOp_permitted {s : State} {d a : SReg} {n : BitVec 12} {f : Word → Word → Word} (hr : s.csrReadable n.toNat = true)
    (hw : s.csrWritable n.toNat = true) (ht : TokensFree s [d, a]) (hf : FaddsDone s n.toNat) :
    csrOp d a n f s = (do
      tctlGate s n.toNat (f (s.readCsr n.toNat) (s.ws.getS a))
      .ok (((csrSeen s n.toNat).doneS d [] (s.readCsr n.toNat)).writeCsr n.toNat (f (s.readCsr n.toNat) (s.ws.getS a)))) := by
  unfold csrOp
  dsimp only
  rw [needPriv_held (Bool.and_eq_true_iff.mpr ⟨hr, hw⟩), tokensReady_ok ht, flagsReady_ok hf]
  rfl

/-- A writing form whose new value is `v`: PRIV, ILLEGAL at a bad `tctl`, or both registers written (R381, R388). -/
theorem csrOp_form (s : State) (d a : SReg) (n : BitVec 12) (f : Word → Word → Word) (i : Instr)
    (hi : exec i s = finish (csrOp d a n f s)) :
    (s.csrReadable n.toNat = false ∨ s.csrWritable n.toNat = false → exec i s = .next (s.trap (Trap.mk0 0x03 0 0 0))) ∧
    (s.csrReadable n.toNat = true → s.csrWritable n.toNat = true → TokensFree s [d, a] → FaddsDone s n.toNat →
      (n.toNat = 0x038 → wpOk (fld (f (s.readCsr n.toNat) (s.ws.getS a)) 17 0) = false →
        exec i s = .next (s.trap (illegalTrap s))) ∧
      ((n.toNat = 0x038 → wpOk (fld (f (s.readCsr n.toNat) (s.ws.getS a)) 17 0) = true) → ∃ t,
        ScalarEffect (csrSeen s n.toNat) t (.s d) (.s 0) [] (s.readCsr n.toNat) 0 s.core.srng ∧
        exec i s = .next (t.writeCsr n.toNat (f (s.readCsr n.toNat) (s.ws.getS a))))) := by
  refine ⟨fun h => ?_, fun hr hw ht hf => ⟨fun hk hp => ?_, fun hp => ?_⟩⟩
  · rw [hi, csrOp_refused h]
    rfl
  · rw [hi, csrOp_permitted hr hw ht hf, tctlGate_refused hk hp]
    rfl
  · refine ⟨(csrSeen s n.toNat).doneS d [] (s.readCsr n.toNat), ?_, ?_⟩
    · rw [← csrSeen_srng s n.toNat]
      exact doneS_plain _ d [] _
    · rw [hi, csrOp_permitted hr hw ht hf, tctlGate_ok hp]
      rfl

theorem execCsrr_refused {s : State} {d : SReg} {n : BitVec 12} (h : s.csrReadable n.toNat = false) :
    exec (.csrr d n) s = .next (s.trap (Trap.mk0 0x03 0 0 0)) := by
  show execCsrr d n s = _
  unfold execCsrr
  rw [needPriv_refused h]
  rfl

theorem execCsrr_reads {s : State} {d : SReg} {n : BitVec 12} (hr : s.csrReadable n.toNat = true) (ht : TokensFree s [d])
    (hf : FaddsDone s n.toNat) :
    exec (.csrr d n) s = .next (csrSeen (s.doneS d [] (s.readCsr n.toNat)) n.toNat) := by
  have hn : n = 0x850 ↔ n.toNat = 0x850 := by
    constructor
    · rintro rfl; rfl
    · intro h; exact BitVec.eq_of_toNat_eq h
  show execCsrr d n s = _
  unfold execCsrr csrSeen
  rw [needPriv_held hr, tokensReady_ok ht, flagsReady_ok hf]
  simp only [hn]
  rfl


/-- Settles O42: the checks of an access decide each form; the registers read and write as `State.readCsr` and `State.writeCsr` say. -/
theorem csrForms : Obligations.CsrForms := by
  unfold Obligations.CsrForms
  intro d a n s
  refine ⟨execCsrr_refused, fun hr ht hf => ⟨_, doneS_plain s d [] _, execCsrr_reads hr ht hf⟩,
    csrOp_form s d a n (fun _ x => x) _ rfl, csrOp_form s d a n (fun o x => o ||| x) _ rfl,
    csrOp_form s d a n (fun o x => o &&& ~~~x) _ rfl, ?_, fun v => ⟨rfl, rfl, rfl, rfl, congrArg Slot.tvec (State.slot_onSlot s _),
      congrArg Slot.tctl (State.slot_onSlot s _), congrArg (fun x => x.fault.fwp) (State.slot_onSlot s _)⟩, ?_⟩
  · simp only [List.forall_mem_cons, List.not_mem_nil, false_imp_iff, implies_true, and_true]
    exact ⟨rfl, natWord_toNat _, natWord_toNat _, rfl, rfl, natWord_toNat _, rfl, natWord_toNat _, rfl, rfl, rfl, rfl, rfl, rfl, rfl,
      rfl, rfl, rfl, rfl, rfl⟩
  · simp only [List.forall_mem_cons, List.not_mem_nil, false_imp_iff, implies_true, and_true]
    exact ⟨fun _ => rfl, fun _ => rfl, fun _ => rfl, fun _ => rfl, fun _ => rfl, fun _ => rfl, fun _ => rfl, fun _ => rfl,
      fun _ => rfl, fun _ => rfl, fun _ => rfl, fun _ => rfl, fun _ => rfl, fun _ => rfl, fun _ => rfl, fun _ => rfl, fun _ => rfl,
      fun _ => rfl, fun _ => rfl⟩

end Sys2Proof.Machine
end

section
/-! PROOFS. What the accessors of the state read after an update: cores, clusters, records, levels, functions, keys; a core seen as the
current one. -/
namespace Sys2Proof.Machine

/-! ## Cores -/

@[simp] theorem State.onCore_number (s : State) (n : Nat) (f : Core → Core) : (s.onCore n f).cn = s.cn := by unfold State.onCore; split <;> rfl
@[simp] theorem State.onCore_mem (s : State) (n : Nat) (f : Core → Core) : (s.onCore n f).mem = s.mem := by unfold State.onCore; split <;> rfl
@[simp] theorem State.onCore_clusters (s : State) (n : Nat) (f : Core → Core) : (s.onCore n f).clusters = s.clusters := by
  unfold State.onCore; split <;> rfl
@[simp] theorem State.onCore_dies (s : State) (n : Nat) (f : Core → Core) : (s.onCore n f).dies = s.dies := by unfold State.onCore; split <;> rfl
@[simp] theorem State.onCore_pkg (s : State) (n : Nat) (f : Core → Core) : (s.onCore n f).pkg = s.pkg := by unfold State.onCore; split <;> rfl
@[simp] theorem State.onCore_pkgx (s : State) (n : Nat) (f : Core → Core) : (s.onCore n f).pkgx = s.pkgx := by
  unfold State.onCore; split <;> rfl

theorem State.coreOf_onCore (s : State) (n m : Nat) (f : Core → Core) :
    (s.onCore n f).coreOf m = if m = n then f (s.coreOf n) else s.coreOf m := by
  unfold State.onCore State.coreOf
  by_cases hn : n = s.cn
  · by_cases hm : m = n
    · simp [hn, hm]
    · have hm' : ¬ m = s.cn := hn ▸ hm
      simp [hn, hm']
  · by_cases hm : m = n
    · subst hm
      simp [hn, mapGet_mapSet_self]
    · simp only [hn, hm, if_false, mapGet_mapSet_other _ _ _ _ hm]

theorem State.coreOf_onCore_self (s : State) (n : Nat) (f : Core → Core) : (s.onCore n f).coreOf n = f (s.coreOf n) := by
  rw [State.coreOf_onCore, if_pos rfl]

/-- A change of the current core, made with core `n` and its slot `i` in its place: core `n` takes it, its current slot restored. -/
theorem State.coreOf_asCore (s : State) (n : Nat) (i : SlotId) {f : State → State} {g : Core → Core}
    (h : ∀ t : State, f t = t.setCore (g t.core)) :
    (s.asCore n i f).coreOf n = { g { s.coreOf n with cur := i } with cur := (s.coreOf n).cur } := by
  unfold State.asCore
  by_cases hn : n = s.cn
  · subst hn
    simp [h, State.coreOf]
  · simp only [hn, if_false, h]
    simp [State.coreOf, hn, mapGet_mapSet_self]

theorem Core.slot_onSlot (c : Core) (i : SlotId) (f : Slot → Slot) : (c.onSlot i f).slot i = f (c.slot i) := by
  simp [Core.slot, Core.onSlot]

/-! ## Clusters and dies -/

theorem State.cluster_onCluster_if (s : State) (n m : Nat) (f : Cluster → Cluster) :
    (s.onCluster n f).cluster m = if m = n then f (s.cluster n) else s.cluster m := by
  by_cases h : m = n
  · rw [if_pos h, h, State.cluster_onCluster]
  · rw [if_neg h]
    simp only [State.cluster, State.onCluster_clusters, mapGet_mapSet_other _ _ _ _ h]

theorem State.cluster_congr {s t : State} (h : t.clusters = s.clusters) (n : Nat) : t.cluster n = s.cluster n := by
  unfold State.cluster; rw [h]
theorem State.die_congr {s t : State} (h : t.dies = s.dies) (n : Nat) : t.die n = s.die n := by unfold State.die; rw [h]

@[simp] theorem State.record_onRec (s : State) (d n : Nat) (f : Rec → Rec) : (s.onRec d n f).record d n = f (s.record d n) := by
  unfold State.onRec
  rw [State.record, State.die_onDie, mapGet_mapSet_self]
  rfl
@[simp] theorem State.level_setLevel (s : State) (d n : Nat) (v : BitVec 128) : (s.setLevel d n v).level d n = v := by
  unfold State.setLevel
  rw [State.level, State.die_onDie, mapGet_mapSet_self]
  rfl
@[simp] theorem State.fn_onFn (s : State) (n : Nat) (f : FnRegs → FnRegs) : (s.onFn n f).fn n = f (s.fn n) := by
  rw [State.fn]
  unfold State.onFn
  rw [mapGet_mapSet_self]
  rfl

/-! ## Keys (R41) -/

theorem setHas_setAdd (m : List Nat) (k j : Nat) : setHas (setAdd m k) j = (setHas m j || k == j) := by
  induction m with
  | nil => simp [setAdd, setHas]
  | cons a t ih =>
    unfold setAdd
    by_cases h1 : k < a
    · simp [h1, setHas, Bool.or_comm]
    · by_cases h2 : k = a
      · subst h2
        simp [setHas, Bool.or_comm]
      · simp only [h1, h2, if_false]
        have := ih
        unfold setHas at this ⊢
        rw [List.any_cons, List.any_cons, this, Bool.or_assoc]

theorem State.keyLoaded_eq (s : State) (k : Nat) : s.keyLoaded k = (k == 0 || setHas s.pkg.keys k) := rfl

/-! ## Pending events -/

theorem State.mem_pending_post (s : State) (t : Nat) (e : Event) : (t, e) ∈ (s.post t e).pending := by simp
theorem State.mem_pending_once (s : State) (t : Nat) (e : Event) : ∃ k, (k, e) ∈ (s.once t e).pending := by
  unfold State.once
  split
  · rename_i h
    obtain ⟨⟨k, e'⟩, hp, he⟩ := List.any_eq_true.mp h
    rw [beq_iff_eq] at he
    subst he
    exact ⟨k, hp⟩
  · exact ⟨t, State.mem_pending_post s t e⟩

theorem State.mem_pending_foldl_post {α : Type} (l : List α) (e : α → Event) (s : State) {v : Event}
    (h : (∃ k, (k, v) ∈ s.pending) ∨ ∃ x ∈ l, v = e x) : ∃ k, (k, v) ∈ (l.foldl (fun s x => s.post s.pkg.ptime (e x)) s).pending := by
  induction l generalizing s with
  | nil => simpa using h
  | cons x l ih =>
    rw [List.foldl_cons]
    apply ih
    rcases h with ⟨k, h⟩ | ⟨y, hy, rfl⟩
    · exact Or.inl ⟨k, by simp [h]⟩
    · rcases List.mem_cons.mp hy with rfl | hy
      · exact Or.inl ⟨_, State.mem_pending_post s _ _⟩
      · exact Or.inr ⟨y, hy, rfl⟩

end Sys2Proof.Machine
end

section
/-! PROOFS. What the recorders leave alone (spec/14 R393 to R395): a record changes rings, the notes of the last one, and what is due. -/
namespace Sys2Proof.Machine

/-- `t` differs from `s` at most in its pending events and in the cores, of which slots and `dstat` are as before. -/
structure RecordsOnly (s t : State) : Prop where
  mem : t.mem = s.mem
  clusters : t.clusters = s.clusters
  dies : t.dies = s.dies
  pkg : t.pkg = s.pkg
  pkgx : t.pkgx = s.pkgx
  slots : ∀ n, (t.coreOf n).slots = (s.coreOf n).slots
  dstat : ∀ n, (t.coreOf n).dbg.dstat = (s.coreOf n).dbg.dstat

namespace RecordsOnly

theorem refl (s : State) : RecordsOnly s s := ⟨rfl, rfl, rfl, rfl, rfl, fun _ => rfl, fun _ => rfl⟩
theorem trans {s t u : State} (a : RecordsOnly s t) (b : RecordsOnly t u) : RecordsOnly s u :=
  ⟨b.mem.trans a.mem, b.clusters.trans a.clusters, b.dies.trans a.dies, b.pkg.trans a.pkg, b.pkgx.trans a.pkgx,
    fun n => (b.slots n).trans (a.slots n), fun n => (b.dstat n).trans (a.dstat n)⟩
theorem onCore (s : State) (n : Nat) (f : Core → Core) (hs : ∀ c, (f c).slots = c.slots) (hd : ∀ c, (f c).dbg.dstat = c.dbg.dstat) :
    RecordsOnly s (s.onCore n f) where
  mem := by simp
  clusters := by simp
  dies := by simp
  pkg := by simp
  pkgx := by simp
  slots m := by
    rw [State.coreOf_onCore]
    split
    · next h => rw [hs, h]
    · rfl
  dstat m := by
    rw [State.coreOf_onCore]
    split
    · next h => rw [hd, h]
    · rfl
theorem post (s : State) (t : Nat) (e : Event) : RecordsOnly s (s.post t e) := ⟨rfl, rfl, rfl, rfl, rfl, fun _ => rfl, fun _ => rfl⟩
theorem postOnce (s : State) (e : Event) : RecordsOnly s (s.postOnce e) := by
  unfold State.postOnce; split
  · exact refl s
  · exact post s _ _
theorem once (s : State) (t : Nat) (e : Event) : RecordsOnly s (s.once t e) := by
  unfold State.once; split
  · exact refl s
  · exact post s _ _
theorem foldl {α : Type} {f : State → α → State} (hf : ∀ s x, RecordsOnly s (f s x)) (l : List α) (s : State) :
    RecordsOnly s (l.foldl f s) := by
  induction l generalizing s with
  | nil => exact refl s
  | cons x l ih => exact (hf s x).trans (ih _)

theorem setRings (s : State) (core : Nat) (note mlog : Ring) : RecordsOnly s (s.setRings core note mlog) := by
  have h := onCore s core (fun c => { c with dbg := { c.dbg with note := note, mlog := mlog } }) (fun _ => rfl) (fun _ => rfl)
  unfold State.setRings
  dsimp only
  split
  · exact h.trans (post _ _ _)
  · exact h
theorem ringOvf (s : State) (core csr : Nat) (full : Bool) : RecordsOnly s (s.ringOvf core csr full) := by
  unfold State.ringOvf
  split
  · exact onCore s core _ (fun _ => rfl) (fun _ => rfl)
  · exact refl s
theorem note (s : State) (core cause : Nat) (st : Option Nat) (p : List (BitVec 32)) : RecordsOnly s (s.note core cause st p) := by
  unfold State.note
  dsimp only
  split
  · exact refl s
  · exact (setRings s core _ _).trans (ringOvf _ core _ _)
theorem noteChange (s : State) (core st cause : Nat) : RecordsOnly s (s.noteChange core st cause) := by
  unfold State.noteChange
  dsimp only
  split
  · exact refl s
  · refine trans (onCore s core _ ?_ ?_) (note _ core cause _ _) <;> exact fun _ => rfl
theorem noteSync (s : State) (core : Nat) : RecordsOnly s (s.noteSync core) := note s core _ _ _
theorem noteTransp (s : State) (core : Nat) (i : SlotId) (kind : Nat) : RecordsOnly s (s.noteTransp core i kind) := note s core _ _ _
theorem flushBuffers (s : State) (core : Nat) : RecordsOnly s (s.flushBuffers core) := setRings s core _ _
theorem refetchStreams (s : State) (core : Nat) : RecordsOnly s (s.refetchStreams core) :=
  foldl (fun s _ => by
    dsimp only
    split
    · exact postOnce s _
    · exact refl s) _ s
theorem seekWork (s : State) (core : Nat) : RecordsOnly s (s.seekWork core) := (postOnce s _).trans (postOnce _ _)
theorem pushReleases (s : State) (core : Nat) : RecordsOnly s (s.pushReleases core) :=
  foldl (fun s _ => by
    split
    · exact refl s
    · exact postOnce s _) _ s

end RecordsOnly

/-! ## Adjournment (R400 to R402) -/

theorem State.score_adjctl (s : State) (code core vfn : Nat) (d0 d1 : Word) :
    (s.score code core vfn d0 d1).pkg.adjctl = s.pkg.adjctl ∧ (s.score code core vfn d0 d1).pkg.adjNow = s.pkg.adjNow := ⟨rfl, rfl⟩

/-- What an adjournment writes to `adjctl`. -/
theorem State.adjourn_adjctl (s : State) (why : Nat) : (s.adjourn why).pkg.adjctl =
    if why = 5 ∨ s.pkg.adjctl.getLsbD (5 + why) then s.pkg.adjctl ||| 1 ||| (1 <<< why : Word) else s.pkg.adjctl := by
  unfold State.adjourn
  dsimp only
  split
  · split <;> rfl
  · rfl

/-- An adjournment leaves TEN. -/
theorem State.adjourn_ten (s : State) {why : Nat} (h : why ≤ 5) : fld (s.adjourn why).pkg.adjctl 9 6 = fld s.pkg.adjctl 9 6 := by
  apply fld_congr
  intro i h1 h2
  rw [State.adjourn_adjctl]
  split
  · have h0 : Nat.testBit 1 i = false := Nat.testBit_lt_two_pow (Nat.one_lt_two_pow (by omega))
    have hw : Nat.testBit 1 (i - why) = false := Nat.testBit_lt_two_pow (Nat.one_lt_two_pow (by omega))
    simp only [BitVec.getLsbD_or, BitVec.natCast_eq_ofNat, BitVec.getLsbD_ofNat, Nat.testBit_shiftLeft, h0, hw, Bool.and_false,
      Bool.or_false]
  · rfl
theorem State.adjourn_five_bits (s : State) : (s.adjourn 5).pkg.adjctl.getLsbD 0 = true ∧ (s.adjourn 5).pkg.adjctl.getLsbD 5 = true := by
  rw [State.adjourn_adjctl, if_pos (Or.inl rfl)]
  simp

/-- The triggers of a re-arming's own cycle leave TEN. -/
theorem State.adjourns_ten (l : List Nat) (h : ∀ i ∈ l, i ≤ 5) (s : State) :
    fld (l.foldl (fun s i => s.adjourn i) s).pkg.adjctl 9 6 = fld s.pkg.adjctl 9 6 := by
  induction l generalizing s with
  | nil => rfl
  | cons x l ih =>
    rw [List.foldl_cons, ih (fun i hi => h i (List.mem_cons_of_mem _ hi)), State.adjourn_ten s (h x (List.mem_cons_self ..))]

/-- A re-arming clears ADJ, WHY and SEEN, writes its records, and applies the triggers of its cycle. -/
theorem State.rearm_pkg (s : State) (h : s.adj = true ∧ s.pkg.adjctl.getLsbD 10 = true) : ∃ t : State,
    s.rearm = ((upto 1 5).filter (fun i => s.pkg.adjNow.testBit i)).foldl (fun s i => s.adjourn i) t ∧
    t.pkg.adjctl = setFld (setFld s.pkg.adjctl 5 0 0) 10 10 0 := by
  unfold State.rearm
  rw [if_pos h]
  refine ⟨_, rfl, ?_⟩
  rw [(RecordsOnly.foldl RecordsOnly.noteSync _ _).pkg, (State.score_adjctl _ _ _ _ _ _).1]

theorem State.rearm_ten (s : State) : fld s.rearm.pkg.adjctl 9 6 = fld s.pkg.adjctl 9 6 := by
  by_cases h : s.adj = true ∧ s.pkg.adjctl.getLsbD 10 = true
  · obtain ⟨t, e, ht⟩ := s.rearm_pkg h
    rw [e, State.adjourns_ten, ht, fld_setFld_other _ _ (by decide) (by decide), fld_setFld_other _ _ (by decide) (by decide)]
    intro i hi
    have h5 : i ∈ upto 1 5 := (List.mem_filter.mp hi).1
    obtain ⟨j, hj, rfl⟩ := List.mem_map.mp h5
    have := List.mem_range.mp hj
    omega
  · unfold State.rearm
    rw [if_neg h]

/-- A re-arming in a cycle without triggers leaves no bit of ADJ and WHY. -/
theorem State.rearm_clears (s : State) (h : s.adj = true ∧ s.pkg.adjctl.getLsbD 10 = true) (hn : s.pkg.adjNow = 0) :
    fld s.rearm.pkg.adjctl 5 0 = 0 := by
  obtain ⟨t, e, ht⟩ := s.rearm_pkg h
  have hnone : (upto 1 5).filter (fun i => s.pkg.adjNow.testBit i) = [] := by simp [hn]
  rw [e, hnone, List.foldl_nil, ht, fld_setFld_other _ _ (by decide) (by decide), fld_setFld_same _ _ (by decide), Nat.zero_mod]

end Sys2Proof.Machine
end

section
/-! PROOFS. Writes of device registers (spec/00 R7): what each leaves in the register it names. -/
namespace Sys2Proof.Machine

open Sys2Proof.Safety

theorem keepsBytes_of_fields {s t : State} (hm : t.mem = s.mem) (hc : t.core = s.core) (ht : t.tags = s.tags) : KeepsBytes s t := by
  refine ⟨fun a => by rw [hm], fun o => by rw [hc], ht, by rw [hc]⟩

/-! ## Functions (R43, R45, R70) -/

theorem fn_rangeBase (s : State) (f i : Nat) (v : Word) (h : i < (s.fn f).ranges.length) :
    ((s.writeDevice (.rangeBase f i) v).fn f).ranges[i]? = some (fld v 35 0, ((s.fn f).ranges.getD i (1, 0)).2) := by
  simp [State.writeDevice, h]
theorem fn_rangeLimit (s : State) (f i : Nat) (v : Word) (h : i < (s.fn f).ranges.length) :
    ((s.writeDevice (.rangeLimit f i) v).fn f).ranges[i]? = some (((s.fn f).ranges.getD i (1, 0)).1, fld v 35 0) := by
  simp [State.writeDevice, h]

/-! ## Key misses (R43) -/

theorem kmiss_ignored (s : State) (cl : Nat) (v : Word) (h : v.getLsbD 63 = false) : s.writeDevice (.kmiss cl) v = s :=
  if_neg (by rw [h]; decide)
theorem kmiss_write (s : State) (cl : Nat) (v : Word) (h : v.getLsbD 63 = true) : s.writeDevice (.kmiss cl) v = s.clearKmiss cl := if_pos h
theorem clearKmiss_kmiss (s : State) (cl : Nat) : ((s.clearKmiss cl).cluster cl).kmiss = 0 :=
  congrArg Cluster.kmiss (State.cluster_onCluster s cl _)

/-! ## Records, levels and templates (R170, R173, R174) -/

theorem record_word_write (s : State) (d i : Nat) {w : Nat} (v : Word) (hw : w < 32) (h13 : w ≠ 13) :
    ((s.writeDevice (.record d i w) v).record d (i % 512)).w[fin32 w] = v &&& recordMask w := by
  simp [State.writeDevice, Rec.build, Nat.mod_eq_of_lt hw, h13]

theorem Rec.state_setState (r : Rec) (n : Nat) : (r.setState n).state = n % 2 ^ 3 := by
  have h : (r.setState n).w[13] = setFld r.w[13] 2 0 n := Vector.getElem_set_self _
  unfold Rec.state
  rw [h, fld_setFld_same _ _ (by decide)]

theorem record_state_write (s : State) (d i : Nat) (v : Word) :
    ((s.writeDevice (.record d i 13) v).record d (i % 512)).state =
      if (s.record d (i % 512)).state < 2 then fld v 0 0 else (s.record d (i % 512)).state := by
  have hbit : fld v 0 0 % 2 ^ 3 = fld v 0 0 := Nat.mod_eq_of_lt (Nat.lt_trans (fld_lt v 0 0) (by decide))
  simp only [State.writeDevice, State.record_onRec, Rec.build, Nat.reduceMod, if_true]
  split
  · rw [Rec.state_setState, hbit]
  · rfl

theorem level_low_write (s : State) (d i : Nat) (v : Word) :
    lvField ((s.writeDevice (.level d i 0) v).level d (i % 1024)) 31 0 = fld v 31 0 ∧
    ((s.writeDevice (.level d i 0) v).level d (i % 1024)).getLsbD 116 = false := by
  simp only [State.writeDevice, State.level_setLevel, levelWrite, if_true]
  constructor
  · rw [lvField_lvSet_other _ _ (by decide) (by decide), lvField_lvSet_same _ _ (by decide)]
    exact fld_mod v 31 0
  · rw [getLsbD_lvSet _ _ _ _ _ (by decide), if_pos (by decide), Nat.zero_testBit]

theorem level_high_write (s : State) (d i : Nat) {h : Nat} (v : Word) (hh : h ≠ 0) :
    lvField ((s.writeDevice (.level d i h) v).level d (i % 1024)) 114 112 = fld v 50 48 ∧
    lvField ((s.writeDevice (.level d i h) v).level d (i % 1024)) 122 117 = fld v 58 53 := by
  simp only [State.writeDevice, State.level_setLevel, levelWrite, hh, if_false]
  constructor
  · rw [lvField_lvSet_other _ _ (by decide) (by decide), lvField_lvSet_same _ _ (by decide)]
    exact fld_mod v 50 48
  · rw [lvField_lvSet_same _ _ (by decide)]
    exact fld_mod v 58 53

/-- The template that a write leaves. -/
theorem template_write (s : State) (d f w : Nat) (v : Word) :
    mapGet ((s.writeDevice (.template d f w) v).die d).templates f =
      some (((mapGet (s.die d).templates f).getD Template.reset).write w v) := by
  simp [State.writeDevice, mapGet_mapSet_self]

theorem and_recordMask_whole (v : Word) : v &&& recordMask 9 = v ∧ v &&& recordMask 10 = v :=
  ⟨BitVec.and_allOnes, BitVec.and_allOnes⟩

theorem Template.word_write (t : Template) {j : Nat} (hj : j ∈ [8, 9, 10, 11, 12]) (v : Word) :
    (t.write j v).word j = v &&& recordMask j := by
  have h9 := (and_recordMask_whole v).1
  have h10 := (and_recordMask_whole v).2
  simp only [List.mem_cons, List.not_mem_nil, or_false] at hj
  rcases hj with rfl | rfl | rfl | rfl | rfl
  · rfl
  · exact h9.symm
  · exact h10.symm
  · rfl
  · rfl

/-! ## Map windows (R421) -/

/-- The map window that a write leaves. -/
theorem mapWindow_write (s : State) (b : Bool) (k w : Nat) (v : Word) :
    mapGet (s.writeDevice (.mapWindow b k w) v).pkgx.maps (k % 16 + (if b then 1000 else 0)) =
      some (((mapGet s.pkgx.maps (k % 16 + (if b then 1000 else 0))).getD MapWin.reset).write w v) := by
  simp [State.writeDevice, mapGet_mapSet_self]

theorem MapWin.word_write_zero (m : MapWin) (v : Word) : (m.write 0 v).word 0 = v &&& 0xFF1F := by
  have e : (m.write 0 v).word 0 = natWord (fld v 0 0 * 2 ^ 0) + natWord (fld v 4 1 * 2 ^ 1) + natWord (fld v 15 8 * 2 ^ 8) := by
    rw [← natWord_add, ← natWord_add, ← bit01_getLsbD_zero]
    rfl
  rw [e, natWord_fld, natWord_fld, natWord_fld, and_add_and_disjoint _ _ _ (by decide), and_add_and_disjoint _ _ _ (by decide)]
  rfl
/-- The bits of a base or limit, in place. -/
theorem natWord_mapBits (v : Word) : natWord (fld v 47 16 * 65536) = v &&& 0xFFFFFFFF0000 := natWord_fld v 47 16
theorem MapWin.word_write_one (m : MapWin) (v : Word) : (m.write 1 v).word 1 = v &&& 0xFFFFFFFF0000 := natWord_mapBits v
theorem MapWin.word_write_limit (m : MapWin) {w : Nat} (hw : 2 ≤ w) (v : Word) :
    (m.write w v).word w = v &&& 0xFFFFFFFF0000 ||| 0xFFFF := by
  obtain ⟨n, rfl⟩ := Nat.exists_eq_add_of_le' hw
  show natWord (fld v 47 16 * 65536 + 65535) = _
  rw [natWord_add, natWord_mapBits]
  refine BitVec.add_eq_or_of_and_eq_zero _ _ ?_
  rw [BitVec.and_assoc]
  exact BitVec.and_zero

/-! ## Keys and features (R41, R422) -/

theorem keySlot_ignored (s : State) {k : Nat} (v : Word) (h : k = 0 ∨ 511 < k) : s.writeDevice (.keySlot k) v = s := if_pos h

theorem keySlot_write (s : State) {k : Nat} (v : Word) (h0 : 0 < k) (h1 : k < 512) :
    (s.writeDevice (.keySlot k) v).keyLoaded k = v.getLsbD 0 ∧
    ∀ j, 0 < j → j ≠ k → (s.writeDevice (.keySlot k) v).keyLoaded j = s.keyLoaded j := by
  have hk : ¬ (k = 0 ∨ 511 < k) := by omega
  have hk0 : (k == 0) = false := by simp; omega
  simp only [State.writeDevice, hk, if_false, State.keyLoaded_eq]
  cases v.getLsbD 0 with
  | false =>
    simp only [Bool.false_eq_true, if_false, setHas_setDel, hk0, beq_self_eq_true, Bool.not_true, Bool.and_false, Bool.false_or, true_and]
    intro j _ hj
    have : (k == j) = false := by simp; omega
    rw [this, Bool.not_false, Bool.and_true]
  | true =>
    simp only [if_true, setHas_setAdd, beq_self_eq_true, Bool.or_true, true_and]
    intro j _ hj
    have : (k == j) = false := by simp; omega
    rw [this, Bool.or_false]

theorem featacc_ignored (s : State) (h : Nat) (v : Word) (hd : s.pkgx.featDone = true) : s.writeDevice (.featacc h) v = s := if_pos hd
theorem featacc_write (s : State) (h : Nat) (v : Word) (hd : s.pkgx.featDone = false) :
    halfOf (s.writeDevice (.featacc h) v).pkgx.accept h = v := by
  simp only [State.writeDevice, hd, Bool.false_eq_true, if_false, halfOf]
  split
  · exact BitVec.extractLsb'_append_eq_right
  · exact BitVec.extractLsb'_append_eq_left

theorem goFeatures_done (s : State) (hd : s.pkgx.featDone = true) : s.goFeatures = s := if_pos hd
theorem featstat_write (s : State) (v : Word) :
    execRegisterWrite .featstat v s = if v.getLsbD 1 then execFeatstatGo s else .next s := by
  unfold execRegisterWrite State.writeDevice execFeatstatGo
  dsimp only
  split <;> rfl
/-- GO enables what is offered and accepted, once (R422). -/
theorem goFeatures_pkgx (s : State) (hd : s.pkgx.featDone = false) :
    s.goFeatures.pkgx = { s.pkgx with enabled := s.pkgx.offer &&& s.pkgx.accept, featDone := true } := by
  unfold State.goFeatures
  simp only [hd, Bool.false_eq_true, if_false]
  exact (RecordsOnly.foldl RecordsOnly.seekWork _ _).pkgx

/-! ## `adjctl` (R401, R402) -/

/-- What follows the write of TEN: an adjournment, a re-arming, or neither. -/
theorem writeAdjctl_cases (s : State) (v : Word) : ∃ t : State, t.pkg = { s.pkg with adjctl := setFld s.pkg.adjctl 9 6 (fld v 9 6) } ∧
    s.writeAdjctl v =
      if v.getLsbD 12 = true ∧ v.getLsbD 11 = false then t.adjourn 5 else if v.getLsbD 12 = false ∧ v.getLsbD 11 = true then t.rearm else t := by
  refine ⟨{ s with pkg := { s.pkg with adjctl := setFld s.pkg.adjctl 9 6 (fld v 9 6) } }, rfl, ?_⟩
  unfold State.writeAdjctl
  cases v.getLsbD 12 <;> cases v.getLsbD 11 <;> simp

theorem adjctl_write (s : State) (v : Word) :
    fld (s.writeAdjctl v).pkg.adjctl 9 6 = fld v 9 6 ∧
    (v.getLsbD 12 = v.getLsbD 11 → fld (s.writeAdjctl v).pkg.adjctl 5 0 = fld s.pkg.adjctl 5 0) ∧
    (v.getLsbD 12 = true → v.getLsbD 11 = false →
      (s.writeAdjctl v).pkg.adjctl.getLsbD 0 = true ∧ (s.writeAdjctl v).pkg.adjctl.getLsbD 5 = true) ∧
    (v.getLsbD 12 = false → v.getLsbD 11 = true → s.pkg.adjctl.getLsbD 0 = true → s.pkg.adjctl.getLsbD 10 = true → s.pkg.adjNow = 0 →
      fld (s.writeAdjctl v).pkg.adjctl 5 0 = 0) := by
  obtain ⟨t, ht, e⟩ := writeAdjctl_cases s v
  have hten : fld t.pkg.adjctl 9 6 = fld v 9 6 := by
    rw [ht]
    exact (fld_setFld_same _ _ (by decide)).trans (fld_mod v 9 6)
  have hbit : ∀ i, i < 64 → ¬ (6 ≤ i ∧ i ≤ 9) → t.pkg.adjctl.getLsbD i = s.pkg.adjctl.getLsbD i := by
    intro i h64 hi
    rw [ht]
    exact (getLsbD_setFld _ _ _ _ _ h64).trans (if_neg hi)
  rw [e]
  refine ⟨?_, fun h => ?_, fun h1 h2 => ?_, fun h1 h2 h3 h4 h5 => ?_⟩
  · split
    · rw [State.adjourn_ten t (Nat.le_refl 5), hten]
    · split
      · rw [State.rearm_ten, hten]
      · exact hten
  · rw [if_neg (by rw [h]; cases v.getLsbD 11 <;> simp), if_neg (by rw [h]; cases v.getLsbD 11 <;> simp)]
    exact fld_congr (fun i _ hi => hbit i (by omega) (by omega))
  · rw [if_pos ⟨h1, h2⟩]
    exact State.adjourn_five_bits t
  · rw [if_neg (fun h => Bool.false_ne_true (h1.symm.trans h.1)), if_pos ⟨h1, h2⟩]
    refine State.rearm_clears t ⟨?_, ?_⟩ (by rw [ht]; exact h5)
    · exact (hbit 0 (by decide) (by decide)).trans h3
    · exact (hbit 10 (by decide) (by decide)).trans h4

/-! ## Registers of a stopped core (R388, R389) -/

theorem coreReg_ignored (s : State) (core i n : Nat) (v : Word) (h : (s.coreOf core).dbg.dstat.getLsbD 0 = false ∨ n < 0x800) :
    s.writeDevice (.coreReg core i n) v = s := by
  refine if_neg ?_
  rintro ⟨h1, h2⟩
  rcases h with h | h
  · rw [h] at h1
    exact Bool.false_ne_true h1
  · omega
theorem coreReg_write (s : State) (core i : Nat) {n : Nat} (v : Word) (h : (s.coreOf core).dbg.dstat.getLsbD 0 = true) (hn : 0x800 ≤ n) :
    s.writeDevice (.coreReg core i n) v = s.asCore core (fin4 (i % 4)) (fun t => t.writeDebug n v) := if_pos ⟨h, hn⟩

/-- The debug module with the breakpoint register `j` at `x`. -/
def Debug.setDbp (d : Debug) (j : Fin 4) (x : Word) : Debug := { d with dbp := d.dbp.set j x }
theorem Debug.setDbp_self (d : Debug) (j : Fin 4) (x : Word) : (d.setDbp j x).dbp[j] = x := Vector.getElem_set_self _
/-- A core with the count of its current slot at `x`. -/
def Core.setIcnt (c : Core) (x : BitVec 48) : Core := c.onSlot c.cur (fun y => { y with icnt := x })
theorem Core.setIcnt_slot (c : Core) (x : BitVec 48) : (c.setIcnt x).slot c.cur = { c.slot c.cur with icnt := x } := Core.slot_onSlot c c.cur _

/-- `dbp0` to `dbp3` lie at 0x802 to 0x805. -/
theorem writeDebug_dbp {n : Nat} (v : Word) (h1 : 0x802 ≤ n) (h2 : n < 0x806) (t : State) :
    t.writeDebug n v = t.onDbg (fun d => d.setDbp (fin4 (n - 0x802)) (v &&& 0x7FFFFFFFFFFFFF)) := by
  have hn : n = 0x802 ∨ n = 0x803 ∨ n = 0x804 ∨ n = 0x805 := by omega
  rcases hn with rfl | rfl | rfl | rfl <;> rfl

theorem asCore_dbp (s : State) (core : Nat) (i : SlotId) (j : Fin 4) (x : Word) {f : State → State}
    (h : ∀ t : State, f t = t.onDbg (fun d => d.setDbp j x)) : ((s.asCore core i f).coreOf core).dbg.dbp[j] = x := by
  rw [State.coreOf_asCore s core i (g := fun c => { c with dbg := c.dbg.setDbp j x }) h]
  exact Debug.setDbp_self _ _ _

theorem coreReg_dbp (s : State) (core i n : Nat) (v : Word) (h : (s.coreOf core).dbg.dstat.getLsbD 0 = true) :
    0x802 ≤ n → n < 0x806 →
    ((s.writeDevice (.coreReg core i n) v).coreOf core).dbg.dbp[fin4 (n - 0x802)] = v &&& 0x7FFFFFFFFFFFFF := by
  intro h1 h2
  have hn : 0x800 ≤ n := by omega
  rw [coreReg_write s core i v h hn]
  exact asCore_dbp s core _ _ _ (writeDebug_dbp v h1 h2)

theorem writeDebug_icnt (t : State) (v : Word) : t.writeDebug 0x861 v = t.setCore (t.core.setIcnt (v.setWidth 48)) := rfl

theorem coreReg_icnt (s : State) (core i : Nat) (v : Word) (h : (s.coreOf core).dbg.dstat.getLsbD 0 = true) :
    (((s.writeDevice (.coreReg core i 0x861) v).coreOf core).slot (fin4 (i % 4))).icnt = v.setWidth 48 := by
  have hset := State.coreOf_asCore s core (fin4 (i % 4)) (g := fun c => c.setIcnt (v.setWidth 48)) (fun t => writeDebug_icnt t v)
  rw [coreReg_write s core i v h (by decide), hset]
  exact congrArg Slot.icnt (Core.setIcnt_slot { s.coreOf core with cur := fin4 (i % 4) } (v.setWidth 48))

/-! ## Stops (R389, R390) -/

theorem requestStop_stopped (s : State) (core : Nat) (h : (s.coreOf core).dbg.dstat.getLsbD 0 = true) : s.requestStop core = s := if_pos h
theorem resumeCore_running (s : State) (core : Nat) (h : (s.coreOf core).dbg.dstat.getLsbD 0 = false) : s.resumeCore core = s := if_pos h
theorem requestStop_dstat (s : State) (core : Nat) (h : (s.coreOf core).dbg.dstat.getLsbD 0 = false) :
    ((s.requestStop core).coreOf core).dbg.dstat = setFld (s.coreOf core).dbg.dstat 1 1 1 ∧ (s.requestStop core).mem = s.mem := by
  unfold State.requestStop
  simp only [h, Bool.false_eq_true, if_false, State.coreOf_onCore_self, State.onCore_mem, and_self]

/-- A stopped core resumes: every slot is in the state that it left. -/
theorem resumeCore_slots (s : State) (core : Nat) (h : (s.coreOf core).dbg.dstat.getLsbD 0 = true) :
    ((s.resumeCore core).coreOf core).dbg.dstat.getLsbD 0 = false ∧
    ∀ i, ((s.coreOf core).slot i).st = .stop → (((s.resumeCore core).coreOf core).slot i).st = ((s.coreOf core).slot i).prev := by
  unfold State.resumeCore
  simp only [h, Bool.true_eq_false, if_false]
  have hr := fun t : State => ((RecordsOnly.refetchStreams t core).trans (RecordsOnly.noteChange _ core 0 0x08)).trans (RecordsOnly.seekWork _ core)
  refine ⟨?_, fun i hi => ?_⟩
  · rw [(hr _).dstat, State.coreOf_onCore_self]
    dsimp only
    rw [getLsbD_setFld _ _ _ _ _ (by decide), if_neg (by decide), getLsbD_setFld _ _ _ _ _ (by decide), if_pos (by decide), Nat.zero_testBit]
  · unfold Core.slot at hi ⊢
    rw [(hr _).slots, State.coreOf_onCore_self]
    simp only [Fin.getElem_fin, Vector.getElem_map] at hi ⊢
    rw [if_pos hi]

/-- What a stop makes of a slot. -/
theorem stopped_st (x : Slot) : (if x.st = .stop then x else { x with prev := x.st, st := .stop }).st = .stop := by
  split
  · assumption
  · rfl

/-- A core stops: every slot is in STOP. -/
theorem stopCore_slots (s : State) (core cause : Nat) : ((s.stopCore core cause).coreOf core).dbg.dstat.getLsbD 0 = true ∧
    ((s.stopCore core cause).coreOf core).dbg.dstat.getLsbD 1 = false ∧ ∀ i, (((s.stopCore core cause).coreOf core).slot i).st = .stop := by
  unfold State.stopCore
  have hr := fun t : State => (RecordsOnly.noteChange t core 3 0x31).trans (RecordsOnly.flushBuffers _ core)
  refine ⟨?_, ?_, fun i => ?_⟩
  · rw [(hr _).dstat, State.coreOf_onCore_self]
    dsimp only
    rw [getLsbD_setFld _ _ _ _ _ (by decide), if_neg (by decide), getLsbD_setFld _ _ _ _ _ (by decide), if_neg (by decide),
      getLsbD_setFld _ _ _ _ _ (by decide), if_neg (by decide), getLsbD_setFld _ _ _ _ _ (by decide), if_pos (by decide)]
    rfl
  · rw [(hr _).dstat, State.coreOf_onCore_self]
    dsimp only
    rw [getLsbD_setFld _ _ _ _ _ (by decide), if_neg (by decide), getLsbD_setFld _ _ _ _ _ (by decide), if_neg (by decide),
      getLsbD_setFld _ _ _ _ _ (by decide), if_pos (by decide), Nat.zero_testBit]
  · unfold Core.slot
    rw [(hr _).slots, State.coreOf_onCore_self]
    simp only [Fin.getElem_fin, Vector.getElem_map]
    exact stopped_st _

end Sys2Proof.Machine
end

section
/-! PROOFS. What releasing a parked requester leaves of the fault buffers (spec/01 R39, R40): it changes cores and what is due, and of a
cluster at most the array. -/
namespace Sys2Proof.Machine

/-! ## Engines, streams and copies leave the clusters -/

@[simp] theorem State.once_clusters (s : State) (t : Nat) (e : Event) : (s.once t e).clusters = s.clusters := (RecordsOnly.once s t e).clusters
@[simp] theorem State.postOnce_clusters (s : State) (e : Event) : (s.postOnce e).clusters = s.clusters := (RecordsOnly.postOnce s e).clusters
@[simp] theorem State.again_clusters (s : State) (e : Event) : (s.again e).clusters = s.clusters := State.once_clusters ..
@[simp] theorem State.engineFault_clusters (s : State) (core : Nat) (i : SlotId) (task : Option Nat) (mx : Bool) (f : Imprecise) :
    (s.engineFault core i task mx f).clusters = s.clusters := by
  unfold State.engineFault
  dsimp only
  split
  · rfl
  · exact State.onCore_clusters ..
@[simp] theorem State.engineDone_clusters (s : State) (core : Nat) (i : SlotId) (path : Fin 4) (report : EngineReport) (vt : Nat) :
    (s.engineDone core i path report vt).clusters = s.clusters := State.onCore_clusters ..
@[simp] theorem State.countOrphan_clusters (s : State) (core : Nat) : (s.countOrphan core).clusters = s.clusters := State.onCore_clusters ..
@[simp] theorem State.putStream_clusters (s : State) (core : Nat) (r : StreamRef) (n : QReg) (q : Stream) :
    (s.putStream core r n q).clusters = s.clusters := by
  unfold State.putStream
  dsimp only
  split <;> simp
@[simp] theorem State.streamFault_clusters (s : State) (core : Nat) (r : StreamRef) (n : QReg) (reason : Nat) :
    (s.streamFault core r n reason).clusters = s.clusters := by
  unfold State.streamFault
  simp
@[simp] theorem State.fetched_clusters (s : State) (core : Nat) (r : StreamRef) (n : QReg) (e : Elem) :
    (s.fetched core r n e).clusters = s.clusters := by
  unfold State.fetched
  simp
@[simp] theorem State.onCopy_clusters (s : State) (core id : Nat) (f : CopyCmd → CopyCmd) : (s.onCopy core id f).clusters = s.clusters :=
  State.onCore_clusters ..
@[simp] theorem State.copyEnds_clusters (s : State) (core id : Nat) : (s.copyEnds core id).clusters = s.clusters := by
  unfold State.copyEnds
  split
  · exact State.postOnce_clusters ..
  · rfl
@[simp] theorem State.nextLine_clusters (s : State) (core id : Nat) : (s.nextLine core id).clusters = s.clusters := by
  unfold State.nextLine
  split
  · rfl
  · dsimp only
    split <;> rfl
@[simp] theorem State.copyFails_clusters (s : State) (core id reason : Nat) (addr : Word) :
    (s.copyFails core id reason addr).clusters = s.clusters := by
  unfold State.copyFails
  simp
@[simp] theorem State.kickArray_clusters (s : State) (cl : Nat) : (s.kickArray cl).clusters = s.clusters := by
  have h : ∀ (l : List MxCmd) (t : State), (l.foldl (fun s k => s.again (.matrixCommandComplete cl k.id)) t).clusters = t.clusters := by
    intro l
    induction l with
    | nil => exact fun _ => rfl
    | cons k l ih => exact fun t => (ih _).trans (State.again_clusters ..)
  unfold State.kickArray
  dsimp only
  split
  · rw [State.postOnce_clusters, h]
  · exact h _ _

/-! ## Parked requesters go on -/

@[simp] theorem State.unparkCtx_clusters (s : State) (core : Nat) (i : SlotId) (fault : Option Nat) :
    (s.unparkCtx core i fault).clusters = s.clusters := by
  unfold State.unparkCtx
  rw [(RecordsOnly.noteTransp _ core i 3).clusters, State.onCore_clusters]
@[simp] theorem State.unparkStream_clusters (s : State) (core wp : Nat) (n : QReg) (deliver : Bool) :
    (s.unparkStream core wp n deliver).clusters = s.clusters := by
  unfold State.unparkStream
  split
  · rfl
  · dsimp only
    split
    · simp
    · split <;> simp
@[simp] theorem State.unparkCopy_clusters (s : State) (core id : Nat) (deliver : Bool) : (s.unparkCopy core id deliver).clusters = s.clusters := by
  unfold State.unparkCopy
  split
  · rfl
  · split <;> simp

/-- The fault buffer of every cluster is as before. -/
def SameFaults (s t : State) : Prop := ∀ n, (t.cluster n).fb = (s.cluster n).fb

namespace SameFaults

theorem refl (s : State) : SameFaults s s := fun _ => rfl
theorem trans {s t u : State} (a : SameFaults s t) (b : SameFaults t u) : SameFaults s u := fun n => (b n).trans (a n)
theorem of_clusters {s t : State} (h : t.clusters = s.clusters) : SameFaults s t := fun n => congrArg Cluster.fb (State.cluster_congr h n)
theorem onArray (s : State) (cl : Nat) (f : MxArray → MxArray) : SameFaults s (s.onArray cl f) := by
  intro n
  unfold State.onArray
  rw [State.cluster_onCluster_if]
  split
  · next h => rw [h]
  · rfl
theorem mxEnd (s : State) (cl : Nat) (k : MxCmd) (fault : Option Nat) (bytes : Nat) : SameFaults s (s.mxEnd cl k fault bytes) := by
  refine trans (onArray s cl (fun a => MxArray.sweep { a with queue := a.queue.filter (fun q => q.id != k.id) })) (of_clusters ?_)
  unfold State.mxEnd
  rw [State.kickArray_clusters]
  cases fault with
  | none =>
    dsimp only
    split
    · split <;> simp
    · simp
  | some r =>
    dsimp only
    rw [State.engineFault_clusters]
    split
    · split <;> simp
    · simp
theorem mxSettle (s : State) (cl id : Nat) : SameFaults s (s.mxSettle cl id) := by
  unfold State.mxSettle
  split
  · split
    · split
      · exact mxEnd _ _ _ _ _
      · exact refl s
    · exact refl s
  · exact refl s
theorem mxOver (s : State) (cl id : Nat) (fault : Option (Nat × Word)) (bytes : Nat) : SameFaults s (s.mxOver cl id fault bytes) :=
  (onArray s cl _).trans (mxSettle _ cl id)
theorem unparkMatrix (s : State) (cl id : Nat) (deliver : Bool) : SameFaults s (s.unparkMatrix cl id deliver) := by
  unfold State.unparkMatrix
  split
  · exact refl s
  · split
    · exact mxOver _ _ _ _ _
    · exact (onArray s cl _).trans (of_clusters (State.kickArray_clusters ..))
theorem release (s : State) (r : Requester) (deliver : Bool) : SameFaults s (s.release r deliver) := by
  cases r with
  | ctx c i => exact of_clusters (State.unparkCtx_clusters ..)
  | stream c wp n => exact of_clusters (State.unparkStream_clusters ..)
  | copy c id => exact of_clusters (State.unparkCopy_clusters ..)
  | matrix cl id => exact unparkMatrix _ _ _ _
theorem foldl {α : Type} {f : State → α → State} (hf : ∀ s x, SameFaults s (f s x)) (l : List α) (s : State) : SameFaults s (l.foldl f s) := by
  induction l generalizing s with
  | nil => exact refl s
  | cons x l ih => exact (hf s x).trans (ih _)

end SameFaults

/-! ## Resolution by fault -/

theorem deliverEntry_invalid (s : State) (cl : Nat) (i : Fin 8) (h : (s.cluster cl).fb[i].valid = false) : s.deliverEntry cl i = s := by
  unfold State.deliverEntry
  exact if_pos (by rw [h]; rfl)
/-- An entry resolved by fault is gone (R40). -/
theorem deliverEntry_valid (s : State) (cl : Nat) (i : Fin 8) (h : (s.cluster cl).fb[i].valid = true) :
    ((s.deliverEntry cl i).cluster cl).fb[i].valid = false := by
  let u : State := s.onCluster cl (fun c => { c with fb := c.fb.set i FbEntry.reset })
  have e : s.deliverEntry cl i = (s.cluster cl).fb[i].reqs.foldl (fun s x => s.release x.r true) u := by
    unfold State.deliverEntry
    exact if_neg (by rw [h]; decide)
  have hfb : ((s.deliverEntry cl i).cluster cl).fb = (s.cluster cl).fb.set i FbEntry.reset := by
    rw [e, SameFaults.foldl (fun s (x : ParkReq) => SameFaults.release s x.r true), State.cluster_onCluster]
  exact (congrArg (fun f : Vector FbEntry 8 => f[i].valid) hfb).trans (congrArg FbEntry.valid (Vector.getElem_set_self _))

end Sys2Proof.Machine
end

section
/-! PROOFS. Fabric release mode (spec/04 R136, R137): its writes, what goes to the dies and what their answers end. -/
namespace Sys2Proof.Machine

/-! ## The writes -/

/-- The state of release mode after a write of EN that takes effect. -/
def Pkg.startFrm (p : Pkg) (en : Bool) (dies : List Nat) : Pkg :=
  { p with frmEn := en, frmMode := p.frmMode || en, frmEntry := en && !p.frmMode, frmBusy := dies }

/-- A write of EN that takes effect: the mode, and an FRM due at every die. -/
theorem startFrm_pkg (s : State) (en : Bool) : (s.startFrm en).pkg = s.pkg.startFrm en (s.computeDies ++ upto 8 10) :=
  (RecordsOnly.foldl (fun s d => RecordsOnly.post s s.pkg.ptime (.frm d en)) _ _).pkg
theorem startFrm_due (s : State) (en : Bool) {d : Nat} (hd : d ∈ s.computeDies ++ upto 8 10) :
    ∃ k, (k, Event.frm d en) ∈ (s.startFrm en).pending :=
  State.mem_pending_foldl_post _ (fun d => Event.frm d en) _ (Or.inr ⟨d, hd, rfl⟩)

theorem writeFrmode_disabled (s : State) (v : Word) (h : s.pkgx.enabled.getLsbD 10 = false) : s.writeFrmode v = s :=
  if_pos (by rw [h]; rfl)
theorem writeFrmode_free (s : State) (v : Word) (h : s.pkgx.enabled.getLsbD 10 = true) (hb : s.pkg.frmBusy = []) :
    s.writeFrmode v = s.startFrm (v.getLsbD 0) := by
  unfold State.writeFrmode
  rw [if_neg (by rw [h]; decide), if_pos (by rw [hb]; rfl)]
theorem writeFrmode_busy (s : State) (v : Word) (h : s.pkgx.enabled.getLsbD 10 = true) (hb : s.pkg.frmBusy ≠ []) :
    s.writeFrmode v = { s with pkg := { s.pkg with frmNext := s.pkg.frmNext ++ [v.getLsbD 0] } } := by
  unfold State.writeFrmode
  rw [if_neg (by rw [h]; decide), if_neg (by rwa [List.isEmpty_iff])]

/-! ## What the dies do -/

theorem lockLoss_mem (s : State) (d : Nat) : (s.lockLoss d).mem = s.mem := by
  have h : ∀ (f : Core → Core) (l : List Nat) (t : State), (l.foldl (fun s c => s.onCore c f) t).mem = t.mem := by
    intro f l
    induction l with
    | nil => exact fun _ => rfl
    | cons c l ih => exact fun t => (ih _).trans (State.onCore_mem ..)
  exact h _ _ _

/-- The die has left lock (R75). -/
theorem lockLoss_locked (s : State) (d : Nat) : ((s.lockLoss d).die d).clk.lstat.getLsbD 0 = false := by
  unfold State.lockLoss
  dsimp only
  rw [State.die_onDie]
  dsimp only
  rw [getLsbD_setFld _ _ _ _ _ (by decide), if_neg (by decide), getLsbD_setFld _ _ _ _ _ (by decide), if_pos (by decide), Nat.zero_testBit]

theorem execFrm_entry (s : State) (die : Nat) (h : s.pkg.frmEntry = true) :
    execFrm die true s = .next ((s.lockLoss die).post s.pkg.ptime (.ack die 5 false)) := by
  simp [execFrm, h]
theorem execFrm_entered (s : State) (die : Nat) (h : s.pkg.frmEntry = false) :
    execFrm die true s = .next (s.post s.pkg.ptime (.ack die 5 false)) := by
  simp [execFrm, h]
theorem execFrm_unheld (s : State) (die : Nat) (h : s.frmOn = false ∨ s.heldReleases die = false) :
    execFrm die false s = .next (s.post s.pkg.ptime (.ack die 5 false)) := by
  have hh : (s.frmOn && s.heldReleases die) = false := Bool.and_eq_false_iff.mpr h
  simp [execFrm, hh]

/-- A die with held releases pushes them and is asked again. -/
theorem execFrm_held (s : State) (die : Nat) (h1 : s.frmOn = true) (h2 : s.heldReleases die = true) :
    ∃ u, execFrm die false s = .next u ∧ u.mem = s.mem ∧ ∃ k, (k, Event.frm die false) ∈ u.pending := by
  let u := (s.cores.filter (fun c => dieOf c == die)).foldl (fun s c => s.pushReleases c) s
  have e : execFrm die false s = .next (u.again (.frm die false)) := by
    simp only [execFrm, h1, h2, Bool.false_eq_true, if_false, Bool.and_self, if_true]
    rfl
  have hr : RecordsOnly s (u.again (.frm die false)) := (RecordsOnly.foldl RecordsOnly.pushReleases _ s).trans (RecordsOnly.once _ _ _)
  exact ⟨_, e, hr.mem, State.mem_pending_once _ _ _⟩

/-! ## Their answers -/

/-- An answer that starts no waiting write. -/
theorem frmAcked_pkg (s : State) (die : Nat) (h : setDel s.pkg.frmBusy die ≠ [] ∨ s.pkg.frmNext = []) :
    (s.frmAcked die).pkg = { s.pkg with
      frmBusy := setDel s.pkg.frmBusy die,
      frmMode := s.pkg.frmMode && (s.pkg.frmEn || !(setDel s.pkg.frmBusy die).isEmpty) } := by
  unfold State.frmAcked
  dsimp only
  rcases h with h | h
  · rw [if_neg (by rw [List.isEmpty_eq_false_iff.mpr h]; decide)]
  · split
    · rw [h]
    · rfl

/-- The last answer, when a write waits: the write takes effect. -/
theorem frmAcked_next (s : State) (die : Nat) {en : Bool} {rest : List Bool} (h : setDel s.pkg.frmBusy die = [])
    (hn : s.pkg.frmNext = en :: rest) : ∃ t : State, t.pkgx = s.pkgx ∧ t.pkg.frmNext = rest ∧ s.frmAcked die = t.startFrm en := by
  unfold State.frmAcked
  dsimp only
  rw [if_pos (by rw [h]; rfl), hn]
  exact ⟨_, by rfl, by rfl, rfl⟩

theorem computeDies_congr {s t : State} (h : t.pkgx = s.pkgx) : t.computeDies = s.computeDies := by
  unfold State.computeDies
  rw [h]

theorem execAck_other (die : Nat) {code : Nat} (refused : Bool) (s : State) (h3 : code ≠ 3) (h5 : code ≠ 5) :
    execAck die code refused s = .next s := by
  unfold execAck
  split
  · exact absurd rfl h3
  · exact absurd rfl h5
  · rfl

end Sys2Proof.Machine
end

section
/-! PROOFS. Loads and stores of device registers (spec/00 R7; spec/01 R47; spec/10 R262). -/
namespace Sys2Proof.Machine

open Sys2Proof.Safety

/-! ## The checks of an access to a device page -/

theorem translate_ok {s : State} {need : Need} {va : Word} {n : Nat} {e : TlbEntry} (h : Translates s need va n e) :
    translate s need va n = .ok ([(e.place va.toNat, n)], viaTlb s e) := by
  obtain ⟨h0, hp, hv, ha, ht, hl⟩ := h
  have hpieces : pieces va.toNat n = [(va.toNat, n)] := by
    have hmin : min n (65536 - va.toNat % 65536) = n := by omega
    simp [pieces, hmin]
  have hpage : translatePage s need va (va.toNat / 65536) = .ok (e, viaTlb s e) := by
    have hleaf : (viaTlb s e).leafCheck s.ws.vfn (!s.ws.sup) need e = none := hl
    unfold translatePage
    simp only [ha, Bool.true_eq_false, if_false, State.tlbFind_hit ht, hleaf]
  unfold translate
  rw [if_neg (Nat.not_lt.mpr hv), hpieces]
  simp [List.foldlM, hpage]

/-- The booked-task limits say nothing of a device page (R192, R265). -/
theorem bookedLimit_dev (s : State) {p : Place} (n : Nat) (hd : p.dev = true) : bookedLimit s [(p, n)] = .ok () := by
  simp [bookedLimit, hd]

/-- No line of a device page has a directory entry. -/
theorem lines_dev {p : Place} {n : Nat} (hn : 0 < n) (hd : p.dev = true) (f : Nat × Place → Bool) :
    (Span.lines [(p, n)]).any (fun l => l.2.coherent && f l) = false := by
  rw [List.any_eq_false]
  intro l hl
  obtain ⟨o, -, rfl⟩ := Span.lines_mem hn hl
  simp [Place.coherent, hd]

theorem tileGate_dev (s : State) {p : Place} {n : Nat} (hn : 0 < n) (hd : p.dev = true) (va : Word) :
    tileGate s [(p, n)] va = .ok () := by
  unfold tileGate
  rw [lines_dev hn hd (fun l => s.tileRefuses s.cn l.1)]
  rfl
theorem lineGate_dev (s : State) {p : Place} {n : Nat} (hn : 0 < n) (hd : p.dev = true) (need : Need) :
    lineGate s need [(p, n)] = .ok () := by
  unfold lineGate State.away
  rw [lines_dev hn hd (fun l => s.lineWaits l.1 (dieOf s.cn)), Bool.and_false]
  rfl

theorem hostGate_ok (s : State) {p : Place} (n : Nat) (va : Word) (h : s.unmapped p = false) : hostGate s [(p, n)] va = .ok () := by
  simp [hostGate, h]
theorem orderGate_ok (s : State) (sp : Span) (h : s.slot.relq.find? (fun x => x.op.meets sp) = none) : orderGate s sp = .ok () := by
  unfold orderGate
  rw [h]
theorem watch_ok (s : State) (addr n : Nat) (rd wr : Bool) (lane : Nat) (h : s.core.dbg.watchHit false addr n rd wr = none) :
    watch s false addr n rd wr lane = .ok () := by
  unfold watch
  rw [h]

section
variable {s : State} {need : Need} {va : Word} {e : TlbEntry}

/-- Where a register lies, the access is let through to it. -/
theorem globalGate_device (h : ReachesDevice s need va e) {r : DevReg} (hr : Config.deviceReg (e.place va.toNat).pa = some r) :
    globalGate s need va 8 0 = .ok ([(e.place va.toNat, 8)], viaTlb s e) := by
  obtain ⟨ht, hacq, hw, hd, hpa, hu, ho⟩ := h
  have hdev : (e.place va.toNat).dev = true := hd
  have h5 : deviceGate [(e.place va.toNat, 8)] = .ok () := by simp [deviceGate, hr]
  have htile : tileGate (viaTlb s e) [(e.place va.toNat, 8)] va = .ok () := tileGate_dev _ (by decide) hdev va
  have hline : lineGate (viaTlb s e) need [(e.place va.toNat, 8)] = .ok () := lineGate_dev _ (by decide) hdev need
  unfold globalGate globalChecks
  simp only [accessReady_ok hacq, translate_ok ht, bookedLimit_dev _ 8 hdev, watch_ok (viaTlb s e) _ _ _ _ _ hw, h5,
    hostGate_ok (viaTlb s e) 8 va hu, htile, ok_bind, ite_self, orderGate_ok (viaTlb s e) _ ho, hline]

/-- Where none lies, the access stops (log entry 17). -/
theorem globalGate_noDevice (h : ReachesDevice s need va e) (hr : Config.deviceReg (e.place va.toNat).pa = none) :
    globalGate s need va 8 0 = .error (.fault (.deviceRegister (e.place va.toNat).pa)) := by
  obtain ⟨ht, hacq, hw, hd, hpa, hu, ho⟩ := h
  have hdev : (e.place va.toNat).dev = true := hd
  have h5 : deviceGate [(e.place va.toNat, 8)] = .error (.fault (.deviceRegister (e.place va.toNat).pa)) := by
    simp [deviceGate, hr, hdev, hpa]
  unfold globalGate globalChecks
  simp only [accessReady_ok hacq, translate_ok ht, bookedLimit_dev _ 8 hdev, watch_ok (viaTlb s e) _ _ _ _ _ hw, h5, ok_bind, error_bind]

theorem deviceOf_some (h : ReachesDevice s need va e) : deviceOf [(e.place va.toNat, 8)] = Config.deviceReg (e.place va.toNat).pa := by
  obtain ⟨-, -, -, hd, hpa, -, -⟩ := h
  have hdev : (e.place va.toNat).dev = true := hd
  simp [deviceOf, hdev, hpa]

end

/-! ## What an access leaves before it reaches the register -/

/-- The core's translations and its buckets are all that may differ. -/
def Ported (s t : State) : Prop :=
  ∃ tlb tokens debt active, t = s.setCore { s.core with tlb := tlb, tokens := tokens, debt := debt, active := active }

theorem ported_payLines (s : State) (e : TlbEntry) (sp : Span) (wr code : Bool) : Ported s ((viaTlb s e).payLines sp wr code) := by
  unfold State.payLines
  split
  · exact ⟨_, _, _, _, rfl⟩
  · unfold Core.pay
    split <;> exact ⟨_, _, _, _, rfl⟩

namespace Ported
variable {s t : State}

theorem context (h : Ported s t) : SameContext s t := by
  obtain ⟨_, _, _, _, rfl⟩ := h
  exact ⟨rfl, rfl, fun i => ⟨_, _, _, _, rfl⟩, rfl, rfl⟩
theorem bytes (h : Ported s t) : KeepsBytes s t := by
  obtain ⟨_, _, _, _, rfl⟩ := h
  exact ⟨fun _ => rfl, fun _ => rfl, rfl, rfl⟩
theorem sx (h : Ported s t) : t.sx = s.sx := by
  obtain ⟨_, _, _, _, rfl⟩ := h
  rfl
theorem pkg (h : Ported s t) : t.pkg = s.pkg := by
  obtain ⟨_, _, _, _, rfl⟩ := h
  rfl

/-- Every register reads the same. -/
theorem readDevice (h : Ported s t) (r : DevReg) : (t.readDevice r).1 = (s.readDevice r).1 := by
  obtain ⟨_, _, _, _, rfl⟩ := h
  cases r with
  | coreReg c i n =>
    by_cases hc : c = s.cn
    · subst hc
      simp only [State.readDevice, State.coreOf, State.setCore, if_true]
      rfl
    · simp only [State.readDevice, State.coreOf, State.setCore, hc, if_false]
  | _ => rfl

end Ported

/-- What reading a register changes is at most the note that `adjctl` has been seen. -/
theorem readDevice_seen (s : State) (r : DevReg) : (s.readDevice r).2 = s ∨ (s.readDevice r).2 = s.seenAdjctl := by
  cases r with
  | adjctl => exact Or.inr rfl
  | coreReg c i n =>
    unfold State.readDevice
    dsimp only
    split
    · exact Or.inr rfl
    · exact Or.inl rfl
  | _ => exact Or.inl rfl

/-- The core, the bytes and the tags of memory are as before. -/
theorem readDevice_keeps (s : State) (r : DevReg) :
    (s.readDevice r).2.core = s.core ∧ (s.readDevice r).2.mem = s.mem ∧ (s.readDevice r).2.tags = s.tags := by
  rcases readDevice_seen s r with h | h <;> rw [h]
  · exact ⟨rfl, rfl, rfl⟩
  · unfold State.seenAdjctl
    split <;> exact ⟨rfl, rfl, rfl⟩

theorem SameContext.of_core {s t : State} (h : t.core = s.core) : SameContext s t :=
  ⟨by unfold State.ws; rw [h], by rw [h], fun i => ⟨_, _, _, _, by rw [h]⟩, by rw [h], by rw [h]⟩

/-! ## Loads and stores -/

theorem extend_word (x : Word) : extend { w := .b64, uns := false } x.toNat = x := by
  have h : signExt 64 x.toNat = x.toInt := by
    have hx := x.isLt
    unfold signExt
    rw [BitVec.toInt_eq_toNat_cond, Nat.mod_eq_of_lt hx]
    simp only [Int.ofNat_eq_natCast]
    split <;> split <;> omega
  exact (congrArg (BitVec.ofInt 64) h).trans (BitVec.ofInt_toInt ..)
theorem regBytes_word (x : Word) : natWord (ofBytes (regBytes { w := .b64, uns := false } x)) = x := by
  have h : ofBytes (toBytes 8 x.toNat) = x.toNat := (ofBytes_toBytes 8 x.toNat).trans (Nat.mod_eq_of_lt x.isLt)
  exact (congrArg natWord h).trans (BitVec.ofNat_toNat ..)

theorem State.done_pending (s : State) (ks : List (Bool × SReg)) : (s.done ks).pending = s.pending := by
  unfold State.done State.retire State.retireTo
  dsimp only
  split <;> rfl
theorem State.done_eq_doneS (s : State) (ks : List (Bool × SReg)) : s.done ks = s.doneS 0 ks 0 := by
  rw [done_eq, doneS_eq]

section
variable {s : State} {d a : SReg} {imm : BitVec 16} {e : TlbEntry}

theorem ld_noDevice (hf : TokensFree s [a, d]) (h : ReachesDevice s .load (dispAddr s a imm) e)
    (hr : Config.deviceReg (e.place (dispAddr s a imm).toNat).pa = none) :
    execLd { w := .b64, uns := false } d a imm s = .fault (.deviceRegister (e.place (dispAddr s a imm).toNat).pa) := by
  have hg : globalLoad s (dispAddr s a imm) 8 = .error (.fault (.deviceRegister (e.place (dispAddr s a imm).toNat).pa)) := by
    unfold globalLoad
    rw [globalGate_noDevice h hr, error_bind]
  unfold execLd
  rw [tokensReady_ok hf, ok_bind, show IT.bits { w := .b64, uns := false } / 8 = 8 from rfl, hg, error_bind]
  rfl
theorem st_noDevice (hf : TokensFree s [a, d]) (h : ReachesDevice s .store (dispAddr s a imm) e)
    (hr : Config.deviceReg (e.place (dispAddr s a imm).toNat).pa = none) :
    execSt { w := .b64, uns := false } d a imm s = .fault (.deviceRegister (e.place (dispAddr s a imm).toNat).pa) := by
  have hg : globalStore s (dispAddr s a imm) (regBytes { w := .b64, uns := false } (s.ws.getS d)) =
      .error (.fault (.deviceRegister (e.place (dispAddr s a imm).toNat).pa)) := by
    unfold globalStore
    rw [show (regBytes { w := .b64, uns := false } (s.ws.getS d)).length = 8 from rfl, globalGate_noDevice h hr, error_bind]
  unfold execSt
  rw [tokensReady_ok hf, ok_bind, hg, error_bind]
  rfl

/-- A load answers the register's word. -/
theorem ld_device (hf : TokensFree s [a, d]) (hs : Sound s) (h : ReachesDevice s .load (dispAddr s a imm) e) {r : DevReg}
    (hr : Config.deviceReg (e.place (dispAddr s a imm).toNat).pa = some r) :
    ∃ u, execLd { w := .b64, uns := false } d a imm s = .next u ∧ Writes s u d [] (s.readDevice r).1 ∧ KeepsBytes s u := by
  obtain ⟨t, ht⟩ : ∃ t, t = (viaTlb s e).payLines [(e.place (dispAddr s a imm).toNat, 8)] false false := ⟨_, rfl⟩
  have hp : Ported s t := ht ▸ ported_payLines s e _ false false
  have hg : globalLoad s (dispAddr s a imm) 8 = .ok ((s.readDevice r).1.toNat, (t.readDevice r).2) := by
    unfold globalLoad
    rw [globalGate_device h hr, ok_bind]
    dsimp only
    rw [← ht]
    unfold State.getSpan
    rw [deviceOf_some h, hr]
    dsimp only
    rw [hp.readDevice]
  obtain ⟨hcore, hmem, htags⟩ := readDevice_keeps t r
  have hecc : ((t.readDevice r).2.doneS d [] (s.readDevice r).1).sx.ecc = none := by
    rw [State.ecc_doneS]
    unfold State.sx
    rw [hcore]
    exact (congrArg SlotX.ecc hp.sx).trans hs.2.2
  refine ⟨(t.readDevice r).2.doneS d [] (s.readDevice r).1, ?_, ?_, ?_⟩
  · unfold execLd
    rw [tokensReady_ok hf, ok_bind, show IT.bits { w := .b64, uns := false } / 8 = 8 from rfl, hg, ok_bind]
    dsimp only
    rw [extend_word, State.lostS_none d hecc, finish_ok]
  · exact (hp.context.trans (SameContext.of_core hcore)).writes d [] _
  · exact KeepsBytes.trans (KeepsBytes.trans hp.bytes (keepsBytes_of_fields hmem hcore htags)) (keepsBytes_doneS _ d [] _)

/-- A store is due at the register in the next cycle. -/
theorem st_device (hf : TokensFree s [a, d]) (h : ReachesDevice s .store (dispAddr s a imm) e) {r : DevReg}
    (hr : Config.deviceReg (e.place (dispAddr s a imm).toNat).pa = some r) :
    ∃ u, execSt { w := .b64, uns := false } d a imm s = .next u ∧
      Writes s u 0 [] 0 ∧ KeepsBytes s u ∧ (s.pkg.ptime + 1, .registerWrite r (s.ws.getS d)) ∈ u.pending := by
  obtain ⟨t, ht⟩ : ∃ t, t = (viaTlb s e).payLines [(e.place (dispAddr s a imm).toNat, 8)] true false := ⟨_, rfl⟩
  have hp : Ported s t := ht ▸ ported_payLines s e _ true false
  have hg : globalStore s (dispAddr s a imm) (regBytes { w := .b64, uns := false } (s.ws.getS d)) =
      .ok (t.post (s.pkg.ptime + 1) (.registerWrite r (s.ws.getS d))) := by
    unfold globalStore
    rw [show (regBytes { w := .b64, uns := false } (s.ws.getS d)).length = 8 from rfl, globalGate_device h hr, ok_bind]
    dsimp only
    rw [← ht]
    unfold State.putSpan State.putScoped
    rw [deviceOf_some h, hr]
    dsimp only
    rw [regBytes_word, hp.pkg]
  have hc : SameContext s (t.post (s.pkg.ptime + 1) (.registerWrite r (s.ws.getS d))) := hp.context.trans (SameContext.of_core rfl)
  refine ⟨(t.post (s.pkg.ptime + 1) (.registerWrite r (s.ws.getS d))).done [], ?_, ?_, ?_, ?_⟩
  · unfold execSt
    rw [tokensReady_ok hf, ok_bind, hg, ok_bind, finish_ok]
  · rw [State.done_eq_doneS]
    exact hc.writes 0 [] 0
  · rw [State.done_eq_doneS]
    exact KeepsBytes.trans (KeepsBytes.trans hp.bytes (keepsBytes_of_fields rfl rfl rfl)) (keepsBytes_doneS _ 0 [] 0)
  · rw [State.done_pending]
    exact State.mem_pending_post _ _ _

end

end Sys2Proof.Machine
end

section
/-! PROOFS. The statement about device registers (spec/00 R7). -/
namespace Sys2Proof.Machine

open Sys2Proof.Safety

/-- Settles O47: each write is one lemma about `writeDevice`, each access one about `globalGate` of a device page. -/
theorem registerEvents : Obligations.RegisterEvents := by
  unfold Obligations.RegisterEvents
  intro v f k cl entry core die i w h n code b refused s
  refine ⟨?access, ⟨_, rfl, ?vkey⟩, ⟨_, rfl, ?share⟩, ?ranges, ⟨_, rfl, ?llen1⟩, ⟨_, rfl, ?llen2⟩, ⟨_, rfl, ?gband⟩, ⟨_, rfl, ?lcut⟩,
    fun hw h13 => ⟨_, rfl, record_word_write s die i v hw h13⟩, ⟨_, rfl, record_state_write s die i v⟩,
    ⟨_, rfl, level_low_write s die i v⟩, fun hh => ⟨_, rfl, level_high_write s die i v hh⟩,
    fun j hj => ⟨_, rfl, Option.map_eq_some_iff.mpr ⟨_, template_write s die f j v, Template.word_write _ hj v⟩⟩,
    ⟨_, rfl, Option.map_eq_some_iff.mpr ⟨_, template_write s die f 0 v, rfl⟩⟩,
    ⟨_, rfl, Option.map_eq_some_iff.mpr ⟨_, mapWindow_write s b k 0 v, MapWin.word_write_zero _ v⟩⟩,
    ⟨_, rfl, Option.map_eq_some_iff.mpr ⟨_, mapWindow_write s b k 1 v, MapWin.word_write_one _ v⟩⟩,
    fun hw => ⟨_, rfl, Option.map_eq_some_iff.mpr ⟨_, mapWindow_write s b k w v, MapWin.word_write_limit _ hw v⟩⟩,
    fun hk => congrArg Host.Outcome.next (keySlot_ignored s v hk), fun h0 h1 => ⟨_, rfl, keySlot_write s v h0 h1⟩,
    fun hd => congrArg Host.Outcome.next (featacc_ignored s h v hd), fun hd => ⟨_, rfl, featacc_write s h v hd⟩,
    ⟨_, rfl, rfl⟩, ⟨_, rfl, rfl⟩, ⟨_, rfl, adjctl_write s v⟩, rfl, ⟨_, rfl, rfl, rfl⟩, ?kmissIgnored, ?kmiss, rfl, ?featstat, rfl, rfl, rfl,
    fun hd => congrArg Host.Outcome.next (coreReg_ignored s core i n v hd), fun hd h1 h2 => ⟨_, rfl, coreReg_dbp s core i n v hd h1 h2⟩,
    fun hd => ⟨_, rfl, coreReg_icnt s core i v hd⟩, fun hd hn => congrArg Host.Outcome.next (coreReg_write s core i v hd hn),
    fun hv => congrArg Host.Outcome.next (deliverEntry_invalid s cl _ hv), fun hv => ⟨_, rfl, rfl, deliverEntry_valid s cl _ hv⟩,
    ?kmissClr, ?stopped, ?stop, ?running, ?resume, ?noStop, ?stops, ?goDone, ?go, ?noFrm, ?frm, ?frmWaits, ?enter, ?entered, ?leave, ?held,
    ?acked, ?next, fun h3 h5 => execAck_other die refused s h3 h5, ⟨_, rfl, rfl, rfl, rfl⟩⟩
  case access =>
    intro d a imm e hf hs va pa
    refine ⟨fun hl => ?_, fun hst => ?_⟩
    · cases hr : Config.deviceReg pa with
      | none => exact ld_noDevice hf hl hr
      | some r => exact ld_device hf hs hl hr
    · cases hr : Config.deviceReg pa with
      | none => exact st_noDevice hf hst hr
      | some r => exact st_device hf hst hr
  case vkey => exact ⟨congrArg FnRegs.vkey (State.fn_onFn s f _), keepsBytes_of_fields rfl rfl rfl⟩
  case share => exact ⟨congrArg FnRegs.share (State.fn_onFn s f _), keepsBytes_of_fields rfl rfl rfl⟩
  case ranges => exact fun hi => ⟨⟨_, rfl, fn_rangeBase s f i v hi⟩, ⟨_, rfl, fn_rangeLimit s f i v hi⟩⟩
  case llen1 | llen2 | gband | lcut => exact ⟨mapGet_mapSet_self _ _ _, rfl⟩
  case kmissIgnored => exact fun h63 => congrArg Host.Outcome.next (kmiss_ignored s cl v h63)
  case kmiss => exact fun h63 => ⟨_, congrArg Host.Outcome.next (kmiss_write s cl v h63), clearKmiss_kmiss s cl, rfl⟩
  case featstat => exact featstat_write s v
  case kmissClr => exact ⟨_, rfl, clearKmiss_kmiss s cl, rfl, rfl⟩
  case stopped => exact fun h0 => congrArg Host.Outcome.next (requestStop_stopped s core h0)
  case stop => exact fun h0 => ⟨_, rfl, requestStop_dstat s core h0⟩
  case running => exact fun h0 => congrArg Host.Outcome.next (resumeCore_running s core h0)
  case resume => exact fun h0 => ⟨_, rfl, resumeCore_slots s core h0⟩
  case noStop => exact fun h1 => congrArg Host.Outcome.next (if_neg (by rw [h1]; decide))
  case stops => exact fun h1 => ⟨_, congrArg Host.Outcome.next (if_pos h1), stopCore_slots s core 0⟩
  case goDone => exact fun hd => congrArg Host.Outcome.next (goFeatures_done s hd)
  case go =>
    intro hd
    have hx := goFeatures_pkgx s hd
    exact ⟨_, rfl, congrArg PkgX.enabled hx, congrArg PkgX.featDone hx⟩
  case noFrm => exact fun h10 => congrArg Host.Outcome.next (writeFrmode_disabled s v h10)
  case frm =>
    intro h10 hb
    have hp := startFrm_pkg s (v.getLsbD 0)
    exact ⟨_, congrArg Host.Outcome.next (writeFrmode_free s v h10 hb), congrArg Pkg.frmEn hp, congrArg Pkg.frmMode hp,
      congrArg Pkg.frmEntry hp, congrArg Pkg.frmBusy hp, fun d hd => startFrm_due s _ hd⟩
  case frmWaits => exact fun h10 hb => congrArg Host.Outcome.next (writeFrmode_busy s v h10 hb)
  case enter => exact fun he => ⟨_, execFrm_entry s die he, lockLoss_locked s die, lockLoss_mem s die, ⟨_, State.mem_pending_post _ _ _⟩⟩
  case entered => exact execFrm_entered s die
  case leave => exact execFrm_unheld s die
  case held => exact execFrm_held s die
  case acked =>
    intro hn
    have hp := frmAcked_pkg s die hn
    exact ⟨_, rfl, congrArg Pkg.frmBusy hp, by rw [hp], congrArg Pkg.frmMode hp⟩
  case next =>
    intro en rest hd hn
    obtain ⟨t, hx, hr, ht⟩ := frmAcked_next s die hd hn
    have hp := startFrm_pkg t en
    rw [computeDies_congr hx] at hp
    refine ⟨_, congrArg Host.Outcome.next ht, congrArg Pkg.frmEn hp, (congrArg Pkg.frmNext hp).trans hr, congrArg Pkg.frmBusy hp, fun d hm => ?_⟩
    rw [← computeDies_congr hx] at hm
    exact startFrm_due t en hm

end Sys2Proof.Machine
end

section
/-! PROOFS. Release stores and atomics join the queue of the slot (spec/04 R118, R120; spec/10 R266, R267). -/
namespace Sys2Proof.Machine

open Sys2Proof.Safety

variable {s t u : State} {e : TlbEntry}

/-! ## The state with one more entry in the release queue -/

theorem queued_viaTlb (s : State) (e : TlbEntry) (op : RelOp) : queued (viaTlb s e) op = viaTlb (queued s op) e := rfl

theorem queued_relq (s : State) (op : RelOp) : (queued s op).slot.relq = s.slot.relq ++ [relEntry s op] :=
  congrArg Slot.relq (State.slot_onSlot s _)

/-- Joining the queue changes no other part of a slot. -/
theorem queued_slot (s : State) (op : RelOp) (i : SlotId) : ∃ q, (queued s op).core.slot i = { s.core.slot i with relq := q } := by
  by_cases hi : s.core.cur = i
  · subst hi
    exact ⟨_, State.slot_onSlot s _⟩
  · have hv : s.core.cur.val ≠ i.val := fun h => hi (Fin.ext h)
    exact ⟨(s.core.slot i).relq, by simp [queued, State.post, State.onSlot, Core.onSlot, Core.slot, hv]⟩

/-- What an instruction leaves of its context is not changed by the entry that it has put in the queue. -/
theorem writes_of_queued {op : RelOp} {d : SReg} {ks : List (Bool × SReg)} {y : Word} (h : Writes (queued s op) u d ks y) :
    Writes s u d ks y := by
  obtain ⟨hw, ⟨hv, hmck, hmodes, hqf, hslots⟩, hpc, hprog, hicnt⟩ := h
  have hcur : (queued s op).slot.line = s.slot.line ∧ (queued s op).slot.icnt = s.slot.icnt := by
    obtain ⟨q, hq⟩ := queued_slot s op s.core.cur
    have hs : (queued s op).slot = { s.slot with relq := q } := hq
    rw [hs]
    exact ⟨rfl, rfl⟩
  have hnext : (queued s op).nextPc = s.nextPc := by
    unfold State.nextPc
    rw [hcur.1]
    rfl
  refine ⟨hw, ⟨hv, hmck, hmodes, hqf, fun i => ?_⟩, hpc.trans hnext, hprog, by rw [hicnt, hcur.2]⟩
  have hi := hslots i
  obtain ⟨q, hq⟩ := queued_slot s op i
  rw [hq] at hi
  exact hi

theorem Slot.relq_of_icnt {x y : Slot} (h : ({ x with icnt := y.icnt } : Slot) = y) : x.relq = y.relq := by
  rw [← h]

/-- Retiring leaves the release queue of the running slot. -/
theorem State.relq_done (s : State) (ks : List (Bool × SReg)) : (s.done ks).slot.relq = s.slot.relq := by
  obtain ⟨-, -, -, -, -, -, -, -, -, ⟨hslot, -, hcur, -⟩, -⟩ := done_plain s ks
  unfold State.slot
  rw [hcur]
  exact Slot.relq_of_icnt (hslot _)

/-! ## Entering the queue -/

theorem enqueueRelease_full (h : 4 ≤ s.slot.relq.length) (hb : s.booked = false) (op : RelOp) :
    enqueueRelease s op = .error (.st (s.waitHere 0x26)) := by
  simp [enqueueRelease, h, waitNow, hb]

theorem enqueueRelease_room (h : s.slot.relq.length < 4) (op : RelOp) : enqueueRelease s op = .ok (queued s op) := by
  unfold enqueueRelease
  rw [if_neg (by omega)]
  rfl

theorem ported_payPoint (s : State) (e : TlbEntry) (sp : Span) (sc : Scope) : Ported s ((viaTlb s e).payPoint sp sc) := by
  unfold State.payPoint
  split
  · exact ⟨_, _, _, _, rfl⟩
  · unfold Core.pay
    split <;> exact ⟨_, _, _, _, rfl⟩

theorem Ported.slot_eq (h : Ported s t) : t.slot = s.slot := by
  obtain ⟨_, _, _, _, rfl⟩ := h
  rfl

/-- The end of an instruction whose operation joins the queue (R118): full, or the entry is the last of the queue. -/
theorem joins_queue (i : Instr) (s : State) (e : TlbEntry) (sp : Span) (sc : Scope) (op : RelOp) (ks : List (Bool × SReg))
    (hi : exec i s = finish (enqueueRelease (viaTlb s e) op >>= fun t => .ok ((t.payPoint sp sc).done ks))) :
    (s.slot.relq.length < 4 → ∃ u, exec i s = .next u ∧ Writes s u 0 ks 0 ∧ KeepsBytes s u ∧
      u.slot.relq = s.slot.relq ++ [relEntry s op]) ∧
    (4 ≤ s.slot.relq.length → s.booked = false → exec i s = .next ((viaTlb s e).waitHere 0x26)) := by
  constructor
  · intro hroom
    have hp : Ported (queued s op) ((queued (viaTlb s e) op).payPoint sp sc) := ported_payPoint (queued s op) e sp sc
    refine ⟨_, by rw [hi, enqueueRelease_room (s := viaTlb s e) hroom, ok_bind, finish_ok], ?_, ?_, ?_⟩
    · rw [State.done_eq_doneS]
      exact writes_of_queued (hp.context.writes 0 ks 0)
    · rw [State.done_eq_doneS]
      have hbytes : KeepsBytes s ((queued (viaTlb s e) op).payPoint sp sc) := hp.bytes
      exact KeepsBytes.trans hbytes (keepsBytes_doneS _ 0 ks 0)
    · rw [State.relq_done, hp.slot_eq, queued_relq]
  · intro hfull hb
    rw [hi, enqueueRelease_full (s := viaTlb s e) hfull hb]
    rfl

/-! ## The instructions -/

/-- A release store joins the queue at its place (R118, R266). -/
theorem stRel_joins (sc : Scope) (t : IT) (d a : SReg) (la : Bool) (hf : TokensFree s [a, d])
    (h : Passes s .store (alignDown (s.ws.getS a) (t.bits / 8)) (t.bits / 8) e) :
    exec (.stRel sc t d a la) s = finish (enqueueRelease (viaTlb s e)
        (.store (e.place (alignDown (s.ws.getS a) (t.bits / 8)).toNat) sc (t.bits / 8) (s.ws.getS d)) >>=
      fun u => .ok ((u.payPoint [(e.place (alignDown (s.ws.getS a) (t.bits / 8)).toNat, t.bits / 8)] sc).done [(la, a)])) := by
  show execStRel sc t d a la s = _
  unfold execStRel
  rw [tokensReady_ok hf, ok_bind]
  dsimp only
  rw [globalChecks_ok h]
  rfl

theorem acq_eq_decide (o : MemOrder) : MemOrder.acq o = decide (o = .acq ∨ o = .ar) := by cases o <;> rfl
theorem rel_iff (o : MemOrder) : MemOrder.rel o = true ↔ o = .rel ∨ o = .ar := by cases o <;> decide

/-- An atomic that releases, or that a root port performs, joins the queue at its place (R106, R120, R267). -/
theorem amoOp_joins (op : AmoOp) (sc : Scope) (o : MemOrder) (t : IT) (d a b c : SReg) (ks : List (Bool × SReg))
    (hf : TokensFree s [a, b, c, d]) (h : Passes s .both (alignDown (s.ws.getS a) (t.bits / 8)) (t.bits / 8) e)
    (hr : s.atomicRefused (e.place (alignDown (s.ws.getS a) (t.bits / 8)).toNat) op t = false)
    (hj : (o = .rel ∨ o = .ar) ∨ (e.kind = 2 ∧ e.cach = false)) :
    amoOp op sc o t d a b c ks s = enqueueRelease (viaTlb s e)
        (.amo (e.place (alignDown (s.ws.getS a) (t.bits / 8)).toNat) sc op t (s.ws.getS b) (s.ws.getS c) d s.core.res.wp
          (decide (o = .acq ∨ o = .ar))) >>=
      fun u => .ok ((u.payPoint [(e.place (alignDown (s.ws.getS a) (t.bits / 8)).toNat, t.bits / 8)] sc).done ks) := by
  generalize hp : e.place (alignDown (s.ws.getS a) (t.bits / 8)).toNat = p at hr
  have hgate : atomicGate (viaTlb s e) p op t (alignDown (s.ws.getS a) (t.bits / 8)) = .ok () := by
    have hr' : (viaTlb s e).atomicRefused p op t = false := hr
    simp [atomicGate, hr']
  have hbranch : MemOrder.rel o = true ∨ p.kind = 2 ∧ (!p.cach) = true := by
    subst hp
    exact hj.imp (rel_iff o).mpr (fun ⟨hk, hc⟩ => ⟨hk, by show (!e.cach) = true; rw [hc]; rfl⟩)
  unfold amoOp
  rw [tokensReady_ok hf, ok_bind]
  dsimp only
  rw [globalChecks_ok h, ok_bind, hp]
  dsimp only
  rw [hgate, ok_bind, if_pos hbranch, acq_eq_decide]
  rfl

/-- Settles O15: the checks pass, and `enqueueRelease` either waits or appends `relEntry`. -/
theorem releaseForms : Obligations.ReleaseForms := by
  unfold Obligations.ReleaseForms
  intro sc o t d a b c la lb lc e s _ _ n va p joins
  refine ⟨fun hf h => joins_queue _ s e _ sc _ _ (stRel_joins sc t d a la hf h), fun h hj => ?_⟩
  have hatomic : ∀ (i : Instr) (op : AmoOp) (y : SReg) (ks : List (Bool × SReg)), TokensFree s [a, b, y, d] →
      exec i s = finish (amoOp op sc o t d a b y ks s) → s.atomicRefused p op t = false →
      joins i ks (.amo p sc op t (s.ws.getS b) (s.ws.getS y) d s.core.res.wp (decide (o = .acq ∨ o = .ar))) :=
    fun i op y ks hf hi hr => joins_queue i s e _ sc _ ks (hi.trans (congrArg finish (amoOp_joins op sc o t d a b y ks hf h hr hj)))
  exact ⟨fun hf => ⟨hatomic _ _ 0 _ hf rfl, hatomic _ _ 0 _ hf rfl, hatomic _ _ 0 _ hf rfl, hatomic _ _ 0 _ hf rfl,
    hatomic _ _ 0 _ hf rfl, hatomic _ _ 0 _ hf rfl, hatomic _ _ 0 _ hf rfl, hatomic _ _ 0 _ hf rfl⟩,
    fun hf => hatomic _ _ c _ hf rfl⟩

end Sys2Proof.Machine
end

section
/-! PROOFS. Tile instructions (spec/03 R95, R99 to R102; spec/12 R349): their checks, and what each answers after them. -/
namespace Sys2Proof.Machine

open Sys2Proof.Safety

variable {s : State} {g : TlbEntry}

/-! ## The checks -/

theorem tileBooked_ok (h : s.booked = false) : tileBooked s = .ok () := by simp [tileBooked, h]

/-- The page of a virtual address is mapped by the entry in the core's TLB with the rights needed. -/
def MapsPage (s : State) (v : Word) (need : Need) (g : TlbEntry) : Prop :=
  s.ws.atp.getLsbD 63 = true ∧ s.core.tlb.find? (fun y => y.covers s.ws.vfn (v.toNat / 65536)) = some g ∧
    s.leafCheck s.ws.vfn (!s.ws.sup) need g = none

theorem translatePage_ok {v : Word} {need : Need} (h : MapsPage s v need g) :
    translatePage s need v (v.toNat / 65536) = .ok (g, viaTlb s g) := by
  obtain ⟨hatp, hfind, hleaf⟩ := h
  have hleaf' : (viaTlb s g).leafCheck s.ws.vfn (!s.ws.sup) need g = none := hleaf
  unfold translatePage
  simp only [hatp, Bool.true_eq_false, if_false, State.tlbFind_hit hfind, hleaf']

theorem Cap.base_lt (c : Cap) : c.base < 2 ^ 55 := Nat.mod_lt _ (by decide)

theorem capGate_ok {c : Cap} {rights : Nat} (ht : c.tag = true) (hr : c.rights &&& rights = rights) : capGate s c 0 0 rights = .ok () := by
  have hcheck : c.check 0 0 rights = 0 := by
    rw [Nat.and_comm] at hr
    simp [Cap.check, ht, hr]
  simp [capGate, hcheck]

theorem capFresh_ok {c : Cap} (h : (s.tile c.tid).gen.toNat = c.gen) (v : Word) : capFresh s c v = .ok () := by
  rw [capFresh, if_pos h]

/-- A tile instruction on a current capability with the rights whose BASE translates goes on after the translation (R27). -/
theorem tileCapGate_ok {c : Cap} {rights : Nat} {need : Need} (hn : NoAcquire s) (ht : c.tag = true)
    (hr : c.rights &&& rights = rights) (hg : (s.tile c.tid).gen.toNat = c.gen) (hm : MapsPage s (BitVec.ofNat 64 c.base) need g) :
    tileCapGate s c rights need = .ok (viaTlb s g) := by
  have hbase : (BitVec.ofNat 64 c.base).toNat = c.base := by
    have := Cap.base_lt c
    rw [BitVec.toNat_ofNat]
    omega
  have htr := translatePage_ok hm
  rw [hbase] at htr
  have hfresh : capFresh (viaTlb s g) c (BitVec.ofNat 64 c.base) = .ok () := capFresh_ok (s := viaTlb s g) hg _
  unfold tileCapGate
  rw [capGate_ok ht hr, ok_bind]
  dsimp only
  rw [accessReady_ok hn, ok_bind, htr, ok_bind]
  dsimp only
  rw [hfresh]
  rfl

/-- The release before a pass is complete (R99, R137). -/
theorem passRelease_ok (hc : s.slot.trk.count = 0) (hk : s.core.carry.count = 0) (hq : s.slot.relq = [])
    (hv : s.frmOn = true ∨ s.trackV ≤ s.releaseTime s.dn) : passRelease s = .ok () := by
  have hlate : ¬ ((!s.frmOn) = true ∧ s.releaseTime s.dn < s.trackV) := by
    rintro ⟨hf, hlt⟩
    rcases hv with hv | hv
    · rw [hv] at hf
      cases hf
    · omega
  unfold passRelease
  rw [if_neg (by simp [hc, hk, hq]), if_neg hlate]

/-! ## How an instruction ends -/

/-- An instruction that completes on a state retires there (R349). -/
theorem retires_done {i : Instr} {t : State} {d : SReg} {ks : List (Bool × SReg)} {y : Word}
    (h : exec i s = finish (.ok (t.doneS d ks y))) : Retires i s t d ks y := ⟨_, h, doneS_plain t d ks y⟩

/-- The capability register that a tile instruction names is dead when it is marked (R166). -/
def lastCap (la : Bool) (f : CReg) (s : State) : State := s.onWs (fun w => if la then w.killC f else w)

/-- The result of an operation that gives no capability (R349). -/
theorem tileResult_none (s : State) (o : TileOp) (d : SReg) (f : CReg) (la : Bool) (ks : List (Bool × SReg)) :
    tileResult s o none d ks [(la, f)] = (lastCap la f s.dropTileOp).doneS d ks (BitVec.ofNat 64 o.status) := rfl

/-- The result of a declaration: its capability when it has succeeded (R95). -/
theorem tileResult_declared (s : State) (o : TileOp) (e : CReg) (d : SReg) (ks : List (Bool × SReg)) :
    tileResult s o (some e) d ks [] = (if o.status = 0 then s.dropTileOp.onWs (fun w => w.setC e
      (capOf (s.tile o.tid).vbase (s.tile o.tid).len (s.tile o.tid).gen.toNat s.cn 7 o.tid)) else s.dropTileOp).doneS d ks
      (BitVec.ofNat 64 o.status) := rfl

/-! ## `tdecl` -/

section
variable {d a b : SReg} {e : CReg} {la lb : Bool}

theorem tdecl_answers (hb : s.booked = false) (hf : TokensFree s [a, b, d]) {o : TileOp} (ho : s.tileOp = some o) (hd : o.done = true) :
    exec (.tdecl e a b d la lb) s = finish (.ok (tileResult s o (some e) d [(la, a), (lb, b)] [])) := by
  show execTdecl e a b d la lb s = _
  unfold execTdecl
  rw [tokensReady_ok hf, ok_bind]
  dsimp only
  rw [tileBooked_ok hb, ok_bind, ho]
  simp only [hd, if_true]

theorem viaTlb_freeTile (s : State) (g : TlbEntry) (n : Nat) : (viaTlb s g).freeTile n = s.freeTile n := by
  unfold State.freeTile; rfl
theorem viaTlb_lineHome (s : State) (g : TlbEntry) (line : Nat) : (viaTlb s g).lineHome line = s.lineHome line := rfl

theorem viaTlb_noTiles (s : State) (g : TlbEntry) : (viaTlb s g).noTiles = s.noTiles := rfl

/-- A declaration that may start: refused by its place, by a full table, or started (R95). -/
theorem tdecl_starts (hb : s.booked = false) (hf : TokensFree s [a, b, d]) (ho : s.tileOp = none) (hn : NoAcquire s)
    (hv : (s.ws.getS a).toNat < 2 ^ 55) (hm : MapsPage s (s.ws.getS a) .both g) :
    exec (.tdecl e a b d la lb) s = finish (
      let status := if s.noTiles then 4 else tilePlaceStatus g (s.ws.getS a).toNat (s.ws.getS b).toNat
      if status ≠ 0 then .ok ((viaTlb s g).doneS d [(la, a), (lb, b)] (BitVec.ofNat 64 status))
      else (s.freeTile (s.lineHome ((g.place (s.ws.getS a).toNat).line 0))).elim (.ok ((viaTlb s g).doneS d [(la, a), (lb, b)] 2))
        (fun tid => tileWait ((viaTlb s g).declare tid (g.place (s.ws.getS a).toNat) (s.ws.getS a).toNat (s.ws.getS b).toNat))) := by
  have hlow : ¬ 2 ^ 55 ≤ (s.ws.getS a).toNat := by omega
  show execTdecl e a b d la lb s = _
  unfold execTdecl
  rw [tokensReady_ok hf, ok_bind]
  dsimp only
  rw [tileBooked_ok hb, ok_bind, ho]
  dsimp only
  rw [accessReady_ok hn, ok_bind, if_neg hlow, translatePage_ok hm, ok_bind]
  dsimp only
  rw [viaTlb_freeTile, viaTlb_lineHome, viaTlb_noTiles, viaTlb_ws]
  cases s.freeTile (s.lineHome ((g.place (s.ws.getS a).toNat).line 0)) <;> rfl

end

/-! ## `tpass` -/

section
variable {d b : SReg} {f : CReg} {la lb : Bool}

theorem tpass_waits (hf : TokensFree s [d, b]) {o : TileOp} (ho : s.tileOp = some o) (hd : o.done = false) :
    exec (.tpass d f b la lb) s = .next (s.waitHere 0x23) := by
  show execTpass d f b la lb s = _
  unfold execTpass
  rw [tokensReady_ok hf, ok_bind]
  simp only [ho, hd]
  rfl

theorem tpass_answers (hf : TokensFree s [d, b]) {o : TileOp} (ho : s.tileOp = some o) (hd : o.done = true) :
    exec (.tpass d f b la lb) s = finish (.ok (tileResult s o none d [(lb, b)] [(la, f)])) := by
  show execTpass d f b la lb s = _
  unfold execTpass
  rw [tokensReady_ok hf, ok_bind]
  simp only [ho, hd, if_true]

/-- A pass whose capability allows it: refused by its status, or released and started (R99). -/
theorem tpass_starts (hb : s.booked = false) (hf : TokensFree s [d, b]) (ho : s.tileOp = none)
    (hg : tileCapGate s (s.ws.getC f) 4 noNeed = .ok (viaTlb s g)) :
    exec (.tpass d f b la lb) s = finish (
      let status := if s.noTiles then 4 else if !s.ownsTile (s.ws.getC f).tid then 8
        else if !s.corePresent (fld (s.ws.getS b) 10 0) then 10 else 0
      if status ≠ 0 then .ok ((lastCap la f (viaTlb s g)).doneS d [(lb, b)] (BitVec.ofNat 64 status))
      else do
        passRelease (viaTlb s g)
        tileWait ((viaTlb s g).pass (s.ws.getC f).tid (fld (s.ws.getS b) 10 0) (s.ws.getC f).rights)) := by
  show execTpass d f b la lb s = _
  unfold execTpass
  rw [tokensReady_ok hf, ok_bind]
  dsimp only
  rw [ho]
  dsimp only
  rw [hg, ok_bind, tileBooked_ok (s := viaTlb s g) hb]
  rfl

end

/-! ## `tacq`, `tundecl` and `tstat` -/

section
variable {d b : SReg} {f : CReg} {la lb : Bool}

/-- `tacq` of a current capability: its status, and the tile taken when that is 0 (R100). -/
theorem tacq_answers (hb : s.booked = false) (hf : TokensFree s [d]) (ht : (s.ws.getC f).tag = true)
    (hg : (s.tile (s.ws.getC f).tid).gen.toNat = (s.ws.getC f).gen) (hn : NoAcquire s) :
    exec (.tacq d f la) s = finish (.ok ((lastCap la f (if s.acquireStatus (s.ws.getC f).tid = 0 then
      s.onTile (s.ws.getC f).tid (fun q => { q with owner := q.next, next := 0, state := 1 }) else s)).doneS d []
        (BitVec.ofNat 64 (s.acquireStatus (s.ws.getC f).tid)))) := by
  show execTacq d f la s = _
  unfold execTacq
  rw [tokensReady_ok hf, ok_bind]
  dsimp only
  rw [if_pos ht, accessReady_ok hn, capFresh_ok hg, tileBooked_ok hb]
  rfl

theorem tundecl_answers (hf : TokensFree s [d]) {o : TileOp} (ho : s.tileOp = some o) (hd : o.done = true) :
    exec (.tundecl d f la) s = finish (.ok (tileResult s o none d [] [(la, f)])) := by
  show execTundecl d f la s = _
  unfold execTundecl
  rw [tokensReady_ok hf, ok_bind]
  simp only [ho, hd, if_true]

/-- The entry of a tile whose lines are to be unmarked (R101). -/
def TileEntry.unmarking (q : TileEntry) (slot : SlotId) : TileEntry :=
  { q with busy := true, left := q.len / 64, vt := 0, fail := 0, slot := slot }

/-- The unmarks of a tile's lines are due (R101). -/
def unmarksDue (tid die : Nat) (u : State) : State :=
  (u.tile tid).lines.foldl (fun u l => u.post u.pkg.ptime (.tun l ⟨tid, die⟩)) u

/-- The posts of a fold may name the die of the state at its start. -/
theorem unmarks_fold (l : List Nat) (tid : Nat) (u : State) :
    l.foldl (fun u l => u.post u.pkg.ptime (.tun l ⟨tid, u.dn⟩)) u = l.foldl (fun v l => v.post v.pkg.ptime (.tun l ⟨tid, u.dn⟩)) u := by
  induction l generalizing u with
  | nil => rfl
  | cons x l ih => rw [List.foldl_cons, ih]; rfl

/-- An undeclaration whose capability allows it: refused by its status, or started (R101). -/
theorem tundecl_starts (hb : s.booked = false) (hf : TokensFree s [d]) (ho : s.tileOp = none)
    (hg : tileCapGate s (s.ws.getC f) 3 .both = .ok (viaTlb s g)) :
    exec (.tundecl d f la) s = finish (
      if s.noTiles then .ok ((lastCap la f (viaTlb s g)).doneS d [] 4)
      else if s.ownsTile (s.ws.getC f).tid then
        tileWait ((unmarksDue (s.ws.getC f).tid s.dn ((viaTlb s g).onTile (s.ws.getC f).tid (fun q => q.unmarking s.core.cur))).addTileOp 2
          (s.ws.getC f).tid)
      else .ok ((lastCap la f (viaTlb s g)).doneS d [] 8)) := by
  show execTundecl d f la s = _
  unfold execTundecl
  rw [tokensReady_ok hf, ok_bind]
  dsimp only
  rw [ho]
  dsimp only
  rw [hg, ok_bind, tileBooked_ok (s := viaTlb s g) hb, ok_bind, unmarks_fold]
  rfl

theorem tstat_answers (hb : s.booked = false) (hf : TokensFree s [d, b]) (ht : (s.ws.getC f).tag = true) (hn : NoAcquire s) :
    exec (.tstat d f b la lb) s = finish (.ok ((lastCap la f s).doneS d [(lb, b)]
      (if (s.tile (s.ws.getC f).tid).vfn ≠ s.vfn ∧ s.vfn ≠ 0 then 0
       else (s.tile (s.ws.getC f).tid).word (fld (s.ws.getS b) 1 0)))) := by
  show execTstat d f b la lb s = _
  unfold execTstat
  rw [tokensReady_ok hf, ok_bind]
  dsimp only
  rw [if_pos ht, accessReady_ok hn, tileBooked_ok hb]
  rfl

theorem tstat_untagged (hf : TokensFree s [d, b]) (ht : (s.ws.getC f).tag = false) :
    exec (.tstat d f b la lb) s = .next (s.trap (Trap.mk0 0x07 0x10 (BitVec.ofNat 64 (s.ws.getC f).base) 0)) := by
  show execTstat d f b la lb s = _
  unfold execTstat
  rw [tokensReady_ok hf, ok_bind]
  dsimp only
  rw [if_neg (by rw [ht]; exact Bool.false_ne_true)]
  rfl

end

/-! ## Statuses -/

theorem noTiles_of_off (h : s.pkgx.enabled.getLsbD 3 = false) : s.noTiles = true := by
  unfold State.noTiles; rw [h]; rfl
theorem noTiles_of_on (h : ¬ s.pkgx.enabled.getLsbD 3 = false) : s.noTiles = false := by
  unfold State.noTiles; rw [Bool.not_eq_false _ |>.mp h]; rfl

theorem ownsTile_iff (s : State) (tid : Nat) :
    s.ownsTile tid = true ↔ (s.tile tid).state = 1 ∧ (s.tile tid).owner = s.cn ∧ (s.tile tid).busy = false := by
  simp [State.ownsTile, and_assoc]

/-- The status of `tacq` while tiles are enabled: the tile is passed, to this core, in its function (R100). -/
theorem acquireStatus_eq {tid : Nat} (h : s.noTiles = false) : s.acquireStatus tid =
    if (s.tile tid).state ≠ 2 then 8 else if (s.tile tid).next ≠ s.cn then 7 else if (s.tile tid).vfn ≠ s.vfn then 9 else 0 := by
  unfold State.acquireStatus
  rw [h]
  rfl

/-- Settles O38: each form's course after its checks, and the status that they leave. -/
theorem tileForms : Obligations.TileForms := by
  unfold Obligations.TileForms
  intro d e a b f la lb g s hb va len k base t t' maps off owns dies passes undeclares dest unmarks
  have hnot : ¬ owns → s.ownsTile k.tid = false := fun h => Bool.eq_false_iff.mpr (fun ho => h ((ownsTile_iff s k.tid).mp ho))
  have howns : owns → s.ownsTile k.tid = true := (ownsTile_iff s k.tid).mpr
  have hpass : NoAcquire s → passes → tileCapGate s k 4 noNeed = .ok t' := fun hn ⟨ht, hr, hg, hm⟩ => tileCapGate_ok hn ht hr hg hm
  have hundecl : NoAcquire s → undeclares → tileCapGate s k 3 .both = .ok t' := fun hn ⟨ht, hr, hg, hm⟩ => tileCapGate_ok hn ht hr hg hm
  have hresult : ∀ (i : Instr) (o : TileOp) (ks : List (Bool × SReg)), exec i s = finish (.ok (tileResult s o none d ks [(la, f)])) →
      Retires i s (dies s.dropTileOp) d ks (BitVec.ofNat 64 o.status) := fun i o ks h =>
    retires_done (h.trans (congrArg (fun u => finish (.ok u)) (tileResult_none s o d f la ks)))
  refine ⟨fun hf => ⟨fun ho hn hv hm => ?declares, fun o ho hd => ?declared⟩,
    fun hf => ⟨fun ho hn hp => ?passes, fun o ho hd => tpass_waits hf ho hd,
      fun o ho hd => hresult _ o _ (tpass_answers hf ho hd), fun ht hn => retires_done (tstat_answers hb hf ht hn), tstat_untagged hf⟩,
    fun hf => ⟨fun ht hg hn => ?acquires, fun ho hn hu => ?undeclares, fun o ho hd => hresult _ o _ (tundecl_answers hf ho hd)⟩⟩
  case declares =>
    intro status spare
    have hexec := tdecl_starts (e := e) (la := la) (lb := lb) hb hf ho hn hv hm
    have hstatus : (if s.noTiles then 4 else tilePlaceStatus g va.toNat len) = status := by
      by_cases h : off
      · simp only [noTiles_of_off h, if_true, status, if_pos h]
      · simp only [noTiles_of_on h, Bool.false_eq_true, if_false, status, if_neg h]
    rw [hstatus] at hexec
    dsimp only at hexec
    refine ⟨fun h => retires_done (by rw [hexec, if_pos h]), fun h hnone => retires_done ?_, fun tid h hsome => ?_⟩
    · rw [hexec, if_neg (not_not_intro h), show s.freeTile _ = none from hnone]
      rfl
    · rw [hexec, if_neg (not_not_intro h), show s.freeTile _ = some tid from hsome]
      rfl
  case declared =>
    have hexec := tdecl_answers (e := e) (la := la) (lb := lb) hb hf ho hd
    rw [tileResult_declared] at hexec
    refine ⟨fun h => retires_done ?_, fun h => retires_done ?_⟩
    · rw [hexec, if_pos h, h]
      rfl
    · rw [hexec, if_neg h]
  case passes =>
    have hexec := tpass_starts (la := la) (lb := lb) hb hf ho (hpass hn hp)
    dsimp only at hexec
    refine ⟨fun h => ?_, fun h hw => ?_, fun h hw hc => ?_, fun h hw hc htrk hcarry hrelq hv => ?_⟩
    · rw [noTiles_of_off h] at hexec
      exact retires_done hexec
    · rw [noTiles_of_on h, hnot hw] at hexec
      exact retires_done hexec
    · rw [noTiles_of_on h, howns hw, hc] at hexec
      exact retires_done hexec
    · rw [noTiles_of_on h, howns hw, hc, passRelease_ok (s := viaTlb s g) htrk hcarry hrelq hv] at hexec
      exact hexec
  case acquires =>
    have hexec := tacq_answers (la := la) hb hf ht hg hn
    have hrefused : ∀ n, n ≠ 0 → s.acquireStatus k.tid = n → Retires (.tacq d f la) s (dies s) d [] (BitVec.ofNat 64 n) := by
      intro n hn0 hst
      rw [hst, if_neg hn0] at hexec
      exact retires_done hexec
    refine ⟨fun h => ?_, fun h h2 => ?_, fun h h2 h3 => ?_, fun h h2 h3 h4 => ?_, fun h h2 h3 h4 => ?_⟩
    · exact hrefused 4 (by decide) (by rw [State.acquireStatus, noTiles_of_off h]; rfl)
    · exact hrefused 8 (by decide) ((acquireStatus_eq (noTiles_of_on h)).trans (if_pos h2))
    · exact hrefused 7 (by decide) ((acquireStatus_eq (noTiles_of_on h)).trans ((if_neg (not_not_intro h2)).trans (if_pos h3)))
    · exact hrefused 9 (by decide) ((acquireStatus_eq (noTiles_of_on h)).trans
        ((if_neg (not_not_intro h2)).trans ((if_neg (not_not_intro h3)).trans (if_pos h4))))
    · have hst : s.acquireStatus k.tid = 0 := (acquireStatus_eq (noTiles_of_on h)).trans
        ((if_neg (not_not_intro h2)).trans ((if_neg (not_not_intro h3)).trans (if_neg (not_not_intro h4))))
      rw [hst, if_pos rfl] at hexec
      exact retires_done hexec
  case undeclares =>
    have hexec := tundecl_starts (la := la) hb hf ho (hundecl hn hu)
    refine ⟨fun h => ?_, fun h hw => ?_, fun h hw => ?_⟩
    · rw [noTiles_of_off h] at hexec
      exact retires_done hexec
    · rw [noTiles_of_on h, hnot hw] at hexec
      exact retires_done hexec
    · rw [noTiles_of_on h, howns hw] at hexec
      exact hexec

end Sys2Proof.Machine
end

section
/-! PROOFS. The statement about the engines fails of an array whose accumulator map lists a slot twice (spec/12 R346, R348). -/
namespace Sys2Proof.Machine

/-- `mxzero` of accumulator slot 0, started. -/
def zeroSlot0 : MxCmd :=
  { id := 4, core := 0, slot := 0, wp := 0, task := 1, op := .zero 0x100, pal := 0, vfn := 0, atp := 0, user := false, pc := 0,
    started := true, parked := false, pos := 0, vt := 0, pend := 0, flags := 0, nv := false, ended := none, faddr := 0 }

/-- The machine after reset, but that cluster 0 runs `zeroSlot0` and that its map of accumulators has two entries of slot 0: the first is to
be released after its last command, the second holds the element 1 and hides behind the first. -/
def slotListedTwice : State :=
  State.reset.onCluster 0 (fun c => { c with arr := { MxArray.reset with
    acc := [(0, { holder := none, cells := [], releasing := true }), (0, { holder := none, cells := [(0, 1)], releasing := false })],
    queue := [zeroSlot0] } })

/-- Element 0 of accumulator slot 0 of cluster 0 in the state that an outcome answers. -/
def element0 (r : Host.Outcome State Fault Refusal) : Nat :=
  match r with
  | .next u => ((u.cluster 0).arr.accOf 0).cell 0
  | _ => 0

/-- The command zeroes the first entry, its end sweeps that entry away, and the second one is what the slot then holds. -/
theorem element0_zeroed : element0 (exec (.matrixCommandComplete 0 4) slotListedTwice) = 1 := by decide +kernel

/-- Refutes O51: its clause about `mxzero` takes every state, also one whose map of accumulators lists a slot twice. There the command
zeroes the first entry of the slot, its end sweeps that entry away (R348), and the second one, which was never zeroed, is what the slot
then holds. No run makes such a map, whose keys `mapSet` keeps rising; the statement does not ask for that form. -/
theorem not_engineEvents : ¬ Obligations.EngineEvents := by
  unfold Obligations.EngineEvents
  intro h
  obtain ⟨-, -, -, -, -, -, -, -, -, -, -, -, -, -, -, -, -, -, -, -, hcomplete, -⟩ :=
    h 0 0 4 0 0 0 0 0 0 0 0 0 ⟨0, 0, ⟨0, 0⟩⟩ slotListedTwice
  obtain ⟨-, hzero⟩ := hcomplete zeroSlot0 rfl
  obtain ⟨u, hexec, -, hcells⟩ := hzero 0x100 rfl rfl rfl rfl rfl rfl
  have hslot : ((u.cluster 0).arr.accOf 0).cell 0 = 0 := hcells 0 (List.mem_singleton.mpr rfl) 0
  have hleft := element0_zeroed
  rw [hexec] at hleft
  exact absurd (hslot.symm.trans hleft) (by decide)

end Sys2Proof.Machine
end
